-- ==== Sys2Proof/Word.lean ====
section
/-!
DEFINITION. The word types of the Linmond-8 and their plainest arithmetic: 64-bit register values, 32-bit lane masks and
code offsets, bytes, the 32 lanes of a crew, and the reading and writing of bit fields (R5, R16).
-/
namespace Sys2Proof

/-- A 64-bit value: a register of one lane, a virtual address, a doubleword of memory (R16). -/
abbrev Word := BitVec 64
/-- A 32-bit instruction word (R72). -/
abbrev Code := BitVec 32
/-- A code offset within a version's code space (R41). -/
abbrev Pc := BitVec 32
/-- A 32-bit lane mask: bit i stands for lane i (R21). -/
abbrev Mask := BitVec 32
/-- One byte of memory. -/
abbrev Byte := BitVec 8
/-- A lane of a crew, 0 to 31 (R2). -/
abbrev Lane := Fin 32
/-- One value for each of the 32 lanes of a crew. -/
abbrev Lanes (α : Type) := Vector α 32

/-- The 32 values `f 0 … f 31`. -/
def lanes (f : Lane → α) : Lanes α := Vector.ofFn f

/-- The same value in every lane. -/
def allLanes (x : α) : Lanes α := lanes fun _ => x

/-- The value of one lane. -/
def Lanes.at (v : Lanes α) (l : Lane) : α := v[l.val]

/-- All lanes in ascending order. -/
def laneList : List Lane := List.finRange 32

/-- Is lane `l` in the mask? -/
def inMask (m : Mask) (l : Lane) : Bool := m.getLsbD l.val

/-- The mask of the lanes that satisfy `p`. -/
def maskOf (p : Lane → Bool) : Mask :=
  laneList.foldl (fun m l => if p l then m ||| (1#32 <<< l.val) else m) 0#32

/-- The lanes of a mask in ascending order. -/
def maskLanes (m : Mask) : List Lane := laneList.filter (inMask m)

/-- The lowest lane of a mask, when it has one. -/
def lowest (m : Mask) : Option Lane := laneList.find? (inMask m)

/-- All 32 lanes. -/
def fullMask : Mask := 0xFFFFFFFF#32

/-- Bits [hi:lo] of a natural number. -/
def bits (x hi lo : Nat) : Nat := (x >>> lo) % 2 ^ (hi + 1 - lo)

/-- Bits [hi:lo] of a word, as a number. -/
def wbits (x : Word) (hi lo : Nat) : Nat := bits x.toNat hi lo

/-- One bit of a word. -/
def wbit (x : Word) (k : Nat) : Bool := x.getLsbD k

/-- The number read as signed at width `w` (R137). -/
def signed (w x : Nat) : Int := let y := x % 2 ^ w; if y < 2 ^ (w - 1) then y else (y : Int) - 2 ^ w

/-- An exact integer cut to `w` bits (R137). -/
def wrap (w : Nat) (x : Int) : Nat := (x % (2 ^ w : Nat)).toNat

/-- The bytes of a number in little-endian order (R5). -/
def toBytes (n x : Nat) : List Byte := (List.range n).map fun j => BitVec.ofNat 8 (x >>> (8 * j))

/-- The number of a little-endian list of bytes (R5). -/
def ofBytes : List Byte → Nat
  | [] => 0
  | b :: bs => b.toNat + 256 * ofBytes bs

/-! The arguments that events carry. An event stands for something that the world or a unit of the device does of its own
accord; the instructions are 32-bit words and carry bit fields only. -/

/-- A member of a sharer list: a core of the device (die × 32 + core) within its die's list, or a die across dies (R297). -/
inductive Member where
  | core (n : Nat)
  | die (n : Nat)
deriving DecidableEq, Repr

/-- An agent that can hold a copy or send a coherence message (R305). -/
inductive Party where
  | die (n : Nat)
  | umnor (port : Nat)
  | sharer (window : Nat)
deriving DecidableEq, Repr

/-- The structure that a soft error strikes (R304). -/
inductive Struck where
  | l1Line (core line : Nat)
  | l2Line (die line : Nat)
  | tlbEntry (core : Nat) (asid : BitVec 12) (va : Word)
  | slot (core slot : Nat)
  | scratchLine (gang line : Nat)
  | fifoEntry (gang core slot index : Nat)
  | accWord (gang word : Nat)
  | crewState (crew : Nat)
  | fstRecord (die table : Nat) (seq : Nat)
  | releaseRecord (line : Nat)
  | sharerPointers (line : Nat)
  /-- The tag of a line in its window's tag array (R286). -/
  | tag (line : Nat)
  /-- An entry of a die's last-level TLB. -/
  | dieTlb (die : Nat) (asid : BitVec 12) (va : Word)
deriving DecidableEq, Repr

/-- Why a power block steps its clock down (R351). -/
inductive StepReason where
  | power
  | temperature
  | droop
deriving DecidableEq, Repr

/-- What the partner of a CXL port offers in training (R341). Rates are in GT/s. -/
structure CxlPartner where
  flit256 : Bool
  rates : List Nat
  width : Nat
deriving DecidableEq, Repr

/-- One contribution of an ordered cross-device reduction, as it travels towards the root (R261, R346). `port` is the Umnor port on
which it arrived, none for one of this module. -/
structure Contribution where
  port : Option Nat
  group : BitVec 8
  tag : BitVec 32
  rank : BitVec 6
  incarnation : BitVec 16
  len : BitVec 24
  type : BitVec 3
  op : BitVec 2
  data : List Byte
  poison : List Bool
deriving DecidableEq, Repr

/-- What comes back to a contribution of an ordered reduction: the result's poison, a bit for each doubleword, or the root's refusal of the
contribution of a rank (R261, R346). -/
inductive CredReply where
  | poison (doublewords : List Bool)
  | refused (rank : BitVec 6)
deriving DecidableEq, Repr

end Sys2Proof
end

