-- ==== Sys2Proof/Syntax.lean ====
section
/-!
DEFINITION. The instructions of the Linmond-8: one constructor for each row of the opcode table. The encoded rows carry the
fields of their 32-bit word (R73, R80, R81). The event rows have no encoding: their arguments say which crew, core, job, line,
port or message the event concerns.
-/
namespace Sys2Proof

/-- One instruction or event of the opcode table. -/
inductive Instr where
  /-- NOP (R83): Hint word that does nothing; the all-zero word, also accepted in a Porter stream. -/
  | nop
  /-- STALL (R91): Hint that holds its crew from issuing for N core cycles. -/
  | stall (n : BitVec 6)
  /-- RND (R84): Hint giving the rounding mode of the following FMA-family target. -/
  | rnd (r : BitVec 3)
  /-- XIMM (R82): Hint carrying high immediate bits for the following immediate instruction. -/
  | ximm (e : BitVec 22)
  /-- GUARD (R84): Hint giving the guard predicate of the following Q-form instruction. -/
  | guard (p : BitVec 3)
  /-- SCOPE (R84): Hint giving the ordering and scope of the following ATOM or CAS. -/
  | scope (k : BitVec 3) (o : BitVec 2)
  /-- IADD (R138): Lane-wise wrapping integer add per sub-element. -/
  | iadd (g : BitVec 3) (d : BitVec 6) (a : BitVec 6) (b : BitVec 6) (w : BitVec 2)
  /-- ISUB (R138): Lane-wise wrapping integer subtract per sub-element. -/
  | isub (g : BitVec 3) (d : BitVec 6) (a : BitVec 6) (b : BitVec 6) (w : BitVec 2)
  /-- IMIN (R138): Signed minimum per sub-element. -/
  | imin (g : BitVec 3) (d : BitVec 6) (a : BitVec 6) (b : BitVec 6) (w : BitVec 2)
  /-- IMAX (R138): Signed maximum per sub-element. -/
  | imax (g : BitVec 3) (d : BitVec 6) (a : BitVec 6) (b : BitVec 6) (w : BitVec 2)
  /-- NMIN (R138): Unsigned minimum per sub-element. -/
  | nmin (g : BitVec 3) (d : BitVec 6) (a : BitVec 6) (b : BitVec 6) (w : BitVec 2)
  /-- NMAX (R138): Unsigned maximum per sub-element. -/
  | nmax (g : BitVec 3) (d : BitVec 6) (a : BitVec 6) (b : BitVec 6) (w : BitVec 2)
  /-- SADD (R138): Signed saturating add per sub-element. -/
  | sadd (g : BitVec 3) (d : BitVec 6) (a : BitVec 6) (b : BitVec 6) (w : BitVec 2)
  /-- SSUB (R138): Signed saturating subtract per sub-element. -/
  | ssub (g : BitVec 3) (d : BitVec 6) (a : BitVec 6) (b : BitVec 6) (w : BitVec 2)
  /-- IMUL_X (R139): 64-bit multiply, low 64 bits of the product. -/
  | imulX (g : BitVec 3) (d : BitVec 6) (a : BitVec 6) (b : BitVec 6)
  /-- IMUL_W (R139): 32-bit multiply per sub-element, low 32 bits. -/
  | imulW (g : BitVec 3) (d : BitVec 6) (a : BitVec 6) (b : BitVec 6)
  /-- IMULH_X (R139): High 64 bits of the signed 64-bit product. -/
  | imulhX (g : BitVec 3) (d : BitVec 6) (a : BitVec 6) (b : BitVec 6)
  /-- IMULH_W (R139): High 32 bits of the signed 32-bit product per sub-element. -/
  | imulhW (g : BitVec 3) (d : BitVec 6) (a : BitVec 6) (b : BitVec 6)
  /-- NMULH_X (R139): High 64 bits of the unsigned 64-bit product. -/
  | nmulhX (g : BitVec 3) (d : BitVec 6) (a : BitVec 6) (b : BitVec 6)
  /-- NMULH_W (R139): High 32 bits of the unsigned 32-bit product per sub-element. -/
  | nmulhW (g : BitVec 3) (d : BitVec 6) (a : BitVec 6) (b : BitVec 6)
  /-- IMULW (R139): Signed 32x32 to 64-bit widening multiply of the low words. -/
  | imulw (g : BitVec 3) (d : BitVec 6) (a : BitVec 6) (b : BitVec 6)
  /-- NMULW (R139): Unsigned 32x32 to 64-bit widening multiply of the low words. -/
  | nmulw (g : BitVec 3) (d : BitVec 6) (a : BitVec 6) (b : BitVec 6)
  /-- AND (R142): Bitwise and of A and B. -/
  | and (g : BitVec 3) (d : BitVec 6) (a : BitVec 6) (b : BitVec 6)
  /-- OR (R142): Bitwise or of A and B. -/
  | or (g : BitVec 3) (d : BitVec 6) (a : BitVec 6) (b : BitVec 6)
  /-- XOR (R142): Bitwise exclusive or of A and B. -/
  | xor (g : BitVec 3) (d : BitVec 6) (a : BitVec 6) (b : BitVec 6)
  /-- ANDN (R142): A and not B. -/
  | andn (g : BitVec 3) (d : BitVec 6) (a : BitVec 6) (b : BitVec 6)
  /-- ORN (R142): A or not B. -/
  | orn (g : BitVec 3) (d : BitVec 6) (a : BitVec 6) (b : BitVec 6)
  /-- SHL_X (R142): 64-bit left shift by B[5:0]. -/
  | shlX (g : BitVec 3) (d : BitVec 6) (a : BitVec 6) (b : BitVec 6)
  /-- SHL_W (R142): 32-bit left shift per sub-element. -/
  | shlW (g : BitVec 3) (d : BitVec 6) (a : BitVec 6) (b : BitVec 6)
  /-- SHR_X (R142): 64-bit logical right shift. -/
  | shrX (g : BitVec 3) (d : BitVec 6) (a : BitVec 6) (b : BitVec 6)
  /-- SHR_W (R142): 32-bit logical right shift per sub-element. -/
  | shrW (g : BitVec 3) (d : BitVec 6) (a : BitVec 6) (b : BitVec 6)
  /-- SAR_X (R142): 64-bit arithmetic right shift. -/
  | sarX (g : BitVec 3) (d : BitVec 6) (a : BitVec 6) (b : BitVec 6)
  /-- SAR_W (R142): 32-bit arithmetic right shift per sub-element. -/
  | sarW (g : BitVec 3) (d : BitVec 6) (a : BitVec 6) (b : BitVec 6)
  /-- ROL_X (R142): 64-bit rotate left. -/
  | rolX (g : BitVec 3) (d : BitVec 6) (a : BitVec 6) (b : BitVec 6)
  /-- ROL_W (R142): 32-bit rotate left per sub-element. -/
  | rolW (g : BitVec 3) (d : BitVec 6) (a : BitVec 6) (b : BitVec 6)
  /-- POPC (R142): Population count of A. -/
  | popc (g : BitVec 3) (d : BitVec 6) (a : BitVec 6)
  /-- CLZ (R142): Leading zero count of A. -/
  | clz (g : BitVec 3) (d : BitVec 6) (a : BitVec 6)
  /-- CTZ (R142): Trailing zero count of A. -/
  | ctz (g : BitVec 3) (d : BitVec 6) (a : BitVec 6)
  /-- BREV (R142): Bit reverse of A. -/
  | brev (g : BitVec 3) (d : BitVec 6) (a : BitVec 6)
  /-- SEL (R142): Per lane selects A or B by the predicate named in G; every lane writes. -/
  | sel (g : BitVec 3) (d : BitVec 6) (a : BitVec 6) (b : BitVec 6)
  /-- BFX (R144): Extract a bit field, zero-extended. -/
  | bfx (g : BitVec 3) (d : BitVec 6) (a : BitVec 6) (b : BitVec 6)
  /-- BFXS (R144): Extract a bit field, sign-extended. -/
  | bfxs (g : BitVec 3) (d : BitVec 6) (a : BitVec 6) (b : BitVec 6)
  /-- BFI (R144): Insert low bits of A into a field of D. -/
  | bfi (g : BitVec 3) (d : BitVec 6) (a : BitVec 6) (b : BitVec 6)
  /-- SEPERM (R144): Byte permute of A under nibble selectors in B. -/
  | seperm (g : BitVec 3) (d : BitVec 6) (a : BitVec 6) (b : BitVec 6)
  /-- IADDI (R141): Add a sign-extended immediate. -/
  | iaddi (g : BitVec 3) (d : BitVec 6) (a : BitVec 6) (i : BitVec 11)
  /-- ANDI (R141): And with a sign-extended immediate. -/
  | andi (g : BitVec 3) (d : BitVec 6) (a : BitVec 6) (i : BitVec 11)
  /-- ORI (R141): Or with a sign-extended immediate. -/
  | ori (g : BitVec 3) (d : BitVec 6) (a : BitVec 6) (i : BitVec 11)
  /-- XORI (R141): Exclusive or with a sign-extended immediate. -/
  | xori (g : BitVec 3) (d : BitVec 6) (a : BitVec 6) (i : BitVec 11)
  /-- SHLI (R143): Left shift by an immediate count. -/
  | shli (g : BitVec 3) (d : BitVec 6) (a : BitVec 6) (w : BitVec 2) (n : BitVec 6)
  /-- SHRI (R143): Logical right shift by an immediate count. -/
  | shri (g : BitVec 3) (d : BitVec 6) (a : BitVec 6) (w : BitVec 2) (n : BitVec 6)
  /-- SARI (R143): Arithmetic right shift by an immediate count. -/
  | sari (g : BitVec 3) (d : BitVec 6) (a : BitVec 6) (w : BitVec 2) (n : BitVec 6)
  /-- ROLI (R143): Rotate left by an immediate count. -/
  | roli (g : BitVec 3) (d : BitVec 6) (a : BitVec 6) (w : BitVec 2) (n : BitVec 6)
  /-- LIMM (R141): Load a sign-extended immediate. -/
  | limm (g : BitVec 3) (d : BitVec 6) (i : BitVec 17)
  /-- ICMP (R145): Integer compare of sub-element 0 writing a predicate and its complement. -/
  | icmp (g : BitVec 3) (p : BitVec 3) (q : BitVec 3) (a : BitVec 6) (b : BitVec 6) (k : BitVec 3) (w : BitVec 2)
  /-- ICMPI (R145): Integer compare with a signed immediate writing predicates. -/
  | icmpi (g : BitVec 3) (p : BitVec 3) (q : BitVec 3) (a : BitVec 6) (i : BitVec 6) (k : BitVec 3) (w : BitVec 2)
  /-- PAND (R147): Predicate and. -/
  | pand (g : BitVec 3) (p : BitVec 3) (q : BitVec 3) (x : BitVec 3) (y : BitVec 3)
  /-- POR (R147): Predicate or. -/
  | por (g : BitVec 3) (p : BitVec 3) (q : BitVec 3) (x : BitVec 3) (y : BitVec 3)
  /-- PXOR (R147): Predicate exclusive or. -/
  | pxor (g : BitVec 3) (p : BitVec 3) (q : BitVec 3) (x : BitVec 3) (y : BitVec 3)
  /-- PANDN (R147): Predicate and-not. -/
  | pandn (g : BitVec 3) (p : BitVec 3) (q : BitVec 3) (x : BitVec 3) (y : BitVec 3)
  /-- PNOT (R147): Predicate complement. -/
  | pnot (g : BitVec 3) (p : BitVec 3) (q : BitVec 3) (x : BitVec 3)
  /-- MSKR (R148): Reads a whole predicate mask into a register. -/
  | mskr (g : BitVec 3) (d : BitVec 6) (a : BitVec 6)
  /-- MSKW (R148): Writes predicate bits from lane bits of a register. -/
  | mskw (g : BitVec 3) (p : BitVec 3) (q : BitVec 3) (a : BitVec 6)
  /-- MOV (R149): Register move keeping tag, base and stride. -/
  | mov (g : BitVec 3) (d : BitVec 6) (a : BitVec 6)
  /-- MOVS (R149): Reads a status register into a vector register. -/
  | movs (g : BitVec 3) (d : BitVec 6) (b : BitVec 6)
  /-- WRS (R37): Writes a status register that has no row of its own, with the checks of R37. -/
  | wrs (g : BitVec 3) (a : BitVec 6) (b : BitVec 6)
  /-- WRS_FSTAT (R35): Writes FSTAT, trapping the whole fragment with ILLEGAL if any lane gives RM 6 or 7. -/
  | wrsFstat (g : BitVec 3) (a : BitVec 6)
  /-- LPERM (R150): Cross-lane byte permute. -/
  | lperm (g : BitVec 3) (d : BitVec 6) (a : BitVec 6) (b : BitVec 6)
  /-- LXOR (R150): Reads A from lane i xor L. -/
  | lxor (g : BitVec 3) (d : BitVec 6) (a : BitVec 6) (b : BitVec 6)
  /-- LUP (R150): Reads A from lane i minus n. -/
  | lup (g : BitVec 3) (d : BitVec 6) (a : BitVec 6) (b : BitVec 6)
  /-- LDOWN (R150): Reads A from lane i plus n. -/
  | ldown (g : BitVec 3) (d : BitVec 6) (a : BitVec 6) (b : BitVec 6)
  /-- LBC (R150): Broadcasts A from one lane. -/
  | lbc (g : BitVec 3) (d : BitVec 6) (a : BitVec 6) (b : BitVec 6)
  /-- BALLOT (R150): Mask of taking lanes whose A is nonzero. -/
  | ballot (g : BitVec 3) (d : BitVec 6) (a : BitVec 6)
  /-- VANY (R150): 1 if any taking lane has A nonzero. -/
  | vany (g : BitVec 3) (d : BitVec 6) (a : BitVec 6)
  /-- VALL (R150): 1 if every taking lane has A nonzero. -/
  | vall (g : BitVec 3) (d : BitVec 6) (a : BitVec 6)
  /-- ELECT (R150): 1 in the lowest taking lane, 0 in the others. -/
  | elect (g : BitVec 3) (d : BitVec 6)
  /-- LPFX (R150): Inclusive prefix sum of A over taking lanes. -/
  | lpfx (g : BitVec 3) (d : BitVec 6) (a : BitVec 6)
  /-- IMAD_X (R140): 64-bit multiply-add. -/
  | imadX (d : BitVec 6) (a : BitVec 6) (b : BitVec 6) (c : BitVec 6)
  /-- IMAD_W (R140): 32-bit multiply-add per sub-element. -/
  | imadW (d : BitVec 6) (a : BitVec 6) (b : BitVec 6) (c : BitVec 6)
  /-- IMADW (R140): Signed widening 32x32 multiply plus 64-bit C. -/
  | imadw (d : BitVec 6) (a : BitVec 6) (b : BitVec 6) (c : BitVec 6)
  /-- NMADW (R140): Unsigned widening 32x32 multiply plus 64-bit C. -/
  | nmadw (d : BitVec 6) (a : BitVec 6) (b : BitVec 6) (c : BitVec 6)
  /-- BRA (R155): Relative branch within the current overlay. -/
  | bra (g : BitVec 3) (o : BitVec 23)
  /-- CALL (R155): Relative call pushing a return entry. -/
  | call (g : BitVec 3) (o : BitVec 23)
  /-- BRX (R155): Branch to a register target within the overlay. -/
  | brx (g : BitVec 3) (a : BitVec 6)
  /-- CALLX (R155): Call to a register target, pushing a return entry. -/
  | callx (g : BitVec 3) (a : BitVec 6)
  /-- RET (R157): Pops a return entry with its checks and continues there. -/
  | ret (g : BitVec 3)
  /-- CONV (R159): Lanes wait until every lane named in their masks has arrived or exited. -/
  | conv (g : BitVec 3) (a : BitVec 6)
  /-- EXIT (R158): Ends each taking lane, discarding proposals and dropping its return stack. -/
  | exit (g : BitVec 3)
  /-- FADD (R165): Floating add rounded once. -/
  | fadd (g : BitVec 3) (d : BitVec 6) (a : BitVec 6) (b : BitVec 6) (r : BitVec 3) (t : BitVec 2)
  /-- FSUB (R165): Floating subtract rounded once. -/
  | fsub (g : BitVec 3) (d : BitVec 6) (a : BitVec 6) (b : BitVec 6) (r : BitVec 3) (t : BitVec 2)
  /-- FMUL (R165): Floating multiply rounded once. -/
  | fmul (g : BitVec 3) (d : BitVec 6) (a : BitVec 6) (b : BitVec 6) (r : BitVec 3) (t : BitVec 2)
  /-- FDIV (R165): Floating divide rounded once. -/
  | fdiv (g : BitVec 3) (d : BitVec 6) (a : BitVec 6) (b : BitVec 6) (r : BitVec 3) (t : BitVec 2)
  /-- FMA (R166): Fused a*b+c rounded once. -/
  | fma (d : BitVec 6) (a : BitVec 6) (b : BitVec 6) (c : BitVec 6) (t : BitVec 2)
  /-- FMS (R166): Fused a*b-c rounded once. -/
  | fms (d : BitVec 6) (a : BitVec 6) (b : BitVec 6) (c : BitVec 6) (t : BitVec 2)
  /-- FNMA (R166): Fused -(a*b)+c rounded once. -/
  | fnma (d : BitVec 6) (a : BitVec 6) (b : BitVec 6) (c : BitVec 6) (t : BitVec 2)
  /-- FNMS (R166): Fused -(a*b)-c rounded once. -/
  | fnms (d : BitVec 6) (a : BitVec 6) (b : BitVec 6) (c : BitVec 6) (t : BitVec 2)
  /-- FSQRT (R168): Correctly rounded square root. -/
  | fsqrt (g : BitVec 3) (d : BitVec 6) (a : BitVec 6) (r : BitVec 3) (t : BitVec 2)
  /-- FRSQ (R168): Correctly rounded reciprocal square root. -/
  | frsq (g : BitVec 3) (d : BitVec 6) (a : BitVec 6) (r : BitVec 3) (t : BitVec 2)
  /-- FRCP (R168): Correctly rounded reciprocal. -/
  | frcp (g : BitVec 3) (d : BitVec 6) (a : BitVec 6) (r : BitVec 3) (t : BitVec 2)
  /-- FEXP (R168): Correctly rounded e^x. -/
  | fexp (g : BitVec 3) (d : BitVec 6) (a : BitVec 6) (r : BitVec 3) (t : BitVec 2)
  /-- FEXP2 (R168): Correctly rounded 2^x. -/
  | fexp2 (g : BitVec 3) (d : BitVec 6) (a : BitVec 6) (r : BitVec 3) (t : BitVec 2)
  /-- FEXPM1 (R168): Correctly rounded e^x - 1. -/
  | fexpm1 (g : BitVec 3) (d : BitVec 6) (a : BitVec 6) (r : BitVec 3) (t : BitVec 2)
  /-- FLOG (R168): Correctly rounded natural logarithm. -/
  | flog (g : BitVec 3) (d : BitVec 6) (a : BitVec 6) (r : BitVec 3) (t : BitVec 2)
  /-- FLOG2 (R168): Correctly rounded base-2 logarithm. -/
  | flog2 (g : BitVec 3) (d : BitVec 6) (a : BitVec 6) (r : BitVec 3) (t : BitVec 2)
  /-- FLOG1P (R168): Correctly rounded ln(1+x). -/
  | flog1p (g : BitVec 3) (d : BitVec 6) (a : BitVec 6) (r : BitVec 3) (t : BitVec 2)
  /-- FERF (R168): Correctly rounded error function. -/
  | ferf (g : BitVec 3) (d : BitVec 6) (a : BitVec 6) (r : BitVec 3) (t : BitVec 2)
  /-- FERFC (R168): Correctly rounded complementary error function. -/
  | ferfc (g : BitVec 3) (d : BitVec 6) (a : BitVec 6) (r : BitVec 3) (t : BitVec 2)
  /-- FSIN (R168): Correctly rounded sine with exact reduction. -/
  | fsin (g : BitVec 3) (d : BitVec 6) (a : BitVec 6) (r : BitVec 3) (t : BitVec 2)
  /-- FCOS (R168): Correctly rounded cosine with exact reduction. -/
  | fcos (g : BitVec 3) (d : BitVec 6) (a : BitVec 6) (r : BitVec 3) (t : BitVec 2)
  /-- FTANH (R168): Correctly rounded hyperbolic tangent. -/
  | ftanh (g : BitVec 3) (d : BitVec 6) (a : BitVec 6) (r : BitVec 3) (t : BitVec 2)
  /-- FRINT (R169): Rounds to an integral value of the same type. -/
  | frint (g : BitVec 3) (d : BitVec 6) (a : BitVec 6) (r : BitVec 3) (t : BitVec 2)
  /-- FMIN (R171): IEEE minimum, NaN-propagating. -/
  | fmin (g : BitVec 3) (d : BitVec 6) (a : BitVec 6) (b : BitVec 6) (t : BitVec 2)
  /-- FMAX (R171): IEEE maximum, NaN-propagating. -/
  | fmax (g : BitVec 3) (d : BitVec 6) (a : BitVec 6) (b : BitVec 6) (t : BitVec 2)
  /-- FMINN (R171): minimumNumber. -/
  | fminn (g : BitVec 3) (d : BitVec 6) (a : BitVec 6) (b : BitVec 6) (t : BitVec 2)
  /-- FMAXN (R171): maximumNumber. -/
  | fmaxn (g : BitVec 3) (d : BitVec 6) (a : BitVec 6) (b : BitVec 6) (t : BitVec 2)
  /-- FABS (R170): Clears the sign bit. -/
  | fabs (g : BitVec 3) (d : BitVec 6) (a : BitVec 6) (t : BitVec 2)
  /-- FNEG (R170): Inverts the sign bit. -/
  | fneg (g : BitVec 3) (d : BitVec 6) (a : BitVec 6) (t : BitVec 2)
  /-- FCPS (R170): Copies the sign of B onto A. -/
  | fcps (g : BitVec 3) (d : BitVec 6) (a : BitVec 6) (b : BitVec 6) (t : BitVec 2)
  /-- FCLASS (R172): Writes a one-hot class mask. -/
  | fclass (g : BitVec 3) (d : BitVec 6) (a : BitVec 6) (t : BitVec 2)
  /-- FCMP (R173): Floating compare of sub-element 0 writing predicates. -/
  | fcmp (g : BitVec 3) (p : BitVec 3) (q : BitVec 3) (a : BitVec 6) (b : BitVec 6) (k : BitVec 3) (t : BitVec 2)
  /-- FCVT (R174): Converts between float and integer types. -/
  | fcvt (g : BitVec 3) (d : BitVec 6) (a : BitVec 6) (x : BitVec 4) (s : BitVec 4) (r : BitVec 3)
  /-- FKEY (R176): Maps floats to unsigned order keys. -/
  | fkey (g : BitVec 3) (d : BitVec 6) (a : BitVec 6) (s : BitVec 2)
  /-- RNG (R178): Philox4x32-10 draw into a register pair. -/
  | rng (g : BitVec 3) (d : BitVec 6) (a : BitVec 6) (b : BitVec 6)
  /-- LD (R182): Relaxed load per lane with replay of failing lanes. -/
  | ld (g : BitVec 3) (d : BitVec 6) (a : BitVec 6) (o : BitVec 8) (s : BitVec 3)
  /-- ST (R182): Relaxed store per lane. -/
  | st (g : BitVec 3) (d : BitVec 6) (a : BitVec 6) (o : BitVec 8) (s : BitVec 3)
  /-- LDP (R184): Load that parks until its scratchpad lines are present. -/
  | ldp (g : BitVec 3) (d : BitVec 6) (a : BitVec 6) (o : BitVec 8) (s : BitVec 3)
  /-- STP (R183): Store that sets the line's presence bit after writing. -/
  | stp (g : BitVec 3) (d : BitVec 6) (a : BitVec 6) (o : BitVec 8) (s : BitVec 3)
  /-- LDACQ (R186): Acquire load at a scope. -/
  | ldacq (g : BitVec 3) (d : BitVec 6) (a : BitVec 6) (k : BitVec 3) (s : BitVec 3)
  /-- STREL (R186): Release store at a scope, carried out by lazy release. -/
  | strel (g : BitVec 3) (d : BitVec 6) (a : BitVec 6) (k : BitVec 3) (s : BitVec 3)
  /-- ATOM (R187): Indivisible RMW per lane returning the old value. -/
  | atom (g : BitVec 3) (d : BitVec 6) (a : BitVec 6) (b : BitVec 6) (p : BitVec 4) (z : BitVec 1)
  /-- RED (R189): Reduction with no result, at the home or buffered on an ORDERED page. -/
  | red (g : BitVec 3) (k : BitVec 3) (o : BitVec 2) (a : BitVec 6) (b : BitVec 6) (p : BitVec 4) (z : BitVec 1)
  /-- CAS (R188): Compare-and-swap per lane. -/
  | cas (d : BitVec 6) (a : BitVec 6) (b : BitVec 6) (c : BitVec 6) (t : BitVec 2)
  /-- FENCE (R195): Fence event at an ordering and scope. -/
  | fence (g : BitVec 3) (k : BitVec 3) (o : BitVec 2)
  /-- AFLUSH (R196): Gang flush point draining buffered REDs. -/
  | aflush (g : BitVec 3)
  /-- CLEAN (R197): Writes a line back, keeping the copy. -/
  | clean (g : BitVec 3) (a : BitVec 6) (l : BitVec 1)
  /-- INVAL (R197): Writes a line back and drops it from the L1. -/
  | inval (g : BitVec 3) (a : BitVec 6) (l : BitVec 1)
  /-- PSCRUB (R193): SUPER-only: zeroes a line and clears its poison. -/
  | pscrub (g : BitVec 3) (a : BitVec 6)
  /-- BAR (R199): Arrives at a gang barrier and waits for the generation. -/
  | bar (g : BitVec 3) (b : BitVec 6)
  /-- ARRIVE (R199): Arrives at a gang barrier and returns the generation count. -/
  | arrive (g : BitVec 3) (d : BitVec 6) (b : BitVec 6)
  /-- WAITB (R199): Waits until a barrier's generation passes a value. -/
  | waitb (g : BitVec 3) (a : BitVec 6) (b : BitVec 6)
  /-- BARC (R201): Arrives at the cluster barrier and waits. -/
  | barc (g : BitVec 3)
  /-- FIFOW (R204): Pushes lane values onto a FIFO slot without waiting. -/
  | fifow (g : BitVec 3) (d : BitVec 6) (a : BitVec 6) (b : BitVec 6)
  /-- FIFOR (R204): Pops one entry per lane, parking until filled. -/
  | fifor (g : BitVec 3) (d : BitVec 6) (b : BitVec 6)
  /-- BANKCFG (R205): Changes the mode of a logical bank slot. -/
  | bankcfg (g : BitVec 3) (d : BitVec 6) (a : BitVec 6)
  /-- PRESQ (R206): Queries the presence of a scratchpad line. -/
  | presq (g : BitVec 3) (d : BitVec 6) (a : BitVec 6)
  /-- PUB (R207): Starts publication of shadowed buffers and returns tokens. -/
  | pub (g : BitVec 3) (d : BitVec 6) (a : BitVec 6)
  /-- PUBWAIT (R208): Waits for a publication and returns its status. -/
  | pubwait (g : BitVec 3) (d : BitVec 6) (a : BitVec 6)
  /-- MMA (R221): Submits a matrix job from a job card and returns a token. -/
  | mma (g : BitVec 3) (d : BitVec 6) (a : BitVec 6)
  /-- MEPI (R227): Runs a standalone epilogue or retries a HELD job. -/
  | mepi (g : BitVec 3) (d : BitVec 6) (a : BitVec 6) (b : BitVec 6)
  /-- MWAIT (R224): Waits for a job to end or be HELD and writes its status. -/
  | mwait (g : BitVec 3) (d : BitVec 6) (a : BitVec 6)
  /-- MQRY (R224): Reads a job's status without waiting. -/
  | mqry (g : BitVec 3) (d : BitVec 6) (a : BitVec 6)
  /-- MCAN (R225): Cancels a job. -/
  | mcan (g : BitVec 3) (d : BitVec 6) (a : BitVec 6)
  /-- ACCZ (R229): Zeroes a range of accumulator space and clears its poison. -/
  | accz (g : BitVec 3) (a : BitVec 6) (b : BitVec 6)
  /-- ACCRD (R229): Reads 8 bytes of accumulator space. -/
  | accrd (g : BitVec 3) (d : BitVec 6) (a : BitVec 6)
  /-- ACCWR (R229): Writes 8 bytes of accumulator space. -/
  | accwr (g : BitVec 3) (a : BitVec 6) (b : BitVec 6)
  /-- CBLD (R230): Loads the core's 2 KiB VQ2 codebook. -/
  | cbld (g : BitVec 3) (a : BitVec 6)
  /-- FTAB (R248): Binds or unbinds a function-store table on every die. -/
  | ftab (g : BitVec 3) (d : BitVec 6) (a : BitVec 6) (b : BitVec 6)
  /-- FCALL (R241): Looks up the table; hits get a corrected value, misses enter the routine. -/
  | fcall (g : BitVec 3) (d : BitVec 6) (a : BitVec 6) (b : BitVec 6)
  /-- FPROBE (R243): Looks up the table without effect and returns a probe word. -/
  | fprobe (g : BitVec 3) (d : BitVec 6) (a : BitVec 6) (b : BitVec 6)
  /-- FRET (R244): Ends a routine, submits a table update and returns. -/
  | fret (g : BitVec 3) (d : BitVec 6) (a : BitVec 6) (b : BitVec 6)
  /-- FINS (R246): Inserts a record image from memory. -/
  | fins (g : BitVec 3) (d : BitVec 6) (a : BitVec 6) (b : BitVec 6)
  /-- FEVICT (R246): Removes every record containing the point. -/
  | fevict (g : BitVec 3) (d : BitVec 6) (a : BitVec 6) (b : BitVec 6)
  /-- FCLR (R246): Removes every record of the table on the issuing die. -/
  | fclr (g : BitVec 3) (b : BitVec 6)
  /-- FQRY (R247): Reads a counter or property of a table instance. -/
  | fqry (g : BitVec 3) (d : BitVec 6) (a : BitVec 6) (b : BitVec 6)
  /-- PBEGIN (R252): Enters proposal mode and clears the written mask. -/
  | pbegin (g : BitVec 3)
  /-- ACCEPT (R253): Metropolis test that commits or discards the proposal and counts. -/
  | accept (g : BitVec 3) (p : BitVec 3) (y : BitVec 1) (a : BitVec 6) (b : BitVec 6)
  /-- PCOMMIT (R254): Commits the proposal unconditionally. -/
  | pcommit (g : BitVec 3)
  /-- PDISC (R254): Discards the proposal unconditionally. -/
  | pdisc (g : BitVec 3)
  /-- PRUN (R265): Starts a Porter stream for the gang. -/
  | prun (g : BitVec 3) (d : BitVec 6) (a : BitVec 6) (b : BitVec 6)
  /-- SEMSIG (R264): Adds to a gang semaphore as a release. -/
  | semsig (g : BitVec 3) (a : BitVec 6) (b : BitVec 6)
  /-- SEMWAIT (R264): Waits for and takes a semaphore count as an acquire. -/
  | semwait (g : BitVec 3) (a : BitVec 6) (b : BitVec 6)
  /-- SEMQRY (R264): Reads a semaphore count. -/
  | semqry (g : BitVec 3) (d : BitVec 6) (b : BitVec 6)
  /-- OVLD (R270): Starts an overlay load without waiting. -/
  | ovld (g : BitVec 3) (d : BitVec 6) (a : BitVec 6)
  /-- OVWAIT (R271): Waits for an overlay to be resident. -/
  | ovwait (g : BitVec 3) (d : BitVec 6) (a : BitVec 6)
  /-- OVCALL (R272): Calls across overlays, parking until the target is resident. -/
  | ovcall (g : BitVec 3) (a : BitVec 6)
  /-- OVEVICT (R273): Frees an overlay or marks it evict-pending. -/
  | ovevict (g : BitVec 3) (d : BitVec 6) (a : BitVec 6)
  /-- OVQRY (R273): Reads an overlay's state word. -/
  | ovqry (g : BitVec 3) (d : BitVec 6) (a : BitVec 6)
  /-- TRAP (R277): Raises SWTRAP with a number. -/
  | trap (g : BitVec 3) (b : BitVec 6)
  /-- TRET (R331): Returns from a local handler, restoring the frame and replaying entries. -/
  | tret
  /-- YIELD (R277): Moves the crew behind every ready pending crew. -/
  | yield (g : BitVec 3)
  /-- SLEEP (R277): Parks the taking threads for at least a cycle count. -/
  | sleep (g : BitVec 3) (a : BitVec 6)
  /-- LAUNCH (R278): Submits a launch parameter block to a queue. -/
  | launch (g : BitVec 3) (d : BitVec 6) (a : BitVec 6) (b : BitVec 6)
  /-- EVSIG (R279): Adds to an event counter as a SYSTEM release. -/
  | evsig (g : BitVec 3) (a : BitVec 6) (b : BitVec 6)
  /-- EVWAIT (R279): Waits until event counters reach values. -/
  | evwait (g : BitVec 3) (a : BitVec 6) (b : BitVec 6)
  /-- CVPUB (R276): Publishes a code version. -/
  | cvpub (g : BitVec 3) (d : BitVec 6) (a : BitVec 6)
  /-- CVSWITCH (R276): Rebinds the crew to the current code version. -/
  | cvswitch (g : BitVec 3) (d : BitVec 6)
  /-- RDSYS (R277): SUPER-only read of a system register. -/
  | rdsys (g : BitVec 3) (d : BitVec 6) (b : BitVec 6)
  /-- WRSYS (R277): SUPER-only write of a system register that has no row of its own. -/
  | wrsys (g : BitVec 3) (a : BitVec 6) (b : BitVec 6)
  /-- WRSYS_OVQUOTA (R277): Writes the ASID's slot quota, clamped so the core's sum stays within 48. -/
  | wrsysOvquota (g : BitVec 3) (a : BitVec 6)
  /-- CPY (R259): Porter linear copy. -/
  | cpy (x : BitVec 3) (y : BitVec 3) (z : BitVec 3) (h : BitVec 1)
  /-- CPY2 (R259): Porter two-dimensional copy. -/
  | cpy2 (x : BitVec 3) (y : BitVec 3) (z : BitVec 3) (h : BitVec 1)
  /-- CPYT (R260): Porter tensor-window copy with zero padding. -/
  | cpyt (x : BitVec 3) (y : BitVec 3) (z : BitVec 3) (h : BitVec 1)
  /-- CFILL (R259): Porter fill with an 8-byte pattern. -/
  | cfill (x : BitVec 3) (y : BitVec 3) (z : BitVec 3) (h : BitVec 1)
  /-- CRED (R261): Porter contribution to an ordered cross-device reduction. -/
  | cred (x : BitVec 3) (y : BitVec 3) (z : BitVec 3) (t : BitVec 3) (o : BitVec 2)
  /-- CSIG (R262): Waits for earlier copies, then adds to a semaphore. -/
  | csig (k : BitVec 6) (s : BitVec 6)
  /-- CWAIT (R262): Porter waits for and takes a semaphore count. -/
  | cwait (k : BitVec 6) (s : BitVec 6)
  /-- CLOOP (R262): Decrements a Q register and branches while nonzero. -/
  | cloop (x : BitVec 3) (i : BitVec 12)
  /-- CEND (R262): Waits for every copy and ends the stream. -/
  | cend
  /-- CPUB (R262): Porter publishes a buffer and waits for completion. -/
  | cpub (x : BitVec 3)
  /-- CQSET_ADDI (R262): Qx := Qy plus a signed immediate. -/
  | cqsetAddi (x : BitVec 3) (y : BitVec 3) (i : BitVec 10)
  /-- CQSET_ADD (R262): Qx := Qy + Qz. -/
  | cqsetAdd (x : BitVec 3) (y : BitVec 3) (z : BitVec 3)
  /-- CQSET_LD (R262): Loads Qx from memory. -/
  | cqsetLd (x : BitVec 3) (y : BitVec 3) (i : BitVec 10)
  /-- STALL_EXPIRY (R91): A STALL count runs out and the crew may issue again. -/
  | stallExpiry (crew : Nat)
  /-- SLEEP_EXPIRY (R277): A SLEEP count runs out and the parked threads become live. -/
  | sleepExpiry (crew : Nat)
  /-- FAIRNESS_SWITCH (R152): After 64 consecutive issues by one set of threads, the longest-waiting fragment issues next. -/
  | fairnessSwitch (crew : Nat)
  /-- FORCED_EXCHANGE (R321): 1,024 cycles without a join forces the longest-resident active crew out for the longest-ready pending crew. -/
  | forcedExchange (core : Nat)
  /-- CLUSTER_BARRIER_COMPLETE (R201): After draining the cluster's buffered REDs, the cluster barrier generation completes. -/
  | clusterBarrierComplete (grid cluster : Nat)
  /-- LDP_PRESENCE_WAKE (R184): A parked LDP issues again once every line it names is present. -/
  | ldpPresenceWake (crew : Nat)
  /-- PORTER_COPY_COMPLETE (R259): A Porter copy finishes writing its bytes. -/
  | porterCopyComplete (core copy : Nat)
  /-- MATRIX_CHUNK (R113): The engine applies one K-chunk to a tile's accumulator elements. -/
  | matrixChunk (core job : Nat)
  /-- JOB_EPILOGUE (R220): The epilogue copies the region to staging, stores the outputs and ends the job. -/
  | jobEpilogue (core job : Nat)
  /-- OVERLAY_LOAD_COMPLETE (R267): An overlay becomes resident and the crews waiting on it issue. -/
  | overlayLoadComplete (core slot : Nat)
  /-- ASSAYER_UPDATE (R245): An update reaches the table instance and is applied as GROW, INSERT, EVICT, DUPLICATE or REJECT. -/
  | assayerUpdate (die table : Nat)
  /-- PUBLICATION_SWAP (R295): The buffer's shadow pages are swapped live once engine writes finish and TLBs drop the old mapping. -/
  | publicationSwap (gang seq : Nat)
  /-- RED_DRAIN_COMPLETE (R134): A flush point's sorted RED batch is applied and the flush point completes. -/
  | redDrainComplete (gang : Nat)
  /-- TAGGED_REQUEST (R192): A tagged memory-side operation arrives and is applied once or re-acknowledged. -/
  | taggedRequest (core : Nat) (seq : BitVec 32)
  /-- TAGGED_ACK (R192): A tagged request's acknowledgement arrives at the requesting core. -/
  | taggedAck (core : Nat) (seq : BitVec 32) (correctable : Bool)
  /-- REPLAY_INTERVAL_EXPIRY (R192): No acknowledgement within the replay interval; the request is sent again with the same tag. -/
  | replayIntervalExpiry (core : Nat) (seq : BitVec 32)
  /-- JOIN (R297): A requester joins a line's sharer list as head in S. -/
  | join (line : Nat) (m : Member)
  /-- UPG (R297): A requester asks to become the sole member in M. -/
  | upg (line : Nat) (m : Member)
  /-- PURGE (R297): A member drops its copy and forwards the purge. -/
  | purge (line : Nat) (m : Member)
  /-- PURGED (R297): The last member reports the purge complete. -/
  | purged (line : Nat) (m : Member)
  /-- LEAVE (R298): A member asks the home to unlink it from the list. -/
  | leave (line : Nat) (m : Member)
  /-- SETPREV (R297): A list member updates its previous pointer. -/
  | setprev (line : Nat) (m : Member) (dest : Option Nat)
  /-- SETNEXT (R297): A list member updates its next pointer. -/
  | setnext (line : Nat) (m : Member) (dest : Option Nat)
  /-- FETCH (R297): The M member returns its data and becomes S, or drops it. -/
  | fetch (line : Nat) (m : Member) (drop : Bool)
  /-- RECALL (R300): A core writes back dirty SELFINV lines marked below RSEQ. -/
  | recall (core : Nat) (rseq : BitVec 32)
  /-- RECALL_ACK (R300): The recalled core acknowledges and the home sets RD. -/
  | recallAck (line core : Nat)
  /-- HOME_RELEASE_TRANSACTION (R299): A release is performed at the home and records RCORE and RSEQ. -/
  | homeReleaseTransaction (line core : Nat)
  /-- HOME_ACQUIRE_TRANSACTION (R300): An acquire from another core is served at the home, recalling if needed. -/
  | homeAcquireTransaction (line core : Nat)
  /-- BACK_INVALIDATE_SNOOP (R302): An HDM-DB device snoop purges the line's lists and is answered. -/
  | backInvalidateSnoop (line : Nat)
  /-- GRID_ELIGIBLE (R310): A grid becomes eligible, its block is read whole and checked. -/
  | gridEligible (queue : BitVec 6)
  /-- CLUSTER_PLACE (R311): The dispatcher places the next cluster of the grid in service when there is room. -/
  | clusterPlace
  /-- QUANTUM_SLICE_END (R314): A QUANTUM slice expires and clusters are pre-empted and placed. -/
  | quantumSliceEnd (grid : Nat)
  /-- PREEMPTION (R335): A gang is stopped at an instruction boundary and its save area written. -/
  | preemption (gang : Nat)
  /-- RESUMPTION (R340): Foreman resumes a saved gang on cores that meet the placement rules. -/
  | resumption (gang core : Nat)
  /-- GRID_COMPLETION (R316): After all gangs are freed the grid completes in seven ordered steps. -/
  | gridCompletion (grid : Nat)
  /-- TRAP_VECTOR (R326): A trapping fragment writes its frame and starts its handler, or parks for Foreman. -/
  | trapVector (crew : Nat)
  /-- CRED_RESULT (R261): The root's result reaches a member, which writes it at its Qx. -/
  | credResult (core : Nat) (group : BitVec 8) (tag : BitVec 32) (data : List (BitVec 8)) (reply : CredReply)
  /-- UNUSED_ENCODING (R86): A fragment issues a word that is no valid instruction (reserved major, sub-code beyond the lists, nonzero reserved bits, reserved hint kind) and traps with ILLEGAL or RESBITS. -/
  | unusedEncoding (word : BitVec 32)
  /-- UNFINISHED_INSTRUCTION_FINISH (R329): A memory instruction left unfinished after issue (LD, ST, LDACQ, ATOM and the like) completes its lanes, writing results, freeing one of the crew's 8 places and making a held crew ready. -/
  | unfinishedInstructionFinish (crew entry : Nat)
  /-- PORTER_RESUME (R258): Foreman resumes a stopped Porter at its faulting word. -/
  | porterResume (core : Nat)
  /-- FOREMAN_RETRY_JOB (R227): Foreman retries a HELD job, storing only the tiles whose bit is 0. -/
  | foremanRetryJob (core job : Nat)
  /-- FOREMAN_REPAIR_OPERAND (R228): Foreman repairs an operand translation so the job continues, or it becomes FAULTED. -/
  | foremanRepairOperand (core job : Nat) (repaired : Bool)
  /-- FOREMAN_EXTEND_SPILL (R190): Foreman extends a full spill area and resumes the crew, or ends the grid. -/
  | foremanExtendSpill (asid : BitVec 12) (entries : Nat) (endGrid : Bool)
  /-- FOREMAN_GROW_CARVEOUT (R250): Foreman grows the carve-out for a full DEFERRED queue and resumes, or ends the grid. -/
  | foremanGrowCarveout (die records : Nat) (endGrid : Bool)
  /-- PAGE_WALK (R290): A walker translates a missed (ASID, page) through four levels. -/
  | pageWalk (core : Nat) (asid : BitVec 12) (va : Word)
  /-- TLB_INVALIDATE (R293): Foreman invalidates an (ASID, VA) range in every TLB of the device. -/
  | tlbInvalidate (asid : BitVec 12) (first last : Word)
  /-- SOFT_ERROR (R304): A SECDED error is corrected or handled by the struck structure. -/
  | softError (place : Struck) (correctable : Bool)
  /-- BACKGROUND_SCRUB (R304): The scrubber reads every L2 line and accumulator word within its period. -/
  | backgroundScrub (die : Nat)
  /-- AGENT_DECLARED_DEAD (R305): A timeout declares an agent dead and its incarnation number grows. -/
  | agentDeclaredDead (agent : Party)
  /-- DCD_RELEASE_REQUEST (R342): A memory device asks to release a dynamic-capacity extent. -/
  | dcdReleaseRequest (asid : BitVec 12) (first last : Word)
  /-- HOST_LAUNCH_SUBMIT (R310): A host submits a launch through Foreman to a named queue. -/
  | hostLaunchSubmit (asid : BitVec 12) (queue : BitVec 6) (block : Word)
  /-- QUEUE_BIND (R310): Foreman binds a launch queue to an ASID or to none. -/
  | queueBind (queue : BitVec 6) (asid : Option (BitVec 12))
  /-- FOREMAN_REPAIR_MAPPING (R310): Foreman repairs a failed launch-related access so it is retried, or abandons it. -/
  | foremanRepairMapping (queue : BitVec 6) (repaired : Bool)
  /-- FOREMAN_RESUME (R331): Foreman resumes a parked fragment as TRET would. -/
  | foremanResume (crew slot : Nat)
  /-- FOREMAN_KILL_CREW (R325): Foreman kills a crew, ending each thread as EXIT does. -/
  | foremanKillCrew (crew : Nat)
  /-- FOREMAN_END_GRID (R325): Foreman ends a grid, which completes with STATUS 3. -/
  | foremanEndGrid (grid : Nat) (cause : BitVec 8) (addr : Word)
  /-- FOREMAN_WITHDRAW_LANE (R333): Foreman moves or kills a lane waiting at a CONV and the test is made again. -/
  | foremanWithdrawLane (crew : Nat) (lane : BitVec 5) (pc : Option (BitVec 32))
  /-- FOREMAN_CREATE_VERSION (R274): Foreman creates an unpublished version with a writable code copy after a CODE store fault. -/
  | foremanCreateVersion (crew slot : Nat) (version : BitVec 16) (codeMap copy : Nat)
  /-- FSTSIZE_SET (R283): Foreman sets a die's function-store carve-out size. -/
  | fstsizeSet (die records : Nat)
  /-- GROUP_TABLE_WRITE (R346): Foreman writes an ordered-reduction group entry. -/
  | groupTableWrite (group : BitVec 8) (entry : Word)
  /-- CRED_CONTRIBUTION (R261): A contribution reaches a module towards the root and is forwarded or held. -/
  | credContribution (c : Contribution)
  /-- UMNOR_DATA_FLIT (R344): A DATA flit arrives and is accepted in order or dropped. -/
  | umnorDataFlit (port : Nat) (flit : List (BitVec 8))
  /-- UMNOR_IDLE_FLIT (R343): An IDLE flit arrives carrying acknowledgement, NAK and STOP state. -/
  | umnorIdleFlit (port : Nat) (flit : List (BitVec 8))
  /-- UMNOR_NEG_FLIT (R345): A NEG flit arrives and the ends adopt a common lane count and rate. -/
  | umnorNegFlit (port : Nat) (flit : List (BitVec 8))
  /-- UMNOR_REPLAY_TIMEOUT (R344): 2 µs without ACKSEQ advancing; the sender resends from the oldest unacknowledged flit. -/
  | umnorReplayTimeout (port : Nat)
  /-- UMNOR_RETRAIN (R345): After 16 replays of one flit the port retrains. -/
  | umnorRetrain (port : Nat) (ok : Bool)
  /-- CXL_PORT_TRAINING (R341): A CXL port trains to a rate and width or is disabled. -/
  | cxlPortTraining (port : Nat) (partner : CxlPartner)
  /-- POWER_GOOD (R349): Power-good starts the boot sequence from ROM. -/
  | powerGood
  /-- BOOT_IMAGE_CHECK (R350): A fetched boot image is checked and accepted or refused. -/
  | bootImageCheck (image : List (BitVec 8))
  /-- ATTESTATION_REQUEST (R350): Foreman signs the accepted DIGEST with a host nonce. -/
  | attestationRequest (nonce : Word)
  /-- POWER_SAMPLE (R351): Every 1 ms the hub measures input power and scales budgets. -/
  | powerSample (milliwatts : Nat)
  /-- CLOCK_STEP (R351): A power block steps its clock down on power, temperature or droop. -/
  | clockStep (block : Nat) (down : Bool) (reason : StepReason)
  /-- THERMAL_STOP (R351): At 110 °C a block stops its clock, keeping state. -/
  | thermalStop (block : Nat)
  /-- THERMAL_RESUME (R351): A stopped block restarts its clock on cooling to 95 °C. -/
  | thermalResume (block : Nat)
  /-- ERROR_COUNT_LOG (R352): Every 2^30 cycles Foreman logs a die's error counts. -/
  | errorCountLog (die : Nat)
  /-- EVENT_LOG_READ (R352): The host reads the event log over Ethernet. -/
  | eventLogRead (host : Nat)
  /-- ETHERNET_LINK_DOWN (R348): An Ethernet link goes down and host traffic moves to the other port. -/
  | ethernetLinkDown (port : Nat)
  /-- ETHERNET_LINK_UP (R348): An Ethernet port's link comes back up and the port can again carry Foreman's host traffic. -/
  | ethernetLinkUp (port : Nat)
deriving DecidableEq, Repr

end Sys2Proof
end

