-- ==== Sys2Proof/Decode.lean ====
section
/-!
DEFINITION. Decoding of instruction words and their encoder, from the forms of R73, the opcode map of R80 and the departures of
R81; the fields each instruction uses (R74 to R76); and the conditions under which a decoded word still raises ILLEGAL (R78, R79,
R81, R86) or RESBITS (R75, R86).
-/
namespace Sys2Proof

/-- The width in bits of a sub-element for a width code W (R78). -/
def widthOf (w : BitVec 2) : Nat := 64 / 2 ^ w.toNat

/-- A D field that names no register pair: an odd register, a latch, a constant or "none" (R81). -/
def badPair (d : BitVec 6) : Bool := d ≥ 48 || d.getLsbD 0

/-- The register sources of a store: the D field, its partner for an X2 store, and the address (R182). -/
def storeSources (s : BitVec 3) (d a : BitVec 6) : List (BitVec 6) :=
  if s == 7 then [d, d + 1, a] else [d, a]

/-- The sub-operations of major 0x00 (R80). -/
def decodeHint (w : Code) : Option Instr :=
  match (w.extractLsb' 22 4).toNat with
  | 0 => some .nop
  | 1 => some (.stall (w.extractLsb' 0 6))
  | 2 => some (.rnd (w.extractLsb' 0 3))
  | 3 => some (.ximm (w.extractLsb' 0 22))
  | 4 => some (.guard (w.extractLsb' 0 3))
  | 5 => some (.scope (w.extractLsb' 2 3) (w.extractLsb' 0 2))
  | _ => none

/-- The sub-operations of major 0x01 (R80). -/
def decodeIop (w : Code) : Option Instr :=
  match (w.extractLsb' 2 3).toNat with
  | 0 => some (.iadd (w.extractLsb' 23 3) (w.extractLsb' 17 6) (w.extractLsb' 11 6) (w.extractLsb' 5 6) (w.extractLsb' 0 2))
  | 1 => some (.isub (w.extractLsb' 23 3) (w.extractLsb' 17 6) (w.extractLsb' 11 6) (w.extractLsb' 5 6) (w.extractLsb' 0 2))
  | 2 => some (.imin (w.extractLsb' 23 3) (w.extractLsb' 17 6) (w.extractLsb' 11 6) (w.extractLsb' 5 6) (w.extractLsb' 0 2))
  | 3 => some (.imax (w.extractLsb' 23 3) (w.extractLsb' 17 6) (w.extractLsb' 11 6) (w.extractLsb' 5 6) (w.extractLsb' 0 2))
  | 4 => some (.nmin (w.extractLsb' 23 3) (w.extractLsb' 17 6) (w.extractLsb' 11 6) (w.extractLsb' 5 6) (w.extractLsb' 0 2))
  | 5 => some (.nmax (w.extractLsb' 23 3) (w.extractLsb' 17 6) (w.extractLsb' 11 6) (w.extractLsb' 5 6) (w.extractLsb' 0 2))
  | 6 => some (.sadd (w.extractLsb' 23 3) (w.extractLsb' 17 6) (w.extractLsb' 11 6) (w.extractLsb' 5 6) (w.extractLsb' 0 2))
  | 7 => some (.ssub (w.extractLsb' 23 3) (w.extractLsb' 17 6) (w.extractLsb' 11 6) (w.extractLsb' 5 6) (w.extractLsb' 0 2))
  | _ => none

/-- The sub-operations of major 0x02 (R80). -/
def decodeImul (w : Code) : Option Instr :=
  match (w.extractLsb' 0 5).toNat with
  | 0 => some (.imulX (w.extractLsb' 23 3) (w.extractLsb' 17 6) (w.extractLsb' 11 6) (w.extractLsb' 5 6))
  | 1 => some (.imulW (w.extractLsb' 23 3) (w.extractLsb' 17 6) (w.extractLsb' 11 6) (w.extractLsb' 5 6))
  | 2 => some (.imulhX (w.extractLsb' 23 3) (w.extractLsb' 17 6) (w.extractLsb' 11 6) (w.extractLsb' 5 6))
  | 3 => some (.imulhW (w.extractLsb' 23 3) (w.extractLsb' 17 6) (w.extractLsb' 11 6) (w.extractLsb' 5 6))
  | 4 => some (.nmulhX (w.extractLsb' 23 3) (w.extractLsb' 17 6) (w.extractLsb' 11 6) (w.extractLsb' 5 6))
  | 5 => some (.nmulhW (w.extractLsb' 23 3) (w.extractLsb' 17 6) (w.extractLsb' 11 6) (w.extractLsb' 5 6))
  | 6 => some (.imulw (w.extractLsb' 23 3) (w.extractLsb' 17 6) (w.extractLsb' 11 6) (w.extractLsb' 5 6))
  | 7 => some (.nmulw (w.extractLsb' 23 3) (w.extractLsb' 17 6) (w.extractLsb' 11 6) (w.extractLsb' 5 6))
  | _ => none

/-- The sub-operations of major 0x03 (R80). -/
def decodeLogic (w : Code) : Option Instr :=
  match (w.extractLsb' 0 5).toNat with
  | 0 => some (.and (w.extractLsb' 23 3) (w.extractLsb' 17 6) (w.extractLsb' 11 6) (w.extractLsb' 5 6))
  | 1 => some (.or (w.extractLsb' 23 3) (w.extractLsb' 17 6) (w.extractLsb' 11 6) (w.extractLsb' 5 6))
  | 2 => some (.xor (w.extractLsb' 23 3) (w.extractLsb' 17 6) (w.extractLsb' 11 6) (w.extractLsb' 5 6))
  | 3 => some (.andn (w.extractLsb' 23 3) (w.extractLsb' 17 6) (w.extractLsb' 11 6) (w.extractLsb' 5 6))
  | 4 => some (.orn (w.extractLsb' 23 3) (w.extractLsb' 17 6) (w.extractLsb' 11 6) (w.extractLsb' 5 6))
  | 5 => some (.shlX (w.extractLsb' 23 3) (w.extractLsb' 17 6) (w.extractLsb' 11 6) (w.extractLsb' 5 6))
  | 6 => some (.shlW (w.extractLsb' 23 3) (w.extractLsb' 17 6) (w.extractLsb' 11 6) (w.extractLsb' 5 6))
  | 7 => some (.shrX (w.extractLsb' 23 3) (w.extractLsb' 17 6) (w.extractLsb' 11 6) (w.extractLsb' 5 6))
  | 8 => some (.shrW (w.extractLsb' 23 3) (w.extractLsb' 17 6) (w.extractLsb' 11 6) (w.extractLsb' 5 6))
  | 9 => some (.sarX (w.extractLsb' 23 3) (w.extractLsb' 17 6) (w.extractLsb' 11 6) (w.extractLsb' 5 6))
  | 10 => some (.sarW (w.extractLsb' 23 3) (w.extractLsb' 17 6) (w.extractLsb' 11 6) (w.extractLsb' 5 6))
  | 11 => some (.rolX (w.extractLsb' 23 3) (w.extractLsb' 17 6) (w.extractLsb' 11 6) (w.extractLsb' 5 6))
  | 12 => some (.rolW (w.extractLsb' 23 3) (w.extractLsb' 17 6) (w.extractLsb' 11 6) (w.extractLsb' 5 6))
  | 13 => some (.popc (w.extractLsb' 23 3) (w.extractLsb' 17 6) (w.extractLsb' 11 6))
  | 14 => some (.clz (w.extractLsb' 23 3) (w.extractLsb' 17 6) (w.extractLsb' 11 6))
  | 15 => some (.ctz (w.extractLsb' 23 3) (w.extractLsb' 17 6) (w.extractLsb' 11 6))
  | 16 => some (.brev (w.extractLsb' 23 3) (w.extractLsb' 17 6) (w.extractLsb' 11 6))
  | 17 => some (.sel (w.extractLsb' 23 3) (w.extractLsb' 17 6) (w.extractLsb' 11 6) (w.extractLsb' 5 6))
  | _ => none

/-- The sub-operations of major 0x04 (R80). -/
def decodeBitf (w : Code) : Option Instr :=
  match (w.extractLsb' 0 5).toNat with
  | 0 => some (.bfx (w.extractLsb' 23 3) (w.extractLsb' 17 6) (w.extractLsb' 11 6) (w.extractLsb' 5 6))
  | 1 => some (.bfxs (w.extractLsb' 23 3) (w.extractLsb' 17 6) (w.extractLsb' 11 6) (w.extractLsb' 5 6))
  | 2 => some (.bfi (w.extractLsb' 23 3) (w.extractLsb' 17 6) (w.extractLsb' 11 6) (w.extractLsb' 5 6))
  | 3 => some (.seperm (w.extractLsb' 23 3) (w.extractLsb' 17 6) (w.extractLsb' 11 6) (w.extractLsb' 5 6))
  | _ => none

/-- The sub-operations of major 0x09 (R80). -/
def decodeShi (w : Code) : Option Instr :=
  match (w.extractLsb' 9 2).toNat with
  | 0 => some (.shli (w.extractLsb' 23 3) (w.extractLsb' 17 6) (w.extractLsb' 11 6) (w.extractLsb' 7 2) (w.extractLsb' 0 6))
  | 1 => some (.shri (w.extractLsb' 23 3) (w.extractLsb' 17 6) (w.extractLsb' 11 6) (w.extractLsb' 7 2) (w.extractLsb' 0 6))
  | 2 => some (.sari (w.extractLsb' 23 3) (w.extractLsb' 17 6) (w.extractLsb' 11 6) (w.extractLsb' 7 2) (w.extractLsb' 0 6))
  | 3 => some (.roli (w.extractLsb' 23 3) (w.extractLsb' 17 6) (w.extractLsb' 11 6) (w.extractLsb' 7 2) (w.extractLsb' 0 6))
  | _ => none

/-- The sub-operations of major 0x0D (R80). -/
def decodePred (w : Code) : Option Instr :=
  match (w.extractLsb' 0 5).toNat with
  | 0 => some (.pand (w.extractLsb' 23 3) (w.extractLsb' 20 3) (w.extractLsb' 17 3) (w.extractLsb' 11 3) (w.extractLsb' 5 3))
  | 1 => some (.por (w.extractLsb' 23 3) (w.extractLsb' 20 3) (w.extractLsb' 17 3) (w.extractLsb' 11 3) (w.extractLsb' 5 3))
  | 2 => some (.pxor (w.extractLsb' 23 3) (w.extractLsb' 20 3) (w.extractLsb' 17 3) (w.extractLsb' 11 3) (w.extractLsb' 5 3))
  | 3 => some (.pandn (w.extractLsb' 23 3) (w.extractLsb' 20 3) (w.extractLsb' 17 3) (w.extractLsb' 11 3) (w.extractLsb' 5 3))
  | 4 => some (.pnot (w.extractLsb' 23 3) (w.extractLsb' 20 3) (w.extractLsb' 17 3) (w.extractLsb' 11 3))
  | 5 => some (.mskr (w.extractLsb' 23 3) (w.extractLsb' 17 6) (w.extractLsb' 11 6))
  | 6 => some (.mskw (w.extractLsb' 23 3) (w.extractLsb' 20 3) (w.extractLsb' 17 3) (w.extractLsb' 11 6))
  | _ => none

/-- The sub-operations of major 0x0E (R80). WRS of selector 11 is the row of FSTAT (R35). -/
def decodeMove (w : Code) : Option Instr :=
  match (w.extractLsb' 0 5).toNat with
  | 0 => some (.mov (w.extractLsb' 23 3) (w.extractLsb' 17 6) (w.extractLsb' 11 6))
  | 1 => some (.movs (w.extractLsb' 23 3) (w.extractLsb' 17 6) (w.extractLsb' 5 6))
  | 2 => if (w.extractLsb' 5 6).toNat = 11 then some (.wrsFstat (w.extractLsb' 23 3) (w.extractLsb' 11 6)) else some (.wrs (w.extractLsb' 23 3) (w.extractLsb' 11 6) (w.extractLsb' 5 6))
  | _ => none

/-- The sub-operations of major 0x0F (R80). -/
def decodeXlane (w : Code) : Option Instr :=
  match (w.extractLsb' 0 5).toNat with
  | 0 => some (.lperm (w.extractLsb' 23 3) (w.extractLsb' 17 6) (w.extractLsb' 11 6) (w.extractLsb' 5 6))
  | 1 => some (.lxor (w.extractLsb' 23 3) (w.extractLsb' 17 6) (w.extractLsb' 11 6) (w.extractLsb' 5 6))
  | 2 => some (.lup (w.extractLsb' 23 3) (w.extractLsb' 17 6) (w.extractLsb' 11 6) (w.extractLsb' 5 6))
  | 3 => some (.ldown (w.extractLsb' 23 3) (w.extractLsb' 17 6) (w.extractLsb' 11 6) (w.extractLsb' 5 6))
  | 4 => some (.lbc (w.extractLsb' 23 3) (w.extractLsb' 17 6) (w.extractLsb' 11 6) (w.extractLsb' 5 6))
  | 5 => some (.ballot (w.extractLsb' 23 3) (w.extractLsb' 17 6) (w.extractLsb' 11 6))
  | 6 => some (.vany (w.extractLsb' 23 3) (w.extractLsb' 17 6) (w.extractLsb' 11 6))
  | 7 => some (.vall (w.extractLsb' 23 3) (w.extractLsb' 17 6) (w.extractLsb' 11 6))
  | 8 => some (.elect (w.extractLsb' 23 3) (w.extractLsb' 17 6))
  | 9 => some (.lpfx (w.extractLsb' 23 3) (w.extractLsb' 17 6) (w.extractLsb' 11 6))
  | _ => none

/-- The sub-operations of major 0x10 (R80). -/
def decodeImad (w : Code) : Option Instr :=
  match (w.extractLsb' 0 2).toNat with
  | 0 => some (.imadX (w.extractLsb' 20 6) (w.extractLsb' 14 6) (w.extractLsb' 8 6) (w.extractLsb' 2 6))
  | 1 => some (.imadW (w.extractLsb' 20 6) (w.extractLsb' 14 6) (w.extractLsb' 8 6) (w.extractLsb' 2 6))
  | 2 => some (.imadw (w.extractLsb' 20 6) (w.extractLsb' 14 6) (w.extractLsb' 8 6) (w.extractLsb' 2 6))
  | 3 => some (.nmadw (w.extractLsb' 20 6) (w.extractLsb' 14 6) (w.extractLsb' 8 6) (w.extractLsb' 2 6))
  | _ => none

/-- The sub-operations of major 0x13 (R80). -/
def decodeFlow (w : Code) : Option Instr :=
  match (w.extractLsb' 0 5).toNat with
  | 0 => some (.brx (w.extractLsb' 23 3) (w.extractLsb' 11 6))
  | 1 => some (.callx (w.extractLsb' 23 3) (w.extractLsb' 11 6))
  | 2 => some (.ret (w.extractLsb' 23 3))
  | 3 => some (.conv (w.extractLsb' 23 3) (w.extractLsb' 11 6))
  | 4 => some (.exit (w.extractLsb' 23 3))
  | _ => none

/-- The sub-operations of major 0x1C (R80). -/
def decodeFun (w : Code) : Option Instr :=
  match (w.extractLsb' 5 6).toNat with
  | 0 => some (.fsqrt (w.extractLsb' 23 3) (w.extractLsb' 17 6) (w.extractLsb' 11 6) (w.extractLsb' 2 3) (w.extractLsb' 0 2))
  | 1 => some (.frsq (w.extractLsb' 23 3) (w.extractLsb' 17 6) (w.extractLsb' 11 6) (w.extractLsb' 2 3) (w.extractLsb' 0 2))
  | 2 => some (.frcp (w.extractLsb' 23 3) (w.extractLsb' 17 6) (w.extractLsb' 11 6) (w.extractLsb' 2 3) (w.extractLsb' 0 2))
  | 3 => some (.fexp (w.extractLsb' 23 3) (w.extractLsb' 17 6) (w.extractLsb' 11 6) (w.extractLsb' 2 3) (w.extractLsb' 0 2))
  | 4 => some (.fexp2 (w.extractLsb' 23 3) (w.extractLsb' 17 6) (w.extractLsb' 11 6) (w.extractLsb' 2 3) (w.extractLsb' 0 2))
  | 5 => some (.fexpm1 (w.extractLsb' 23 3) (w.extractLsb' 17 6) (w.extractLsb' 11 6) (w.extractLsb' 2 3) (w.extractLsb' 0 2))
  | 6 => some (.flog (w.extractLsb' 23 3) (w.extractLsb' 17 6) (w.extractLsb' 11 6) (w.extractLsb' 2 3) (w.extractLsb' 0 2))
  | 7 => some (.flog2 (w.extractLsb' 23 3) (w.extractLsb' 17 6) (w.extractLsb' 11 6) (w.extractLsb' 2 3) (w.extractLsb' 0 2))
  | 8 => some (.flog1p (w.extractLsb' 23 3) (w.extractLsb' 17 6) (w.extractLsb' 11 6) (w.extractLsb' 2 3) (w.extractLsb' 0 2))
  | 9 => some (.ferf (w.extractLsb' 23 3) (w.extractLsb' 17 6) (w.extractLsb' 11 6) (w.extractLsb' 2 3) (w.extractLsb' 0 2))
  | 10 => some (.ferfc (w.extractLsb' 23 3) (w.extractLsb' 17 6) (w.extractLsb' 11 6) (w.extractLsb' 2 3) (w.extractLsb' 0 2))
  | 11 => some (.fsin (w.extractLsb' 23 3) (w.extractLsb' 17 6) (w.extractLsb' 11 6) (w.extractLsb' 2 3) (w.extractLsb' 0 2))
  | 12 => some (.fcos (w.extractLsb' 23 3) (w.extractLsb' 17 6) (w.extractLsb' 11 6) (w.extractLsb' 2 3) (w.extractLsb' 0 2))
  | 13 => some (.ftanh (w.extractLsb' 23 3) (w.extractLsb' 17 6) (w.extractLsb' 11 6) (w.extractLsb' 2 3) (w.extractLsb' 0 2))
  | 14 => some (.frint (w.extractLsb' 23 3) (w.extractLsb' 17 6) (w.extractLsb' 11 6) (w.extractLsb' 2 3) (w.extractLsb' 0 2))
  | _ => none

/-- The sub-operations of major 0x1D (R80). -/
def decodeFmisc (w : Code) : Option Instr :=
  match (w.extractLsb' 2 3).toNat with
  | 0 => some (.fmin (w.extractLsb' 23 3) (w.extractLsb' 17 6) (w.extractLsb' 11 6) (w.extractLsb' 5 6) (w.extractLsb' 0 2))
  | 1 => some (.fmax (w.extractLsb' 23 3) (w.extractLsb' 17 6) (w.extractLsb' 11 6) (w.extractLsb' 5 6) (w.extractLsb' 0 2))
  | 2 => some (.fminn (w.extractLsb' 23 3) (w.extractLsb' 17 6) (w.extractLsb' 11 6) (w.extractLsb' 5 6) (w.extractLsb' 0 2))
  | 3 => some (.fmaxn (w.extractLsb' 23 3) (w.extractLsb' 17 6) (w.extractLsb' 11 6) (w.extractLsb' 5 6) (w.extractLsb' 0 2))
  | 4 => some (.fabs (w.extractLsb' 23 3) (w.extractLsb' 17 6) (w.extractLsb' 11 6) (w.extractLsb' 0 2))
  | 5 => some (.fneg (w.extractLsb' 23 3) (w.extractLsb' 17 6) (w.extractLsb' 11 6) (w.extractLsb' 0 2))
  | 6 => some (.fcps (w.extractLsb' 23 3) (w.extractLsb' 17 6) (w.extractLsb' 11 6) (w.extractLsb' 5 6) (w.extractLsb' 0 2))
  | 7 => some (.fclass (w.extractLsb' 23 3) (w.extractLsb' 17 6) (w.extractLsb' 11 6) (w.extractLsb' 0 2))
  | _ => none

/-- Major 0x1F: FKEY when DST is 15, with SRC 0 to 3, and FCVT otherwise (R79). -/
def decodeConvert (w : Code) : Option Instr :=
  if (w.extractLsb' 7 4).toNat = 15 then
    if (w.extractLsb' 5 2).toNat = 0 then some (.fkey (w.extractLsb' 23 3) (w.extractLsb' 17 6) (w.extractLsb' 11 6) (w.extractLsb' 3 2)) else none
  else some (.fcvt (w.extractLsb' 23 3) (w.extractLsb' 17 6) (w.extractLsb' 11 6) (w.extractLsb' 7 4) (w.extractLsb' 3 4) (w.extractLsb' 0 3))

/-- The sub-operations of major 0x25 (R80). -/
def decodeAcqRel (w : Code) : Option Instr :=
  match (w.extractLsb' 10 1).toNat with
  | 0 => some (.ldacq (w.extractLsb' 23 3) (w.extractLsb' 17 6) (w.extractLsb' 11 6) (w.extractLsb' 7 3) (w.extractLsb' 0 3))
  | 1 => some (.strel (w.extractLsb' 23 3) (w.extractLsb' 17 6) (w.extractLsb' 11 6) (w.extractLsb' 7 3) (w.extractLsb' 0 3))
  | _ => none

/-- The sub-operations of major 0x29 (R80). -/
def decodeFenceFamily (w : Code) : Option Instr :=
  match (w.extractLsb' 0 5).toNat with
  | 0 => some (.fence (w.extractLsb' 23 3) (w.extractLsb' 8 3) (w.extractLsb' 6 2))
  | 1 => some (.aflush (w.extractLsb' 23 3))
  | 2 => some (.clean (w.extractLsb' 23 3) (w.extractLsb' 11 6) (w.extractLsb' 5 1))
  | 3 => some (.inval (w.extractLsb' 23 3) (w.extractLsb' 11 6) (w.extractLsb' 5 1))
  | 4 => some (.pscrub (w.extractLsb' 23 3) (w.extractLsb' 11 6))
  | _ => none

/-- The sub-operations of major 0x2A (R80). -/
def decodeBarFamily (w : Code) : Option Instr :=
  match (w.extractLsb' 0 5).toNat with
  | 0 => some (.bar (w.extractLsb' 23 3) (w.extractLsb' 5 6))
  | 1 => some (.arrive (w.extractLsb' 23 3) (w.extractLsb' 17 6) (w.extractLsb' 5 6))
  | 2 => some (.waitb (w.extractLsb' 23 3) (w.extractLsb' 11 6) (w.extractLsb' 5 6))
  | 3 => some (.barc (w.extractLsb' 23 3))
  | _ => none

/-- The sub-operations of major 0x2B (R80). -/
def decodeBank (w : Code) : Option Instr :=
  match (w.extractLsb' 0 5).toNat with
  | 0 => some (.fifow (w.extractLsb' 23 3) (w.extractLsb' 17 6) (w.extractLsb' 11 6) (w.extractLsb' 5 6))
  | 1 => some (.fifor (w.extractLsb' 23 3) (w.extractLsb' 17 6) (w.extractLsb' 5 6))
  | 2 => some (.bankcfg (w.extractLsb' 23 3) (w.extractLsb' 17 6) (w.extractLsb' 11 6))
  | 3 => some (.presq (w.extractLsb' 23 3) (w.extractLsb' 17 6) (w.extractLsb' 11 6))
  | _ => none

/-- The sub-operations of major 0x2C (R80). -/
def decodePublish (w : Code) : Option Instr :=
  match (w.extractLsb' 0 5).toNat with
  | 0 => some (.pub (w.extractLsb' 23 3) (w.extractLsb' 17 6) (w.extractLsb' 11 6))
  | 1 => some (.pubwait (w.extractLsb' 23 3) (w.extractLsb' 17 6) (w.extractLsb' 11 6))
  | _ => none

/-- The sub-operations of major 0x2D (R80). -/
def decodeMat (w : Code) : Option Instr :=
  match (w.extractLsb' 0 5).toNat with
  | 0 => some (.mma (w.extractLsb' 23 3) (w.extractLsb' 17 6) (w.extractLsb' 11 6))
  | 1 => some (.mepi (w.extractLsb' 23 3) (w.extractLsb' 17 6) (w.extractLsb' 11 6) (w.extractLsb' 5 6))
  | 2 => some (.mwait (w.extractLsb' 23 3) (w.extractLsb' 17 6) (w.extractLsb' 11 6))
  | 3 => some (.mqry (w.extractLsb' 23 3) (w.extractLsb' 17 6) (w.extractLsb' 11 6))
  | 4 => some (.mcan (w.extractLsb' 23 3) (w.extractLsb' 17 6) (w.extractLsb' 11 6))
  | 5 => some (.accz (w.extractLsb' 23 3) (w.extractLsb' 11 6) (w.extractLsb' 5 6))
  | 6 => some (.accrd (w.extractLsb' 23 3) (w.extractLsb' 17 6) (w.extractLsb' 11 6))
  | 7 => some (.accwr (w.extractLsb' 23 3) (w.extractLsb' 11 6) (w.extractLsb' 5 6))
  | 8 => some (.cbld (w.extractLsb' 23 3) (w.extractLsb' 11 6))
  | _ => none

/-- The sub-operations of major 0x2E (R80). -/
def decodeFst (w : Code) : Option Instr :=
  match (w.extractLsb' 0 5).toNat with
  | 0 => some (.ftab (w.extractLsb' 23 3) (w.extractLsb' 17 6) (w.extractLsb' 11 6) (w.extractLsb' 5 6))
  | 1 => some (.fcall (w.extractLsb' 23 3) (w.extractLsb' 17 6) (w.extractLsb' 11 6) (w.extractLsb' 5 6))
  | 2 => some (.fprobe (w.extractLsb' 23 3) (w.extractLsb' 17 6) (w.extractLsb' 11 6) (w.extractLsb' 5 6))
  | 3 => some (.fret (w.extractLsb' 23 3) (w.extractLsb' 17 6) (w.extractLsb' 11 6) (w.extractLsb' 5 6))
  | 4 => some (.fins (w.extractLsb' 23 3) (w.extractLsb' 17 6) (w.extractLsb' 11 6) (w.extractLsb' 5 6))
  | 5 => some (.fevict (w.extractLsb' 23 3) (w.extractLsb' 17 6) (w.extractLsb' 11 6) (w.extractLsb' 5 6))
  | 6 => some (.fclr (w.extractLsb' 23 3) (w.extractLsb' 5 6))
  | 7 => some (.fqry (w.extractLsb' 23 3) (w.extractLsb' 17 6) (w.extractLsb' 11 6) (w.extractLsb' 5 6))
  | _ => none

/-- The sub-operations of major 0x2F (R80). -/
def decodeProp (w : Code) : Option Instr :=
  match (w.extractLsb' 0 5).toNat with
  | 0 => some (.pbegin (w.extractLsb' 23 3))
  | 1 => some (.accept (w.extractLsb' 23 3) (w.extractLsb' 20 3) (w.extractLsb' 17 1) (w.extractLsb' 11 6) (w.extractLsb' 5 6))
  | 2 => some (.pcommit (w.extractLsb' 23 3))
  | 3 => some (.pdisc (w.extractLsb' 23 3))
  | _ => none

/-- The sub-operations of major 0x30 (R80). -/
def decodeEng (w : Code) : Option Instr :=
  match (w.extractLsb' 0 5).toNat with
  | 0 => some (.prun (w.extractLsb' 23 3) (w.extractLsb' 17 6) (w.extractLsb' 11 6) (w.extractLsb' 5 6))
  | 1 => some (.semsig (w.extractLsb' 23 3) (w.extractLsb' 11 6) (w.extractLsb' 5 6))
  | 2 => some (.semwait (w.extractLsb' 23 3) (w.extractLsb' 11 6) (w.extractLsb' 5 6))
  | 3 => some (.semqry (w.extractLsb' 23 3) (w.extractLsb' 17 6) (w.extractLsb' 5 6))
  | _ => none

/-- The sub-operations of major 0x31 (R80). -/
def decodeOvl (w : Code) : Option Instr :=
  match (w.extractLsb' 0 5).toNat with
  | 0 => some (.ovld (w.extractLsb' 23 3) (w.extractLsb' 17 6) (w.extractLsb' 11 6))
  | 1 => some (.ovwait (w.extractLsb' 23 3) (w.extractLsb' 17 6) (w.extractLsb' 11 6))
  | 2 => some (.ovcall (w.extractLsb' 23 3) (w.extractLsb' 11 6))
  | 3 => some (.ovevict (w.extractLsb' 23 3) (w.extractLsb' 17 6) (w.extractLsb' 11 6))
  | 4 => some (.ovqry (w.extractLsb' 23 3) (w.extractLsb' 17 6) (w.extractLsb' 11 6))
  | _ => none

/-- The sub-operations of major 0x32 (R80). WRSYS of selector 4 is the row of OVQUOTA (R277). -/
def decodeSys (w : Code) : Option Instr :=
  match (w.extractLsb' 0 5).toNat with
  | 0 => some (.trap (w.extractLsb' 23 3) (w.extractLsb' 5 6))
  | 1 => some .tret
  | 2 => some (.yield (w.extractLsb' 23 3))
  | 3 => some (.sleep (w.extractLsb' 23 3) (w.extractLsb' 11 6))
  | 4 => some (.launch (w.extractLsb' 23 3) (w.extractLsb' 17 6) (w.extractLsb' 11 6) (w.extractLsb' 5 6))
  | 5 => some (.evsig (w.extractLsb' 23 3) (w.extractLsb' 11 6) (w.extractLsb' 5 6))
  | 6 => some (.evwait (w.extractLsb' 23 3) (w.extractLsb' 11 6) (w.extractLsb' 5 6))
  | 7 => some (.cvpub (w.extractLsb' 23 3) (w.extractLsb' 17 6) (w.extractLsb' 11 6))
  | 8 => some (.cvswitch (w.extractLsb' 23 3) (w.extractLsb' 17 6))
  | 9 => some (.rdsys (w.extractLsb' 23 3) (w.extractLsb' 17 6) (w.extractLsb' 5 6))
  | 10 => if (w.extractLsb' 5 6).toNat = 4 then some (.wrsysOvquota (w.extractLsb' 23 3) (w.extractLsb' 11 6)) else some (.wrsys (w.extractLsb' 23 3) (w.extractLsb' 11 6) (w.extractLsb' 5 6))
  | _ => none

/-- The sub-operations of major 0x38 (R80). -/
def decodePorterCopy (w : Code) : Option Instr :=
  match (w.extractLsb' 0 5).toNat with
  | 0 => some (.cpy (w.extractLsb' 23 3) (w.extractLsb' 20 3) (w.extractLsb' 17 3) (w.extractLsb' 16 1))
  | 1 => some (.cpy2 (w.extractLsb' 23 3) (w.extractLsb' 20 3) (w.extractLsb' 17 3) (w.extractLsb' 16 1))
  | 2 => some (.cpyt (w.extractLsb' 23 3) (w.extractLsb' 20 3) (w.extractLsb' 17 3) (w.extractLsb' 16 1))
  | 3 => some (.cfill (w.extractLsb' 23 3) (w.extractLsb' 20 3) (w.extractLsb' 17 3) (w.extractLsb' 16 1))
  | 4 => some (.cred (w.extractLsb' 23 3) (w.extractLsb' 20 3) (w.extractLsb' 17 3) (w.extractLsb' 14 3) (w.extractLsb' 12 2))
  | _ => none

/-- The sub-operations of major 0x39 (R80, R262). MODE 3 of CQSET has no meaning. -/
def decodePorterControl (w : Code) : Option Instr :=
  match (w.extractLsb' 0 5).toNat with
  | 0 => some (.csig (w.extractLsb' 11 6) (w.extractLsb' 5 6))
  | 1 => some (.cwait (w.extractLsb' 11 6) (w.extractLsb' 5 6))
  | 2 => some (.cloop (w.extractLsb' 23 3) (w.extractLsb' 5 12))
  | 3 => some .cend
  | 4 => some (.cpub (w.extractLsb' 23 3))
  | 5 =>
    match (w.extractLsb' 15 2).toNat with
    | 0 => some (.cqsetAddi (w.extractLsb' 23 3) (w.extractLsb' 20 3) (w.extractLsb' 5 10))
    | 1 => some (.cqsetAdd (w.extractLsb' 23 3) (w.extractLsb' 20 3) (w.extractLsb' 17 3))
    | 2 => some (.cqsetLd (w.extractLsb' 23 3) (w.extractLsb' 20 3) (w.extractLsb' 5 10))
    | _ => none
  | _ => none

/-- The instruction that a word's major opcode and sub-operation code name, its reserved bits left aside; none for a code
that R80 does not list. -/
def decodeLoose (w : Code) : Option Instr :=
  match (w.extractLsb' 26 6).toNat with
  | 0x00 => decodeHint w
  | 0x01 => decodeIop w
  | 0x02 => decodeImul w
  | 0x03 => decodeLogic w
  | 0x04 => decodeBitf w
  | 0x05 => some (.iaddi (w.extractLsb' 23 3) (w.extractLsb' 17 6) (w.extractLsb' 11 6) (w.extractLsb' 0 11))
  | 0x06 => some (.andi (w.extractLsb' 23 3) (w.extractLsb' 17 6) (w.extractLsb' 11 6) (w.extractLsb' 0 11))
  | 0x07 => some (.ori (w.extractLsb' 23 3) (w.extractLsb' 17 6) (w.extractLsb' 11 6) (w.extractLsb' 0 11))
  | 0x08 => some (.xori (w.extractLsb' 23 3) (w.extractLsb' 17 6) (w.extractLsb' 11 6) (w.extractLsb' 0 11))
  | 0x09 => decodeShi w
  | 0x0A => some (.limm (w.extractLsb' 23 3) (w.extractLsb' 17 6) (w.extractLsb' 0 17))
  | 0x0B => some (.icmp (w.extractLsb' 23 3) (w.extractLsb' 20 3) (w.extractLsb' 17 3) (w.extractLsb' 11 6) (w.extractLsb' 5 6) (w.extractLsb' 2 3) (w.extractLsb' 0 2))
  | 0x0C => some (.icmpi (w.extractLsb' 23 3) (w.extractLsb' 20 3) (w.extractLsb' 17 3) (w.extractLsb' 11 6) (w.extractLsb' 5 6) (w.extractLsb' 2 3) (w.extractLsb' 0 2))
  | 0x0D => decodePred w
  | 0x0E => decodeMove w
  | 0x0F => decodeXlane w
  | 0x10 => decodeImad w
  | 0x11 => some (.bra (w.extractLsb' 23 3) (w.extractLsb' 0 23))
  | 0x12 => some (.call (w.extractLsb' 23 3) (w.extractLsb' 0 23))
  | 0x13 => decodeFlow w
  | 0x14 => some (.fadd (w.extractLsb' 23 3) (w.extractLsb' 17 6) (w.extractLsb' 11 6) (w.extractLsb' 5 6) (w.extractLsb' 2 3) (w.extractLsb' 0 2))
  | 0x15 => some (.fsub (w.extractLsb' 23 3) (w.extractLsb' 17 6) (w.extractLsb' 11 6) (w.extractLsb' 5 6) (w.extractLsb' 2 3) (w.extractLsb' 0 2))
  | 0x16 => some (.fmul (w.extractLsb' 23 3) (w.extractLsb' 17 6) (w.extractLsb' 11 6) (w.extractLsb' 5 6) (w.extractLsb' 2 3) (w.extractLsb' 0 2))
  | 0x17 => some (.fdiv (w.extractLsb' 23 3) (w.extractLsb' 17 6) (w.extractLsb' 11 6) (w.extractLsb' 5 6) (w.extractLsb' 2 3) (w.extractLsb' 0 2))
  | 0x18 => some (.fma (w.extractLsb' 20 6) (w.extractLsb' 14 6) (w.extractLsb' 8 6) (w.extractLsb' 2 6) (w.extractLsb' 0 2))
  | 0x19 => some (.fms (w.extractLsb' 20 6) (w.extractLsb' 14 6) (w.extractLsb' 8 6) (w.extractLsb' 2 6) (w.extractLsb' 0 2))
  | 0x1A => some (.fnma (w.extractLsb' 20 6) (w.extractLsb' 14 6) (w.extractLsb' 8 6) (w.extractLsb' 2 6) (w.extractLsb' 0 2))
  | 0x1B => some (.fnms (w.extractLsb' 20 6) (w.extractLsb' 14 6) (w.extractLsb' 8 6) (w.extractLsb' 2 6) (w.extractLsb' 0 2))
  | 0x1C => decodeFun w
  | 0x1D => decodeFmisc w
  | 0x1E => some (.fcmp (w.extractLsb' 23 3) (w.extractLsb' 20 3) (w.extractLsb' 17 3) (w.extractLsb' 11 6) (w.extractLsb' 5 6) (w.extractLsb' 2 3) (w.extractLsb' 0 2))
  | 0x1F => decodeConvert w
  | 0x20 => some (.rng (w.extractLsb' 23 3) (w.extractLsb' 17 6) (w.extractLsb' 11 6) (w.extractLsb' 5 6))
  | 0x21 => some (.ld (w.extractLsb' 23 3) (w.extractLsb' 17 6) (w.extractLsb' 11 6) (w.extractLsb' 3 8) (w.extractLsb' 0 3))
  | 0x22 => some (.st (w.extractLsb' 23 3) (w.extractLsb' 17 6) (w.extractLsb' 11 6) (w.extractLsb' 3 8) (w.extractLsb' 0 3))
  | 0x23 => some (.ldp (w.extractLsb' 23 3) (w.extractLsb' 17 6) (w.extractLsb' 11 6) (w.extractLsb' 3 8) (w.extractLsb' 0 3))
  | 0x24 => some (.stp (w.extractLsb' 23 3) (w.extractLsb' 17 6) (w.extractLsb' 11 6) (w.extractLsb' 3 8) (w.extractLsb' 0 3))
  | 0x25 => decodeAcqRel w
  | 0x26 => some (.atom (w.extractLsb' 23 3) (w.extractLsb' 17 6) (w.extractLsb' 11 6) (w.extractLsb' 5 6) (w.extractLsb' 1 4) (w.extractLsb' 0 1))
  | 0x27 => some (.red (w.extractLsb' 23 3) (w.extractLsb' 20 3) (w.extractLsb' 18 2) (w.extractLsb' 11 6) (w.extractLsb' 5 6) (w.extractLsb' 1 4) (w.extractLsb' 0 1))
  | 0x28 => some (.cas (w.extractLsb' 20 6) (w.extractLsb' 14 6) (w.extractLsb' 8 6) (w.extractLsb' 2 6) (w.extractLsb' 0 2))
  | 0x29 => decodeFenceFamily w
  | 0x2A => decodeBarFamily w
  | 0x2B => decodeBank w
  | 0x2C => decodePublish w
  | 0x2D => decodeMat w
  | 0x2E => decodeFst w
  | 0x2F => decodeProp w
  | 0x30 => decodeEng w
  | 0x31 => decodeOvl w
  | 0x32 => decodeSys w
  | 0x38 => decodePorterCopy w
  | 0x39 => decodePorterControl w
  | _ => none

/-- The words of an instruction: one 32-bit word for an encoded row, none for an event (R73, R80, R81). -/
def encode : Instr → List Code
  | .nop => [0#32]
  | .stall n => [65536#26 ++ n]
  | .rnd r => [1048576#29 ++ r]
  | .ximm e => [3#10 ++ e]
  | .guard p => [2097152#29 ++ p]
  | .scope k o => [655360#27 ++ k ++ o]
  | .iadd g d a b w => [1#6 ++ g ++ d ++ a ++ b ++ 0#3 ++ w]
  | .isub g d a b w => [1#6 ++ g ++ d ++ a ++ b ++ 1#3 ++ w]
  | .imin g d a b w => [1#6 ++ g ++ d ++ a ++ b ++ 2#3 ++ w]
  | .imax g d a b w => [1#6 ++ g ++ d ++ a ++ b ++ 3#3 ++ w]
  | .nmin g d a b w => [1#6 ++ g ++ d ++ a ++ b ++ 4#3 ++ w]
  | .nmax g d a b w => [1#6 ++ g ++ d ++ a ++ b ++ 5#3 ++ w]
  | .sadd g d a b w => [1#6 ++ g ++ d ++ a ++ b ++ 6#3 ++ w]
  | .ssub g d a b w => [1#6 ++ g ++ d ++ a ++ b ++ 7#3 ++ w]
  | .imulX g d a b => [2#6 ++ g ++ d ++ a ++ b ++ 0#5]
  | .imulW g d a b => [2#6 ++ g ++ d ++ a ++ b ++ 1#5]
  | .imulhX g d a b => [2#6 ++ g ++ d ++ a ++ b ++ 2#5]
  | .imulhW g d a b => [2#6 ++ g ++ d ++ a ++ b ++ 3#5]
  | .nmulhX g d a b => [2#6 ++ g ++ d ++ a ++ b ++ 4#5]
  | .nmulhW g d a b => [2#6 ++ g ++ d ++ a ++ b ++ 5#5]
  | .imulw g d a b => [2#6 ++ g ++ d ++ a ++ b ++ 6#5]
  | .nmulw g d a b => [2#6 ++ g ++ d ++ a ++ b ++ 7#5]
  | .and g d a b => [3#6 ++ g ++ d ++ a ++ b ++ 0#5]
  | .or g d a b => [3#6 ++ g ++ d ++ a ++ b ++ 1#5]
  | .xor g d a b => [3#6 ++ g ++ d ++ a ++ b ++ 2#5]
  | .andn g d a b => [3#6 ++ g ++ d ++ a ++ b ++ 3#5]
  | .orn g d a b => [3#6 ++ g ++ d ++ a ++ b ++ 4#5]
  | .shlX g d a b => [3#6 ++ g ++ d ++ a ++ b ++ 5#5]
  | .shlW g d a b => [3#6 ++ g ++ d ++ a ++ b ++ 6#5]
  | .shrX g d a b => [3#6 ++ g ++ d ++ a ++ b ++ 7#5]
  | .shrW g d a b => [3#6 ++ g ++ d ++ a ++ b ++ 8#5]
  | .sarX g d a b => [3#6 ++ g ++ d ++ a ++ b ++ 9#5]
  | .sarW g d a b => [3#6 ++ g ++ d ++ a ++ b ++ 10#5]
  | .rolX g d a b => [3#6 ++ g ++ d ++ a ++ b ++ 11#5]
  | .rolW g d a b => [3#6 ++ g ++ d ++ a ++ b ++ 12#5]
  | .popc g d a => [3#6 ++ g ++ d ++ a ++ 13#11]
  | .clz g d a => [3#6 ++ g ++ d ++ a ++ 14#11]
  | .ctz g d a => [3#6 ++ g ++ d ++ a ++ 15#11]
  | .brev g d a => [3#6 ++ g ++ d ++ a ++ 16#11]
  | .sel g d a b => [3#6 ++ g ++ d ++ a ++ b ++ 17#5]
  | .bfx g d a b => [4#6 ++ g ++ d ++ a ++ b ++ 0#5]
  | .bfxs g d a b => [4#6 ++ g ++ d ++ a ++ b ++ 1#5]
  | .bfi g d a b => [4#6 ++ g ++ d ++ a ++ b ++ 2#5]
  | .seperm g d a b => [4#6 ++ g ++ d ++ a ++ b ++ 3#5]
  | .iaddi g d a i => [5#6 ++ g ++ d ++ a ++ i]
  | .andi g d a i => [6#6 ++ g ++ d ++ a ++ i]
  | .ori g d a i => [7#6 ++ g ++ d ++ a ++ i]
  | .xori g d a i => [8#6 ++ g ++ d ++ a ++ i]
  | .shli g d a w n => [9#6 ++ g ++ d ++ a ++ 0#2 ++ w ++ 0#1 ++ n]
  | .shri g d a w n => [9#6 ++ g ++ d ++ a ++ 1#2 ++ w ++ 0#1 ++ n]
  | .sari g d a w n => [9#6 ++ g ++ d ++ a ++ 2#2 ++ w ++ 0#1 ++ n]
  | .roli g d a w n => [9#6 ++ g ++ d ++ a ++ 3#2 ++ w ++ 0#1 ++ n]
  | .limm g d i => [10#6 ++ g ++ d ++ i]
  | .icmp g p q a b k w => [11#6 ++ g ++ p ++ q ++ a ++ b ++ k ++ w]
  | .icmpi g p q a i k w => [12#6 ++ g ++ p ++ q ++ a ++ i ++ k ++ w]
  | .pand g p q x y => [13#6 ++ g ++ p ++ q ++ 0#3 ++ x ++ 0#3 ++ y ++ 0#5]
  | .por g p q x y => [13#6 ++ g ++ p ++ q ++ 0#3 ++ x ++ 0#3 ++ y ++ 1#5]
  | .pxor g p q x y => [13#6 ++ g ++ p ++ q ++ 0#3 ++ x ++ 0#3 ++ y ++ 2#5]
  | .pandn g p q x y => [13#6 ++ g ++ p ++ q ++ 0#3 ++ x ++ 0#3 ++ y ++ 3#5]
  | .pnot g p q x => [13#6 ++ g ++ p ++ q ++ 0#3 ++ x ++ 4#11]
  | .mskr g d a => [13#6 ++ g ++ d ++ a ++ 5#11]
  | .mskw g p q a => [13#6 ++ g ++ p ++ q ++ a ++ 6#11]
  | .mov g d a => [14#6 ++ g ++ d ++ a ++ 0#11]
  | .movs g d b => [14#6 ++ g ++ d ++ 0#6 ++ b ++ 1#5]
  | .wrs g a b => [14#6 ++ g ++ 0#6 ++ a ++ b ++ 2#5]
  | .wrsFstat g a => [14#6 ++ g ++ 0#6 ++ a ++ 354#11]
  | .lperm g d a b => [15#6 ++ g ++ d ++ a ++ b ++ 0#5]
  | .lxor g d a b => [15#6 ++ g ++ d ++ a ++ b ++ 1#5]
  | .lup g d a b => [15#6 ++ g ++ d ++ a ++ b ++ 2#5]
  | .ldown g d a b => [15#6 ++ g ++ d ++ a ++ b ++ 3#5]
  | .lbc g d a b => [15#6 ++ g ++ d ++ a ++ b ++ 4#5]
  | .ballot g d a => [15#6 ++ g ++ d ++ a ++ 5#11]
  | .vany g d a => [15#6 ++ g ++ d ++ a ++ 6#11]
  | .vall g d a => [15#6 ++ g ++ d ++ a ++ 7#11]
  | .elect g d => [15#6 ++ g ++ d ++ 8#17]
  | .lpfx g d a => [15#6 ++ g ++ d ++ a ++ 9#11]
  | .imadX d a b c => [16#6 ++ d ++ a ++ b ++ c ++ 0#2]
  | .imadW d a b c => [16#6 ++ d ++ a ++ b ++ c ++ 1#2]
  | .imadw d a b c => [16#6 ++ d ++ a ++ b ++ c ++ 2#2]
  | .nmadw d a b c => [16#6 ++ d ++ a ++ b ++ c ++ 3#2]
  | .bra g o => [17#6 ++ g ++ o]
  | .call g o => [18#6 ++ g ++ o]
  | .brx g a => [19#6 ++ g ++ 0#6 ++ a ++ 0#11]
  | .callx g a => [19#6 ++ g ++ 0#6 ++ a ++ 1#11]
  | .ret g => [19#6 ++ g ++ 2#23]
  | .conv g a => [19#6 ++ g ++ 0#6 ++ a ++ 3#11]
  | .exit g => [19#6 ++ g ++ 4#23]
  | .fadd g d a b r t => [20#6 ++ g ++ d ++ a ++ b ++ r ++ t]
  | .fsub g d a b r t => [21#6 ++ g ++ d ++ a ++ b ++ r ++ t]
  | .fmul g d a b r t => [22#6 ++ g ++ d ++ a ++ b ++ r ++ t]
  | .fdiv g d a b r t => [23#6 ++ g ++ d ++ a ++ b ++ r ++ t]
  | .fma d a b c t => [24#6 ++ d ++ a ++ b ++ c ++ t]
  | .fms d a b c t => [25#6 ++ d ++ a ++ b ++ c ++ t]
  | .fnma d a b c t => [26#6 ++ d ++ a ++ b ++ c ++ t]
  | .fnms d a b c t => [27#6 ++ d ++ a ++ b ++ c ++ t]
  | .fsqrt g d a r t => [28#6 ++ g ++ d ++ a ++ 0#6 ++ r ++ t]
  | .frsq g d a r t => [28#6 ++ g ++ d ++ a ++ 1#6 ++ r ++ t]
  | .frcp g d a r t => [28#6 ++ g ++ d ++ a ++ 2#6 ++ r ++ t]
  | .fexp g d a r t => [28#6 ++ g ++ d ++ a ++ 3#6 ++ r ++ t]
  | .fexp2 g d a r t => [28#6 ++ g ++ d ++ a ++ 4#6 ++ r ++ t]
  | .fexpm1 g d a r t => [28#6 ++ g ++ d ++ a ++ 5#6 ++ r ++ t]
  | .flog g d a r t => [28#6 ++ g ++ d ++ a ++ 6#6 ++ r ++ t]
  | .flog2 g d a r t => [28#6 ++ g ++ d ++ a ++ 7#6 ++ r ++ t]
  | .flog1p g d a r t => [28#6 ++ g ++ d ++ a ++ 8#6 ++ r ++ t]
  | .ferf g d a r t => [28#6 ++ g ++ d ++ a ++ 9#6 ++ r ++ t]
  | .ferfc g d a r t => [28#6 ++ g ++ d ++ a ++ 10#6 ++ r ++ t]
  | .fsin g d a r t => [28#6 ++ g ++ d ++ a ++ 11#6 ++ r ++ t]
  | .fcos g d a r t => [28#6 ++ g ++ d ++ a ++ 12#6 ++ r ++ t]
  | .ftanh g d a r t => [28#6 ++ g ++ d ++ a ++ 13#6 ++ r ++ t]
  | .frint g d a r t => [28#6 ++ g ++ d ++ a ++ 14#6 ++ r ++ t]
  | .fmin g d a b t => [29#6 ++ g ++ d ++ a ++ b ++ 0#3 ++ t]
  | .fmax g d a b t => [29#6 ++ g ++ d ++ a ++ b ++ 1#3 ++ t]
  | .fminn g d a b t => [29#6 ++ g ++ d ++ a ++ b ++ 2#3 ++ t]
  | .fmaxn g d a b t => [29#6 ++ g ++ d ++ a ++ b ++ 3#3 ++ t]
  | .fabs g d a t => [29#6 ++ g ++ d ++ a ++ 4#9 ++ t]
  | .fneg g d a t => [29#6 ++ g ++ d ++ a ++ 5#9 ++ t]
  | .fcps g d a b t => [29#6 ++ g ++ d ++ a ++ b ++ 6#3 ++ t]
  | .fclass g d a t => [29#6 ++ g ++ d ++ a ++ 7#9 ++ t]
  | .fcmp g p q a b k t => [30#6 ++ g ++ p ++ q ++ a ++ b ++ k ++ t]
  | .fcvt g d a x s r => [31#6 ++ g ++ d ++ a ++ x ++ s ++ r]
  | .fkey g d a s => [31#6 ++ g ++ d ++ a ++ 60#6 ++ s ++ 0#3]
  | .rng g d a b => [32#6 ++ g ++ d ++ a ++ b ++ 0#5]
  | .ld g d a o s => [33#6 ++ g ++ d ++ a ++ o ++ s]
  | .st g d a o s => [34#6 ++ g ++ d ++ a ++ o ++ s]
  | .ldp g d a o s => [35#6 ++ g ++ d ++ a ++ o ++ s]
  | .stp g d a o s => [36#6 ++ g ++ d ++ a ++ o ++ s]
  | .ldacq g d a k s => [37#6 ++ g ++ d ++ a ++ 0#1 ++ k ++ 0#4 ++ s]
  | .strel g d a k s => [37#6 ++ g ++ d ++ a ++ 1#1 ++ k ++ 0#4 ++ s]
  | .atom g d a b p z => [38#6 ++ g ++ d ++ a ++ b ++ p ++ z]
  | .red g k o a b p z => [39#6 ++ g ++ k ++ o ++ 0#1 ++ a ++ b ++ p ++ z]
  | .cas d a b c t => [40#6 ++ d ++ a ++ b ++ c ++ t]
  | .fence g k o => [41#6 ++ g ++ 0#12 ++ k ++ o ++ 0#6]
  | .aflush g => [41#6 ++ g ++ 1#23]
  | .clean g a l => [41#6 ++ g ++ 0#6 ++ a ++ 0#5 ++ l ++ 2#5]
  | .inval g a l => [41#6 ++ g ++ 0#6 ++ a ++ 0#5 ++ l ++ 3#5]
  | .pscrub g a => [41#6 ++ g ++ 0#6 ++ a ++ 4#11]
  | .bar g b => [42#6 ++ g ++ 0#12 ++ b ++ 0#5]
  | .arrive g d b => [42#6 ++ g ++ d ++ 0#6 ++ b ++ 1#5]
  | .waitb g a b => [42#6 ++ g ++ 0#6 ++ a ++ b ++ 2#5]
  | .barc g => [42#6 ++ g ++ 3#23]
  | .fifow g d a b => [43#6 ++ g ++ d ++ a ++ b ++ 0#5]
  | .fifor g d b => [43#6 ++ g ++ d ++ 0#6 ++ b ++ 1#5]
  | .bankcfg g d a => [43#6 ++ g ++ d ++ a ++ 2#11]
  | .presq g d a => [43#6 ++ g ++ d ++ a ++ 3#11]
  | .pub g d a => [44#6 ++ g ++ d ++ a ++ 0#11]
  | .pubwait g d a => [44#6 ++ g ++ d ++ a ++ 1#11]
  | .mma g d a => [45#6 ++ g ++ d ++ a ++ 0#11]
  | .mepi g d a b => [45#6 ++ g ++ d ++ a ++ b ++ 1#5]
  | .mwait g d a => [45#6 ++ g ++ d ++ a ++ 2#11]
  | .mqry g d a => [45#6 ++ g ++ d ++ a ++ 3#11]
  | .mcan g d a => [45#6 ++ g ++ d ++ a ++ 4#11]
  | .accz g a b => [45#6 ++ g ++ 0#6 ++ a ++ b ++ 5#5]
  | .accrd g d a => [45#6 ++ g ++ d ++ a ++ 6#11]
  | .accwr g a b => [45#6 ++ g ++ 0#6 ++ a ++ b ++ 7#5]
  | .cbld g a => [45#6 ++ g ++ 0#6 ++ a ++ 8#11]
  | .ftab g d a b => [46#6 ++ g ++ d ++ a ++ b ++ 0#5]
  | .fcall g d a b => [46#6 ++ g ++ d ++ a ++ b ++ 1#5]
  | .fprobe g d a b => [46#6 ++ g ++ d ++ a ++ b ++ 2#5]
  | .fret g d a b => [46#6 ++ g ++ d ++ a ++ b ++ 3#5]
  | .fins g d a b => [46#6 ++ g ++ d ++ a ++ b ++ 4#5]
  | .fevict g d a b => [46#6 ++ g ++ d ++ a ++ b ++ 5#5]
  | .fclr g b => [46#6 ++ g ++ 0#12 ++ b ++ 6#5]
  | .fqry g d a b => [46#6 ++ g ++ d ++ a ++ b ++ 7#5]
  | .pbegin g => [47#6 ++ g ++ 0#23]
  | .accept g p y a b => [47#6 ++ g ++ p ++ 0#2 ++ y ++ a ++ b ++ 1#5]
  | .pcommit g => [47#6 ++ g ++ 2#23]
  | .pdisc g => [47#6 ++ g ++ 3#23]
  | .prun g d a b => [48#6 ++ g ++ d ++ a ++ b ++ 0#5]
  | .semsig g a b => [48#6 ++ g ++ 0#6 ++ a ++ b ++ 1#5]
  | .semwait g a b => [48#6 ++ g ++ 0#6 ++ a ++ b ++ 2#5]
  | .semqry g d b => [48#6 ++ g ++ d ++ 0#6 ++ b ++ 3#5]
  | .ovld g d a => [49#6 ++ g ++ d ++ a ++ 0#11]
  | .ovwait g d a => [49#6 ++ g ++ d ++ a ++ 1#11]
  | .ovcall g a => [49#6 ++ g ++ 0#6 ++ a ++ 2#11]
  | .ovevict g d a => [49#6 ++ g ++ d ++ a ++ 3#11]
  | .ovqry g d a => [49#6 ++ g ++ d ++ a ++ 4#11]
  | .trap g b => [50#6 ++ g ++ 0#12 ++ b ++ 0#5]
  | .tret => [3355443201#32]
  | .yield g => [50#6 ++ g ++ 2#23]
  | .sleep g a => [50#6 ++ g ++ 0#6 ++ a ++ 3#11]
  | .launch g d a b => [50#6 ++ g ++ d ++ a ++ b ++ 4#5]
  | .evsig g a b => [50#6 ++ g ++ 0#6 ++ a ++ b ++ 5#5]
  | .evwait g a b => [50#6 ++ g ++ 0#6 ++ a ++ b ++ 6#5]
  | .cvpub g d a => [50#6 ++ g ++ d ++ a ++ 7#11]
  | .cvswitch g d => [50#6 ++ g ++ d ++ 8#17]
  | .rdsys g d b => [50#6 ++ g ++ d ++ 0#6 ++ b ++ 9#5]
  | .wrsys g a b => [50#6 ++ g ++ 0#6 ++ a ++ b ++ 10#5]
  | .wrsysOvquota g a => [50#6 ++ g ++ 0#6 ++ a ++ 138#11]
  | .cpy x y z h => [56#6 ++ x ++ y ++ z ++ h ++ 0#16]
  | .cpy2 x y z h => [56#6 ++ x ++ y ++ z ++ h ++ 1#16]
  | .cpyt x y z h => [56#6 ++ x ++ y ++ z ++ h ++ 2#16]
  | .cfill x y z h => [56#6 ++ x ++ y ++ z ++ h ++ 3#16]
  | .cred x y z t o => [56#6 ++ x ++ y ++ z ++ t ++ o ++ 4#12]
  | .csig k s => [29184#15 ++ k ++ s ++ 0#5]
  | .cwait k s => [29184#15 ++ k ++ s ++ 1#5]
  | .cloop x i => [57#6 ++ x ++ 0#6 ++ i ++ 2#5]
  | .cend => [3825205251#32]
  | .cpub x => [57#6 ++ x ++ 4#23]
  | .cqsetAddi x y i => [57#6 ++ x ++ y ++ 0#5 ++ i ++ 5#5]
  | .cqsetAdd x y z => [57#6 ++ x ++ y ++ z ++ 32773#17]
  | .cqsetLd x y i => [57#6 ++ x ++ y ++ 2#5 ++ i ++ 5#5]
  | .stallExpiry _ | .sleepExpiry _ | .fairnessSwitch _ | .forcedExchange _ | .clusterBarrierComplete _ _
  | .ldpPresenceWake _ | .porterCopyComplete _ _ | .porterResume _ | .matrixChunk _ _ | .jobEpilogue _ _
  | .foremanRetryJob _ _ | .foremanRepairOperand _ _ _ | .overlayLoadComplete _ _ | .assayerUpdate _ _
  | .publicationSwap _ _ | .redDrainComplete _ | .foremanExtendSpill _ _ _ | .foremanGrowCarveout _ _ _
  | .taggedRequest _ _ | .taggedAck _ _ _ | .replayIntervalExpiry _ _ | .join _ _ | .upg _ _ | .purge _ _
  | .purged _ _ | .leave _ _ | .setprev _ _ _ | .setnext _ _ _ | .fetch _ _ _ | .recall _ _ | .recallAck _ _
  | .homeReleaseTransaction _ _ | .homeAcquireTransaction _ _ | .backInvalidateSnoop _ | .pageWalk _ _ _
  | .tlbInvalidate _ _ _ | .softError _ _ | .backgroundScrub _ | .agentDeclaredDead _ | .dcdReleaseRequest _ _ _
  | .hostLaunchSubmit _ _ _ | .queueBind _ _ | .gridEligible _ | .foremanRepairMapping _ _ | .clusterPlace
  | .quantumSliceEnd _ | .preemption _ | .resumption _ _ | .gridCompletion _ | .trapVector _ | .foremanResume _ _
  | .foremanKillCrew _ | .foremanEndGrid _ _ _ | .foremanWithdrawLane _ _ _ | .foremanCreateVersion _ _ _ _ _
  | .fstsizeSet _ _ | .groupTableWrite _ _ | .credContribution _ | .credResult _ _ _ _ _ | .umnorDataFlit _ _
  | .umnorIdleFlit _ _ | .umnorNegFlit _ _ | .umnorReplayTimeout _ | .umnorRetrain _ _ | .cxlPortTraining _ _
  | .powerGood | .bootImageCheck _ | .attestationRequest _ | .powerSample _ | .clockStep _ _ _ | .thermalStop _
  | .thermalResume _ | .errorCountLog _ | .eventLogRead _ | .ethernetLinkDown _ | .unusedEncoding _
  | .unfinishedInstructionFinish _ _ | .ethernetLinkUp _ => []

/-- Why a word is no instruction (R86). -/
inductive Reject where
  /-- An opcode, sub-operation or hint kind that R80 does not list: ILLEGAL. -/
  | illegal
  /-- A nonzero reserved bit: RESBITS. -/
  | resbits
  /-- Fewer bytes than one word. -/
  | short
deriving DecidableEq, Repr

/-- Is this an event row of the opcode table, which has no encoding? -/
def Instr.isEvent : Instr → Bool
  | .stallExpiry _ | .sleepExpiry _ | .fairnessSwitch _ | .forcedExchange _ | .clusterBarrierComplete _ _
  | .ldpPresenceWake _ | .porterCopyComplete _ _ | .porterResume _ | .matrixChunk _ _ | .jobEpilogue _ _
  | .foremanRetryJob _ _ | .foremanRepairOperand _ _ _ | .overlayLoadComplete _ _ | .assayerUpdate _ _
  | .publicationSwap _ _ | .redDrainComplete _ | .foremanExtendSpill _ _ _ | .foremanGrowCarveout _ _ _
  | .taggedRequest _ _ | .taggedAck _ _ _ | .replayIntervalExpiry _ _ | .join _ _ | .upg _ _ | .purge _ _
  | .purged _ _ | .leave _ _ | .setprev _ _ _ | .setnext _ _ _ | .fetch _ _ _ | .recall _ _ | .recallAck _ _
  | .homeReleaseTransaction _ _ | .homeAcquireTransaction _ _ | .backInvalidateSnoop _ | .pageWalk _ _ _
  | .tlbInvalidate _ _ _ | .softError _ _ | .backgroundScrub _ | .agentDeclaredDead _ | .dcdReleaseRequest _ _ _
  | .hostLaunchSubmit _ _ _ | .queueBind _ _ | .gridEligible _ | .foremanRepairMapping _ _ | .clusterPlace
  | .quantumSliceEnd _ | .preemption _ | .resumption _ _ | .gridCompletion _ | .trapVector _ | .foremanResume _ _
  | .foremanKillCrew _ | .foremanEndGrid _ _ _ | .foremanWithdrawLane _ _ _ | .foremanCreateVersion _ _ _ _ _
  | .fstsizeSet _ _ | .groupTableWrite _ _ | .credContribution _ | .credResult _ _ _ _ _ | .umnorDataFlit _ _
  | .umnorIdleFlit _ _ | .umnorNegFlit _ _ | .umnorReplayTimeout _ | .umnorRetrain _ _ | .cxlPortTraining _ _
  | .powerGood | .bootImageCheck _ | .attestationRequest _ | .powerSample _ | .clockStep _ _ _ | .thermalStop _
  | .thermalResume _ | .errorCountLog _ | .eventLogRead _ | .ethernetLinkDown _ | .unusedEncoding _
  | .unfinishedInstructionFinish _ _ | .ethernetLinkUp _ => true
  | .nop | .stall _ | .rnd _ | .ximm _ | .guard _ | .scope _ _ | .iadd _ _ _ _ _ | .isub _ _ _ _ _ | .imin _ _ _ _ _
  | .imax _ _ _ _ _ | .nmin _ _ _ _ _ | .nmax _ _ _ _ _ | .sadd _ _ _ _ _ | .ssub _ _ _ _ _ | .imulX _ _ _ _
  | .imulW _ _ _ _ | .imulhX _ _ _ _ | .imulhW _ _ _ _ | .nmulhX _ _ _ _ | .nmulhW _ _ _ _ | .imulw _ _ _ _
  | .nmulw _ _ _ _ | .and _ _ _ _ | .or _ _ _ _ | .xor _ _ _ _ | .andn _ _ _ _ | .orn _ _ _ _ | .shlX _ _ _ _
  | .shlW _ _ _ _ | .shrX _ _ _ _ | .shrW _ _ _ _ | .sarX _ _ _ _ | .sarW _ _ _ _ | .rolX _ _ _ _ | .rolW _ _ _ _
  | .popc _ _ _ | .clz _ _ _ | .ctz _ _ _ | .brev _ _ _ | .sel _ _ _ _ | .bfx _ _ _ _ | .bfxs _ _ _ _ | .bfi _ _ _ _
  | .seperm _ _ _ _ | .iaddi _ _ _ _ | .andi _ _ _ _ | .ori _ _ _ _ | .xori _ _ _ _ | .shli _ _ _ _ _
  | .shri _ _ _ _ _ | .sari _ _ _ _ _ | .roli _ _ _ _ _ | .limm _ _ _ | .icmp _ _ _ _ _ _ _ | .icmpi _ _ _ _ _ _ _
  | .pand _ _ _ _ _ | .por _ _ _ _ _ | .pxor _ _ _ _ _ | .pandn _ _ _ _ _ | .pnot _ _ _ _ | .mskr _ _ _
  | .mskw _ _ _ _ | .mov _ _ _ | .movs _ _ _ | .wrs _ _ _ | .wrsFstat _ _ | .lperm _ _ _ _ | .lxor _ _ _ _
  | .lup _ _ _ _ | .ldown _ _ _ _ | .lbc _ _ _ _ | .ballot _ _ _ | .vany _ _ _ | .vall _ _ _ | .elect _ _
  | .lpfx _ _ _ | .imadX _ _ _ _ | .imadW _ _ _ _ | .imadw _ _ _ _ | .nmadw _ _ _ _ | .bra _ _ | .call _ _ | .brx _ _
  | .callx _ _ | .ret _ | .conv _ _ | .exit _ | .fadd _ _ _ _ _ _ | .fsub _ _ _ _ _ _ | .fmul _ _ _ _ _ _
  | .fdiv _ _ _ _ _ _ | .fma _ _ _ _ _ | .fms _ _ _ _ _ | .fnma _ _ _ _ _ | .fnms _ _ _ _ _ | .fsqrt _ _ _ _ _
  | .frsq _ _ _ _ _ | .frcp _ _ _ _ _ | .fexp _ _ _ _ _ | .fexp2 _ _ _ _ _ | .fexpm1 _ _ _ _ _ | .flog _ _ _ _ _
  | .flog2 _ _ _ _ _ | .flog1p _ _ _ _ _ | .ferf _ _ _ _ _ | .ferfc _ _ _ _ _ | .fsin _ _ _ _ _ | .fcos _ _ _ _ _
  | .ftanh _ _ _ _ _ | .frint _ _ _ _ _ | .fmin _ _ _ _ _ | .fmax _ _ _ _ _ | .fminn _ _ _ _ _ | .fmaxn _ _ _ _ _
  | .fabs _ _ _ _ | .fneg _ _ _ _ | .fcps _ _ _ _ _ | .fclass _ _ _ _ | .fcmp _ _ _ _ _ _ _ | .fcvt _ _ _ _ _ _
  | .fkey _ _ _ _ | .rng _ _ _ _ | .ld _ _ _ _ _ | .st _ _ _ _ _ | .ldp _ _ _ _ _ | .stp _ _ _ _ _ | .ldacq _ _ _ _ _
  | .strel _ _ _ _ _ | .atom _ _ _ _ _ _ | .red _ _ _ _ _ _ _ | .cas _ _ _ _ _ | .fence _ _ _ | .aflush _
  | .clean _ _ _ | .inval _ _ _ | .pscrub _ _ | .bar _ _ | .arrive _ _ _ | .waitb _ _ _ | .barc _ | .fifow _ _ _ _
  | .fifor _ _ _ | .bankcfg _ _ _ | .presq _ _ _ | .pub _ _ _ | .pubwait _ _ _ | .mma _ _ _ | .mepi _ _ _ _
  | .mwait _ _ _ | .mqry _ _ _ | .mcan _ _ _ | .accz _ _ _ | .accrd _ _ _ | .accwr _ _ _ | .cbld _ _ | .ftab _ _ _ _
  | .fcall _ _ _ _ | .fprobe _ _ _ _ | .fret _ _ _ _ | .fins _ _ _ _ | .fevict _ _ _ _ | .fclr _ _ | .fqry _ _ _ _
  | .pbegin _ | .accept _ _ _ _ _ | .pcommit _ | .pdisc _ | .prun _ _ _ _ | .semsig _ _ _ | .semwait _ _ _
  | .semqry _ _ _ | .ovld _ _ _ | .ovwait _ _ _ | .ovcall _ _ | .ovevict _ _ _ | .ovqry _ _ _ | .trap _ _ | .tret
  | .yield _ | .sleep _ _ | .launch _ _ _ _ | .evsig _ _ _ | .evwait _ _ _ | .cvpub _ _ _ | .cvswitch _ _
  | .rdsys _ _ _ | .wrsys _ _ _ | .wrsysOvquota _ _ | .cpy _ _ _ _ | .cpy2 _ _ _ _ | .cpyt _ _ _ _ | .cfill _ _ _ _
  | .cred _ _ _ _ _ | .csig _ _ | .cwait _ _ | .cloop _ _ | .cend | .cpub _ | .cqsetAddi _ _ _ | .cqsetAdd _ _ _
  | .cqsetLd _ _ _ => false

/-- Is this a word of major 0x38 or 0x39, which only a Porter's stream holds (R86, R258)? -/
def Instr.isPorter : Instr → Bool
  | .cpy _ _ _ _ | .cpy2 _ _ _ _ | .cpyt _ _ _ _ | .cfill _ _ _ _ | .cred _ _ _ _ _ | .csig _ _ | .cwait _ _
  | .cloop _ _ | .cend | .cpub _ | .cqsetAddi _ _ _ | .cqsetAdd _ _ _ | .cqsetLd _ _ _ => true
  | .nop | .stall _ | .rnd _ | .ximm _ | .guard _ | .scope _ _ | .iadd _ _ _ _ _ | .isub _ _ _ _ _ | .imin _ _ _ _ _
  | .imax _ _ _ _ _ | .nmin _ _ _ _ _ | .nmax _ _ _ _ _ | .sadd _ _ _ _ _ | .ssub _ _ _ _ _ | .imulX _ _ _ _
  | .imulW _ _ _ _ | .imulhX _ _ _ _ | .imulhW _ _ _ _ | .nmulhX _ _ _ _ | .nmulhW _ _ _ _ | .imulw _ _ _ _
  | .nmulw _ _ _ _ | .and _ _ _ _ | .or _ _ _ _ | .xor _ _ _ _ | .andn _ _ _ _ | .orn _ _ _ _ | .shlX _ _ _ _
  | .shlW _ _ _ _ | .shrX _ _ _ _ | .shrW _ _ _ _ | .sarX _ _ _ _ | .sarW _ _ _ _ | .rolX _ _ _ _ | .rolW _ _ _ _
  | .popc _ _ _ | .clz _ _ _ | .ctz _ _ _ | .brev _ _ _ | .sel _ _ _ _ | .bfx _ _ _ _ | .bfxs _ _ _ _ | .bfi _ _ _ _
  | .seperm _ _ _ _ | .iaddi _ _ _ _ | .andi _ _ _ _ | .ori _ _ _ _ | .xori _ _ _ _ | .shli _ _ _ _ _
  | .shri _ _ _ _ _ | .sari _ _ _ _ _ | .roli _ _ _ _ _ | .limm _ _ _ | .icmp _ _ _ _ _ _ _ | .icmpi _ _ _ _ _ _ _
  | .pand _ _ _ _ _ | .por _ _ _ _ _ | .pxor _ _ _ _ _ | .pandn _ _ _ _ _ | .pnot _ _ _ _ | .mskr _ _ _
  | .mskw _ _ _ _ | .mov _ _ _ | .movs _ _ _ | .wrs _ _ _ | .wrsFstat _ _ | .lperm _ _ _ _ | .lxor _ _ _ _
  | .lup _ _ _ _ | .ldown _ _ _ _ | .lbc _ _ _ _ | .ballot _ _ _ | .vany _ _ _ | .vall _ _ _ | .elect _ _
  | .lpfx _ _ _ | .imadX _ _ _ _ | .imadW _ _ _ _ | .imadw _ _ _ _ | .nmadw _ _ _ _ | .bra _ _ | .call _ _ | .brx _ _
  | .callx _ _ | .ret _ | .conv _ _ | .exit _ | .fadd _ _ _ _ _ _ | .fsub _ _ _ _ _ _ | .fmul _ _ _ _ _ _
  | .fdiv _ _ _ _ _ _ | .fma _ _ _ _ _ | .fms _ _ _ _ _ | .fnma _ _ _ _ _ | .fnms _ _ _ _ _ | .fsqrt _ _ _ _ _
  | .frsq _ _ _ _ _ | .frcp _ _ _ _ _ | .fexp _ _ _ _ _ | .fexp2 _ _ _ _ _ | .fexpm1 _ _ _ _ _ | .flog _ _ _ _ _
  | .flog2 _ _ _ _ _ | .flog1p _ _ _ _ _ | .ferf _ _ _ _ _ | .ferfc _ _ _ _ _ | .fsin _ _ _ _ _ | .fcos _ _ _ _ _
  | .ftanh _ _ _ _ _ | .frint _ _ _ _ _ | .fmin _ _ _ _ _ | .fmax _ _ _ _ _ | .fminn _ _ _ _ _ | .fmaxn _ _ _ _ _
  | .fabs _ _ _ _ | .fneg _ _ _ _ | .fcps _ _ _ _ _ | .fclass _ _ _ _ | .fcmp _ _ _ _ _ _ _ | .fcvt _ _ _ _ _ _
  | .fkey _ _ _ _ | .rng _ _ _ _ | .ld _ _ _ _ _ | .st _ _ _ _ _ | .ldp _ _ _ _ _ | .stp _ _ _ _ _ | .ldacq _ _ _ _ _
  | .strel _ _ _ _ _ | .atom _ _ _ _ _ _ | .red _ _ _ _ _ _ _ | .cas _ _ _ _ _ | .fence _ _ _ | .aflush _
  | .clean _ _ _ | .inval _ _ _ | .pscrub _ _ | .bar _ _ | .arrive _ _ _ | .waitb _ _ _ | .barc _ | .fifow _ _ _ _
  | .fifor _ _ _ | .bankcfg _ _ _ | .presq _ _ _ | .pub _ _ _ | .pubwait _ _ _ | .mma _ _ _ | .mepi _ _ _ _
  | .mwait _ _ _ | .mqry _ _ _ | .mcan _ _ _ | .accz _ _ _ | .accrd _ _ _ | .accwr _ _ _ | .cbld _ _ | .ftab _ _ _ _
  | .fcall _ _ _ _ | .fprobe _ _ _ _ | .fret _ _ _ _ | .fins _ _ _ _ | .fevict _ _ _ _ | .fclr _ _ | .fqry _ _ _ _
  | .pbegin _ | .accept _ _ _ _ _ | .pcommit _ | .pdisc _ | .prun _ _ _ _ | .semsig _ _ _ | .semwait _ _ _
  | .semqry _ _ _ | .ovld _ _ _ | .ovwait _ _ _ | .ovcall _ _ | .ovevict _ _ _ | .ovqry _ _ _ | .trap _ _ | .tret
  | .yield _ | .sleep _ _ | .launch _ _ _ _ | .evsig _ _ _ | .evwait _ _ _ | .cvpub _ _ _ | .cvswitch _ _
  | .rdsys _ _ _ | .wrsys _ _ _ | .wrsysOvquota _ _ | .stallExpiry _ | .sleepExpiry _ | .fairnessSwitch _
  | .forcedExchange _ | .clusterBarrierComplete _ _ | .ldpPresenceWake _ | .porterCopyComplete _ _ | .porterResume _
  | .matrixChunk _ _ | .jobEpilogue _ _ | .foremanRetryJob _ _ | .foremanRepairOperand _ _ _
  | .overlayLoadComplete _ _ | .assayerUpdate _ _ | .publicationSwap _ _ | .redDrainComplete _
  | .foremanExtendSpill _ _ _ | .foremanGrowCarveout _ _ _ | .taggedRequest _ _ | .taggedAck _ _ _
  | .replayIntervalExpiry _ _ | .join _ _ | .upg _ _ | .purge _ _ | .purged _ _ | .leave _ _ | .setprev _ _ _
  | .setnext _ _ _ | .fetch _ _ _ | .recall _ _ | .recallAck _ _ | .homeReleaseTransaction _ _
  | .homeAcquireTransaction _ _ | .backInvalidateSnoop _ | .pageWalk _ _ _ | .tlbInvalidate _ _ _ | .softError _ _
  | .backgroundScrub _ | .agentDeclaredDead _ | .dcdReleaseRequest _ _ _ | .hostLaunchSubmit _ _ _ | .queueBind _ _
  | .gridEligible _ | .foremanRepairMapping _ _ | .clusterPlace | .quantumSliceEnd _ | .preemption _
  | .resumption _ _ | .gridCompletion _ | .trapVector _ | .foremanResume _ _ | .foremanKillCrew _
  | .foremanEndGrid _ _ _ | .foremanWithdrawLane _ _ _ | .foremanCreateVersion _ _ _ _ _ | .fstsizeSet _ _
  | .groupTableWrite _ _ | .credContribution _ | .credResult _ _ _ _ _ | .umnorDataFlit _ _ | .umnorIdleFlit _ _
  | .umnorNegFlit _ _ | .umnorReplayTimeout _ | .umnorRetrain _ _ | .cxlPortTraining _ _ | .powerGood
  | .bootImageCheck _ | .attestationRequest _ | .powerSample _ | .clockStep _ _ _ | .thermalStop _ | .thermalResume _
  | .errorCountLog _ | .eventLogRead _ | .ethernetLinkDown _ | .unusedEncoding _ | .unfinishedInstructionFinish _ _
  | .ethernetLinkUp _ => false

/-- Is this a hint word (R83)? -/
def Instr.isHint : Instr → Bool
  | .nop | .stall _ | .rnd _ | .ximm _ | .guard _ | .scope _ _ => true
  | .iadd _ _ _ _ _ | .isub _ _ _ _ _ | .imin _ _ _ _ _ | .imax _ _ _ _ _ | .nmin _ _ _ _ _ | .nmax _ _ _ _ _
  | .sadd _ _ _ _ _ | .ssub _ _ _ _ _ | .imulX _ _ _ _ | .imulW _ _ _ _ | .imulhX _ _ _ _ | .imulhW _ _ _ _
  | .nmulhX _ _ _ _ | .nmulhW _ _ _ _ | .imulw _ _ _ _ | .nmulw _ _ _ _ | .and _ _ _ _ | .or _ _ _ _ | .xor _ _ _ _
  | .andn _ _ _ _ | .orn _ _ _ _ | .shlX _ _ _ _ | .shlW _ _ _ _ | .shrX _ _ _ _ | .shrW _ _ _ _ | .sarX _ _ _ _
  | .sarW _ _ _ _ | .rolX _ _ _ _ | .rolW _ _ _ _ | .popc _ _ _ | .clz _ _ _ | .ctz _ _ _ | .brev _ _ _
  | .sel _ _ _ _ | .bfx _ _ _ _ | .bfxs _ _ _ _ | .bfi _ _ _ _ | .seperm _ _ _ _ | .iaddi _ _ _ _ | .andi _ _ _ _
  | .ori _ _ _ _ | .xori _ _ _ _ | .shli _ _ _ _ _ | .shri _ _ _ _ _ | .sari _ _ _ _ _ | .roli _ _ _ _ _
  | .limm _ _ _ | .icmp _ _ _ _ _ _ _ | .icmpi _ _ _ _ _ _ _ | .pand _ _ _ _ _ | .por _ _ _ _ _ | .pxor _ _ _ _ _
  | .pandn _ _ _ _ _ | .pnot _ _ _ _ | .mskr _ _ _ | .mskw _ _ _ _ | .mov _ _ _ | .movs _ _ _ | .wrs _ _ _
  | .wrsFstat _ _ | .lperm _ _ _ _ | .lxor _ _ _ _ | .lup _ _ _ _ | .ldown _ _ _ _ | .lbc _ _ _ _ | .ballot _ _ _
  | .vany _ _ _ | .vall _ _ _ | .elect _ _ | .lpfx _ _ _ | .imadX _ _ _ _ | .imadW _ _ _ _ | .imadw _ _ _ _
  | .nmadw _ _ _ _ | .bra _ _ | .call _ _ | .brx _ _ | .callx _ _ | .ret _ | .conv _ _ | .exit _ | .fadd _ _ _ _ _ _
  | .fsub _ _ _ _ _ _ | .fmul _ _ _ _ _ _ | .fdiv _ _ _ _ _ _ | .fma _ _ _ _ _ | .fms _ _ _ _ _ | .fnma _ _ _ _ _
  | .fnms _ _ _ _ _ | .fsqrt _ _ _ _ _ | .frsq _ _ _ _ _ | .frcp _ _ _ _ _ | .fexp _ _ _ _ _ | .fexp2 _ _ _ _ _
  | .fexpm1 _ _ _ _ _ | .flog _ _ _ _ _ | .flog2 _ _ _ _ _ | .flog1p _ _ _ _ _ | .ferf _ _ _ _ _ | .ferfc _ _ _ _ _
  | .fsin _ _ _ _ _ | .fcos _ _ _ _ _ | .ftanh _ _ _ _ _ | .frint _ _ _ _ _ | .fmin _ _ _ _ _ | .fmax _ _ _ _ _
  | .fminn _ _ _ _ _ | .fmaxn _ _ _ _ _ | .fabs _ _ _ _ | .fneg _ _ _ _ | .fcps _ _ _ _ _ | .fclass _ _ _ _
  | .fcmp _ _ _ _ _ _ _ | .fcvt _ _ _ _ _ _ | .fkey _ _ _ _ | .rng _ _ _ _ | .ld _ _ _ _ _ | .st _ _ _ _ _
  | .ldp _ _ _ _ _ | .stp _ _ _ _ _ | .ldacq _ _ _ _ _ | .strel _ _ _ _ _ | .atom _ _ _ _ _ _ | .red _ _ _ _ _ _ _
  | .cas _ _ _ _ _ | .fence _ _ _ | .aflush _ | .clean _ _ _ | .inval _ _ _ | .pscrub _ _ | .bar _ _ | .arrive _ _ _
  | .waitb _ _ _ | .barc _ | .fifow _ _ _ _ | .fifor _ _ _ | .bankcfg _ _ _ | .presq _ _ _ | .pub _ _ _
  | .pubwait _ _ _ | .mma _ _ _ | .mepi _ _ _ _ | .mwait _ _ _ | .mqry _ _ _ | .mcan _ _ _ | .accz _ _ _
  | .accrd _ _ _ | .accwr _ _ _ | .cbld _ _ | .ftab _ _ _ _ | .fcall _ _ _ _ | .fprobe _ _ _ _ | .fret _ _ _ _
  | .fins _ _ _ _ | .fevict _ _ _ _ | .fclr _ _ | .fqry _ _ _ _ | .pbegin _ | .accept _ _ _ _ _ | .pcommit _
  | .pdisc _ | .prun _ _ _ _ | .semsig _ _ _ | .semwait _ _ _ | .semqry _ _ _ | .ovld _ _ _ | .ovwait _ _ _
  | .ovcall _ _ | .ovevict _ _ _ | .ovqry _ _ _ | .trap _ _ | .tret | .yield _ | .sleep _ _ | .launch _ _ _ _
  | .evsig _ _ _ | .evwait _ _ _ | .cvpub _ _ _ | .cvswitch _ _ | .rdsys _ _ _ | .wrsys _ _ _ | .wrsysOvquota _ _
  | .cpy _ _ _ _ | .cpy2 _ _ _ _ | .cpyt _ _ _ _ | .cfill _ _ _ _ | .cred _ _ _ _ _ | .csig _ _ | .cwait _ _
  | .cloop _ _ | .cend | .cpub _ | .cqsetAddi _ _ _ | .cqsetAdd _ _ _ | .cqsetLd _ _ _ | .stallExpiry _
  | .sleepExpiry _ | .fairnessSwitch _ | .forcedExchange _ | .clusterBarrierComplete _ _ | .ldpPresenceWake _
  | .porterCopyComplete _ _ | .porterResume _ | .matrixChunk _ _ | .jobEpilogue _ _ | .foremanRetryJob _ _
  | .foremanRepairOperand _ _ _ | .overlayLoadComplete _ _ | .assayerUpdate _ _ | .publicationSwap _ _
  | .redDrainComplete _ | .foremanExtendSpill _ _ _ | .foremanGrowCarveout _ _ _ | .taggedRequest _ _
  | .taggedAck _ _ _ | .replayIntervalExpiry _ _ | .join _ _ | .upg _ _ | .purge _ _ | .purged _ _ | .leave _ _
  | .setprev _ _ _ | .setnext _ _ _ | .fetch _ _ _ | .recall _ _ | .recallAck _ _ | .homeReleaseTransaction _ _
  | .homeAcquireTransaction _ _ | .backInvalidateSnoop _ | .pageWalk _ _ _ | .tlbInvalidate _ _ _ | .softError _ _
  | .backgroundScrub _ | .agentDeclaredDead _ | .dcdReleaseRequest _ _ _ | .hostLaunchSubmit _ _ _ | .queueBind _ _
  | .gridEligible _ | .foremanRepairMapping _ _ | .clusterPlace | .quantumSliceEnd _ | .preemption _
  | .resumption _ _ | .gridCompletion _ | .trapVector _ | .foremanResume _ _ | .foremanKillCrew _
  | .foremanEndGrid _ _ _ | .foremanWithdrawLane _ _ _ | .foremanCreateVersion _ _ _ _ _ | .fstsizeSet _ _
  | .groupTableWrite _ _ | .credContribution _ | .credResult _ _ _ _ _ | .umnorDataFlit _ _ | .umnorIdleFlit _ _
  | .umnorNegFlit _ _ | .umnorReplayTimeout _ | .umnorRetrain _ _ | .cxlPortTraining _ _ | .powerGood
  | .bootImageCheck _ | .attestationRequest _ | .powerSample _ | .clockStep _ _ _ | .thermalStop _ | .thermalResume _
  | .errorCountLog _ | .eventLogRead _ | .ethernetLinkDown _ | .unusedEncoding _ | .unfinishedInstructionFinish _ _
  | .ethernetLinkUp _ => false

/-- A code field that the instruction reads holds a value that R78, R79, R81 or the instruction's own rule calls ILLEGAL. -/
def Instr.illegal : Instr → Bool
  | .rnd r | .fadd _ _ _ _ r _ | .fsub _ _ _ _ r _ | .fmul _ _ _ _ r _ | .fdiv _ _ _ _ r _ | .fsqrt _ _ _ r _
  | .frsq _ _ _ r _ | .frcp _ _ _ r _ | .fexp _ _ _ r _ | .fexp2 _ _ _ r _ | .fexpm1 _ _ _ r _ | .flog _ _ _ r _
  | .flog2 _ _ _ r _ | .flog1p _ _ _ r _ | .ferf _ _ _ r _ | .ferfc _ _ _ r _ | .fsin _ _ _ r _ | .fcos _ _ _ r _
  | .ftanh _ _ _ r _ | .frint _ _ _ r _ => r == 6
  | .scope k _ | .fence _ k _ => k ≥ 5
  | .shli _ _ _ w n | .shri _ _ _ w n | .sari _ _ _ w n | .roli _ _ _ w n => n.toNat ≥ widthOf w
  | .icmp _ p q _ _ _ _ | .icmpi _ p q _ _ _ _ | .pand _ p q _ _ | .por _ p q _ _ | .pxor _ p q _ _
  | .pandn _ p q _ _ | .pnot _ p q _ | .mskw _ p q _ | .fcmp _ p q _ _ _ _ => p == q && p != 0
  | .mskr _ _ a => a ≥ 8
  | .movs _ _ b => b ≥ 18
  | .wrs _ _ b => !(b == 11 || b == 12 || b == 14 || b == 15)
  | .fcvt _ _ _ x s r => r == 6 || x ≥ 14 || s ≥ 14 || x == s
  | .rng _ d _ _ => badPair d
  | .ld _ d _ _ s | .ldp _ d _ _ s => s == 7 && badPair d
  | .st _ d _ _ s | .stp _ d _ _ s => (4 ≤ s && s ≤ 6) || (s == 7 && badPair d)
  | .ldacq _ _ _ k s => k ≥ 5 || s == 7
  | .strel _ _ _ k s => k ≥ 5 || s ≥ 4
  | .atom _ _ _ _ p _ => p ≥ 10
  | .red _ k _ _ _ p _ => k ≥ 5 || p == 8 || p ≥ 10
  | .cas _ _ _ _ t => t ≥ 2
  | .fifow _ _ _ b | .fifor _ _ b => b ≥ 48
  | .ftab _ _ _ b | .fins _ _ _ b | .fclr _ b | .fqry _ _ _ b | .semsig _ _ b | .semwait _ _ b | .semqry _ _ b => b ≥ 32
  | .fcall _ d a b | .fret _ d a b => b ≥ 32 || a ≥ 48 || d == 48
  | .fprobe _ _ a b | .fevict _ _ a b => b ≥ 32 || a ≥ 48
  | .rdsys _ _ b => b ≥ 13
  | .wrsys _ _ b => !(b == 1 || b == 3 || b == 4 || b == 5 || b == 6 || b == 12)
  | .cred _ _ _ t o => t ≥ 5 || o == 3
  | .csig _ s | .cwait _ s => s ≥ 32
  | .nop | .stall _ | .ximm _ | .guard _ | .iadd _ _ _ _ _ | .isub _ _ _ _ _ | .imin _ _ _ _ _ | .imax _ _ _ _ _
  | .nmin _ _ _ _ _ | .nmax _ _ _ _ _ | .sadd _ _ _ _ _ | .ssub _ _ _ _ _ | .imulX _ _ _ _ | .imulW _ _ _ _
  | .imulhX _ _ _ _ | .imulhW _ _ _ _ | .nmulhX _ _ _ _ | .nmulhW _ _ _ _ | .imulw _ _ _ _ | .nmulw _ _ _ _
  | .and _ _ _ _ | .or _ _ _ _ | .xor _ _ _ _ | .andn _ _ _ _ | .orn _ _ _ _ | .shlX _ _ _ _ | .shlW _ _ _ _
  | .shrX _ _ _ _ | .shrW _ _ _ _ | .sarX _ _ _ _ | .sarW _ _ _ _ | .rolX _ _ _ _ | .rolW _ _ _ _ | .popc _ _ _
  | .clz _ _ _ | .ctz _ _ _ | .brev _ _ _ | .sel _ _ _ _ | .bfx _ _ _ _ | .bfxs _ _ _ _ | .bfi _ _ _ _
  | .seperm _ _ _ _ | .iaddi _ _ _ _ | .andi _ _ _ _ | .ori _ _ _ _ | .xori _ _ _ _ | .limm _ _ _ | .mov _ _ _
  | .wrsFstat _ _ | .lperm _ _ _ _ | .lxor _ _ _ _ | .lup _ _ _ _ | .ldown _ _ _ _ | .lbc _ _ _ _ | .ballot _ _ _
  | .vany _ _ _ | .vall _ _ _ | .elect _ _ | .lpfx _ _ _ | .imadX _ _ _ _ | .imadW _ _ _ _ | .imadw _ _ _ _
  | .nmadw _ _ _ _ | .bra _ _ | .call _ _ | .brx _ _ | .callx _ _ | .ret _ | .conv _ _ | .exit _ | .fma _ _ _ _ _
  | .fms _ _ _ _ _ | .fnma _ _ _ _ _ | .fnms _ _ _ _ _ | .fmin _ _ _ _ _ | .fmax _ _ _ _ _ | .fminn _ _ _ _ _
  | .fmaxn _ _ _ _ _ | .fabs _ _ _ _ | .fneg _ _ _ _ | .fcps _ _ _ _ _ | .fclass _ _ _ _ | .fkey _ _ _ _ | .aflush _
  | .clean _ _ _ | .inval _ _ _ | .pscrub _ _ | .bar _ _ | .arrive _ _ _ | .waitb _ _ _ | .barc _ | .bankcfg _ _ _
  | .presq _ _ _ | .pub _ _ _ | .pubwait _ _ _ | .mma _ _ _ | .mepi _ _ _ _ | .mwait _ _ _ | .mqry _ _ _
  | .mcan _ _ _ | .accz _ _ _ | .accrd _ _ _ | .accwr _ _ _ | .cbld _ _ | .pbegin _ | .accept _ _ _ _ _ | .pcommit _
  | .pdisc _ | .prun _ _ _ _ | .ovld _ _ _ | .ovwait _ _ _ | .ovcall _ _ | .ovevict _ _ _ | .ovqry _ _ _ | .trap _ _
  | .tret | .yield _ | .sleep _ _ | .launch _ _ _ _ | .evsig _ _ _ | .evwait _ _ _ | .cvpub _ _ _ | .cvswitch _ _
  | .wrsysOvquota _ _ | .cpy _ _ _ _ | .cpy2 _ _ _ _ | .cpyt _ _ _ _ | .cfill _ _ _ _ | .cloop _ _ | .cend | .cpub _
  | .cqsetAddi _ _ _ | .cqsetAdd _ _ _ | .cqsetLd _ _ _ | .stallExpiry _ | .sleepExpiry _ | .fairnessSwitch _
  | .forcedExchange _ | .clusterBarrierComplete _ _ | .ldpPresenceWake _ | .porterCopyComplete _ _ | .porterResume _
  | .matrixChunk _ _ | .jobEpilogue _ _ | .foremanRetryJob _ _ | .foremanRepairOperand _ _ _
  | .overlayLoadComplete _ _ | .assayerUpdate _ _ | .publicationSwap _ _ | .redDrainComplete _
  | .foremanExtendSpill _ _ _ | .foremanGrowCarveout _ _ _ | .taggedRequest _ _ | .taggedAck _ _ _
  | .replayIntervalExpiry _ _ | .join _ _ | .upg _ _ | .purge _ _ | .purged _ _ | .leave _ _ | .setprev _ _ _
  | .setnext _ _ _ | .fetch _ _ _ | .recall _ _ | .recallAck _ _ | .homeReleaseTransaction _ _
  | .homeAcquireTransaction _ _ | .backInvalidateSnoop _ | .pageWalk _ _ _ | .tlbInvalidate _ _ _ | .softError _ _
  | .backgroundScrub _ | .agentDeclaredDead _ | .dcdReleaseRequest _ _ _ | .hostLaunchSubmit _ _ _ | .queueBind _ _
  | .gridEligible _ | .foremanRepairMapping _ _ | .clusterPlace | .quantumSliceEnd _ | .preemption _
  | .resumption _ _ | .gridCompletion _ | .trapVector _ | .foremanResume _ _ | .foremanKillCrew _
  | .foremanEndGrid _ _ _ | .foremanWithdrawLane _ _ _ | .foremanCreateVersion _ _ _ _ _ | .fstsizeSet _ _
  | .groupTableWrite _ _ | .credContribution _ | .credResult _ _ _ _ _ | .umnorDataFlit _ _ | .umnorIdleFlit _ _
  | .umnorNegFlit _ _ | .umnorReplayTimeout _ | .umnorRetrain _ _ | .cxlPortTraining _ _ | .powerGood
  | .bootImageCheck _ | .attestationRequest _ | .powerSample _ | .clockStep _ _ _ | .thermalStop _ | .thermalResume _
  | .errorCountLog _ | .eventLogRead _ | .ethernetLinkDown _ | .unusedEncoding _ | .unfinishedInstructionFinish _ _
  | .ethernetLinkUp _ => false

/-- The D field as a destination (R75); none for an instruction that writes no register. -/
def Instr.dst : Instr → Option (BitVec 6)
  | .iadd _ d _ _ _ | .isub _ d _ _ _ | .imin _ d _ _ _ | .imax _ d _ _ _ | .nmin _ d _ _ _ | .nmax _ d _ _ _
  | .sadd _ d _ _ _ | .ssub _ d _ _ _ | .imulX _ d _ _ | .imulW _ d _ _ | .imulhX _ d _ _ | .imulhW _ d _ _
  | .nmulhX _ d _ _ | .nmulhW _ d _ _ | .imulw _ d _ _ | .nmulw _ d _ _ | .and _ d _ _ | .or _ d _ _ | .xor _ d _ _
  | .andn _ d _ _ | .orn _ d _ _ | .shlX _ d _ _ | .shlW _ d _ _ | .shrX _ d _ _ | .shrW _ d _ _ | .sarX _ d _ _
  | .sarW _ d _ _ | .rolX _ d _ _ | .rolW _ d _ _ | .popc _ d _ | .clz _ d _ | .ctz _ d _ | .brev _ d _
  | .sel _ d _ _ | .bfx _ d _ _ | .bfxs _ d _ _ | .bfi _ d _ _ | .seperm _ d _ _ | .iaddi _ d _ _ | .andi _ d _ _
  | .ori _ d _ _ | .xori _ d _ _ | .shli _ d _ _ _ | .shri _ d _ _ _ | .sari _ d _ _ _ | .roli _ d _ _ _
  | .limm _ d _ | .mskr _ d _ | .mov _ d _ | .movs _ d _ | .lperm _ d _ _ | .lxor _ d _ _ | .lup _ d _ _
  | .ldown _ d _ _ | .lbc _ d _ _ | .ballot _ d _ | .vany _ d _ | .vall _ d _ | .elect _ d | .lpfx _ d _
  | .imadX d _ _ _ | .imadW d _ _ _ | .imadw d _ _ _ | .nmadw d _ _ _ | .fadd _ d _ _ _ _ | .fsub _ d _ _ _ _
  | .fmul _ d _ _ _ _ | .fdiv _ d _ _ _ _ | .fma d _ _ _ _ | .fms d _ _ _ _ | .fnma d _ _ _ _ | .fnms d _ _ _ _
  | .fsqrt _ d _ _ _ | .frsq _ d _ _ _ | .frcp _ d _ _ _ | .fexp _ d _ _ _ | .fexp2 _ d _ _ _ | .fexpm1 _ d _ _ _
  | .flog _ d _ _ _ | .flog2 _ d _ _ _ | .flog1p _ d _ _ _ | .ferf _ d _ _ _ | .ferfc _ d _ _ _ | .fsin _ d _ _ _
  | .fcos _ d _ _ _ | .ftanh _ d _ _ _ | .frint _ d _ _ _ | .fmin _ d _ _ _ | .fmax _ d _ _ _ | .fminn _ d _ _ _
  | .fmaxn _ d _ _ _ | .fabs _ d _ _ | .fneg _ d _ _ | .fcps _ d _ _ _ | .fclass _ d _ _ | .fcvt _ d _ _ _ _
  | .fkey _ d _ _ | .rng _ d _ _ | .ld _ d _ _ _ | .ldp _ d _ _ _ | .ldacq _ d _ _ _ | .atom _ d _ _ _ _
  | .cas d _ _ _ _ | .arrive _ d _ | .fifow _ d _ _ | .fifor _ d _ | .bankcfg _ d _ | .presq _ d _ | .pub _ d _
  | .pubwait _ d _ | .mma _ d _ | .mepi _ d _ _ | .mwait _ d _ | .mqry _ d _ | .mcan _ d _ | .accrd _ d _
  | .ftab _ d _ _ | .fcall _ d _ _ | .fprobe _ d _ _ | .fret _ d _ _ | .fins _ d _ _ | .fevict _ d _ _
  | .fqry _ d _ _ | .prun _ d _ _ | .semqry _ d _ | .ovld _ d _ | .ovwait _ d _ | .ovevict _ d _ | .ovqry _ d _
  | .launch _ d _ _ | .cvpub _ d _ | .cvswitch _ d | .rdsys _ d _ => some d
  | .nop | .stall _ | .rnd _ | .ximm _ | .guard _ | .scope _ _ | .icmp _ _ _ _ _ _ _ | .icmpi _ _ _ _ _ _ _
  | .pand _ _ _ _ _ | .por _ _ _ _ _ | .pxor _ _ _ _ _ | .pandn _ _ _ _ _ | .pnot _ _ _ _ | .mskw _ _ _ _
  | .wrs _ _ _ | .wrsFstat _ _ | .bra _ _ | .call _ _ | .brx _ _ | .callx _ _ | .ret _ | .conv _ _ | .exit _
  | .fcmp _ _ _ _ _ _ _ | .st _ _ _ _ _ | .stp _ _ _ _ _ | .strel _ _ _ _ _ | .red _ _ _ _ _ _ _ | .fence _ _ _
  | .aflush _ | .clean _ _ _ | .inval _ _ _ | .pscrub _ _ | .bar _ _ | .waitb _ _ _ | .barc _ | .accz _ _ _
  | .accwr _ _ _ | .cbld _ _ | .fclr _ _ | .pbegin _ | .accept _ _ _ _ _ | .pcommit _ | .pdisc _ | .semsig _ _ _
  | .semwait _ _ _ | .ovcall _ _ | .trap _ _ | .tret | .yield _ | .sleep _ _ | .evsig _ _ _ | .evwait _ _ _
  | .wrsys _ _ _ | .wrsysOvquota _ _ | .cpy _ _ _ _ | .cpy2 _ _ _ _ | .cpyt _ _ _ _ | .cfill _ _ _ _
  | .cred _ _ _ _ _ | .csig _ _ | .cwait _ _ | .cloop _ _ | .cend | .cpub _ | .cqsetAddi _ _ _ | .cqsetAdd _ _ _
  | .cqsetLd _ _ _ | .stallExpiry _ | .sleepExpiry _ | .fairnessSwitch _ | .forcedExchange _
  | .clusterBarrierComplete _ _ | .ldpPresenceWake _ | .porterCopyComplete _ _ | .porterResume _ | .matrixChunk _ _
  | .jobEpilogue _ _ | .foremanRetryJob _ _ | .foremanRepairOperand _ _ _ | .overlayLoadComplete _ _
  | .assayerUpdate _ _ | .publicationSwap _ _ | .redDrainComplete _ | .foremanExtendSpill _ _ _
  | .foremanGrowCarveout _ _ _ | .taggedRequest _ _ | .taggedAck _ _ _ | .replayIntervalExpiry _ _ | .join _ _
  | .upg _ _ | .purge _ _ | .purged _ _ | .leave _ _ | .setprev _ _ _ | .setnext _ _ _ | .fetch _ _ _ | .recall _ _
  | .recallAck _ _ | .homeReleaseTransaction _ _ | .homeAcquireTransaction _ _ | .backInvalidateSnoop _
  | .pageWalk _ _ _ | .tlbInvalidate _ _ _ | .softError _ _ | .backgroundScrub _ | .agentDeclaredDead _
  | .dcdReleaseRequest _ _ _ | .hostLaunchSubmit _ _ _ | .queueBind _ _ | .gridEligible _ | .foremanRepairMapping _ _
  | .clusterPlace | .quantumSliceEnd _ | .preemption _ | .resumption _ _ | .gridCompletion _ | .trapVector _
  | .foremanResume _ _ | .foremanKillCrew _ | .foremanEndGrid _ _ _ | .foremanWithdrawLane _ _ _
  | .foremanCreateVersion _ _ _ _ _ | .fstsizeSet _ _ | .groupTableWrite _ _ | .credContribution _
  | .credResult _ _ _ _ _ | .umnorDataFlit _ _ | .umnorIdleFlit _ _ | .umnorNegFlit _ _ | .umnorReplayTimeout _
  | .umnorRetrain _ _ | .cxlPortTraining _ _ | .powerGood | .bootImageCheck _ | .attestationRequest _
  | .powerSample _ | .clockStep _ _ _ | .thermalStop _ | .thermalResume _ | .errorCountLog _ | .eventLogRead _
  | .ethernetLinkDown _ | .unusedEncoding _ | .unfinishedInstructionFinish _ _ | .ethernetLinkUp _ => none

/-- A destination code of 49 to 63 (R75). -/
def Instr.badDst (i : Instr) : Bool :=
  match i.dst with
  | some d => d ≥ 49
  | none => false

/-- The word's instruction, with the refusals of R86: an unlisted code is ILLEGAL, and a word that keeps a nonzero reserved bit
is RESBITS unless a code field it reads is ILLEGAL, which R87 checks first. -/
def decodeWord (w : Code) : Except Reject Instr :=
  match decodeLoose w with
  | none => .error .illegal
  | some i =>
    if encode i = [w] then .ok i
    else if i.illegal then .error .illegal
    else .error .resbits

/-- One word read from the front of any bytes, little-endian (R5, R72), with the bytes that follow it. -/
def decode : List Byte → Except Reject (Instr × List Byte)
  | b0 :: b1 :: b2 :: b3 :: rest =>
    match decodeWord (b3 ++ b2 ++ b1 ++ b0) with
    | .ok i => .ok (i, rest)
    | .error e => .error e
  | _ => .error .short

/-- The little-endian bytes of a word (R5). -/
def wordBytes (w : Code) : List Byte :=
  [w.extractLsb' 0 8, w.extractLsb' 8 8, w.extractLsb' 16 8, w.extractLsb' 24 8]

/-- The instruction that the decoder reads from an instruction whose bits are `w`, numbered as the opcode table numbers them.
Every instruction of this machine is one word of 32 bits. -/
def decodeTableWord (nbits w : Nat) : Option Instr :=
  match decode (wordBytes (BitVec.ofNat 32 (w % 2 ^ nbits))) with
  | .ok (i, _) => some i
  | .error _ => none

/-- The guard field of an instruction that has one. SEL's field G selects and does not guard (R142). A Q-form word takes its
guard from a GUARD hint (R73). -/
def Instr.guardField : Instr → Option (BitVec 3)
  | .iadd g _ _ _ _ | .isub g _ _ _ _ | .imin g _ _ _ _ | .imax g _ _ _ _ | .nmin g _ _ _ _ | .nmax g _ _ _ _
  | .sadd g _ _ _ _ | .ssub g _ _ _ _ | .imulX g _ _ _ | .imulW g _ _ _ | .imulhX g _ _ _ | .imulhW g _ _ _
  | .nmulhX g _ _ _ | .nmulhW g _ _ _ | .imulw g _ _ _ | .nmulw g _ _ _ | .and g _ _ _ | .or g _ _ _ | .xor g _ _ _
  | .andn g _ _ _ | .orn g _ _ _ | .shlX g _ _ _ | .shlW g _ _ _ | .shrX g _ _ _ | .shrW g _ _ _ | .sarX g _ _ _
  | .sarW g _ _ _ | .rolX g _ _ _ | .rolW g _ _ _ | .popc g _ _ | .clz g _ _ | .ctz g _ _ | .brev g _ _
  | .bfx g _ _ _ | .bfxs g _ _ _ | .bfi g _ _ _ | .seperm g _ _ _ | .iaddi g _ _ _ | .andi g _ _ _ | .ori g _ _ _
  | .xori g _ _ _ | .shli g _ _ _ _ | .shri g _ _ _ _ | .sari g _ _ _ _ | .roli g _ _ _ _ | .limm g _ _
  | .icmp g _ _ _ _ _ _ | .icmpi g _ _ _ _ _ _ | .pand g _ _ _ _ | .por g _ _ _ _ | .pxor g _ _ _ _
  | .pandn g _ _ _ _ | .pnot g _ _ _ | .mskr g _ _ | .mskw g _ _ _ | .mov g _ _ | .movs g _ _ | .wrs g _ _
  | .wrsFstat g _ | .lperm g _ _ _ | .lxor g _ _ _ | .lup g _ _ _ | .ldown g _ _ _ | .lbc g _ _ _ | .ballot g _ _
  | .vany g _ _ | .vall g _ _ | .elect g _ | .lpfx g _ _ | .bra g _ | .call g _ | .brx g _ | .callx g _ | .ret g
  | .conv g _ | .exit g | .fadd g _ _ _ _ _ | .fsub g _ _ _ _ _ | .fmul g _ _ _ _ _ | .fdiv g _ _ _ _ _
  | .fsqrt g _ _ _ _ | .frsq g _ _ _ _ | .frcp g _ _ _ _ | .fexp g _ _ _ _ | .fexp2 g _ _ _ _ | .fexpm1 g _ _ _ _
  | .flog g _ _ _ _ | .flog2 g _ _ _ _ | .flog1p g _ _ _ _ | .ferf g _ _ _ _ | .ferfc g _ _ _ _ | .fsin g _ _ _ _
  | .fcos g _ _ _ _ | .ftanh g _ _ _ _ | .frint g _ _ _ _ | .fmin g _ _ _ _ | .fmax g _ _ _ _ | .fminn g _ _ _ _
  | .fmaxn g _ _ _ _ | .fabs g _ _ _ | .fneg g _ _ _ | .fcps g _ _ _ _ | .fclass g _ _ _ | .fcmp g _ _ _ _ _ _
  | .fcvt g _ _ _ _ _ | .fkey g _ _ _ | .rng g _ _ _ | .ld g _ _ _ _ | .st g _ _ _ _ | .ldp g _ _ _ _
  | .stp g _ _ _ _ | .ldacq g _ _ _ _ | .strel g _ _ _ _ | .atom g _ _ _ _ _ | .red g _ _ _ _ _ _ | .fence g _ _
  | .aflush g | .clean g _ _ | .inval g _ _ | .pscrub g _ | .bar g _ | .arrive g _ _ | .waitb g _ _ | .barc g
  | .fifow g _ _ _ | .fifor g _ _ | .bankcfg g _ _ | .presq g _ _ | .pub g _ _ | .pubwait g _ _ | .mma g _ _
  | .mepi g _ _ _ | .mwait g _ _ | .mqry g _ _ | .mcan g _ _ | .accz g _ _ | .accrd g _ _ | .accwr g _ _ | .cbld g _
  | .ftab g _ _ _ | .fcall g _ _ _ | .fprobe g _ _ _ | .fret g _ _ _ | .fins g _ _ _ | .fevict g _ _ _ | .fclr g _
  | .fqry g _ _ _ | .pbegin g | .accept g _ _ _ _ | .pcommit g | .pdisc g | .prun g _ _ _ | .semsig g _ _
  | .semwait g _ _ | .semqry g _ _ | .ovld g _ _ | .ovwait g _ _ | .ovcall g _ | .ovevict g _ _ | .ovqry g _ _
  | .trap g _ | .yield g | .sleep g _ | .launch g _ _ _ | .evsig g _ _ | .evwait g _ _ | .cvpub g _ _ | .cvswitch g _
  | .rdsys g _ _ | .wrsys g _ _ | .wrsysOvquota g _ => some g
  | .nop | .stall _ | .rnd _ | .ximm _ | .guard _ | .scope _ _ | .sel _ _ _ _ | .imadX _ _ _ _ | .imadW _ _ _ _
  | .imadw _ _ _ _ | .nmadw _ _ _ _ | .fma _ _ _ _ _ | .fms _ _ _ _ _ | .fnma _ _ _ _ _ | .fnms _ _ _ _ _
  | .cas _ _ _ _ _ | .tret | .cpy _ _ _ _ | .cpy2 _ _ _ _ | .cpyt _ _ _ _ | .cfill _ _ _ _ | .cred _ _ _ _ _
  | .csig _ _ | .cwait _ _ | .cloop _ _ | .cend | .cpub _ | .cqsetAddi _ _ _ | .cqsetAdd _ _ _ | .cqsetLd _ _ _
  | .stallExpiry _ | .sleepExpiry _ | .fairnessSwitch _ | .forcedExchange _ | .clusterBarrierComplete _ _
  | .ldpPresenceWake _ | .porterCopyComplete _ _ | .porterResume _ | .matrixChunk _ _ | .jobEpilogue _ _
  | .foremanRetryJob _ _ | .foremanRepairOperand _ _ _ | .overlayLoadComplete _ _ | .assayerUpdate _ _
  | .publicationSwap _ _ | .redDrainComplete _ | .foremanExtendSpill _ _ _ | .foremanGrowCarveout _ _ _
  | .taggedRequest _ _ | .taggedAck _ _ _ | .replayIntervalExpiry _ _ | .join _ _ | .upg _ _ | .purge _ _
  | .purged _ _ | .leave _ _ | .setprev _ _ _ | .setnext _ _ _ | .fetch _ _ _ | .recall _ _ | .recallAck _ _
  | .homeReleaseTransaction _ _ | .homeAcquireTransaction _ _ | .backInvalidateSnoop _ | .pageWalk _ _ _
  | .tlbInvalidate _ _ _ | .softError _ _ | .backgroundScrub _ | .agentDeclaredDead _ | .dcdReleaseRequest _ _ _
  | .hostLaunchSubmit _ _ _ | .queueBind _ _ | .gridEligible _ | .foremanRepairMapping _ _ | .clusterPlace
  | .quantumSliceEnd _ | .preemption _ | .resumption _ _ | .gridCompletion _ | .trapVector _ | .foremanResume _ _
  | .foremanKillCrew _ | .foremanEndGrid _ _ _ | .foremanWithdrawLane _ _ _ | .foremanCreateVersion _ _ _ _ _
  | .fstsizeSet _ _ | .groupTableWrite _ _ | .credContribution _ | .credResult _ _ _ _ _ | .umnorDataFlit _ _
  | .umnorIdleFlit _ _ | .umnorNegFlit _ _ | .umnorReplayTimeout _ | .umnorRetrain _ _ | .cxlPortTraining _ _
  | .powerGood | .bootImageCheck _ | .attestationRequest _ | .powerSample _ | .clockStep _ _ _ | .thermalStop _
  | .thermalResume _ | .errorCountLog _ | .eventLogRead _ | .ethernetLinkDown _ | .unusedEncoding _
  | .unfinishedInstructionFinish _ _ | .ethernetLinkUp _ => none

/-- The source fields that hold a source code of R74, in the order D (when read), A, B, C. -/
def Instr.srcs : Instr → List (BitVec 6)
  | .iadd _ _ a b _ | .isub _ _ a b _ | .imin _ _ a b _ | .imax _ _ a b _ | .nmin _ _ a b _ | .nmax _ _ a b _
  | .sadd _ _ a b _ | .ssub _ _ a b _ | .imulX _ _ a b | .imulW _ _ a b | .imulhX _ _ a b | .imulhW _ _ a b
  | .nmulhX _ _ a b | .nmulhW _ _ a b | .imulw _ _ a b | .nmulw _ _ a b | .and _ _ a b | .or _ _ a b | .xor _ _ a b
  | .andn _ _ a b | .orn _ _ a b | .shlX _ _ a b | .shlW _ _ a b | .shrX _ _ a b | .shrW _ _ a b | .sarX _ _ a b
  | .sarW _ _ a b | .rolX _ _ a b | .rolW _ _ a b | .sel _ _ a b | .bfx _ _ a b | .bfxs _ _ a b | .bfi _ _ a b
  | .seperm _ _ a b | .icmp _ _ _ a b _ _ | .lperm _ _ a b | .lxor _ _ a b | .lup _ _ a b | .ldown _ _ a b
  | .lbc _ _ a b | .fadd _ _ a b _ _ | .fsub _ _ a b _ _ | .fmul _ _ a b _ _ | .fdiv _ _ a b _ _ | .fmin _ _ a b _
  | .fmax _ _ a b _ | .fminn _ _ a b _ | .fmaxn _ _ a b _ | .fcps _ _ a b _ | .fcmp _ _ _ a b _ _ | .rng _ _ a b
  | .atom _ _ a b _ _ | .red _ _ _ a b _ _ | .mepi _ _ a b | .accz _ a b | .accwr _ a b | .accept _ _ _ a b
  | .prun _ _ a b | .launch _ _ a b | .evsig _ a b | .evwait _ a b => [a, b]
  | .popc _ _ a | .clz _ _ a | .ctz _ _ a | .brev _ _ a | .iaddi _ _ a _ | .andi _ _ a _ | .ori _ _ a _
  | .xori _ _ a _ | .shli _ _ a _ _ | .shri _ _ a _ _ | .sari _ _ a _ _ | .roli _ _ a _ _ | .icmpi _ _ _ a _ _ _
  | .mskw _ _ _ a | .mov _ _ a | .wrs _ a _ | .wrsFstat _ a | .ballot _ _ a | .vany _ _ a | .vall _ _ a | .lpfx _ _ a
  | .brx _ a | .callx _ a | .conv _ a | .fsqrt _ _ a _ _ | .frsq _ _ a _ _ | .frcp _ _ a _ _ | .fexp _ _ a _ _
  | .fexp2 _ _ a _ _ | .fexpm1 _ _ a _ _ | .flog _ _ a _ _ | .flog2 _ _ a _ _ | .flog1p _ _ a _ _ | .ferf _ _ a _ _
  | .ferfc _ _ a _ _ | .fsin _ _ a _ _ | .fcos _ _ a _ _ | .ftanh _ _ a _ _ | .frint _ _ a _ _ | .fabs _ _ a _
  | .fneg _ _ a _ | .fclass _ _ a _ | .fcvt _ _ a _ _ _ | .fkey _ _ a _ | .ld _ _ a _ _ | .ldp _ _ a _ _
  | .ldacq _ _ a _ _ | .clean _ a _ | .inval _ a _ | .pscrub _ a | .waitb _ a _ | .fifow _ _ a _ | .bankcfg _ _ a
  | .presq _ _ a | .pub _ _ a | .pubwait _ _ a | .mma _ _ a | .mwait _ _ a | .mqry _ _ a | .mcan _ _ a | .accrd _ _ a
  | .cbld _ a | .ftab _ _ a _ | .fcall _ _ a _ | .fprobe _ _ a _ | .fret _ _ a _ | .fins _ _ a _ | .fevict _ _ a _
  | .fqry _ _ a _ | .semsig _ a _ | .semwait _ a _ | .ovld _ _ a | .ovwait _ _ a | .ovcall _ a | .ovevict _ _ a
  | .ovqry _ _ a | .sleep _ a | .cvpub _ _ a | .wrsys _ a _ | .wrsysOvquota _ a => [a]
  | .imadX _ a b c | .imadW _ a b c | .imadw _ a b c | .nmadw _ a b c | .fma _ a b c _ | .fms _ a b c _
  | .fnma _ a b c _ | .fnms _ a b c _ | .cas _ a b c _ => [a, b, c]
  | .st _ d a _ s | .stp _ d a _ s => storeSources s d a
  | .strel _ d a _ _ => [d, a]
  | .nop | .stall _ | .rnd _ | .ximm _ | .guard _ | .scope _ _ | .limm _ _ _ | .pand _ _ _ _ _ | .por _ _ _ _ _
  | .pxor _ _ _ _ _ | .pandn _ _ _ _ _ | .pnot _ _ _ _ | .mskr _ _ _ | .movs _ _ _ | .elect _ _ | .bra _ _
  | .call _ _ | .ret _ | .exit _ | .fence _ _ _ | .aflush _ | .bar _ _ | .arrive _ _ _ | .barc _ | .fifor _ _ _
  | .fclr _ _ | .pbegin _ | .pcommit _ | .pdisc _ | .semqry _ _ _ | .trap _ _ | .tret | .yield _ | .cvswitch _ _
  | .rdsys _ _ _ | .cpy _ _ _ _ | .cpy2 _ _ _ _ | .cpyt _ _ _ _ | .cfill _ _ _ _ | .cred _ _ _ _ _ | .csig _ _
  | .cwait _ _ | .cloop _ _ | .cend | .cpub _ | .cqsetAddi _ _ _ | .cqsetAdd _ _ _ | .cqsetLd _ _ _ | .stallExpiry _
  | .sleepExpiry _ | .fairnessSwitch _ | .forcedExchange _ | .clusterBarrierComplete _ _ | .ldpPresenceWake _
  | .porterCopyComplete _ _ | .porterResume _ | .matrixChunk _ _ | .jobEpilogue _ _ | .foremanRetryJob _ _
  | .foremanRepairOperand _ _ _ | .overlayLoadComplete _ _ | .assayerUpdate _ _ | .publicationSwap _ _
  | .redDrainComplete _ | .foremanExtendSpill _ _ _ | .foremanGrowCarveout _ _ _ | .taggedRequest _ _
  | .taggedAck _ _ _ | .replayIntervalExpiry _ _ | .join _ _ | .upg _ _ | .purge _ _ | .purged _ _ | .leave _ _
  | .setprev _ _ _ | .setnext _ _ _ | .fetch _ _ _ | .recall _ _ | .recallAck _ _ | .homeReleaseTransaction _ _
  | .homeAcquireTransaction _ _ | .backInvalidateSnoop _ | .pageWalk _ _ _ | .tlbInvalidate _ _ _ | .softError _ _
  | .backgroundScrub _ | .agentDeclaredDead _ | .dcdReleaseRequest _ _ _ | .hostLaunchSubmit _ _ _ | .queueBind _ _
  | .gridEligible _ | .foremanRepairMapping _ _ | .clusterPlace | .quantumSliceEnd _ | .preemption _
  | .resumption _ _ | .gridCompletion _ | .trapVector _ | .foremanResume _ _ | .foremanKillCrew _
  | .foremanEndGrid _ _ _ | .foremanWithdrawLane _ _ _ | .foremanCreateVersion _ _ _ _ _ | .fstsizeSet _ _
  | .groupTableWrite _ _ | .credContribution _ | .credResult _ _ _ _ _ | .umnorDataFlit _ _ | .umnorIdleFlit _ _
  | .umnorNegFlit _ _ | .umnorReplayTimeout _ | .umnorRetrain _ _ | .cxlPortTraining _ _ | .powerGood
  | .bootImageCheck _ | .attestationRequest _ | .powerSample _ | .clockStep _ _ _ | .thermalStop _ | .thermalResume _
  | .errorCountLog _ | .eventLogRead _ | .ethernetLinkDown _ | .unusedEncoding _ | .unfinishedInstructionFinish _ _
  | .ethernetLinkUp _ => []

/-- The instruction writes the pair D, D + 1 (R19, R182, R177). -/
def Instr.writesPair : Instr → Bool
  | .ld _ _ _ _ s | .ldp _ _ _ _ s => s == 7
  | .rng _ _ _ _ => true
  | _ => false

/-- The register numbers that an instruction names, as R76 checks them against HDR.REGS. -/
def Instr.regNumbers (i : Instr) : List Nat :=
  let ds := match i.dst with
    | some d => if d ≥ 48 then [] else if i.writesPair then [d.toNat, d.toNat + 1] else [d.toNat]
    | none => []
  ds ++ (i.srcs.filter (· < 48)).map BitVec.toNat

/-- SUPER-only at decode (R15, R87). -/
def Instr.superOnly : Instr → Bool
  | .rdsys _ _ _ | .wrsys _ _ _ | .wrsysOvquota _ _ | .pscrub _ _ => true
  | _ => false

/-- The kinds of hint that a target accepts (R84). -/
def Instr.acceptsRnd : Instr → Bool
  | .fma _ _ _ _ _ | .fms _ _ _ _ _ | .fnma _ _ _ _ _ | .fnms _ _ _ _ _ => true
  | _ => false

/-- The targets of an XIMM hint (R82, R84). -/
def Instr.acceptsXimm : Instr → Bool
  | .iaddi _ _ _ _ | .andi _ _ _ _ | .ori _ _ _ _ | .xori _ _ _ _ | .limm _ _ _ | .icmpi _ _ _ _ _ _ _ => true
  | _ => false

/-- The targets of a GUARD hint: the Q-form instructions (R84). -/
def Instr.acceptsGuard : Instr → Bool
  | .imadX _ _ _ _ | .imadW _ _ _ _ | .imadw _ _ _ _ | .nmadw _ _ _ _ | .fma _ _ _ _ _ | .fms _ _ _ _ _ | .fnma _ _ _ _ _
  | .fnms _ _ _ _ _ | .cas _ _ _ _ _ => true
  | _ => false

/-- The targets of a SCOPE hint (R84). -/
def Instr.acceptsScope : Instr → Bool
  | .atom _ _ _ _ _ _ | .cas _ _ _ _ _ => true
  | _ => false

/-- The exchange triggers of R25, which invalidate the latches at every issue. -/
def Instr.exchanges : Instr → Bool
  | .ld _ _ _ _ _ | .ldp _ _ _ _ _ | .ldacq _ _ _ _ _ | .atom _ _ _ _ _ _ | .cas _ _ _ _ _ | .fifor _ _ _ | .bar _ _
  | .waitb _ _ _ | .barc _ | .conv _ _ | .semwait _ _ _ | .evwait _ _ _ | .mwait _ _ _ | .ovwait _ _ _ | .pubwait _ _ _
  | .yield _ | .sleep _ _ => true
  | _ => false

end Sys2Proof
end

