-- ==== Sys2Proof/Config.lean ====
section
/-!
DEFINITION. What an implementation or a board fixes and the manual leaves open. The constants without a body are free: nothing
in Lean can evaluate them, so a claim about the machine holds for every value of them.
-/
namespace Sys2Proof.Config

/-- Free (log 3): whether a copied byte of overlapping ranges reads the source before or after the copy's other writes
(R259: "Overlapping ranges are copied in no defined order"). Arguments: the free-value counter and the byte's index. -/
opaque copyLate : Nat → Nat → Bool

/-- Free (log 4): the value a program reads from its ordered-reduction spill area (R303: "unspecified values"). -/
opaque spillByte : Nat → Byte

/-- Free (log 6): whether the 128 bytes of a line compress losslessly into 64 (R286 names no method). -/
opaque compresses : BitVec 1024 → Bool

/-- Free (log 80): the set of a slice that a line lies in, of the given number of sets, modulo that number (R282 names the sets and not
how a line finds its own). -/
opaque l2Set : Nat → Nat → Nat

/-- Free (log 5): the Vellys public key of R350, as the two coordinates of a P-384 point. -/
opaque vellysKey : Nat × Nat

/-- Free (log 5): the signature Foreman returns for a digest and a host nonce (R350), as 96 bytes. -/
opaque attest : List Byte → Word → List Byte

/-- Free (log 5): the module's serial number, carried in NEG records (R345). -/
opaque serial : Word

/-- Free (log 104): whether a sharer of a memory device that is declared dead held a line modified (R306). Arguments: the line and the free-value
counter. -/
opaque lentModified : Nat → Nat → Bool

/-- Free (log 105): what a temperature, voltage or process monitor reads (R277, R351). Argument: the free-value counter. -/
opaque monitor : Nat → BitVec 16

/-- Free (log 15): the elements that a described block covers whose FMT names no element format (R104 gives such a block no count).
Argument: the FMT byte. -/
opaque blockSpan : Nat → Nat

/-- Free (log 16): the FP32 code of an element read from a DB operand through a window map, which R217 does not define. Argument: the
address that its formula gives. -/
opaque windowBlock : Word → Nat

/-- Free (log 19): the die at which a cluster of a FREE or QUANTUM grid begins to look for room ("any die with room", R314), modulo 8.
Argument: the free-value counter. -/
opaque dieChoice : Nat → Nat

/-- A window of the signed configuration, in the fields of R285. -/
structure SignedWindow where
  type : BitVec 2
  gran : Nat
  ways : Nat
  ports : BitVec 16
  base : Nat
  size : Nat
  tagbase : Nat
  devaddr : Nat
deriving DecidableEq, Repr, Inhabited

/-- What the signed configuration of a boot image sets (R349): windows by index; FSTSIZE by die; group
entries; queue bindings; slot quotas by core and ASID; REPLAY by die; budgets of power blocks in milliwatts; CXL ports with IDE on. -/
structure Signed where
  windows : List (Nat × SignedWindow)
  fstsize : List (Nat × Nat)
  groups : List (Nat × Word)
  queues : List (Nat × BitVec 12)
  quotas : List (Nat × BitVec 12 × Nat)
  replay : List (Nat × BitVec 32)
  budgets : List (Nat × Nat)
  ide : List Nat
deriving DecidableEq, Repr, Inhabited

/-- Free (log 100): does the root know of a member of a group behind a port? The group table names no member's port (R346). -/
opaque memberBehind : Nat → Nat → Bool

/-- Free (log 23): the signed configuration that the body of a boot image holds; the manual gives the body no layout (R349, R350). -/
opaque signed : List Byte → Signed

end Sys2Proof.Config
end

