-- ==== Sys2Proof/Machine/Store.lean ====
section
/-!
DEFINITION. Sparse maps from numbers to records, kept as lists in rising order of key. A key that is not listed stands for the
record as it is at reset, which the reader supplies.
-/
namespace Sys2Proof.Machine

/-- A sparse map: (key, record) pairs, keys rising. -/
abbrev Store (α : Type) := List (Nat × α)

/-- The record of a key, when it is listed. -/
def Store.get? : Store α → Nat → Option α
  | [], _ => none
  | (k, x) :: rest, n => if k = n then some x else Store.get? rest n

/-- The record of a key, or `d` when it is not listed. -/
def Store.getD (m : Store α) (n : Nat) (d : α) : α := (m.get? n).getD d

/-- Write a record at its key's place. -/
def Store.set : Store α → Nat → α → Store α
  | [], n, x => [(n, x)]
  | (k, y) :: rest, n, x =>
    if k = n then (n, x) :: rest
    else if n < k then (n, x) :: (k, y) :: rest
    else (k, y) :: Store.set rest n x

/-- Remove a key. -/
def Store.erase (m : Store α) (n : Nat) : Store α := m.filter fun p => p.1 != n

/-- The listed records. -/
def Store.values (m : Store α) : List α := m.map Prod.snd

/-- Change every listed record. -/
def Store.mapAll (m : Store α) (f : Nat → α → α) : Store α := m.map fun p => (p.1, f p.1 p.2)

/-- Insert a number into a rising list without repeats. -/
def insertNat (n : Nat) : List Nat → List Nat
  | [] => [n]
  | k :: rest => if n = k then k :: rest else if n < k then n :: k :: rest else k :: insertNat n rest

end Sys2Proof.Machine
end

