-- ==== Sys2Proof/Machine/State.lean ====
section
/-!
DEFINITION. The state of a Linmond-8 module: everything the manual gives the machine, as plain data, and the machine right
after reset. Numbered units are named by plain numbers: a core is die × 32 + core (0 to 255), a crew is gang × 256 + crew
index, a memory line is its physical address divided by 128. A unit that a sparse map does not list is as it is at reset.
-/
namespace Sys2Proof.Machine

/-! ## Registers of a crew -/

/-- A shape tag (R17). Base and stride of an affine register are those of its lane values. -/
inductive Tag where
  /-- U: every lane holds one value. -/
  | u
  /-- A: lane i holds base + i × s, with a signed 32-bit stride s ≠ 0. -/
  | a
  /-- G: 32 independent values. -/
  | g
deriving DecidableEq, Repr

/-- One of B0 to B3 (R23). -/
structure Latch where
  valid : Bool
  val : Lanes Word
  tag : Tag
deriving DecidableEq, Repr

/-- A pending hint run and the lanes that hold it (R84, R85). -/
structure HintRun where
  lanes : Mask
  start : Pc
  rnd : Option (BitVec 3)
  ximm : List (BitVec 22)
  guard : Option (BitVec 3)
  scope : Option (BitVec 3 × BitVec 2)
deriving DecidableEq, Repr

/-- A replay entry: an instruction whose lanes complete separately, with its captured operands (R328, R329). `frag` holds the
lanes of the fragment that issued it, `cards` the job cards that the lanes of an MMA or MEPI have read as it issued (R221), `book` the codebook
as it stood then (R101), and `lost` the lanes whose request has been lost with its home (R305). -/
structure Entry where
  frag : Mask
  ipc : Pc
  word : Code
  imm : Word
  take : Mask
  done : Mask
  ord : BitVec 2
  scope : BitVec 3
  rm : BitVec 3
  op0 : Lanes Word
  op1 : Lanes Word
  op2 : Lanes Word
  cards : List (Nat × List Byte)
  book : Option (List Byte)
  lost : Mask
deriving DecidableEq, Repr

/-- What a fragment that trapped reports (R88, R327): everything its frame holds that is not read from the crew. -/
structure TrapInfo where
  cause : BitVec 8
  swn : BitVec 6
  frag : Mask
  failing : Mask
  faddr : Lanes Word
  exc : Lanes (BitVec 5)
  pc : Pc
  tent : Option Nat
  entries : List Entry
  foreman : Bool
deriving DecidableEq, Repr

/-- What a PUBWAIT or MWAIT that waits has read: its destination with the tag of its result, the tokens of its taking lanes, and the latches
as it found them, which a trap or a save of the waiting instruction keeps (R26, R208, R224). -/
structure TokenWait where
  d : BitVec 6
  tag : Tag
  take : Mask
  toks : Lanes Word
  latches : Vector Latch 4
deriving DecidableEq, Repr

/-- The event a parked thread waits for (R13, R319). -/
inductive Park where
  /-- SLEEP: until the device's time reaches this (R277). -/
  | asleep (wake : Nat)
  /-- BAR: until the barrier's count passes the generation the thread arrived in (R199). -/
  | barrier (id : Nat) (gen : BitVec 32)
  /-- A second arrival before the generation completes; the instruction issues again then (R199). -/
  | again (id : Nat) (gen : BitVec 32)
  /-- BARC (R201). -/
  | cluster (gen : BitVec 32)
  /-- A second arrival at the cluster barrier (R201). -/
  | clusterAgain (gen : BitVec 32)
  /-- WAITB: until the barrier's count exceeds the named one (R199). -/
  | generation (id : Nat) (g : BitVec 32)
  /-- LDP: until every named scratchpad line is present (R184). -/
  | presence (lines : List Nat)
  /-- FIFOR: until its request is filled (R204). -/
  | fifo (ticket : Nat)
  /-- SEMWAIT: until its turn and its count come (R263). -/
  | semaphore (ticket : Nat)
  /-- EVWAIT: until the counters at these addresses reach these values (R279). -/
  | counters (waits : List (Word × Word))
  /-- MWAIT, at its address: until every named job has ended or is held (R224). -/
  | jobs (w : TokenWait)
  /-- PUBWAIT, at its address: until every named publication completes (R208). -/
  | publications (w : TokenWait)
  /-- RET, a miss or a handler's start: until the overlay at this code offset is resident (R157, R271). -/
  | overlay (offset : Nat)
  /-- OVCALL, after its push and at its target: as `overlay` (R272). -/
  | called (offset : Nat)
  /-- OVWAIT: as `overlay`, and these lanes then receive status 0 in D (R271). -/
  | ovwait (offset : Nat) (d : BitVec 6) (lanes : Mask)
  /-- A tagged request waits for a free place at its slice (R192). -/
  | tags (slice : Nat)
  /-- MMA or MEPI: until the engine has a free place; the crew stalls in the active set (R221). -/
  | engine
  /-- AFLUSH: until its flush point has drained; the crew stalls in the active set (R196). -/
  | draining (batch : Nat)
  /-- ACCZ, at its address: until the jobs issued before it, by core and number, have finished with the `n` bytes at an offset (R229). -/
  | zeroing (off n : Nat) (jobs : List (Nat × BitVec 32))
  /-- ACCWR: until the jobs issued before it have finished with the bytes at its offsets (R229). -/
  | accumulator (offs : List Nat) (jobs : List (Nat × BitVec 32))
  /-- CBLD: until the VQ2 jobs issued before it, by gang and number, have finished with the codebook (R230). -/
  | codebook (jobs : List (Nat × BitVec 32))
  /-- Parked for Foreman, with its frame in this slot (R325). -/
  | foreman (slot : Nat)
  /-- A trap that waits for a frame slot (R324). -/
  | slotWait (t : TrapInfo)
deriving DecidableEq, Repr

/-- The state of a thread (R13). -/
inductive Status where
  /-- Eligible to join a fragment and issue. -/
  | live
  /-- Waiting on a long event. -/
  | parked (why : Park)
  /-- Arrived at the CONV at the thread's pc, with this mask (R159). -/
  | waiting (mask : Mask)
  /-- Arrived at the TRET at the thread's pc, with FMASK of its frame (R331). -/
  | returning (mask : Mask)
  /-- Finished. -/
  | exited
deriving DecidableEq, Repr

/-- What a thread owns besides its lane of the crew's registers (R12). -/
structure Thread where
  pc : Pc
  sup : Bool
  st : Status
  /-- Resident return entries, oldest first (R30, R31). -/
  rstk : List Word
  rsdep : Nat
  fstat : Word
  pacc : BitVec 32
  ptot : BitVec 32
  pmode : Bool
  wm : BitVec 8
  tlsb : Word
  /-- The frame slot of the trap being handled; none in a lane that holds no frame (R331). -/
  held : Option Nat
  /-- The location of a request of the lane that was lost with its home: POISON is raised when the lane is next live (R305). -/
  lost : Option Word
  /-- CONV addresses whose wait a handler or Foreman made the lane leave: it counts as exited there until it next arrives (R333). -/
  left : List Pc
deriving DecidableEq, Repr

/-- A frame slot in use (R324): its cause, whether Foreman handles it, and the trap whose frame it holds. A field of the frame that R332
does not name counts as the trap left it, whatever a handler writes there. `resume`: Foreman has asked that its fragment go on, which waits
until the crew has room for the frame's replay entries (R329). -/
structure SlotUse where
  cause : BitVec 8
  foreman : Bool
  resume : Bool
  trap : TrapInfo
deriving DecidableEq, Repr

/-- The lanes of a slot's fragment. -/
abbrev SlotUse.frag (u : SlotUse) : Mask := u.trap.frag

/-- The kernel header (R69) and its place. -/
structure Header where
  koff : Nat
  prop : Bool
  regs : Nat
  ovls : Nat
  bars : Nat
  fifo : Nat
  scr : Nat
  acc : Nat
  scratch : Nat
  entry : Pc
  porterLen : Nat
  porter : Nat
  /-- The overlay directory (R70): (OFFSET, SLOTS). -/
  dir : List (Nat × Nat)
deriving DecidableEq, Repr

/-- A crew (R12, R13) with what its core's scheduler keeps of it (R152, R319 to R321). -/
structure Crew where
  core : Nat
  /-- The crew's place on its core (R320). -/
  place : Nat
  thr : Lanes Thread
  regs : Vector (Lanes Word) 48
  tags : Vector Tag 48
  shadow : Vector (Lanes Word) 8
  stags : Vector Tag 8
  preds : Vector Mask 8
  latches : Vector Latch 4
  /-- The latches as the previous issue found them. -/
  found : Vector Latch 4
  cver : BitVec 16
  /-- The kernel header of the image that CVSWITCH moved the crew to; none: its gang's (R276). -/
  hdr : Option Header
  /-- Switched to its version by CVSWITCH, which BINDS counts (R275). -/
  switched : Bool
  run : Option HintRun
  /-- Lanes of the previous issue, against which R25 tests the next one. -/
  last : Option Mask
  /-- Lanes that a TRET let continue, at one NPC, when the restored latches may still be read (R25). -/
  restored : Option Mask
  /-- Consecutive issues by one set of threads while another fragment exists, and that set (R152). -/
  same : Nat
  sameSet : Mask
  /-- The crew's issue count; per lane, the fragment that the lane was last seen in, and the count since which that fragment has existed
  without issuing (R152). -/
  issues : Nat
  seen : Lanes Mask
  ages : Lanes Nat
  /-- The fairness condition has named this fragment (R152). -/
  force : Option Mask
  slots : Vector (Option SlotUse) 4
  /-- Unfinished memory instructions, oldest first, at most 8 (R329). -/
  infl : List Entry
  barm : Vector Mask 16
  barcm : Mask
  /-- Pins by return entries (R268): per overlay number for the crew, and at (lane + 1) × 1024 + number per lane. -/
  pins : Store Nat
  /-- Overlay a lane reached sequentially, for the rule of R156. -/
  seqOvl : Lanes (Option Nat)
  /-- Device time at which a STALL count runs out (R91). -/
  stall : Nat
  active : Bool
  readySince : Nat
  activeSince : Nat
  redSeq : BitVec 32
deriving DecidableEq, Repr

/-! ## Matrix jobs -/

/-- The state of a matrix job (R223). -/
inductive JobState where
  | queued
  | running
  | epilogue
  | held
  | done
  | cancelled
  | faulted
deriving DecidableEq, Repr

/-- A matrix job (R221 to R232). -/
structure Job where
  gang : Nat
  seq : BitVec 32
  gcore : Nat
  /-- Device time at which it was issued (R339). -/
  stamp : Nat
  /-- Privilege of the thread that issued it. -/
  sup : Bool
  card : List Byte
  /-- A standalone epilogue of MEPI: no chunk is applied (R227). -/
  only : Bool
  st : JobState
  badblk : Nat
  batch : Nat
  wrapped : Bool
  poisoned : Bool
  /-- Index of the current batch iteration, and of the next step within it: 0 the ZERO step, then the chunks in loop order. -/
  iter : Nat
  next : Nat
  /-- Chunks whose operands did not translate: parked for Foreman (R228). -/
  stuck : Bool
  /-- Tiles stored in the current iteration, in the order of R226. -/
  stored : List Nat
  /-- Tiles attempted since the epilogue began or was retried, stored or not. -/
  tried : List Nat
  /-- The staging copy of the region, with its poisoned tiles, when the job holds the buffer (R224). -/
  staging : Option (List Byte × List Nat)
  codebook : Option (List Byte)
  fault : Option (Word × BitVec 8)
  /-- Virtual bytes that the job stores to through a shadow, as first addresses and the first past, and bases of the buffers whose shadow it
  opened (R207, R225). -/
  shadows : List (Nat × Nat)
  opened : List Word
deriving DecidableEq, Repr

/-! ## Gangs -/

/-- The mode of a bank slot (R205). -/
inductive BankMode where
  | unmapped
  | scratch
  | fifo
deriving DecidableEq, Repr

/-- A FIFOR request (R204). -/
structure FifoReq where
  ticket : Nat
  crew : Nat
  lanes : Mask
  d : BitVec 6
  sup : Bool
deriving DecidableEq, Repr

/-- A waiter on a semaphore: a crew's fragment, or the core's Porter (R263). -/
structure SemWaiter where
  ticket : Nat
  /-- none: the Porter. -/
  crew : Option Nat
  count : BitVec 32
deriving DecidableEq, Repr

/-- A publication of a shadowed buffer (R207, R208). -/
inductive PubState where
  | pending
  | published
  | noBuffer
  | discarded
deriving DecidableEq, Repr

/-- A publication by its gang (R207). -/
structure Publication where
  seq : BitVec 32
  base : Word
  st : PubState
  /-- Engine writes into the shadow that were started before it: copies (core, number), and jobs (core of its gang, gang, number). -/
  copies : List (Nat × Nat)
  jobs : List (Nat × Nat × BitVec 32)
deriving DecidableEq, Repr

/-- An outstanding clearing of a scratchpad line's presence by a copy (R183). -/
structure Absence where
  line : Nat
  core : Nat
  copy : Nat
deriving DecidableEq, Repr

/-- A saved stream that waits for its new core's Porter (R265). -/
structure Stream where
  gang : Nat
  cver : BitVec 16
  lo : Nat
  hi : Nat
  pc : Pc
  q : Vector Word 8
deriving DecidableEq, Repr

/-- A gang (R2, R12): its place, its kernel, its scratchpad, accumulator, barriers and semaphores. -/
structure Gang where
  grid : Nat
  asid : BitVec 12
  lin : Nat
  x : Nat
  y : Nat
  z : Nat
  clus : Nat
  ncrew : Nat
  ncore : Nat
  /-- First core, when the gang is resident; none while it is pre-empted. -/
  core0 : Option Nat
  hdr : Header
  /-- Scratchpad bytes, canonical: unlisted bytes read 0 (R12). -/
  scratch : List Host.Cell
  absent : List Absence
  scratchPoison : List Nat
  acc : List Host.Cell
  accPoison : List Nat
  bargen : Vector (BitVec 32) 16
  barcgen : BitVec 32
  /-- Bank modes: core index × 48 + slot (R202). -/
  banks : Store BankMode
  /-- FIFO entries, oldest first: core index × 48 + slot (R204). -/
  fifos : Store (List Word)
  /-- Places, from the oldest, of the FIFO entries that are poisoned (R304). -/
  fifoPoison : Store (List Nat)
  fifoReqs : Store (List FifoReq)
  /-- Semaphores: core index × 32 + number (R263). -/
  sems : Store (BitVec 32)
  semWaits : Store (List SemWaiter)
  pubs : List Publication
  pubSeq : BitVec 32
  /-- Job numbers given so far, per core index (R221). -/
  jobSeq : Store (BitVec 32)
  tickets : Nat
  /-- Virtual and physical address of the context region that Foreman assigned (R324). -/
  ctxVa : Nat
  ctxPa : Nat
  /-- Physical address of the save area, when the gang is saved (R335). -/
  saved : Option Nat
  /-- Matrix jobs of a gang that is saved, in issue order (R232, R339). -/
  savedJobs : List Job
  /-- ARGP stores not yet made: thread-local bases (R308). -/
  argps : List Word
  crewsFreed : List Nat
  /-- Freed, and its cores not given back yet: an earlier cluster of an ORDERED grid has not retired (R314). -/
  freed : Bool
  /-- Streams that were running when the gang was saved, by core of the gang (R265). -/
  savedStreams : List (Nat × Stream)
  /-- Overlays that must be resident before a resumed gang issues: core, version, code offset (R268, R340). -/
  needs : List (Nat × BitVec 16 × Nat)
  /-- A pre-emption has been asked for and has not taken effect (R335). -/
  leaving : Bool
  since : Nat
deriving DecidableEq, Repr

/-! ## Engines of a core -/

/-- The kinds of Porter copy (R259). -/
inductive CopyKind where
  | lin (dst src len : Nat)
  | grid (dst src rows rowb dpitch spitch : Nat)
  | tensor (dst : Nat) (map : List Byte) (origin : Word)
  | fill (dst : Nat) (pattern : Word) (len : Nat)
  | reduce (dst src : Nat) (tag : BitVec 32) (group : BitVec 8) (len : BitVec 24) (type : BitVec 3) (op : BitVec 2)
deriving DecidableEq, Repr

/-- A copy in flight, or one that stopped at a fault after `done` bytes (R258, R259). -/
structure Copy where
  id : Nat
  gang : Nat
  kind : CopyKind
  shadow : Bool
  /-- The Porter word that started it. -/
  word : Pc
  /-- Bytes completed; for a contribution, 1 once it has been sent. -/
  done : Nat
  /-- The result of a contribution that has arrived and is not written whole: its bytes, the poison of its doublewords, and the bytes of it
  that are written (R258, R261). -/
  result : Option (List Byte × List Bool × Nat)
deriving DecidableEq, Repr

/-- Why a Porter is stopped (R258). -/
structure PorterFault where
  cause : BitVec 8
  addr : Word
  bytes : Nat
deriving DecidableEq, Repr

/-- What a Porter waits for at its current word. -/
inductive PorterWait where
  | none
  | semaphore
  | copies
  | publication (seq : BitVec 32)
deriving DecidableEq, Repr

/-- A Porter (R256, R257). -/
structure Porter where
  gang : Option Nat
  cver : BitVec 16
  /-- First offset of the kernel's stream, and the first past it (R69, R258). -/
  lo : Nat
  hi : Nat
  pc : Pc
  q : Vector Word 8
  copies : List Copy
  nextCopy : Nat
  wait : PorterWait
  stopped : Option PorterFault
  resumed : List Stream
deriving DecidableEq, Repr

/-- An overlay held in, or being loaded into, instruction-store slots (R267 to R273). -/
structure Overlay where
  asid : BitVec 12
  ver : BitVec 16
  offset : Nat
  slots : Nat
  /-- Nonzero words of the copy, by code offset. -/
  code : Store Code
  resident : Bool
  /-- The load waits for room (R269). -/
  wants : Bool
  evict : Bool
  entered : Nat
  /-- The load met poison (R267). -/
  bad : Bool
deriving DecidableEq, Repr

/-- A line in an L1 (R280, R296, R297, R299). `way` orders by bank. -/
structure L1Line where
  way : Nat
  stamp : Nat
  epri : BitVec 2
  /-- CMP of the leaf through which the line was last reached (R286). -/
  cmp : Bool
  coh : BitVec 2
  data : BitVec 1024
  /-- Dirty bytes; SELFINV lines only. -/
  dirty : BitVec 128
  mark : BitVec 32
  poison : Bool
  /-- TRACKED: sole member in M. -/
  modified : Bool
  next : Option Nat
  prev : Option Nat
  leaving : Bool
deriving DecidableEq, Repr

/-- How the leaf entry of a page asks its lines to be kept: EPRI and CMP (R289). -/
structure Keep where
  epri : BitVec 2
  cmp : Bool
deriving DecidableEq, Repr

/-- The pointers that a member held when it dropped its copy of a TRACKED line: next and previous (R298). -/
abbrev LastPtrs := Option Nat × Option Nat

/-- A translation held by a TLB (R292): the leaf entry as the walk read it, its level and the address of the entry. -/
structure TlbEntry where
  asid : BitVec 12
  page : Nat
  level : Nat
  pte : Word
  pteAt : Nat
deriving DecidableEq, Repr

/-- An entry of a core's ordered-reduction buffer or its ASID's spill area (R190, R303). -/
structure RedEntry where
  grid : Nat
  gang : Nat
  asid : BitVec 12
  lin : Nat
  clus : Nat
  crew : Nat
  lane : Nat
  pseq : BitVec 32
  addr : Word
  pa : Nat
  opnd : Word
  op : BitVec 4
  small : Bool
  /-- Of the leaf through which it was issued, and whether it is a release, whose record is made as it is applied (R120, R124, R189). -/
  keep : Keep
  rel : Bool
  /-- Index in the spill area, when it was written there. -/
  spill : Option Nat
  /-- The gang's flush point that drains it, once an AFLUSH has reached the buffers (R133, R196). -/
  batch : Option Nat
deriving DecidableEq, Repr

/-- A tagged request that is not yet acknowledged (R192). -/
structure Tagged where
  seq : BitVec 32
  /-- The slice's number in the device: die × 64 + slice. -/
  slice : Nat
  pa : Nat
  op : BitVec 4
  small : Bool
  opnd : Word
  opnd2 : Word
  compare : Bool
  grid : Nat
  /-- The virtual address, and the lane that issued it (R191, R305). -/
  addr : Word
  /-- none: the dispatcher's own request (R316). -/
  crew : Option Nat
  lane : Nat
  /-- Of the leaf through which it was issued (R282, R286). -/
  keep : Keep
  /-- A RED, whose lane has not waited for it (R189). -/
  red : Bool
deriving DecidableEq, Repr

/-- A core (R3, R12). -/
structure Core where
  /-- Release counter C (R299). -/
  relC : BitVec 32
  l1 : Store L1Line
  /-- Last pointers of copies that the L1 dropped, by line (R298). -/
  gone : Store LastPtrs
  tlb : List TlbEntry
  /-- Bytes of the VQ2 codebook that are not 0 (R101). -/
  codebook : List Host.Cell
  redbuf : List RedEntry
  tagSeq : BitVec 32
  unacked : List Tagged
  porter : Porter
  jobs : List Job
  ovls : List Overlay
  /-- Slot quota per ASID (R269, R277). -/
  quota : Store Nat
  /-- Device time not counted by CLOCK: cycles in which the block's clock was stopped (R40, R351). -/
  lag : Nat
  /-- Time of the last join to the active set (R321). -/
  lastJoin : Nat
deriving DecidableEq, Repr

/-! ## Dies -/

/-- A line in a die's L2, or the die's list entry for it (R282, R296, R297). -/
structure L2Line where
  stamp : Nat
  epri : BitVec 2
  /-- CMP of the leaf through which the line was last reached (R286). -/
  cmp : Bool
  coh : BitVec 2
  data : BitVec 1024
  dirty : BitVec 128
  poison : Bool
  modified : Bool
  next : Option Nat
  prev : Option Nat
  leaving : Bool
  /-- Head of the list of the die's L1s for this line. -/
  head : Option Nat
deriving DecidableEq, Repr

/-- A line that its home slice holds (R282). -/
structure HomeLine where
  stamp : Nat
  epri : BitVec 2
  /-- Newer than CXL memory (R306). -/
  dirty : Bool
  /-- CMP of the leaf through which the line was last reached (R286). -/
  cmp : Bool
deriving DecidableEq, Repr


/-- A record of the function store (R236). -/
structure FstRecord where
  routine : BitVec 16
  seq : Nat
  hits : Nat
  x0 : List Word
  r : List Word
  f : List Word
  j : List Word
deriving DecidableEq, Repr

/-- An update of a table instance (R244 to R246, R248). -/
inductive FstUpdate where
  | learn (x f j : List Word)
  | put (x r f j : List Word) (bad : Bool)
  | evict (x : List Word)
  | clear
deriving DecidableEq, Repr

/-- A queued update with its sort key: gang linear index, crew, lane, program order (R250). -/
structure FstQueued where
  grid : Nat
  lin : Nat
  crew : Nat
  lane : Nat
  pseq : Nat
  upd : FstUpdate
deriving DecidableEq, Repr

/-- Increments that a grid holds back in DEFERRED mode: record hits by SEQ, and the instance's HITS and MISSES (R250). -/
structure FstHeld where
  recs : Store Nat
  hits : Nat
  misses : Nat
deriving DecidableEq, Repr

/-- What a grid sees of an instance that another grid's boundary has changed since the grid began (R250). -/
structure FstView where
  recs : List FstRecord
  hits : Nat
  misses : Nat
deriving DecidableEq, Repr

/-- A die's instance of a bound table (R233, R247). -/
structure FstInstance where
  /-- Records in order of SEQ. -/
  recs : List FstRecord
  next : Nat
  hits : Nat
  misses : Nat
  inserts : Nat
  grows : Nat
  dups : Nat
  evicts : Nat
  rejects : Nat
  /-- Updates in order of arrival: in LIVE mode those that no lookup has followed yet, in DEFERRED mode those of a grid that has not
  reached its boundary (R249, R250); and how many have arrived. -/
  queue : List FstQueued
  arrived : Nat
  /-- Held increments and views by grid. -/
  held : Store FstHeld
  views : Store FstView
deriving DecidableEq, Repr

/-- A binding: the Assayer's copy of a descriptor (R234, R248). -/
structure FstTable where
  dim : Nat
  outs : Nat
  single : Bool
  tsrc : Nat
  deferred : Bool
  cap : Nat
  routine : BitVec 16
  ovl : Nat
  entry : Pc
  gamma : Word
  trel : Word
  tau : List Word
  rho : List Word
deriving DecidableEq, Repr

/-- The window of tags a memory-side unit keeps for one core (R192): (sequence, old value), newest first. -/
abbrev TagWindow := List (BitVec 32 × Word)

/-- A compute die. -/
structure Die where
  l2 : Store L2Line
  tlb : List TlbEntry
  fstsize : Nat
  /-- A size that the carve-out takes once no table is bound (R283). -/
  fstNext : Option Nat
  replay : BitVec 32
  /-- Instances by ASID × 32 + table. -/
  fst : Store FstInstance
  corrected : Nat
  uncorrected : Nat
  alive : Bool
  /-- Lines homed here that the die's slices hold (R282). -/
  held : Store HomeLine
  /-- Lines that the tile fetch unit has pinned, the first pinned first (R284). -/
  pins : List Nat
  /-- Last pointers of copies that the die dropped, by line (R298). -/
  gone : Store LastPtrs
  /-- Windows of the die's memory-side units: slice × 256 + core (R192). -/
  windows : Store TagWindow
deriving DecidableEq, Repr

/-- A line's record at its home (R297, R299). -/
structure Home where
  rv : Bool
  rcore : BitVec 8
  rseq : BitVec 32
  rd : Bool
  /-- Head of the list of dies. -/
  head : Option Nat
  /-- The release record was struck: recall every core before the next acquire (R304). -/
  lost : Bool
deriving DecidableEq, Repr

/-- A message of the sharer-list protocol in flight (R297), with its sender, a die, and the number that the sender had (R305). -/
structure Msg where
  kind : Instr
  sender : Nat
  inc : BitVec 16
deriving DecidableEq, Repr

/-! ## Grids and queues -/

/-- A launch parameter block, read whole (R307). -/
structure Lpb where
  mode : Nat
  cores : Bool
  trav : Nat
  swz : Nat
  gcore : Nat
  cgang : Nat
  ncrew : Nat
  koff : Nat
  gdx : Nat
  gdy : Nat
  gdz : Nat
  pri : Nat
  qlen : Nat
  tlbase : Word
  tlstride : Nat
  argp : Word
  waitev : Word
  waitval : Word
  doneev : Word
  doneadd : Word
  crec : Word
deriving DecidableEq, Repr

/-- Where a grid stands (R311, R316). -/
inductive GridState where
  | placing
  | running
  /-- The next completion step to make, 2 to 7 (R316). -/
  | completing (step : Nat)
  | complete
deriving DecidableEq, Repr

/-- A cluster of a grid (R313, R314). -/
structure Cluster where
  index : Nat
  /-- Gang keys in position order. -/
  gangs : List Nat
  die : Nat
  since : Nat
  resident : Bool
  retired : Bool
deriving DecidableEq, Repr

/-- A grid that has become eligible (R310). -/
structure Grid where
  queue : Nat
  lseq : BitVec 32
  asid : BitVec 12
  block : Word
  lpb : Lpb
  hdr : Header
  ver : BitVec 16
  st : GridState
  eligible : Nat
  nextPos : Nat
  clusters : List Cluster
  gangsFreed : Nat
  status : Nat
  cause : BitVec 8
  faddr : Word
  heldcan : Nat
  reddrop : Nat
  redaddr : Word
  /-- Time of the current QUANTUM slice's start. -/
  sliceStart : Nat
  /-- A completion step stopped at a fault (R316). -/
  stuck : Bool
deriving DecidableEq, Repr

/-- A launch that waits in its queue: block address, number, ASID. -/
structure Launch where
  block : Word
  lseq : BitVec 32
  asid : BitVec 12
  /-- A read of the block or of WAITEV failed and Foreman was told (R310). -/
  failed : Option (Word × BitVec 8)
deriving DecidableEq, Repr

/-- A launch queue (R310). -/
structure Queue where
  asid : Option (BitVec 12)
  entries : List Launch
  nextSeq : BitVec 32
  /-- The grid of this queue that has not completed. -/
  current : Option Nat
deriving DecidableEq, Repr

/-! ## Foreman, links and power -/

/-- An entry of the ASID context table (R287). -/
structure AsidEntry where
  valid : Bool
  root : BitVec 38
  tvec : Word
  cvtab : Word
  redspill : Word
  redsplen : BitVec 32
deriving DecidableEq, Repr

/-- A window of physical memory (R285). -/
structure Window where
  valid : Bool
  type : BitVec 2
  gran : Nat
  ways : Nat
  ports : BitVec 16
  base : Nat
  size : Nat
  tagbase : Nat
  devaddr : Nat
deriving DecidableEq, Repr

/-- A report to Foreman (R258, R285, R310, R325): what, where, the address and the cause. -/
inductive Report where
  | trap (crew slot : Nat) (cause : BitVec 8) (frame : Word)
  | porter (core gang : Nat) (pc : Pc) (cause : BitVec 8) (addr : Word) (bytes : Nat)
  | orphan (core gang : Nat) (pc : Pc) (sem : Nat)
  | job (core : Nat) (seq : BitVec 32) (addr : Word)
  | launch (queue : Nat) (addr : Word) (cause : BitVec 8)
  | argp (gang : Nat) (addr : Word) (cause : BitVec 8)
  | completion (grid : Nat) (addr : Word) (cause : BitVec 8)
  | orderedDone (grid : Nat) (addr : Word)
  | redDrop (grid : Nat) (addr : Word)
  | walk (pa : Nat)
  | crewLost (crew : Nat)
  | window (index : Nat)
  | group (index : Nat)
  | save (gang : Nat)
deriving DecidableEq, Repr

/-- A record of the event log (R352). -/
structure LogRecord where
  time : Nat
  source : Nat
  kind : Nat
  addr : Nat
  count : Nat
deriving DecidableEq, Repr

/-- One end of an Umnor port (R343 to R345). -/
structure Umnor where
  enabled : Bool
  lanes : Nat
  rate : Nat
  /-- Sequence of the next DATA flit to send, and those sent but not acknowledged, oldest first. -/
  nextSeq : BitVec 12
  unacked : List (BitVec 12 × List Byte)
  /-- Payloads that wait to be sent. -/
  sendq : List (List Byte)
  expect : BitVec 12
  acked : Option (BitVec 12)
  nak : Bool
  stopSeen : Bool
  stopSent : Bool
  /-- Payloads delivered in order and not taken by the hub yet. -/
  received : List (List Byte)
  /-- Flits that the port sent at its last event, in order. -/
  wire : List (List Byte)
  freeBuffers : Nat
  replays : Nat
  retrains : Nat
  /-- In training, at bring-up or in a retrain; and whether the peer's NEG record has come in it (R345). -/
  retraining : Bool
  heard : Bool
  peerSerial : Word
  peerInc : BitVec 16
  peerDead : Bool
deriving DecidableEq, Repr

/-- A CXL port (R341). -/
structure CxlPort where
  trained : Bool
  disabled : Bool
  rate : Nat
  width : Nat
  /-- Integrity and data encryption is on (R341). -/
  ide : Bool
deriving DecidableEq, Repr

/-- A pending block of an ordered reduction at this module, when it is the root (R261, R346). -/
structure RedBlock where
  group : BitVec 8
  tag : BitVec 32
  parts : List Contribution
deriving DecidableEq, Repr

/-- A message of an ordered reduction that leaves the module. The manual gives its fields and not its place in a flit's payload. -/
inductive Outbound where
  | contribution (c : Contribution)
  | result (group : BitVec 8) (tag : BitVec 32) (data : List Byte) (poison : List Bool)
  /-- The root refuses a contribution that differs from the block's first one. -/
  | refusal (group : BitVec 8) (tag : BitVec 32) (rank : BitVec 6)
deriving DecidableEq, Repr

/-- A power block (R351): its clock, the time at which it stopped, its budget, and its monitors (R277). -/
structure PowerBlock where
  mhz : Nat
  stopped : Option Nat
  milliwatts : Nat
  temp : BitVec 16
  volt : BitVec 16
  proc : BitVec 16
deriving DecidableEq, Repr

/-- Foreman's boot state (R349, R350). -/
structure Boot where
  powered : Bool
  /-- A boot image has passed; compute dies run. -/
  accepted : Bool
  /-- The servers that Foreman is configured with, and the images from them that have failed. -/
  servers : Nat
  attempts : Nat
  minSvn : Nat
  digest : List Byte
  signature : List Byte
deriving DecidableEq, Repr

/-- The context mapping Foreman makes for a gang (R324). -/
structure CtxMap where
  asid : BitVec 12
  va : Nat
  pa : Nat
  len : Nat
deriving DecidableEq, Repr

/-! ## The machine -/

/-- Who acts in a step (R1, R2): the model's choice of interleaving, held as data. -/
inductive Actor where
  /-- One issue slot, given to this crew. -/
  | crew (key : Nat)
  /-- Both issue slots of a core (R320). -/
  | core (n : Nat)
  | porter (core : Nat)
  | event (i : Instr)
  | idle
deriving DecidableEq, Repr

/-- The issuer of the instruction under execution: a fragment of a crew at the word at `pc`, or a Porter. -/
inductive Issuer where
  | nobody
  | frag (crew : Nat) (lanes : Mask) (pc : Pc)
  | porter (core : Nat)
deriving DecidableEq, Repr

/-- The machine. -/
structure State where
  /-- Physical memory, canonical: addresses rising, unlisted bytes read 0. -/
  mem : List Host.Cell
  /-- Poisoned memory lines (R105). -/
  poison : List Nat
  crews : Store Crew
  gangs : Store Gang
  cores : Store Core
  dies : Store Die
  homes : Store Home
  /-- Sharer-list messages in flight, oldest first (R297, R298). -/
  fabric : List Msg
  grids : Store Grid
  queues : Store Queue
  /-- Function-store bindings by ASID × 32 + table (R233). -/
  tables : Store FstTable
  asids : Store AsidEntry
  windows : Store Window
  /-- The group table (R346). -/
  groups : Store Word
  /-- Ordered reductions pending at this root (R261). -/
  blocks : List RedBlock
  /-- Messages of ordered reductions that leave the module: the port, and what it carries (R261, R346). -/
  outbox : List (Nat × Outbound)
  /-- Contributions that found no room in the reduction buffer, held on their ports, oldest first (R346). -/
  redHeld : List Contribution
  /-- By group, the ports from which its contributions have arrived (R346). -/
  redVia : Store (List Nat)
  /-- Groups disabled by a member's death, until their entries are written again (R347). -/
  redOff : List Nat
  umnor : Store Umnor
  cxl : Store CxlPort
  ether : List Bool
  power : Store PowerBlock
  boot : Boot
  /-- Incarnation number of each agent: dies 0 to 7, peers 8 to 19, sharers 20 to 51 (R305), and at 52 this module's own, as its peers are to
  keep it (R345). -/
  incarnations : Store (BitVec 16)
  dropped : Nat
  reports : List Report
  log : List LogRecord
  logLost : Nat
  logCap : Nat
  /-- Bases of shadowed buffers whose shadow MCAN discarded, until an engine writes there again (R208, R225). -/
  discarded : List (BitVec 12 × Word)
  ctxMaps : List CtxMap
  /-- Lines of HDM-DB windows that a memory device has snooped away, for one of its sharers, since the device last reached them (R302, R306). -/
  lent : List Nat
  /-- First physical and virtual address of the context regions that Foreman assigns (R324). -/
  ctxBase : Nat
  nextGang : Nat
  nextGrid : Nat
  /-- Leave memory instructions unfinished at issue, to be finished by events (R329). -/
  memLate : Bool
  /-- Cycles of the device since reset. -/
  time : Nat
  agenda : List Actor
  rotor : Nat
  /-- Counter of free values. -/
  fresh : Nat
  cur : Issuer
deriving DecidableEq, Repr

/-! ## Outcomes -/

/-- The reasons a step can stop with a fault. The machine's own faults are traps, which are next states. -/
inductive Fault where
  /-- Raised by every meaning of an encoded instruction when `State.cur` names no crew that is resident and no Porter: nobody
  issues. No step of the machine reaches it. Safe. -/
  | noIssuer
deriving DecidableEq, Repr

/-- The reasons the model has no meaning. -/
inductive Refusal where
  /-- Raised by an arm of `exec` for an instruction that is not modelled yet. Safe. -/
  | notModelled (mnemonic : String)
deriving DecidableEq, Repr

/-! ## Reset -/

/-- A latch at allocation: invalid (R12). -/
def Latch.reset : Latch := ⟨false, allLanes 0, .u⟩

/-- A thread at allocation (R12). -/
def Thread.reset : Thread :=
  { pc := 0, sup := false, st := .live, rstk := [], rsdep := 0, fstat := 0, pacc := 0, ptot := 0, pmode := false, wm := 0,
    tlsb := 0, held := none, lost := none, left := [] }

/-- A crew at allocation (R12): registers 0 with tag U, predicates 0, latches invalid. -/
def Crew.reset : Crew :=
  { core := 0, place := 0, thr := allLanes Thread.reset, regs := Vector.replicate 48 (allLanes 0), tags := Vector.replicate 48 .u,
    shadow := Vector.replicate 8 (allLanes 0), stags := Vector.replicate 8 .u, preds := Vector.replicate 8 0,
    latches := Vector.replicate 4 Latch.reset, found := Vector.replicate 4 Latch.reset, cver := 0, hdr := none, switched := false, run := none, last := none, restored := none,
    same := 0, sameSet := 0, issues := 0, seen := allLanes 0, ages := allLanes 0, force := none, slots := Vector.replicate 4 none, infl := [],
    barm := Vector.replicate 16 0, barcm := 0, pins := [], seqOvl := allLanes none, stall := 0, active := false,
    readySince := 0, activeSince := 0, redSeq := 0 }

/-- A kernel header with nothing in it. -/
def Header.reset : Header :=
  { koff := 0, prop := false, regs := 1, ovls := 0, bars := 0, fifo := 0, scr := 0, acc := 0, scratch := 0, entry := 0,
    porterLen := 0, porter := 0, dir := [] }

/-- A gang as it is placed, before its placement fills it in (R12). -/
def Gang.reset : Gang :=
  { grid := 0, asid := 0, lin := 0, x := 0, y := 0, z := 0, clus := 0, ncrew := 0, ncore := 1, core0 := none,
    hdr := Header.reset, scratch := [], absent := [], scratchPoison := [], acc := [], accPoison := [],
    bargen := Vector.replicate 16 0, barcgen := 0, banks := [], fifos := [], fifoPoison := [], fifoReqs := [], sems := [], semWaits := [],
    pubs := [], pubSeq := 0, jobSeq := [], tickets := 0, ctxVa := 0, ctxPa := 0, saved := none, savedJobs := [], argps := [],
    crewsFreed := [], freed := false, savedStreams := [], needs := [], leaving := false, since := 0 }

/-- A Porter at reset: no stream (R256). -/
def Porter.reset : Porter :=
  { gang := none, cver := 0, lo := 0, hi := 0, pc := 0, q := Vector.replicate 8 0, copies := [], nextCopy := 0, wait := .none, stopped := none,
    resumed := [] }

/-- A core at reset (R299: C is 0; R101: the codebook is 0). -/
def Core.reset : Core :=
  { relC := 0, l1 := [], gone := [], tlb := [], codebook := [], redbuf := [], tagSeq := 0, unacked := [], porter := Porter.reset,
    jobs := [], ovls := [], quota := [], lag := 0, lastJoin := 0 }

/-- A die at reset (R277: REPLAY is 65,536). -/
def Die.reset : Die :=
  { l2 := [], tlb := [], fstsize := 0, fstNext := none, replay := 65536, fst := [], corrected := 0, uncorrected := 0, alive := true,
    held := [], pins := [], gone := [], windows := [] }

/-- A home line with no release record and an empty list (R297, R299). -/
def Home.reset : Home := { rv := false, rcore := 0, rseq := 0, rd := false, head := none, lost := false }

/-- An instance of a table just bound (R248). -/
def FstInstance.reset : FstInstance :=
  { recs := [], next := 1, hits := 0, misses := 0, inserts := 0, grows := 0, dups := 0, evicts := 0, rejects := 0, queue := [], arrived := 0,
    held := [],
    views := [] }

/-- A queue at reset: bound to none (R310). -/
def Queue.reset : Queue := { asid := none, entries := [], nextSeq := 1, current := none }

/-- An ASID that is not in use (R287). -/
def AsidEntry.reset : AsidEntry := { valid := false, root := 0, tvec := 0, cvtab := 0, redspill := 0, redsplen := 0 }

/-- An Umnor port before training (R345). -/
def Umnor.reset : Umnor :=
  { enabled := false, lanes := 0, rate := 0, nextSeq := 0, unacked := [], sendq := [], expect := 0, acked := none, nak := false,
    stopSeen := false, stopSent := false, received := [], wire := [], freeBuffers := 1024, replays := 0, retrains := 0, retraining := false, heard := false,
    peerSerial := 0, peerInc := 0, peerDead := false }

/-- A CXL port before training (R341). -/
def CxlPort.reset : CxlPort := { trained := false, disabled := false, rate := 0, width := 0, ide := false }

/-- A power block: its clock at the 3.0 GHz of R4. -/
def PowerBlock.reset : PowerBlock := { mhz := 3000, stopped := none, milliwatts := 0, temp := 0, volt := 0, proc := 0 }

/-- Foreman before power-good (R349). -/
def Boot.reset : Boot := { powered := false, accepted := false, servers := 1, attempts := 0, minSvn := 0, digest := [], signature := [] }

/-- The machine right after reset: no crew, nothing allocated, every queue bound to none (R310), memory with nothing listed. -/
def State.reset : State :=
  { mem := [], poison := [], crews := [], gangs := [], cores := [], dies := [], homes := [], fabric := [], grids := [],
    queues := [], tables := [], asids := [], windows := [], groups := [], blocks := [], outbox := [], redHeld := [], redVia := [], redOff := [], umnor := [],
    cxl := [], ether := [true, true], power := [], boot := Boot.reset, incarnations := [], dropped := 0, reports := [], log := [],
    logLost := 0, logCap := 4096, discarded := [], ctxMaps := [], lent := [], ctxBase := 0x0008000000000000, nextGang := 0, nextGrid := 0, memLate := false,
    time := 0, agenda := [], rotor := 0, fresh := 0, cur := .nobody }

end Sys2Proof.Machine
end

