-- ==== Sys2Proof/Machine/Memory.lean ====
section
/-!
DEFINITION. Byte memories in canonical form, and the physical memory of the module: the two hashes of R282, the window table of
R285 with its tag arrays (R286), the lines that home slices hold, and line reads and writes. An unlisted byte reads 0 (log 2).
-/
namespace Sys2Proof.Machine

/-! ## Canonical byte memories -/

/-- What an unlisted byte reads as (log 2). -/
def unlisted : Byte := 0

/-- The form of a memory: addresses strictly rising, no entry equal to what an unlisted byte reads as. -/
def Memory.wf : List Host.Cell → Bool
  | [] => true
  | [(_, b)] => b != unlisted
  | (a, b) :: (c, d) :: rest => b != unlisted && a < c && Memory.wf ((c, d) :: rest)

/-- One byte. -/
def readByte : List Host.Cell → Nat → Byte
  | [], _ => unlisted
  | (k, b) :: rest, a => if k = a then b else readByte rest a

/-- The cells that bytes `bs` from address `a` leave to be listed. -/
def freshCells : Nat → List Byte → List Host.Cell
  | _, [] => []
  | a, b :: bs => if b = unlisted then freshCells (a + 1) bs else (a, b) :: freshCells (a + 1) bs

/-- Write bytes from an address upward, keeping the canonical form. -/
def writeBytes (m : List Host.Cell) (a : Nat) (bs : List Byte) : List Host.Cell :=
  m.filter (fun c => c.1 < a) ++ freshCells a bs ++ m.filter (fun c => a + bs.length ≤ c.1)

/-- The bytes from an address upward. -/
def readBytes (m : List Host.Cell) (a n : Nat) : List Byte :=
  let near := m.filter fun c => a ≤ c.1 && c.1 < a + n
  (List.range n).map fun j => readByte near (a + j)

/-- The little-endian number of the bytes from an address upward (R5). -/
def readNat (m : List Host.Cell) (a n : Nat) : Nat :=
  m.foldl (fun x c => if a ≤ c.1 && c.1 < a + n then x + c.2.toNat * 2 ^ (8 * (c.1 - a)) else x) 0

/-- Write the low bytes of a number, little-endian (R5). -/
def writeNat (m : List Host.Cell) (a n x : Nat) : List Host.Cell := writeBytes m a (toBytes n x)

/-! ## Units -/

/-- A core's record. -/
def State.core (s : State) (c : Nat) : Core := s.cores.getD c Core.reset
/-- Replace a core's record. -/
def State.setCore (s : State) (c : Nat) (x : Core) : State := { s with cores := s.cores.set c x }
/-- Change a core's record. -/
def State.modCore (s : State) (c : Nat) (f : Core → Core) : State := s.setCore c (f (s.core c))
/-- A die's record. -/
def State.die (s : State) (d : Nat) : Die := s.dies.getD d Die.reset
/-- Change a die's record. -/
def State.modDie (s : State) (d : Nat) (f : Die → Die) : State := { s with dies := s.dies.set d (f (s.die d)) }
/-- A home line's record. -/
def State.home (s : State) (line : Nat) : Home := s.homes.getD line Home.reset
/-- A power block's record; block numbers 0 to 255 are the cores (R351). -/
def State.powerOf (s : State) (b : Nat) : PowerBlock := s.power.getD b PowerBlock.reset
/-- Does a core's clock run (R351)? -/
def State.clocked (s : State) (core : Nat) : Bool := (s.powerOf core).stopped.isNone
/-- Change a home line's record. -/
def State.modHome (s : State) (line : Nat) (f : Home → Home) : State :=
  { s with homes := s.homes.set line (f (s.home line)) }
/-- The die of a core. -/
def dieOf (core : Nat) : Nat := core / 32

/-! ## Places of physical memory -/

/-- The line of a physical address (R3). -/
def lineOf (pa : Nat) : Nat := pa / 128

/-- The slice of a physical address (R282). -/
def sliceOf (pa : Nat) : Nat :=
  [7, 13, 19, 25, 31, 37, 43].foldl (fun x lo => x ^^^ bits pa (lo + 5) lo) (bits pa 51 49)

/-- The hash of the home die (R282). -/
def dieHash (pa : Nat) : Nat := [13, 19, 25, 31, 37, 43, 49].foldl (fun x lo => x ^^^ bits pa (lo + 2) lo) 0

/-- The dies that have not been declared dead (R306). -/
def State.liveDies (s : State) : List Nat := (List.range 8).filter fun d => (s.die d).alive

/-- The home die of a physical address. Lines of a dead die are remapped to the surviving dies (R306; the remapping is log 10). -/
def State.homeDie (s : State) (pa : Nat) : Nat :=
  let d := dieHash pa
  if (s.die d).alive then d
  else
    let live := s.liveDies
    live.getD (d % live.length) d

/-- Bytes of a window's tag array: one bit for each line (R286). -/
def Window.tagBytes (w : Window) : Nat := (w.size / 128 + 7) / 8

/-- Does an address lie in the tag array of a window? Program accesses never reach it (R286). -/
def State.inTags (s : State) (pa : Nat) : Bool :=
  s.windows.values.any fun w => w.valid && w.tagbase ≠ 0 && w.tagbase ≤ pa && pa < w.tagbase + w.tagBytes

/-- The port that serves an address of a window (R285). -/
def Window.portOf (w : Window) (pa : Nat) : Option Nat :=
  let k := ((pa - w.base) / (256 * 2 ^ w.gran)) % 2 ^ w.ways
  ((List.range 16).filter fun p => w.ports.getLsbD p)[k]?

/-- The lowest-numbered valid window that contains a physical address (R285), when the port that serves the address has trained (R341, R349).
An address in a tag array is in none (R286; log 79). -/
def State.windowOf (s : State) (pa : Nat) : Option Window :=
  if s.inTags pa then none
  else (s.windows.values.find? fun w => w.valid && w.base ≤ pa && pa < w.base + w.size).filter fun w =>
    (w.portOf pa).any fun p => (s.cxl.getD p CxlPort.reset).trained

/-! ## Lines -/

/-- The 128 bytes of a line as its home holds them. -/
def State.lineData (s : State) (line : Nat) : BitVec 1024 := BitVec.ofNat 1024 (readNat s.mem (line * 128) 128)

/-- Is the line poisoned at its home (R105)? -/
def State.linePoisoned (s : State) (line : Nat) : Bool := s.poison.contains line

/-- Mark a memory line as poisoned (R105). -/
def State.poisonLine (s : State) (line : Nat) : State := { s with poison := insertNat line s.poison }

/-- Clear a line's poison (R193). -/
def State.clearPoison (s : State) (line : Nat) : State := { s with poison := s.poison.filter (· != line) }

/-- A home line just brought into its slice. -/
def HomeLine.fresh (t : Nat) : HomeLine := { stamp := t, epri := 0, dirty := false, cmp := false }

/-- A line has been written at its home: its slice holds it, newer than CXL memory (R282, R306). -/
def State.homeWrote (s : State) (line : Nat) : State :=
  s.modDie (s.homeDie (line * 128)) fun x =>
    { x with held := x.held.set line { x.held.getD line (HomeLine.fresh s.time) with stamp := s.time, dirty := true } }

/-- Write bytes of one line of physical memory at its home. -/
def State.memWrite (s : State) (pa : Nat) (bs : List Byte) : State := { s with mem := writeBytes s.mem pa bs }.homeWrote (lineOf pa)

/-- A line comes to its home slice through a leaf with this EPRI and CMP, or is used there (R280, R282, R286). -/
def State.homeKeep (s : State) (line : Nat) (k : Keep) : State :=
  s.modDie (s.homeDie (line * 128)) fun x =>
    { x with held := x.held.set line { x.held.getD line (HomeLine.fresh s.time) with stamp := s.time, epri := k.epri, cmp := k.cmp } }

/-- A line is reached at its home by an access of a page: its slice holds it, and no sharer of its memory device holds it any longer (R282,
R286, R302). -/
def State.homeTouch (s : State) (line : Nat) (k : Keep) : State :=
  { s with lent := s.lent.filter (· != line) }.homeKeep line k

/-- Does the home slice hold the line newer than CXL memory (R306)? -/
def State.dirtyAtHome (s : State) (line : Nat) : Bool := ((s.die (s.homeDie (line * 128))).held.get? line).any HomeLine.dirty

/-- The tag of a line as it is written back to its window: set when the line's 128 bytes are compressed into 64, clear otherwise
(R286). -/
def State.setTag (s : State) (line : Nat) (cmp : Bool) : State :=
  match s.windowOf (line * 128) with
  | none => s
  | some w =>
    if w.tagbase = 0 then s
    else
      let n := line - lineOf w.base
      let a := w.tagbase + n / 8
      let b : Byte := 1#8 <<< (n % 8)
      let old := readByte s.mem a
      let new := if cmp && Config.compresses (s.lineData line) then old ||| b else old &&& ~~~b
      { s with mem := writeBytes s.mem a [new] }

/-- A dirty line is written back from its home slice to CXL memory, which keeps the copy (R286, R302). -/
def State.cleanHome (s : State) (line : Nat) : State :=
  let d := s.homeDie (line * 128)
  match (s.die d).held.get? line with
  | some h =>
    if h.dirty then (s.setTag line h.cmp).modDie d fun x => { x with held := x.held.set line { h with dirty := false } } else s
  | none => s

/-- Every dirty line homed on a die is written back to CXL memory. -/
def State.cleanHomes (s : State) (die : Nat) : State := ((s.die die).held.map Prod.fst).foldl State.cleanHome s

/-- The cells of a list of fields (offset, bytes, number), offsets rising, laid out from `pa`. -/
def fieldCells (pa : Nat) (fields : List (Nat × Nat × Nat)) : List Host.Cell :=
  fields.foldr (fun f cs => if f.2.2 = 0 then cs else freshCells (pa + f.1) (toBytes f.2.1 f.2.2) ++ cs) []

/-- The bytes of `len` bytes from `pa` that fields are laid out in. Fields that do not follow one another are written one after the other. -/
def laidOut (pa len : Nat) (fields : List (Nat × Nat × Nat)) : List Host.Cell :=
  let cells := fieldCells pa fields
  if Memory.wf cells && cells.all fun c => pa ≤ c.1 && c.1 < pa + len then cells
  else (fields.foldl (fun m f => writeNat m (pa + f.1) f.2.1 f.2.2) []).filter fun c => pa ≤ c.1 && c.1 < pa + len

/-- Write `len` bytes at their homes: the fields given, and 0 elsewhere. -/
def State.memFill (s : State) (pa len : Nat) (fields : List (Nat × Nat × Nat)) : State :=
  let mem := s.mem.filter (fun c => c.1 < pa) ++ laidOut pa len fields ++ s.mem.filter (fun c => pa + len ≤ c.1)
  let n := (len + 127) / 128
  let homes := (List.range n).map fun k => (lineOf pa + k, s.homeDie ((lineOf pa + k) * 128))
  (List.range 8).foldl (fun s d =>
    let mine := (homes.filter fun p => p.2 = d).map Prod.fst
    if mine.isEmpty then s
    else s.modDie d fun x =>
      { x with held := x.held.filter (fun h => h.1 < lineOf pa) ++
          (mine.map fun l => (l, { x.held.getD l (HomeLine.fresh s.time) with stamp := s.time, dirty := true })) ++
          x.held.filter fun h => lineOf pa + n ≤ h.1 })
    { s with mem := mem }

/-- Byte `k` of a line. -/
def lineByte (x : BitVec 1024) (k : Nat) : Byte := x.extractLsb' (8 * k) 8

/-- `n` bytes of a line from byte `k`, as a number. -/
def lineNat (x : BitVec 1024) (k n : Nat) : Nat := (x.toNat >>> (8 * k)) % 2 ^ (8 * n)

/-- A line with `n` bytes from byte `k` replaced by the low bytes of `v`. -/
def lineSet (x : BitVec 1024) (k n v : Nat) : BitVec 1024 :=
  let m := 2 ^ (8 * n)
  let keep := x.toNat - (lineNat x k n) * 2 ^ (8 * k)
  BitVec.ofNat 1024 (keep + (v % m) * 2 ^ (8 * k))

/-- The byte mask of `n` bytes from byte `k`. -/
def byteMask (k n : Nat) : BitVec 128 := BitVec.ofNat 128 ((2 ^ n - 1) * 2 ^ k)

/-- The bytes of `b` where the mask is set, of `a` elsewhere. -/
def mergeLine (a b : BitVec 1024) (m : BitVec 128) : BitVec 1024 :=
  (List.range 128).foldl (fun x k => if m.getLsbD k then lineSet x k 1 (lineByte b k).toNat else x) a

/-- Write the masked bytes of a line at its home. -/
def State.memMerge (s : State) (line : Nat) (x : BitVec 1024) (m : BitVec 128) : State :=
  if m = 0 then s
  else s.memWrite (line * 128) (toBytes 128 (mergeLine (s.lineData line) x m).toNat)

end Sys2Proof.Machine
end

