-- ==== Sys2Proof/Machine/Coherence.lean ====
section
/-!
DEFINITION. The copies that L1s and L2s hold, and how they are kept current: SELFINV copies with dirty bytes and release marks
(R296, R299 to R301), TRACKED lines with sharer lists at two levels (R297, R298), and release records at the homes (R299, R300).
The data of a TRACKED line is kept at its home, so that a member's M state says who may have written it and not where its
bytes are (log 11): the protocol lets no other agent read a line while one member holds it in M.
-/
namespace Sys2Proof.Machine

/-! ## Sets and ways of an L1 (R280) -/

/-- The set of a line in an L1. -/
def l1Set (line : Nat) : Nat := line % 128

/-- Bank slots of a core that gangs have taken out of cache mode (R202). -/
def State.banksTaken (s : State) (core : Nat) : Nat :=
  s.gangs.values.foldl (fun n g =>
    match g.core0 with
    | some c0 =>
      if c0 ≤ core && core < c0 + g.ncore then
        n + (g.banks.filter fun p => p.1 / 48 = core - c0 && p.2 != .unmapped).length
      else n
    | none => n) 0

/-- The ways of a core's L1: its cache-mode banks (R280). -/
def State.waysOf (s : State) (core : Nat) : Nat := 48 - s.banksTaken core

/-- The victim order of R280: lowest eviction priority, then least recently used. -/
def victimBefore (a b : Nat × L1Line) : Bool :=
  a.2.epri < b.2.epri || (a.2.epri == b.2.epri && a.2.stamp ≤ b.2.stamp)

/-- The first of a list under an order. -/
def leastBy (le : α → α → Bool) : List α → Option α
  | [] => none
  | x :: xs =>
    match leastBy le xs with
    | none => some x
    | some y => if le x y then some x else some y

/-! ## L2 copies of SELFINV lines -/

/-- How a copy's leaf asks it to be kept. -/
def L1Line.keep (e : L1Line) : Keep := ⟨e.epri, e.cmp⟩

/-- The same of a copy in an L2. -/
def L2Line.keep (e : L2Line) : Keep := ⟨e.epri, e.cmp⟩

/-- A fresh L2 entry with this data. -/
def L2Line.fresh (t : Nat) (x : BitVec 1024) (p : Bool) (k : Keep) (coh : BitVec 2) : L2Line :=
  { stamp := t, epri := k.epri, cmp := k.cmp, coh := coh, data := x, dirty := 0, poison := p, modified := false, next := none, prev := none,
    leaving := false, head := none }

/-- The line as a die's L2 sees it, with a copy made of a line whose home is another die (R282). The bytes of a TRACKED copy stand at the home
(log 11). -/
def State.l2Read (s : State) (die line : Nat) (k : Keep) : BitVec 1024 × Bool × State :=
  if s.homeDie (line * 128) = die then (s.lineData line, s.linePoisoned line, s)
  else
    match (s.die die).l2.get? line with
    | some e =>
      let (x, p) := if e.coh = 0 then (s.lineData line, s.linePoisoned line) else (e.data, e.poison)
      (x, p, s.modDie die fun d => { d with l2 := d.l2.set line { e with stamp := s.time } })
    | none =>
      let x := s.lineData line
      let p := s.linePoisoned line
      (x, p, s.modDie die fun d => { d with l2 := d.l2.set line (L2Line.fresh s.time x p k 1) })

/-- Masked bytes written into a die's L2: into its SELFINV copy, dirty, or at the line's home, when the die is the home or its copy is a TRACKED
one, whose bytes stand there (R125; log 11). -/
def State.l2Merge (s : State) (die line : Nat) (x : BitVec 1024) (m : BitVec 128) (k : Keep) : State :=
  if s.homeDie (line * 128) = die || ((s.die die).l2.get? line).any (fun e => e.coh == 0) then (s.homeKeep line k).memMerge line x m
  else
    let (y, p, s) := s.l2Read die line k
    s.modDie die fun d =>
      let e := d.l2.getD line (L2Line.fresh s.time y p k 1)
      { d with l2 := d.l2.set line { e with data := mergeLine e.data x m, dirty := e.dirty ||| m, stamp := s.time, cmp := k.cmp } }

/-- Write back one die's dirty copy of a line homed elsewhere, keeping the copy; poison goes with it (R105, R304). -/
def State.l2WriteBack (s : State) (die line : Nat) : State :=
  match (s.die die).l2.get? line with
  | some e =>
    if e.dirty = 0 then s
    else
      let s := if e.poison then s.poisonLine line else s
      ((s.homeKeep line e.keep).memMerge line e.data e.dirty).modDie die fun d => { d with l2 := d.l2.set line { e with dirty := 0 } }
  | none => s

/-- A line is poisoned as a die's L2 sees it. -/
def State.l2Poison (s : State) (die line : Nat) : State :=
  if s.homeDie (line * 128) = die then s.poisonLine line
  else match (s.die die).l2.get? line with
    | some e => s.modDie die fun d => { d with l2 := d.l2.set line { e with poison := true } }
    | none => s

/-- Write back every dirty copy that a die holds of a SELFINV line homed on another die (R300). -/
def State.l2WriteBackAll (s : State) (die : Nat) : State :=
  (s.die die).l2.foldl (fun s p => s.l2WriteBack die p.1) s

/-- Drop a die's copies of SELFINV lines homed on other dies, their dirty bytes written back first (R300). -/
def State.l2DropSelfinv (s : State) (die : Nat) : State :=
  let s := s.l2WriteBackAll die
  s.modDie die fun d => { d with l2 := d.l2.filter fun p => p.2.coh != 1 }

/-! ## L1 copies of SELFINV lines -/

/-- Write a core's dirty SELFINV line back to its die's L2, keeping the copy clean (R297, R300). -/
def State.l1WriteBack (s : State) (core line : Nat) : State :=
  match (s.core core).l1.get? line with
  | some e =>
    if e.dirty = 0 then s
    else
      let s := s.l2Merge (dieOf core) line e.data e.dirty e.keep
      let s := if e.poison then s.l2Poison (dieOf core) line else s
      s.modCore core fun c => { c with l1 := c.l1.set line { e with dirty := 0 } }
  | none => s

/-- Is mark `m` below `r` in the serial order of R299? -/
def markBelow (m r : BitVec 32) : Bool := let d := (r - m).toNat; 1 ≤ d && d ≤ 2 ^ 31 - 1

/-- Write back every dirty SELFINV line of a core whose mark satisfies `p`. -/
def State.l1WriteBackIf (s : State) (core : Nat) (p : BitVec 32 → Bool) : State :=
  (s.core core).l1.foldl (fun s q => if p q.2.mark then s.l1WriteBack core q.1 else s) s

/-- Write back every dirty SELFINV line of a core to its die's L2 (R301). -/
def State.l1WriteBackAll (s : State) (core : Nat) : State := s.l1WriteBackIf core fun _ => true

/-- Drop a core's SELFINV copies, their dirty bytes written back first (R300; log 12). -/
def State.l1DropSelfinv (s : State) (core : Nat) : State :=
  let s := s.l1WriteBackAll core
  s.modCore core fun c => { c with l1 := c.l1.filter fun p => p.2.coh != 1 }

/-! ## Sharer lists (R297, R298) -/

/-- The next and previous pointers of a member's TRACKED copy, and its M state. -/
def State.memberLinks (s : State) (line : Nat) : Member → Option (Option Nat × Option Nat × Bool)
  | .core c => (((s.core c).l1.get? line).filter fun e => e.coh == 0).map fun e => (e.next, e.prev, e.modified)
  | .die d => (((s.die d).l2.get? line).filter fun e => e.coh == 0).map fun e => (e.next, e.prev, e.modified)

/-- Change a member's TRACKED copy. -/
def State.modMember (s : State) (line : Nat) (m : Member) (f1 : L1Line → L1Line) (f2 : L2Line → L2Line) : State :=
  match m with
  | .core c =>
    match ((s.core c).l1.get? line).filter fun e => e.coh == 0 with
    | some e => s.modCore c fun x => { x with l1 := x.l1.set line (f1 e) }
    | none => s
  | .die d =>
    match ((s.die d).l2.get? line).filter fun e => e.coh == 0 with
    | some e => s.modDie d fun x => { x with l2 := x.l2.set line (f2 e) }
    | none => s

/-- Head of the list that a member belongs to: the die's list for a core, the home's list for a die. -/
def State.listHead (s : State) (line : Nat) : Member → Option Nat
  | .core c => ((s.die (dieOf c)).l2.get? line).bind fun e => e.head
  | .die _ => (s.home line).head

/-- Set that head. The die's own slice holds the die's list, in an entry made for it when there is none. -/
def State.setListHead (s : State) (line : Nat) (m : Member) (h : Option Nat) : State :=
  match m with
  | .core c =>
    s.modDie (dieOf c) fun d =>
      let e := d.l2.getD line (L2Line.fresh s.time (s.lineData line) (s.linePoisoned line) ⟨0, false⟩ 0)
      { d with l2 := d.l2.set line { e with head := h } }
  | .die _ => s.modHome line fun x => { x with head := h }

/-- Another member of the same list. -/
def peerOf (m : Member) (n : Nat) : Member :=
  match m with
  | .core _ => .core n
  | .die _ => .die n

/-- The number of a member. -/
def memberNum : Member → Nat
  | .core n => n
  | .die n => n

/-- The pointers that a member held when it dropped its copy of a line (R298). -/
def State.lastPtrs (s : State) (line : Nat) : Member → LastPtrs
  | .core c => (s.core c).gone.getD line (none, none)
  | .die d => (s.die d).gone.getD line (none, none)

/-- Forget a member's last pointers of a line. -/
def State.forgetPtrs (s : State) (line : Nat) : Member → State
  | .core c => s.modCore c fun x => { x with gone := x.gone.erase line }
  | .die d => s.modDie d fun x => { x with gone := x.gone.erase line }

/-- A member drops its copy of a line, and keeps its last pointers for messages still on their way to it (R298). -/
def State.dropMember (s : State) (line : Nat) (m : Member) : State :=
  match s.memberLinks line m with
  | none => s
  | some (nx, pv, _) =>
    match m with
    | .core c => s.modCore c fun x => { x with l1 := x.l1.erase line, gone := x.gone.set line (nx, pv) }
    | .die d => s.modDie d fun x => { x with l2 := x.l2.erase line, gone := x.gone.set line (nx, pv) }

/-- The die of a member. -/
def memberDie : Member → Nat
  | .core c => dieOf c
  | .die d => d

/-- The die that keeps the list of a member: the core's own die for a list of cores, the line's home for a list of dies. -/
def State.listDie (s : State) (line : Nat) : Member → Nat
  | .core c => dieOf c
  | .die _ => s.homeDie (line * 128)

/-- Is a number older, modulo 2^16, than the one that the homes hold for an agent (R305)? -/
def State.older (s : State) (agent : Nat) (inc : BitVec 16) : Bool :=
  let held := s.incarnations.getD agent 0
  (held - inc).msb == false && held != inc

/-- A message with an older number of its sender is dropped and counted (R305). -/
def State.dropOld (s : State) : State := { s with dropped := s.dropped + 1 }

/-- Queue a message of a die, with the die's number (R298: messages for a line are handled in arrival order; R305). -/
def State.send (s : State) (sender : Nat) (i : Instr) : State :=
  { s with fabric := s.fabric ++ [⟨i, sender, s.incarnations.getD sender 0⟩] }

/-- A message reaches a member that no longer holds the line: it goes along the member's last pointer, once (R298). -/
def State.forward (s : State) (line : Nat) (m : Member) (dest : Option Nat) (i : Nat → Instr) : State :=
  match dest with
  | some n => (s.forgetPtrs line m).send (memberDie m) (i n)
  | none => s

/-- SETPREV at a member (R297); one without a copy forwards it to the member that came after it (R298). -/
def onSetprev (line : Nat) (m : Member) (dest : Option Nat) (s : State) : State :=
  match s.memberLinks line m with
  | some _ => s.modMember line m (fun e => { e with prev := dest }) (fun e => { e with prev := dest })
  | none => s.forward line m (s.lastPtrs line m).1 fun n => .setprev line (peerOf m n) dest

/-- SETNEXT at a member (R297); one without a copy forwards it to the member that came before it (R298). -/
def onSetnext (line : Nat) (m : Member) (dest : Option Nat) (s : State) : State :=
  match s.memberLinks line m with
  | some _ => s.modMember line m (fun e => { e with next := dest }) (fun e => { e with next := dest })
  | none => s.forward line m (s.lastPtrs line m).2 fun n => .setnext line (peerOf m n) dest

/-- FETCH at the M member: it returns its data and becomes S, a die with its own M core, or drops its copy on an UPG (R297); one without a copy forwards it
(R298). -/
def onFetch (line : Nat) (m : Member) (drop : Bool) (s : State) : State :=
  match s.memberLinks line m with
  | none => s.forward line m (s.lastPtrs line m).1 fun n => .fetch line (peerOf m n) drop
  | some _ =>
    if drop then s.dropMember line m
    else
      let s := s.modMember line m (fun e => { e with modified := false }) (fun e => { e with modified := false })
      match m with
      | .core _ => s
      | .die d => (((s.die d).l2.get? line).bind fun e => e.head).elim s fun c =>
          s.modMember line (.core c) (fun e => { e with modified := false }) id

/-- The copies of a die's list of L1s dropped, from a member on. -/
def dropCores (line : Nat) : Nat → Option Nat → State → State
  | 0, _, s => s
  | _ + 1, none, s => s
  | k + 1, some c, s =>
    let nx := ((s.core c).l1.get? line).bind fun e => e.next
    dropCores line k nx (s.dropMember line (.core c))

/-- PURGE at a member: it forwards the purge along its next pointer, or reports PURGED when it is the last, and drops its copy
(R297). A member with a LEAVE pending does the same, and its LEAVE then finds nothing to change; a member without a copy forwards the
purge along its last pointer (R298). A die's copy goes with the copies of its cores. -/
def onPurge (line : Nat) (m : Member) (s : State) : State :=
  let fwd (s : State) (nx : Option Nat) : State :=
    match nx with
    | some n => s.send (memberDie m) (.purge line (peerOf m n))
    | none => s.send (memberDie m) (.purged line m)
  match s.memberLinks line m with
  | none => fwd (s.forgetPtrs line m) (s.lastPtrs line m).1
  | some (nx, _, _) =>
    let s := match m with
      | .core _ => s
      | .die d => dropCores line 33 (((s.die d).l2.get? line).bind fun e => e.head) s
    fwd (s.dropMember line m) nx

/-- PURGED at the home: the list is empty (R297). -/
def onPurged (line : Nat) (m : Member) (s : State) : State := s.setListHead line m none

/-- A member's LEAVE at the home: the head or the neighbours' pointers are updated, and the member's copy goes (R297, R298). -/
def onLeave (line : Nat) (m : Member) (s : State) : State :=
  match s.memberLinks line m with
  | none => s
  | some (nx, pv, _) =>
    let s := match pv with
      | none => s.setListHead line m nx
      | some p => s.send (s.listDie line m) (.setnext line (peerOf m p) nx)
    let s := match nx with
      | none => s
      | some n => s.send (s.listDie line m) (.setprev line (peerOf m n) pv)
    s.dropMember line m

/-- One message of the list protocol delivered. JOIN and UPG are handled below, where the requester's copy is made. -/
def onMessage (i : Instr) (s : State) : State :=
  match i with
  | .setprev line m dest => onSetprev line m dest s
  | .setnext line m dest => onSetnext line m dest s
  | .fetch line m drop => onFetch line m drop s
  | .purge line m => onPurge line m s
  | .purged line m => onPurged line m s
  | .leave line m => onLeave line m s
  | _ => s

/-- Deliver queued messages, oldest first, at most `k`; one with an older number of its sender is dropped and counted (R305). -/
def settleFabric : Nat → State → State
  | 0, s => s
  | k + 1, s =>
    match s.fabric with
    | [] => s
    | m :: rest =>
      let s := { s with fabric := rest }
      settleFabric k (if s.older m.sender m.inc then s.dropOld else onMessage m.kind s)

/-- All messages of one transaction (R298: a home handles one transaction of a line at a time). -/
def State.settle (s : State) : State := settleFabric 600 s

/-- A new L1 entry. -/
def L1Line.fresh (way t : Nat) (x : BitVec 1024) (p : Bool) (k : Keep) (coh : BitVec 2) : L1Line :=
  { way := way, stamp := t, epri := k.epri, cmp := k.cmp, coh := coh, data := x, dirty := 0, mark := 0, poison := p, modified := false,
    next := none, prev := none, leaving := false }

/-- A member evicts its copy: it keeps its pointers until the home has acknowledged its LEAVE, and every message of the LEAVE is
delivered (R298). -/
def State.leaveNow (s : State) (line : Nat) (m : Member) : State :=
  let s := s.modMember line m (fun e => { e with leaving := true }) (fun e => { e with leaving := true })
  (s.send (memberDie m) (.leave line m)).settle

/-- Make room for a line in its L1 set: while the set has as many lines as the L1 has ways, the victim of R280 goes, a dirty
SELFINV line written back, a TRACKED line leaving its list. -/
def l1MakeRoom : Nat → Nat → Nat → State → State
  | 0, _, _, s => s
  | k + 1, core, line, s =>
    let inSet := (s.core core).l1.filter fun p => l1Set p.1 = l1Set line
    if inSet.length < s.waysOf core then s
    else
      match leastBy victimBefore inSet with
      | none => s
      | some (v, e) =>
        let s := if e.coh = 0 then s.leaveNow v (.core core)
          else (s.l1WriteBack core v).modCore core fun c => { c with l1 := c.l1.erase v }
        l1MakeRoom k core line s

/-- The lowest way of the set that no line uses. -/
def freeWay (used : List Nat) (n : Nat) : Nat := ((List.range n).find? fun w => !used.contains w).getD 0

/-- Put a line into a core's L1. -/
def State.l1Insert (s : State) (core line : Nat) (x : BitVec 1024) (p : Bool) (k : Keep) (coh : BitVec 2) : State :=
  let s := l1MakeRoom 48 core line s
  let used := ((s.core core).l1.filter fun q => l1Set q.1 = l1Set line).map fun q => q.2.way
  let way := freeWay used (s.waysOf core)
  s.modCore core fun c => { c with l1 := c.l1.set line (L1Line.fresh way s.time x p k coh) }

/-- The M head of a list gives up M by a FETCH (R297). -/
def State.fetchHead (s : State) (line : Nat) (m : Member) : State :=
  match s.listHead line m with
  | some h =>
    match s.memberLinks line (peerOf m h) with
    | some (_, _, true) => (s.send (s.listDie line m) (.fetch line (peerOf m h) false)).settle
    | _ => s
  | none => s

/-- Is a member in the list of a line? -/
def State.isMember (s : State) (line : Nat) (m : Member) : Bool :=
  match s.memberLinks line m, m with
  | none, _ => false
  | some _, .core _ => true
  | some (_, pv, _), .die d => (s.home line).head == some d || pv.isSome

/-- A member's SELFINV copy gives way to a TRACKED one, its dirty bytes written back (R125). -/
def State.shedCopy (s : State) (line : Nat) : Member → State
  | .core c =>
    if ((s.core c).l1.get? line).any fun e => e.coh == 1 then (s.l1WriteBack c line).modCore c fun x => { x with l1 := x.l1.erase line } else s
  | .die d =>
    if ((s.die d).l2.get? line).any fun e => e.coh == 1 then (s.l2WriteBack d line).modDie d fun x => { x with l2 := x.l2.erase line } else s

/-- A member uses its copy of a line (R280). -/
def State.useCopy (s : State) (line : Nat) (m : Member) (k : Keep) : State :=
  s.modMember line m (fun e => { e with stamp := s.time, epri := k.epri, cmp := k.cmp })
    (fun e => { e with stamp := s.time, epri := k.epri, cmp := k.cmp })

/-- JOIN at a list's home: an M copy is fetched and becomes S, at a line's home also that of a core of the home die; the requester becomes the
head in S, and the old head is told (R297). The requester's copy stands in its L1 or its die's L2. -/
def onJoin (line : Nat) (m : Member) (k : Keep) (s : State) : State :=
  if s.isMember line m then s.useCopy line m k
  else
    let s := s.shedCopy line m
    let old := s.listHead line m
    let s := match m with
      | .core _ => s.fetchHead line m
      | .die _ => (s.fetchHead line m).fetchHead line (.core (s.homeDie (line * 128) * 32))
    let x := s.lineData line
    let p := s.linePoisoned line
    let s := match m with
      | .core c => s.l1Insert c line x p k 0
      | .die d => s.modDie d fun y =>
          let e := y.l2.getD line (L2Line.fresh s.time x p k 0)
          { y with l2 := y.l2.set line { e with data := x, poison := p, coh := 0 } }
    let s := onSetnext line m old (s.forgetPtrs line m)
    let s := s.setListHead line m (some (memberNum m))
    match old with
    | some h => (s.send (s.listDie line m) (.setprev line (peerOf m h) (some (memberNum m)))).settle
    | none => s

/-- Purge a whole list (R297): PURGE to its head, forwarded until PURGED returns. -/
def State.purgeList (s : State) (line : Nat) (m : Member) : State :=
  match s.listHead line m with
  | some h => (s.send (s.listDie line m) (.purge line (peerOf m h))).settle
  | none => s

/-- UPG at a list's home: the list is purged and the requester becomes the sole member, in M (R297). -/
def onUpg (line : Nat) (m : Member) (k : Keep) (s : State) : State :=
  match s.memberLinks line m with
  | some (none, none, true) => s.useCopy line m k
  | _ =>
    let keep := match m with
      | .core _ => none
      | .die d => ((s.die d).l2.get? line).bind fun e => e.head
    let s := match m with
      | .core _ => s.purgeList line m
      | .die d =>
        -- the requester's own cores keep their list while other dies are purged
        let s := s.modDie d fun y =>
          match y.l2.get? line with
          | some e => { y with l2 := y.l2.set line { e with head := none } }
          | none => y
        s.purgeList line m
    let s := onJoin line m k s
    let s := match m with
      | .core _ => s
      | .die d => s.modDie d fun y =>
          match y.l2.get? line with
          | some e => { y with l2 := y.l2.set line { e with head := keep } }
          | none => y
    s.modMember line m (fun e => { e with modified := true }) (fun e => { e with modified := true })

/-- Every copy of a TRACKED line dropped: the home's list of dies and the list of the home die's own cores (R297, R299). -/
def State.purgeAll (s : State) (line : Nat) : State :=
  let s := s.purgeList line (.die 0)
  s.purgeList line (.core (s.homeDie (line * 128) * 32))

/-! ## What one core reads and writes -/

/-- A page as an access sees it: where the byte lies and how its line is treated (R289). -/
structure Page where
  pa : Nat
  epri : BitVec 2
  coh : BitVec 2
  clvl : BitVec 2
  wt : Bool
  cmp : Bool
deriving DecidableEq, Repr

/-- How a page asks its lines to be kept. -/
def Page.keep (p : Page) : Keep := ⟨p.epri, p.cmp⟩

/-- A core's TRACKED copy for reading: the die joins the home's list, the core joins its die's list (R297). -/
def State.trackRead (s : State) (core line : Nat) (p : Page) : State :=
  let d := dieOf core
  let home := s.homeDie (line * 128)
  let s := if d = home then s.fetchHead line (.die d) else onJoin line (.die d) p.keep s
  if p.clvl = 0 then onJoin line (.core core) p.keep s else s

/-- A core's TRACKED copy for writing: sole member at both levels (R297). -/
def State.trackWrite (s : State) (core line : Nat) (p : Page) : State :=
  let d := dieOf core
  let home := s.homeDie (line * 128)
  let s := if d = home then s.purgeList line (.die d)
    else
      let s := s.purgeList line (.core (home * 32))
      onUpg line (.die d) p.keep s
  if p.clvl = 0 then onUpg line (.core core) p.keep s else s.purgeList line (.core core)

/-- A core's own L1 copy of a line gives way to an access that may not use it: one under another treatment, or one that the page keeps
out of the L1 (R125, R296). Its dirty bytes are written back. -/
def State.fitL1 (s : State) (core : Nat) (p : Page) : State :=
  let line := lineOf p.pa
  match (s.core core).l1.get? line with
  | none => s
  | some e =>
    if e.coh == p.coh && (e.coh == 0 || p.clvl == 0) then s
    else if e.coh = 0 then s.leaveNow line (.core core)
    else (s.l1WriteBack core line).modCore core fun c => { c with l1 := c.l1.erase line }

/-- The same for the copy in the L2 of the core's die of a line homed on another die. -/
def State.fitL2 (s : State) (core : Nat) (p : Page) : State :=
  let line := lineOf p.pa
  let d := dieOf core
  if s.homeDie p.pa = d then s
  else match (s.die d).l2.get? line with
    | none => s
    | some e =>
      if e.coh == p.coh && p.clvl != 2 then s
      else if e.coh = 0 then (s.purgeList line (.core core)).leaveNow line (.die d)
      else (s.l2WriteBack d line).modDie d fun x => { x with l2 := x.l2.erase line }

/-- An access of a core under a page's treatment: the core's own copies fit it, and the home slice holds the line when the L1 does not
(R125, R282). -/
def State.reach (s : State) (core : Nat) (p : Page) : State :=
  let s := (s.fitL1 core p).fitL2 core p
  if ((s.core core).l1.get? (lineOf p.pa)).isSome then s else s.homeTouch (lineOf p.pa) p.keep

/-- A core uses its L1's copy of a line (R280). -/
def State.usedL1 (s : State) (core line : Nat) : State :=
  s.modCore core fun c =>
    match c.l1.get? line with
    | some e => { c with l1 := c.l1.set line { e with stamp := s.time } }
    | none => c

/-- The line as the core's loads see it, and its poison. -/
def State.coreLine (s : State) (core : Nat) (p : Page) : BitVec 1024 × Bool × State :=
  let line := lineOf p.pa
  let s := s.reach core p
  if p.coh = 2 || p.clvl = 2 then (s.lineData line, s.linePoisoned line, s)
  else if p.coh = 0 then
    let s := (s.trackRead core line p).usedL1 core line
    (s.lineData line, s.linePoisoned line, s)
  else if p.clvl = 1 then s.l2Read (dieOf core) line p.keep
  else
    match (s.core core).l1.get? line with
    | some e => (e.data, e.poison, s.usedL1 core line)
    | none =>
      let (x, q, s) := s.l2Read (dieOf core) line p.keep
      (x, q, s.l1Insert core line x q p.keep 1)

/-- The SELFINV copies of a line that other cores' L1s and other dies' L2s hold are written back and dropped. -/
def State.dropOthers (s : State) (core line : Nat) : State :=
  let s := s.cores.foldl (fun s c =>
    if c.1 ≠ core && (c.2.l1.get? line).any (fun e => e.coh == 1) then
      (s.l1WriteBack c.1 line).modCore c.1 fun x => { x with l1 := x.l1.erase line }
    else s) s
  s.dies.foldl (fun s d =>
    if d.1 ≠ dieOf core && (d.2.l2.get? line).any (fun e => e.coh == 1) then
      (s.l2WriteBack d.1 line).modDie d.1 fun x => { x with l2 := x.l2.erase line }
    else s) s

/-- A store on a write-through page is forwarded to the line's home (R296), where it is a transaction of the line: no other agent keeps an
older copy, so that it becomes visible to every core's loads (R126; log 81). The die's own copy takes the bytes. -/
def State.throughStore (s : State) (core : Nat) (p : Page) (n v : Nat) : State :=
  let line := lineOf p.pa
  let s := (((s.homeTouch line p.keep).dropOthers core line).purgeAll line).memWrite p.pa (toBytes n v)
  s.modMember line (.die (dieOf core)) id fun e => { e with data := lineSet e.data (p.pa % 128) n v }

/-- `n` bytes of one line from the address of the page, stored by a core (R296, R299). The bytes do not cross a line. -/
def State.coreStore (s : State) (core : Nat) (p : Page) (n v : Nat) : State :=
  let line := lineOf p.pa
  let k := p.pa % 128
  if p.coh = 2 || p.clvl = 2 then ((s.reach core p).purgeAll line).memWrite p.pa (toBytes n v)
  else if p.coh = 0 then
    let s := ((s.reach core p).trackWrite core line p).usedL1 core line
    let s := s.memWrite p.pa (toBytes n v)
    if p.clvl = 0 then s.modMember line (.core core) (fun e => { e with data := lineSet e.data k n v }) id else s
  else if p.clvl = 1 then
    let s := s.reach core p
    if p.wt then s.throughStore core p n v else s.l2Merge (dieOf core) line (lineSet 0 k n v) (byteMask k n) p.keep
  else
    let (_, _, s) := s.coreLine core p
    let s := if p.wt then s.throughStore core p n v else s
    s.modCore core fun c =>
      match c.l1.get? line with
      | some e =>
        let e := { e with data := lineSet e.data k n v }
        let e := if p.wt then e
          else { e with dirty := e.dirty ||| byteMask k n, mark := if e.dirty = 0 then c.relC else e.mark }
        { c with l1 := c.l1.set line e }
      | none => c

/-- The core's own dirty bytes of a line go to the home before the home acts on it, in the core's program order (R117). -/
def State.flushOwn (s : State) (core line : Nat) : State :=
  let s := s.l1WriteBack core line
  s.l2WriteBack (dieOf core) line

/-- The acting core's own copies of a line, which a transaction at the home has made clean, take the home's bytes, so that its
later loads read nothing older than the transaction did (R117). -/
def State.refresh (s : State) (core line : Nat) : State :=
  let x := s.lineData line
  let p := s.linePoisoned line
  let s := s.modMember line (.core core) (fun e => { e with data := x, poison := p }) id
  s.modMember line (.die (dieOf core)) id (fun e => { e with data := x, poison := p })

/-- Bytes changed at the home by a transaction there: the TRACKED lists are purged, memory is written, and the acting core's own
SELFINV copies see the bytes (R189, R299). -/
def State.homeWrite (s : State) (core pa n v : Nat) : State :=
  let line := lineOf pa
  let s := s.flushOwn core line
  let s := s.purgeAll line
  (s.memWrite pa (toBytes n v)).refresh core line

/-! ## Releases and acquires at the home (R299, R300) -/

/-- A core writes back to its die's L2 every dirty SELFINV line marked below RSEQ (R300). -/
def onRecall (core : Nat) (rseq : BitVec 32) (s : State) : State := s.l1WriteBackIf core fun m => markBelow m rseq

/-- The recalled core has acknowledged: RD is set (R300). -/
def onRecallAck (line : Nat) (s : State) : State := s.modHome line fun h => { h with rd := true }

/-- The record of a release: C grows, the home records the core and the sequence (R299). -/
def State.recordRelease (s : State) (core line : Nat) : State :=
  let c := (s.core core).relC + 1
  let s := if c.toNat % 2 ^ 30 = 0 then s.l1WriteBackIf core fun m => (c - m).toNat ≥ 2 ^ 30 else s
  let s := s.modCore core fun x => { x with relC := c }
  s.modHome line fun h => { h with rv := true, rcore := BitVec.ofNat 8 core, rseq := c, rd := false, lost := false }

/-- Every dirty SELFINV line of the device goes to its home: what a recall of every core brings (R300, R304). -/
def State.recallAll (s : State) : State :=
  let s := (s.cores.map Prod.fst).foldl State.l1WriteBackAll s
  (s.dies.map Prod.fst).foldl State.l2WriteBackAll s

/-- A TRACKED line that a core or its die's L2 holds in M is written back to CXL memory, and the copies become S (R197, R302). -/
def State.cleanTracked (s : State) (core line : Nat) : State :=
  (onFetch line (.core core) false (onFetch line (.die (dieOf core)) false s)).cleanHome line

/-- A SYSTEM release first writes back to memory every dirty line that the core and its die hold, homed there or on another die
(R302). -/
def State.systemRelease (s : State) (core : Nat) : State :=
  let s := s.l1WriteBackAll core
  let tracked := ((s.core core).l1.filter fun e => e.2.modified).map Prod.fst ++
    ((s.die (dieOf core)).l2.filter fun e => e.2.modified).map Prod.fst
  let s := tracked.foldl (fun s line => s.cleanTracked core line) s
  let far := ((s.die (dieOf core)).l2.filter fun e => e.2.dirty != 0).map Prod.fst
  let s := far.foldl State.cleanHome (s.l2WriteBackAll (dieOf core))
  s.cleanHomes (dieOf core)

/-- A SYSTEM acquire drops the SELFINV copies of the core's L1 and of every die's L2 (R302). -/
def State.systemAcquire (s : State) (core : Nat) : State :=
  let s := s.l1DropSelfinv core
  (List.range 8).foldl (fun s d => s.l2DropSelfinv d) s

/-- The recall that a line's record asks for: the recorded core writes back what its release covers, and its die's L2 sends on what is
homed on other dies; RD is then set (R300). A struck record recalls every core of the device (R304). -/
def State.recallRecord (s : State) (line : Nat) : State :=
  let h := s.home line
  if h.lost then s.recallAll.modHome line fun h => { h with rd := true, lost := false }
  else if h.rv && !h.rd then
    let r := h.rcore.toNat
    onRecallAck line ((onRecall r h.rseq s).l2WriteBackAll (dieOf r))
  else s

/-- An acquire's transaction at the home, before the value is read: the recall, when the record names another core (R300). -/
def State.homeAcquire (s : State) (core line : Nat) : State :=
  let s := s.flushOwn core line
  let h := s.home line
  if h.lost || h.rcore.toNat ≠ core then s.recallRecord line else s

/-- After an acquire: the acquiring core drops its SELFINV copies, and its die the copies of lines homed on other dies (R300 asks
the latter when the releaser lies on another die; in the other cases it is an eviction, which changes no outcome but makes the
rule of R122 hold for values that continue an earlier release: log 41). -/
def State.acquireDone (s : State) (core : Nat) : State := (s.l1DropSelfinv core).l2DropSelfinv (dieOf core)

/-- An acquire fence takes the place of the loads before it, whatever releases they read: every release that they may have read is
recalled, and the core's own copies are dropped (R122, R195; log 82). -/
def State.fenceAcquire (s : State) (core : Nat) : State := s.recallAll.acquireDone core

/-- The line as a die's L2 holds it, with its poison. -/
def State.l2View (s : State) (die line : Nat) : BitVec 1024 × Bool :=
  match (s.die die).l2.get? line with
  | some e => if e.coh = 1 then (e.data, e.poison) else (s.lineData line, s.linePoisoned line)
  | none => (s.lineData line, s.linePoisoned line)

/-- An L2's copy of a SELFINV line as it is when every byte that it has not to write back is read again (`x`, `q`): none when that is all of
it. -/
def L2Line.anew (e : L2Line) (x : BitVec 1024) (q : Bool) : Option L2Line :=
  if e.coh ≠ 1 then (some e)
  else if e.dirty = 0 then none
  else some { e with data := mergeLine x e.data e.dirty, poison := e.poison || q }

/-- The same of an L1's copy. -/
def L1Line.anew (e : L1Line) (x : BitVec 1024) (q : Bool) : Option L1Line :=
  if e.coh ≠ 1 then (some e)
  else if e.dirty = 0 then none
  else some { e with data := mergeLine x e.data e.dirty, poison := e.poison || q }

/-- A core and its die look anew at every byte of their SELFINV copies that they have not written themselves. Nothing is written back
(R124). -/
def State.freshen (s : State) (core : Nat) : State :=
  let d := dieOf core
  let s := s.modDie d fun y =>
    { y with l2 := y.l2.filterMap fun p => (p.2.anew (s.lineData p.1) (s.linePoisoned p.1)).map fun e => (p.1, e) }
  s.modCore core fun c =>
    { c with l1 := c.l1.filterMap fun p => (p.2.anew (s.l2View d p.1).1 (s.l2View d p.1).2).map fun e => (p.1, e) }

/-- A release RMW that takes the place of another core's release in the record of its line: that core is recalled first, and the releasing
core looks anew at its copies, so that an acquire of the RMW's value also acquires the release that the record held (R122). Nothing else is
flushed (R124). -/
def State.continueRelease (s : State) (core line : Nat) : State :=
  let h := s.home line
  if h.rv && h.rcore.toNat ≠ core then ((s.flushOwn core line).recallRecord line).freshen core else s

/-- Does an acquire on this core read as a plain load (R300)? -/
def State.acquireLocal (s : State) (core line : Nat) : Bool :=
  let h := s.home line
  h.rv && !h.lost && h.rcore.toNat = core

/-- The value of a line for an acquire: a plain load's on the recorded core, the home's elsewhere (R300). -/
def State.acquireLine (s : State) (core : Nat) (p : Page) : BitVec 1024 × Bool × State :=
  let line := lineOf p.pa
  if s.acquireLocal core line then s.coreLine core p
  else
    let s := s.homeAcquire core line
    let s := if p.coh = 0 then (s.coreLine core p).2.2 else s.refresh core line
    (s.lineData line, s.linePoisoned line, s)

/-- A release fence inside the module: every dirty SELFINV line of the core and of its die goes to its home, so that a later store
of the thread may be acquired anywhere (R122, R123). -/
def State.fenceRelease (s : State) (core : Nat) : State := (s.l1WriteBackAll core).l2WriteBackAll (dieOf core)

/-- An eager release by a core: its dirty SELFINV lines go to its die's L2 (R301). -/
def State.eagerRelease (s : State) (core : Nat) : State := s.l1WriteBackAll core

/-- The completing waiter's side of an eager release (R301). -/
def State.eagerAcquire (s : State) (core : Nat) : State := s.l1DropSelfinv core

/-! ## The device's own accesses (R275, R276, R310, R316) -/

/-- The SYSTEM-scope acquire of a value that the device reads: the recall that the line's record asks for, and no die's L2 keeps a copy of a
SELFINV line homed on another (R300, R302, R310). -/
def State.deviceAcquire (s : State) (line : Nat) : State := (List.range 8).foldl (fun s d => s.l2DropSelfinv d) (s.recallRecord line)

/-- The SYSTEM-scope release of a value that the device has written: what a core's earlier release left in the line's record is recalled and
the record lapses, so that an acquire of the value reads it at the home on every core; the line is written back (R299, R300, R302). -/
def State.deviceRelease (s : State) (line : Nat) : State :=
  ((s.recallRecord line).modHome line fun h => { h with rv := false }).cleanHome line

/-- Everything written back and every L1 emptied: the kernel boundary of R128. -/
def State.flushDevice (s : State) : State :=
  let s := (s.cores.map Prod.fst).foldl State.l1WriteBackAll s
  let s := (List.range 8).foldl (fun s d => s.l2DropSelfinv d) s
  let s := (s.cores.map Prod.fst).foldl (fun s c =>
    (s.core c).l1.foldl (fun s p => if p.2.coh = 0 then s.leaveNow p.1 (.core c) else s) s) s
  { s with cores := s.cores.mapAll fun _ x => { x with l1 := [] } }

/-! ## The sets of an L2 (R282 to R284) -/

/-- Sets of each slice of a die that cache memory: the function store's records take 512 bytes each, evenly from the 64 slices, and a set
is 2,048 bytes (R282, R283). -/
def State.l2Sets (s : State) (die : Nat) : Nat := 3072 - (s.die die).fstsize / 256

/-- The set of a line within its slice (log 80). -/
def State.l2SetOf (s : State) (die line : Nat) : Nat := Config.l2Set line (s.l2Sets die) % s.l2Sets die

/-- The lines that a die's slices hold, with their eviction priority and the time of their last use: copies of lines homed on other dies,
and lines homed there. -/
def State.l2Lines (s : State) (die : Nat) : List (Nat × BitVec 2 × Nat) :=
  let d := s.die die
  ((d.l2.filter fun e => (d.held.get? e.1).isNone).map fun e => (e.1, e.2.epri, e.2.stamp)) ++
    d.held.map fun h => (h.1, h.2.epri, h.2.stamp)

/-- A victim of an L2, when some set holds more lines than its 16 ways: the lowest eviction priority, then the least recently used, of those
that are not pinned (R280, R282, R284). -/
def State.l2Victim (s : State) (die : Nat) : Option Nat :=
  let ls := s.l2Lines die
  if ls.length ≤ 16 then none
  else (List.range 64).findSome? fun k =>
    let slice := ls.filter fun x => sliceOf (x.1 * 128) = k
    if slice.length ≤ 16 then none
    else slice.findSome? fun x =>
      let set := slice.filter fun y => s.l2SetOf die y.1 = s.l2SetOf die x.1
      if set.length ≤ 16 then none
      else (leastBy (fun a b => a.2.1 < b.2.1 || (a.2.1 == b.2.1 && a.2.2 ≤ b.2.2))
        (set.filter fun y => !(s.die die).pins.contains y.1)).map Prod.fst

/-- A line leaves a die's L2. A line homed there is recalled first when its record asks for it, and the record lapses (R300); its lists are
purged, and it is written back to CXL memory. A copy of a line homed elsewhere is written back to its home, or leaves its list. -/
def State.l2Evict (s : State) (die line : Nat) : State :=
  if s.homeDie (line * 128) = die then
    let s := (s.recallRecord line).modHome line fun h => { h with rv := false }
    let s := (s.purgeAll line).cleanHome line
    s.modDie die fun d => { d with held := d.held.erase line, l2 := d.l2.erase line }
  else
    match (s.die die).l2.get? line with
    | none => s.modDie die fun d => { d with held := d.held.erase line }
    | some e =>
      if e.coh = 0 then (s.purgeList line (.core (die * 32))).leaveNow line (.die die)
      else (s.l2WriteBack die line).modDie die fun d => { d with l2 := d.l2.erase line }

/-- Lines leave a die's L2 until no set holds more than its ways; at most `k`. -/
def trimDie : Nat → Nat → State → State
  | 0, _, s => s
  | k + 1, die, s =>
    match s.l2Victim die with
    | none => s
    | some line => trimDie k die (s.l2Evict die line)

/-- Every L2 within its sets. -/
def State.trimL2 (s : State) : State :=
  (s.dies.map Prod.fst).foldl (fun s d => trimDie ((s.l2Lines d).length) d s) s

/-- The tile fetch unit pins a line for the engine. A set has at most 8 pinned lines: with 8 there, the fetch waits until the one pinned first
has been consumed (R284). -/
def State.pinLine (s : State) (die line : Nat) : State :=
  let pins := (s.die die).pins
  if pins.contains line then s
  else
    let slice := pins.filter fun x => sliceOf (x * 128) = sliceOf (line * 128)
    let set := if slice.length < 8 then [] else slice.filter fun x => s.l2SetOf die x = s.l2SetOf die line
    let pins := match set with
      | x :: rest => if rest.length < 7 then pins else pins.filter (· != x)
      | [] => pins
    s.modDie die fun d => { d with pins := pins ++ [line] }

/-- The engine has consumed the lines that were pinned for it. -/
def State.unpin (s : State) (die : Nat) : State := s.modDie die fun d => { d with pins := [] }

end Sys2Proof.Machine
end

