-- ==== Sys2Proof/Machine/Translate.lean ====
section
/-!
DEFINITION. Trap causes (R88); address translation: the ASID context table, the four-level walk and its checks, TLBs, the AC and D
updates (R287 to R293); and the checks of an access in the order of R180.
-/
namespace Sys2Proof.Machine

/-! ## Trap causes (R88) -/

/-- ILLEGAL -/
def cIllegal : BitVec 8 := 0x01
/-- RESBITS -/
def cResbits : BitVec 8 := 0x02
/-- REGLIMIT -/
def cReglimit : BitVec 8 := 0x03
/-- BARLIMIT -/
def cBarlimit : BitVec 8 := 0x04
/-- SCRBOUND -/
def cScrbound : BitVec 8 := 0x05
/-- LATCH -/
def cLatch : BitVec 8 := 0x06
/-- ALIGN -/
def cAlign : BitVec 8 := 0x07
/-- XLATE -/
def cXlate : BitVec 8 := 0x08
/-- PROT -/
def cProt : BitVec 8 := 0x09
/-- POISON -/
def cPoison : BitVec 8 := 0x0A
/-- ORDRMW -/
def cOrdrmw : BitVec 8 := 0x0B
/-- FPX -/
def cFpx : BitVec 8 := 0x0C
/-- OVLXFER -/
def cOvlxfer : BitVec 8 := 0x0D
/-- PROPNEST -/
def cPropnest : BitVec 8 := 0x0E
/-- FSTBAD -/
def cFstbad : BitVec 8 := 0x0F
/-- CARD -/
def cCard : BitVec 8 := 0x10
/-- ENGFAULT -/
def cEngfault : BitVec 8 := 0x11
/-- EPIFAULT -/
def cEpifault : BitVec 8 := 0x12
/-- SWTRAP -/
def cSwtrap : BitVec 8 := 0x13
/-- BANKMODE -/
def cBankmode : BitVec 8 := 0x14
/-- SUPERONLY -/
def cSuperonly : BitVec 8 := 0x15
/-- CVBAD -/
def cCvbad : BitVec 8 := 0x16

/-- The causes that Foreman handles (R88). -/
def foremanCause (c : BitVec 8) : Bool :=
  c == cXlate || c == cProt || c == cPoison || c == cEngfault || c == cEpifault

/-! ## Page-table entries (R289) -/

/-- The physical address that an entry names. -/
def pteAddr (e : Word) : Nat := wbits e 51 14 * 16384
/-- V -/
def pteV (e : Word) : Bool := wbit e 0
/-- LEAF -/
def pteLeaf (e : Word) : Bool := wbit e 1
/-- RD -/
def pteRd (e : Word) : Bool := wbit e 5
/-- W -/
def pteW (e : Word) : Bool := wbit e 6
/-- AC -/
def pteAc (e : Word) : Bool := wbit e 7
/-- D -/
def pteD (e : Word) : Bool := wbit e 8
/-- SEL -/
def pteSel (e : Word) : Bool := wbit e 9
/-- SST -/
def pteSst (e : Word) : Bool := wbit e 10
/-- SFL -/
def pteSfl (e : Word) : Bool := wbit e 11
/-- SUP -/
def pteSup (e : Word) : Bool := wbit e 52
/-- CODE -/
def pteCode (e : Word) : Bool := wbit e 53
/-- SHD -/
def pteShd (e : Word) : Bool := wbit e 54
/-- ORD -/
def pteOrd (e : Word) : Bool := wbit e 55
/-- CMP -/
def pteCmp (e : Word) : Bool := wbit e 56

/-- EPRI and CMP of a leaf (R289). -/
def pteKeep (e : Word) : Keep := ⟨BitVec.ofNat 2 (wbits e 63 62), pteCmp e⟩
/-- WT -/
def pteWt (e : Word) : Bool := wbit e 57

/-- log2 of the page size of a leaf at this level (R288). -/
def pageShift (level : Nat) : Nat := 47 - 11 * level

/-- The entry's checks of R290 at a level: true when the walk raises XLATE. -/
def pteBad (e : Word) (level : Nat) : Bool :=
  !pteV e ||
  (if pteLeaf e then
    level = 0 || wbits e 13 12 ≠ 0 || wbits e 4 2 ≠ 0 || wbits e 59 58 = 3 || wbits e 61 60 = 3 ||
    (wbits e 59 58 = 2 && wbits e 61 60 ≠ 2) || ((pteSst e || pteSfl e) && !pteShd e) ||
    pteAddr e % 2 ^ (pageShift level + (if pteShd e then 1 else 0)) ≠ 0
  else level = 3 || e.toNat ≠ wbits e 51 14 * 16384 + 1)

/-- An address whose bits [63:58] equal bit 57 (R42). -/
def canonical (va : Word) : Bool := wbits va 63 57 = 0 || wbits va 63 57 = 127

/-- A completed walk. -/
structure Leaf where
  pte : Word
  pteAt : Nat
  level : Nat
deriving DecidableEq, Repr

/-- Why a translation fails: none, the virtual address is reported; some, the physical address that lies in no window (R285). -/
abbrev WalkFail := Option Nat

/-- The levels of a walk from `level`, reading entries at their homes (R288, R290, R292). -/
def walkFrom (s : State) (va : Word) : Nat → Nat → Nat → Except WalkFail Leaf
  | 0, _, _ => .error none
  | k + 1, level, table =>
    let at_ := table + 8 * bits va.toNat (57 - 11 * level) (47 - 11 * level)
    if (s.windowOf at_).isNone then .error (some at_)
    else
      let e : Word := BitVec.ofNat 64 (readNat s.mem at_ 8)
      if pteBad e level then .error none
      else if pteLeaf e then .ok ⟨e, at_, level⟩
      else walkFrom s va k (level + 1) (pteAddr e)

/-- The ASID's context entry (R287). -/
def State.asidEntry (s : State) (asid : BitVec 12) : AsidEntry := s.asids.getD asid.toNat AsidEntry.reset

/-- A walk (R287 to R290). -/
def walk (s : State) (asid : BitVec 12) (va : Word) : Except WalkFail Leaf :=
  let e := s.asidEntry asid
  if !e.valid || !canonical va then .error none else walkFrom s va 4 0 (e.root.toNat * 16384)

/-- The page number of an address at a level. -/
def pageOf (va : Word) (level : Nat) : Nat := bits va.toNat 57 0 / 2 ^ pageShift level

/-- A TLB's entry for an address (R292). -/
def tlbFind (tlb : List TlbEntry) (asid : BitVec 12) (va : Word) : Option TlbEntry :=
  tlb.find? fun e => e.asid == asid && e.page == pageOf va e.level

/-- Put an entry in front, dropping the oldest beyond the size. -/
def tlbInsert (size : Nat) (e : TlbEntry) (tlb : List TlbEntry) : List TlbEntry :=
  (e :: tlb.filter fun x => !(x.asid == e.asid && x.page == e.page && x.level == e.level)).take size

/-- Write a page-table entry at its home (R291). -/
def State.writePte (s : State) (at_ : Nat) (e : Word) : State :=
  (s.purgeAll (lineOf at_)).memWrite at_ (toBytes 8 e.toNat)

/-- Install a leaf in the core's TLB and the die's (R292). -/
def State.tlbFill (s : State) (core : Nat) (asid : BitVec 12) (va : Word) (l : Leaf) : State :=
  let e : TlbEntry := ⟨asid, pageOf va l.level, l.level, l.pte, l.pteAt⟩
  let s := s.modCore core fun c => { c with tlb := tlbInsert 256 e c.tlb }
  s.modDie (dieOf core) fun d => { d with tlb := tlbInsert 16384 e d.tlb }

/-- A walk whose leaf is loaded into the TLBs, AC set first (R291). -/
def walkFill (s : State) (core : Nat) (asid : BitVec 12) (va : Word) : Except WalkFail Leaf × State :=
  match walk s asid va with
  | .error f => (.error f, s)
  | .ok l =>
    let e := l.pte ||| 0x80#64
    let s := if pteAc l.pte then s else s.writePte l.pteAt e
    let l := { l with pte := e }
    (.ok l, s.tlbFill core asid va l)

/-- A translation through the core's TLB, the die's TLB, or a walk (R292). -/
def translate (s : State) (core : Nat) (asid : BitVec 12) (va : Word) : Except WalkFail Leaf × State :=
  if !(s.asidEntry asid).valid || !canonical va then (.error none, s)
  else
    match tlbFind (s.core core).tlb asid va with
    | some e => (.ok ⟨e.pte, e.pteAt, e.level⟩, s)
    | none =>
      match tlbFind (s.die (dieOf core)).tlb asid va with
      | some e => (.ok ⟨e.pte, e.pteAt, e.level⟩, s.modCore core fun c => { c with tlb := tlbInsert 256 e c.tlb })
      | none => walkFill s core asid va

/-- D is set before the first write through a translation (R291). -/
def setDirty (s : State) (core : Nat) (asid : BitVec 12) (va : Word) (l : Leaf) : Leaf × State :=
  let l := { l with pte := l.pte ||| 0x100#64 }
  (l, (s.writePte l.pteAt l.pte).tlbFill core asid va l)

/-! ## Accesses -/

/-- The kinds of access that R290 tells apart. -/
inductive AccessKind where
  | load
  | store
  /-- ATOM and CAS. -/
  | rmw
  /-- RED and the DONEEV addition. -/
  | update
  /-- EVSIG: as `update`, and an ORDERED page raises ORDRMW. -/
  | signal
  /-- EVWAIT: as `load`, and an ORDERED page raises ORDRMW. -/
  | counter
  /-- An engine write into a shadow. -/
  | shadow
deriving DecidableEq, Repr

/-- Does the access write? -/
def AccessKind.writes : AccessKind → Bool
  | .load | .counter => false
  | _ => true

/-- The leaf refuses the access: PROT (R290). -/
def protRefuses (k : AccessKind) (e : Word) : Bool :=
  match k with
  | .load | .counter => !pteRd e
  | .store | .update | .signal => !pteW e || pteCode e
  | .rmw => !pteRd e || !pteW e || pteCode e
  | .shadow => !pteShd e || !pteW e || pteCode e

/-- An ORDERED page gives ORDRMW to this access (R180, R279). -/
def ordRefuses (k : AccessKind) (e : Word) : Bool :=
  match k with
  | .rmw | .signal | .counter => pteOrd e
  | _ => false

/-- Where an access that passes its checks goes. -/
inductive Place where
  /-- Offset in the gang's scratchpad. -/
  | scratch (off : Nat)
  /-- A page of memory; `ordered` and `cmp` as the leaf says. -/
  | global (page : Page) (ordered cmp : Bool) (leaf : Option Leaf)
deriving DecidableEq, Repr

/-- A failed check: cause and reported address. -/
structure Failure where
  cause : BitVec 8
  addr : Word
deriving DecidableEq, Repr

/-- First address of the scratchpad window (R42). -/
def scratchBase : Nat := 0xFFFFFFFFFF000000

/-- Offset in the scratchpad window, for an address that lies in it (R42). -/
def scratchOffset (va : Word) : Option Nat :=
  if scratchBase ≤ va.toNat then some (va.toNat - scratchBase) else none

/-- Who accesses: the gang, the core, the ASID and the privilege. -/
structure Who where
  gang : Nat
  core : Nat
  asid : BitVec 12
  sup : Bool
deriving DecidableEq, Repr

/-- A gang's record. -/
def State.gang (s : State) (g : Nat) : Gang := s.gangs.getD g Gang.reset
/-- Change a gang's record. -/
def State.modGang (s : State) (g : Nat) (f : Gang → Gang) : State := { s with gangs := s.gangs.set g (f (s.gang g)) }

/-- Does the piece of a scratchpad offset have a bank (R202)? -/
def pieceMapped (g : Gang) (off : Nat) : Bool :=
  let p := off / 16384
  g.banks.getD (p % g.ncore * 48 + p / g.ncore) .unmapped == .scratch

/-- Checks 2 and 3 of R180 on a scratchpad access. -/
def checkScratch (g : Gang) (va : Word) (off size : Nat) : Except Failure Place :=
  if off + size > g.hdr.scratch then .error ⟨cScrbound, va⟩
  else if !pieceMapped g off then .error ⟨cBankmode, va⟩
  else .ok (.scratch off)

/-- The half of a shadow pair that a leaf's accesses reach: the live half, or the other one for a shadow write (R294). -/
def leafPa (l : Leaf) (va : Word) (shadow : Bool) : Nat :=
  let off := va.toNat % 2 ^ pageShift l.level
  let half := if pteShd l.pte && (pteSel l.pte != shadow) then 2 ^ pageShift l.level else 0
  pteAddr l.pte + half + off

/-- Foreman's mapping of a gang's context region (R324). -/
def State.ctxMapOf (s : State) (asid : BitVec 12) (va : Word) : Option CtxMap :=
  s.ctxMaps.find? fun m => m.asid == asid && m.va ≤ va.toNat && va.toNat < m.va + m.len

/-- What a failed walk reports: the virtual address, or the physical one that lies in no window (R285, R290). -/
def walkFailure (va : Word) : WalkFail → Failure
  | none => ⟨cXlate, va⟩
  | some pa => ⟨cXlate, BitVec.ofNat 64 pa⟩

/-- The page that a leaf gives an access. -/
def leafPage (l : Leaf) (va : Word) (shadow : Bool) : Page :=
  let e := l.pte
  { pa := leafPa l va shadow, epri := BitVec.ofNat 2 (wbits e 63 62), coh := BitVec.ofNat 2 (wbits e 61 60),
    clvl := BitVec.ofNat 2 (wbits e 59 58), wt := pteWt e, cmp := pteCmp e }

/-- Checks 4 to 7 of R180 on a leaf, in order, and the place that it gives. -/
def leafPlace (s : State) (w : Who) (k : AccessKind) (va : Word) (l : Leaf) : Except Failure Place :=
  let pa := leafPa l va (k == .shadow)
  if (s.windowOf pa).isNone then .error ⟨cXlate, BitVec.ofNat 64 pa⟩
  else if pteSup l.pte && !w.sup then .error ⟨cSuperonly, va⟩
  else if protRefuses k l.pte then .error ⟨cProt, va⟩
  else if ordRefuses k l.pte then .error ⟨cOrdrmw, va⟩
  else .ok (.global (leafPage l va (k == .shadow)) (pteOrd l.pte) (pteCmp l.pte) (some l))

/-- The first write through a translation whose D is clear: a compare-and-swap of the entry, and a walk made again, with its checks, when the
entry has changed (R291). -/
def firstWrite (s : State) (w : Who) (k : AccessKind) (va : Word) (l : Leaf) : Except Failure Place × State :=
  let mark (s : State) (l : Leaf) : Except Failure Place × State :=
    let (l, s) := setDirty s w.core w.asid va l
    (leafPlace s w k va l, s)
  if readNat s.mem l.pteAt 8 = l.pte.toNat then mark s l
  else
    match walkFill s w.core w.asid va with
    | (.error f, s) => (.error (walkFailure va f), s)
    | (.ok l, s) =>
      match leafPlace s w k va l with
      | .error f => (.error f, s)
      | .ok p => if pteD l.pte then (.ok p, s) else mark s l

/-- Checks 4 to 7 of R180 on a global access, in order. -/
def checkGlobal (s : State) (w : Who) (k : AccessKind) (va : Word) : Except Failure Place × State :=
  match s.ctxMapOf w.asid va with
  | some m =>
    if w.sup then
      (.ok (.global { pa := m.pa + (va.toNat - m.va), epri := 0, coh := 2, clvl := 2, wt := false, cmp := false } false false none), s)
    else (.error ⟨cSuperonly, va⟩, s)
  | none =>
    match translate s w.core w.asid va with
    | (.error f, s) => (.error (walkFailure va f), s)
    | (.ok l, s) =>
      match leafPlace s w k va l with
      | .error f => (.error f, s)
      | .ok p => if k.writes && !pteD l.pte then firstWrite s w k va l else (.ok p, s)

/-- Checks 1 to 7 of R180: alignment, then the scratchpad's or the page's. -/
def checkAccess (s : State) (w : Who) (k : AccessKind) (va : Word) (size align : Nat) : Except Failure Place × State :=
  if va.toNat % align ≠ 0 then (.error ⟨cAlign, va⟩, s)
  else
    match scratchOffset va with
    | some off => (checkScratch (s.gang w.gang) va off size, s)
    | none => checkGlobal s w k va

/-! ## Reading and writing at a place -/

/-- Does an access touch its ASID's ordered-reduction spill area (R303)? -/
def State.inSpill (s : State) (asid : BitVec 12) (va : Word) (n : Nat) : Bool :=
  let e := s.asidEntry asid
  e.redsplen ≠ 0 && va.toNat < e.redspill.toNat + 32 * e.redsplen.toNat && e.redspill.toNat < va.toNat + n

/-- `n` bytes of a spill area as a program sees them: free values, a fresh one for each byte and read (R303; log 4). -/
def State.spillValue (s : State) (n : Nat) : Nat × State :=
  (ofBytes ((List.range n).map fun j => Config.spillByte (s.fresh + j)), { s with fresh := s.fresh + n })

/-- `n` bytes at a place as a load of the core sees them, and whether a line they lie in is poisoned. The bytes do not cross a
line. A load of the spill area sees free values (log 4). -/
def readPlace (s : State) (w : Who) (p : Place) (va : Word) (n : Nat) : Nat × Bool × State :=
  match p with
  | .scratch off =>
    let g := s.gang w.gang
    (readNat g.scratch off n, g.scratchPoison.contains (off / 128), s)
  | .global page _ _ _ =>
    if s.inSpill w.asid va n then
      let (v, s) := s.spillValue n
      (v, false, s)
    else
      let (x, q, s) := s.coreLine w.core page
      (lineNat x (page.pa % 128) n, q, s)

/-- Store the low `n` bytes of `v` at a place. A poisoned line stays poisoned (R180). -/
def writePlace (s : State) (w : Who) (p : Place) (n v : Nat) : State :=
  match p with
  | .scratch off => s.modGang w.gang fun g => { g with scratch := writeNat g.scratch off n v }
  | .global page _ _ _ => s.coreStore w.core page n v

end Sys2Proof.Machine
end

