-- ==== Sys2Proof/Machine/Operands.lean ====
section
/-!
DEFINITION. The operand forms: constants (R77), source and destination codes (R74 to R76), the proposal bank (R27 to R29), shape
tags (R17 to R19), sub-elements (R16), predicates (R21, R22), latches (R23, R24) and immediates (R82).
-/
namespace Sys2Proof.Machine

/-! ## Crews and threads -/

/-- The record of a resident or saved crew; none when it does not exist or has been freed. -/
def State.crew? (s : State) (k : Nat) : Option Crew := s.crews.get? k
/-- The record of a crew. -/
def State.crew (s : State) (k : Nat) : Crew := s.crews.getD k Crew.reset
/-- Replace a crew's record. -/
def State.setCrew (s : State) (k : Nat) (c : Crew) : State := { s with crews := s.crews.set k c }
/-- Change a crew's record. -/
def State.modCrew (s : State) (k : Nat) (f : Crew → Crew) : State := s.setCrew k (f (s.crew k))
/-- The gang of a crew. -/
def gangOf (crew : Nat) : Nat := crew / 256
/-- The crew's index in its gang. -/
def crewIndex (crew : Nat) : Nat := crew % 256
/-- The crew's key. -/
def crewKey (gang idx : Nat) : Nat := gang * 256 + idx

/-- The kernel header that a crew runs under: its gang's, or that of the image CVSWITCH moved it to (R276). -/
def Crew.header (c : Crew) (g : Gang) : Header := c.hdr.getD g.hdr
/-- The kernel header of a crew. -/
def State.hdrOf (s : State) (k : Nat) : Header := (s.crew k).header (s.gang (gangOf k))

/-- A thread of a crew. -/
def Crew.th (c : Crew) (l : Lane) : Thread := c.thr.at l

/-- Change the threads of the lanes in a mask. -/
def Crew.updThr (c : Crew) (m : Mask) (f : Lane → Thread → Thread) : Crew :=
  { c with thr := lanes fun l => if inMask m l then f l (c.th l) else c.th l }

/-- The lanes that have exited. -/
def Crew.exited (c : Crew) : Mask := maskOf fun l => (c.th l).st == .exited
/-- The lanes that are live. -/
def Crew.live (c : Crew) : Mask := maskOf fun l => (c.th l).st == .live

/-- Predicate Pn as a whole mask; P0 reads 1 in every lane (R21). -/
def Crew.pred (c : Crew) (p : BitVec 3) : Mask := if p = 0 then fullMask else c.preds[p.toNat]

/-- Write the lanes of `m` in predicate Pn; a write to P0 is discarded (R21, R22). -/
def Crew.setPred (c : Crew) (p : BitVec 3) (m vals : Mask) : Crew :=
  if p = 0 then c
  else { c with preds := c.preds.set p.toNat ((c.preds[p.toNat] &&& ~~~m) ||| (vals &&& m)) }

/-! ## Constants (R77) -/

/-- The four floating-point types of the vector unit (R78). -/
inductive FpType where
  | d
  | s
  | h
  | bf
deriving DecidableEq, Repr

/-- The type of a T field (R78). -/
def fpTypeOf (t : BitVec 2) : FpType :=
  match t.toNat with
  | 0 => .d
  | 1 => .s
  | 2 => .h
  | _ => .bf

/-- Width in bits. -/
def FpType.width : FpType → Nat
  | .d => 64
  | .s => 32
  | .h => 16
  | .bf => 16

/-- The operand type in which a constant is read (R77). -/
inductive KView where
  | int (w : Nat)
  | fp (t : FpType)
deriving DecidableEq, Repr

/-- Width of a view's sub-element. -/
def KView.width : KView → Nat
  | .int w => w
  | .fp t => t.width

/-- The integer view of K0 to K11 at width `w`, as a bit pattern (R77). -/
def intConst (w k : Nat) : Nat :=
  match k with
  | 0 => 0
  | 1 => 1
  | 2 => 2
  | 3 => 3
  | 4 => 4
  | 5 => 8
  | 6 => 16
  | 7 => 32
  | 8 => 2 ^ w - 1
  | 9 => 2 ^ (w - 1) - 1
  | 10 => 2 ^ (w - 1)
  | _ => w

/-- The FP view of K0 to K11: each value rounded to nearest even into the type (R77). -/
def fpConst (t : FpType) (k : Nat) : Nat :=
  let row := match t with
    | .d => [0, 0x3FF0000000000000, 0x4000000000000000, 0x3FE0000000000000, 0xBFF0000000000000, 0x7FF0000000000000,
        0x7FEFFFFFFFFFFFFF, 0x0010000000000000, 0x3FE62E42FEFA39EF, 0x3FF71547652B82FE, 0x400921FB54442D18,
        0x7FF8000000000000]
    | .s => [0, 0x3F800000, 0x40000000, 0x3F000000, 0xBF800000, 0x7F800000, 0x7F7FFFFF, 0x00800000, 0x3F317218,
        0x3FB8AA3B, 0x40490FDB, 0x7FC00000]
    | .h => [0, 0x3C00, 0x4000, 0x3800, 0xBC00, 0x7C00, 0x7BFF, 0x0400, 0x398C, 0x3DC5, 0x4248, 0x7E00]
    | .bf => [0, 0x3F80, 0x4000, 0x3F00, 0xBF80, 0x7F80, 0x7F7F, 0x0080, 0x3F31, 0x3FB9, 0x4049, 0x7FC0]
  row.getD k 0

/-- A value placed in every sub-element of width `w` (R77). -/
def replicateSub (w x : Nat) : Word := BitVec.ofNat 64 ((List.range (64 / w)).foldl (fun y j => y + x * 2 ^ (w * j)) 0)

/-- A constant in its view (R77). -/
def constVal (v : KView) (k : Nat) : Word :=
  match v with
  | .int w => replicateSub w (intConst w k)
  | .fp t => replicateSub t.width (fpConst t k)

/-! ## Registers and the proposal bank (R27, R29) -/

/-- Does lane `l` read register `n` from the shadow (R27)? -/
def Crew.readsShadow (c : Crew) (n : Nat) (l : Lane) : Bool :=
  n ≥ 40 && (c.th l).pmode && (c.th l).wm.getLsbD (n - 40)

/-- Register V(n) of a lane as an instruction reads it (R27). -/
def Crew.reg (c : Crew) (n : Nat) (l : Lane) : Word :=
  if c.readsShadow n l then (c.shadow.getD (n - 40) (allLanes 0)).at l else (c.regs.getD n (allLanes 0)).at l

/-- A source code's value in a lane (R74). -/
def Crew.src (c : Crew) (v : KView) (code : BitVec 6) (l : Lane) : Word :=
  if code < 48 then c.reg code.toNat l
  else if code < 52 then c.latches[(code - 48).toNat % 4].val.at l
  else constVal v (code.toNat - 52)

/-- The 64-bit integer view (R77: every instruction not listed there). -/
def kx : KView := .int 64

/-! ## Shape tags (R17 to R19, R29) -/

/-- A source as the tag rules see it: base and stride (stride 0 for U), or G. -/
inductive Shape where
  | lin (base : Word) (stride : Int)
  | gen
deriving DecidableEq, Repr

/-- The shape that a tag gives to 32 values. -/
def shapeOf (t : Tag) (v : Lanes Word) : Shape :=
  match t with
  | .u => .lin (v.at 0) 0
  | .a => .lin (v.at 0) (signed 64 ((v.at 1).toNat + 2 ^ 64 - (v.at 0).toNat))
  | .g => .gen

/-- The tag of a shape: stride 0 is U, a stride beyond 32 signed bits is G (R18). -/
def Shape.tag : Shape → Tag
  | .gen => .g
  | .lin _ s => if s = 0 then .u else if -(2 ^ 31) ≤ s && s < 2 ^ 31 then .a else .g

/-- The tag with which register V(n) is read (R29). -/
def Crew.regTag (c : Crew) (n : Nat) : Tag :=
  if n < 40 then c.tags.getD n .g
  else
    let sh := maskOf (c.readsShadow n)
    if sh = 0 then c.tags.getD n .g
    else if sh = fullMask then c.stags.getD (n - 40) .g
    else .g

/-- The shape of a source code (R74). -/
def Crew.srcShape (c : Crew) (v : KView) (code : BitVec 6) : Shape :=
  if code < 48 then shapeOf (c.regTag code.toNat) (lanes (c.reg code.toNat))
  else if code < 52 then
    let b := c.latches[(code - 48).toNat % 4]
    shapeOf b.tag b.val
  else .lin (constVal v (code.toNat - 52)) 0

/-- Is a shape U? -/
def Shape.isU : Shape → Bool
  | .lin _ s => s == 0
  | .gen => false

/-- The rows of R18's table. -/
inductive TagRule where
  /-- U from uniform sources, at least one of them; otherwise G. -/
  | lanewise
  | mov
  | add
  | sub
  | mul
  | mad
  | shl (k : Nat)
  /-- U whatever the sources. -/
  | uniform
  | general
  /-- MOVS LANE. -/
  | lane
  /-- The tag is U when the first source is U. -/
  | first
deriving DecidableEq, Repr

/-- The result's shape under rule 3 of R18. -/
def ruleTag (r : TagRule) (srcs : List Shape) : Tag :=
  let allU := !srcs.isEmpty && srcs.all Shape.isU
  match r with
  | .uniform => .u
  | .general => .g
  | .lane => .a
  | .lanewise => if allU then .u else .g
  | .first => match srcs with
    | a :: _ => if a.isU then .u else .g
    | [] => .g
  | .mov => match srcs with
    | [x] => x.tag
    | _ => .g
  | .add => match srcs with
    | [.lin b s, .lin b' s'] => Shape.tag (.lin (b + b') (s + s'))
    | _ => .g
  | .sub => match srcs with
    | [.lin b s, .lin b' s'] => Shape.tag (.lin (b - b') (s - s'))
    | _ => .g
  | .mul => if allU then .u else match srcs with
    | [.lin b s, .lin b' s'] =>
      if s' = 0 then Shape.tag (.lin (b * b') (s * b'.toInt))
      else if s = 0 then Shape.tag (.lin (b * b') (s' * b.toInt))
      else .g
    | _ => .g
  | .mad => if allU then .u else match srcs with
    | [.lin b s, .lin b' s', .lin c 0] =>
      if s' = 0 then Shape.tag (.lin (b * b' + c) (s * b'.toInt))
      else if s = 0 then Shape.tag (.lin (b * b' + c) (s' * b.toInt))
      else .g
    | _ => .g
  | .shl k => match srcs with
    | [.lin b s] => Shape.tag (.lin (b <<< k) (s * 2 ^ k))
    | _ => .g

/-- Are all 32 values one value? -/
def sameLanes (v : Lanes Word) : Bool := laneList.all fun l => v.at l == v.at 0

/-- Do the values have an affine shape with a nonzero signed 32-bit stride (R331)? -/
def affineLanes (v : Lanes Word) : Bool :=
  let s := signed 64 ((v.at 1).toNat + 2 ^ 64 - (v.at 0).toNat)
  s ≠ 0 && -(2 ^ 31) ≤ s && s < 2 ^ 31 &&
    laneList.all fun l => v.at l == v.at 0 + BitVec.ofNat 64 l.val * (v.at 1 - v.at 0)

/-- A tag kept when the values have its shape, else G (R331; and for status words, whose values may differ from lane to lane
under uniform sources: log 13). -/
def fitTag (t : Tag) (v : Lanes Word) : Tag :=
  match t with
  | .u => if sameLanes v then .u else .g
  | .a => if affineLanes v then .a else .g
  | .g => .g

/-! ## Writing a register (R18 rule 1, R27, R29) -/

/-- The tag of a bank after a write to the lanes `m`: all 32, some, or none (R29). -/
def bankTag (old new : Tag) (m : Mask) : Tag := if m = fullMask then new else if m = 0 then old else .g

/-- The lanes whose write of V(n) goes to the shadow: those in proposal mode, for V40 to V47 (R27). -/
def Crew.bankLanes (c : Crew) (n : Nat) (take : Mask) : Mask := if n ≥ 40 then maskOf fun l => inMask take l && (c.th l).pmode else 0

/-- Write V(n) itself in the lanes of `m`. -/
def Crew.writeCommitted (c : Crew) (n : Nat) (m : Mask) (vals : Lanes Word) (tag : Tag) : Crew :=
  let old := c.regs.getD n (allLanes 0)
  { c with
    regs := c.regs.setIfInBounds n (lanes fun l => if inMask m l then vals.at l else old.at l)
    tags := c.tags.setIfInBounds n (bankTag (c.tags.getD n .g) tag m) }

/-- Write shadow register `k` in the lanes of `m`, and mark it in their WM. -/
def Crew.writeShadow (c : Crew) (k : Nat) (m : Mask) (vals : Lanes Word) (tag : Tag) : Crew :=
  let old := c.shadow.getD k (allLanes 0)
  { c.updThr m (fun _ t => { t with wm := t.wm ||| (1#8 <<< k) }) with
    shadow := c.shadow.setIfInBounds k (lanes fun l => if inMask m l then vals.at l else old.at l)
    stags := c.stags.setIfInBounds k (bankTag (c.stags.getD k .g) tag m) }

/-- Write register V(n) in the lanes of `take`. Lanes in proposal mode write V40 to V47 in the shadow (R27). -/
def Crew.writeReg (c : Crew) (n : Nat) (take : Mask) (vals : Lanes Word) (tag : Tag) : Crew :=
  let sh := c.bankLanes n take
  let c := c.writeCommitted n (take &&& ~~~sh) vals tag
  if sh = 0 then c else c.writeShadow (n - 40) sh vals tag

/-- Write a destination code: V(n), or nothing for code 48 (R75). -/
def Crew.writeDst (c : Crew) (d : BitVec 6) (take : Mask) (vals : Lanes Word) (tag : Tag) : Crew :=
  if d < 48 then c.writeReg d.toNat take vals tag else c

/-! ## Latches (R23, R24) -/

/-- What an instruction pushes for one result: the result in the taking lanes, elsewhere the old content of the destination
register, or 0 when it is "none" (R24). The rule speaks of lanes whose guard is false; lanes outside the issuing fragment are treated in the
same way (log 86). A push that leaves a lane to the old content has tag G (R18 rule 1). -/
def Crew.pushOf (c : Crew) (d : BitVec 6) (take : Mask) (vals : Lanes Word) (tag : Tag) : Latch :=
  { valid := true
    val := lanes fun l => if inMask take l then vals.at l else if d < 48 then c.reg d.toNat l else 0
    tag := if take = fullMask then tag else .g }

/-- B3 := B2, B2 := B1, B1 := B0, B0 := the result (R23). -/
def pushLatch (b : Vector Latch 4) (x : Latch) : Vector Latch 4 := #v[x, b[0], b[1], b[2]]

/-- All four latches invalid (R25). -/
def invalidLatches (b : Vector Latch 4) : Vector Latch 4 :=
  #v[{ b[0] with valid := false }, { b[1] with valid := false }, { b[2] with valid := false }, { b[3] with valid := false }]

/-! ## Sub-elements (R16) -/

/-- Sub-element `j` of width `w`. -/
def subEl (w : Nat) (x : Word) (j : Nat) : Nat := (x.toNat >>> (w * j)) % 2 ^ w

/-- A word built from its sub-elements of width `w`. -/
def ofSubs (w : Nat) (f : Nat → Nat) : Word :=
  BitVec.ofNat 64 ((List.range (64 / w)).foldl (fun y j => y + (f j % 2 ^ w) * 2 ^ (w * j)) 0)

/-- An operation on each sub-element of width `w`. -/
def mapSubs2 (w : Nat) (f : Nat → Nat → Nat) (a b : Word) : Word := ofSubs w fun j => f (subEl w a j) (subEl w b j)

/-! ## Immediates (R82) -/

/-- The concatenation of XIMM payloads, the first highest, and an `n`-bit field, sign-extended from its top bit to 64 bits; bits
above bit 63 are dropped. -/
def extendImm (xs : List (BitVec 22)) (n field : Nat) : Word :=
  let v := xs.foldl (fun v e => v * 2 ^ 22 + e.toNat) 0 * 2 ^ n + field
  BitVec.ofInt 64 (signed (n + 22 * xs.length) v)

end Sys2Proof.Machine
end

