-- ==== Sys2Proof/Machine/Flags.lean ====
section
/-!
DEFINITION. Exception flags and FSTAT (R34, R35, R108, R163): the flags an operation signals, the enables that turn them into FPX,
and the rounding mode of DYN.
-/
namespace Sys2Proof.Machine

/-- Signalled exceptions, in the order of FSTAT[7:3]: NV DZ OF UF NX from bit 4 down (R34, R327). -/
abbrev Exc := BitVec 5

/-- NV: invalid operation. -/
def excNV : Exc := 0b10000
/-- DZ: division by zero. -/
def excDZ : Exc := 0b01000
/-- OF: overflow. -/
def excOF : Exc := 0b00100
/-- UF: underflow. -/
def excUF : Exc := 0b00010
/-- NX: inexact. -/
def excNX : Exc := 0b00001

/-- A flag when a condition holds. -/
def excIf (p : Bool) (e : Exc) : Exc := if p then e else 0

/-- The sticky flags of FSTAT (R34). -/
def fstatFlags (f : Word) : Exc := f.extractLsb' 3 5

/-- The trap enables of FSTAT (R34). -/
def fstatEnables (f : Word) : Exc := f.extractLsb' 8 5

/-- FSTAT.RM (R34). -/
def fstatRm (f : Word) : BitVec 3 := f.extractLsb' 0 3

/-- The exceptions OR'ed into the sticky flags (R163). -/
def fstatOr (f : Word) (e : Exc) : Word := f ||| (e.setWidth 64 <<< 3)

/-- What WRS leaves in FSTAT: bits [63:13] are ignored (R34). -/
def fstatWrite (x : Word) : Word := x &&& 0x1FFF#64

/-- An FSTAT value whose RM is 6 or 7 (R35). -/
def fstatBadRm (x : Word) : Bool := fstatRm x ≥ 6

/-- N_i: signalled exceptions that are enabled in the lane's FSTAT (R163). -/
def enabledExc (f : Word) (e : Exc) : Exc := e &&& fstatEnables f

/-- The rounding mode of a lane for an RM field: code 7 reads FSTAT.RM (R162). -/
def roundingOf (r : BitVec 3) (f : Word) : BitVec 3 := if r = 7 then fstatRm f else r

end Sys2Proof.Machine
end

