-- ==== Sys2Proof/Machine/Float.lean ====
section
/-!
DEFINITION. Floating-point values, exact arithmetic and the one rounding (R94, R106 to R110): every operation forms its exact
result and rounds it once.
-/
namespace Sys2Proof.Machine

/-! ## Formats (R94) -/

/-- What the all-ones exponent of a format holds. -/
inductive TopCodes where
  /-- Infinities and NaNs. -/
  | ieee
  /-- NaN only at the all-ones fraction: E4M3. -/
  | nanOnly
  /-- All codes finite. -/
  | finite
deriving DecidableEq, Repr

/-- A floating-point format: exponent bits, fraction bits, bias. -/
structure Fmt where
  e : Nat
  m : Nat
  bias : Int
  top : TopCodes
deriving DecidableEq, Repr

/-- FP64 -/
def fmtD : Fmt := ⟨11, 52, 1023, .ieee⟩
/-- FP32 -/
def fmtS : Fmt := ⟨8, 23, 127, .ieee⟩
/-- FP19, without the container's low bits (R95). -/
def fmt19 : Fmt := ⟨8, 10, 127, .ieee⟩
/-- BF16 -/
def fmtBf : Fmt := ⟨8, 7, 127, .ieee⟩
/-- FP16 -/
def fmtH : Fmt := ⟨5, 10, 15, .ieee⟩
/-- E5M2 -/
def fmtE5M2 : Fmt := ⟨5, 2, 15, .ieee⟩
/-- E4M3 -/
def fmtE4M3 : Fmt := ⟨4, 3, 7, .nanOnly⟩
/-- E3M4 -/
def fmtE3M4 : Fmt := ⟨3, 4, 3, .finite⟩
/-- E3M2 -/
def fmtE3M2 : Fmt := ⟨3, 2, 3, .finite⟩
/-- E2M3 -/
def fmtE2M3 : Fmt := ⟨2, 3, 1, .finite⟩
/-- E2M1 and E2M1F -/
def fmtE2M1 : Fmt := ⟨2, 1, 1, .finite⟩

/-- Width of a code. -/
def Fmt.width (f : Fmt) : Nat := 1 + f.e + f.m

/-- The format of a vector type (R78). -/
def fmtOf : FpType → Fmt
  | .d => fmtD
  | .s => fmtS
  | .h => fmtH
  | .bf => fmtBf

/-! ## Values -/

/-- A decoded code. A finite value is (−1)^neg × m × 2^e. A NaN keeps its fraction aligned below bit 52. -/
inductive Num where
  | fin (neg : Bool) (m : Nat) (e : Int)
  | inf (neg : Bool)
  | nan (neg : Bool) (quiet : Bool) (frac : Nat)
deriving DecidableEq, Repr

/-- The value of a code (R94). -/
def decodeFp (f : Fmt) (x : Nat) : Num :=
  let neg := x.testBit (f.e + f.m)
  let ex := bits x (f.e + f.m - 1) f.m
  let fr := x % 2 ^ f.m
  let top := ex = 2 ^ f.e - 1
  if top && f.top = .ieee then
    if fr = 0 then .inf neg else .nan neg (fr.testBit (f.m - 1)) (fr * 2 ^ (52 - f.m))
  else if top && f.top = .nanOnly && fr = 2 ^ f.m - 1 then .nan neg true (fr * 2 ^ (52 - f.m))
  else if ex = 0 then .fin neg fr (1 - f.bias - f.m)
  else .fin neg (2 ^ f.m + fr) (ex - f.bias - f.m)

/-- Sign bit in place. -/
def signBit (f : Fmt) (neg : Bool) : Nat := if neg then 2 ^ (f.e + f.m) else 0

/-- ±∞. For a format without infinities the caller does not use it. -/
def codeInf (f : Fmt) (neg : Bool) : Nat := signBit f neg + (2 ^ f.e - 1) * 2 ^ f.m

/-- ±largest finite. -/
def codeMax (f : Fmt) (neg : Bool) : Nat :=
  signBit f neg + match f.top with
    | .ieee => (2 ^ f.e - 1) * 2 ^ f.m - 1
    | .nanOnly => 2 ^ (f.e + f.m) - 2
    | .finite => 2 ^ (f.e + f.m) - 1

/-- ±0. -/
def codeZero (f : Fmt) (neg : Bool) : Nat := signBit f neg

/-- The canonical quiet NaN (R109); in E4M3 0x7F. -/
def codeNaN (f : Fmt) : Nat :=
  match f.top with
  | .nanOnly => 2 ^ (f.e + f.m) - 1
  | _ => (2 ^ f.e - 1) * 2 ^ f.m + 2 ^ (f.m - 1)

/-- A NaN carried into a format: quiet, with its sign and its leading fraction bits (R109). -/
def carryNaN (f : Fmt) (neg : Bool) (frac : Nat) : Nat :=
  match f.top with
  | .nanOnly => signBit f neg + 2 ^ (f.e + f.m) - 1
  | _ => signBit f neg + (2 ^ f.e - 1) * 2 ^ f.m + ((frac / 2 ^ (52 - f.m)) ||| 2 ^ (f.m - 1))

/-! ## Rounding (R106 to R108) -/

/-- Number of bits of a number. -/
def bitLen (m : Nat) : Nat := if m = 0 then 0 else m.log2 + 1

/-- An integer chosen for floor `k`, whose cut-off part is compared with one half by `half` (lt, eq, gt) and is zero when `exact`
(R106; the magnitude's sign is `neg`). -/
def roundInt (rm : BitVec 3) (neg : Bool) (k : Nat) (half : Ordering) (exact : Bool) : Nat :=
  if exact then k
  else match rm.toNat with
    | 0 => match half with
      | .lt => k
      | .gt => k + 1
      | .eq => if k % 2 = 0 then k else k + 1
    | 1 => match half with
      | .lt => k
      | _ => k + 1
    | 2 => k
    | 3 => if neg then k else k + 1
    | 4 => if neg then k + 1 else k
    | _ => if k % 2 = 0 then k + 1 else k

/-- Round the magnitude m × 2^e — or, with `sticky`, a magnitude strictly between m × 2^e and (m + 1) × 2^e — to a multiple of
2^q. Returns the multiple and whether it is exact. -/
def roundTo (rm : BitVec 3) (neg : Bool) (m : Nat) (e : Int) (sticky : Bool) (q : Int) : Nat × Bool :=
  if q ≤ e then
    let k := m * 2 ^ (e - q).toNat
    if sticky then (roundInt rm neg k .lt false, false) else (k, true)
  else
    let d := (q - e).toNat
    let k := m / 2 ^ d
    let r := m % 2 ^ d
    let h := 2 ^ (d - 1)
    let half := if r < h then .lt else if r > h then .gt else if sticky then .gt else .eq
    let exact := r = 0 && !sticky
    (roundInt rm neg k half exact, exact)

/-- The overflow result (R107). -/
def overflowCode (f : Fmt) (rm : BitVec 3) (neg : Bool) : Nat :=
  match f.top with
  | .ieee =>
    match rm.toNat with
    | 0 | 1 => codeInf f neg
    | 3 => if neg then codeMax f neg else codeInf f neg
    | 4 => if neg then codeInf f neg else codeMax f neg
    | _ => codeMax f neg
  | _ => codeMax f neg

/-- Round(x, rm, f) of a nonzero magnitude, with the flags OF, UF and NX (R106 to R108). -/
def roundMag (f : Fmt) (rm : BitVec 3) (neg : Bool) (m : Nat) (e : Int) (sticky : Bool) : Nat × Exc :=
  let top : Int := e + bitLen m - 1
  let qUnb : Int := top - f.m
  let qMin : Int := 1 - f.bias - f.m
  let (kU, exU) := roundTo rm neg m e sticky qUnb
  -- the result with its exponent unbounded: kU × 2^qUnb
  let maxExp : Int := (2 ^ f.e : Nat) - (if f.top = .ieee then 2 else 1) - f.bias
  let tooBig := (kU : Int) * 2 ^ (qUnb - (maxExp - f.m)).toNat >
    (match f.top with | .nanOnly => (2 ^ (f.m + 1) - 2 : Int) | _ => 2 ^ (f.m + 1) - 1) * 2 ^ ((maxExp - f.m) - qUnb).toNat
  if tooBig then (overflowCode f rm neg, excOF ||| excNX)
  else
    -- tiny: nonzero and below the smallest normal value 2^(1 − bias)
    let tiny := (kU : Int) * 2 ^ (qUnb - (1 - f.bias)).toNat < 2 ^ ((1 - f.bias) - qUnb).toNat
    let q := max qUnb qMin
    let (k, ex) := if q = qUnb then (kU, exU) else roundTo rm neg m e sticky q
    let code :=
      if k < 2 ^ f.m then k
      else if k < 2 ^ (f.m + 1) then (q + f.bias + f.m).toNat * 2 ^ f.m + (k - 2 ^ f.m)
      else (q + 1 + f.bias + f.m).toNat * 2 ^ f.m + (k / 2 - 2 ^ f.m)
    (signBit f neg + code, excIf (!ex) excNX ||| excIf (tiny && !ex) excUF)

/-- Round an exact value: a zero keeps the sign it is given. -/
def roundNum (f : Fmt) (rm : BitVec 3) (neg : Bool) (m : Nat) (e : Int) (sticky : Bool) : Nat × Exc :=
  if m = 0 && !sticky then (codeZero f neg, 0) else roundMag f rm neg m e sticky

/-! ## Exact sums -/

/-- The signed integer of a finite value at exponent `e0 ≤ e`. -/
def alignTo (e0 : Int) (neg : Bool) (m : Nat) (e : Int) : Int :=
  let v : Int := m * 2 ^ (e - e0).toNat
  if neg then -v else v

/-- The sign of an exact zero sum: that of both terms when they agree, else +0, except −0 under RDN (R106). -/
def zeroSign (rm : BitVec 3) (n1 n2 : Bool) : Bool := if n1 = n2 then n1 else rm = 4

/-- Round the exact sum of two finite values. -/
def addFinite (f : Fmt) (rm : BitVec 3) (n1 : Bool) (m1 : Nat) (e1 : Int) (n2 : Bool) (m2 : Nat) (e2 : Int) : Nat × Exc :=
  let e0 := min e1 e2
  let s := alignTo e0 n1 m1 e1 + alignTo e0 n2 m2 e2
  if s = 0 then (codeZero f (if m1 = 0 && m2 = 0 then zeroSign rm n1 n2 else rm = 4), 0)
  else roundNum f rm (s < 0) s.natAbs e0 false

/-! ## NaN results (R109) -/

/-- Is it a NaN? -/
def Num.isNaN : Num → Bool
  | .nan _ _ _ => true
  | _ => false

/-- Is it a signalling NaN? -/
def Num.isSNaN : Num → Bool
  | .nan _ q _ => !q
  | _ => false

/-- The first NaN among the operands, quieted, and NV when some operand is signalling (R108, R109). -/
def nanResult (f : Fmt) (xs : List Num) : Option (Nat × Exc) :=
  match xs.find? Num.isNaN with
  | some (.nan n _ fr) => some (carryNaN f n fr, excIf (xs.any Num.isSNaN) excNV)
  | _ => none

/-- The default NaN with NV. -/
def invalid (f : Fmt) : Nat × Exc := (codeNaN f, excNV)

/-! ## Operations (R165 to R167) -/

/-- The operation on values; the sign of b is already the effective one, but a NaN is the operand's own. -/
def addNum (f : Fmt) (rm : BitVec 3) (a b : Num) : Nat × Exc :=
  match a, b with
  | .inf n1, .inf n2 => if n1 = n2 then (codeInf f n1, 0) else invalid f
  | .inf n, _ => (codeInf f n, 0)
  | _, .inf n => (codeInf f n, 0)
  | .fin n1 m1 e1, .fin n2 m2 e2 => addFinite f rm n1 m1 e1 n2 m2 e2
  | _, _ => invalid f

/-- Negation of a value. -/
def Num.neg : Num → Num
  | .fin n m e => .fin (!n) m e
  | .inf n => .inf (!n)
  | .nan n q fr => .nan n q fr

/-- FADD of two codes (R165). -/
def fpAdd (f : Fmt) (rm : BitVec 3) (x y : Nat) : Nat × Exc :=
  let a := decodeFp f x
  let b := decodeFp f y
  (nanResult f [a, b]).getD (addNum f rm a b)

/-- FSUB of two codes (R165). -/
def fpSub (f : Fmt) (rm : BitVec 3) (x y : Nat) : Nat × Exc :=
  let a := decodeFp f x
  let b := decodeFp f y
  (nanResult f [a, b]).getD (addNum f rm a b.neg)

/-- The exact product of two values that are not NaN; none for 0 × ∞. -/
def mulNum (a b : Num) : Option Num :=
  match a, b with
  | .inf n1, .inf n2 => some (.inf (n1 != n2))
  | .inf n1, .fin n2 m _ => if m = 0 then none else some (.inf (n1 != n2))
  | .fin n1 m _, .inf n2 => if m = 0 then none else some (.inf (n1 != n2))
  | .fin n1 m1 e1, .fin n2 m2 e2 => some (.fin (n1 != n2) (m1 * m2) (e1 + e2))
  | _, _ => none

/-- A value that is not NaN, rounded. -/
def roundVal (f : Fmt) (rm : BitVec 3) : Num → Nat × Exc
  | .fin n m e => roundNum f rm n m e false
  | .inf n => (codeInf f n, 0)
  | .nan n _ fr => (carryNaN f n fr, 0)

/-- FMUL of two codes (R165). -/
def fpMul (f : Fmt) (rm : BitVec 3) (x y : Nat) : Nat × Exc :=
  let a := decodeFp f x
  let b := decodeFp f y
  (nanResult f [a, b]).getD (match mulNum a b with
    | some p => roundVal f rm p
    | none => invalid f)

/-- A quotient of magnitudes to `p` extra bits, with what is left over: m1 / m2 = (q + rest) × 2^e. -/
def divMag (p m1 m2 : Nat) (e : Int) : Nat × Int × Bool :=
  let sh := p + bitLen m2
  let n := m1 * 2 ^ sh
  (n / m2, e - sh, n % m2 ≠ 0)

/-- FDIV of two codes (R165). -/
def fpDiv (f : Fmt) (rm : BitVec 3) (x y : Nat) : Nat × Exc :=
  let a := decodeFp f x
  let b := decodeFp f y
  (nanResult f [a, b]).getD (match a, b with
    | .inf _, .inf _ => invalid f
    | .inf n1, .fin n2 _ _ => (codeInf f (n1 != n2), 0)
    | .fin n1 _ _, .inf n2 => (codeZero f (n1 != n2), 0)
    | .fin n1 m1 e1, .fin n2 m2 e2 =>
      if m2 = 0 then (if m1 = 0 then invalid f else (codeInf f (n1 != n2), excDZ))
      else if m1 = 0 then (codeZero f (n1 != n2), 0)
      else
        let (q, e, st) := divMag (f.m + 4) m1 m2 (e1 - e2)
        roundNum f rm (n1 != n2) q e st
    | _, _ => invalid f)

/-- The FMA family: (negP ? −(a × b) : a × b) + (negC ? −c : c), rounded once (R166, R167). -/
def fpFma (f : Fmt) (rm : BitVec 3) (negP negC : Bool) (x y z : Nat) : Nat × Exc :=
  let a := decodeFp f x
  let b := decodeFp f y
  let c := decodeFp f z
  let sg (n : Bool) (v : Num) : Num := if n then v.neg else v
  let zeroTimesInf : Bool := match a, b with
    | .inf _, .fin _ m _ => m == 0
    | .fin _ m _, .inf _ => m == 0
    | _, _ => false
  if zeroTimesInf then
    match c with
    | .nan n _ fr => (carryNaN f n fr, excNV)
    | _ => invalid f
  else
    (nanResult f [a, b, c]).getD (match mulNum a b with
      | some p => addNum f rm (sg negP p) (sg negC c)
      | none => invalid f)

/-- Order of two values that are not NaN, −0 equal to +0. -/
def cmpNum (a b : Num) : Ordering :=
  match a, b with
  | .inf n1, .inf n2 => if n1 = n2 then .eq else if n1 then .lt else .gt
  | .inf n, _ => if n then .lt else .gt
  | _, .inf n => if n then .gt else .lt
  | .fin n1 m1 e1, .fin n2 m2 e2 =>
    let e0 := min e1 e2
    compare (alignTo e0 n1 m1 e1) (alignTo e0 n2 m2 e2)
  | _, _ => .eq

/-- Is the value negative, −0 included? -/
def Num.isNeg : Num → Bool
  | .fin n _ _ => n
  | .inf n => n
  | .nan n _ _ => n

/-- FMIN, FMAX, FMINN, FMAXN (R171): −0 below +0. -/
def fpMinMax (f : Fmt) (wantMax number : Bool) (x y : Nat) : Nat × Exc :=
  let a := decodeFp f x
  let b := decodeFp f y
  let nv := excIf (a.isSNaN || b.isSNaN) excNV
  let pick : Nat :=
    match cmpNum a b with
    | .lt => if wantMax then y else x
    | .gt => if wantMax then x else y
    | .eq => if a.isNeg = wantMax then y else x
  if number then
    if a.isNaN && b.isNaN then (nanResult f [a, b]).getD (0, 0)
    else if a.isNaN then (y, nv)
    else if b.isNaN then (x, nv)
    else (pick, 0)
  else (nanResult f [a, b]).getD (pick, 0)

/-- FAddMem: the memory value is the first operand, RNE, no flag (R187). -/
def fpAddMem (w old b : Nat) : Nat := (fpAdd (if w = 64 then fmtD else fmtS) 0 old b).1

/-! ## Square root -/

/-- Newton's integer square root, from above, with fuel. -/
def isqrtFrom : Nat → Nat → Nat → Nat
  | 0, _, x => x
  | k + 1, n, x => let y := (x + n / x) / 2; if x ≤ y then x else isqrtFrom k n y

/-- ⌊√n⌋ -/
def isqrt (n : Nat) : Nat := if n = 0 then 0 else isqrtFrom (bitLen n + 8) n (2 ^ ((bitLen n + 1) / 2))

/-- √(m × 2^e) to at least `p` bits: root, exponent, whether something is left over. -/
def sqrtMag (p m : Nat) (e : Int) : Nat × Int × Bool :=
  let sh := 2 * p + (if (e - 2 * (p : Int)) % 2 = 0 then 0 else 1)
  let n := m * 2 ^ sh
  let r := isqrt n
  (r, (e - sh) / 2, r * r ≠ n)

end Sys2Proof.Machine
end

