-- ==== Sys2Proof/Machine/Reduce.lean ====
section
/-!
DEFINITION. Read-modify-writes: the operations of R187, their application at a home once per tag (R192), and reductions, applied
at once or held in the core's ordered-reduction buffer and its spill area until a flush point (R133, R134, R189 to R191, R303).
-/
namespace Sys2Proof.Machine

/-- The new value of a read-modify-write of `w` bits (R187). -/
def rmwNew (op : BitVec 4) (w old b : Nat) : Nat :=
  let m := 2 ^ w
  match op.toNat with
  | 0 => (old + b) % m
  | 1 => if signed w b < signed w old then b else old
  | 2 => if signed w old < signed w b then b else old
  | 3 => if b < old then b else old
  | 4 => if old < b then b else old
  | 5 => old &&& b
  | 6 => old ||| b
  | 7 => old ^^^ b
  | 8 => b
  | _ => fpAddMem w old b

/-- Width in bits of the S field (R81). -/
def rmwWidth (small : Bool) : Nat := if small then 32 else 64

/-! ## Memory-side units (R192) -/

/-- A request of this operation, operands and size, before it is sent. A request that compares writes its second operand where memory holds
the first. -/
def Tagged.ask (op : BitVec 4) (small compare : Bool) (opnd opnd2 : Word) : Tagged :=
  { seq := 0, slice := 0, pa := 0, op := op, small := small, opnd := opnd, opnd2 := opnd2, compare := compare, grid := 0, addr := 0,
    crew := none, lane := 0, keep := ⟨0, false⟩, red := false }

/-- The memory-side operation of a request: a compare-and-swap, or an operation of R187; none leaves memory as it is. -/
def Tagged.apply (t : Tagged) (old : Nat) : Option Nat :=
  let w := rmwWidth t.small
  if t.compare then (if old = t.opnd.toNat % 2 ^ w then some (t.opnd2.toNat % 2 ^ w) else none)
  else some (rmwNew t.op w old (t.opnd.toNat % 2 ^ w))

/-- The device's number of the slice of an address. -/
def State.unitOf (s : State) (pa : Nat) : Nat := s.homeDie pa * 64 + sliceOf pa

/-- The window of one core at the memory-side unit of an address. -/
def State.windowKey (core pa : Nat) : Nat := sliceOf pa * 256 + core

/-- The old value that the unit stored for a tag, while the tag is among the last 64 it applied for the core (R192). -/
def State.tagOld (s : State) (core pa : Nat) (seq : BitVec 32) : Option Word :=
  (((s.die (s.homeDie pa)).windows.getD (State.windowKey core pa) []).find? fun e => e.1 == seq).map Prod.snd

/-- Record a tag with its old value, keeping the last 64 (R192). -/
def State.tagStore (s : State) (core pa : Nat) (seq : BitVec 32) (old : Word) : State :=
  s.modDie (s.homeDie pa) fun d =>
    let k := State.windowKey core pa
    { d with windows := d.windows.set k (((seq, old) :: d.windows.getD k []).take 64) }

/-- A memory-side operation on the value that its unit reads, and its tag stored with that value (R187, R192). -/
def State.applySeen (s : State) (core : Nat) (t : Tagged) (old : Nat) : Word × State :=
  let n := rmwWidth t.small / 8
  let s := match t.apply old with
    | some new => s.homeWrite core t.pa n new
    | none => s.refresh core (lineOf t.pa)
  let old : Word := BitVec.ofNat 64 old
  (old, s.tagStore core t.pa t.seq old)

/-- A memory-side operation arrives with its tag: applied unless the tag is in the window; the answer is the old value (R192). -/
def State.applyTagged (s : State) (core : Nat) (t : Tagged) : Word × State :=
  match s.tagOld core t.pa t.seq with
  | some old => (old, s)
  | none =>
    let s := (s.homeTouch (lineOf t.pa) t.keep).flushOwn core (lineOf t.pa)
    s.applySeen core t (readNat s.mem t.pa (rmwWidth t.small / 8))

/-- A request gets the core's next tag, and is outstanding until an acknowledgement frees its place (R192). -/
def State.sendTagged (s : State) (core : Nat) (t : Tagged) : Tagged × State :=
  let t := { t with seq := (s.core core).tagSeq + 1, slice := s.unitOf t.pa }
  (t, s.modCore core fun c => { c with tagSeq := t.seq, unacked := c.unacked ++ [t] })

/-- One tagged operation sent and applied. Its place is held until its acknowledgement has arrived (R192; log 83). -/
def State.rmwHome (s : State) (core : Nat) (t : Tagged) : Word × State :=
  let (t, s) := s.sendTagged core t
  s.applyTagged core t

/-- One tagged operation sent and applied to the value that a spill area shows (R192, R303). -/
def State.rmwSeen (s : State) (core : Nat) (t : Tagged) (seen : Nat) : Word × State :=
  let (t, s) := s.sendTagged core t
  (s.homeTouch (lineOf t.pa) t.keep).applySeen core t seen

/-- Places that a core holds at a slice, by the device's number of it: its requests there from the oldest unacknowledged one on, so that the
tag of an unacknowledged request is always among the 64 that the unit keeps (R192; log 83). -/
def State.placesAt (s : State) (core unit : Nat) : Nat :=
  match (s.core core).unacked.find? fun t => t.slice = unit with
  | none => 0
  | some t => (((s.die (unit / 64)).windows.getD (unit % 64 * 256 + core) []).takeWhile fun e => e.1 != t.seq).length + 1

/-- Places that a core holds at the slice of an address. -/
def State.unackedAt (s : State) (core pa : Nat) : Nat := s.placesAt core (s.unitOf pa)

/-- A request of a step that cannot stop waits for a place at its slice: the oldest request there is acknowledged first (R192; log 83). -/
def State.awaitPlace (s : State) (core pa : Nat) : State :=
  if s.unackedAt core pa < 64 then s
  else s.modCore core fun c =>
    match c.unacked.find? fun t => t.slice = s.unitOf pa with
    | some t => { c with unacked := c.unacked.erase t }
    | none => c

/-! ## Reductions -/

/-- The record of a dropped reduction in its grid (R191). -/
def State.dropRed (s : State) (grid : Nat) (addr : Word) : State :=
  let s := match s.grids.get? grid with
    | some g =>
      let g := { g with reddrop := g.reddrop + 1, redaddr := if g.reddrop = 0 then addr else g.redaddr }
      { s with grids := s.grids.set grid g }
    | none => s
  { s with reports := s.reports ++ [.redDrop grid addr] }

/-- A reduction sent to its memory-side unit, which applies it, or drops it when the line is poisoned (R189, R191, R192). -/
def State.redSend (s : State) (core : Nat) (t : Tagged) : State :=
  let (t, s) := (s.flushOwn core (lineOf t.pa)).sendTagged core { t with red := true }
  if s.linePoisoned (lineOf t.pa) then (s.tagStore core t.pa t.seq 0).dropRed t.grid t.addr
  else (s.applyTagged core t).2

/-- The request of a buffered reduction. -/
def RedEntry.request (e : RedEntry) : Tagged :=
  { Tagged.ask e.op e.small false e.opnd 0 with
    pa := e.pa, grid := e.grid, addr := e.addr, crew := some (e.gang * 256 + e.crew), lane := e.lane, keep := e.keep }

/-- One buffered reduction of a flush point applied at its home; a release makes its record there (R124, R134, R191, R192). -/
def State.redApply (s : State) (core : Nat) (e : RedEntry) : State :=
  let s := s.awaitPlace core e.pa
  if e.rel then ((s.continueRelease core (lineOf e.pa)).redSend core e.request).recordRelease core (lineOf e.pa)
  else s.redSend core e.request

/-- Spill entries of an ASID in use, over all cores (R303). -/
def State.spillUsed (s : State) (asid : BitVec 12) : List Nat :=
  s.cores.foldl (fun l p => l ++ (p.2.redbuf.filter fun e => e.asid == asid).filterMap fun e => e.spill) []

/-- The lowest free entry of an ASID's spill area (R303). -/
def State.spillFree (s : State) (asid : BitVec 12) : Option Nat :=
  let used := s.spillUsed asid
  (List.range (used.length + 1)).find? fun k => k < (s.asidEntry asid).redsplen.toNat && !used.contains k

/-- The four doublewords of a spill entry (R303). -/
def spillWords (e : RedEntry) : List Nat :=
  [e.addr.toNat, e.opnd.toNat, e.lin,
   e.crew * 2 ^ 56 + e.lane * 2 ^ 51 + (e.pseq.toNat % 2 ^ 31) * 2 ^ 20 + e.op.toNat * 2 ^ 16 + (if e.small then 2 ^ 15 else 0)]

/-- Write entry `k` of an ASID's spill area, translated and checked as a store of system software (R290, R303). -/
def State.spillWrite (s : State) (core : Nat) (e : RedEntry) (k : Nat) : Except Failure Unit × State :=
  let va := (s.asidEntry e.asid).redspill + BitVec.ofNat 64 (32 * k)
  match checkGlobal s { gang := e.gang, core := core, asid := e.asid, sup := true } .store va with
  | (.error f, s) => (.error f, s)
  | (.ok (.scratch _), s) => (.ok (), s)
  | (.ok (.global page _ _ _), s) =>
    let s := s.homeTouch (lineOf page.pa) page.keep
    (.ok (), (spillWords e).zipIdx.foldl (fun s w => s.homeWrite core (page.pa + 8 * w.2) 8 w.1) s)

/-- The entry takes a free place of its ASID's spill area; ENGFAULT with the area's address when there is none (R190, R303). -/
def State.spill (s : State) (core : Nat) (e : RedEntry) : Except Failure RedEntry × State :=
  match s.spillFree e.asid with
  | none => (.error ⟨cEngfault, (s.asidEntry e.asid).redspill⟩, s)
  | some k =>
    match s.spillWrite core e k with
    | (.error f, s) => (.error f, s)
    | (.ok _, s) => (.ok { e with spill := some k }, s)

/-- Hold a reduction on an ORDERED page in the core's buffer, or in the spill area when the buffer's 4,096 entries are in use (R190, R303). -/
def State.redHold (s : State) (core : Nat) (e : RedEntry) : Except Failure Unit × State :=
  let keep (s : State) (e : RedEntry) : Except Failure Unit × State :=
    (.ok (), s.modCore core fun c => { c with redbuf := c.redbuf ++ [e] })
  if ((s.core core).redbuf.filter fun x => x.spill.isNone).length < 4096 then keep s e
  else
    match s.spill core e with
    | (.ok e, s) => keep s e
    | (.error f, s) => (.error f, s)

/-- A list of buffered entries of a core, with those that satisfy `p` moved to the spill area, up to one that finds no room there or fails
(R335). -/
def spillEntries (p : RedEntry → Bool) : List RedEntry → List RedEntry → State → Nat → Bool × State
  | _, [], s, _ => (true, s)
  | done, e :: rest, s, core =>
    if !p e || e.spill.isSome then spillEntries p (done ++ [e]) rest s core
    else
      match s.spill core e with
      | (.error _, s) => (false, s)
      | (.ok e, s) =>
        let s := s.modCore core fun c => { c with redbuf := done ++ [e] ++ rest }
        spillEntries p (done ++ [e]) rest s core

/-- The order of a flush point: gang, crew, lane, program order (R133). -/
def redBefore (a b : RedEntry) : Bool :=
  if a.lin ≠ b.lin then a.lin < b.lin
  else if a.crew ≠ b.crew then a.crew < b.crew
  else if a.lane ≠ b.lane then a.lane < b.lane
  else a.pseq.toNat ≤ b.pseq.toNat

/-- Insert into a list sorted by `le`. -/
def insertBy (le : α → α → Bool) (x : α) : List α → List α
  | [] => [x]
  | y :: ys => if le x y then x :: y :: ys else y :: insertBy le x ys

/-- A stable insertion sort. -/
def sortBy (le : α → α → Bool) : List α → List α
  | [] => []
  | x :: xs => insertBy le x (sortBy le xs)

/-- The cores that hold buffered reductions satisfying `p`, with those entries. -/
def State.redPending (s : State) (p : RedEntry → Bool) : List (Nat × RedEntry) :=
  s.cores.foldl (fun l q => l ++ (q.2.redbuf.filter p).map fun e => (q.1, e)) []

/-- A flush point: the buffered reductions that satisfy `p` are sorted and applied, and leave their buffers (R133, R134). -/
def State.redDrain (s : State) (p : RedEntry → Bool) : State :=
  let batch := sortBy (fun a b => redBefore a.2 b.2) (s.redPending p)
  let s := { s with cores := s.cores.mapAll fun _ c => { c with redbuf := c.redbuf.filter fun e => !p e } }
  batch.foldl (fun s q => s.redApply q.1 q.2) s

end Sys2Proof.Machine
end

