-- ==== Sys2Proof/Machine/Assayer.lean ====
section
/-!
DEFINITION. The Assayer: bindings and descriptors (R233 to R235), records and the lookup of R237 and R240, updates (R245, R246), their
order, and DEFERRED tables (R249, R250).
-/
namespace Sys2Proof.Machine

/-! ## Values -/

/-- The type of a table's values. -/
def FstTable.fmt (b : FstTable) : Fmt := if b.single then fmtS else fmtD

/-- A slot's value in the table's type: bits [31:0] for FP32 (R239). -/
def FstTable.slot (b : FstTable) (x : Word) : Word := if b.single then x &&& 0xFFFFFFFF#64 else x

/-- The value of a pattern. -/
def fstNum (f : Fmt) (x : Word) : Num := decodeFp f x.toNat

/-- Is a pattern finite? -/
def fstFinite (f : Fmt) (x : Word) : Bool :=
  match fstNum f x with
  | .fin _ _ _ => true
  | _ => false

/-- The magnitude of a difference of finite values, exactly; none when one is not finite. -/
def absDiff (a b : Num) : Option Num :=
  match a, b with
  | .fin n1 m1 e1, .fin n2 m2 e2 =>
    let e0 := min e1 e2
    some (.fin false (alignTo e0 n1 m1 e1 - alignTo e0 n2 m2 e2).natAbs e0)
  | _, _ => none

/-- Exact a ≤ b of values that are not NaN. -/
def numLe (a b : Num) : Bool := cmpNum a b != .gt

/-- Max of two values that are not NaN. -/
def numLarger (a b : Num) : Num := if numLe a b then b else a

/-- g × r (R245). -/
def numScale (g r : Num) : Num := (mulNum g r).getD r

/-- 1 as a value. -/
def numOne : Num := .fin false 1 0

/-! ## Records (R237, R240) -/

/-- Does a record's box, its half-widths times `g`, contain an argument (R237, R245)? -/
def FstRecord.contains (r : FstRecord) (f : Fmt) (g : Num) (x : List Word) : Bool :=
  (x.zip (r.x0.zip r.r)).all fun p =>
    match absDiff (fstNum f p.1) (fstNum f p.2.1) with
    | some d => numLe d (numScale g (fstNum f p.2.2))
    | none => false

/-- The record that answers: the lowest SEQ that contains x (R237). -/
def fstFind (f : Fmt) (recs : List FstRecord) (x : List Word) : Option FstRecord := recs.find? fun r => r.contains f numOne x

/-- Output k of the lookup arithmetic, with what it signals (R240). -/
def FstRecord.output (r : FstRecord) (f : Fmt) (rm : BitVec 3) (x : List Word) (k : Nat) : Nat × Exc :=
  let d := x.length
  (x.zip r.x0).zipIdx.foldl (fun a p =>
    let (delta, e1) := fpSub f 0 p.1.1.toNat p.1.2.toNat
    let (acc, e2) := fpFma f rm false false (r.j.getD (k * d + p.2) 0).toNat delta a.1
    (acc, a.2 ||| e1 ||| e2)) ((r.f.getD k 0).toNat, 0)

/-! ## Instances -/

/-- The key of a table of an ASID. -/
def tableKey (asid : BitVec 12) (t : Nat) : Nat := asid.toNat * 32 + t

/-- The binding of a table. -/
def State.table? (s : State) (key : Nat) : Option FstTable := s.tables.get? key

/-- A die's instance of a table. -/
def State.instOf (s : State) (die key : Nat) : FstInstance := (s.die die).fst.getD key FstInstance.reset

/-- Change a die's instance of a table. -/
def State.modInst (s : State) (die key : Nat) (f : FstInstance → FstInstance) : State :=
  s.modDie die fun d => { d with fst := d.fst.set key (f (s.instOf die key)) }

/-- A saturating 64-bit count (R247). -/
def sat64 (n : Nat) : Nat := min n (2 ^ 64 - 1)

/-- Insert a record with HITS 0 and the next SEQ, a victim removed when the instance is full (R245): the outcome, and the instance. -/
def FstInstance.insert (i : FstInstance) (b : FstTable) (x r f j : List Word) : Nat × FstInstance :=
  let rec_ : FstRecord := { routine := b.routine, seq := i.next, hits := 0, x0 := x, r := r, f := f, j := j }
  let full := i.recs.length ≥ b.cap
  let victim := leastBy (fun a c => a.hits < c.hits || (a.hits == c.hits && a.seq ≤ c.seq)) i.recs
  let recs := if full then i.recs.filter fun y => some y.seq != victim.map fun v => v.seq else i.recs
  (if full then 3 else 2,
   { i with recs := recs ++ [rec_], next := sat64 (i.next + 1), inserts := sat64 (i.inserts + 1),
            evicts := if full then sat64 (i.evicts + 1) else i.evicts })

/-- The tolerance of output k (R245). -/
def FstTable.tol (b : FstTable) (k : Nat) (fk : Num) : Num :=
  let tau := fstNum fmtD (b.tau.getD k 0)
  let rel := match fk with
    | .fin _ m e => (mulNum (fstNum fmtD b.trel) (.fin false m e)).getD tau
    | _ => tau
  match b.tsrc with
  | 0 => tau
  | 1 => rel
  | _ => numLarger tau rel

/-- Is a record a candidate for an update (R245)? -/
def FstTable.candidate (b : FstTable) (x fs : List Word) (r : FstRecord) : Bool :=
  let f := b.fmt
  r.contains f (numLarger numOne (fstNum fmtD b.gamma)) x &&
  fs.zipIdx.all fun p =>
    let fk := fstNum f p.1
    match absDiff (decodeFp f (r.output f 0 x p.2).1) fk with
    | some d => numLe d (b.tol p.2 fk)
    | none => false

/-- A half-width grown to take in an offset (R245). -/
def growWidth (f : Fmt) (x x0 r : Word) : Word :=
  match absDiff (fstNum f x) (fstNum f x0) with
  | some (.fin _ m e) =>
    let d := (roundNum f 3 false m e false).1
    if numLe (fstNum f r) (decodeFp f d) then BitVec.ofNat 64 d else r
  | _ => r

/-- The update that FRET teaches (R245): its outcome, and the instance. -/
def FstInstance.learn (i : FstInstance) (b : FstTable) (x f j : List Word) : Nat × FstInstance :=
  let m := b.fmt
  if !(x.all (fstFinite m) && f.all (fstFinite m) && j.all (fstFinite m)) then (5, { i with rejects := sat64 (i.rejects + 1) })
  else
    match i.recs.find? (b.candidate x f) with
    | none => i.insert b x b.rho f j
    | some c =>
      if c.contains m numOne x then (4, { i with dups := sat64 (i.dups + 1) })
      else
        let r := (x.zip (c.x0.zip c.r)).map fun p => growWidth m p.1 p.2.1 p.2.2
        (1, { i with recs := i.recs.map (fun y => if y.seq == c.seq then { y with r := r } else y), grows := sat64 (i.grows + 1) })

/-- Apply one update (R245, R246): the outcome, or the number of records that FEVICT removed. -/
def FstInstance.apply (i : FstInstance) (b : FstTable) (u : FstUpdate) : Nat × FstInstance :=
  let m := b.fmt
  match u with
  | .learn x f j => i.learn b x f j
  | .put x r f j bad =>
    let neg (w : Word) : Bool := w.getLsbD (m.width - 1)
    if bad || !((x ++ r ++ f ++ j).all (fstFinite m)) || r.any neg then (5, { i with rejects := sat64 (i.rejects + 1) })
    else i.insert b x r f j
  | .evict x =>
    let keep := i.recs.filter fun r => !r.contains m numOne x
    let n := i.recs.length - keep.length
    (n, { i with recs := keep, evicts := sat64 (i.evicts + n) })
  | .clear => (0, { i with recs := [] })

/-- Apply the updates of a LIVE instance that have arrived, in order (R249). -/
def FstInstance.settle (i : FstInstance) (b : FstTable) : FstInstance :=
  if b.deferred then i else { i.queue.foldl (fun i q => (i.apply b q.upd).2) i with queue := [] }

/-- A die's instance with every update that arrived before (R249). -/
def State.settleInst (s : State) (die key : Nat) : State :=
  match s.table? key with
  | some b => if (s.instOf die key).queue.isEmpty then s else s.modInst die key fun i => i.settle b
  | none => s

/-- What a grid's lookups see: the instance, or its view of it in DEFERRED mode (R250). -/
def FstInstance.seen (i : FstInstance) (b : FstTable) (grid : Nat) : FstView :=
  let now : FstView := ⟨i.recs, i.hits, i.misses⟩
  if b.deferred then (i.views.get? grid).getD now else now

/-- Count the hit lanes and the missing lanes of an FCALL: at once, or held by the grid (R240, R241, R250). -/
def FstInstance.count (i : FstInstance) (b : FstTable) (grid : Nat) (seqs : List Nat) (misses : Nat) : FstInstance :=
  if b.deferred then
    let h := i.held.getD grid ⟨[], 0, 0⟩
    let h : FstHeld := ⟨seqs.foldl (fun m q => m.set q (m.getD q 0 + 1)) h.recs, h.hits + seqs.length, h.misses + misses⟩
    { i with held := i.held.set grid h }
  else
    { i with
      recs := i.recs.map fun r => { r with hits := sat64 (r.hits + (seqs.filter (· == r.seq)).length) }
      hits := sat64 (i.hits + seqs.length)
      misses := sat64 (i.misses + misses) }

/-! ## Updates on their way (R249, R250) -/

/-- Records of a die's carve-out that no binding reserves (R233, R283). -/
def State.unreserved (s : State) (die : Nat) : Nat := (s.die die).fstsize - s.tables.foldl (fun n b => n + b.2.cap) 0

/-- DEFERRED updates queued on a die; each takes the place of a record (R283; log 18). -/
def State.deferredOn (s : State) (die : Nat) : Nat :=
  (s.die die).fst.foldl (fun n i => match s.table? i.1 with
    | some b => if b.deferred then n + i.2.queue.length else n
    | none => n) 0

/-- Is there room for `n` more updates of a table on a die (R250)? -/
def State.fstRoom (s : State) (die : Nat) (b : FstTable) (n : Nat) : Bool :=
  !b.deferred || s.deferredOn die + n ≤ s.unreserved die

/-- Who submits an update: grid, gang index, crew index and lane (R250). -/
structure Teacher where
  grid : Nat
  lin : Nat
  crew : Nat
  lane : Nat
deriving DecidableEq, Repr

/-- An update arrives at an instance. Its place in the instance's order of arrival is its place in its lane's program order (R135). -/
def State.queueUpd (s : State) (die key : Nat) (t : Teacher) (u : FstUpdate) : State :=
  s.modInst die key fun i =>
    { i with queue := i.queue ++ [⟨t.grid, t.lin, t.crew, t.lane, i.arrived, u⟩], arrived := i.arrived + 1 }

/-- Submit an update with an outcome: QUEUED, or its outcome after all earlier ones (R245, R249, R250). -/
def State.submitUpd (s : State) (die key : Nat) (b : FstTable) (t : Teacher) (u : FstUpdate) : Nat × State :=
  if b.deferred then (0, s.queueUpd die key t u)
  else
    let s := s.settleInst die key
    let (n, i) := (s.instOf die key).apply b u
    (n, s.modInst die key fun _ => i)

/-- ASSAYER_UPDATE: the oldest update that has arrived at a LIVE instance is applied (R245, R249). -/
def execAssayerUpdate (die table : Nat) (s : State) : Host.Outcome State Fault Refusal :=
  .next (match s.table? table with
    | some b =>
      if b.deferred then s
      else match (s.instOf die table).queue with
        | [] => s
        | q :: rest => s.modInst die table fun i => { (i.apply b q.upd).2 with queue := rest }
    | none => s)

/-! ## The grid's boundary (R250) -/

/-- The order of a boundary: gang, crew, lane, and program order within a lane. -/
def fstBefore (a b : FstQueued) : Bool :=
  if a.lin ≠ b.lin then a.lin < b.lin
  else if a.crew ≠ b.crew then a.crew < b.crew
  else if a.lane ≠ b.lane then a.lane < b.lane
  else a.pseq ≤ b.pseq

/-- A grid's boundary at an instance: the held increments are added, then its queue is applied in order. `others` are the grids that
still run: they keep what they saw. -/
def FstInstance.boundary (i : FstInstance) (b : FstTable) (grid : Nat) (others : List Nat) : FstInstance :=
  let h := i.held.getD grid ⟨[], 0, 0⟩
  let mine := i.queue.filter fun q => q.grid = grid
  let now : FstView := ⟨i.recs, i.hits, i.misses⟩
  let views := others.foldl (fun v g => if (v.get? g).isSome then v else v.set g now) (i.views.erase grid)
  let i := { i with
    recs := i.recs.map fun r => { r with hits := sat64 (r.hits + h.recs.getD r.seq 0) }
    hits := sat64 (i.hits + h.hits)
    misses := sat64 (i.misses + h.misses)
    held := i.held.erase grid
    queue := i.queue.filter fun q => q.grid ≠ grid
    views := views }
  (sortBy fstBefore mine).foldl (fun i q => (i.apply b q.upd).2) i

/-- Has a grid begun and not come to its boundary: some of its gangs have been placed (R250, R316)? -/
def Grid.begun (g : Grid) : Bool := g.st == .running || (g.st == .placing && g.nextPos ≠ 0)

/-- A grid's boundary on every die (R136, R250). -/
def State.fstBoundary (s : State) (grid : Nat) : State :=
  let others := (s.grids.filter fun g => g.1 ≠ grid && g.2.begun).map Prod.fst
  let pass (k : Nat) (i : FstInstance) : FstInstance :=
    match s.table? k with
    | some b => if b.deferred then i.boundary b grid others else i
    | none => i
  { s with dies := s.dies.mapAll fun _ d => { d with fst := d.fst.mapAll pass } }

/-! ## Binding (R234, R235, R248) -/

/-- The table that a descriptor's 128 bytes describe; none when R235 refuses it. -/
def readDescriptor (m : List Byte) : Option FstTable :=
  let n (off k : Nat) : Nat := ofBytes ((m.drop off).take k)
  let x := n 0 8
  let y := n 8 8
  let w (off : Nat) : Word := BitVec.ofNat 64 (n off 8)
  let dim := bits x 55 52
  let outs := bits x 51 49
  let single := x.testBit 48
  let tau := (List.range 4).map fun k => w (0x20 + 8 * k)
  let rho := (List.range 8).map fun k => w (0x40 + 8 * k)
  let floats := [w 0x10, w 0x18] ++ tau ++ rho
  let entry : Pc := BitVec.ofNat 32 (bits y 31 0)
  if bits x 63 56 ≠ 0 || bits x 44 32 ≠ 0 || bits y 47 42 ≠ 0 || dim = 0 || dim > 8 || outs = 0 || outs > 4 || bits x 47 46 = 3 ||
      bits x 31 0 = 0 || bits x 31 0 > 131072 || entry.toNat % 4 ≠ 0 || floats.any (fun v => v.getLsbD 63 || !fstFinite fmtD v) ||
      (tau.drop outs).any (· != 0) || (rho.drop dim).any (· != 0) then none
  else
    let single32 (v : Word) : Word :=
      match fstNum fmtD v with
      | .fin _ m e => BitVec.ofNat 64 (roundNum fmtS 3 false m e false).1
      | _ => v
    some { dim := dim, outs := outs, single := single, tsrc := bits x 47 46, deferred := x.testBit 45, cap := bits x 31 0,
           routine := BitVec.ofNat 16 (bits y 63 48), ovl := bits y 41 32, entry := entry, gamma := w 0x10, trel := w 0x18, tau := tau,
           rho := (rho.take dim).map fun v => if single then single32 v else v }

/-- Drop every instance of a table (R248). -/
def State.dropInstances (s : State) (key : Nat) : State :=
  { s with dies := s.dies.mapAll fun _ d => { d with fst := d.fst.erase key } }

/-- Is there room on every die for a table of `cap` records beside the other bindings (R248)? -/
def State.bindRoom (s : State) (key cap : Nat) : Bool :=
  let others := s.tables.foldl (fun n b => if b.1 = key then n else n + b.2.cap) 0
  s.liveDies.all fun d => others + cap ≤ (s.die d).fstsize

/-- The sizes that waited for no table to be bound take effect (R283). -/
def State.applyFstsize (s : State) : State :=
  if !s.tables.isEmpty then s
  else { s with dies := s.dies.mapAll fun _ d => { d with fstsize := d.fstNext.getD d.fstsize, fstNext := none } }

/-- A die's carve-out is to grow to a size that R283 allows: it does so at once while no table of any ASID is bound, and otherwise as soon as
none is (R250, R283; log 102). -/
def State.growFst (s : State) (die records : Nat) : State :=
  if records % 2048 = 0 && records ≤ 131072 && (s.die die).fstsize ≤ records then
    (s.modDie die fun d => { d with fstNext := some records }).applyFstsize
  else s

/-- Bind a table, or unbind it: the status of R248. -/
def State.bindTable (s : State) (key : Nat) (b : Option FstTable) : Nat × State :=
  match b with
  | none => (2, { s.dropInstances key with tables := s.tables.erase key }.applyFstsize)
  | some b =>
    if !s.bindRoom key b.cap then (1, s)
    else (0, { s.dropInstances key with tables := s.tables.set key b })

/-- FSTSIZE_SET: Foreman sets a die's carve-out, a multiple of 2,048 records up to 131,072; it takes effect only while no table of any ASID
is bound (R283). -/
def execFstsizeSet (die records : Nat) (s : State) : Host.Outcome State Fault Refusal :=
  .next (if s.tables.isEmpty && records % 2048 = 0 && records ≤ 131072 then s.modDie die fun d => { d with fstsize := records } else s)

end Sys2Proof.Machine
end

