-- ==== Sys2Proof/Machine/Istore.lean ====
section
/-!
DEFINITION. The instruction store of a core: overlays and their slots, pins, quotas and room (R267 to R269, R273), the version
table and code map (R274, R275), and the fetch of an instruction word (R72).
-/
namespace Sys2Proof.Machine

/-! ## The kernel's directory (R70) -/

/-- Length in bytes of an overlay of this many slots (R70). -/
def ovlBytes (slots : Nat) : Nat := 4096 * slots

/-- The overlay of the directory that holds a code offset: its number, OFFSET and SLOTS (R70, R155). Of entries that overlap the lowest-numbered
one holds it (log 110). -/
def overlayAt (h : Header) (pc : Nat) : Option (Nat × Nat × Nat) :=
  (h.dir.zipIdx.find? fun e => e.1.1 ≤ pc && pc < e.1.1 + ovlBytes e.1.2).map fun e => (e.2, e.1.1, e.1.2)

/-- Directory entry `n` (R70). -/
def dirEntry (h : Header) (n : Nat) : Option (Nat × Nat) := h.dir[n]?

/-! ## Slots -/

/-- The index of an overlay among a core's overlays, by its tag (R267). -/
def ovlIndex (c : Core) (asid : BitVec 12) (ver : BitVec 16) (off : Nat) : Option Nat :=
  c.ovls.findIdx? fun o => o.asid == asid && o.ver == ver && o.offset == off

/-- A core's overlay, by its tag. -/
def ovlFind (c : Core) (asid : BitVec 12) (ver : BitVec 16) (off : Nat) : Option Overlay :=
  c.ovls.find? fun o => o.asid == asid && o.ver == ver && o.offset == off

/-- Is the overlay resident on the core? -/
def State.ovlResident (s : State) (core : Nat) (asid : BitVec 12) (ver : BitVec 16) (off : Nat) : Bool :=
  match ovlFind (s.core core) asid ver off with
  | some o => o.resident
  | none => false

/-- The quota of an ASID on a core (R269). -/
def quotaOf (c : Core) (asid : BitVec 12) : Nat := c.quota.getD asid.toNat 0

/-- Slots of an ASID's quota in use on a core. -/
def slotsUsed (c : Core) (asid : BitVec 12) : Nat :=
  c.ovls.foldl (fun n o => if o.asid == asid && !o.wants then n + o.slots else n) 0

/-- Slots of an ASID's quota not in use (R273). -/
def slotsFree (c : Core) (asid : BitVec 12) : Nat := quotaOf c asid - slotsUsed c asid

/-- Slots that a load of an ASID finds free: within its quota, and within the core's 48 (R3, R269). -/
def slotsOpen (c : Core) (asid : BitVec 12) : Nat :=
  min (slotsFree c asid) (48 - c.ovls.foldl (fun n o => if o.wants then n else n + o.slots) 0)

/-- The pins that one crew holds on the overlay at an offset: its return entries, and one when the PC of some thread that has
not exited lies in it (R268). -/
def crewPins (h : Header) (c : Crew) (off : Nat) : Nat :=
  let byEntries := (h.dir.zipIdx.filter fun e => e.1.1 = off).foldl (fun n e => n + c.pins.getD e.2 0) 0
  let byPc := laneList.any fun l =>
    (c.th l).st != .exited && (match overlayAt h (c.th l).pc.toNat with | some (_, o, _) => o == off | none => false)
  byEntries + (if byPc then 1 else 0)

/-- The pins on an overlay of a core: the sum over the crews of its ASID and version there (R268). -/
def State.pinsOn (s : State) (core : Nat) (asid : BitVec 12) (ver : BitVec 16) (off : Nat) : Nat :=
  s.crews.foldl (fun n p =>
    let g := s.gang (gangOf p.1)
    if p.2.core = core && g.core0.isSome && g.asid == asid && p.2.cver == ver then n + crewPins (p.2.header g) p.2 off else n) 0

/-- The order in which R269 evicts: evict-pending first, then least recently entered, ties by code offset, then version. -/
def evictBefore (a b : Overlay) : Bool :=
  if a.evict != b.evict then a.evict
  else if !a.evict && a.entered ≠ b.entered then a.entered < b.entered
  else if a.offset ≠ b.offset then a.offset < b.offset
  else a.ver ≤ b.ver

/-- Evict unpinned resident overlays of an ASID until `need` slots are free; none when they do not suffice (R269). -/
def makeRoom : Nat → State → Nat → BitVec 12 → Nat → Option State
  | 0, _, _, _, _ => none
  | k + 1, s, core, asid, need =>
    let c := s.core core
    if need ≤ slotsOpen c asid then some s
    else
      let cand := c.ovls.filter fun o => o.asid == asid && o.resident && s.pinsOn core asid o.ver o.offset = 0
      match leastBy evictBefore cand with
      | none => none
      | some o =>
        makeRoom k (s.modCore core fun c => { c with ovls := c.ovls.filter fun x =>
          !(x.asid == o.asid && x.ver == o.ver && x.offset == o.offset) }) core asid need

/-- Change one overlay of a core. -/
def State.modOvl (s : State) (core : Nat) (asid : BitVec 12) (ver : BitVec 16) (off : Nat) (f : Overlay → Overlay) : State :=
  s.modCore core fun c => { c with ovls := c.ovls.map fun o =>
    if o.asid == asid && o.ver == ver && o.offset == off then f o else o }

/-- A pending eviction of an overlay is cancelled (R270). -/
def State.ovlCancel (s : State) (core : Nat) (asid : BitVec 12) (ver : BitVec 16) (off : Nat) : State :=
  s.modOvl core asid ver off fun o => { o with evict := false }

/-- Start the load of an overlay unless it is resident or loading (R267, R270). A load that finds no room waits (R269). An overlay that is
never entered ranks from the time at which its load is started (log 112). -/
def State.ovlStart (s : State) (core : Nat) (asid : BitVec 12) (ver : BitVec 16) (off slots : Nat) : State :=
  match ovlFind (s.core core) asid ver off with
  | some _ => s
  | none =>
    let o : Overlay := ⟨asid, ver, off, slots, [], false, true, false, s.time, false⟩
    match makeRoom 49 s core asid slots with
    | some s => s.modCore core fun c => { c with ovls := c.ovls ++ [{ o with wants := false }] }
    | none => s.modCore core fun c => { c with ovls := c.ovls ++ [o] }

/-- An overlay is entered now, by OVCALL, RET, an FCALL miss or OVWAIT, or by a handler's start (R269, R326). -/
def State.ovlEnter (s : State) (core : Nat) (asid : BitVec 12) (ver : BitVec 16) (off : Nat) : State :=
  s.modOvl core asid ver off fun o => { o with entered := s.time }

/-- Evict-pending overlays whose pins have reached 0 are freed (R273), and loads that waited for room take it (R269). -/
def State.settleOvls (s : State) (core : Nat) : State :=
  let gone := (s.core core).ovls.filter fun o => o.evict && o.resident && s.pinsOn core o.asid o.ver o.offset = 0
  let s := gone.foldl (fun s o => s.modCore core fun c => { c with ovls := c.ovls.filter fun x =>
    !(x.asid == o.asid && x.ver == o.ver && x.offset == o.offset) }) s
  ((s.core core).ovls.filter fun o => o.wants).foldl (fun s o =>
    match makeRoom 49 s core o.asid o.slots with
    | some s => s.modOvl core o.asid o.ver o.offset fun o => { o with wants := false }
    | none => s) s

/-! ## Versions (R274, R275) -/

/-- Physical address of 8 bytes of memory that the device reads for an ASID, when they translate. -/
def State.devicePa (s : State) (asid : BitVec 12) (va : Word) : Option Nat :=
  match walk s asid va with
  | .ok l => let pa := leafPa l va false; if (s.windowOf pa).isSome then some pa else none
  | .error _ => none

/-- A doubleword at a virtual address, as the device reads it (the version table: log 14). -/
def State.deviceRead (s : State) (asid : BitVec 12) (va : Word) : Option Word :=
  (s.devicePa asid va).map fun pa => BitVec.ofNat 64 (readNat s.mem pa 8)

/-- EPRI and CMP of the page of an address that the device reaches. -/
def State.deviceKeep (s : State) (asid : BitVec 12) (va : Word) : Keep := match walk s asid va with
  | .ok l => pteKeep l.pte
  | .error _ => ⟨0, false⟩

/-- Write a doubleword at a virtual address, as the device writes the version table: a transaction at the line's home, after which no core
reads an older copy as an acquire (R298 to R300). -/
def State.deviceWrite (s : State) (asid : BitVec 12) (va : Word) (x : Word) : State :=
  match s.devicePa asid va with
  | some pa =>
    let line := lineOf pa
    ((((s.homeTouch line (s.deviceKeep asid va)).recallRecord line).purgeAll line).memWrite pa (toBytes 8 x.toNat)).deviceRelease line
  | none => s

/-- The device reads CUR as a SYSTEM-scope acquire (R275). -/
def State.versionAcquire (s : State) (asid : BitVec 12) : State :=
  match s.devicePa asid (s.asidEntry asid).cvtab with
  | some pa => s.deviceAcquire (lineOf pa)
  | none => s

/-- A core's store of CUR, a SYSTEM-scope release at the line's home, whose dirty lines have been written back before (R276, R299). -/
def State.publishStore (s : State) (core : Nat) (asid : BitVec 12) (v : BitVec 16) : State :=
  let va := (s.asidEntry asid).cvtab
  match s.devicePa asid va with
  | some pa =>
    let line := lineOf pa
    let s := (s.homeTouch line (s.deviceKeep asid va)).continueRelease core line
    ((s.homeWrite core pa 8 v.toNat).recordRelease core line).cleanHome line
  | none => s

/-- CUR, the published version (R274). -/
def State.curVersion (s : State) (asid : BitVec 12) : Option (BitVec 16) :=
  (s.deviceRead asid (s.asidEntry asid).cvtab).map fun x => BitVec.ofNat 16 x.toNat

/-- Address of entry v of the version table (R274). -/
def versionAt (cvtab : Word) (v : BitVec 16) : Word := cvtab + 16 * (BitVec.ofNat 64 v.toNat + 1)

/-- The two doublewords of a version's entry (R274). -/
def State.version (s : State) (asid : BitVec 12) (v : BitVec 16) : Option (Word × Word) :=
  let a := versionAt (s.asidEntry asid).cvtab v
  match s.deviceRead asid a, s.deviceRead asid (a + 8) with
  | some x, some y => some (x, y)
  | _, _ => none

/-- The physical address of a code offset of a version, through its code map (R274). -/
def State.codePa (s : State) (asid : BitVec 12) (v : BitVec 16) (off : Nat) : Option Nat :=
  match s.version asid v with
  | some (x, y) =>
    if !wbit x 0 || wbits y 18 0 ≤ off / 16384 then none
    else
      let e : Word := BitVec.ofNat 64 (readNat s.mem (wbits x 63 12 * 4096 + 8 * (off / 16384)) 8)
      some (pteAddr e + off % 16384)
  | none => none

/-- A little-endian number of a version's code space (R5, R274). -/
def State.codeRead (s : State) (asid : BitVec 12) (v : BitVec 16) (off n : Nat) : Option Nat :=
  (s.codePa asid v off).map fun pa => readNat s.mem pa n

/-- The nonzero words of an overlay's code, read from the version's pages (R267), and whether a line of it is poisoned. Slots past the version's
PAGES hold zero words (R70 says nothing of them: log 110). -/
def State.loadCode (s : State) (asid : BitVec 12) (v : BitVec 16) (off slots : Nat) : Store Code × Bool :=
  (List.range slots).foldl (fun r k =>
    let o := off + 4096 * k
    match s.codePa asid v o with
    | none => r
    | some pa =>
      let near := s.mem.filter fun c => pa ≤ c.1 && c.1 < pa + 4096
      let words := (List.range 1024).filterMap fun j =>
        let x := readNat near (pa + 4 * j) 4
        if x = 0 then none else some (o + 4 * j, (BitVec.ofNat 32 x : Code))
      (r.1 ++ words, r.2 || s.poison.any fun l => lineOf pa ≤ l && l < lineOf pa + 32)) ([], false)

/-- BINDS of a version changes by a signed amount; when it becomes 0 and the version is not CUR, VALID is cleared and every core
frees the version's slots (R275). -/
def State.addBinds (s : State) (asid : BitVec 12) (v : BitVec 16) (d : Int) : State :=
  match s.version asid v with
  | none => s
  | some (x, y) =>
    let a := versionAt (s.asidEntry asid).cvtab v
    let n := ((wbits y 63 32 : Int) + d).toNat % 2 ^ 32
    let y' : Word := BitVec.ofNat 64 (n * 2 ^ 32 + wbits y 31 0)
    let s := s.deviceWrite asid (a + 8) y'
    if n = 0 && s.curVersion asid ≠ some v then
      let s := s.deviceWrite asid a (x &&& ~~~1#64)
      { s with cores := s.cores.mapAll fun _ c => { c with ovls := c.ovls.filter fun o => !(o.asid == asid && o.ver == v) } }
    else s

/-! ## Fetch (R72) -/

/-- The word at a code offset of a crew's bound version, from the core's instruction store; none when its overlay is not resident
there. -/
def State.fetchWord (s : State) (core : Nat) (asid : BitVec 12) (ver : BitVec 16) (h : Header) (pc : Pc) : Option Code :=
  match overlayAt h pc.toNat with
  | none => none
  | some (_, off, _) =>
    match ovlFind (s.core core) asid ver off with
    | some o => if o.resident then some (o.code.getD pc.toNat 0) else none
    | none => none

end Sys2Proof.Machine
end

