-- ==== Sys2Proof/Machine/Ops.lean ====
section
/-!
DEFINITION. The named operations that every instruction shares: the issue of an instruction by a fragment with the decode checks
of R87, its retirement (R23 to R25, R153), exits and waits at CONV (R158, R159), gang barriers (R199), taking a trap with its
frame (R323 to R329), and the return from a trap (R331).
-/
namespace Sys2Proof.Machine

/-! ## Issue -/

/-- An instruction under execution: its crew, the fragment's lanes F, the word's address, the taking lanes, the first word of its
hint run (R85), whether the latches are invalid for it because it issues from another fragment (R25), and the run's hints. -/
structure Ctx where
  key : Nat
  F : Mask
  pc : Pc
  i : Instr
  take : Mask
  start : Pc
  diff : Bool
  run : Option HintRun
deriving DecidableEq, Repr

/-- Where a lane of F goes when the instruction is done. -/
inductive After where
  /-- The next word. -/
  | next
  /-- A target, with a privilege. -/
  | goto (pc : Pc) (sup : Bool)
  | exit
  /-- A wait, with the address at which the lane then stands. -/
  | wait (why : Status) (pc : Pc)
deriving DecidableEq, Repr

/-- The gang of an instruction. -/
def Ctx.gang (x : Ctx) : Nat := gangOf x.key
/-- The address of the word after the instruction. -/
def Ctx.npc (x : Ctx) : Pc := x.pc + 4
/-- The lowest taking lane. -/
def Ctx.low (x : Ctx) : Lane := (lowest x.take).getD 0

/-- The privilege of a fragment: that of its lowest lane. -/
def Crew.supOf (c : Crew) (F : Mask) : Bool := ((lowest F).map fun l => (c.th l).sup).getD false

/-- Does some live thread stand outside F? -/
def Crew.others (c : Crew) (F : Mask) : Bool := c.live &&& ~~~F != 0

/-- Does an issue from F come from another fragment than the crew's previous one (R25)? -/
def Crew.differs (c : Crew) (F : Mask) : Bool :=
  if c.restored.isSome then c.restored ≠ some F
  else match c.last with
    | none => false
    | some m => m &&& ~~~c.exited != F

/-- The fragment that a live lane stands in (R14). -/
def Crew.fragOf (c : Crew) (l : Lane) : Mask :=
  maskOf fun m => inMask c.live m && (c.th m).pc == (c.th l).pc && (c.th m).sup == (c.th l).sup

/-- The crew's count of an issue from F: the fairness count, which restarts at 0 with an issue that the fairness condition names (R152 gives
no number: log 87), the ages of the fragments (R152), the fragment of R25's test (not for TRET), and the latches, which an issue from
another fragment makes invalid before it reads them (R25, R26; log 88). -/
def Crew.noteIssue (c : Crew) (F : Mask) (tret : Bool) : Crew :=
  let n := c.issues + 1
  let same :=
    if !c.others F then 0
    else if F = c.sameSet then c.same + 1
    else if 64 ≤ c.same then 0
    else 1
  let now (l : Lane) : Mask := if inMask F l then F else c.fragOf l
  let latches := if c.differs F then invalidLatches c.latches else c.latches
  { c with
    same := same
    sameSet := F
    force := none
    issues := n
    seen := lanes now
    ages := lanes fun l => if inMask F l then n else if now l = c.seen.at l then c.ages.at l else c.issues
    latches := latches
    found := latches
    last := if tret then c.last else some F
    restored := none }

/-- The guard of an instruction: its field, or the run's GUARD hint for a Q-form word; SEL and the hints have none (R84, R142). -/
def guardOf (i : Instr) (run : Option HintRun) : BitVec 3 :=
  match i.guardField with
  | some g => g
  | none => if i.acceptsGuard then (run.bind fun r => r.guard).getD 0 else 0

/-- A hint run that the instruction refuses (R84). -/
def runMisuse (i : Instr) (run : Option HintRun) : Bool :=
  match run with
  | none => false
  | some r =>
    match i with
    | .nop | .stall _ => true
    | .rnd _ => r.rnd.isSome
    | .ximm _ => r.ximm.length = 3
    | .guard _ => r.guard.isSome
    | .scope _ _ => r.scope.isSome
    | _ => (r.rnd.isSome && !i.acceptsRnd) || (!r.ximm.isEmpty && !i.acceptsXimm) || (r.guard.isSome && !i.acceptsGuard) ||
        (r.scope.isSome && !i.acceptsScope)

/-- PBEGIN in a kernel without the proposal bank (R71, R251). -/
def propMissing (i : Instr) (h : Header) : Bool :=
  match i with
  | .pbegin _ => !h.prop
  | _ => false

/-- Does a source name an invalid latch (R26)? -/
def Crew.badLatch (c : Crew) (i : Instr) : Bool :=
  i.srcs.any fun s => s ≥ 48 && s < 52 && !(c.latches[(s - 48).toNat % 4]).valid

/-- The decode checks of R87, in order: ILLEGAL, RESBITS, REGLIMIT, SUPERONLY, LATCH. -/
def decodeCheck (i : Instr) (h : Header) (run : Option HintRun) (sup : Bool) (c : Crew) : Option (BitVec 8) :=
  if i.illegal || i.isPorter || runMisuse i run || propMissing i h then some cIllegal
  else if i.badDst then some cResbits
  else if i.regNumbers.any fun n => n ≥ h.regs then some cReglimit
  else if i.superOnly && !sup then some cSuperonly
  else if c.badLatch i then some cLatch
  else none

/-! ## Exits and pins (R158, R268) -/

/-- Add to the pins that a lane's return entries hold on an overlay, never below 0. -/
def Crew.addPins (c : Crew) (l : Lane) (ovl : Nat) (up : Bool) (n : Nat) : Crew :=
  let f (x : Nat) : Nat := if up then x + n else x - n
  let k := (l.val + 1) * 1024 + ovl
  { c with pins := (c.pins.set ovl (f (c.pins.getD ovl 0))).set k (f (c.pins.getD k 0)) }

/-- Drop every pin that a lane's return entries hold. -/
def Crew.dropPins (c : Crew) (l : Lane) : Crew :=
  c.pins.foldl (fun c p => if p.1 / 1024 = l.val + 1 then c.addPins l (p.1 % 1024) false p.2 else c) c

/-- A thread ends: its shadow is discarded, its return stack is dropped (R28, R158). -/
def Thread.ended (t : Thread) : Thread := { t with st := .exited, rstk := [], rsdep := 0, pmode := false, wm := 0 }

/-- Lanes end. -/
def Crew.exitLanes (c : Crew) (m : Mask) : Crew :=
  let c := if c.pins.isEmpty then c else (maskLanes m).foldl Crew.dropPins c
  c.updThr m fun _ t => t.ended

/-! ## Retirement -/

/-- The thread of a lane of F after the instruction. -/
def After.thread (a : After) (x : Ctx) (t : Thread) : Thread :=
  match a with
  | .next => { t with pc := x.npc }
  | .goto pc sup => { t with pc := pc, sup := sup }
  | .exit => t
  | .wait why pc => { t with pc := pc, st := why }

/-- Do the lanes of F leave with different next addresses? Lanes that exit do not count (R153). -/
def splits (c : Crew) (F : Mask) : Bool :=
  let out := (maskLanes F).filter fun l => (c.th l).st != .exited
  match out with
  | [] => false
  | a :: rest => rest.any fun l =>
    (c.th l).pc != (c.th a).pc || (c.th l).sup != (c.th a).sup || ((c.th l).st == .live) != ((c.th a).st == .live)

/-- Does a lane of F reach the address and privilege of a live thread outside F (R14, R153)? -/
def merges (c : Crew) (F : Mask) : Bool :=
  (maskLanes (c.live &&& F)).any fun l => (maskLanes (c.live &&& ~~~F)).any fun m =>
    (c.th l).pc == (c.th m).pc && (c.th l).sup == (c.th m).sup

/-- A hint word whose fragment then holds a pending run, and so joins no thread without it (R85). -/
def extendsRun : Instr → Bool
  | .rnd _ | .ximm _ | .guard _ | .scope _ _ => true
  | _ => false

/-- Does a lane that waits at the next word get there by sequential flow? A wait for the overlay of a call's or a return's target is none
(R156). -/
def Status.flows : Status → Bool
  | .parked (.overlay _) | .parked (.called _) => false
  | _ => true

/-- Retirement: each lane of F goes on, the run is consumed, and the latches take the results of the instruction or become
invalid (R23, R25). `inval` is set by taken branches and their kin. -/
def Crew.retire (c : Crew) (h : Header) (x : Ctx) (pushes : List Latch) (inval : Bool) (after : Lane → After) : Crew :=
  let seq := (overlayAt h x.pc.toNat).map fun o => o.1
  let c := c.exitLanes (maskOf fun l => inMask x.F l && after l == .exit)
  let c := { c.updThr x.F fun l t => (after l).thread x t with
    seqOvl := lanes fun l =>
      if inMask x.F l then
        match after l with
        | .next => seq
        | .wait why pc => if pc = x.npc && why.flows then seq else none
        | _ => none
      else c.seqOvl.at l
    run := none }
  let bad := x.i.exchanges || x.diff || inval || splits c x.F || (merges c x.F && !extendsRun x.i)
  { c with latches := if bad then invalidLatches c.latches else pushes.foldl pushLatch c.latches }

/-! ## Waits at CONV (R159) -/

/-- The lanes that wait at the CONV at an address. -/
def Crew.convAt (c : Crew) (a : Pc) : Mask :=
  maskOf fun l => match (c.th l).st with
    | .waiting _ => (c.th l).pc == a
    | _ => false

/-- Lanes that count as exited for the test of the CONV at an address (R159, R333). -/
def Crew.goneAt (c : Crew) (a : Pc) : Mask := maskOf fun l => (c.th l).st == .exited || (c.th l).left.contains a

/-- Does the set of lanes that wait at an address complete (R159)? -/
def Crew.convDone (c : Crew) (a : Pc) : Bool :=
  let s := c.convAt a
  let ok := s ||| c.goneAt a
  (maskLanes s).all fun l => match (c.th l).st with
    | .waiting m => m &&& ~~~ok == 0
    | _ => true

/-- Lanes that have waited at an instruction go on at its next word, which they reach sequentially (R156). -/
def Crew.goOn (c : Crew) (h : Header) (m : Mask) : Crew :=
  { c.updThr m fun _ t => { t with pc := t.pc + 4, st := .live } with
    seqOvl := lanes fun l => if inMask m l then (overlayAt h (c.th l).pc.toNat).map (fun o => o.1) else c.seqOvl.at l }

/-- Let the lanes that wait at an address leave together. -/
def Crew.convLeave (c : Crew) (h : Header) (a : Pc) : Crew := c.goOn h (c.convAt a)

/-- Test every CONV at which lanes wait (R159). -/
def Crew.convTest (c : Crew) (h : Header) : Crew :=
  let addrs := laneList.filterMap fun l => match (c.th l).st with
    | .waiting _ => some (c.th l).pc
    | _ => none
  addrs.eraseDups.foldl (fun c a => if c.convDone a then c.convLeave h a else c) c

/-! ## Gang barriers (R199, R200) -/

/-- The crews of a gang that are not freed. -/
def State.crewsOf (s : State) (g : Nat) : List (Nat × Crew) := s.crews.filter fun p => gangOf p.1 = g

/-- Every thread of every crew has arrived or exited, and some thread that has not exited has arrived. -/
def State.barrierFull (s : State) (g id : Nat) : Bool :=
  let cs := s.crewsOf g
  cs.all (fun p => p.2.exited ||| p.2.barm.getD id 0 == fullMask) && cs.any fun p => p.2.exited != fullMask

/-- Is a count past the generation `g` (R199)? -/
def passed (count g : BitVec 32) : Bool := let d := (count - g).toNat; 1 ≤ d && d < 2 ^ 31

/-- Does a wait end when barrier `id` reaches `count`? -/
def Park.barrierDone (p : Park) (id : Nat) (count : BitVec 32) : Bool :=
  match p with
  | .barrier k g | .again k g | .generation k g => k == id && passed count g
  | _ => false

/-- Wake the lanes of a crew whose wait satisfies `p`. -/
def Crew.wake (c : Crew) (p : Park → Bool) : Crew :=
  c.updThr (maskOf fun l => match (c.th l).st with
    | .parked w => p w
    | _ => false) fun _ t => { t with st := .live }

/-- A generation completes when every crew of the gang has arrived; the waits that it ends are GANG-scope acquires (R199 to R201),
which a gang on one core makes without dropping copies (R301). -/
def State.barrierTest (s : State) (g id : Nat) : State :=
  if !s.barrierFull g id then s
  else
    let count := (s.gang g).bargen.getD id 0 + 1
    let s := s.modGang g fun x => { x with bargen := x.bargen.setIfInBounds id count }
    (s.crewsOf g).foldl (fun s p =>
      let c := { p.2 with barm := p.2.barm.setIfInBounds id 0 }
      let c' := c.wake fun w => w.barrierDone id count
      let s := s.setCrew p.1 c'
      if c'.live = c.live || (s.gang g).ncore = 1 then s else s.eagerAcquire c.core) s

/-- Test the barriers at which some thread of the gang has arrived: a thread that exits counts as arrived (R199). -/
def State.barrierTests (s : State) (g : Nat) : State :=
  (List.range 16).foldl (fun s id =>
    if (s.crewsOf g).any fun p => p.2.barm.getD id 0 &&& ~~~p.2.exited != 0 then s.barrierTest g id else s) s

/-! ## Trap frames (R324, R327, R328) -/

/-- Virtual address of a frame slot (R324). -/
def Gang.frameVa (g : Gang) (idx slot : Nat) : Nat := g.ctxVa + (idx * 4 + slot) * 16384
/-- Physical address of a frame slot (R324). -/
def Gang.framePa (g : Gang) (idx slot : Nat) : Nat := g.ctxPa + (idx * 4 + slot) * 16384

/-- Tag codes (R17). -/
def Tag.code : Tag → Nat
  | .u => 0
  | .a => 1
  | .g => 2

/-- The tag of a saved code; code 3 is taken as G (R331). -/
def tagOfCode : Nat → Tag
  | 0 => .u
  | 1 => .a
  | _ => .g

/-- Per-lane fields of `n` bytes from an offset. -/
def laneFields (off n : Nat) (f : Lane → Nat) : List (Nat × Nat × Nat) := laneList.map fun l => (off + n * l.val, n, f l)

/-- The fields of a replay entry at an offset (R328). -/
def entryFields (off : Nat) (e : Entry) : List (Nat × Nat × Nat) :=
  [(off, 8, e.ipc.toNat * 2 ^ 32 + e.word.toNat), (off + 0x8, 8, e.imm.toNat),
   (off + 0x10, 8, e.take.toNat * 2 ^ 32 + e.done.toNat),
   (off + 0x18, 8, 2 ^ 9 + e.ord.toNat * 2 ^ 6 + e.scope.toNat * 2 ^ 3 + e.rm.toNat)] ++
  laneFields (off + 0x40) 8 (fun l => (e.op0.at l).toNat) ++ laneFields (off + 0x140) 8 (fun l => (e.op1.at l).toNat) ++
  laneFields (off + 0x240) 8 (fun l => (e.op2.at l).toNat)

/-- The lane masks of the crew's other live fragments, by lowest lane (R327). -/
def Crew.siblings (c : Crew) (F : Mask) : List Mask :=
  let rest := c.live &&& ~~~F
  let of (l : Lane) : Mask := maskOf fun m => inMask rest m && (c.th m).pc == (c.th l).pc && (c.th m).sup == (c.th l).sup
  ((maskLanes rest).map of).eraseDups

/-- Packed 2-bit tag codes, the first lowest. -/
def packTags (ts : List Tag) : Nat := ts.foldr (fun t n => n * 4 + t.code) 0

/-- Packed latch validity (R327). -/
def Crew.latchBits (c : Crew) : Nat := c.latches.toList.foldr (fun b n => n * 2 + (if b.valid then 1 else 0)) 0

/-- The fields of the frame of a trap (R327). -/
def frameFields (c : Crew) (g : Gang) (idx : Nat) (t : TrapInfo) (npc : Lane → Pc) : List (Nat × Nat × Nat) :=
  let sup := c.supOf t.frag
  let ovl := ((overlayAt (c.header g) t.pc.toNat).map fun o => o.1).getD 0
  let wmask := maskOf fun l => match (c.th l).st with
    | .waiting _ | .returning _ => !inMask t.frag l
    | _ => false
  let pk := maskOf fun l => match (c.th l).st with
    | .parked _ => !inMask t.frag l
    | _ => false
  let word (off : Nat) (hi lo : Mask) : Nat × Nat × Nat := (off, 8, hi.toNat * 2 ^ 32 + lo.toNat)
  [(0x0, 8, 2 ^ 56 + (if sup then 2 ^ 32 else 0) + t.entries.length * 2 ^ 24 + (t.tent.getD 0xFF) * 2 ^ 16 + t.swn.toNat * 2 ^ 8 +
      t.cause.toNat),
   (0x8, 8, c.cver.toNat * 2 ^ 48 + ovl * 2 ^ 32 + t.pc.toNat),
   word 0x10 t.failing t.frag, word 0x18 0 c.exited, word 0x20 wmask pk,
   (0x28, 8, (c.core / 32) * 2 ^ 13 + (c.core % 32) * 2 ^ 8 + idx), (0x30, 8, g.lin)] ++
  (c.siblings t.frag).zipIdx.map (fun m => (0x40 + 4 * m.2, 4, m.1.toNat)) ++
  laneFields 0x100 8 (fun l => if inMask t.failing l then (t.faddr.at l).toNat else 0) ++
  laneFields 0x200 8 (fun l => (c.th l).fstat.toNat) ++
  laneFields 0x300 1 (fun l => if inMask t.frag l then (t.exc.at l).toNat else 0) ++
  [(0x320, 8, (maskOf fun l => (c.th l).pmode).toNat)] ++
  laneFields 0x340 1 (fun l => (c.th l).wm.toNat) ++
  [(0x360, 8, packTags c.stags.toList * 2 ^ 12 + packTags (c.latches.toList.map fun b => b.tag) * 2 ^ 4 + c.latchBits)] ++
  laneFields 0x380 4 (fun l => (npc l).toNat) ++
  (c.latches.toList.zipIdx.map fun b => laneFields (0x400 + 256 * b.2) 8 fun l => (b.1.val.at l).toNat).flatten ++
  (c.shadow.toList.zipIdx.map fun v => laneFields (0x800 + 256 * v.2) 8 fun l => (v.1.at l).toNat).flatten ++
  (t.entries.zipIdx.map fun e => entryFields (0x1000 + 0x340 * e.2) e.1).flatten

/-- The lowest free frame slot of a crew (R324). -/
def Crew.freeSlot (c : Crew) : Option Nat := (List.range 4).find? fun k => (c.slots.getD k none).isNone

/-! ## Taking a trap (R323 to R326) -/

/-- Is a trap handled by the ASID's handler? Otherwise it goes to Foreman (R325). -/
def State.localTrap (s : State) (key : Nat) (t : TrapInfo) : Bool :=
  let c := s.crew key
  let g := s.gang (gangOf key)
  let tvec := (s.asidEntry g.asid).tvec
  let sup := (maskLanes t.frag).any fun l => (c.th l).sup
  !foremanCause t.cause && !sup && tvec.extractLsb' 48 16 == c.cver && (overlayAt (c.header g) (wbits tvec 31 0)).isSome

/-- The load of an address's overlay is started when it is not resident: the status of the lanes that go there (R272). -/
def State.reachAt (s : State) (key : Nat) (pc : Pc) : Status × State :=
  let c := s.crew key
  let g := s.gang (gangOf key)
  match overlayAt (c.header g) pc.toNat with
  | none => (.live, s)
  | some (_, off, slots) =>
    if s.ovlResident c.core g.asid c.cver off then (.live, s)
    else (.parked (.overlay off), s.ovlStart c.core g.asid c.cver off slots)

/-- The overlay of an address is entered as by OVCALL, its load started when it is not resident: the status of the lanes that go there
(R269, R272, R326). -/
def State.enterAt (s : State) (key : Nat) (pc : Pc) : Status × State :=
  let c := s.crew key
  let g := s.gang (gangOf key)
  let (st, s) := s.reachAt key pc
  match overlayAt (c.header g) pc.toNat with
  | none => (st, s)
  | some (_, off, _) => (st, s.ovlEnter c.core g.asid c.cver off)

/-- Where lane `l` of a trapping fragment is to continue: at the reported PC, or at its own next word when its fragment was
re-issuing an entry at several addresses (R329, R331). -/
def Crew.npcOf (c : Crew) (t : TrapInfo) (l : Lane) : Pc :=
  if t.tent.isSome && inMask t.frag l then (c.th l).pc else t.pc

/-- TAKING A TRAP. The frame is written into a free slot; then the fragment starts the ASID's handler in SUPER, or parks for
Foreman. With no free slot the fragment waits for one (R323 to R327). -/
def State.takeTrap (s : State) (key : Nat) (t : TrapInfo) : State :=
  let s := s.modCrew key fun c =>
    match c.run with
    | some r => if r.lanes &&& t.frag = 0 then c else { c with run := none }
    | none => c
  let c := s.crew key
  match c.freeSlot with
  | none => s.modCrew key fun c => c.updThr t.frag fun _ th => { th with st := .parked (.slotWait t) }
  | some k =>
    let gk := gangOf key
    let idx := crewIndex key
    let g := s.gang gk
    let s := s.memFill (g.framePa idx k) 16384 (frameFields c g idx t (c.npcOf t))
    let here := s.localTrap key t
    let s := s.modCrew key fun c => { c with slots := c.slots.setIfInBounds k (some ⟨t.cause, !here, false, t⟩) }
    if here then
      let target : Pc := BitVec.ofNat 32 (wbits (s.asidEntry g.asid).tvec 31 0)
      let (st, s) := s.enterAt key target
      s.modCrew key fun c =>
        let c := c.updThr t.frag fun _ th =>
          { th with pc := target, sup := true, st := st, fstat := 0, pmode := false, wm := 0, held := some k }
        { c with
          latches := invalidLatches c.latches
          seqOvl := lanes fun l => if inMask t.frag l then none else c.seqOvl.at l }
    else
      let s := s.modCrew key fun c => c.updThr t.frag fun _ th => { th with st := .parked (.foreman k) }
      { s with reports := s.reports ++ [.trap key k t.cause (BitVec.ofNat 64 (g.frameVa idx k))] }

/-- Unfinished instructions that the fragment issued: they stop and are captured (R329). -/
def Crew.captured (c : Crew) (F : Mask) : List Entry := c.infl.filter fun e => e.frag &&& F != 0

/-- Take the captured instructions out of the crew's list. -/
def Crew.dropCaptured (c : Crew) (F : Mask) : Crew := { c with infl := c.infl.filter fun e => e.frag &&& F == 0 }

/-- A fragment traps: the unfinished instructions that it issued stop and are captured, and the trap is taken (R323, R329). -/
def State.raise (s : State) (key : Nat) (t : TrapInfo) : State :=
  let es := (s.crew key).captured t.frag
  (s.modCrew key fun c => c.dropCaptured t.frag).takeTrap key { t with entries := es }

/-- A trap of lanes at an address, without replay entry of its own. -/
def TrapInfo.at_ (cause : BitVec 8) (frag failing : Mask) (faddr : Lanes Word) (pc : Pc) : TrapInfo :=
  { cause := cause, swn := 0, frag := frag, failing := failing, faddr := faddr, exc := allLanes 0, pc := pc, tent := none, entries := [],
    foreman := foremanCause cause }

/-- A trap that leaves the instruction without effect in every lane of F (R85, R329): the reported PC is the instruction's, or
its hint run's first word. -/
def State.trapWhole (s : State) (x : Ctx) (cause : BitVec 8) (failing : Mask) (faddr : Lanes Word) (exc : Lanes (BitVec 5)) :
    State :=
  s.raise x.key { TrapInfo.at_ cause x.F failing faddr x.start with exc := exc }

/-- A trap of the whole fragment without addresses. -/
def State.trapAll (s : State) (x : Ctx) (cause : BitVec 8) : State := s.trapWhole x cause x.F (allLanes 0) (allLanes 0)

/-! ## Freeing and settling a crew (R13, R158) -/

/-- Free a crew whose 32 threads have exited; a crew switched by CVSWITCH no longer counts in BINDS (R13, R275). -/
def State.freeCrew (s : State) (key : Nat) : State :=
  let c := s.crew key
  let g := gangOf key
  let asid := (s.gang g).asid
  let s := { s with crews := s.crews.erase key }
  let s := s.modGang g fun x => { x with crewsFreed := insertNat (crewIndex key) x.crewsFreed }
  if c.switched then s.addBinds asid c.cver (-1) else s

/-- A crew's trap that waited for a frame slot writes its frame now (R324). -/
def State.slotRetry (s : State) (key : Nat) : State :=
  let c := s.crew key
  match c.freeSlot, laneList.findSome? (fun l => match (c.th l).st with
    | .parked (.slotWait t) => some t
    | _ => none) with
  | some _, some t => s.takeTrap key t
  | _, _ => s

/-! ## Return from a trap (R331) -/

/-- The frame's number at an offset. -/
def frameNat (m : List Host.Cell) (pa off n : Nat) : Nat := readNat m (pa + off) n

/-- Is a frame refused (R331 step 2)? -/
def frameBad (m : List Host.Cell) (pa : Nat) : Bool :=
  let f := frameNat m pa
  let kill := f 0x1C 4
  f 7 1 ≠ 1 || bits (f 0 8) 55 33 ≠ 0 || bits (f 8 8) 47 42 ≠ 0 || bits (f 0x28 8) 63 16 ≠ 0 || f 0x38 8 ≠ 0 ||
  f 0xC0 64 ≠ 0 || laneList.any (fun l => bits (f (0x300 + l.val) 1) 7 5 ≠ 0) || f 0x324 4 ≠ 0 || f 0x328 24 ≠ 0 ||
  bits (f 0x360 8) 63 28 ≠ 0 || f 0x368 24 ≠ 0 || f 0x2A00 0x1600 ≠ 0 ||
  (List.range 8).any (fun k =>
    let e := 0x1000 + 0x340 * k
    bits (f (e + 0x18) 8) 63 11 ≠ 0 || bits (f (e + 0x18) 8) 8 8 ≠ 0 || f (e + 0x20) 32 ≠ 0) ||
  laneList.any fun l => !kill.testBit l.val &&
    (f (0x380 + 4 * l.val) 4 % 4 ≠ 0 || f (0x200 + 8 * l.val) 8 % 8 ≥ 6 || f (0x200 + 8 * l.val) 8 ≥ 2 ^ 13)

/-- The cells of a replay entry at an address (R328). -/
def entryCells (m : List Host.Cell) (e : Nat) : List Host.Cell := m.filter fun x => e ≤ x.1 && x.1 < e + 0x340

/-- 32 lane values of a replay entry. -/
def entryOps (m : List Host.Cell) (e off : Nat) : Lanes Word := lanes fun l => BitVec.ofNat 64 (readNat m (e + off + 8 * l.val) 8)

/-- A replay entry with what its handler may have changed in the frame: DONE, IMM and the operands; none when DISC is 1 (R332). It is
re-issued in the lanes of `keep`. -/
def Entry.edited (x : Entry) (m : List Host.Cell) (e : Nat) (keep : Mask) : Option Entry :=
  let m := entryCells m e
  if (readNat m (e + 0x18) 8).testBit 10 then none
  else some { x with frag := keep, done := BitVec.ofNat 32 (readNat m (e + 0x10) 4), imm := BitVec.ofNat 64 (readNat m (e + 8) 8),
                     op0 := entryOps m e 0x40, op1 := entryOps m e 0x140, op2 := entryOps m e 0x240, cards := [], book := none, lost := 0 }

/-- The entries of a trap's frame that are to be re-issued (R331 step 5). -/
def TrapInfo.replays (t : TrapInfo) (m : List Host.Cell) (pa : Nat) (keep : Mask) : List Entry :=
  t.entries.zipIdx.filterMap fun x => x.1.edited m (pa + 0x1000 + 0x340 * x.2) keep

/-- A lane vector of a frame. -/
def frameLanes (m : List Host.Cell) (pa off : Nat) : Lanes Word :=
  lanes fun l => BitVec.ofNat 64 (readNat m (pa + off + 8 * l.val) 8)

/-- What the frame of a trap restores in a crew (R331 steps 3 and 4), for the lanes of its fragment that have not exited. `npcStatus` gives
the status of the lanes that continue at an address. A lane keeps the overlay that it reached its address from only past an instruction that
has completed; one that returns to the address at which it trapped has not flowed there (log 114). -/
def Crew.restore (c : Crew) (h : Header) (m : List Host.Cell) (pa k : Nat) (t : TrapInfo) (npcStatus : Pc → Status) : Crew :=
  let near := m.filter fun x => pa ≤ x.1 && x.1 < pa + 16384
  let f := frameNat near pa
  let kill : Mask := BitVec.ofNat 32 (f 0x1C 4)
  let lanes0 := t.frag &&& ~~~c.exited
  let keep := lanes0 &&& ~~~kill
  let pm : Mask := BitVec.ofNat 32 (f 0x320 4)
  let npc (l : Lane) : Pc := BitVec.ofNat 32 (f (0x380 + 4 * l.val) 4)
  let pc0 := t.pc.toNat
  let after := t.tent.isSome || t.cause = cSwtrap
  let c := c.exitLanes (lanes0 &&& kill)
  let c := c.updThr keep fun l th =>
    let p := inMask pm l
    { th with
      pc := npc l
      sup := (f 4 1).testBit 0
      st := npcStatus (npc l)
      fstat := BitVec.ofNat 64 (f (0x200 + 8 * l.val) 8)
      pmode := p
      wm := if p then BitVec.ofNat 8 (f (0x340 + l.val) 1) else 0
      held := if th.held = some k then none else th.held }
  let shadow : Vector (Lanes Word) 8 := Vector.ofFn fun j =>
    let v := frameLanes near pa (0x800 + 256 * j.val)
    let old := c.shadow.getD j.val (allLanes 0)
    lanes fun l => if inMask (keep &&& pm) l then v.at l else old.at l
  let w := f 0x360 8
  let one := (maskLanes keep).all fun l => some (npc l) == (lowest keep).map npc
  { c with
    shadow := shadow
    stags := Vector.ofFn fun j => fitTag (tagOfCode (bits w (13 + 2 * j.val) (12 + 2 * j.val))) (shadow.getD j.val (allLanes 0))
    latches := Vector.ofFn fun n =>
      let v := frameLanes near pa (0x400 + 256 * n.val)
      ⟨one && w.testBit n.val, v, fitTag (tagOfCode (bits w (5 + 2 * n.val) (4 + 2 * n.val))) v⟩
    seqOvl := lanes fun l =>
      if inMask keep l then
        if after && (npc l).toNat = pc0 then (overlayAt h (pc0 - 4)).map fun o => o.1 else none
      else c.seqOvl.at l
    restored := some keep
    slots := c.slots.setIfInBounds k none
    infl := c.infl ++ t.replays near pa keep }

/-- THE RETURN FROM A TRAP, once its lanes have arrived (R331 steps 2 to 6); Foreman's resumption has the same effect. A refused
frame goes to Foreman with RESBITS, and nothing is restored. The crew's entries are re-issued by the step before its next issue. -/
def State.trapReturn (s : State) (key k : Nat) : State :=
  match (s.crew key).slots.getD k none with
  | none => s
  | some u =>
    let gk := gangOf key
    let g := s.gang gk
    let pa := g.framePa (crewIndex key) k
    let near := s.mem.filter fun x => pa ≤ x.1 && x.1 < pa + 16384
    let c := s.crew key
    let ls := u.frag &&& ~~~c.exited
    if frameBad near pa then
      let s := s.modCrew key fun c =>
        { c.updThr ls fun _ t => { t with st := .parked (.foreman k) } with
          slots := c.slots.setIfInBounds k (some { u with cause := cResbits, foreman := true, resume := false }) }
      { s with reports := s.reports ++ [.trap key k cResbits (BitVec.ofNat 64 (g.frameVa (crewIndex key) k))] }
    else
      let kill : Mask := BitVec.ofNat 32 (frameNat near pa 0x1C 4)
      let npcs := ((maskLanes (ls &&& ~~~kill)).map fun l => (BitVec.ofNat 32 (frameNat near pa (0x380 + 4 * l.val) 4) : Pc)).eraseDups
      let (sts, s) := npcs.foldl (fun r p => let (st, s) := r.2.reachAt key p; ((p, st) :: r.1, s)) (([] : List (Pc × Status)), s)
      let status (p : Pc) : Status := ((sts.find? fun e => e.1 == p).map Prod.snd).getD .live
      let s := s.modCrew key fun c => (c.restore (c.header g) near pa k u.trap status).convTest (c.header g)
      s.slotRetry key

/-- The lanes that wait at a TRET with the frame in slot `k`, at one address (R331 step 1). -/
def Crew.returningAt (c : Crew) (k : Nat) (a : Pc) : Mask :=
  maskOf fun l => match (c.th l).st with
    | .returning _ => (c.th l).held == some k && (c.th l).pc == a
    | _ => false

/-- Has every lane of a slot's frame arrived at one TRET or exited, or has Foreman asked for the resumption? -/
def Crew.returnReady (c : Crew) (k : Nat) : Bool :=
  match c.slots.getD k none with
  | none => false
  | some u =>
    if u.foreman then u.resume
    else laneList.any fun l => match (c.th l).st with
      | .returning m => (c.th l).held == some k && m &&& ~~~(c.returningAt k (c.th l).pc ||| c.exited) == 0
      | _ => false

/-- Has the crew room for the entries that a return is to re-issue: at most 8 are unfinished at a time (R329)? -/
def State.returnRoom (s : State) (key k : Nat) : Bool :=
  let c := s.crew key
  match c.slots.getD k none with
  | none => true
  | some u =>
    c.infl.length + u.trap.entries.length ≤ 8 || c.infl.isEmpty ||
      c.infl.length + (u.trap.replays s.mem ((s.gang (gangOf key)).framePa (crewIndex key) k) u.frag).length ≤ 8

/-- The slot of a return that can be performed. -/
def State.readyReturn (s : State) (key : Nat) : Option Nat :=
  (List.range 4).find? fun k => (s.crew key).returnReady k && s.returnRoom key k

/-- Perform the returns whose lanes have all arrived. -/
def State.returns : Nat → State → Nat → State
  | 0, s, _ => s
  | n + 1, s, key =>
    match s.readyReturn key with
    | none => s
    | some k => (s.trapReturn key k).returns n key

/-- After exits, arrivals and changes of a crew's lanes: the tests of CONV and TRET, of the gang's barriers, and the freeing of a
crew whose threads have all exited (R13, R158, R159, R199). -/
def State.settleCrew (s : State) (key : Nat) : State :=
  let g := gangOf key
  let s := s.modCrew key fun c => c.convTest (s.hdrOf key)
  let s := s.returns 4 key
  let s := s.barrierTests g
  if (s.crew key).exited = fullMask then s.freeCrew key else s

/-! ## Issuing -/

/-- The context of an instruction that a fragment of a resident crew issues. -/
def ctxOf (i : Instr) (s : State) : Option Ctx :=
  match s.cur with
  | .frag key F pc =>
    match s.crew? key with
    | some c =>
      some { key := key, F := F, pc := pc, i := i, take := F &&& c.pred (guardOf i c.run),
             start := (c.run.map fun r => r.start).getD pc, diff := c.differs F, run := c.run }
    | none => none
  | _ => none

/-- Is the instruction TRET? -/
def isTret : Instr → Bool
  | .tret => true
  | _ => false

/-- A fragment issues an instruction: the crew counts the issue, the decode checks are made, and the instruction has its effect, or
the fragment traps (R85, R87). -/
def issueFrag (i : Instr) (x : Ctx) (s : State) (body : Ctx → State → State) : State :=
  let sup := (s.crew x.key).supOf x.F
  let s := s.modCrew x.key fun c => c.noteIssue x.F (isTret i)
  match decodeCheck i (s.hdrOf x.key) x.run sup (s.crew x.key) with
  | some cause => s.trapAll x cause
  | none => body x s

/-- Write a record of Foreman's event log; a full log loses its oldest record (R352). -/
def State.logEvent (s : State) (kind source addr count : Nat) : State :=
  let r : LogRecord := ⟨s.time, source, kind, addr, count⟩
  if s.log.length < s.logCap then { s with log := s.log ++ [r] }
  else { s with log := s.log.drop 1 ++ [r], logLost := s.logLost + 1 }

/-- A Porter stops with an engine fault, reported to Foreman and logged (R258, R352). -/
def State.porterFault (s : State) (core : Nat) (pc : Pc) (cause : BitVec 8) (addr : Word) (bytes : Nat) : State :=
  let p := (s.core core).porter
  let s := s.modCore core fun c => { c with porter := { c.porter with stopped := some ⟨cause, addr, bytes⟩ } }
  let s := { s with reports := s.reports ++ [Report.porter core (p.gang.getD 0) pc cause addr bytes] }
  s.logEvent 4 core addr.toNat 1

/-- A Porter stops at its current word (R86, R258). -/
def State.porterStop (s : State) (core : Nat) (cause : BitVec 8) (addr : Word) : State :=
  s.porterFault core (s.core core).porter.pc cause addr 0

/-- The meaning of an instruction of the compute stream. A Porter that meets it stops with an engine fault (R86). -/
def issue (i : Instr) (s : State) (body : Ctx → State → State) : Host.Outcome State Fault Refusal :=
  match s.cur with
  | .porter core => .next (s.porterStop core cIllegal 0)
  | _ =>
    match ctxOf i s with
    | some x => .next (issueFrag i x s body)
    | none => .fault .noIssuer

/-! ## Common endings -/

/-- Retire in the state: every lane of F at the next word unless `after` says otherwise. -/
def State.retire (s : State) (x : Ctx) (pushes : List Latch) (inval : Bool) (after : Lane → After) : State :=
  s.modCrew x.key fun c => c.retire (s.hdrOf x.key) x pushes inval after

/-- An instruction without a result. -/
def State.finish (s : State) (x : Ctx) : State := s.retire x [] false fun _ => .next

/-- An instruction with a register result in its taking lanes (R18, R23, R24, R75). -/
def State.finishReg (s : State) (x : Ctx) (d : BitVec 6) (vals : Lanes Word) (tag : Tag) : State :=
  let c := s.crew x.key
  (s.setCrew x.key (c.writeDst d x.take vals tag)).retire x [c.pushOf d x.take vals tag] false fun _ => .next

/-- An instruction that writes a register pair: each register takes R18 on its own, and both results are pushed (R19, R23). -/
def State.finishPair (s : State) (x : Ctx) (d : BitVec 6) (lo hi : Lanes Word) (tag : Tag) : State :=
  let c := s.crew x.key
  let c' := (c.writeDst d x.take lo tag).writeDst (d + 1) x.take hi tag
  (s.setCrew x.key c').retire x [c.pushOf d x.take lo tag, c.pushOf (d + 1) x.take hi tag] false fun _ => .next

/-- An instruction that writes a predicate and its complement (R145). -/
def State.finishPred (s : State) (x : Ctx) (p q : BitVec 3) (v : Mask) : State :=
  (s.modCrew x.key fun c => (c.setPred p x.take v).setPred q x.take (~~~v)).finish x

end Sys2Proof.Machine
end

