-- ==== Sys2Proof/Machine/Integer.lean ====
section
/-!
DEFINITION. Integer arithmetic, logic, shifts, bit fields and immediate forms (R137 to R144).
-/
namespace Sys2Proof.Machine

/-! ## Shapes of lane-wise instructions -/

/-- A lane-wise instruction of one source. -/
def alu1 (x : Ctx) (d a : BitVec 6) (r : TagRule) (f : Word → Word) (s : State) : State :=
  let c := s.crew x.key
  s.finishReg x d (lanes fun l => f (c.src kx a l)) (ruleTag r [c.srcShape kx a])

/-- A lane-wise instruction of two sources in one view. -/
def alu2 (x : Ctx) (v : KView) (d a b : BitVec 6) (r : TagRule) (f : Word → Word → Word) (s : State) : State :=
  let c := s.crew x.key
  s.finishReg x d (lanes fun l => f (c.src v a l) (c.src v b l)) (ruleTag r [c.srcShape v a, c.srcShape v b])

/-- A lane-wise instruction of three sources, the third in a view of its own. -/
def alu3 (x : Ctx) (v u : KView) (d a b e : BitVec 6) (r : TagRule) (f : Word → Word → Word → Word) (s : State) : State :=
  let c := s.crew x.key
  s.finishReg x d (lanes fun l => f (c.src v a l) (c.src v b l) (c.src u e l))
    (ruleTag r [c.srcShape v a, c.srcShape v b, c.srcShape u e])

/-- A lane-wise instruction of a source and an immediate (R141, R143). -/
def aluImm (x : Ctx) (d a : BitVec 6) (r : TagRule) (imm : Word) (f : Word → Word → Word) (s : State) : State :=
  let c := s.crew x.key
  s.finishReg x d (lanes fun l => f (c.src kx a l) imm) (ruleTag r [c.srcShape kx a, .lin imm 0])

/-- The immediate of an instruction with the XIMM words of its run (R82). -/
def Ctx.imm (x : Ctx) (n field : Nat) : Word :=
  extendImm ((x.run.map fun r => r.ximm).getD []) n field

/-- The affine rules hold for the .X view alone (R18). -/
def onlyX (w : BitVec 2) (r : TagRule) : TagRule := if w = 0 then r else .lanewise

/-! ## Operations on sub-elements -/

/-- Wrapping addition. -/
def subAdd (w a b : Nat) : Nat := (a + b) % 2 ^ w
/-- Wrapping subtraction. -/
def subSub (w a b : Nat) : Nat := (a + 2 ^ w - b) % 2 ^ w
/-- Signed minimum. -/
def subIMin (w a b : Nat) : Nat := if signed w a ≤ signed w b then a else b
/-- Signed maximum. -/
def subIMax (w a b : Nat) : Nat := if signed w a ≤ signed w b then b else a
/-- Unsigned minimum. -/
def subNMin (_ a b : Nat) : Nat := min a b
/-- Unsigned maximum. -/
def subNMax (_ a b : Nat) : Nat := max a b

/-- Clamp into the signed range of `w` bits, as a bit pattern (R138). -/
def clampSigned (w : Nat) (v : Int) : Nat := wrap w (max (-(2 ^ (w - 1) : Int)) (min v (2 ^ (w - 1) - 1)))

/-- Signed saturating addition. -/
def subSAdd (w a b : Nat) : Nat := clampSigned w (signed w a + signed w b)
/-- Signed saturating subtraction. -/
def subSSub (w a b : Nat) : Nat := clampSigned w (signed w a - signed w b)

/-- Left shift by the low bits of the count. -/
def subShl (w a n : Nat) : Nat := (a * 2 ^ (n % w)) % 2 ^ w
/-- Logical right shift. -/
def subShr (w a n : Nat) : Nat := a / 2 ^ (n % w)
/-- Arithmetic right shift. -/
def subSar (w a n : Nat) : Nat := wrap w (signed w a / 2 ^ (n % w))
/-- Rotate left. -/
def subRol (w a n : Nat) : Nat := (a * 2 ^ (n % w)) % 2 ^ w + a / 2 ^ (w - n % w)

/-- Low half of a product. -/
def subMul (w a b : Nat) : Nat := (a * b) % 2 ^ w
/-- High half of a signed product. -/
def subIMulH (w a b : Nat) : Nat := wrap w (signed w a * signed w b / 2 ^ w)
/-- High half of an unsigned product. -/
def subNMulH (w a b : Nat) : Nat := a * b / 2 ^ w

/-- S(a[31:0]) × S(b[31:0]) in 64 bits. -/
def wideI (a b : Word) : Word := BitVec.ofInt 64 (signed 32 a.toNat * signed 32 b.toNat)
/-- U(a[31:0]) × U(b[31:0]) in 64 bits. -/
def wideN (a b : Word) : Word := BitVec.ofNat 64 ((a.toNat % 2 ^ 32) * (b.toNat % 2 ^ 32))

/-- Number of 1 bits. -/
def popCount (x : Word) : Nat := (List.range 64).foldl (fun n k => if x.getLsbD k then n + 1 else n) 0
/-- Leading zeros, 64 for 0. -/
def leadingZeros (x : Word) : Nat := ((List.range 64).find? fun k => x.getLsbD (63 - k)).getD 64
/-- Trailing zeros, 64 for 0. -/
def trailingZeros (x : Word) : Nat := ((List.range 64).find? fun k => x.getLsbD k).getD 64
/-- Bit k of the result is bit 63 − k. -/
def bitReverse (x : Word) : Word :=
  BitVec.ofNat 64 ((List.range 64).foldl (fun n k => if x.getLsbD k then n + 2 ^ (63 - k) else n) 0)

/-- Position and length of a bit field (R144). -/
def fieldOf (b : Word) : Nat × Nat := let p := wbits b 5 0; (p, min (wbits b 14 8) (64 - p))

/-- BFX (R144). -/
def bitExtract (a b : Word) : Word := let (p, n) := fieldOf b; BitVec.ofNat 64 (a.toNat / 2 ^ p % 2 ^ n)

/-- BFXS (R144). -/
def bitExtractS (a b : Word) : Word :=
  let (p, n) := fieldOf b
  if n = 0 then 0 else BitVec.ofInt 64 (signed n (a.toNat / 2 ^ p % 2 ^ n))

/-- BFI into an old value (R144). -/
def bitInsert (old a b : Word) : Word :=
  let (p, n) := fieldOf b
  let m : Word := BitVec.ofNat 64 ((2 ^ n - 1) * 2 ^ p)
  (old &&& ~~~m) ||| (BitVec.ofNat 64 (a.toNat % 2 ^ n * 2 ^ p) &&& m)

/-- SEPERM (R144). -/
def bytePermute (a b : Word) : Word :=
  ofSubs 8 fun j =>
    let s := wbits b (4 * j + 3) (4 * j)
    if s < 8 then subEl 8 a s else 0

/-! ## IOP (R138) -/

/-- IADD (R138). -/
def execIadd (g : BitVec 3) (d a b : BitVec 6) (w : BitVec 2) (s : State) : Host.Outcome State Fault Refusal :=
  issue (.iadd g d a b w) s fun x => alu2 x (.int (widthOf w)) d a b (onlyX w .add) (mapSubs2 (widthOf w) (subAdd (widthOf w)))

/-- ISUB (R138). -/
def execIsub (g : BitVec 3) (d a b : BitVec 6) (w : BitVec 2) (s : State) : Host.Outcome State Fault Refusal :=
  issue (.isub g d a b w) s fun x => alu2 x (.int (widthOf w)) d a b (onlyX w .sub) (mapSubs2 (widthOf w) (subSub (widthOf w)))

/-- IMIN (R138). -/
def execImin (g : BitVec 3) (d a b : BitVec 6) (w : BitVec 2) (s : State) : Host.Outcome State Fault Refusal :=
  issue (.imin g d a b w) s fun x => alu2 x (.int (widthOf w)) d a b .lanewise (mapSubs2 (widthOf w) (subIMin (widthOf w)))

/-- IMAX (R138). -/
def execImax (g : BitVec 3) (d a b : BitVec 6) (w : BitVec 2) (s : State) : Host.Outcome State Fault Refusal :=
  issue (.imax g d a b w) s fun x => alu2 x (.int (widthOf w)) d a b .lanewise (mapSubs2 (widthOf w) (subIMax (widthOf w)))

/-- NMIN (R138). -/
def execNmin (g : BitVec 3) (d a b : BitVec 6) (w : BitVec 2) (s : State) : Host.Outcome State Fault Refusal :=
  issue (.nmin g d a b w) s fun x => alu2 x (.int (widthOf w)) d a b .lanewise (mapSubs2 (widthOf w) (subNMin (widthOf w)))

/-- NMAX (R138). -/
def execNmax (g : BitVec 3) (d a b : BitVec 6) (w : BitVec 2) (s : State) : Host.Outcome State Fault Refusal :=
  issue (.nmax g d a b w) s fun x => alu2 x (.int (widthOf w)) d a b .lanewise (mapSubs2 (widthOf w) (subNMax (widthOf w)))

/-- SADD (R138). -/
def execSadd (g : BitVec 3) (d a b : BitVec 6) (w : BitVec 2) (s : State) : Host.Outcome State Fault Refusal :=
  issue (.sadd g d a b w) s fun x => alu2 x (.int (widthOf w)) d a b .lanewise (mapSubs2 (widthOf w) (subSAdd (widthOf w)))

/-- SSUB (R138). -/
def execSsub (g : BitVec 3) (d a b : BitVec 6) (w : BitVec 2) (s : State) : Host.Outcome State Fault Refusal :=
  issue (.ssub g d a b w) s fun x => alu2 x (.int (widthOf w)) d a b .lanewise (mapSubs2 (widthOf w) (subSSub (widthOf w)))

/-! ## IMUL (R139) -/

/-- IMUL.X (R139). -/
def execImulX (g : BitVec 3) (d a b : BitVec 6) (s : State) : Host.Outcome State Fault Refusal :=
  issue (.imulX g d a b) s fun x => alu2 x (.int 64) d a b .mul (mapSubs2 64 (subMul 64))

/-- IMUL.W (R139). -/
def execImulW (g : BitVec 3) (d a b : BitVec 6) (s : State) : Host.Outcome State Fault Refusal :=
  issue (.imulW g d a b) s fun x => alu2 x (.int 32) d a b .lanewise (mapSubs2 32 (subMul 32))

/-- IMULH.X (R139). -/
def execImulhX (g : BitVec 3) (d a b : BitVec 6) (s : State) : Host.Outcome State Fault Refusal :=
  issue (.imulhX g d a b) s fun x => alu2 x (.int 64) d a b .lanewise (mapSubs2 64 (subIMulH 64))

/-- IMULH.W (R139). -/
def execImulhW (g : BitVec 3) (d a b : BitVec 6) (s : State) : Host.Outcome State Fault Refusal :=
  issue (.imulhW g d a b) s fun x => alu2 x (.int 32) d a b .lanewise (mapSubs2 32 (subIMulH 32))

/-- NMULH.X (R139). -/
def execNmulhX (g : BitVec 3) (d a b : BitVec 6) (s : State) : Host.Outcome State Fault Refusal :=
  issue (.nmulhX g d a b) s fun x => alu2 x (.int 64) d a b .lanewise (mapSubs2 64 (subNMulH 64))

/-- NMULH.W (R139). -/
def execNmulhW (g : BitVec 3) (d a b : BitVec 6) (s : State) : Host.Outcome State Fault Refusal :=
  issue (.nmulhW g d a b) s fun x => alu2 x (.int 32) d a b .lanewise (mapSubs2 32 (subNMulH 32))

/-- IMULW (R139). -/
def execImulw (g : BitVec 3) (d a b : BitVec 6) (s : State) : Host.Outcome State Fault Refusal :=
  issue (.imulw g d a b) s fun x => alu2 x (.int 32) d a b .lanewise wideI

/-- NMULW (R139). -/
def execNmulw (g : BitVec 3) (d a b : BitVec 6) (s : State) : Host.Outcome State Fault Refusal :=
  issue (.nmulw g d a b) s fun x => alu2 x (.int 32) d a b .lanewise wideN

/-! ## IMAD (R140) -/

/-- IMAD.X (R140). -/
def execImadX (d a b e : BitVec 6) (s : State) : Host.Outcome State Fault Refusal :=
  issue (.imadX d a b e) s fun x => alu3 x (.int 64) (.int 64) d a b e .mad (fun p q e => p * q + e)

/-- IMAD.W (R140). -/
def execImadW (d a b e : BitVec 6) (s : State) : Host.Outcome State Fault Refusal :=
  issue (.imadW d a b e) s fun x => alu3 x (.int 32) (.int 32) d a b e .lanewise (fun p q e => ofSubs 32 fun j => subEl 32 p j * subEl 32 q j + subEl 32 e j)

/-- IMADW (R140). -/
def execImadw (d a b e : BitVec 6) (s : State) : Host.Outcome State Fault Refusal :=
  issue (.imadw d a b e) s fun x => alu3 x (.int 32) (.int 64) d a b e .lanewise (fun p q e => wideI p q + e)

/-- NMADW (R140). -/
def execNmadw (d a b e : BitVec 6) (s : State) : Host.Outcome State Fault Refusal :=
  issue (.nmadw d a b e) s fun x => alu3 x (.int 32) (.int 64) d a b e .lanewise (fun p q e => wideN p q + e)

/-! ## LOGIC (R142) -/

/-- AND (R142). -/
def execAnd (g : BitVec 3) (d a b : BitVec 6) (s : State) : Host.Outcome State Fault Refusal :=
  issue (.and g d a b) s fun x => alu2 x kx d a b .lanewise fun p q => p &&& q

/-- OR (R142). -/
def execOr (g : BitVec 3) (d a b : BitVec 6) (s : State) : Host.Outcome State Fault Refusal :=
  issue (.or g d a b) s fun x => alu2 x kx d a b .lanewise fun p q => p ||| q

/-- XOR (R142). -/
def execXor (g : BitVec 3) (d a b : BitVec 6) (s : State) : Host.Outcome State Fault Refusal :=
  issue (.xor g d a b) s fun x => alu2 x kx d a b .lanewise fun p q => p ^^^ q

/-- ANDN (R142). -/
def execAndn (g : BitVec 3) (d a b : BitVec 6) (s : State) : Host.Outcome State Fault Refusal :=
  issue (.andn g d a b) s fun x => alu2 x kx d a b .lanewise fun p q => p &&& ~~~q

/-- ORN (R142). -/
def execOrn (g : BitVec 3) (d a b : BitVec 6) (s : State) : Host.Outcome State Fault Refusal :=
  issue (.orn g d a b) s fun x => alu2 x kx d a b .lanewise fun p q => p ||| ~~~q

/-- SHL.X (R142). -/
def execShlX (g : BitVec 3) (d a b : BitVec 6) (s : State) : Host.Outcome State Fault Refusal :=
  issue (.shlX g d a b) s fun x => alu2 x (.int 64) d a b .lanewise (mapSubs2 64 (subShl 64))

/-- SHL.W (R142). -/
def execShlW (g : BitVec 3) (d a b : BitVec 6) (s : State) : Host.Outcome State Fault Refusal :=
  issue (.shlW g d a b) s fun x => alu2 x (.int 32) d a b .lanewise (mapSubs2 32 (subShl 32))

/-- SHR.X (R142). -/
def execShrX (g : BitVec 3) (d a b : BitVec 6) (s : State) : Host.Outcome State Fault Refusal :=
  issue (.shrX g d a b) s fun x => alu2 x (.int 64) d a b .lanewise (mapSubs2 64 (subShr 64))

/-- SHR.W (R142). -/
def execShrW (g : BitVec 3) (d a b : BitVec 6) (s : State) : Host.Outcome State Fault Refusal :=
  issue (.shrW g d a b) s fun x => alu2 x (.int 32) d a b .lanewise (mapSubs2 32 (subShr 32))

/-- SAR.X (R142). -/
def execSarX (g : BitVec 3) (d a b : BitVec 6) (s : State) : Host.Outcome State Fault Refusal :=
  issue (.sarX g d a b) s fun x => alu2 x (.int 64) d a b .lanewise (mapSubs2 64 (subSar 64))

/-- SAR.W (R142). -/
def execSarW (g : BitVec 3) (d a b : BitVec 6) (s : State) : Host.Outcome State Fault Refusal :=
  issue (.sarW g d a b) s fun x => alu2 x (.int 32) d a b .lanewise (mapSubs2 32 (subSar 32))

/-- ROL.X (R142). -/
def execRolX (g : BitVec 3) (d a b : BitVec 6) (s : State) : Host.Outcome State Fault Refusal :=
  issue (.rolX g d a b) s fun x => alu2 x (.int 64) d a b .lanewise (mapSubs2 64 (subRol 64))

/-- ROL.W (R142). -/
def execRolW (g : BitVec 3) (d a b : BitVec 6) (s : State) : Host.Outcome State Fault Refusal :=
  issue (.rolW g d a b) s fun x => alu2 x (.int 32) d a b .lanewise (mapSubs2 32 (subRol 32))

/-- POPC (R142). -/
def execPopc (g : BitVec 3) (d a : BitVec 6) (s : State) : Host.Outcome State Fault Refusal :=
  issue (.popc g d a) s fun x => alu1 x d a .lanewise (fun p => BitVec.ofNat 64 (popCount p))

/-- CLZ (R142). -/
def execClz (g : BitVec 3) (d a : BitVec 6) (s : State) : Host.Outcome State Fault Refusal :=
  issue (.clz g d a) s fun x => alu1 x d a .lanewise (fun p => BitVec.ofNat 64 (leadingZeros p))

/-- CTZ (R142). -/
def execCtz (g : BitVec 3) (d a : BitVec 6) (s : State) : Host.Outcome State Fault Refusal :=
  issue (.ctz g d a) s fun x => alu1 x d a .lanewise (fun p => BitVec.ofNat 64 (trailingZeros p))

/-- BREV (R142). -/
def execBrev (g : BitVec 3) (d a : BitVec 6) (s : State) : Host.Outcome State Fault Refusal :=
  issue (.brev g d a) s fun x => alu1 x d a .lanewise bitReverse

/-- SEL: every lane of F writes; the predicate selects (R142). The tag is U from uniform sources under a predicate that is the same in
all 32 lanes (R18). -/
def execSel (g : BitVec 3) (d a b : BitVec 6) (s : State) : Host.Outcome State Fault Refusal :=
  issue (.sel g d a b) s fun x s =>
    let c := s.crew x.key
    let p := c.pred g
    let even := p = fullMask || p = 0
    s.finishReg x d (lanes fun l => if inMask p l then c.src kx a l else c.src kx b l)
      (if even then ruleTag .lanewise [c.srcShape kx a, c.srcShape kx b] else .g)

/-! ## BITF (R144) -/

/-- BFX (R144). -/
def execBfx (g : BitVec 3) (d a b : BitVec 6) (s : State) : Host.Outcome State Fault Refusal :=
  issue (.bfx g d a b) s fun x => alu2 x kx d a b .lanewise bitExtract

/-- BFXS (R144). -/
def execBfxs (g : BitVec 3) (d a b : BitVec 6) (s : State) : Host.Outcome State Fault Refusal :=
  issue (.bfxs g d a b) s fun x => alu2 x kx d a b .lanewise bitExtractS

/-- SEPERM (R144). -/
def execSeperm (g : BitVec 3) (d a b : BitVec 6) (s : State) : Host.Outcome State Fault Refusal :=
  issue (.seperm g d a b) s fun x => alu2 x kx d a b .lanewise bytePermute

/-- BFI: D is also a source; "none" reads 0 (R144). -/
def execBfi (g : BitVec 3) (d a b : BitVec 6) (s : State) : Host.Outcome State Fault Refusal :=
  issue (.bfi g d a b) s fun x s =>
    let c := s.crew x.key
    let old (l : Lane) : Word := if d < 48 then c.reg d.toNat l else 0
    let shape : Shape := if d < 48 then c.srcShape kx d else .lin 0 0
    s.finishReg x d (lanes fun l => bitInsert (old l) (c.src kx a l) (c.src kx b l))
      (ruleTag .lanewise [shape, c.srcShape kx a, c.srcShape kx b])

/-! ## Immediate forms (R141, R143) -/

/-- IADDI (R141). -/
def execIaddi (g : BitVec 3) (d a : BitVec 6) (i : BitVec 11) (s : State) : Host.Outcome State Fault Refusal :=
  issue (.iaddi g d a i) s fun x => aluImm x d a .add (x.imm 11 i.toNat) fun p q => p + q

/-- ANDI (R141). -/
def execAndi (g : BitVec 3) (d a : BitVec 6) (i : BitVec 11) (s : State) : Host.Outcome State Fault Refusal :=
  issue (.andi g d a i) s fun x => aluImm x d a .lanewise (x.imm 11 i.toNat) fun p q => p &&& q

/-- ORI (R141). -/
def execOri (g : BitVec 3) (d a : BitVec 6) (i : BitVec 11) (s : State) : Host.Outcome State Fault Refusal :=
  issue (.ori g d a i) s fun x => aluImm x d a .lanewise (x.imm 11 i.toNat) fun p q => p ||| q

/-- XORI (R141). -/
def execXori (g : BitVec 3) (d a : BitVec 6) (i : BitVec 11) (s : State) : Host.Outcome State Fault Refusal :=
  issue (.xori g d a i) s fun x => aluImm x d a .lanewise (x.imm 11 i.toNat) fun p q => p ^^^ q

/-- LIMM (R141). -/
def execLimm (g : BitVec 3) (d : BitVec 6) (i : BitVec 17) (s : State) : Host.Outcome State Fault Refusal :=
  issue (.limm g d i) s fun x s => s.finishReg x d (allLanes (x.imm 17 i.toNat)) .u

/-- SHLI (R143). -/
def execShli (g : BitVec 3) (d a : BitVec 6) (w : BitVec 2) (n : BitVec 6) (s : State) : Host.Outcome State Fault Refusal :=
  issue (.shli g d a w n) s fun x s =>
    let c := s.crew x.key
    let v : KView := .int (widthOf w)
    s.finishReg x d (lanes fun l => ofSubs (widthOf w) fun j => subShl (widthOf w) (subEl (widthOf w) (c.src v a l) j) n.toNat)
      (ruleTag (onlyX w (.shl n.toNat)) [c.srcShape v a])

/-- SHRI (R143). -/
def execShri (g : BitVec 3) (d a : BitVec 6) (w : BitVec 2) (n : BitVec 6) (s : State) : Host.Outcome State Fault Refusal :=
  issue (.shri g d a w n) s fun x s =>
    let c := s.crew x.key
    let v : KView := .int (widthOf w)
    s.finishReg x d (lanes fun l => ofSubs (widthOf w) fun j => subShr (widthOf w) (subEl (widthOf w) (c.src v a l) j) n.toNat)
      (ruleTag .lanewise [c.srcShape v a])

/-- SARI (R143). -/
def execSari (g : BitVec 3) (d a : BitVec 6) (w : BitVec 2) (n : BitVec 6) (s : State) : Host.Outcome State Fault Refusal :=
  issue (.sari g d a w n) s fun x s =>
    let c := s.crew x.key
    let v : KView := .int (widthOf w)
    s.finishReg x d (lanes fun l => ofSubs (widthOf w) fun j => subSar (widthOf w) (subEl (widthOf w) (c.src v a l) j) n.toNat)
      (ruleTag .lanewise [c.srcShape v a])

/-- ROLI (R143). -/
def execRoli (g : BitVec 3) (d a : BitVec 6) (w : BitVec 2) (n : BitVec 6) (s : State) : Host.Outcome State Fault Refusal :=
  issue (.roli g d a w n) s fun x s =>
    let c := s.crew x.key
    let v : KView := .int (widthOf w)
    s.finishReg x d (lanes fun l => ofSubs (widthOf w) fun j => subRol (widthOf w) (subEl (widthOf w) (c.src v a l) j) n.toNat)
      (ruleTag .lanewise [c.srcShape v a])

end Sys2Proof.Machine
end

