-- ==== Sys2Proof/Machine/Lanes.lean ====
section
/-!
DEFINITION. Comparisons and predicates (R145 to R148), moves and status registers (R36 to R40, R149), cross-lane instructions
(R150), and hint words (R82 to R85, R91).
-/
namespace Sys2Proof.Machine

/-! ## Comparisons and predicates -/

/-- Cond (R81, R145): EQ NE LT LE GT GE signed; LTU LEU unsigned, at width `w`. -/
def intCond (k : BitVec 3) (w a b : Nat) : Bool :=
  let x := a % 2 ^ w
  let y := b % 2 ^ w
  match k.toNat with
  | 0 => x == y
  | 1 => x != y
  | 2 => signed w x < signed w y
  | 3 => signed w x ≤ signed w y
  | 4 => signed w y < signed w x
  | 5 => signed w y ≤ signed w x
  | 6 => x < y
  | _ => x ≤ y

/-- ICMP (R145). -/
def execIcmp (g p q : BitVec 3) (a b : BitVec 6) (k : BitVec 3) (w : BitVec 2) (s : State) : Host.Outcome State Fault Refusal :=
  issue (.icmp g p q a b k w) s fun x s =>
    let c := s.crew x.key
    let v : KView := .int (widthOf w)
    s.finishPred x p q (maskOf fun l => intCond k (widthOf w) (c.src v a l).toNat (c.src v b l).toNat)

/-- ICMPI (R145). -/
def execIcmpi (g p q : BitVec 3) (a i : BitVec 6) (k : BitVec 3) (w : BitVec 2) (s : State) : Host.Outcome State Fault Refusal :=
  issue (.icmpi g p q a i k w) s fun x s =>
    let c := s.crew x.key
    let v : KView := .int (widthOf w)
    s.finishPred x p q (maskOf fun l => intCond k (widthOf w) (c.src v a l).toNat (x.imm 6 i.toNat).toNat)

/-- A predicate instruction (R147). -/
def predOp (x : Ctx) (p q : BitVec 3) (f : Crew → Mask) (s : State) : State := s.finishPred x p q (f (s.crew x.key))

/-- PAND (R147). -/
def execPand (g p q a b : BitVec 3) (s : State) : Host.Outcome State Fault Refusal :=
  issue (.pand g p q a b) s fun x => predOp x p q fun c => c.pred a &&& c.pred b

/-- POR (R147). -/
def execPor (g p q a b : BitVec 3) (s : State) : Host.Outcome State Fault Refusal :=
  issue (.por g p q a b) s fun x => predOp x p q fun c => c.pred a ||| c.pred b

/-- PXOR (R147). -/
def execPxor (g p q a b : BitVec 3) (s : State) : Host.Outcome State Fault Refusal :=
  issue (.pxor g p q a b) s fun x => predOp x p q fun c => c.pred a ^^^ c.pred b

/-- PANDN (R147). -/
def execPandn (g p q a b : BitVec 3) (s : State) : Host.Outcome State Fault Refusal :=
  issue (.pandn g p q a b) s fun x => predOp x p q fun c => c.pred a &&& ~~~(c.pred b)

/-- PNOT (R147). -/
def execPnot (g p q a : BitVec 3) (s : State) : Host.Outcome State Fault Refusal :=
  issue (.pnot g p q a) s fun x => predOp x p q fun c => ~~~(c.pred a)

/-- MSKR: the whole mask of a predicate in every taking lane (R148). -/
def execMskr (g : BitVec 3) (d a : BitVec 6) (s : State) : Host.Outcome State Fault Refusal :=
  issue (.mskr g d a) s fun x s => s.finishReg x d (allLanes (((s.crew x.key).pred (a.setWidth 3)).setWidth 64)) .u

/-- MSKW: bit i of A[i] (R148). -/
def execMskw (g p q : BitVec 3) (a : BitVec 6) (s : State) : Host.Outcome State Fault Refusal :=
  issue (.mskw g p q a) s fun x s =>
    let c := s.crew x.key
    s.finishPred x p q (maskOf fun l => (c.src kx a l).getLsbD l.val)

/-! ## Moves and status registers -/

/-- MOV: the value with its tag, base and stride (R149). -/
def execMov (g : BitVec 3) (d a : BitVec 6) (s : State) : Host.Outcome State Fault Refusal :=
  issue (.mov g d a) s fun x => alu1 x d a .mov id

/-- CLOCK of a core: the cycles of its own clock since device reset (R40). -/
def State.clock (s : State) (core : Nat) : Word := BitVec.ofNat 64 (s.time - (s.core core).lag)

/-- PMODE of a thread (R38). -/
def Thread.pmodeWord (t : Thread) : Word := BitVec.ofNat 64 (t.wm.toNat * 256 + (if t.pmode then 1 else 0))

/-- The value of a status register in a lane (R36). -/
def State.statusReg (s : State) (key : Nat) (code : BitVec 6) (l : Lane) : Word :=
  let c := s.crew key
  let g := s.gang (gangOf key)
  let t := c.th l
  let n (v : Nat) : Word := BitVec.ofNat 64 v
  match code.toNat with
  | 0 => n l.val
  | 1 => n (crewIndex key)
  | 2 => n g.lin
  | 3 => n g.x
  | 4 => n g.y
  | 5 => n g.z
  | 6 => n g.clus
  | 7 => n (c.core % 32)
  | 8 => n (c.core / 32)
  | 9 => n g.ncrew
  | 10 => s.clock c.core
  | 11 => t.fstat
  | 12 => t.tlsb
  | 13 => n t.rsdep
  | 14 => t.pacc.setWidth 64
  | 15 => t.ptot.setWidth 64
  | 16 => t.pmodeWord
  | _ => c.cver.setWidth 64

/-- The read tag of a status register (R36). -/
def statusTag (code : BitVec 6) : Tag :=
  if code = 0 then .a else if code ≥ 11 && code ≤ 16 then .g else .u

/-- MOVS (R36, R149). -/
def execMovs (g : BitVec 3) (d b : BitVec 6) (s : State) : Host.Outcome State Fault Refusal :=
  issue (.movs g d b) s fun x s => s.finishReg x d (lanes (s.statusReg x.key b)) (statusTag b)

/-- Write a status register of the taking lanes (R37 to R39). -/
def Crew.writeStatus (c : Crew) (code : BitVec 6) (take : Mask) (v : Lanes Word) : Crew :=
  c.updThr take fun l t =>
    match code.toNat with
    | 12 => { t with tlsb := v.at l }
    | 14 => { t with pacc := (v.at l).setWidth 32 }
    | 15 => { t with ptot := (v.at l).setWidth 32 }
    | _ => t

/-- WRS of TLSB, PACC or PTOT; TLSB needs SUPER (R37). -/
def execWrs (g : BitVec 3) (a b : BitVec 6) (s : State) : Host.Outcome State Fault Refusal :=
  issue (.wrs g a b) s fun x s =>
    let c := s.crew x.key
    let bad := if b = 12 then maskOf fun l => inMask x.take l && !(c.th l).sup else 0
    if bad ≠ 0 then s.trapWhole x cSuperonly bad (allLanes 0) (allLanes 0)
    else (s.setCrew x.key (c.writeStatus b x.take (lanes (c.src kx a)))).finish x

/-- WRS of FSTAT: ILLEGAL for the whole fragment when some taking lane gives RM 6 or 7 (R34, R35). -/
def execWrsFstat (g : BitVec 3) (a : BitVec 6) (s : State) : Host.Outcome State Fault Refusal :=
  issue (.wrsFstat g a) s fun x s =>
    let c := s.crew x.key
    let bad := maskOf fun l => inMask x.take l && fstatBadRm (c.src kx a l)
    if bad ≠ 0 then s.trapWhole x cIllegal bad (allLanes 0) (allLanes 0)
    else (s.setCrew x.key (c.updThr x.take fun l t => { t with fstat := fstatWrite (c.src kx a l) })).finish x

/-! ## Cross-lane instructions (R150) -/

/-- The lane numbered `n` modulo 32. -/
def laneOf (n : Nat) : Lane := ⟨n % 32, Nat.mod_lt _ (by decide)⟩

/-- A cross-lane instruction: each lane's value from the crew. -/
def xlane (x : Ctx) (d : BitVec 6) (tag : Crew → Tag) (f : Crew → Lane → Word) (s : State) : State :=
  let c := s.crew x.key
  s.finishReg x d (lanes (f c)) (tag c)

/-- LPERM (R150). -/
def execLperm (g : BitVec 3) (d a b : BitVec 6) (s : State) : Host.Outcome State Fault Refusal :=
  issue (.lperm g d a b) s fun x => xlane x d (fun c => ruleTag .lanewise [c.srcShape kx a, c.srcShape kx b]) fun c l =>
    ofSubs 8 fun j =>
      let n := subEl 8 (c.src kx b l) j
      subEl 8 (c.src kx a (laneOf (n / 8))) (n % 8)

/-- LXOR (R150). -/
def execLxor (g : BitVec 3) (d a b : BitVec 6) (s : State) : Host.Outcome State Fault Refusal :=
  issue (.lxor g d a b) s fun x => xlane x d (fun c => ruleTag .first [c.srcShape kx a]) fun c l =>
    c.src kx a (laneOf (l.val ^^^ wbits (c.src kx b l) 4 0))

/-- LUP (R150). -/
def execLup (g : BitVec 3) (d a b : BitVec 6) (s : State) : Host.Outcome State Fault Refusal :=
  issue (.lup g d a b) s fun x => xlane x d (fun c => ruleTag .first [c.srcShape kx a]) fun c l =>
    let n := wbits (c.src kx b l) 4 0
    c.src kx a (if n ≤ l.val then laneOf (l.val - n) else l)

/-- LDOWN (R150). -/
def execLdown (g : BitVec 3) (d a b : BitVec 6) (s : State) : Host.Outcome State Fault Refusal :=
  issue (.ldown g d a b) s fun x => xlane x d (fun c => ruleTag .first [c.srcShape kx a]) fun c l =>
    let n := wbits (c.src kx b l) 4 0
    c.src kx a (if l.val + n ≤ 31 then laneOf (l.val + n) else l)

/-- LBC: L comes from the lowest taking lane (R150). -/
def execLbc (g : BitVec 3) (d a b : BitVec 6) (s : State) : Host.Outcome State Fault Refusal :=
  issue (.lbc g d a b) s fun x => xlane x d (fun _ => .u) fun c _ => c.src kx a (laneOf (wbits (c.src kx b x.low) 4 0))

/-- The taking lanes whose source is nonzero (R150). -/
def nonzeroLanes (x : Ctx) (c : Crew) (a : BitVec 6) : Mask := maskOf fun l => inMask x.take l && c.src kx a l != 0

/-- BALLOT (R150). -/
def execBallot (g : BitVec 3) (d a : BitVec 6) (s : State) : Host.Outcome State Fault Refusal :=
  issue (.ballot g d a) s fun x => xlane x d (fun _ => .u) fun c _ => (nonzeroLanes x c a).setWidth 64

/-- VANY (R150). -/
def execVany (g : BitVec 3) (d a : BitVec 6) (s : State) : Host.Outcome State Fault Refusal :=
  issue (.vany g d a) s fun x => xlane x d (fun _ => .u) fun c _ => if nonzeroLanes x c a ≠ 0 then 1 else 0

/-- VALL (R150). -/
def execVall (g : BitVec 3) (d a : BitVec 6) (s : State) : Host.Outcome State Fault Refusal :=
  issue (.vall g d a) s fun x => xlane x d (fun _ => .u) fun c _ => if nonzeroLanes x c a = x.take then 1 else 0

/-- ELECT (R150). -/
def execElect (g : BitVec 3) (d : BitVec 6) (s : State) : Host.Outcome State Fault Refusal :=
  issue (.elect g d) s fun x => xlane x d (fun _ => .g) fun _ l => if lowest x.take = some l then 1 else 0

/-- LPFX (R150). -/
def execLpfx (g : BitVec 3) (d a : BitVec 6) (s : State) : Host.Outcome State Fault Refusal :=
  issue (.lpfx g d a) s fun x => xlane x d (fun _ => .g) fun c l =>
    laneList.foldl (fun n m => if inMask x.take m && m ≤ l then n + c.src kx a m else n) 0

/-! ## Hint words (R83, R84, R91) -/

/-- NOP: one issue slot, nothing else; in a Porter stream, the next word (R83, R257). -/
def execNop (s : State) : Host.Outcome State Fault Refusal :=
  match s.cur with
  | .porter core =>
    .next (s.modCore core fun c => { c with porter := { c.porter with pc := c.porter.pc + 4 } })
  | _ => issue .nop s fun x s => s.finish x

/-- STALL: the crew issues nothing for N cycles (R91). -/
def execStall (n : BitVec 6) (s : State) : Host.Outcome State Fault Refusal :=
  issue (.stall n) s fun x s =>
    let s := s.finish x
    if n = 0 then s else s.modCrew x.key fun c => { c with stall := s.time + 1 + n.toNat }

/-- A hint word joins the run, which its fragment holds (R84, R85). The lanes go to the next word. -/
def hintWord (x : Ctx) (f : HintRun → HintRun) (s : State) : State :=
  let r := x.run.getD { lanes := x.F, start := x.pc, rnd := none, ximm := [], guard := none, scope := none }
  (s.finish x).modCrew x.key fun c => { c with run := some (f { r with lanes := x.F }) }

/-- RND (R84). -/
def execRnd (r : BitVec 3) (s : State) : Host.Outcome State Fault Refusal :=
  issue (.rnd r) s fun x => hintWord x fun h => { h with rnd := some r }

/-- XIMM (R82). -/
def execXimm (e : BitVec 22) (s : State) : Host.Outcome State Fault Refusal :=
  issue (.ximm e) s fun x => hintWord x fun h => { h with ximm := h.ximm ++ [e] }

/-- GUARD (R84). -/
def execGuard (p : BitVec 3) (s : State) : Host.Outcome State Fault Refusal :=
  issue (.guard p) s fun x => hintWord x fun h => { h with guard := some p }

/-- SCOPE (R84). -/
def execScope (k : BitVec 3) (o : BitVec 2) (s : State) : Host.Outcome State Fault Refusal :=
  issue (.scope k o) s fun x => hintWord x fun h => { h with scope := some (k, o) }

end Sys2Proof.Machine
end

