-- ==== Sys2Proof/Machine/Special.lean ====
section
/-!
DEFINITION. The special functions of R168, correctly rounded: each function is enclosed between two multiples of a power of two,
closer and closer, until every number between them rounds to one result (R106). Where the exact value is representable the
result is fixed by the table of R168.

Fixed point: an integer `a` at precision `p` stands for a × 2^(−p). An approximation comes with a bound on its error in units.
-/
namespace Sys2Proof.Machine

/-- An approximation at some precision: the number and the bound of its error, both in units of 2^(−p). -/
structure Approx where
  v : Int
  err : Int
deriving DecidableEq, Repr

/-- x × 2^p for x = m × 2^e, cut toward −∞, with the error that the cut makes. -/
def fixOf (p m : Nat) (e : Int) : Approx :=
  if 0 ≤ e + p then ⟨m * 2 ^ (e + p).toNat, 0⟩ else ⟨m / 2 ^ (-(e + p)).toNat, 1⟩

/-- Product of two fixed-point numbers. -/
def fixMul (p : Nat) (a b : Int) : Int := a * b / 2 ^ p

/-- Terms that a series needs at precision `p`. -/
def seriesLen (p : Nat) : Nat := p / 3 + 24

/-! ## Constants -/

/-- Σ over k of z^(2k+1) / (2k+1), with sign (−1)^k when `alt`: atan or atanh of a number z ≤ 1/3. -/
def atanSum (p : Nat) (alt : Bool) (z2 : Int) : Nat → Nat → Int → Int → Int
  | 0, _, _, s => s
  | n + 1, k, t, s =>
    let d := t / (2 * k + 1 : Nat)
    atanSum p alt z2 n (k + 1) (fixMul p t z2) (if alt && k % 2 = 1 then s - d else s + d)

/-- atan or atanh of a/b ≤ 1/3. -/
def atanOf (p : Nat) (alt : Bool) (a b : Nat) : Approx :=
  let z : Int := (a * 2 ^ p / b : Nat)
  let n := seriesLen p + 40
  ⟨atanSum p alt (fixMul p z z) n 0 z 0, 6 * n + 16⟩

/-- ln 2 = 2 atanh(1/3). -/
def ln2Of (p : Nat) : Approx := let a := atanOf p false 1 3; ⟨2 * a.v, 2 * a.err⟩

/-- π = 16 atan(1/5) − 4 atan(1/239). -/
def piOf (p : Nat) : Approx :=
  let a := atanOf p true 1 5
  let b := atanOf p true 1 239
  ⟨16 * a.v - 4 * b.v, 16 * a.err + 4 * b.err⟩

/-! ## Elementary functions on a reduced argument -/

/-- Σ r^n / n!. -/
def expSum (p : Nat) (r : Int) : Nat → Nat → Int → Int → Int
  | 0, _, _, s => s
  | n + 1, k, t, s => expSum p r n (k + 1) (fixMul p t r / (k + 1 : Nat)) (s + t)

/-- e^r for 0 ≤ r < 1. -/
def expOf (p : Nat) (r : Approx) : Approx :=
  let n := seriesLen p
  ⟨expSum p r.v n 0 (2 ^ p) 0, 3 * r.err + 3 * n + 8⟩

/-- e^x = 2^k × e^r for x = (−1)^neg × m × 2^e: k and e^r. The magnitude of x is below 2^16. -/
def expScaled (p : Nat) (neg : Bool) (m : Nat) (e : Int) : Int × Approx :=
  let q := p + 24
  let l := ln2Of q
  let x := fixOf q m e
  let xv := if neg then -x.v else x.v
  let k := xv / l.v
  let r := xv - k * l.v
  let er := x.err + (k.natAbs : Int) * l.err
  (k, expOf p ⟨r / 2 ^ 24, er / 2 ^ 24 + 2⟩)

/-- ln y for y = m × 2^e in [1, 2). -/
def lnOf (p m : Nat) (e : Int) : Approx :=
  let one := 2 ^ (-e).toNat
  let a := atanOf p false (m - one) (m + one)
  ⟨2 * a.v, 2 * a.err⟩

/-- ln x = k ln 2 + ln y, for x = m × 2^e. -/
def lnFull (p m : Nat) (e : Int) : Approx :=
  let len := bitLen m
  let k : Int := e + len - 1
  let y := lnOf p m (1 - (len : Int))
  let l := ln2Of p
  ⟨k * l.v + y.v, (k.natAbs : Int) * l.err + y.err⟩

/-- Alternating Taylor sum of sine (from r) or cosine (from 1). -/
def trigSum (p : Nat) (r2 : Int) : Nat → Nat → Int → Int → Int
  | 0, _, _, s => s
  | n + 1, j, t, s => trigSum p r2 n (j + 2) (-(fixMul p t r2) / ((j + 1) * (j + 2) : Nat)) (s + t)

/-- sin r and cos r for 0 ≤ r < 1.6. -/
def sinOf (p : Nat) (r : Approx) : Approx :=
  let n := seriesLen p
  ⟨trigSum p (fixMul p r.v r.v) n 1 r.v 0, r.err + 6 * n + 8⟩
/-- cos r for 0 ≤ r < 1.6. -/
def cosOf (p : Nat) (r : Approx) : Approx :=
  let n := seriesLen p
  ⟨trigSum p (fixMul p r.v r.v) n 0 (2 ^ p) 0, r.err + 6 * n + 8⟩

/-- The quadrant of m × 2^e and the rest after its multiples of π/2. -/
def reduceTrig (p m : Nat) (e : Int) : Nat × Approx :=
  let top := (max 0 (e + bitLen m)).toNat
  let q := p + top + 24
  let h := piOf (q + 1)
  -- π/2 at precision q is π/4 × 2 at precision q + 1
  let hv := h.v / 4
  let x := fixOf q m e
  let k := x.v / hv
  let r := x.v - k * hv
  ((k % 4).toNat, ⟨r / 2 ^ (top + 24), ((k.natAbs : Int) * (h.err + 2) + x.err) / 2 ^ (top + 24) + 2⟩)

/-- Σ of the series 2^n x^(2n+1) / (1 · 3 · … · (2n+1)). -/
def erfSum (p : Nat) (x2 : Int) : Nat → Nat → Int → Int → Int
  | 0, _, _, s => s
  | n + 1, k, t, s => erfSum p x2 n (k + 1) (2 * fixMul p t x2 / (2 * k + 3 : Nat)) (s + t)

/-- erf x for 0 < x < 64: 2/√π × e^(−x²) × the series, whose sum and terms are below 2^(x² × 1.45 + 8). -/
def erfOf (p m : Nat) (e : Int) : Approx :=
  let bound := let x := (fixOf 0 m e).v.toNat + 1; 2 * x * x + 16
  let q := p + bound + 16
  let x := (fixOf q m e).v
  let n := 4 * bound + 2 * seriesLen q
  let sum := erfSum q (fixMul q x x) n 0 x 0
  let (k, ex) := expScaled q true (m * m) (2 * e)
  let ep := if 0 ≤ k then ex.v * 2 ^ k.toNat else ex.v / 2 ^ (-k).toNat
  let rootPi : Int := (isqrt ((piOf q).v.toNat * 2 ^ q) : Nat)
  let v := 2 * fixMul q sum ep * 2 ^ q / rootPi
  ⟨v / 2 ^ (bound + 16), 4⟩

/-! ## Choosing the precision -/

/-- The precisions tried, in turn; PRESUMED to suffice for every operand (log 78). -/
def precisions : List Nat := [96, 192, 384, 768, 1536, 3072, 6144, 12288]

/-- A number strictly between lo × 2^e and hi × 2^e, rounded when both ends agree. -/
def roundBetween (f : Fmt) (rm : BitVec 3) (neg : Bool) (lo hi e : Int) : Option (Nat × Exc) :=
  if lo ≤ 0 || hi ≤ lo then none
  else
    let a := roundMag f rm neg lo.toNat e true
    let b := roundMag f rm neg (hi - 1).toNat e true
    if a = b then some a else none

/-- Round an inexact value: at each precision `g` gives its sign, and the two integers and the exponent that enclose its
magnitude. -/
def solve (f : Fmt) (rm : BitVec 3) (g : Nat → Bool × Int × Int × Int) : Nat × Exc :=
  (precisions.findSome? fun p => let (neg, lo, hi, e) := g p; roundBetween f rm neg lo hi e).getD (codeNaN f, 0)

/-- Enclosure of an approximation at precision `p`, scaled by 2^k. -/
def around (neg : Bool) (p : Nat) (k : Int) (a : Approx) : Bool × Int × Int × Int :=
  (neg, a.v - a.err - 1, a.v + a.err + 1, k - p)

/-- Just above (or just below) m × 2^e, where the distance is far below the last place of any format. -/
def near (f : Fmt) (rm : BitVec 3) (neg above : Bool) (m : Nat) (e : Int) : Nat × Exc :=
  let k : Nat := m * 2 ^ 60
  roundMag f rm neg (if above then k else k - 1) (e - 60) true

/-- Is a magnitude m × 2^e below 2^(−k)? -/
def belowPow (m : Nat) (e : Int) (k : Int) : Bool := e + bitLen m ≤ -k

/-- Is m × 2^e an integer multiple of 2^0, and which? -/
def isIntegral (m : Nat) (e : Int) : Bool := 0 ≤ e || m % 2 ^ (-e).toNat = 0

/-! ## The functions (R168) -/

/-- e^x of a nonzero finite x. -/
def expNum (f : Fmt) (rm : BitVec 3) (neg : Bool) (m : Nat) (e : Int) : Nat × Exc :=
  if belowPow m e 70 then near f rm false (!neg) 1 0
  else if 16 < e + bitLen m then roundMag f rm false 1 (if neg then -9000 else 9000) true
  else solve f rm fun p => let (k, a) := expScaled p neg m e; around false p k a

/-- 2^x of a nonzero finite x. -/
def exp2Num (f : Fmt) (rm : BitVec 3) (neg : Bool) (m : Nat) (e : Int) : Nat × Exc :=
  if belowPow m e 70 then near f rm false (!neg) 1 0
  else if 16 < e + bitLen m then roundMag f rm false 1 (if neg then -9000 else 9000) true
  else if isIntegral m e then
    let k : Int := (fixOf 0 m e).v
    roundMag f rm false 1 (if neg then -k else k) false
  else solve f rm fun p =>
    let q := p + 1100
    let x : Int := (fixOf q m e).v
    let xv := if neg then -x else x
    let k := xv / 2 ^ q
    let r := xv - k * 2 ^ q
    let l := ln2Of q
    let a := expOf q ⟨fixMul q r l.v, l.err + 4⟩
    around false q k a

/-- e^x − 1 of a nonzero finite x. -/
def expm1Num (f : Fmt) (rm : BitVec 3) (neg : Bool) (m : Nat) (e : Int) : Nat × Exc :=
  if e ≤ -170 then near f rm neg (!neg) m e
  else if 16 < e + bitLen m then (if neg then near f rm true false 1 0 else roundMag f rm false 1 9000 true)
  else solve f rm fun p =>
    let (k, a) := expScaled p neg m e
    -- e^x at precision p + |k|
    if 0 ≤ k then
      let v := a.v * 2 ^ k.toNat
      let w := a.err * 2 ^ k.toNat
      around false p 0 ⟨v - 2 ^ p, w⟩
    else
      let v := a.v / 2 ^ (-k).toNat
      let r := around true p 0 ⟨2 ^ p - v, a.err / 2 ^ (-k).toNat + 2⟩
      (r.1, r.2.1, min r.2.2.1 (2 ^ p), r.2.2.2)

/-- The enclosure of a signed approximation: sign and magnitude. -/
def signedAround (p : Nat) (a : Approx) : Bool × Int × Int × Int :=
  if a.v < 0 then around true p 0 ⟨-a.v, a.err⟩ else around false p 0 a

/-- ln x of a positive finite x other than 1. -/
def logNum (f : Fmt) (rm : BitVec 3) (m : Nat) (e : Int) : Nat × Exc :=
  solve f rm fun p => signedAround p (lnFull p m e)

/-- log2 x of a positive finite x: exact for a power of two. -/
def log2Num (f : Fmt) (rm : BitVec 3) (m : Nat) (e : Int) : Nat × Exc :=
  let len := bitLen m
  let k : Int := e + len - 1
  if m = 2 ^ (len - 1) then
    if k = 0 then (codeZero f false, 0) else roundMag f rm (k < 0) k.natAbs 0 false
  else solve f rm fun p =>
    let y := lnOf p m (1 - (len : Int))
    let l := ln2Of p
    signedAround p ⟨k * 2 ^ p + y.v * 2 ^ p / l.v, 4 * (y.err + l.err) + 4⟩

/-- ln(1 + x) of a finite x > −1 other than 0. -/
def log1pNum (f : Fmt) (rm : BitVec 3) (neg : Bool) (m : Nat) (e : Int) : Nat × Exc :=
  if e ≤ -170 then near f rm neg neg m e
  else
    let e0 := min e 0
    let one : Int := 2 ^ (-e0).toNat
    let v : Int := m * 2 ^ (e - e0).toNat
    logNum f rm (if neg then one - v else one + v).toNat e0

/-- tanh |x| of a nonzero finite x, with the sign of x. -/
def tanhNum (f : Fmt) (rm : BitVec 3) (neg : Bool) (m : Nat) (e : Int) : Nat × Exc :=
  if e ≤ -170 then near f rm neg false m e
  else if 10 < e + bitLen m then near f rm neg false 1 0
  else solve f rm fun p =>
    -- (1 − e^(−2x)) / (1 + e^(−2x))
    let (k, a) := expScaled p true m (e + 1)
    let u := a.v / 2 ^ (-k).toNat
    let er := a.err / 2 ^ (-k).toNat + 2
    let v := (2 ^ p - u) * 2 ^ p / (2 ^ p + u)
    let r := around neg p 0 ⟨v, 3 * er + 4⟩
    (r.1, r.2.1, min r.2.2.1 (2 ^ p), r.2.2.2)

/-- erf |x| of a nonzero finite x, with the sign of x. -/
def erfNum (f : Fmt) (rm : BitVec 3) (neg : Bool) (m : Nat) (e : Int) : Nat × Exc :=
  if 4 < e + bitLen m then near f rm neg false 1 0
  else solve f rm fun p =>
    let r := around neg p 0 (erfOf p m e)
    (r.1, r.2.1, min r.2.2.1 (2 ^ p), r.2.2.2)

/-- 1 − erf x of a nonzero finite x. -/
def erfcNum (f : Fmt) (rm : BitVec 3) (neg : Bool) (m : Nat) (e : Int) : Nat × Exc :=
  if neg then
    if 4 < e + bitLen m then near f rm false false 2 0
    else if belowPow m e 70 then near f rm false true 1 0
    else solve f rm fun p =>
      let a := erfOf p m e
      let r := around false p 0 ⟨2 ^ p + a.v, a.err⟩
      (r.1, r.2.1, min r.2.2.1 (2 ^ (p + 1)), r.2.2.2)
  else if 5 < e + bitLen m then roundMag f rm false 1 (-3000) true
  else if belowPow m e 70 then near f rm false false 1 0
  else solve f rm fun p =>
    let a := erfOf p m e
    around false p 0 ⟨2 ^ p - a.v, a.err⟩

/-- sin x of a nonzero finite x. -/
def sinNum (f : Fmt) (rm : BitVec 3) (neg : Bool) (m : Nat) (e : Int) : Nat × Exc :=
  if e ≤ -170 then near f rm neg false m e
  else solve f rm fun p =>
    let (k, r) := reduceTrig p m e
    let a := if k % 2 = 0 then sinOf p r else cosOf p r
    let v := if k < 2 then a.v else -a.v
    let b := signedAround p ⟨v, a.err⟩
    (b.1 != neg, b.2.1, min b.2.2.1 (2 ^ p), b.2.2.2)

/-- cos x of a nonzero finite x. -/
def cosNum (f : Fmt) (rm : BitVec 3) (m : Nat) (e : Int) : Nat × Exc :=
  if belowPow m e 31 then near f rm false false 1 0
  else solve f rm fun p =>
    let (k, r) := reduceTrig p m e
    let a := if k % 2 = 0 then cosOf p r else sinOf p r
    let v := if k = 0 || k = 3 then a.v else -a.v
    let b := signedAround p ⟨v, a.err⟩
    (b.1, b.2.1, min b.2.2.1 (2 ^ p), b.2.2.2)

/-- √x and 1/√x of a positive finite x. -/
def sqrtNum (f : Fmt) (rm : BitVec 3) (m : Nat) (e : Int) : Nat × Exc :=
  let (r, e', st) := sqrtMag (f.m + 4) m e
  roundMag f rm false r e' st

/-- 1/√x of a positive finite x. -/
def rsqrtNum (f : Fmt) (rm : BitVec 3) (m : Nat) (e : Int) : Nat × Exc :=
  let m' := if e % 2 = 0 then m else 2 * m
  let e' := if e % 2 = 0 then e else e - 1
  let q := f.m + 4 + bitLen m'
  let r := isqrt (2 ^ (2 * q) / m')
  roundMag f rm false r (-(e' / 2) - q) (r * r * m' ≠ 2 ^ (2 * q))

/-- FRINT of a finite value (R169): an integral value of the same type, with the sign of x and no flag. -/
def rintNum (f : Fmt) (rm : BitVec 3) (neg : Bool) (m : Nat) (e : Int) : Nat × Exc :=
  let (k, _) := roundTo rm neg m e false 0
  if k = 0 then (codeZero f neg, 0) else ((roundMag f 0 neg k 0 false).1, 0)

/-- The functions of FUN, by FN code (R80, R168). -/
def fpFun (f : Fmt) (rm : BitVec 3) (fn : Nat) (x : Nat) : Nat × Exc :=
  let v := decodeFp f x
  let one (neg : Bool) : Nat × Exc := roundMag f rm neg 1 0 false
  let zero (neg : Bool) : Nat × Exc := (codeZero f neg, 0)
  let inf (neg : Bool) : Nat × Exc := (codeInf f neg, 0)
  let div0 (neg : Bool) : Nat × Exc := (codeInf f neg, excDZ)
  match v with
  | .nan n q fr => (carryNaN f n fr, excIf (!q) excNV)
  | .inf n =>
    match fn with
    | 0 | 6 | 7 | 8 => if n then invalid f else inf false
    | 1 => if n then invalid f else zero false
    | 2 => zero n
    | 3 | 4 => if n then zero false else inf false
    | 5 => if n then one true else inf false
    | 9 | 13 => one n
    | 10 => if n then roundMag f rm false 2 0 false else zero false
    | 11 | 12 => invalid f
    | _ => inf n
  | .fin n 0 _ =>
    match fn with
    | 0 | 5 | 8 | 9 | 11 | 13 => zero n
    | 1 | 2 => div0 n
    | 3 | 4 | 10 | 12 => one false
    | 6 | 7 => div0 true
    | _ => zero n
  | .fin n m e =>
    match fn with
    | 0 => if n then invalid f else sqrtNum f rm m e
    | 1 => if n then invalid f else rsqrtNum f rm m e
    | 2 =>
      let (q, e', st) := divMag (f.m + 4) 1 m (-e)
      roundMag f rm n q e' st
    | 3 => expNum f rm n m e
    | 4 => exp2Num f rm n m e
    | 5 => expm1Num f rm n m e
    | 6 => if n then invalid f else if cmpNum v (.fin false 1 0) = .eq then zero false else logNum f rm m e
    | 7 => if n then invalid f else log2Num f rm m e
    | 8 =>
      match cmpNum v (.fin true 1 0) with
      | .lt => invalid f
      | .eq => div0 true
      | .gt => log1pNum f rm n m e
    | 9 => erfNum f rm n m e
    | 10 => erfcNum f rm n m e
    | 11 => sinNum f rm n m e
    | 12 => cosNum f rm m e
    | 13 => tanhNum f rm n m e
    | _ => rintNum f rm n m e

/-- u < e^lr for u = k × 2^(−54) and a finite lr < 0, compared as reals (R253). -/
def belowExp (k m : Nat) (e : Int) : Bool :=
  if belowPow m e 70 then true
  else if 16 < e + bitLen m then false
  else
    (precisions.findSome? fun p =>
      let (j, a) := expScaled p true m e
      -- e^lr lies between lo and hi at exponent j − p
      let u := alignTo (min (-54) (j - p)) false k (-54)
      let lo := (a.v - a.err - 1) * 2 ^ (j - p - min (-54) (j - p)).toNat
      let hi := (a.v + a.err + 1) * 2 ^ (j - p - min (-54) (j - p)).toNat
      if u ≤ lo then some true else if hi ≤ u then some false else none).getD false

end Sys2Proof.Machine
end

