-- ==== Sys2Proof/Machine/Fp.lean ====
section
/-!
DEFINITION. The floating-point, conversion, comparison and random-number instructions of the vector unit (R161 to R178).
-/
namespace Sys2Proof.Machine

/-! ## Results with exceptions (R161 to R163) -/

/-- The results of the sub-elements of one lane: the word, and the OR of what they signal (R163). -/
def joinSubs (w : Nat) (f : Nat → Nat × Exc) : Word × Exc :=
  let rs := (List.range (64 / w)).map f
  (BitVec.ofNat 64 (rs.foldr (fun r n => n * 2 ^ w + r.1 % 2 ^ w) 0), rs.foldl (fun e r => e ||| r.2) 0)

/-- The exceptions of the taking lanes. -/
def excLanes (x : Ctx) (e : Lane → Exc) : Lanes (BitVec 5) := lanes fun l => if inMask x.take l then e l else 0

/-- The taking lanes with a signalled exception that their FSTAT enables (R163). -/
def enabledLanes (c : Crew) (x : Ctx) (e : Lane → Exc) : Mask :=
  maskOf fun l => inMask x.take l && enabledExc (c.th l).fstat (e l) != 0

/-- Every taking lane ORs its exceptions into its sticky flags (R163). -/
def Crew.signal (c : Crew) (x : Ctx) (e : Lane → Exc) : Crew :=
  c.updThr x.take fun l t => { t with fstat := fstatOr t.fstat (e l) }

/-- The end of an instruction that signals exceptions: FPX for the whole fragment when one is enabled, else its effect. The flags
are set either way (R163). -/
def withExc (x : Ctx) (e : Lane → Exc) (effect : State → State) (s : State) : State :=
  let c := s.crew x.key
  let bad := enabledLanes c x e
  let s := s.setCrew x.key (c.signal x e)
  if bad ≠ 0 then s.trapWhole x cFpx bad (allLanes 0) (excLanes x e) else effect s

/-- The tag of a rounding instruction: G under DYN, else lane-wise (R18). -/
def fpTag (r : BitVec 3) (srcs : List Shape) : Tag := if r = 7 then .g else ruleTag .lanewise srcs

/-- A floating-point instruction that writes a register: `f` gives a lane's result from its rounding mode. -/
def fpOp (x : Ctx) (d : BitVec 6) (r : BitVec 3) (srcs : Crew → List Shape) (f : Crew → BitVec 3 → Lane → Word × Exc) (s : State) :
    State :=
  let c := s.crew x.key
  let res := lanes fun l => f c (roundingOf r (c.th l).fstat) l
  withExc x (fun l => (res.at l).2) (fun s => s.finishReg x d (lanes fun l => (res.at l).1) (fpTag r (srcs c))) s

/-- An operation of one source on each sub-element (R161). -/
def fp1 (x : Ctx) (d a : BitVec 6) (r : BitVec 3) (t : BitVec 2) (f : Fmt → BitVec 3 → Nat → Nat × Exc) : State → State :=
  let ty := fpTypeOf t
  let v : KView := .fp ty
  fpOp x d r (fun c => [c.srcShape v a]) fun c rm l =>
    joinSubs ty.width fun j => f (fmtOf ty) rm (subEl ty.width (c.src v a l) j)

/-- An operation of two sources on each sub-element. -/
def fp2 (x : Ctx) (d a b : BitVec 6) (r : BitVec 3) (t : BitVec 2) (f : Fmt → BitVec 3 → Nat → Nat → Nat × Exc) : State → State :=
  let ty := fpTypeOf t
  let v : KView := .fp ty
  fpOp x d r (fun c => [c.srcShape v a, c.srcShape v b]) fun c rm l =>
    joinSubs ty.width fun j => f (fmtOf ty) rm (subEl ty.width (c.src v a l) j) (subEl ty.width (c.src v b l) j)

/-- The FMA family, whose rounding mode comes from a RND hint or is RNE (R162, R166). -/
def fp3 (x : Ctx) (d a b e : BitVec 6) (t : BitVec 2) (negP negC : Bool) : State → State :=
  let ty := fpTypeOf t
  let v : KView := .fp ty
  fpOp x d ((x.run.bind fun h => h.rnd).getD 0) (fun c => [c.srcShape v a, c.srcShape v b, c.srcShape v e]) fun c rm l =>
    joinSubs ty.width fun j => fpFma (fmtOf ty) rm negP negC (subEl ty.width (c.src v a l) j) (subEl ty.width (c.src v b l) j)
      (subEl ty.width (c.src v e l) j)

/-! ## Add, subtract, multiply, divide (R165) -/

/-- FADD (R165). -/
def execFadd (g : BitVec 3) (d a b : BitVec 6) (r : BitVec 3) (t : BitVec 2) (s : State) : Host.Outcome State Fault Refusal :=
  issue (.fadd g d a b r t) s fun x => fp2 x d a b r t fpAdd

/-- FSUB (R165). -/
def execFsub (g : BitVec 3) (d a b : BitVec 6) (r : BitVec 3) (t : BitVec 2) (s : State) : Host.Outcome State Fault Refusal :=
  issue (.fsub g d a b r t) s fun x => fp2 x d a b r t fpSub

/-- FMUL (R165). -/
def execFmul (g : BitVec 3) (d a b : BitVec 6) (r : BitVec 3) (t : BitVec 2) (s : State) : Host.Outcome State Fault Refusal :=
  issue (.fmul g d a b r t) s fun x => fp2 x d a b r t fpMul

/-- FDIV (R165). -/
def execFdiv (g : BitVec 3) (d a b : BitVec 6) (r : BitVec 3) (t : BitVec 2) (s : State) : Host.Outcome State Fault Refusal :=
  issue (.fdiv g d a b r t) s fun x => fp2 x d a b r t fpDiv

/-! ## Fused multiply-add (R166, R167) -/

/-- FMA (R166). -/
def execFma (d a b e : BitVec 6) (t : BitVec 2) (s : State) : Host.Outcome State Fault Refusal :=
  issue (.fma d a b e t) s fun x => fp3 x d a b e t false false

/-- FMS (R166). -/
def execFms (d a b e : BitVec 6) (t : BitVec 2) (s : State) : Host.Outcome State Fault Refusal :=
  issue (.fms d a b e t) s fun x => fp3 x d a b e t false true

/-- FNMA (R166). -/
def execFnma (d a b e : BitVec 6) (t : BitVec 2) (s : State) : Host.Outcome State Fault Refusal :=
  issue (.fnma d a b e t) s fun x => fp3 x d a b e t true false

/-- FNMS (R166). -/
def execFnms (d a b e : BitVec 6) (t : BitVec 2) (s : State) : Host.Outcome State Fault Refusal :=
  issue (.fnms d a b e t) s fun x => fp3 x d a b e t true true

/-! ## The unary special functions (R168, R169) -/

/-- FSQRT (R168). -/
def execFsqrt (g : BitVec 3) (d a : BitVec 6) (r : BitVec 3) (t : BitVec 2) (s : State) : Host.Outcome State Fault Refusal :=
  issue (.fsqrt g d a r t) s fun x => fp1 x d a r t fun f rm => fpFun f rm 0

/-- FRSQ (R168). -/
def execFrsq (g : BitVec 3) (d a : BitVec 6) (r : BitVec 3) (t : BitVec 2) (s : State) : Host.Outcome State Fault Refusal :=
  issue (.frsq g d a r t) s fun x => fp1 x d a r t fun f rm => fpFun f rm 1

/-- FRCP (R168). -/
def execFrcp (g : BitVec 3) (d a : BitVec 6) (r : BitVec 3) (t : BitVec 2) (s : State) : Host.Outcome State Fault Refusal :=
  issue (.frcp g d a r t) s fun x => fp1 x d a r t fun f rm => fpFun f rm 2

/-- FEXP (R168). -/
def execFexp (g : BitVec 3) (d a : BitVec 6) (r : BitVec 3) (t : BitVec 2) (s : State) : Host.Outcome State Fault Refusal :=
  issue (.fexp g d a r t) s fun x => fp1 x d a r t fun f rm => fpFun f rm 3

/-- FEXP2 (R168). -/
def execFexp2 (g : BitVec 3) (d a : BitVec 6) (r : BitVec 3) (t : BitVec 2) (s : State) : Host.Outcome State Fault Refusal :=
  issue (.fexp2 g d a r t) s fun x => fp1 x d a r t fun f rm => fpFun f rm 4

/-- FEXPM1 (R168). -/
def execFexpm1 (g : BitVec 3) (d a : BitVec 6) (r : BitVec 3) (t : BitVec 2) (s : State) : Host.Outcome State Fault Refusal :=
  issue (.fexpm1 g d a r t) s fun x => fp1 x d a r t fun f rm => fpFun f rm 5

/-- FLOG (R168). -/
def execFlog (g : BitVec 3) (d a : BitVec 6) (r : BitVec 3) (t : BitVec 2) (s : State) : Host.Outcome State Fault Refusal :=
  issue (.flog g d a r t) s fun x => fp1 x d a r t fun f rm => fpFun f rm 6

/-- FLOG2 (R168). -/
def execFlog2 (g : BitVec 3) (d a : BitVec 6) (r : BitVec 3) (t : BitVec 2) (s : State) : Host.Outcome State Fault Refusal :=
  issue (.flog2 g d a r t) s fun x => fp1 x d a r t fun f rm => fpFun f rm 7

/-- FLOG1P (R168). -/
def execFlog1p (g : BitVec 3) (d a : BitVec 6) (r : BitVec 3) (t : BitVec 2) (s : State) : Host.Outcome State Fault Refusal :=
  issue (.flog1p g d a r t) s fun x => fp1 x d a r t fun f rm => fpFun f rm 8

/-- FERF (R168). -/
def execFerf (g : BitVec 3) (d a : BitVec 6) (r : BitVec 3) (t : BitVec 2) (s : State) : Host.Outcome State Fault Refusal :=
  issue (.ferf g d a r t) s fun x => fp1 x d a r t fun f rm => fpFun f rm 9

/-- FERFC (R168). -/
def execFerfc (g : BitVec 3) (d a : BitVec 6) (r : BitVec 3) (t : BitVec 2) (s : State) : Host.Outcome State Fault Refusal :=
  issue (.ferfc g d a r t) s fun x => fp1 x d a r t fun f rm => fpFun f rm 10

/-- FSIN (R168). -/
def execFsin (g : BitVec 3) (d a : BitVec 6) (r : BitVec 3) (t : BitVec 2) (s : State) : Host.Outcome State Fault Refusal :=
  issue (.fsin g d a r t) s fun x => fp1 x d a r t fun f rm => fpFun f rm 11

/-- FCOS (R168). -/
def execFcos (g : BitVec 3) (d a : BitVec 6) (r : BitVec 3) (t : BitVec 2) (s : State) : Host.Outcome State Fault Refusal :=
  issue (.fcos g d a r t) s fun x => fp1 x d a r t fun f rm => fpFun f rm 12

/-- FTANH (R168). -/
def execFtanh (g : BitVec 3) (d a : BitVec 6) (r : BitVec 3) (t : BitVec 2) (s : State) : Host.Outcome State Fault Refusal :=
  issue (.ftanh g d a r t) s fun x => fp1 x d a r t fun f rm => fpFun f rm 13

/-- FRINT (R168). -/
def execFrint (g : BitVec 3) (d a : BitVec 6) (r : BitVec 3) (t : BitVec 2) (s : State) : Host.Outcome State Fault Refusal :=
  issue (.frint g d a r t) s fun x => fp1 x d a r t fun f rm => fpFun f rm 14

/-! ## Minimum, maximum, sign and class (R170 to R172) -/

/-- FMIN (R171). -/
def execFmin (g : BitVec 3) (d a b : BitVec 6) (t : BitVec 2) (s : State) : Host.Outcome State Fault Refusal :=
  issue (.fmin g d a b t) s fun x => fp2 x d a b 0 t fun f _ => fpMinMax f false false

/-- FMAX (R171). -/
def execFmax (g : BitVec 3) (d a b : BitVec 6) (t : BitVec 2) (s : State) : Host.Outcome State Fault Refusal :=
  issue (.fmax g d a b t) s fun x => fp2 x d a b 0 t fun f _ => fpMinMax f true false

/-- FMINN (R171). -/
def execFminn (g : BitVec 3) (d a b : BitVec 6) (t : BitVec 2) (s : State) : Host.Outcome State Fault Refusal :=
  issue (.fminn g d a b t) s fun x => fp2 x d a b 0 t fun f _ => fpMinMax f false true

/-- FMAXN (R171). -/
def execFmaxn (g : BitVec 3) (d a b : BitVec 6) (t : BitVec 2) (s : State) : Host.Outcome State Fault Refusal :=
  issue (.fmaxn g d a b t) s fun x => fp2 x d a b 0 t fun f _ => fpMinMax f true true

/-- The magnitude bits of a code. -/
def magBits (f : Fmt) (x : Nat) : Nat := x % 2 ^ (f.e + f.m)

/-- The class bit of a code (R172). -/
def fpClass (f : Fmt) (x : Nat) : Nat :=
  match decodeFp f x with
  | .inf n => if n then 1 else 2 ^ 7
  | .nan _ q _ => if q then 2 ^ 9 else 2 ^ 8
  | .fin n m _ =>
    if m = 0 then (if n then 2 ^ 3 else 2 ^ 4)
    else if m < 2 ^ f.m then (if n then 2 ^ 2 else 2 ^ 5)
    else if n then 2 else 2 ^ 6

/-- FABS: the sign bit cleared (R170). -/
def execFabs (g : BitVec 3) (d a : BitVec 6) (t : BitVec 2) (s : State) : Host.Outcome State Fault Refusal :=
  issue (.fabs g d a t) s fun x => fp1 x d a 0 t fun f _ p => (magBits f p, 0)

/-- FNEG: the sign bit inverted (R170). -/
def execFneg (g : BitVec 3) (d a : BitVec 6) (t : BitVec 2) (s : State) : Host.Outcome State Fault Refusal :=
  issue (.fneg g d a t) s fun x => fp1 x d a 0 t fun f _ p => (p ^^^ 2 ^ (f.e + f.m), 0)

/-- FCPS: the exponent and fraction of A with the sign bit of B (R170). -/
def execFcps (g : BitVec 3) (d a b : BitVec 6) (t : BitVec 2) (s : State) : Host.Outcome State Fault Refusal :=
  issue (.fcps g d a b t) s fun x => fp2 x d a b 0 t fun f _ p q => (magBits f p + (q - magBits f q), 0)

/-- FCLASS (R172). -/
def execFclass (g : BitVec 3) (d a : BitVec 6) (t : BitVec 2) (s : State) : Host.Outcome State Fault Refusal :=
  issue (.fclass g d a t) s fun x => fp1 x d a 0 t fun f _ p => (fpClass f p, 0)

/-! ## Comparison (R173) -/

/-- The condition and what it signals, on two codes (R173). -/
def fpCond (f : Fmt) (k : BitVec 3) (x y : Nat) : Bool × Exc :=
  let a := decodeFp f x
  let b := decodeFp f y
  let nan := a.isNaN || b.isNaN
  let nv := if k ≥ 2 && k ≤ 5 then nan else a.isSNaN || b.isSNaN
  let o := cmpNum a b
  let c := match k.toNat with
    | 0 => !nan && o == .eq
    | 1 => nan || o != .eq
    | 2 => !nan && o == .lt
    | 3 => !nan && o != .gt
    | 4 => !nan && o == .gt
    | 5 => !nan && o != .lt
    | 6 => nan
    | _ => !nan
  (c, excIf nv excNV)

/-- FCMP (R173). -/
def execFcmp (g p q : BitVec 3) (a b : BitVec 6) (k : BitVec 3) (t : BitVec 2) (s : State) : Host.Outcome State Fault Refusal :=
  issue (.fcmp g p q a b k t) s fun x s =>
    let c := s.crew x.key
    let ty := fpTypeOf t
    let v : KView := .fp ty
    let res := lanes fun l => fpCond (fmtOf ty) k (subEl ty.width (c.src v a l) 0) (subEl ty.width (c.src v b l) 0)
    withExc x (fun l => (res.at l).2) (fun s => s.finishPred x p q (maskOf fun l => (res.at l).1)) s

/-! ## Conversions (R174, R175) -/

/-- The types of FCVT (R79). -/
inductive CvtType where
  | fp (f : Fmt)
  | int (w : Nat) (sgn : Bool)
deriving DecidableEq, Repr

/-- The type of a code (R79). -/
def cvtType (k : BitVec 4) : CvtType :=
  match k.toNat with
  | 0 => .fp fmtD
  | 1 => .fp fmtS
  | 2 => .fp fmtH
  | 3 => .fp fmtBf
  | 4 => .fp fmtE4M3
  | 5 => .fp fmtE5M2
  | 6 => .int 64 true
  | 7 => .int 64 false
  | 8 => .int 32 true
  | 9 => .int 32 false
  | 10 => .int 16 true
  | 11 => .int 16 false
  | 12 => .int 8 true
  | _ => .int 8 false

/-- Width of an element. -/
def CvtType.width : CvtType → Nat
  | .fp f => f.width
  | .int w _ => w

/-- The view in which FCVT reads a constant: its SRC type (R77). The FP constants of the two narrow formats are rounded like the
others. E4M3 has no infinity, and the pattern R77 gives K11 is a finite code there: K5 and K11 read as the E4M3 NaN 0x7F
(DESIGN CHOICE, log 95). -/
def cvtConst (t : CvtType) (k : Nat) : Word :=
  match t with
  | .int w _ => replicateSub w (intConst w k)
  | .fp f =>
    match f.width with
    | 64 => constVal (.fp .d) k
    | 32 => constVal (.fp .s) k
    | 16 => constVal (.fp (if f = fmtH then .h else .bf)) k
    | _ =>
      let v := decodeFp fmtD (constVal (.fp .d) k).toNat
      replicateSub 8 (match k, v with
        | 6, _ => codeMax f false
        | 7, _ => 2 ^ f.m
        | _, .fin n m e => (roundNum f 0 n m e false).1
        | _, .inf n => if f.top = .ieee then codeInf f n else codeNaN f
        | _, .nan _ _ _ => codeNaN f)

/-- A source of FCVT. -/
def Crew.cvtSrc (c : Crew) (t : CvtType) (code : BitVec 6) (l : Lane) : Word :=
  if code ≥ 52 then cvtConst t (code.toNat - 52) else c.src kx code l

/-- The value of an integer code. -/
def intVal (w : Nat) (sgn : Bool) (x : Nat) : Int := if sgn then signed w x else (x % 2 ^ w : Nat)

/-- Saturate into an integer type, as a bit pattern. -/
def saturate (w : Nat) (sgn : Bool) (v : Int) : Nat :=
  let lo : Int := if sgn then -(2 ^ (w - 1)) else 0
  let hi : Int := if sgn then 2 ^ (w - 1) - 1 else 2 ^ w - 1
  wrap w (max lo (min v hi))

/-- A value that is not NaN into a format: ±∞ into E4M3 is its NaN, with NV (R110). -/
def toFormat (f : Fmt) (rm : BitVec 3) : Num → Nat × Exc
  | .inf n => if f.top = .nanOnly then (carryNaN f n 0, excNV) else (codeInf f n, 0)
  | v => roundVal f rm v

/-- One element converted (R175). -/
def convert (dst src : CvtType) (rm : BitVec 3) (x : Nat) : Nat × Exc :=
  match src, dst with
  | .fp f, .fp g =>
    let v := decodeFp f x
    (nanResult g [v]).getD (toFormat g rm v)
  | .fp f, .int w sgn =>
    match decodeFp f x with
    | .nan _ _ _ => (0, excNV)
    | .inf n => (saturate w sgn (if n then -(2 ^ 70) else 2 ^ 70), excNV)
    | .fin n m e =>
      let (k, exact) := roundTo rm n m e false 0
      let v : Int := if n then -(k : Int) else k
      let r := saturate w sgn v
      if intVal w sgn r = v then (r, excIf (!exact) excNX) else (r, excNV)
  | .int w sgn, .fp g =>
    let v := intVal w sgn x
    roundNum g rm (v < 0) v.natAbs 0 false
  | .int w sgn, .int u sgn' => (saturate u sgn' (intVal w sgn x), 0)

/-- FCVT: element j of the source becomes element j of the destination; the bits above them are 0 (R174). -/
def execFcvt (g : BitVec 3) (d a : BitVec 6) (k q : BitVec 4) (r : BitVec 3) (s : State) : Host.Outcome State Fault Refusal :=
  issue (.fcvt g d a k q r) s fun x =>
    let dst := cvtType k
    let src := cvtType q
    let n := 64 / max dst.width src.width
    fpOp x d r (fun c => [if a ≥ 52 then .lin (cvtConst src (a.toNat - 52)) 0 else c.srcShape kx a]) fun c rm l =>
      let v := c.cvtSrc src a l
      let rs := (List.range n).map fun j => convert dst src rm (subEl src.width v j)
      (BitVec.ofNat 64 (rs.foldr (fun e y => y * 2 ^ dst.width + e.1 % 2 ^ dst.width) 0), rs.foldl (fun e y => e ||| y.2) 0)

/-- The order key of a code (R176). -/
def orderKey (f : Fmt) (x : Nat) : Nat :=
  if (decodeFp f x).isNaN then 2 ^ f.width - 1
  else if x < 2 ^ (f.width - 1) then x + 2 ^ (f.width - 1)
  else 2 ^ f.width - 1 - x

/-- FKEY (R176). -/
def execFkey (g : BitVec 3) (d a : BitVec 6) (t : BitVec 2) (s : State) : Host.Outcome State Fault Refusal :=
  issue (.fkey g d a t) s fun x => fp1 x d a 0 t fun f _ p => (orderKey f p, 0)

/-! ## Random numbers (R177, R178) -/

/-- One round of Philox4x32 on (c0, c1, c2, c3) under (k0, k1) (R178). -/
def philoxRound (c : Nat × Nat × Nat × Nat) (k0 k1 : Nat) : Nat × Nat × Nat × Nat :=
  let p0 := 0xD2511F53 * c.1
  let p1 := 0xCD9E8D57 * c.2.2.1
  ((p1 / 2 ^ 32) ^^^ c.2.1 ^^^ k0, p1 % 2 ^ 32, (p0 / 2 ^ 32) ^^^ c.2.2.2 ^^^ k1, p0 % 2 ^ 32)

/-- Rounds of Philox with the key advancing. -/
def philoxRounds : Nat → Nat × Nat × Nat × Nat → Nat → Nat → Nat × Nat × Nat × Nat
  | 0, c, _, _ => c
  | n + 1, c, k0, k1 => philoxRounds n (philoxRound c k0 k1) ((k0 + 0x9E3779B9) % 2 ^ 32) ((k1 + 0xBB67AE85) % 2 ^ 32)

/-- Philox4x32-10 of a key and a counter: the two words of RNG (R178). -/
def philox (key counter : Word) : Word × Word :=
  let c := philoxRounds 10 (wbits counter 31 0, wbits counter 63 32, 0, 0) (wbits key 31 0) (wbits key 63 32)
  (BitVec.ofNat 64 (c.2.1 * 2 ^ 32 + c.1), BitVec.ofNat 64 (c.2.2.2 * 2 ^ 32 + c.2.2.1))

/-- RNG (R178). -/
def execRng (g : BitVec 3) (d a b : BitVec 6) (s : State) : Host.Outcome State Fault Refusal :=
  issue (.rng g d a b) s fun x s =>
    let c := s.crew x.key
    let r (l : Lane) : Word × Word := philox (c.src kx a l) (c.src kx b l)
    s.finishPair x d (lanes fun l => (r l).1) (lanes fun l => (r l).2) (ruleTag .lanewise [c.srcShape kx a, c.srcShape kx b])

end Sys2Proof.Machine
end

