-- ==== Sys2Proof/Machine/Group.lean ====
section
/-!
DEFINITION. Ordered cross-device reductions: the group table, contributions on their way to the root, the root's blocks and the
result (R261, R346, R347).
-/
namespace Sys2Proof.Machine

/-! ## The group table (R346) -/

/-- The entry of a group. -/
def State.group (s : State) (g : BitVec 8) : Word := s.groups.getD g.toNat 0
/-- V -/
def grpValid (e : Word) : Bool := wbit e 63
/-- ROOT -/
def grpRoot (e : Word) : Bool := wbit e 62
/-- PORT -/
def grpPort (e : Word) : Nat := wbits e 61 58
/-- RANK -/
def grpRank (e : Word) : BitVec 6 := BitVec.ofNat 6 (wbits e 51 46)
/-- Members. -/
def grpMembers (e : Word) : Nat := wbits e 45 40 + 1

/-- GROUP_TABLE_WRITE: the group as the entry re-forms it (R346, R347). -/
def execGroupTableWrite (group : BitVec 8) (entry : Word) (s : State) : Host.Outcome State Fault Refusal :=
  .next { s with groups := s.groups.set group.toNat entry, redVia := s.redVia.erase group.toNat,
                 redOff := s.redOff.filter fun g => g != group.toNat }

/-! ## The result of a block (R261) -/

/-- Bytes of an element. -/
def redBytes (type : BitVec 3) : Nat :=
  match type.toNat with
  | 0 | 3 => 8
  | 1 | 4 => 4
  | _ => 2

/-- One step of the reduction on an element. -/
def redStep (type : BitVec 3) (op : BitVec 2) (v c : Nat) : Nat :=
  let w := 8 * redBytes type
  let int (f : Int → Int → Int) : Nat := wrap w (f (signed w v) (signed w c))
  let fp (f : Fmt) : Nat :=
    match op.toNat with
    | 0 => (fpAdd f 0 v c).1
    | 1 => (fpMinMax f false false v c).1
    | _ => (fpMinMax f true false v c).1
  match type.toNat with
  | 0 => fp fmtD
  | 1 => fp fmtS
  | 2 => fp fmtBf
  | _ =>
    match op.toNat with
    | 0 => int fun a b => a + b
    | 1 => int fun a b => min a b
    | _ => int fun a b => max a b

/-- The elements of two byte lists combined, `n` bytes each. -/
def redBlocks (type : BitVec 3) (op : BitVec 2) (n : Nat) : Nat → List Byte → List Byte → List Byte
  | 0, _, _ => []
  | k + 1, xs, ys =>
    toBytes n (redStep type op (ofBytes (xs.take n)) (ofBytes (ys.take n))) ++ redBlocks type op n k (xs.drop n) (ys.drop n)

/-- The result of a block's contributions in rank order, and the doublewords that a poisoned contribution feeds (R261). -/
def blockResult (parts : List Contribution) : List Byte × List Bool :=
  match parts with
  | [] => ([], [])
  | c :: cs =>
    let n := redBytes c.type
    (cs.foldl (fun v d => redBlocks c.type c.op n (v.length / n) v d.data) c.data,
     cs.foldl (fun p d => (p.zip d.poison).map fun q => q.1 || q.2) c.poison)

/-! ## Contributions on their way (R346) -/

/-- This module's incarnation number, which every message to a peer carries (R305, R345). -/
def State.moduleInc (s : State) : BitVec 16 := s.incarnations.getD 52 0

/-- The hub whose reduction buffer holds a contribution: ports 0 to 5 are the first hub's, and the module's own contributions (log 99). -/
def hubOf (c : Contribution) : Nat := (c.port.getD 0) / 6

/-- Bytes of a hub's reduction buffer in use, of 8 MiB (R346). -/
def State.credBytes (s : State) (hub : Nat) : Nat :=
  s.blocks.foldl (fun n b => (b.parts.filter fun c => hubOf c = hub).foldl (fun n c => n + c.len.toNat) n) 0

/-- The ports behind which a group has members, as far as their contributions have shown (log 99). -/
def State.via (s : State) (group : BitVec 8) : List Nat := s.redVia.getD group.toNat []

/-- A contribution has arrived on a port. -/
def State.noteVia (s : State) (c : Contribution) : State :=
  match c.port with
  | some p => { s with redVia := s.redVia.set c.group.toNat (insertNat p (s.via c.group)) }
  | none => s

/-- A message of a group sent on every port behind which it has members. -/
def State.sendVia (s : State) (group : BitVec 8) (m : Outbound) : State :=
  { s with outbox := s.outbox ++ (s.via group).map fun p => (p, m) }

/-- Contributions in the order of their ranks. -/
def byRank (ps : List Contribution) : List Contribution :=
  (List.range 64).filterMap fun r => ps.find? fun c => c.rank.toNat == r

/-- The core and number of this module's own copy for a block. -/
def State.credCopy (s : State) (group : BitVec 8) (tag : BitVec 32) : Option (Nat × Copy) :=
  s.cores.findSome? fun c => (c.2.porter.copies.find? fun y =>
    match y.kind with
    | .reduce _ _ t g _ _ _ => t == tag && g == group
    | _ => false).map fun y => (c.1, y)

/-- The root sends the result of a full block to every member: to this module's own Porter as an event, and out of the module on the
ports behind which the group has members (R261). -/
def State.finishBlock (s : State) (group : BitVec 8) (tag : BitVec 32) (parts : List Contribution) : State :=
  let (data, poison) := blockResult (byRank parts)
  let s := { s with blocks := s.blocks.filter fun b => !(b.group == group && b.tag == tag) }
  let s := s.sendVia group (.result group tag data poison)
  match s.credCopy group tag with
  | some (core, _) => { s with agenda := s.agenda ++ [Actor.event (.credResult core group tag data (.poison poison))] }
  | none => s

/-- What became of a contribution at this module. -/
inductive Arrival where
  | accepted
  /-- No room in the reduction buffer: held by its sender. -/
  | held
  /-- It differs from the block's first contribution, or its device has made one for the block before. -/
  | refused
  | dropped
deriving DecidableEq, Repr

/-- A contribution reaches this module: the root keeps it, and completes the block when all have arrived; another module forwards it
under its own entry (R261, R346). -/
def State.contribute (s : State) (c : Contribution) : Arrival × State :=
  let e := s.group c.group
  if !grpValid e then (.dropped, s)
  else if !grpRoot e then
    (.accepted, { s with outbox := s.outbox ++ [(grpPort e, Outbound.contribution { c with incarnation := s.moduleInc })] })
  else
    let b := (s.blocks.find? fun b => b.group == c.group && b.tag == c.tag).getD ⟨c.group, c.tag, []⟩
    let differs := match b.parts with
      | [] => false
      | f :: _ => f.len != c.len || f.type != c.type || f.op != c.op
    if differs || b.parts.any (fun y => y.rank == c.rank) then (.refused, s)
    else if s.credBytes (hubOf c) + c.len.toNat > 8 * 2 ^ 20 then (.held, s)
    else
      let parts := b.parts ++ [c]
      let s := { s with blocks := s.blocks.filter (fun y => !(y.group == c.group && y.tag == c.tag)) ++ [⟨c.group, c.tag, parts⟩] }
      (.accepted, if (byRank parts).length = grpMembers e then s.finishBlock c.group c.tag parts else s)

/-- Is an incarnation number older than the one that the homes hold for the peer on a port (R305)? -/
def State.stale (s : State) (port : Nat) (inc : BitVec 16) : Bool := s.older (8 + port) inc

/-- Does a contribution carry an older number than its sender's? -/
def contributionOld (c : Contribution) (s : State) : Bool := match c.port with
  | some p => s.stale p c.incarnation
  | none => false

/-- A contribution of another module is taken: refused to its sender when it differs or is a second one, held on its port when it finds no room
(R346). -/
def State.takePart (s : State) (c : Contribution) : State :=
  match s.contribute c with
  | (.refused, s) =>
    { s with outbox := s.outbox ++ [(c.port.getD (grpPort (s.group c.group)), Outbound.refusal c.group c.tag c.rank)] }
  | (.held, s) => { s with redHeld := s.redHeld ++ [c] }
  | (_, s) => s

/-- The contributions held on their ports are taken as far as there is room, at most `k`. -/
def State.takeHeld : Nat → State → State
  | 0, s => s
  | k + 1, s =>
    match s.redHeld.find? fun c => s.credBytes (hubOf c) + c.len.toNat ≤ 8 * 2 ^ 20 with
    | none => s
    | some c => ({ s with redHeld := s.redHeld.erase c }.takePart c).takeHeld k

/-- A result with every doubleword poisoned (R347). -/
def poisonedResult (len : Nat) : List Byte × List Bool × Nat := (List.replicate len 0, List.replicate (len / 8) true, 0)

/-- A contribution for a group that a member's death has disabled: a poisoned result goes back to its sender (R347). -/
def State.answerOff (s : State) (c : Contribution) : State :=
  match c.port with
  | some p =>
    let (data, poison, _) := poisonedResult c.len.toNat
    { s with outbox := s.outbox ++ [(p, Outbound.result c.group c.tag data poison)] }
  | none => s

/-- CRED_CONTRIBUTION: a contribution of another module arrives. One with a stale incarnation, or for a group that is not in use, is
dropped and counted; one for a group that is disabled completes poisoned (R305, R347). -/
def execCredContribution (c : Contribution) (s : State) : Host.Outcome State Fault Refusal :=
  .next <|
    if contributionOld c s then { s with dropped := s.dropped + 1 }
    else if s.redOff.contains c.group.toNat then s.answerOff c
    else if !grpValid (s.group c.group) then { s with dropped := s.dropped + 1 }
    else ((s.noteVia c).takePart c).takeHeld s.redHeld.length

end Sys2Proof.Machine
end

