-- ==== Sys2Proof/Machine/Header.lean ====
section
/-!
DEFINITION. The kernel header and its overlay directory, read from a version's code space with the refusals of R71 (R69, R70).
-/
namespace Sys2Proof.Machine

/-- Why a header is refused: it fails R71, or it names a Hiard level above 1 (R11, R309). -/
inductive HeaderFail where
  | bad
  | level
deriving DecidableEq, Repr

/-- The header in its first four doublewords at `koff`, without its directory (R69). -/
def headerOf (koff : Nat) (d0 d1 d2 d3 : Nat) : Header :=
  { koff := koff, prop := d0.testBit 16, regs := bits d0 7 0, ovls := bits d1 63 48, bars := bits d1 47 40,
    fifo := bits d1 31 24, scr := bits d1 23 16, acc := bits d1 15 0, scratch := bits d2 63 32,
    entry := BitVec.ofNat 32 d2, porterLen := bits d3 63 32, porter := bits d3 31 0, dir := [] }

/-- The refusals of R71 that the header's own fields decide, for gangs of `cores` cores. -/
def Header.bad (h : Header) (d0 d1 : Nat) (rest : Nat) (cores : Nat) : Bool :=
  bits d0 63 32 ≠ 0x4B485649 || bits d0 31 24 ≠ 0 || bits d0 23 17 ≠ 0 || bits d0 15 8 = 0 || bits d1 39 32 ≠ 0 || rest ≠ 0 ||
  h.regs = 0 || h.regs > 48 || h.ovls = 0 || h.ovls > 1024 || h.bars > 16 || h.fifo > 48 || h.scr > 48 || h.scr + h.fifo > 48 ||
  h.acc > 1024 || h.scratch > 0x300000 || h.scratch % 128 ≠ 0 || h.porterLen % 4 ≠ 0 || h.porter % 4096 ≠ 0 ||
  h.scr * 16384 * cores < h.scratch || (h.prop && h.regs ≠ 48)

/-- One directory entry; none when a field lies outside its values (R70). -/
def dirOf (x : Nat) : Option (Nat × Nat) :=
  let off := bits x 63 32
  let slots := bits x 31 16
  if off % 4096 ≠ 0 || slots = 0 || slots > 48 || bits x 15 0 ≠ 0 then none else some (off, slots)

/-- Is ENTRY a word-aligned offset in overlay 0 (R69)? -/
def Header.entryOk (h : Header) : Bool :=
  match h.dir with
  | (off, slots) :: _ => h.entry.toNat % 4 = 0 && off ≤ h.entry.toNat && h.entry.toNat < off + ovlBytes slots
  | [] => false

/-- A doubleword of a version's code space. -/
def State.codeWord (s : State) (asid : BitVec 12) (v : BitVec 16) (off : Nat) : Option Nat := s.codeRead asid v off 8

/-- The kernel header of a version at `koff`, for gangs of `cores` cores (R69 to R71). -/
def State.readHeader (s : State) (asid : BitVec 12) (v : BitVec 16) (koff cores : Nat) : Except HeaderFail Header :=
  match (List.range 8).mapM fun k => s.codeWord asid v (koff + 8 * k) with
  | some (d0 :: d1 :: d2 :: d3 :: rest) =>
    let h := headerOf koff d0 d1 d2 d3
    if h.bad d0 d1 (rest.foldl (· + ·) 0) cores then .error .bad
    else
      match (List.range h.ovls).mapM fun k => (s.codeWord asid v (koff + 0x40 + 8 * k)).bind dirOf with
      | none => .error .bad
      | some dir =>
        let h := { h with dir := dir }
        if !h.entryOk then .error .bad
        else if bits d0 15 8 > 1 then .error .level
        else .ok h
  | _ => .error .bad

end Sys2Proof.Machine
end

