-- ==== Sys2Proof/Machine/Control.lean ====
section
/-!
DEFINITION. Branches, calls and returns with their return stacks (R30 to R33, R154 to R157), EXIT (R158) and CONV (R159).
-/
namespace Sys2Proof.Machine

/-- Who accesses in a lane. -/
def State.who (s : State) (x : Ctx) (l : Lane) : Who :=
  let c := s.crew x.key
  { gang := x.gang, core := c.core, asid := (s.gang x.gang).asid, sup := (c.th l).sup }

/-- Lanes that fail, with cause and address. -/
abbrev LaneFails := List (Lane × Failure)

/-- The mask of failing lanes. -/
def failMask (fs : LaneFails) : Mask := maskOf fun l => fs.any fun f => f.1 == l

/-- The fault addresses of failing lanes. -/
def failAddrs (fs : LaneFails) : Lanes Word := lanes fun l => ((fs.find? fun f => f.1 == l).map fun f => f.2.addr).getD 0

/-- The cause of the lowest-numbered failing lane. -/
def failCause (fs : LaneFails) : BitVec 8 := match fs with
  | f :: _ => f.2.cause
  | [] => 0

/-- A whole-fragment trap with its failing lanes marked. -/
def State.trapFails (s : State) (x : Ctx) (fs : LaneFails) : State :=
  s.trapWhole x (failCause fs) (failMask fs) (failAddrs fs) (allLanes 0)

/-- The taking lanes that fail a test, in ascending order. -/
def Ctx.fails (x : Ctx) (cause : BitVec 8) (addr : Lane → Word) (p : Lane → Bool) : LaneFails :=
  ((maskLanes x.take).filter p).map fun l => (l, ⟨cause, addr l⟩)

/-! ## Return stacks (R30 to R32) -/

/-- The first eight doublewords from an address, checked as accesses of the lane (R31: ordinary accesses). -/
def checkBlock (s : State) (w : Who) (k : AccessKind) (va : Word) : Except Failure (List (Word × Place)) × State :=
  (List.range 8).foldl (fun r j =>
    match r with
    | (.error e, s) => (.error e, s)
    | (.ok ps, s) =>
      let a := va + BitVec.ofNat 64 (8 * j)
      match checkAccess s w k a 8 8 with
      | (.error e, s) => (.error e, s)
      | (.ok p, s) => (.ok (ps ++ [(a, p)]), s)) (.ok [], s)

/-- Spilled blocks of a thread. -/
def Thread.spilled (t : Thread) : Nat := (t.rsdep - t.rstk.length) / 8

/-- Address of spilled block `k` (R31). -/
def Thread.blockAt (t : Thread) (k : Nat) : Word := t.tlsb + BitVec.ofNat 64 (64 * k)

/-- A return entry (R30). -/
def retEntry (ver : BitVec 16) (ovl : Nat) (ra : Pc) (sup : Bool) : Word :=
  BitVec.ofNat 64 (ver.toNat * 2 ^ 48 + (ovl % 2 ^ 16) * 2 ^ 32 + (ra.toNat / 4) * 4 + (if sup then 1 else 0))

/-- The places that a push writes before it, or its failure: SCRBOUND at full depth, or the spill's fault (R31, R32). -/
def pushCheck (s : State) (x : Ctx) (l : Lane) : Except Failure (List (Word × Place)) × State :=
  let t := (s.crew x.key).th l
  if t.rsdep ≥ 4112 then (.error ⟨cScrbound, t.tlsb + 0x8000⟩, s)
  else if t.rstk.length < 16 then (.ok [], s)
  else checkBlock s (s.who x l) .store (t.blockAt t.spilled)

/-- Check the pushes of the lanes of a mask: the places of each lane, and the lanes that fail. -/
def pushChecks (s : State) (x : Ctx) (m : Mask) : List (Lane × List (Word × Place)) × LaneFails × State :=
  (maskLanes m).foldl (fun r l =>
    match pushCheck r.2.2 x l with
    | (.ok ps, s) => (r.1 ++ [(l, ps)], r.2.1, s)
    | (.error e, s) => (r.1, r.2.1 ++ [(l, e)], s)) ([], [], s)

/-- Make the pushes that were checked: spill the 8 oldest resident entries when 16 are resident, then push (R31). -/
def pushAll (s : State) (x : Ctx) (ps : List (Lane × List (Word × Place))) : State :=
  let c := s.crew x.key
  let ovl := ((overlayAt (s.hdrOf x.key) x.pc.toNat).map fun o => o.1).getD 0
  ps.foldl (fun s p =>
    let l := p.1
    let t := (s.crew x.key).th l
    let s := (p.2.zip t.rstk).foldl (fun s q => writePlace s (s.who x l) q.1.2 8 q.2.toNat) s
    s.modCrew x.key fun c' =>
      (c'.updThr (1#32 <<< l.val) fun _ t =>
        { t with
          rstk := (if p.2.isEmpty then t.rstk else t.rstk.drop 8) ++ [retEntry c.cver ovl x.npc t.sup]
          rsdep := t.rsdep + 1 }).addPins l ovl true 1) s

/-- The newest entry of a thread (R31). -/
def Thread.top (t : Thread) : Word := t.rstk.getLastD 0

/-- Does popping the newest entry need a refill (R31)? -/
def Thread.refills (t : Thread) : Bool := t.rstk.length ≤ 1 && t.rstk.length < t.rsdep

/-- The refills that the pops of a mask need: the places read in each lane, and the lanes that fail, poison included. -/
def refillChecks (s : State) (x : Ctx) (m : Mask) : List (Lane × List (Word × Place)) × LaneFails × State :=
  (maskLanes m).foldl (fun r l =>
    let s := r.2.2
    let t := (s.crew x.key).th l
    if !t.refills then (r.1 ++ [(l, [])], r.2.1, s)
    else
      match checkBlock s (s.who x l) .load (t.blockAt (t.spilled - 1)) with
      | (.error e, s) => (r.1, r.2.1 ++ [(l, e)], s)
      | (.ok ps, s) =>
        let (bad, s) := ps.foldl (fun q p =>
          let (_, poisoned, s) := readPlace q.2 (q.2.who x l) p.2 p.1 8
          ((if poisoned && q.1.isNone then some p.1 else q.1), s)) ((none : Option Word), s)
        match bad with
        | some a => (r.1, r.2.1 ++ [(l, ⟨cPoison, a⟩)], s)
        | none => (r.1 ++ [(l, ps)], r.2.1, s)) ([], [], s)

/-- Pop one entry in each lane: its overlay's pin goes, and the newest spilled block is read back when no entry stays (R31, R33). -/
def popAll (s : State) (x : Ctx) (ps : List (Lane × List (Word × Place))) : State :=
  ps.foldl (fun s p =>
    let l := p.1
    let (words, s) := p.2.foldl (fun q a =>
      let (v, _, s) := readPlace q.2 (q.2.who x l) a.2 a.1 8
      (q.1 ++ [(BitVec.ofNat 64 v : Word)], s)) (([] : List Word), s)
    s.modCrew x.key fun c =>
      let e := (c.th l).top
      (c.updThr (1#32 <<< l.val) fun _ t => { t with rstk := words ++ t.rstk.dropLast, rsdep := t.rsdep - 1 }).addPins l
        (wbits e 47 32) false 1) s

/-- The checks of a return in the lanes of a mask, which have an entry: refill faults, SUPERONLY, CVBAD (R32, R157, R276). -/
def retChecks (s : State) (x : Ctx) (m : Mask) : Except LaneFails (List (Lane × List (Word × Place))) × State :=
  let (ps, fs, s) := refillChecks s x m
  let c := s.crew x.key
  let ovls := (s.hdrOf x.key).ovls
  let with_ (cause : BitVec 8) (p : Thread → Bool) : LaneFails :=
    ((maskLanes m).filter fun l => p (c.th l)).map fun l => (l, ⟨cause, 0⟩)
  let sups := with_ cSuperonly fun t => t.top.getLsbD 0 && !t.sup
  let vers := with_ cCvbad fun t => t.top.extractLsb' 48 16 != c.cver || wbits t.top 47 32 ≥ ovls
  if !fs.isEmpty then (.error fs, s)
  else if !sups.isEmpty then (.error sups, s)
  else if !vers.isEmpty then (.error vers, s)
  else (.ok ps, s)

/-- The address of a return entry (R30). -/
def entryPc (e : Word) : Pc := BitVec.ofNat 32 (wbits e 31 2 * 4)
/-- The overlay of a return entry (R30). -/
def entryOvl (e : Word) : Nat := wbits e 47 32
/-- The privilege of a return entry (R30). -/
def entrySup (e : Word) : Bool := e.getLsbD 0

/-- Enter the overlays of several return entries: the status in which lanes go to each (R157). An entry pins its overlay; one that is not
resident all the same is loaded first. -/
def State.enterOvls (s : State) (key : Nat) (ovls : List Nat) : (Nat → Status) × State :=
  let c := s.crew key
  let asid := (s.gang (gangOf key)).asid
  let (sts, s) := ovls.eraseDups.foldl (fun r n =>
    match (s.hdrOf key).dir[n]? with
    | none => r
    | some (off, slots) =>
      if r.2.ovlResident c.core asid c.cver off then (r.1, r.2.ovlEnter c.core asid c.cver off)
      else ((n, Status.parked (.overlay off)) :: r.1, (r.2.ovlStart c.core asid c.cver off slots).ovlEnter c.core asid c.cver off))
    (([] : List (Nat × Status)), s)
  (fun n => ((sts.find? fun e => e.1 == n).map Prod.snd).getD .live, s)

/-- Enter the overlays of several addresses: the status in which lanes go to each (R272). -/
def State.enterAll (s : State) (key : Nat) (pcs : List Pc) : (Pc → Status) × State :=
  let (sts, s) := pcs.eraseDups.foldl (fun r p =>
    let (st, s) := r.2.enterAt key p
    ((p, st) :: r.1, s)) (([] : List (Pc × Status)), s)
  (fun p => ((sts.find? fun e => e.1 == p).map Prod.snd).getD .live, s)

/-- Where a lane goes whose target's overlay has a status. -/
def arriveAt (st : Pc → Status) (pc : Pc) (sup : Bool) : After :=
  match st pc with
  | .live => .goto pc sup
  | w => .wait w pc

/-- Set the privilege of lanes that wait at their targets. -/
def Crew.setSup (c : Crew) (m : Mask) (f : Lane → Bool) : Crew := c.updThr m fun l t => { t with sup := f l }

/-! ## Branches and calls (R154, R155) -/

/-- Does the current overlay hold a target (R155)? -/
def sameOverlay (h : Header) (pc target : Pc) : Bool :=
  match overlayAt h pc.toNat with
  | some (_, off, slots) => off ≤ target.toNat && target.toNat < off + ovlBytes slots
  | none => false

/-- A branch or call with its checks in order: ALIGN of the target, OVLXFER, the push (R155). OVLXFER reports the target, for which R155
names no address (log 89). -/
def branch (x : Ctx) (push : Bool) (target : Crew → Lane → Pc) (s : State) : State :=
  let c := s.crew x.key
  let h := (s.hdrOf x.key)
  let t := target c
  let at_ (l : Lane) : Word := (t l).setWidth 64
  let f1 := x.fails cAlign at_ fun l => (t l).toNat % 4 ≠ 0
  let f2 := x.fails cOvlxfer at_ fun l => !sameOverlay h x.pc (t l)
  if !f1.isEmpty then s.trapFails x f1
  else if !f2.isEmpty then s.trapFails x f2
  else
    let go (s : State) : State :=
      s.retire x [] (x.take != 0) fun l => if inMask x.take l then .goto (t l) (c.th l).sup else .next
    if !push then go s
    else
      let (ps, fs, s) := pushChecks s x x.take
      if !fs.isEmpty then s.trapFails x fs else go (pushAll s x ps)

/-- The target of a J-form word: word + 4 + 4 × OFF23 (R154). -/
def jumpTarget (pc : Pc) (o : BitVec 23) : Pc := pc + 4 + 4 * o.signExtend 32

/-- BRA (R155). -/
def execBra (g : BitVec 3) (o : BitVec 23) (s : State) : Host.Outcome State Fault Refusal :=
  issue (.bra g o) s fun x => branch x false fun _ _ => jumpTarget x.pc o

/-- CALL (R155). -/
def execCall (g : BitVec 3) (o : BitVec 23) (s : State) : Host.Outcome State Fault Refusal :=
  issue (.call g o) s fun x => branch x true fun _ _ => jumpTarget x.pc o

/-- BRX (R155). -/
def execBrx (g : BitVec 3) (a : BitVec 6) (s : State) : Host.Outcome State Fault Refusal :=
  issue (.brx g a) s fun x => branch x false fun c l => (c.src kx a l).setWidth 32

/-- CALLX (R155). -/
def execCallx (g : BitVec 3) (a : BitVec 6) (s : State) : Host.Outcome State Fault Refusal :=
  issue (.callx g a) s fun x => branch x true fun c l => (c.src kx a l).setWidth 32

/-- The return itself, after its checks: lanes at depth 0 exit, the others pop and continue at RA in overlay OVL, with the privilege of the
entry (R157). An RA just past that overlay is then met as sequential flow past it (R156). -/
def returnLanes (x : Ctx) (ps : List (Lane × List (Word × Place))) (s : State) : State :=
  let c := s.crew x.key
  let exits := maskOf fun l => inMask x.take l && (c.th l).rsdep == 0
  let pops := x.take &&& ~~~exits
  let e (l : Lane) : Word := (c.th l).top
  let s := popAll s x ps
  let (st, s) := s.enterOvls x.key ((maskLanes pops).map fun l => entryOvl (e l))
  let s := s.modCrew x.key fun c => c.setSup pops fun l => entrySup (e l)
  let s := s.retire x [] (x.take != 0) fun l =>
    if inMask exits l then .exit
    else if inMask pops l then arriveAt (fun _ => st (entryOvl (e l))) (entryPc (e l)) (entrySup (e l))
    else .next
  let s := s.modCrew x.key fun c =>
    { c with seqOvl := lanes fun l => if inMask pops l then some (entryOvl (e l)) else c.seqOvl.at l }
  if exits = 0 then s else s.settleCrew x.key

/-- RET (R157). -/
def execRet (g : BitVec 3) (s : State) : Host.Outcome State Fault Refusal :=
  issue (.ret g) s fun x s =>
    let c := s.crew x.key
    let pops := maskOf fun l => inMask x.take l && (c.th l).rsdep != 0
    match retChecks s x pops with
    | (.error fs, s) => s.trapFails x fs
    | (.ok ps, s) => returnLanes x ps s

/-- CONV: the taking lanes wait at its address until the lanes that their masks name have arrived or exited (R159). -/
def execConv (g : BitVec 3) (a : BitVec 6) (s : State) : Host.Outcome State Fault Refusal :=
  issue (.conv g a) s fun x s =>
    let c := s.crew x.key
    let m (l : Lane) : Mask := (c.src kx a l).setWidth 32 ||| (1#32 <<< l.val)
    let s := s.retire x [] false fun l => if inMask x.take l then .wait (.waiting (m l)) x.pc else .next
    let s := s.modCrew x.key fun c => c.updThr x.take fun _ t => { t with left := t.left.filter (· != x.pc) }
    s.settleCrew x.key

/-- EXIT (R158). -/
def execExit (g : BitVec 3) (s : State) : Host.Outcome State Fault Refusal :=
  issue (.exit g) s fun x s =>
    (s.retire x [] false fun l => if inMask x.take l then .exit else .next).settleCrew x.key

end Sys2Proof.Machine
end

