-- ==== Sys2Proof/Machine/Copies.lean ====
section
/-!
DEFINITION. What a Porter's copy writes: tensor maps and the runs of bytes of each kind of copy (R259, R260), and the scratchpad lines that
they touch (R183).
-/
namespace Sys2Proof.Machine

/-! ## The runs of a copy (R259, R260) -/

/-- Where a run's bytes come from. -/
inductive RunSrc where
  | mem (va : Word)
  | zero
  | pattern (p : Word)
deriving DecidableEq, Repr

/-- Bytes that a copy writes from an address upward. -/
structure CopyRun where
  dst : Word
  src : RunSrc
  len : Nat
deriving DecidableEq, Repr

/-- A tensor map (R260). -/
structure TensorMap where
  base : Word
  ext : List Nat
  str : List Int
  box : List Nat
  step : List Nat
  esz : Nat
deriving DecidableEq, Repr

/-- The fields of a tensor map's 64 bytes. -/
def tensorMap (m : List Byte) : TensorMap :=
  let n (off k : Nat) : Nat := ofBytes ((m.drop off).take k)
  { base := BitVec.ofNat 64 (n 0 8), ext := [n 0x8 4, n 0xC 4, n 0x10 4, n 0x14 4],
    str := [0, signed 64 (n 0x18 8), signed 64 (n 0x20 8), signed 64 (n 0x28 8)],
    box := [n 0x34 1, n 0x35 1, n 0x36 1, n 0x37 1], step := [n 0x30 1, n 0x31 1, n 0x32 1, n 0x33 1], esz := bits (n 0x38 8) 63 61 }

/-- Elements of a window. -/
def TensorMap.count (t : TensorMap) : Nat := t.box.foldl (· * ·) 1

/-- A map that stops the Porter: a reserved value, an extent, BOX or TS of 0, or a window of more than 1 MiB (R260). -/
def TensorMap.bad (t : TensorMap) (m : List Byte) : Bool :=
  t.esz > 3 || bits (ofBytes ((m.drop 0x38).take 8)) 60 0 ≠ 0 || t.ext.contains 0 || t.box.contains 0 || t.step.contains 0 ||
  t.count * 2 ^ t.esz > 2 ^ 20

/-- The run of element `k` of a window (R260). -/
def TensorMap.run (t : TensorMap) (dst origin : Word) (k : Nat) : CopyRun :=
  let at_ (l : List Nat) (d : Nat) : Nat := l.getD d 1
  let b : List Nat := [k % at_ t.box 0, k / at_ t.box 0 % at_ t.box 1, k / (at_ t.box 0 * at_ t.box 1) % at_ t.box 2,
    k / (at_ t.box 0 * at_ t.box 1 * at_ t.box 2)]
  let c (d : Nat) : Int := signed 16 (wbits origin (16 * d + 15) (16 * d)) + (b.getD d 0 * at_ t.step d : Nat)
  let n : Nat := 2 ^ t.esz
  let out := (List.range 4).any fun d => c d < 0 || (t.ext.getD d 0 : Int) ≤ c d
  let off : Int := c 0 * n + c 1 * t.str.getD 1 0 + c 2 * t.str.getD 2 0 + c 3 * t.str.getD 3 0
  { dst := dst + BitVec.ofNat 64 (k * n), src := if out then .zero else .mem (t.base + BitVec.ofInt 64 off), len := n }

/-- The runs of a copy, in the order in which its bytes are counted (R259, R260). -/
def CopyKind.runs : CopyKind → List CopyRun
  | .lin dst src len => [⟨BitVec.ofNat 64 dst, .mem (BitVec.ofNat 64 src), len⟩]
  | .grid dst src rows rowb dpitch spitch =>
    (List.range rows).map fun r => ⟨BitVec.ofNat 64 (dst + r * dpitch), .mem (BitVec.ofNat 64 (src + r * spitch)), rowb⟩
  | .fill dst p len => [⟨BitVec.ofNat 64 dst, .pattern p, len⟩]
  | .tensor dst map origin =>
    let t := tensorMap map
    (List.range t.count).map fun k => t.run (BitVec.ofNat 64 dst) origin k
  | .reduce _ _ _ _ _ _ _ => []

/-- The runs that remain after some bytes. -/
def dropRuns : List CopyRun → Nat → List CopyRun
  | [], _ => []
  | r :: rs, n =>
    if r.len ≤ n then dropRuns rs (n - r.len)
    else if n = 0 then r :: rs
    else
      let m := BitVec.ofNat 64 n
      { r with dst := r.dst + m, len := r.len - n, src := match r.src with
          | .mem a => .mem (a + m)
          | z => z } :: rs

/-- Scratchpad lines that a run writes, also when it begins below the window. -/
def CopyRun.lines (r : CopyRun) : List Nat :=
  let lo := max r.dst.toNat scratchBase - scratchBase
  let hi := min (r.dst.toNat + r.len) (2 ^ 64) - scratchBase
  if hi ≤ lo || r.len = 0 then [] else (List.range ((hi - 1) / 128 - lo / 128 + 1)).map (lo / 128 + ·)

/-- Scratchpad lines that runs write, each once. -/
def runLines (rs : List CopyRun) : List Nat := rs.foldl (fun l r => r.lines.foldl (fun l n => insertNat n l) l) []

end Sys2Proof.Machine
end

