-- ==== Sys2Proof/Machine/Shadow.lean ====
section
/-!
DEFINITION. Shadowed buffers: their pages, engine writes into their shadows, publication, and the discarding of a shadow (R130, R207,
R225, R294, R295).
-/
namespace Sys2Proof.Machine

/-! ## Buffers (R294) -/

/-- The first address of the page that a leaf maps. -/
def pageStart (l : Leaf) (va : Word) : Word := BitVec.ofNat 64 (va.toNat - va.toNat % 2 ^ pageShift l.level)

/-- The pages of a buffer from one of its pages on, at most `k`: the first has SST, the others have SHD and not SST. -/
def pagesFrom (s : State) (asid : BitVec 12) : Nat → Bool → Word → List (Word × Leaf)
  | 0, _, _ => []
  | k + 1, first, va =>
    match walk s asid va with
    | .error _ => []
    | .ok l =>
      if !pteShd l.pte || pteSst l.pte != first then []
      else (va, l) :: pagesFrom s asid k false (va + BitVec.ofNat 64 (2 ^ pageShift l.level))

/-- The pages of the shadowed buffer that begins at an address; none when no buffer begins there. A virtual space has at most 2^44
pages. -/
def bufferPages (s : State) (asid : BitVec 12) (base : Word) : List (Word × Leaf) :=
  match pagesFrom s asid (2 ^ 44) true base with
  | [] => []
  | (va, l) :: rest => if pageStart l va = va then (va, l) :: rest else []

/-- The base of the shadowed buffer that holds an address, searched page by page downward. -/
def bufferFrom (s : State) (asid : BitVec 12) : Nat → Word → Option Word
  | 0, _ => none
  | k + 1, va =>
    match walk s asid va with
    | .error _ => none
    | .ok l =>
      if !pteShd l.pte then none
      else if pteSst l.pte then some (pageStart l va)
      else bufferFrom s asid k (pageStart l va - 1)

/-- The base of the shadowed buffer that holds an address. -/
def bufferBase (s : State) (asid : BitVec 12) (va : Word) : Option Word := bufferFrom s asid (2 ^ 44) va

/-! ## Translations and copies dropped -/

/-- Drop every TLB entry of the device that satisfies `p` (R293). -/
def State.tlbDrop (s : State) (p : TlbEntry → Bool) : State :=
  { s with
    cores := s.cores.mapAll fun _ c => { c with tlb := c.tlb.filter fun e => !p e }
    dies := s.dies.mapAll fun _ d => { d with tlb := d.tlb.filter fun e => !p e } }

/-- Does a TLB entry's page meet the virtual addresses `first` to `last`? -/
def TlbEntry.meets (e : TlbEntry) (first last : Nat) : Bool :=
  let lo := e.page * 2 ^ pageShift e.level
  lo ≤ last % 2 ^ 58 && first % 2 ^ 58 < lo + 2 ^ pageShift e.level

/-- Lines of physical addresses `lo` to `hi` − 1 that some cache of the device holds. -/
def State.cachedIn (s : State) (lo hi : Nat) : List Nat :=
  let near (n : Nat) : Bool := lo ≤ n * 128 && n * 128 < hi
  let a := s.cores.foldl (fun l c => (c.2.l1.filter fun e => near e.1).foldl (fun l e => insertNat e.1 l) l) []
  s.dies.foldl (fun l d => (d.2.l2.filter fun e => near e.1).foldl (fun l e => insertNat e.1 l) l) a

/-- Write every dirty copy of a line back to its home. -/
def State.writeBackLine (s : State) (line : Nat) : State :=
  let s := s.cores.foldl (fun s c => s.l1WriteBack c.1 line) s
  s.dies.foldl (fun s d => s.l2WriteBack d.1 line) s

/-- Drop every cached copy of a line, its bytes with it. -/
def State.dropCopies (s : State) (line : Nat) : State :=
  let s := s.purgeAll line
  { s with
    cores := s.cores.mapAll fun _ c => { c with l1 := c.l1.erase line }
    dies := s.dies.mapAll fun _ d => { d with l2 := d.l2.erase line } }

/-! ## Engine writes into a shadow -/

/-- Copy `n` bytes of physical memory at their homes, for pages kept as `k` says: poison of the source comes with them, and a poisoned line stays poisoned (R306). -/
def State.copyPage (s : State) (k : Keep) (dst src n : Nat) : State :=
  let moved := (s.mem.filter fun c => src ≤ c.1 && c.1 < src + n).map fun c => (c.1 - src + dst, c.2)
  let gone := s.mem.filter fun c => dst ≤ c.1 && c.1 < dst + n
  let bad := (s.poison.filter fun l => src ≤ l * 128 && l * 128 < src + n).map fun l => l - lineOf src + lineOf dst
  let s := ((moved ++ gone).map fun c => lineOf c.1).eraseDups.foldl (fun s l => (s.homeKeep l k).homeWrote l) s
  bad.foldl State.poisonLine
    { s with mem := s.mem.filter (fun c => c.1 < dst) ++ moved ++ s.mem.filter (fun c => dst + n ≤ c.1) }

/-- An engine's first shadow write to a page since its last publication copies the live half into the shadow half, a whole page, and
sets SFL (R294). -/
def State.openShadow (s : State) (asid : BitVec 12) (va : Word) (l : Leaf) : State :=
  let e : Word := BitVec.ofNat 64 (readNat s.mem l.pteAt 8)
  if pteSfl e then s
  else
    let n := 2 ^ pageShift l.level
    let live := pteAddr e + (if pteSel e then n else 0)
    let shadow := pteAddr e + (if pteSel e then 0 else n)
    let s := (s.cachedIn shadow (shadow + n)).foldl State.dropCopies s
    let s := (s.cachedIn live (live + n)).foldl State.writeBackLine s
    let s := (s.copyPage (pteKeep e) shadow live n).writePte l.pteAt (e ||| 0x800#64)
    { s with discarded := s.discarded.filter fun d => !(d.1 == asid && some d.2 == bufferBase s asid va) }

/-- Store the low `n` bytes of `v` through the shadow of a buffer, with the checks of R180 and R290. A scratchpad address has no shadow
(R259, R226: PROT). -/
def shadowStore (s : State) (w : Who) (va : Word) (n v : Nat) : Except Failure Unit × State :=
  match checkAccess s w .shadow va n 1 with
  | (.error f, s) => (.error f, s)
  | (.ok (.scratch _), s) => (.error ⟨cProt, va⟩, s)
  | (.ok (.global _ _ _ none), s) => (.error ⟨cProt, va⟩, s)
  | (.ok (.global page _ _ (some l)), s) =>
    let s := s.openShadow w.asid va l
    (.ok (), (s.homeTouch (lineOf page.pa) page.keep).memWrite page.pa (toBytes n v))

/-! ## Publication (R295) -/

/-- Publish a buffer: every leaf with SFL inverts SEL and clears SFL at its home, and every TLB drops the pages (R295). -/
def State.publish (s : State) (asid : BitVec 12) (base : Word) : State :=
  let pages := bufferPages s asid base
  let s := pages.foldl (fun s p =>
    if pteSfl p.2.pte then s.writePte p.2.pteAt ((p.2.pte ^^^ 0x200#64) &&& ~~~0x800#64) else s) s
  s.tlbDrop fun e => e.asid == asid && pages.any fun p =>
    e.meets p.1.toNat (p.1.toNat + 2 ^ pageShift p.2.level - 1)

/-- Discard a buffer's shadow: SFL is cleared in its leaves, and a publication of it reports status 2 (R208, R225). -/
def State.discardShadow (s : State) (asid : BitVec 12) (base : Word) : State :=
  let pages := bufferPages s asid base
  let s := pages.foldl (fun s p => if pteSfl p.2.pte then s.writePte p.2.pteAt (p.2.pte &&& ~~~0x800#64) else s) s
  { s with discarded := (asid, base) :: s.discarded.filter fun d => !(d.1 == asid && d.2 == base) }

/-- Does a write to `n` bytes wait for a pending publication of its buffer (R207)? `mine` says that the publication names the write
among those that started before it. -/
def State.heldByPub (s : State) (asid : BitVec 12) (va : Word) (n : Nat) (mine : Publication → Bool) : Bool :=
  s.gangs.values.any fun g => g.asid == asid && g.pubs.any fun p =>
    p.st == .pending && !mine p && (bufferPages s asid p.base).any fun q =>
      q.1.toNat < va.toNat + n && va.toNat < q.1.toNat + 2 ^ pageShift q.2.level

/-- The physical extents of an ASID's virtual bytes from `va` to below `hi`, page by page, at most `k` pages, as loads and stores of memory or a
shadow reach them. A page that is not mapped may come to lie anywhere in physical memory. -/
def extentsFrom (s : State) (asid : BitVec 12) (shadow : Bool) : Nat → Word → Nat → List (Nat × Nat)
  | 0, _, _ => []
  | k + 1, va, hi =>
    if hi ≤ va.toNat then []
    else match walk s asid va with
      | .error _ => (0, 2 ^ 64) :: extentsFrom s asid shadow k (BitVec.ofNat 64 (va.toNat - va.toNat % 16384 + 16384)) hi
      | .ok l =>
        let next := pageStart l va + BitVec.ofNat 64 (2 ^ pageShift l.level)
        let pa := leafPa l va shadow
        (pa, pa + (min next.toNat hi - va.toNat)) :: extentsFrom s asid shadow k next hi

/-- The matrix jobs of the device, those of saved gangs among them. -/
def State.allJobs (s : State) : List Job :=
  s.cores.values.flatMap (fun c => c.jobs) ++ s.gangs.values.flatMap fun g => g.savedJobs

/-- Do virtual bytes from `lo` to below `hi` meet the pages of a buffer, mapped or not when they were named? -/
def meetsPages (lo hi : Nat) (pages : List (Word × Leaf)) : Bool :=
  pages.any fun q => lo < q.1.toNat + 2 ^ pageShift q.2.level && q.1.toNat < hi

/-- Does a run of a copy meet the pages of a buffer? -/
def CopyRun.meets (r : CopyRun) (pages : List (Word × Leaf)) : Bool := meetsPages r.dst.toNat (r.dst.toNat + r.len) pages

/-- The shadow copies (core, number) and matrix jobs (core of its gang, gang, number) of an ASID that are writing into a buffer (R207). A job
writes from the start of its epilogue; one that is saved with its gang is still held. -/
def State.shadowWriters (s : State) (asid : BitVec 12) (base : Word) : List (Nat × Nat) × List (Nat × Nat × BitVec 32) :=
  let mine (g : Nat) : Bool := (s.gang g).asid == asid
  let pages := bufferPages s asid base
  let copies := s.cores.foldl (fun l c => l ++ (c.2.porter.copies.filter fun y =>
    y.shadow && mine y.gang && (dropRuns y.kind.runs y.done).any fun r => r.meets pages).map fun y => (c.1, y.id)) []
  let writes (j : Job) : Bool := mine j.gang && (j.st == .epilogue || j.st == .held) && j.shadows.any fun r => meetsPages r.1 r.2 pages
  let jobs := s.allJobs.filter writes
  (copies, jobs.map fun j => (j.gcore, j.gang, j.seq))

/-- Is every engine write that a publication waits for finished (R207)? -/
def State.pubReady (s : State) (p : Publication) : Bool :=
  p.copies.all (fun c => !((s.core c.1).porter.copies.any fun y => y.id == c.2)) &&
  p.jobs.all fun j => !(s.allJobs.any fun y =>
    y.gcore == j.1 && y.gang == j.2.1 && y.seq == j.2.2 && (y.st == .epilogue || y.st == .held))

/-- Number a publication of a gang (R207). -/
def nextPubSeq (n : BitVec 32) : BitVec 32 := if n = 0xFFFFFFFF then 1 else n + 1

/-- The publication of one address by a gang, by PUB or by its Porter's CPUB, which takes a number of the gang too (log 90): its number, and the
state with it pending, or answered when no buffer begins there (R207, R208). -/
def State.startPub (s : State) (gang : Nat) (base : Word) : BitVec 32 × State :=
  let g := s.gang gang
  let n := nextPubSeq g.pubSeq
  let st := if (bufferPages s g.asid base).isEmpty then PubState.noBuffer else .pending
  let (cs, js) := if st == .pending then s.shadowWriters g.asid base else ([], [])
  (n, s.modGang gang fun g => { g with
    pubSeq := n
    pubs := g.pubs.filter (fun p => p.seq != n) ++ [{ seq := n, base := base, st := st, copies := cs, jobs := js }] })

end Sys2Proof.Machine
end

