-- ==== Sys2Proof/Machine/Mem.lean ====
section
/-!
DEFINITION. Instructions whose lanes complete separately (R181, R329): their capture as replay entries, the completion of their
lanes, and what follows it. Then loads and stores (R182 to R186), ATOM, CAS and RED (R187 to R191), FENCE, AFLUSH, CLEAN, INVAL and
PSCRUB (R193 to R197).
-/
namespace Sys2Proof.Machine

/-! ## Completion by lanes (R181) -/

/-- What became of a lane. -/
inductive LaneOut where
  /-- Completed, with its results for D and D + 1. -/
  | done (lo hi : Word)
  | failed (f : Failure)
  /-- Not completed now; the later lanes go on. -/
  | skip
  /-- Not completed now, and the lanes after it wait with it. -/
  | wait (p : Park)
deriving DecidableEq, Repr

/-- What an instruction does in one lane, from its captured operands. -/
abbrev LaneFn := Entry → Nat → Lane → State → LaneOut × State

/-- The completion of an instruction's lanes: those that completed and their results, those that failed, and a wait. -/
structure Outs where
  done : Mask
  lo : List (Lane × Word)
  hi : List (Lane × Word)
  fails : LaneFails
  wait : Option Park
deriving DecidableEq, Repr

/-- Who accesses, in a lane of a crew. -/
def State.whoAt (s : State) (key : Nat) (l : Lane) : Who :=
  let c := s.crew key
  { gang := gangOf key, core := c.core, asid := (s.gang (gangOf key)).asid, sup := (c.th l).sup }

/-- The lanes that an entry has still to complete. -/
def Entry.pending (e : Entry) (c : Crew) : Mask := e.take &&& e.frag &&& ~~~e.done &&& ~~~c.exited

/-- One lane of an entry: a lane whose request was lost with its home fails with POISON at its location (R305). -/
def runLane (f : LaneFn) (e : Entry) (key : Nat) (l : Lane) (s : State) : LaneOut × State :=
  if inMask e.lost l then (.failed ⟨cPoison, e.op0.at l⟩, s) else f e key l s

/-- Complete lanes in ascending order. -/
def runLanes (f : LaneFn) (e : Entry) (key : Nat) : List Lane → State → Outs × State
  | [], s => (⟨0, [], [], [], none⟩, s)
  | l :: ls, s =>
    match runLane f e key l s with
    | (.done lo hi, s) =>
      let (o, s) := runLanes f e key ls s
      ({ o with done := o.done ||| (1#32 <<< l.val), lo := (l, lo) :: o.lo, hi := (l, hi) :: o.hi }, s)
    | (.failed x, s) =>
      let (o, s) := runLanes f e key ls s
      ({ o with fails := (l, x) :: o.fails }, s)
    | (.skip, s) => runLanes f e key ls s
    | (.wait p, s) => (⟨0, [], [], [], some p⟩, s)

/-- The results of a list of lanes. -/
def laneVals (r : List (Lane × Word)) : Lanes Word := lanes fun l => ((r.find? fun p => p.1 == l).map Prod.snd).getD 0

/-- What an instruction writes when lanes complete: nothing, D, or D and D + 1. -/
inductive Dest where
  | none
  | one (d : BitVec 6)
  | pair (d : BitVec 6)
deriving DecidableEq, Repr

/-- Write the results of completed lanes. -/
def Crew.writeOuts (c : Crew) (d : Dest) (o : Outs) (tag : Tag) : Crew :=
  match d with
  | .none => c
  | .one d => c.writeDst d o.done (laneVals o.lo) tag
  | .pair d => (c.writeDst d o.done (laneVals o.lo) tag).writeDst (d + 1) o.done (laneVals o.hi) tag

/-- What the completed lanes push (R23, R181). -/
def Crew.pushOuts (c : Crew) (d : Dest) (o : Outs) (tag : Tag) : List Latch :=
  match d with
  | .none => []
  | .one d => [c.pushOf d o.done (laneVals o.lo) tag]
  | .pair d => [c.pushOf d o.done (laneVals o.lo) tag, c.pushOf (d + 1) o.done (laneVals o.hi) tag]

/-- The latch that an instruction which stalled its crew has pushed takes the results of the lanes that complete later (R23, R25). -/
def Crew.repush (c : Crew) (d : Dest) (o : Outs) : Crew :=
  let b := c.latches[0]
  match d with
  | .one _ =>
    if !b.valid then c
    else
      let v : Lanes Word := lanes fun l => if inMask o.done l then (laneVals o.lo).at l else b.val.at l
      { c with latches := c.latches.set 0 { b with val := v, tag := fitTag b.tag v } }
  | _ => c

/-- Values in force of an instruction's ordering and scope: its fields, a SCOPE hint, or the defaults (R84, R186, R189, R328). -/
def ordScope (i : Instr) (run : Option HintRun) : BitVec 2 × BitVec 3 :=
  match i with
  | .ldacq _ _ _ k _ => (1, k)
  | .strel _ _ _ k _ => (2, k)
  | .red _ k o _ _ _ _ => (o, k)
  | .atom _ _ _ _ _ _ | .cas _ _ _ _ _ =>
    match run.bind fun r => r.scope with
    | some (k, o) => (o, k)
    | none => (0, 3)
  | _ => (0, 0)

/-- The capture of an instruction as it issues (R328): its sources in the order D, D + 1, A, B, C. -/
def Ctx.entry (x : Ctx) (c : Crew) : Entry :=
  let ops := x.i.srcs.map fun a => lanes fun l => c.src kx a l
  let (o, k) := ordScope x.i x.run
  { frag := x.F, ipc := x.pc, word := (encode x.i).getD 0 0, imm := 0, take := x.take, done := 0, ord := o, scope := k, rm := 0,
    op0 := ops.getD 0 (allLanes 0), op1 := ops.getD 1 (allLanes 0), op2 := ops.getD 2 (allLanes 0), cards := [],
    book := none, lost := 0 }

/-- After lanes of an entry were run: the fragment traps when a lane failed, holding this entry and the crew's other unfinished
instructions (R181, R329); it parks when the entry waits; otherwise the entry is done. `before` and `later` are the crew's other
unfinished instructions. -/
def State.closeEntry (s : State) (key : Nat) (e : Entry) (o : Outs) (before later : List Entry) : State :=
  let e := { e with done := e.done ||| o.done }
  let put (es : List Entry) (s : State) : State := s.modCrew key fun c => { c with infl := es }
  match o.fails with
  | f :: _ =>
    let mine (es : List Entry) : List Entry := es.filter fun y => y.frag &&& e.frag != 0
    let rest (es : List Entry) : List Entry := es.filter fun y => y.frag &&& e.frag == 0
    let pc := match lowest (e.frag &&& ~~~(s.crew key).exited) with
      | some l => ((s.crew key).th l).pc
      | none => e.ipc + 4
    (put (rest before ++ rest later) s).takeTrap key
      { cause := f.2.cause, swn := 0, frag := e.frag &&& ~~~(s.crew key).exited, failing := failMask o.fails,
        faddr := failAddrs o.fails, exc := allLanes 0, pc := pc, tent := some (mine before).length,
        entries := mine before ++ [e] ++ mine later, foreman := foremanCause f.2.cause }
  | [] =>
    if e.pending (s.crew key) = 0 then put (before ++ later) s
    else
      match o.wait with
      | some p =>
        (put (before ++ [e] ++ later) s).modCrew key fun c =>
          c.updThr (e.frag &&& ~~~c.exited) fun _ t => { t with st := .parked p }
      | none => put (before ++ [e] ++ later) s

/-- Complete an unfinished instruction of a crew: the `k`th in its list. `stalled` says that it held its crew since it issued. -/
def State.finishEntry (s : State) (key k : Nat) (f : LaneFn) (pre : Entry → Nat → State → Option Park × State) (d : Dest)
    (tag : Lanes Word → Tag) (stalled : Bool) : State :=
  let c := s.crew key
  match c.infl[k]? with
  | none => s
  | some e =>
    let before := c.infl.take k
    let later := c.infl.drop (k + 1)
    match pre e key s with
    | (some p, s) => s.closeEntry key e ⟨0, [], [], [], some p⟩ before later
    | (none, s) =>
      let (o, s) := runLanes f e key (maskLanes (e.pending c)) s
      let s := s.modCrew key fun c =>
        let c := c.writeOuts d o (tag (laneVals o.lo))
        if stalled then c.repush d o else c
      s.closeEntry key e o before later

/-- No wait before the lanes run. -/
def noPre (_ : Entry) (_ : Nat) (s : State) : Option Park × State := (none, s)

/-- Issue an instruction whose lanes complete separately: the fragment goes on at the next word, and the lanes complete now, or
later when the machine leaves memory instructions unfinished (R181, R329). -/
def entryIssue (e : Entry) (f : LaneFn) (pre : Entry → Nat → State → Option Park × State) (d : Dest) (tag : Lanes Word → Tag) (x : Ctx)
    (s : State) : State :=
  if s.memLate && x.i.exchanges then
    (s.finish x).modCrew x.key fun c => { c with infl := c.infl ++ [e] }
  else
    match pre e x.key s with
    | (some p, s) => (s.finish x).closeEntry x.key e ⟨0, [], [], [], some p⟩ (s.crew x.key).infl []
    | (none, s) =>
      let (o, s) := runLanes f e x.key (maskLanes x.take) s
      let c := s.crew x.key
      let t := tag (laneVals o.lo)
      let s := s.setCrew x.key (c.writeOuts d o t)
      let s := s.retire x (c.pushOuts d o t) false fun _ => .next
      s.closeEntry x.key e o (s.crew x.key).infl []

/-- The issue of an instruction whose capture is its sources. -/
def memIssue (f : LaneFn) (pre : Entry → Nat → State → Option Park × State) (d : Dest) (tag : Lanes Word → Tag) (x : Ctx)
    (s : State) : State := entryIssue (x.entry (s.crew x.key)) f pre d tag x s

/-! ## Loads of more than one line's part (R221, R230, R246, R248) -/

/-- The place of a cause in the order of R180. -/
def checkRank (c : BitVec 8) : Nat := ([cAlign, cScrbound, cBankmode, cXlate, cSuperonly, cProt, cOrdrmw].findIdx? fun k => k == c).getD 7

/-- Checks 2 to 7 of R180 on the pieces of a load, each of `step` bytes: the places of all of them, or the failures. A failure that names its
piece names the load's own address instead. -/
def checkPieces (w : Who) (va : Word) (step : Nat) : List Nat → State → List (Word × Place) × List Failure × State
  | [], s => ([], [], s)
  | k :: ks, s =>
    let a := va + BitVec.ofNat 64 (step * k)
    match checkAccess s w .load a step 1 with
    | (.error f, s) =>
      let (ps, fs, s) := checkPieces w va step ks s
      (ps, { f with addr := if f.addr = a then va else f.addr } :: fs, s)
    | (.ok p, s) =>
      let (ps, fs, s) := checkPieces w va step ks s
      ((a, p) :: ps, fs, s)

/-- The bytes at checked places, and whether one of them is poisoned. -/
def readPieces (w : Who) (step : Nat) : List (Word × Place) → State → List Byte × Bool × State
  | [], s => ([], false, s)
  | (a, p) :: ps, s =>
    let (v, bad, s) := readPlace s w p a step
    let (bs, q, s) := readPieces w step ps s
    (toBytes step v ++ bs, bad || q, s)

/-- A load of `n` × `step` bytes: the checks of R180 in their order, each on all of its bytes before the next, and its address reported. -/
def readWhole (s : State) (w : Who) (va : Word) (step n : Nat) : Except Failure (List Byte) × State :=
  if va.toNat % step ≠ 0 then (.error ⟨cAlign, va⟩, s)
  else
    let (ps, fs, s) := checkPieces w va step (List.range n) s
    match leastBy (fun a b => checkRank a.cause ≤ checkRank b.cause) fs with
    | some f => (.error f, s)
    | none =>
      let (bs, bad, s) := readPieces w step ps s
      if bad then (.error ⟨cPoison, va⟩, s) else (.ok bs, s)

/-- The tag of loaded values (R18). -/
def tagG (_ : Lanes Word) : Tag := .g

/-! ## Loads and stores (R179, R182 to R186) -/

/-- Access size in bytes of an SZ code (R55, R179). -/
def sizeOf (z : BitVec 3) : Nat :=
  match z.toNat with
  | 0 | 4 => 1
  | 1 | 5 => 2
  | 2 | 6 => 4
  | 3 => 8
  | _ => 16

/-- Base plus a signed offset in units of the size (R179). -/
def offsetAddr (a : Word) (o : BitVec 8) (z : BitVec 3) : Word := a + o.signExtend 64 * BitVec.ofNat 64 (sizeOf z)

/-- The register value of a loaded number, zero- or sign-extended (R182). -/
def loadExtend (z : BitVec 3) (v : Nat) : Word :=
  if 4 ≤ z.toNat && z.toNat ≤ 6 then BitVec.ofInt 64 (signed (8 * sizeOf z) v) else BitVec.ofNat 64 v

/-- One lane of LD, and of LDP once its line is present (R180, R182). -/
def loadLane (va : Word) (z : BitVec 3) (key : Nat) (l : Lane) (s : State) : LaneOut × State :=
  let w := s.whoAt key l
  let n := sizeOf z
  match checkAccess s w .load va n n with
  | (.error f, s) => (.failed f, s)
  | (.ok p, s) =>
    let (v, bad, s) := readPlace s w p va n
    if bad then (.failed ⟨cPoison, va⟩, s) else (.done (loadExtend z v) (BitVec.ofNat 64 (v / 2 ^ 64)), s)

/-- The scratchpad line of a place that is absent (R183). -/
def State.absentLine (s : State) (gang : Nat) : Place → Option Nat
  | .scratch off => if (s.gang gang).absent.any fun a => a.line = off / 128 then some (off / 128) else none
  | .global _ _ _ _ => none


/-- The wait of LDP: when every lane passes R180 and some line is absent, the fragment parks for the lines it names (R184). Poison is tested
when the lanes read, after the wait: R184 does not say where check 8 stands (log 84). -/
def ldpPre (o : BitVec 8) (z : BitVec 3) (e : Entry) (key : Nat) (s : State) : Option Park × State :=
  let (ok, ls, s) := (maskLanes (e.pending (s.crew key))).foldl (fun (r : Bool × List Nat × State) l =>
    match checkAccess r.2.2 (r.2.2.whoAt key l) .load (offsetAddr (e.op0.at l) o z) (sizeOf z) (sizeOf z) with
    | (.error _, s) => (false, r.2.1, s)
    | (.ok p, s) =>
      match s.absentLine (gangOf key) p with
      | some n => (r.1, insertNat n r.2.1, s)
      | none => (r.1, r.2.1, s)) (true, [], s)
  (if ok && !ls.isEmpty then some (.presence ls) else none, s)

/-- One lane of ST (R180, R182). -/
def storeLane (va : Word) (n v : Nat) (key : Nat) (l : Lane) (s : State) : LaneOut × State :=
  let w := s.whoAt key l
  match checkAccess s w .store va n n with
  | (.error f, s) => (.failed f, s)
  | (.ok p, s) => (.done 0 0, writePlace s w p n v)

/-- Address and data of a store's lane (R182). -/
def storeAddr (z : BitVec 3) (o : BitVec 8) (e : Entry) (l : Lane) : Word :=
  offsetAddr (if z = 7 then e.op2.at l else e.op1.at l) o z
/-- The stored number: D, or D and D + 1 for X2. -/
def storeData (z : BitVec 3) (e : Entry) (l : Lane) : Nat :=
  (e.op0.at l).toNat + (if z = 7 then (e.op1.at l).toNat * 2 ^ 64 else 0)

/-- Set a scratchpad line's presence (R183). -/
def State.setPresent (s : State) (gang line : Nat) : State :=
  s.modGang gang fun g => { g with absent := g.absent.filter fun a => a.line != line }

/-- Release by the eager path: the core's dirty lines go to its die's L2, unless every party shares the core (R301). -/
def State.eagerOut (s : State) (key : Nat) : State :=
  if (s.gang (gangOf key)).ncore = 1 then s else s.eagerRelease (s.crew key).core

/-- Acquire by the eager path (R301). -/
def State.eagerIn (s : State) (key : Nat) : State :=
  if (s.gang (gangOf key)).ncore = 1 then s else s.eagerAcquire (s.crew key).core

/-- One lane of LDP: a lane whose line is absent does not complete; a lane that finds its scratchpad line present acquires what the STP
before it released (R184, R185, R301). -/
def ldpLane (va : Word) (z : BitVec 3) (key : Nat) (l : Lane) (s : State) : LaneOut × State :=
  match checkAccess s (s.whoAt key l) .load va (sizeOf z) (sizeOf z) with
  | (.error f, s) => (.failed f, s)
  | (.ok p, s) =>
    if (s.absentLine (gangOf key) p).isSome then (.skip, s)
    else
      match p with
      | .scratch _ => loadLane va z key l (s.eagerIn key)
      | .global _ _ _ _ => loadLane va z key l s

/-- One lane of STP: a store, and on the scratchpad a GANG-scope release that sets its line's presence (R183, R185, R301). -/
def stpLane (va : Word) (n v : Nat) (key : Nat) (l : Lane) (s : State) : LaneOut × State :=
  let w := s.whoAt key l
  match checkAccess s w .store va n n with
  | (.error f, s) => (.failed f, s)
  | (.ok p, s) =>
    let s := writePlace (s.eagerOut key) w p n v
    match p with
    | .scratch off => (.done 0 0, s.setPresent (gangOf key) (off / 128))
    | .global _ _ _ _ => (.done 0 0, s)

/-- SYSTEM scope (R119). -/
def isSystem (k : BitVec 3) : Bool := k == 4
/-- Does an ordering acquire (R78)? -/
def isAcq (o : BitVec 2) : Bool := o.getLsbD 0
/-- Does an ordering release (R78)? -/
def isRel (o : BitVec 2) : Bool := o.getLsbD 1

/-- The acquire that follows a value read at a place (R124, R300 to R302); a scratchpad value acquires within its gang. -/
def State.acquireAt (s : State) (core : Nat) (scope : BitVec 3) (p : Place) : State :=
  if isSystem scope then s.systemAcquire core
  else match p with
    | .scratch _ => s.eagerAcquire core
    | .global _ _ _ _ => s.acquireDone core

/-- The release that goes before a value is written at a place (R124, R301, R302). -/
def State.releaseAt (s : State) (core : Nat) (scope : BitVec 3) (p : Place) : State :=
  if isSystem scope then s.systemRelease core
  else match p with
    | .scratch _ => s.eagerRelease core
    | .global _ _ _ _ => s

/-- The value that an acquire reads at a place, and its poison (R300). -/
def State.acquireValue (s : State) (w : Who) (p : Place) (va : Word) (n : Nat) : Nat × Bool × State :=
  match p with
  | .scratch _ => readPlace s w p va n
  | .global page _ _ _ =>
    if s.inSpill w.asid va n then readPlace s w p va n
    else
      let (x, q, s) := s.acquireLine w.core page
      (lineNat x (page.pa % 128) n, q, s)

/-- One lane of LDACQ (R186, R300). -/
def acquireLane (va : Word) (z : BitVec 3) (scope : BitVec 3) (key : Nat) (l : Lane) (s : State) : LaneOut × State :=
  let w := s.whoAt key l
  let n := sizeOf z
  match checkAccess s w .load va n n with
  | (.error f, s) => (.failed f, s)
  | (.ok p, s) =>
    let (v, bad, s) := s.acquireValue w p va n
    if bad then (.failed ⟨cPoison, va⟩, s)
    else (.done (loadExtend z v) 0, s.acquireAt w.core scope p)

/-- One lane of STREL: a store performed at the line's home, which records the release (R124, R186, R299). -/
def releaseLane (va : Word) (n v : Nat) (scope : BitVec 3) (key : Nat) (l : Lane) (s : State) : LaneOut × State :=
  let w := s.whoAt key l
  match checkAccess s w .store va n n with
  | (.error f, s) => (.failed f, s)
  | (.ok p, s) =>
    let s := s.releaseAt w.core scope p
    match p with
    | .scratch _ => (.done 0 0, writePlace s w p n v)
    | .global page _ _ _ =>
      let line := lineOf page.pa
      (.done 0 0, ((s.homeTouch line page.keep).homeWrite w.core page.pa n v).recordRelease w.core line)

/-- The lanes of LD. -/
def ldFn (o : BitVec 8) (z : BitVec 3) : LaneFn := fun e key l => loadLane (offsetAddr (e.op0.at l) o z) z key l
/-- The lanes of LDP. -/
def ldpFn (o : BitVec 8) (z : BitVec 3) : LaneFn := fun e key l => ldpLane (offsetAddr (e.op0.at l) o z) z key l
/-- The lanes of ST. -/
def stFn (o : BitVec 8) (z : BitVec 3) : LaneFn := fun e key l => storeLane (storeAddr z o e l) (sizeOf z) (storeData z e l) key l
/-- The lanes of STP. -/
def stpFn (o : BitVec 8) (z : BitVec 3) : LaneFn := fun e key l => stpLane (storeAddr z o e l) (sizeOf z) (storeData z e l) key l
/-- The lanes of LDACQ. -/
def ldacqFn (z : BitVec 3) : LaneFn := fun e key l => acquireLane (e.op0.at l) z e.scope key l
/-- The lanes of STREL. -/
def strelFn (z : BitVec 3) : LaneFn := fun e key l => releaseLane (e.op1.at l) (sizeOf z) (e.op0.at l).toNat e.scope key l

/-- The destination of a load (R182). -/
def loadDest (z : BitVec 3) (d : BitVec 6) : Dest := if z = 7 then .pair d else .one d

/-- LD (R182). -/
def execLd (g : BitVec 3) (d a : BitVec 6) (o : BitVec 8) (z : BitVec 3) (s : State) : Host.Outcome State Fault Refusal :=
  issue (.ld g d a o z) s (memIssue (ldFn o z) noPre (loadDest z d) tagG)

/-- ST (R182). -/
def execSt (g : BitVec 3) (d a : BitVec 6) (o : BitVec 8) (z : BitVec 3) (s : State) : Host.Outcome State Fault Refusal :=
  issue (.st g d a o z) s (memIssue (stFn o z) noPre .none tagG)

/-- LDP (R184). -/
def execLdp (g : BitVec 3) (d a : BitVec 6) (o : BitVec 8) (z : BitVec 3) (s : State) : Host.Outcome State Fault Refusal :=
  issue (.ldp g d a o z) s (memIssue (ldpFn o z) (ldpPre o z) (loadDest z d) tagG)

/-- STP (R182, R185). -/
def execStp (g : BitVec 3) (d a : BitVec 6) (o : BitVec 8) (z : BitVec 3) (s : State) : Host.Outcome State Fault Refusal :=
  issue (.stp g d a o z) s (memIssue (stpFn o z) noPre .none tagG)

/-- LDACQ (R186). -/
def execLdacq (g : BitVec 3) (d a : BitVec 6) (k z : BitVec 3) (s : State) : Host.Outcome State Fault Refusal :=
  issue (.ldacq g d a k z) s (memIssue (ldacqFn z) noPre (.one d) tagG)

/-- STREL (R186). -/
def execStrel (g : BitVec 3) (d a : BitVec 6) (k z : BitVec 3) (s : State) : Host.Outcome State Fault Refusal :=
  issue (.strel g d a k z) s (memIssue (strelFn z) noPre .none tagG)

/-! ## ATOM and CAS (R187, R188) -/

/-- A request as a lane makes it of an address. -/
def Tagged.of (t : Tagged) (s : State) (key : Nat) (l : Lane) (va : Word) (p : Page) : Tagged :=
  { t with pa := p.pa, grid := (s.gang (gangOf key)).grid, addr := va, crew := some key, lane := l.val, keep := p.keep }

/-- One read-modify-write of a lane, an access of this kind, with the operation of a request. It waits while 64 tagged requests of the core to its slice are
unacknowledged (R192). A request that writes nothing has no release half (R188). In the spill area it reads a free value (log 4). -/
def rmwLane (k : AccessKind) (va : Word) (t : Tagged) (ord : BitVec 2) (scope : BitVec 3) (key : Nat) (l : Lane) (s : State) : LaneOut × State :=
  let who := s.whoAt key l
  let n := rmwWidth t.small / 8
  match checkAccess s who k va n n with
  | (.error e, s) => (.failed e, s)
  | (.ok p, s) =>
    match p with
    | .scratch off =>
      let g := s.gang who.gang
      if g.scratchPoison.contains (off / 128) then (.failed ⟨cPoison, va⟩, s)
      else
        let old := readNat g.scratch off n
        let s := match t.apply old with
          | some new => writePlace (if isRel ord then s.releaseAt who.core scope p else s) who p n new
          | none => s
        (.done (BitVec.ofNat 64 old) 0, if isAcq ord then s.acquireAt who.core scope p else s)
    | .global page _ _ _ =>
      let line := lineOf page.pa
      if s.unackedAt who.core page.pa ≥ 64 then (.wait (.tags (s.unitOf page.pa)), s)
      else
        let s := s.flushOwn who.core line
        let s := if ord = 0 then s else s.homeAcquire who.core line
        if s.linePoisoned line then (.failed ⟨cPoison, va⟩, s)
        else
          let spill := s.inSpill who.asid va n
          let (seen, s) := if spill then s.spillValue n else (readNat s.mem page.pa n, s)
          let rel := isRel ord && (t.apply seen).isSome
          let s := if rel then (s.releaseAt who.core scope p).continueRelease who.core line else s
          let t := t.of s key l va page
          let (old, s) := if spill then s.rmwSeen who.core t seen else s.rmwHome who.core t
          let s := if rel then s.recordRelease who.core line else s
          (.done old 0, if isAcq ord then s.acquireAt who.core scope p else s)

/-- The lanes of ATOM (R187). -/
def atomFn (p : BitVec 4) (small : Bool) : LaneFn := fun e key l =>
  rmwLane .rmw (e.op0.at l) (Tagged.ask p small false (e.op1.at l) 0) e.ord e.scope key l

/-- ATOM (R187). -/
def execAtom (g : BitVec 3) (d a b : BitVec 6) (p : BitVec 4) (z : BitVec 1) (s : State) : Host.Outcome State Fault Refusal :=
  issue (.atom g d a b p z) s (memIssue (atomFn p (z == 1)) noPre (.one d) tagG)

/-- The lanes of CAS: an RMW when it succeeds, a load alone when it fails (R188). -/
def casFn (t : BitVec 2) : LaneFn := fun e key l =>
  rmwLane .rmw (e.op0.at l) (Tagged.ask 0 (t == 1) true (e.op1.at l) (e.op2.at l)) e.ord e.scope key l

/-- CAS (R188). -/
def execCas (d a b c : BitVec 6) (t : BitVec 2) (s : State) : Host.Outcome State Fault Refusal :=
  issue (.cas d a b c t) s (memIssue (casFn t) noPre (.one d) tagG)

/-! ## RED (R189 to R191) -/

/-- The buffer entry of a lane's reduction, with the crew's running number as its program order. -/
def redEntry (s : State) (key : Nat) (l : Lane) (va : Word) (page : Page) (p : BitVec 4) (small : Bool) (b : Word) : RedEntry :=
  let g := s.gang (gangOf key)
  { grid := g.grid, gang := gangOf key, asid := g.asid, lin := g.lin, clus := g.clus, crew := crewIndex key, lane := l.val,
    pseq := (s.crew key).redSeq, addr := va, pa := page.pa, opnd := b, op := p, small := small, keep := page.keep,
    rel := false, spill := none, batch := none }

/-- One lane of RED (R189 to R191). -/
def redLane (p : BitVec 4) (small : Bool) : LaneFn := fun e key l s =>
  let who := s.whoAt key l
  let va := e.op0.at l
  let b := e.op1.at l
  let w := rmwWidth small
  match checkAccess s who .update va (w / 8) (w / 8) with
  | (.error f, s) => (.failed f, s)
  | (.ok pl, s) =>
    match pl with
    | .scratch off =>
      let g := s.gang who.gang
      if g.scratchPoison.contains (off / 128) then (.done 0 0, s.dropRed g.grid va)
      else
        let s := if isRel e.ord then s.releaseAt who.core e.scope pl else s
        (.done 0 0, writePlace s who pl (w / 8) (rmwNew p w (readNat g.scratch off (w / 8)) (b.toNat % 2 ^ w)))
    | .global page ordered _ _ =>
      let line := lineOf page.pa
      if ordered then
        let s := if isRel e.ord then s.releaseAt who.core e.scope pl else s
        match s.redHold who.core { redEntry s key l va page p small b with rel := isRel e.ord } with
        | (.ok _, s) => (.done 0 0, s.modCrew key fun c => { c with redSeq := c.redSeq + 1 })
        | (.error f, s) => (.failed f, if f.cause = cEngfault then s.logEvent 4 who.core f.addr.toNat 1 else s)
      else if s.unackedAt who.core page.pa ≥ 64 then (.wait (.tags (s.unitOf page.pa)), s)
      else
        let s := if isRel e.ord then (s.releaseAt who.core e.scope pl).continueRelease who.core line else s
        let s := s.redSend who.core ((Tagged.ask p small false b 0).of s key l va page)
        (.done 0 0, if isRel e.ord then s.recordRelease who.core line else s)

/-- RED (R189). -/
def execRed (g k : BitVec 3) (o : BitVec 2) (a b : BitVec 6) (p : BitVec 4) (z : BitVec 1) (s : State) :
    Host.Outcome State Fault Refusal :=
  issue (.red g k o a b p z) s (memIssue (redLane p (z == 1)) noPre .none tagG)

/-! ## FENCE, AFLUSH, CLEAN, INVAL and PSCRUB (R193 to R197) -/

/-- FENCE: an event of each taking lane; ORD 0 has no effect (R127, R195, R302). -/
def execFence (g k : BitVec 3) (o : BitVec 2) (s : State) : Host.Outcome State Fault Refusal :=
  issue (.fence g k o) s fun x s =>
    let core := (s.crew x.key).core
    let s := if x.take = 0 || !isRel o then s
      else if isSystem k then s.systemRelease core
      else s.fenceRelease core
    let s := if x.take = 0 || !isAcq o then s
      else if isSystem k then (s.fenceAcquire core).systemAcquire core
      else s.fenceAcquire core
    s.finish x

/-- An AFLUSH reaches the buffers: the gang's entries there that no earlier AFLUSH drains become its batch (R133, R196). -/
def State.markBatch (s : State) (gang n : Nat) : State :=
  { s with cores := s.cores.mapAll fun _ c => { c with redbuf := c.redbuf.map fun e =>
    if e.gang = gang && e.batch.isNone then { e with batch := some n } else e } }

/-- AFLUSH: the crew stalls until the gang's buffered reductions are sorted and applied (R133, R134, R196). -/
def execAflush (g : BitVec 3) (s : State) : Host.Outcome State Fault Refusal :=
  issue (.aflush g) s fun x s =>
    if x.take = 0 then s.finish x
    else if (s.redPending fun e => e.gang = x.gang).isEmpty then (s.acquireDone (s.crew x.key).core).finish x
    else
      let n := (s.gang x.gang).tickets
      let s := s.modGang x.gang fun g => { g with tickets := n + 1 }
      let s := s.markBatch x.gang n
      s.retire x [] false fun _ => .wait (.parked (.draining n)) x.npc

/-- The batches of a gang that are not drained yet, in the order in which their flush points began. -/
def State.batches (s : State) (gang : Nat) : List Nat :=
  ((s.crewsOf gang).flatMap fun p => laneList.filterMap fun l => match (p.2.th l).st with
    | .parked (.draining n) => some n
    | _ => none).foldl (fun l n => insertNat n l) []

/-- A flush point completes: its batch is sorted and applied, and its fragment goes on. Its issuer's core drops its copies, so that the
fragment's later accesses see the sums (R134, R196). -/
def State.drainNext (s : State) (gang : Nat) : State :=
  match s.batches gang with
  | [] => s
  | n :: _ =>
    let s := s.redDrain fun e => e.gang = gang && e.batch == some n
    (s.crewsOf gang).foldl (fun s p =>
      if laneList.any fun l => (p.2.th l).st == .parked (.draining n) then
        (s.setCrew p.1 (p.2.wake fun w => w == .draining n)).acquireDone p.2.core
      else s) s

/-- RED_DRAIN_COMPLETE (R134). -/
def execRedDrainComplete (gang : Nat) (s : State) : Host.Outcome State Fault Refusal := .next (s.drainNext gang)

/-- Write back a core's copy of a line, and with level 1 its die's, to CXL memory; INVAL then drops them (R197). -/
def State.cleanLine (s : State) (core line : Nat) (lvl drop : Bool) : State :=
  let d := dieOf core
  let s := s.l1WriteBack core line
  let s := match (s.core core).l1.get? line with
    | some e =>
      if e.coh = 0 then (if drop then s.leaveNow line (.core core) else onFetch line (.core core) false s)
      else if drop then s.modCore core fun c => { c with l1 := c.l1.erase line }
      else s
    | none => s
  if !lvl then s
  else
    let s := (s.l2WriteBack d line).cleanTracked core line
    if drop then s.l2Evict d line else s

/-- One lane of CLEAN or INVAL; translation faults are those of a load, and scratchpad and UNCACHED addresses are unaffected
(R197). Neither rule gives these accesses a size: check 2 takes one byte (log 85). -/
def cleanLane (lvl drop : Bool) : LaneFn := fun e key l s =>
  let w := s.whoAt key l
  match checkAccess s w .load (e.op0.at l) 1 1 with
  | (.error f, s) => (.failed f, s)
  | (.ok p, s) =>
    match p with
    | .global page _ _ _ => (.done 0 0, if page.coh = 2 then s else s.cleanLine w.core (lineOf page.pa) lvl drop)
    | .scratch _ => (.done 0 0, s)

/-- CLEAN (R197). -/
def execClean (g : BitVec 3) (a : BitVec 6) (v : BitVec 1) (s : State) : Host.Outcome State Fault Refusal :=
  issue (.clean g a v) s (memIssue (cleanLane (v == 1) false) noPre .none tagG)

/-- INVAL (R197). -/
def execInval (g : BitVec 3) (a : BitVec 6) (v : BitVec 1) (s : State) : Host.Outcome State Fault Refusal :=
  issue (.inval g a v) s (memIssue (cleanLane (v == 1) true) noPre .none tagG)

/-- One lane of PSCRUB: every byte of the line becomes 0 and its poison is cleared (R193). -/
def pscrubLane : LaneFn := fun e key l s =>
  let w := s.whoAt key l
  let va := e.op0.at l
  match scratchOffset va with
  | some off =>
    let g := s.gang w.gang
    let base := off / 128 * 128
    match checkScratch g va base 128 with
    | .error f => (.failed f, s)
    | .ok _ => (.done 0 0, s.modGang w.gang fun g =>
        { g with scratch := writeBytes g.scratch base (List.replicate 128 0)
                 scratchPoison := g.scratchPoison.filter (· != off / 128) })
  | none =>
    match checkGlobal s w .store va with
    | (.error f, s) => (.failed f, s)
    | (.ok (.global page _ _ _), s) =>
      let line := lineOf page.pa
      (.done 0 0, (((s.homeTouch line page.keep).dropCopies line).clearPoison line).memWrite (line * 128) (List.replicate 128 0))
    | (.ok (.scratch _), s) => (.done 0 0, s)

/-- PSCRUB (R193). -/
def execPscrub (g : BitVec 3) (a : BitVec 6) (s : State) : Host.Outcome State Fault Refusal :=
  issue (.pscrub g a) s (memIssue pscrubLane noPre .none tagG)

end Sys2Proof.Machine
end

