-- ==== Sys2Proof/Machine/Sync.lean ====
section
/-!
DEFINITION. Barriers (R198 to R201), banks, FIFOs and presence queries (R202 to R206), and publications (R207, R208).
-/
namespace Sys2Proof.Machine

/-! ## Shared endings -/

/-- A result word per lane whose tag is that of the row "all sources U" where its values allow it (R18; log 13). -/
def State.finishStatus (s : State) (x : Ctx) (d a : BitVec 6) (vals : Lanes Word) : State :=
  s.finishReg x d vals (fitTag (ruleTag .lanewise [(s.crew x.key).srcShape kx a]) vals)

/-- The whole fragment waits at its instruction for what its tokens name; the wait keeps what the instruction read (R208, R224). -/
def State.waitTokens (s : State) (x : Ctx) (d a : BitVec 6) (park : TokenWait → Park) : State :=
  let c := s.crew x.key
  let w : TokenWait := { d := d, tag := ruleTag .lanewise [c.srcShape kx a], take := x.take, toks := lanes fun l => c.src kx a l,
                         latches := c.latches }
  s.retire x [] false fun _ => .wait (.parked (park w)) x.pc

/-- The lanes of a crew that wait in one way. -/
def Crew.waiters (c : Crew) (p : Park) : Mask := maskOf fun l => (c.th l).st == .parked p

/-- A wait for tokens is over: the lanes that made it receive their results and go on at the next word. -/
def State.endTokens (s : State) (key : Nat) (p : Park) (w : TokenWait) (f : Word → Word) : State :=
  s.modCrew key fun c =>
    let m := c.waiters p
    let vals : Lanes Word := lanes fun l => f (w.toks.at l)
    (c.writeDst w.d (w.take &&& m) vals (fitTag w.tag vals)).goOn (s.hdrOf key) m

/-! ## Gang barriers (R198 to R200) -/

/-- Record the arrival of lanes at a barrier; arriving is a GANG-scope release (R200, R301). -/
def State.arrive (s : State) (x : Ctx) (id : Nat) (m : Mask) : State :=
  let s := if m = 0 then s else s.eagerOut x.key
  s.modCrew x.key fun c => { c with barm := c.barm.setIfInBounds id (c.barm.getD id 0 ||| m) }

/-- Where the lanes of BAR or ARRIVE go: a lane that had arrived in this generation is held at the instruction until the generation
completes; an arriving lane waits for it, or goes on (R199). -/
def arriveAfter (x : Ctx) (held : Mask) (id : Nat) (gen : BitVec 32) (waits : Bool) (l : Lane) : After :=
  if !inMask x.take l then .next
  else if inMask held l then .wait (.parked (.again id gen)) x.pc
  else if waits then .wait (.parked (.barrier id gen)) x.npc
  else .next

/-- BAR (R198, R199). -/
def execBar (g : BitVec 3) (b : BitVec 6) (s : State) : Host.Outcome State Fault Refusal :=
  issue (.bar g b) s fun x s =>
    let gang := s.gang x.gang
    let id := b.toNat
    if id ≥ (s.hdrOf x.key).bars then s.trapAll x cBarlimit
    else
      let held := x.take &&& (s.crew x.key).barm.getD id 0
      let s := s.arrive x id (x.take &&& ~~~held)
      (s.retire x [] false (arriveAfter x held id (gang.bargen.getD id 0) true)).settleCrew x.key

/-- ARRIVE: D receives the generation in which the lane arrived (R198, R199). -/
def execArrive (g : BitVec 3) (d b : BitVec 6) (s : State) : Host.Outcome State Fault Refusal :=
  issue (.arrive g d b) s fun x s =>
    let gang := s.gang x.gang
    let id := b.toNat
    if id ≥ (s.hdrOf x.key).bars then s.trapAll x cBarlimit
    else
      let c := s.crew x.key
      let held := x.take &&& c.barm.getD id 0
      let now := x.take &&& ~~~held
      let gen := gang.bargen.getD id 0
      let vals : Lanes Word := allLanes (gen.setWidth 64)
      let s := (s.setCrew x.key (c.writeDst d now vals .u)).arrive x id now
      (s.retire x [c.pushOf d now vals .u] false (arriveAfter x held id gen false)).settleCrew x.key

/-- WAITB: each taking lane waits until the count exceeds its A (R198, R199). -/
def execWaitb (g : BitVec 3) (a b : BitVec 6) (s : State) : Host.Outcome State Fault Refusal :=
  issue (.waitb g a b) s fun x s =>
    let gang := s.gang x.gang
    let id := b.toNat
    if id ≥ (s.hdrOf x.key).bars then s.trapAll x cBarlimit
    else
      let c := s.crew x.key
      let target (l : Lane) : BitVec 32 := (c.src kx a l).setWidth 32
      let ok (l : Lane) : Bool := passed (gang.bargen.getD id 0) (target l)
      let s := if (maskLanes x.take).any ok then s.eagerIn x.key else s
      s.retire x [] false fun l =>
        if !inMask x.take l || ok l then .next else .wait (.parked (.generation id (target l))) x.npc

/-! ## The cluster barrier (R201) -/

/-- The gangs of a cluster of a grid that are placed. -/
def State.clusterGangs (s : State) (grid clus : Nat) : List Nat :=
  (s.gangs.filter fun g => g.2.grid = grid && g.2.clus = clus).map Prod.fst

/-- Every thread of the cluster that has not exited has arrived, and there is one. -/
def State.clusterFull (s : State) (grid clus : Nat) : Bool :=
  let cs := (s.clusterGangs grid clus).flatMap s.crewsOf
  cs.all (fun p => p.2.exited ||| p.2.barcm == fullMask) && cs.any fun p => p.2.exited != fullMask

/-- Do all gangs of a cluster lie on one core (R301)? -/
def State.clusterShares (s : State) (grid clus : Nat) : Bool :=
  match s.clusterGangs grid clus with
  | [] => true
  | g :: rest => (s.gang g).ncore = 1 && rest.all fun k => (s.gang k).ncore = 1 && (s.gang k).core0 == (s.gang g).core0

/-- The acquire of a completing waiter by the eager path, which parties that share one core skip (R301). -/
def State.acquireUnless (s : State) (one : Bool) (core : Nat) : State := if one then s else s.eagerAcquire core

/-- The waits that the cluster's generation ends. -/
def Park.clusterDone (p : Park) (count : BitVec 32) : Bool :=
  match p with
  | .cluster g | .clusterAgain g => passed count g
  | _ => false

/-- The offsets of `n` crew records of a save area, from one on (R338). -/
def recordOffs (m : List Host.Cell) (pa : Nat) : Nat → Nat → List Nat
  | _, 0 => []
  | o, n + 1 => o :: recordOffs m pa (o + readNat m (pa + o) 4) n

/-- The save area of a gang that is pre-empted when its cluster's generation completes follows: BARCGEN, and in each crew's record BARCM and the
lanes that no longer wait (R201, R337, R338). -/
def State.barcSaved (s : State) (key : Nat) : State :=
  let g := s.gang key
  match g.saved with
  | none => s
  | some pa =>
    let cs := s.crewsOf key
    let parked (c : Crew) : Mask := maskOf fun l => match (c.th l).st with
      | .parked _ => true
      | _ => false
    (cs.zip (recordOffs s.mem pa (readNat s.mem (pa + 0x24) 4) cs.length)).foldl (fun s p =>
      (s.memWrite (pa + p.2 + 0x2E0) (toBytes 4 p.1.2.barcm.toNat)).memWrite (pa + p.2 + 0x14) (toBytes 4 (parked p.1.2).toNat))
      (s.memWrite (pa + 0x18) (toBytes 4 g.barcgen.toNat))

/-- The cluster's generation completes: its buffered reductions are drained first, then the count grows and the waits end, as
DIE-scope acquires (R133, R201, R301). -/
def State.clusterComplete (s : State) (grid clus : Nat) : State :=
  if !s.clusterFull grid clus then s
  else
    let one := s.clusterShares grid clus
    let s := s.redDrain fun e => e.grid = grid && e.clus = clus
    (s.clusterGangs grid clus).foldl (fun s g =>
      let count := (s.gang g).barcgen + 1
      let s := s.modGang g fun y => { y with barcgen := count }
      let s := (s.crewsOf g).foldl (fun s p =>
        let c := ({ p.2 with barcm := 0 } : Crew)
        (s.setCrew p.1 (c.wake fun w => w.clusterDone count)).acquireUnless one c.core) s
      s.barcSaved g) s

/-- BARC (R201). -/
def execBarc (g : BitVec 3) (s : State) : Host.Outcome State Fault Refusal :=
  issue (.barc g) s fun x s =>
    let gen := (s.gang x.gang).barcgen
    let held := x.take &&& (s.crew x.key).barcm
    let now := x.take &&& ~~~held
    let one := s.clusterShares (s.gang x.gang).grid (s.gang x.gang).clus
    let s := if now = 0 || one then s else s.eagerRelease (s.crew x.key).core
    let s := s.modCrew x.key fun c => { c with barcm := c.barcm ||| now }
    s.retire x [] false fun l =>
      if inMask held l then .wait (.parked (.clusterAgain gen)) x.pc
      else if inMask now l then .wait (.parked (.cluster gen)) x.npc
      else .next

/-- CLUSTER_BARRIER_COMPLETE (R201). -/
def execClusterBarrierComplete (grid cluster : Nat) (s : State) : Host.Outcome State Fault Refusal :=
  .next (s.clusterComplete grid cluster)

/-! ## Banks and FIFOs (R202 to R205) -/

/-- Key of a bank slot of a crew's core in its gang's maps. -/
def State.slotKey (s : State) (key slot : Nat) : Nat := ((s.crew key).core - ((s.gang (gangOf key)).core0.getD 0)) * 48 + slot

/-- The lanes that still wait for a FIFO request. -/
def Crew.fifoLanes (c : Crew) (ticket : Nat) : Mask :=
  maskOf fun l => match (c.th l).st with
    | .parked (.fifo t) => t == ticket
    | _ => false

/-- A request that meets a poisoned entry pops nothing: its fragment raises POISON at its FIFOR, in the lanes that would have read
poison (R304). -/
def State.fifoTrap (s : State) (crew ticket : Nat) (failing : Mask) : State :=
  let c := s.crew crew
  let m := c.fifoLanes ticket
  let pc := match lowest m with
    | some l => (c.th l).pc - 4
    | none => 0
  (s.modCrew crew fun c => c.updThr m fun _ t => { t with pc := pc }).raise crew (TrapInfo.at_ cPoison m failing (allLanes 0) pc)

/-- Serve the requests of a FIFO in issue order, each in full before the next (R204). -/
def fifoServe : Nat → State → Nat → Nat → State
  | 0, s, _, _ => s
  | k + 1, s, gang, key =>
    let g := s.gang gang
    match g.fifoReqs.getD key [] with
    | [] => s
    | r :: rest =>
      let c := s.crew r.crew
      let waiting := c.fifoLanes r.ticket
      let ls := maskLanes (r.lanes &&& waiting)
      let q := g.fifos.getD key []
      let bad := g.fifoPoison.getD key []
      let rest_ (s : State) : State := s.modGang gang fun g => { g with fifoReqs := g.fifoReqs.set key rest }
      if q.length < ls.length then s
      else if bad.any fun i => i < ls.length then
        let failing := maskOf fun l => ls.zipIdx.any fun p => p.1 == l && bad.contains p.2
        fifoServe k ((rest_ s).fifoTrap r.crew r.ticket failing) gang key
      else
        let vals := laneVals (ls.zip q)
        let c := c.writeDst r.d (r.lanes &&& waiting) vals .g
        let c := c.updThr waiting fun _ t => { t with st := .live }
        let s := (s.setCrew r.crew c).modGang gang fun g =>
          { g with fifos := g.fifos.set key (q.drop ls.length), fifoPoison := g.fifoPoison.set key (bad.map fun i => i - ls.length) }
        fifoServe k (rest_ s) gang key

/-- FIFOW: lanes push while entries remain; D tells which did. The push and pop of a slot share one core, so its releases and acquires
need no write-back (R204, R301). -/
def execFifow (g : BitVec 3) (d a b : BitVec 6) (s : State) : Host.Outcome State Fault Refusal :=
  issue (.fifow g d a b) s fun x s =>
    let key := s.slotKey x.key b.toNat
    if (s.gang x.gang).banks.getD key .unmapped != .fifo then s.trapAll x cBankmode
    else
      let c := s.crew x.key
      let q := (s.gang x.gang).fifos.getD key []
      let (q, oks) := (maskLanes x.take).foldl (fun (r : List Word × List (Lane × Word)) l =>
        if r.1.length < 2048 then (r.1 ++ [c.src kx a l], r.2 ++ [(l, 1)]) else r) (q, [])
      let s := s.modGang x.gang fun g => { g with fifos := g.fifos.set key q }
      let s := s.finishStatus x d a (laneVals oks)
      fifoServe 8192 s x.gang key

/-- FIFOR: the fragment waits until its request is filled (R204). -/
def execFifor (g : BitVec 3) (d b : BitVec 6) (s : State) : Host.Outcome State Fault Refusal :=
  issue (.fifor g d b) s fun x s =>
    let key := s.slotKey x.key b.toNat
    if (s.gang x.gang).banks.getD key .unmapped != .fifo then s.trapAll x cBankmode
    else if x.take = 0 then s.finish x
    else
      let t := (s.gang x.gang).tickets
      let r : FifoReq := { ticket := t, crew := x.key, lanes := x.take, d := d, sup := false }
      let s := s.modGang x.gang fun g =>
        { g with tickets := t + 1, fifoReqs := g.fifoReqs.set key (g.fifoReqs.getD key [] ++ [r]) }
      let s := s.retire x [] false fun _ => .wait (.parked (.fifo t)) x.npc
      fifoServe 8192 s x.gang key

/-- The mode of a BANKCFG request (R205). -/
def bankMode (n : Nat) : BankMode :=
  match n with
  | 0 => .unmapped
  | 1 => .scratch
  | _ => .fifo

/-- A core's L1 loses its highest way to a bank: the way's lines are written back to their homes and go (R205, R281). -/
def State.takeBank (s : State) (core : Nat) : State :=
  let n := s.waysOf core
  ((s.core core).l1.filter fun p => p.2.way + 1 ≥ n).foldl (fun s p =>
    if p.2.coh = 0 then s.leaveNow p.1 (.core core)
    else (s.flushOwn core p.1).modCore core fun c => { c with l1 := c.l1.erase p.1 }) s

/-- A scratchpad piece as it is when its bank enters scratchpad mode: zero, every line present (R183, R205). -/
def Gang.freshPiece (g : Gang) (p : Nat) : Gang :=
  let lo := p * 16384
  { g with
    scratch := g.scratch.filter fun c => c.1 < lo || lo + 16384 ≤ c.1
    absent := g.absent.filter fun a => a.line < lo / 128 || lo / 128 + 128 ≤ a.line
    scratchPoison := g.scratchPoison.filter fun n => n < lo / 128 || lo / 128 + 128 ≤ n }

/-- Change a slot's mode; the status of R205. -/
def State.setBank (s : State) (gang core slot : Nat) (mode : BankMode) : Nat × State :=
  let g := s.gang gang
  let j := core - g.core0.getD 0
  let key := j * 48 + slot
  let old := g.banks.getD key .unmapped
  if old == mode then (0, s)
  else if old == .fifo && ((g.fifoReqs.getD key []).any fun r => (s.crew r.crew).fifoLanes r.ticket != 0) then (2, s)
  else if old == .unmapped && s.waysOf core ≤ 4 then (1, s)
  else
    let s := if old == .unmapped then s.takeBank core else s
    (0, s.modGang gang fun g =>
      let g := (if mode == .scratch || old == .scratch then g.freshPiece (slot * g.ncore + j) else g)
      { g with banks := g.banks.set key mode, fifos := g.fifos.erase key, fifoPoison := g.fifoPoison.erase key, fifoReqs := g.fifoReqs.erase key })

/-- BANKCFG: one request, from the lowest taking lane (R205). -/
def execBankcfg (g : BitVec 3) (d a : BitVec 6) (s : State) : Host.Outcome State Fault Refusal :=
  issue (.bankcfg g d a) s fun x s =>
    if x.take = 0 then s.finishReg x d (allLanes 0) .u
    else
      let r := (s.crew x.key).src kx a x.low
      if wbits r 9 8 = 3 || wbits r 5 0 ≥ 48 then s.trapAll x cIllegal
      else if wbits r 63 10 ≠ 0 || wbits r 7 6 ≠ 0 then s.trapAll x cResbits
      else
        let (st, s) := (s.eagerOut x.key).setBank x.gang (s.crew x.key).core (wbits r 5 0) (bankMode (wbits r 9 8))
        (s.eagerIn x.key).finishReg x d (allLanes (BitVec.ofNat 64 st)) .u

/-- One lane of PRESQ (R206), which names no size: check 2 takes one byte (log 85). -/
def presqLane : LaneFn := fun e key l s =>
  let va := e.op0.at l
  match scratchOffset va with
  | none => (.done 1 0, s)
  | some off =>
    match checkScratch (s.gang (gangOf key)) va off 1 with
    | .error f => (.failed f, s)
    | .ok p => (.done (if (s.absentLine (gangOf key) p).isSome then 0 else 1) 0, s)

/-- PRESQ (R206). -/
def execPresq (g : BitVec 3) (d a : BitVec 6) (s : State) : Host.Outcome State Fault Refusal :=
  issue (.presq g d a) s fun x s =>
    let sh := (s.crew x.key).srcShape kx a
    memIssue presqLane noPre (.one d) (fitTag (ruleTag .lanewise [sh])) x s

/-! ## Publications (R207, R208) -/

/-- A publication token (R207). -/
def pubToken (seq : BitVec 32) : Word := BitVec.ofNat 64 (seq.toNat * 2 ^ 32)

/-- PUB: one publication for each distinct address of the taking lanes (R130, R207). -/
def execPub (g : BitVec 3) (d a : BitVec 6) (s : State) : Host.Outcome State Fault Refusal :=
  issue (.pub g d a) s fun x s =>
    let c := s.crew x.key
    let addrs := ((maskLanes x.take).map fun l => c.src kx a l).eraseDups
    let s := if x.take = 0 then s else s.fenceRelease c.core
    let (toks, s) := addrs.foldl (fun (r : List (Word × Word) × State) va =>
      let (n, s) := r.2.startPub x.gang va
      (r.1 ++ [(va, pubToken n)], s)) ([], s)
    let vals : Lanes Word := lanes fun l => ((toks.find? fun t => t.1 == c.src kx a l).map Prod.snd).getD 0
    s.finishStatus x d a vals

/-- The publication that a token names in its gang. -/
def Gang.pubOf (g : Gang) (tok : Word) : Option Publication :=
  if wbits tok 31 0 ≠ 0 then none else g.pubs.find? fun p => p.seq.toNat == wbits tok 63 32

/-- The status of a publication token; none while it is pending (R208). -/
def Gang.pubStatus (g : Gang) (tok : Word) : Option Word :=
  match g.pubOf tok with
  | none => some 3
  | some p =>
    match p.st with
    | .pending => none
    | .published => some 0
    | .noBuffer => some 1
    | .discarded => some 2

/-- PUBWAIT (R208). -/
def execPubwait (g : BitVec 3) (d a : BitVec 6) (s : State) : Host.Outcome State Fault Refusal :=
  issue (.pubwait g d a) s fun x s =>
    let c := s.crew x.key
    let gang := s.gang x.gang
    let toks := (maskLanes x.take).map fun l => c.src kx a l
    if toks.any fun t => (gang.pubStatus t).isNone then s.waitTokens x d a .publications
    else s.finishStatus x d a (lanes fun l => (gang.pubStatus (c.src kx a l)).getD 0)

/-- A PUBWAIT goes on when every publication that it names has completed (R208). -/
def State.pubwaitOver (s : State) (key : Nat) (w : TokenWait) : State :=
  let g := s.gang (gangOf key)
  if (maskLanes w.take).any fun l => (g.pubStatus (w.toks.at l)).isNone then s
  else s.endTokens key (.publications w) w fun t => (g.pubStatus t).getD 0

/-- A publication that nothing holds back completes: the buffer is swapped, or was discarded (R207, R208, R295). -/
def State.pubComplete (s : State) (gang : Nat) (seq : BitVec 32) : State :=
  let g := s.gang gang
  match g.pubs.find? fun p => p.seq == seq with
  | none => s
  | some p =>
    if p.st != .pending || !s.pubReady p then s
    else
      let gone := s.discarded.any fun d => d.1 == g.asid && d.2 == p.base
      let s := if gone then s else s.publish g.asid p.base
      s.modGang gang fun g => { g with pubs := g.pubs.map fun q =>
        if q.seq == seq then { q with st := if gone then .discarded else .published } else q }

/-- PUBLICATION_SWAP (R295). -/
def execPublicationSwap (gang seq : Nat) (s : State) : Host.Outcome State Fault Refusal :=
  .next (s.pubComplete gang (BitVec.ofNat 32 seq))

end Sys2Proof.Machine
end

