-- ==== Sys2Proof/Machine/System.lean ====
section
/-!
DEFINITION. System instructions (R277 to R279): TRAP, TRET, YIELD, SLEEP, LAUNCH, events, code versions (R276) and the system
registers.
-/
namespace Sys2Proof.Machine

/-! ## Traps by instruction -/

/-- TRAP: the fragment raises SWTRAP with its number; the reported PC is the next word (R277, R329). -/
def execTrap (g : BitVec 3) (b : BitVec 6) (s : State) : Host.Outcome State Fault Refusal :=
  issue (.trap g b) s fun x s =>
    if x.take = 0 then s.finish x
    else s.raise x.key { TrapInfo.at_ cSwtrap x.F x.take (allLanes 0) x.npc with swn := b }

/-- FMASK of the frame that a lane holds. -/
def Crew.heldMask (c : Crew) (l : Lane) : Mask :=
  match (c.th l).held with
  | some k => ((c.slots.getD k none).map fun u => u.frag).getD 0
  | none => 0

/-- TRET: SUPERONLY from USER; ILLEGAL when a lane holds no frame; otherwise its lanes wait for the rest of their frame's lanes, and
the frame is then restored (R331). -/
def execTret (s : State) : Host.Outcome State Fault Refusal :=
  issue .tret s fun x s =>
    let c := s.crew x.key
    if (maskLanes x.F).any fun l => !(c.th l).sup then s.trapAll x cSuperonly
    else if (maskLanes x.F).any fun l => (c.th l).held.isNone then s.trapAll x cIllegal
    else (s.retire x [] false fun l => .wait (.returning (c.heldMask l)) x.pc).settleCrew x.key

/-! ## YIELD and SLEEP -/

/-- A crew that stalls in the active set: it waits for the matrix engine, for accumulator bytes, for the codebook or for its AFLUSH (R196, R221,
R229, R230). -/
def Crew.stalled (c : Crew) : Bool := laneList.any fun l => match (c.th l).st with
  | .parked .engine | .parked (.zeroing _ _ _) | .parked (.accumulator _ _) | .parked (.codebook _) | .parked (.draining _) => true
  | _ => false

/-- A crew whose fragment holds a pending hint run goes on until the run's target has issued (R85, R335). -/
def Crew.midRun (c : Crew) : Bool := match c.run with
  | some r => r.lanes &&& c.live != 0
  | none => false

/-- Is a crew ready: some fragment of it could issue (R319)? A crew of a gang whose ARGP stores are not all made does not issue
(R308), nor a resumed one whose overlays are not all loaded (R340), nor one that has stopped for a pre-emption (R335). -/
def State.ready (s : State) (key : Nat) (c : Crew) : Bool :=
  let g := s.gang (gangOf key)
  c.live != 0 && g.core0.isSome && g.argps.isEmpty && !c.stalled && g.needs.isEmpty && (!g.leaving || c.midRun)

/-- Has a core a ready crew in its pending set, other than this one? -/
def State.pendingReady (s : State) (core key : Nat) : Bool :=
  s.crews.any fun p => p.1 != key && p.2.core == core && !p.2.active && s.ready p.1 p.2

/-- The mark of a crew that is ready after a step begun at a time. An odd mark stands behind every crew that is ready by then, and before
those that become ready later (R320, R321). -/
def readyMark (t : Nat) : Nat := 2 * t + 2

/-- The crew goes to the pending set behind every ready pending crew; nothing when there is none (R277, R321). -/
def State.yieldCrew (s : State) (key : Nat) : State :=
  if s.pendingReady (s.crew key).core key then
    s.modCrew key fun c => { c with active := false, stall := 0, readySince := readyMark s.time + 1 }
  else s

/-- YIELD (R277). -/
def execYield (g : BitVec 3) (s : State) : Host.Outcome State Fault Refusal :=
  issue (.yield g) s fun x s =>
    let s := s.finish x
    if x.take = 0 then s else s.yieldCrew x.key

/-- SLEEP: the taking lanes park for the count of the lowest of them; a count of 0 acts as YIELD (R277). -/
def execSleep (g : BitVec 3) (a : BitVec 6) (s : State) : Host.Outcome State Fault Refusal :=
  issue (.sleep g a) s fun x s =>
    if x.take = 0 then s.finish x
    else
      let n := wbits ((s.crew x.key).src kx a x.low) 31 0
      if n = 0 then (s.finish x).yieldCrew x.key
      else s.retire x [] false fun l => if inMask x.take l then .wait (.parked (.asleep (s.time + n))) x.npc else .next

/-- A STALL count has run out, on a core whose clock runs (R91, R351). -/
def execStallExpiry (crew : Nat) (s : State) : Host.Outcome State Fault Refusal :=
  .next (match s.crew? crew with
    | some c => if s.clocked c.core && c.stall ≤ s.time then s.setCrew crew { c with stall := 0 } else s
    | none => s)

/-- Is a SLEEP count over? -/
def Park.sleepDone (t : Nat) : Park → Bool
  | .asleep w => w ≤ t
  | _ => false

/-- A SLEEP count has run out, on a core whose clock runs: the parked threads become live (R277, R351). -/
def execSleepExpiry (crew : Nat) (s : State) : Host.Outcome State Fault Refusal :=
  .next (match s.crew? crew with
    | some c => if s.clocked c.core then s.setCrew crew (c.wake (Park.sleepDone s.time)) else s
    | none => s)

/-! ## LAUNCH (R278, R310) -/

/-- A queue's record. -/
def State.queue (s : State) (q : Nat) : Queue := s.queues.getD q Queue.reset
/-- Change a queue's record. -/
def State.modQueue (s : State) (q : Nat) (f : Queue → Queue) : State := { s with queues := s.queues.set q (f (s.queue q)) }

/-- Submit a block to a queue: the launch number and the status of R278. A launch that is not queued has no number. -/
def State.submit (s : State) (asid : BitVec 12) (queue : Nat) (block : Word) : BitVec 32 × Nat × State :=
  let q := s.queue queue
  if q.asid ≠ some asid then (0, 2, s)
  else if q.entries.length ≥ 64 then (0, 1, s)
  else
    let n := q.nextSeq
    (n, 0, s.modQueue queue fun q =>
      { q with entries := q.entries ++ [{ block := block, lseq := n, asid := asid, failed := none }], nextSeq := n + 1 })

/-- LAUNCH: a DEVICE-scope release, and one submission per taking lane (R278). -/
def execLaunch (g : BitVec 3) (d a b : BitVec 6) (s : State) : Host.Outcome State Fault Refusal :=
  issue (.launch g d a b) s fun x s =>
    let c := s.crew x.key
    let asid := (s.gang x.gang).asid
    let s := if x.take = 0 then s else s.fenceRelease c.core
    let (r, s) := (maskLanes x.take).foldl (fun (r : List (Lane × Word) × State) l =>
      let (n, st, s) := r.2.submit asid (wbits (c.src kx b l) 5 0) (c.src kx a l)
      (r.1 ++ [(l, BitVec.ofNat 64 (n.toNat * 2 ^ 32 + st))], s)) ([], s)
    s.finishReg x d (laneVals r) .g

/-- Is the link of some Ethernet port up (R348)? -/
def State.hostLink (s : State) : Bool := s.ether.contains true

/-- A host submission through Foreman over Ethernet, refused when the queue is not bound to its ASID or is full (R310, R348). -/
def execHostLaunchSubmit (asid : BitVec 12) (queue : BitVec 6) (block : Word) (s : State) : Host.Outcome State Fault Refusal :=
  .next (if s.hostLink then (s.submit asid queue.toNat block).2.2 else s)

/-- Foreman binds a queue to an ASID or to none (R310). -/
def execQueueBind (queue : BitVec 6) (asid : Option (BitVec 12)) (s : State) : Host.Outcome State Fault Refusal :=
  .next (s.modQueue queue.toNat fun q => { q with asid := asid })

/-! ## Event counters (R279) -/

/-- One lane of EVSIG: a tagged addition that is a SYSTEM-scope release. -/
def evsigLane : LaneFn := fun e key l => rmwLane .signal (e.op0.at l) (Tagged.ask 0 false false (e.op1.at l) 0) 2 4 key l

/-- EVSIG (R279). -/
def execEvsig (g : BitVec 3) (a b : BitVec 6) (s : State) : Host.Outcome State Fault Refusal :=
  issue (.evsig g a b) s (memIssue evsigLane noPre .none tagG)

/-- A counter's value at its place, as its home holds it, and its poison. -/
def State.peek (s : State) (w : Who) (va : Word) (p : Place) : Nat × Bool :=
  match p with
  | .scratch off => (readNat (s.gang w.gang).scratch off 8, (s.gang w.gang).scratchPoison.contains (off / 128))
  | .global page _ _ _ =>
    if s.inSpill w.asid va 8 then ((s.spillValue 8).1, false)
    else
      let s := s.flushOwn w.core (lineOf page.pa)
      (readNat s.mem page.pa 8, s.linePoisoned (lineOf page.pa))

/-- The wait of EVWAIT: every lane passes R180, poison included, and some counter is below its value. -/
def evwaitPre (e : Entry) (key : Nat) (s : State) : Option Park × State :=
  let ls := maskLanes (e.pending (s.crew key))
  let (ok, low, s) := ls.foldl (fun (r : Bool × Bool × State) l =>
    let w := r.2.2.whoAt key l
    match checkAccess r.2.2 w .counter (e.op0.at l) 8 8 with
    | (.error _, s) => (false, r.2.1, s)
    | (.ok p, s) =>
      let (v, bad) := s.peek w (e.op0.at l) p
      (r.1 && !bad, r.2.1 || v < (e.op1.at l).toNat, s)) (true, false, s)
  (if ok && low then some (.counters (ls.map fun l => (e.op0.at l, e.op1.at l))) else none, s)

/-- One lane of EVWAIT: its read is a SYSTEM-scope acquire; a lane whose counter is below its value does not complete. -/
def evwaitLane : LaneFn := fun e key l s =>
  let w := s.whoAt key l
  let va := e.op0.at l
  match checkAccess s w .counter va 8 8 with
  | (.error f, s) => (.failed f, s)
  | (.ok p, s) =>
    let (v, bad, s) := s.acquireValue w p va 8
    if bad then (.failed ⟨cPoison, va⟩, s)
    else if v < (e.op1.at l).toNat then (.skip, s)
    else (.done 0 0, s.acquireAt w.core 4 p)

/-- EVWAIT (R279). -/
def execEvwait (g : BitVec 3) (a b : BitVec 6) (s : State) : Host.Outcome State Fault Refusal :=
  issue (.evwait g a b) s (memIssue evwaitLane evwaitPre .none tagG)

/-! ## Code versions (R276) -/

/-- CVPUB of one version: the status, and the table with it published. -/
def State.publishVersion (s : State) (core : Nat) (asid : BitVec 12) (v : BitVec 16) : Nat × State :=
  let cvtab := (s.asidEntry asid).cvtab
  match s.curVersion asid, s.version asid v with
  | some cur, some (x, _) =>
    if cur = v then (1, s)
    else if !wbit x 0 then (2, s)
    else
      let s := s.publishStore core asid v
      let s := s.deviceWrite asid (versionAt cvtab v) (x ||| 2#64)
      (0, s.addBinds asid cur 0)
  | some cur, none => (if cur = v then 1 else 2, s)
  | none, _ => (2, s)

/-- CVPUB (R276). -/
def execCvpub (g : BitVec 3) (d a : BitVec 6) (s : State) : Host.Outcome State Fault Refusal :=
  issue (.cvpub g d a) s fun x s =>
    if x.take = 0 then s.finishReg x d (allLanes 0) .u
    else
      let c := s.crew x.key
      let (st, s) := (s.systemRelease c.core).publishVersion c.core (s.gang x.gang).asid ((c.src kx a x.low).setWidth 16)
      s.finishReg x d (allLanes (BitVec.ofNat 64 st)) .u

/-- The number of the overlay that holds an address. -/
def overlayNum (h : Header) (pc : Pc) : Option Nat := (overlayAt h pc.toNat).map fun o => o.1

/-- CVSWITCH (R276): status 2 when some thread takes no part, 1 when a return stack is not empty; CVBAD when the new image has no such
kernel, or its directory places the next word in another overlay. -/
def execCvswitch (g : BitVec 3) (d : BitVec 6) (s : State) : Host.Outcome State Fault Refusal :=
  issue (.cvswitch g d) s fun x s =>
    let c := s.crew x.key
    let asid := (s.gang x.gang).asid
    let status (n : Nat) (s : State) : State := s.finishReg x d (allLanes (BitVec.ofNat 64 n)) .u
    if x.take = 0 then status 0 s
    else if x.take != ~~~c.exited then status 2 s
    else if (maskLanes x.take).any fun l => (c.th l).rsdep != 0 then status 1 s
    else
      match s.curVersion asid with
      | none => s.trapAll x cCvbad
      | some cur =>
        match s.readHeader asid cur (s.hdrOf x.key).koff (s.gang x.gang).ncore with
        | .error _ => s.trapAll x cCvbad
        | .ok h =>
          if overlayNum h x.npc ≠ overlayNum (s.hdrOf x.key) x.npc || (overlayNum h x.npc).isNone then s.trapAll x cCvbad
          else
            let s := status 0 s
            let s := s.addBinds asid cur 1
            let s := if c.switched then s.addBinds asid c.cver (-1) else s
            let s := s.modCrew x.key fun c => { c with cver := cur, hdr := some h, switched := true }
            let (st, s) := s.enterAt x.key x.npc
            s.modCrew x.key fun c => c.updThr x.F fun _ t => { t with st := st }

/-! ## System registers (R277) -/

/-- Change an ASID's context. -/
def State.modAsid (s : State) (asid : BitVec 12) (f : AsidEntry → AsidEntry) : State :=
  { s with asids := s.asids.set asid.toNat (f (s.asidEntry asid)) }

/-- TFRAME: the address of the frame that a lane holds, or 0 (R277). -/
def State.tframe (s : State) (key : Nat) (l : Lane) : Word :=
  match ((s.crew key).th l).held with
  | some k => BitVec.ofNat 64 ((s.gang (gangOf key)).frameVa (crewIndex key) k)
  | none => 0

/-- The value of a system register in a lane (R277). -/
def State.sysReg (s : State) (key : Nat) (code : BitVec 6) (l : Lane) : Word :=
  let core := (s.crew key).core
  let asid := (s.gang (gangOf key)).asid
  let e := s.asidEntry asid
  match code.toNat with
  | 0 => asid.setWidth 64
  | 1 => e.tvec
  | 2 => s.tframe key l
  | 3 => e.cvtab
  | 4 => BitVec.ofNat 64 (quotaOf (s.core core) asid)
  | 5 => e.redspill
  | 6 => e.redsplen.setWidth 64
  | 7 => BitVec.ofNat 64 (s.die (dieOf core)).fstsize
  | 8 => (s.powerOf core).temp.setWidth 64
  | 9 => (s.powerOf core).volt.setWidth 64
  | 10 => (s.powerOf core).proc.setWidth 64
  | 11 => BitVec.ofNat 64 (s.powerOf core).mhz
  | _ => (s.die (dieOf core)).replay.setWidth 64

/-- RDSYS (R277). -/
def execRdsys (g : BitVec 3) (d b : BitVec 6) (s : State) : Host.Outcome State Fault Refusal :=
  issue (.rdsys g d b) s fun x s => s.finishReg x d (lanes (s.sysReg x.key b)) (if b = 2 then .g else .u)

/-- Write a system register other than OVQUOTA (R277). -/
def State.writeSys (s : State) (key : Nat) (code : BitVec 6) (v : Word) : State :=
  let core := (s.crew key).core
  let asid := (s.gang (gangOf key)).asid
  match code.toNat with
  | 1 => s.modAsid asid fun e => { e with tvec := v }
  | 3 => s.modAsid asid fun e => { e with cvtab := v }
  | 5 => s.modAsid asid fun e => { e with redspill := v }
  | 6 => s.modAsid asid fun e => { e with redsplen := v.setWidth 32 }
  | 12 => s.modDie (dieOf core) fun d => { d with replay := v.setWidth 32 }
  | _ => s

/-- WRSYS: the register takes the value of the lowest taking lane (R277). -/
def execWrsys (g : BitVec 3) (a b : BitVec 6) (s : State) : Host.Outcome State Fault Refusal :=
  issue (.wrsys g a b) s fun x s =>
    let s := if x.take = 0 then s else s.writeSys x.key b ((s.crew x.key).src kx a x.low)
    s.finish x

/-- Set an ASID's quota on a core, as far as the core's sum of 48 allows (R269, R277). -/
def State.setQuota (s : State) (core : Nat) (asid : BitVec 12) (v : Nat) : State :=
  let others := (s.core core).quota.foldl (fun n p => if p.1 = asid.toNat then n else n + p.2) 0
  s.modCore core fun c => { c with quota := c.quota.set asid.toNat (min v (48 - others)) }

/-- WRSYS of OVQUOTA; a load that waited for room may then find it (R269, R277). -/
def execWrsysOvquota (g : BitVec 3) (a : BitVec 6) (s : State) : Host.Outcome State Fault Refusal :=
  issue (.wrsysOvquota g a) s fun x s =>
    let c := s.crew x.key
    let s := if x.take = 0 then s
      else (s.setQuota c.core (s.gang x.gang).asid (wbits (c.src kx a x.low) 5 0)).settleOvls c.core
    s.finish x

end Sys2Proof.Machine
end

