-- ==== Sys2Proof/Machine/Engine.lean ====
section
/-!
DEFINITION. Semaphores and PRUN (R263 to R265), and the Porter: its words (R256 to R262), its copies and their completion (R258 to
R260), orphaned waits (R266) and resumption by Foreman (R258).
-/
namespace Sys2Proof.Machine

/-! ## Semaphores (R263, R264) -/

/-- Key of a semaphore of a gang's core. -/
def State.semKey (s : State) (gang core n : Nat) : Nat := (core - ((s.gang gang).core0.getD 0)) * 32 + n

/-- Does a thread wait at a semaphore with this ticket? -/
def Crew.semLanes (c : Crew) (ticket : Nat) : Mask :=
  maskOf fun l => match (c.th l).st with
    | .parked (.semaphore t) => t == ticket
    | _ => false

/-- Does the waiter still wait? A crew's fragment may have been killed; a Porter's stream may have ended. -/
def State.stillWaits (s : State) (core gang : Nat) (w : SemWaiter) : Bool :=
  match w.crew with
  | some k => (s.crew k).semLanes w.ticket != 0
  | none => (s.core core).porter.gang == some gang && (s.core core).porter.wait == .semaphore

/-- The waiter's wait completes. -/
def State.semDone (s : State) (core : Nat) (w : SemWaiter) : State :=
  match w.crew with
  | some k => s.modCrew k fun c => c.updThr (c.semLanes w.ticket) fun _ t => { t with st := .live }
  | none => s.modCore core fun c => { c with porter := { c.porter with wait := .none, pc := c.porter.pc + 4 } }

/-- Serve the waiters of a semaphore in the order they began to wait (R263). -/
def semServe : Nat → State → Nat → Nat → Nat → State
  | 0, s, _, _, _ => s
  | k + 1, s, gang, core, n =>
    let g := s.gang gang
    let key := s.semKey gang core n
    match g.semWaits.getD key [] with
    | [] => s
    | w :: rest =>
      let count := g.sems.getD key 0
      let pop (s : State) : State := s.modGang gang fun g => { g with semWaits := g.semWaits.set key rest }
      if !s.stillWaits core gang w then semServe k (pop s) gang core n
      else if count < w.count then s
      else
        let s := (pop s).modGang gang fun g => { g with sems := g.sems.set key (count - w.count) }
        semServe k (s.semDone core w) gang core n

/-- Add to a semaphore, saturating, and serve its waiters (R263). -/
def State.semAdd (s : State) (gang core n : Nat) (k : BitVec 32) : State :=
  let key := s.semKey gang core n
  let s := s.modGang gang fun g =>
    { g with sems := g.sems.set key (BitVec.ofNat 32 (min ((g.sems.getD key 0).toNat + k.toNat) (2 ^ 32 - 1))) }
  semServe 4096 s gang core n

/-- Begin to wait at a semaphore, and be served if the count allows (R263). -/
def State.semWait (s : State) (gang core n : Nat) (w : SemWaiter) : State :=
  let key := s.semKey gang core n
  let s := s.modGang gang fun g => { g with semWaits := g.semWaits.set key (g.semWaits.getD key [] ++ [w]) }
  semServe 4096 s gang core n

/-- Take a ticket of a gang. -/
def State.ticket (s : State) (gang : Nat) : Nat × State :=
  ((s.gang gang).tickets, s.modGang gang fun g => { g with tickets := g.tickets + 1 })

/-- SEMSIG: the lowest taking lane's count, once. Semaphores are shared by one core only, so its release needs no write-back (R264,
R301). -/
def execSemsig (g : BitVec 3) (a b : BitVec 6) (s : State) : Host.Outcome State Fault Refusal :=
  issue (.semsig g a b) s fun x s =>
    let c := s.crew x.key
    let s := s.finish x
    if x.take = 0 then s else s.semAdd x.gang c.core b.toNat ((c.src kx a x.low).setWidth 32)

/-- SEMWAIT: the fragment waits for the lowest taking lane's count, once; a count of 0 completes at once (R263, R264). -/
def execSemwait (g : BitVec 3) (a b : BitVec 6) (s : State) : Host.Outcome State Fault Refusal :=
  issue (.semwait g a b) s fun x s =>
    let c := s.crew x.key
    let k : BitVec 32 := (c.src kx a x.low).setWidth 32
    if x.take = 0 || k = 0 then s.finish x
    else
      let (t, s) := s.ticket x.gang
      let s := s.retire x [] false fun _ => .wait (.parked (.semaphore t)) x.npc
      s.semWait x.gang c.core b.toNat ⟨t, some x.key, k⟩

/-- SEMQRY (R264). -/
def execSemqry (g : BitVec 3) (d b : BitVec 6) (s : State) : Host.Outcome State Fault Refusal :=
  issue (.semqry g d b) s fun x s =>
    let n := (s.gang x.gang).sems.getD (s.semKey x.gang (s.crew x.key).core b.toNat) 0
    s.finishReg x d (allLanes (n.setWidth 64)) .u

/-! ## PRUN (R265) -/

/-- Is the core's Porter running a stream, or about to resume one (R265)? -/
def Porter.busy (p : Porter) : Bool := p.gang.isSome || !p.resumed.isEmpty

/-- PRUN (R265). A busy Porter is tested before the offset (log 117). -/
def execPrun (g : BitVec 3) (d a b : BitVec 6) (s : State) : Host.Outcome State Fault Refusal :=
  issue (.prun g d a b) s fun x s =>
    if x.take = 0 then s.finishReg x d (allLanes 0) .u
    else
      let c := s.crew x.key
      let h := s.hdrOf x.key
      let pc : Pc := (c.src kx a x.low).setWidth 32
      let q0 := c.src kx b x.low
      let ok := h.porter ≠ 0 && pc.toNat % 4 = 0 && h.porter ≤ pc.toNat && pc.toNat < h.porter + h.porterLen
      let (st, s) :=
        if (s.core c.core).porter.busy then (1, s)
        else if !ok then (2, s)
        else (0, s.modCore c.core fun y => { y with porter :=
          { y.porter with gang := some x.gang, cver := c.cver, lo := h.porter, hi := h.porter + h.porterLen, pc := pc,
                          q := (Vector.replicate 8 0).set 0 q0, wait := .none, stopped := none } })
      s.finishReg x d (allLanes (BitVec.ofNat 64 st)) .u

/-! ## Performing a copy (R258, R259) -/

/-- Who a Porter acts as: its gang, with USER privilege (R256). -/
def State.porterWho (s : State) (core gang : Nat) : Who := { gang := gang, core := core, asid := (s.gang gang).asid, sup := false }

/-- One byte to write: its address, its value, its poison, and the address it was read from. -/
structure ByteMove where
  dst : Word
  val : Byte
  bad : Bool
  src : Option Word
deriving DecidableEq, Repr

/-- The longest piece of a run that stays in one line at each end. -/
def CopyRun.piece (r : CopyRun) : Nat :=
  let d := min r.len (128 - r.dst.toNat % 128)
  match r.src with
  | .mem a => min d (128 - a.toNat % 128)
  | _ => d

/-- The bytes of a piece of a run, read from its source, or the failure of R180. A failed check of the destination is found first. -/
def readPiece (s : State) (w : Who) (shadow : Bool) (r : CopyRun) (n : Nat) : Except Failure (List ByteMove) × State :=
  match checkAccess s w (if shadow then .shadow else .store) r.dst 1 1 with
  | (.error f, s) => (.error f, s)
  | (.ok _, s) =>
    let dst (j : Nat) : Word := r.dst + BitVec.ofNat 64 j
    match r.src with
    | .zero => (.ok ((List.range n).map fun j => ⟨dst j, 0, false, none⟩), s)
    | .pattern p => (.ok ((List.range n).map fun j => ⟨dst j, p.extractLsb' (8 * ((dst j).toNat % 8)) 8, false, none⟩), s)
    | .mem a =>
      match checkAccess s w .load a 1 1 with
      | (.error f, s) => (.error f, s)
      | (.ok p, s) =>
        let (v, bad, s) := readPlace s w p a n
        (.ok ((List.range n).map fun j =>
          ⟨dst j, if bad then 0 else BitVec.ofNat 8 (v >>> (8 * j)), bad, some (a + BitVec.ofNat 64 j)⟩), s)

/-- The bytes of runs in order, up to the first failure. The first number bounds the pieces. -/
def readRuns : Nat → State → Who → Bool → List CopyRun → List ByteMove × Option Failure × State
  | 0, s, _, _, _ => ([], none, s)
  | _ + 1, s, _, _, [] => ([], none, s)
  | k + 1, s, w, shadow, r :: rs =>
    if r.len = 0 then readRuns k s w shadow rs
    else
      let n := r.piece
      match readPiece s w shadow r n with
      | (.error f, s) => ([], some f, s)
      | (.ok bs, s) =>
        let (more, f, s) := readRuns k s w shadow (dropRuns (r :: rs) n)
        (bs ++ more, f, s)

/-- A copied byte whose source is itself a destination of the copy reads it before or after that write, in no defined order (R259):
which of the two is free (log 3). -/
def lateByte (fresh : Nat) (all : List ByteMove) : Nat → Nat → ByteMove → ByteMove
  | 0, _, m => m
  | k + 1, j, m =>
    if !Config.copyLate fresh j then m
    else
      match m.src.bind fun a => (all.zipIdx.find? fun y => y.1.dst == a) with
      | some (y, i) =>
        let z := lateByte fresh all k i y
        { m with val := z.val, bad := z.bad }
      | none => m

/-- Does some byte come from an address that the copy also writes? -/
def overlaps (all : List ByteMove) : Bool :=
  let ds := all.map fun m => m.dst.toNat
  let lo := ds.foldl min (2 ^ 64)
  let hi := ds.foldl max 0
  all.any fun m => match m.src with
    | some a => lo ≤ a.toNat && a.toNat ≤ hi && all.any fun y => y.dst == a
    | none => false

/-- Mark the destination line of an address as poisoned (R105, R258). -/
def State.poisonPlace (s : State) (w : Who) (p : Place) : State :=
  match p with
  | .scratch off => s.modGang w.gang fun g => { g with scratchPoison := insertNat (off / 128) g.scratchPoison }
  | .global page _ _ _ =>
    let line := lineOf page.pa
    (s.poisonLine line).modMember line (.core w.core) (fun e => { e with poison := true }) id

/-- Write one byte of a copy; its checks have passed. -/
def writeMove (w : Who) (shadow : Bool) (s : State) (m : ByteMove) : State :=
  let s := if shadow then (shadowStore s w m.dst 1 m.val.toNat).2
    else
      match checkAccess s w .store m.dst 1 1 with
      | (.ok p, s) => writePlace s w p 1 m.val.toNat
      | (.error _, s) => s
  if !m.bad then s
  else
    match checkAccess s w (if shadow then .shadow else .store) m.dst 1 1 with
    | (.ok p, s) => s.poisonPlace w p
    | (.error _, s) => s

/-- Change a copy of a core's Porter. -/
def State.modCopy (s : State) (core id : Nat) (f : Copy → Copy) : State :=
  s.modCore core fun c => { c with porter := { c.porter with copies := c.porter.copies.map fun y => if y.id = id then f y else y } }

/-- A copy that has written all its bytes leaves its Porter. -/
def State.dropCopy (s : State) (core id : Nat) : State :=
  s.modCore core fun c => { c with porter := { c.porter with copies := c.porter.copies.filter fun y => y.id != id } }

/-- Lines are present again once no copy has bytes to write in them (R183). -/
def State.presentNow (s : State) (gang core id : Nat) (rest : List CopyRun) : State :=
  let keep := runLines rest
  s.modGang gang fun g => { g with absent := g.absent.filter fun a => a.core != core || a.copy != id || keep.contains a.line }

/-- The moves before a failure, without the last ones that lie in the same aligned 8 bytes as the byte that failed: an engine write is atomic
for each of them (R116). -/
def wholeMoves (moves : List ByteMove) (failed : Option CopyRun) : List ByteMove :=
  match failed with
  | none => moves
  | some r => (moves.reverse.dropWhile fun m => m.dst.toNat / 8 = r.dst.toNat / 8).reverse

/-- A copy writes its remaining bytes, up to the first that fails; it then stops there and its Porter reports (R258). -/
def State.runCopy (s : State) (core : Nat) (y : Copy) : State :=
  let w := s.porterWho core y.gang
  let rest := dropRuns y.kind.runs y.done
  let total := rest.foldl (fun n r => n + r.len) 0
  let (moves, fail, s) := readRuns (2 * total + rest.length + 1) s w y.shadow rest
  let moves := if fail.isNone then moves else wholeMoves moves (dropRuns rest moves.length).head?
  let moves' := if overlaps moves then moves.zipIdx.map fun m => lateByte s.fresh moves moves.length m.2 m.1 else moves
  let s := { moves'.foldl (writeMove w y.shadow) s with fresh := s.fresh + 1 }
  let done := y.done + moves.length
  let s := s.presentNow y.gang core y.id (dropRuns rest moves.length)
  match fail with
  | some f => (s.modCopy core y.id fun z => { z with done := done }).porterFault core y.word f.cause f.addr done
  | none => s.dropCopy core y.id

/-- Read a contribution's bytes for CRED, with the poison of its doublewords. -/
def readContribution (s : State) (w : Who) (src len : Nat) : Except Failure (List Byte × List Bool) × State :=
  (List.range (len / 8)).foldl (fun r k =>
    match r with
    | (.error f, s) => (.error f, s)
    | (.ok (bs, ps), s) =>
      let a : Word := BitVec.ofNat 64 (src + 8 * k)
      match checkAccess s w .load a 8 8 with
      | (.error f, s) => (.error f, s)
      | (.ok p, s) =>
        let (v, bad, s) := readPlace s w p a 8
        (.ok (bs ++ toBytes 8 (if bad then 0 else v), ps ++ [bad]), s)) (.ok ([], []), s)

/-- Write a result at a member's Qx, and how many bytes of it, up to the first doubleword that fails (R261). -/
def writeResult (w : Who) : State → Nat → List Byte → List Bool → Nat × Option Failure × State
  | s, _, _, [] => (0, none, s)
  | s, dst, bs, p :: ps =>
    match checkAccess s w .store (BitVec.ofNat 64 dst) 8 8 with
    | (.error f, s) => (0, some f, s)
    | (.ok pl, s) =>
      let s := writePlace s w pl 8 (ofBytes (bs.take 8))
      let (n, f, s) := writeResult w (if p then s.poisonPlace w pl else s) (dst + 8) (bs.drop 8) ps
      (n + 8, f, s)

/-- A CRED writes the result that has come for it, from the bytes that it has completed on (R258, R261). -/
def State.writeCred (s : State) (core : Nat) (y : Copy) : State :=
  match y.kind, y.result with
  | .reduce dst _ _ _ len _ _, some (data, poison, n) =>
    let (k, fail, s) := writeResult (s.porterWho core y.gang) s (dst + n) (data.drop n) (poison.drop (n / 8))
    let s := s.presentNow y.gang core y.id (if fail.isNone then [] else [⟨BitVec.ofNat 64 (dst + n + k), .zero, len.toNat - n - k⟩])
    match fail with
    | some f => (s.modCopy core y.id fun z => { z with result := some (data, poison, n + k) }).porterFault core y.word f.cause f.addr (n + k)
    | none => s.dropCopy core y.id
  | _, _ => s

/-- A CRED sends its contribution towards the root; it waits at the hub when there is no room (R261, R346). -/
def State.sendCred (s : State) (core : Nat) (y : Copy) : State :=
  match y.kind with
  | .reduce _ src tag group len type op =>
    if y.result.isSome then s.writeCred core y
    else if y.done ≠ 0 then s
    else
      match readContribution s (s.porterWho core y.gang) src len.toNat with
      | (.error f, s) => s.porterFault core y.word f.cause f.addr 0
      | (.ok (data, poison), s) =>
        let c : Contribution :=
          { port := none, group := group, tag := tag, rank := grpRank (s.group group),
            incarnation := s.moduleInc, len := len, type := type, op := op, data := data, poison := poison }
        match s.contribute c with
        | (.accepted, s) => (s.modCopy core y.id fun z => { z with done := 1 }).takeHeld s.redHeld.length
        | (.refused, s) => s.porterFault core y.word cEngfault 0 0
        | (.held, s) => s
        | (.dropped, s) => s.porterFault core y.word cEngfault 0 0
  | _ => s

/-- May a copy's engine writes go on, or does a pending publication of its buffer hold them (R207)? -/
def State.copyHeld (s : State) (core : Nat) (y : Copy) : Bool :=
  y.shadow && (dropRuns y.kind.runs y.done).any fun r => s.heldByPub (s.gang y.gang).asid r.dst r.len fun p => p.copies.contains (core, y.id)

/-- PORTER_COPY_COMPLETE (R259): a copy writes its bytes; a CRED sends its contribution, or writes a result that has come. -/
def execPorterCopyComplete (core copy : Nat) (s : State) : Host.Outcome State Fault Refusal :=
  .next (
    match (s.core core).porter.copies.find? fun y => y.id = copy with
    | none => s
    | some y =>
      if !s.clocked core || (s.core core).porter.stopped.isSome || s.copyHeld core y then s
      else
        match y.kind with
        | .reduce _ _ _ _ _ _ _ => s.sendCred core y
        | _ => s.runCopy core y)

/-- The root's result for a block comes to a core's copy, which writes it unless the Porter is stopped (R258, R261). -/
def State.credArrives (s : State) (core : Nat) (y : Copy) (data : List Byte) (poison : List Bool) : State :=
  let s := s.modCopy core y.id fun z => { z with result := some (data, poison, 0) }
  if (s.core core).porter.stopped.isSome then s else s.writeCred core { y with result := some (data, poison, 0) }

/-- A refusal of the contribution of a rank comes from the root: a module on the way sends it on, and the member of that rank stops its Porter
(R346; log 99). -/
def State.credRefused (s : State) (core : Nat) (group : BitVec 8) (tag : BitVec 32) (rank : BitVec 6) : State :=
  if rank ≠ grpRank (s.group group) then s.sendVia group (.refusal group tag rank)
  else match s.credCopy group tag with
    | none => s
    | some (c, y) =>
      if c ≠ core then s else (s.modCopy core y.id fun z => { z with done := 0 }).porterFault core y.word cEngfault 0 0

/-- CRED_RESULT: the root's result reaches this member, which sends it on to the members behind it and writes it at its Qx (R261); or its refusal
of a rank's contribution (R346; log 99). -/
def execCredResult (core : Nat) (group : BitVec 8) (tag : BitVec 32) (data : List (BitVec 8)) (reply : CredReply) (s : State) :
    Host.Outcome State Fault Refusal :=
  .next (
    match reply with
    | .refused rank => s.credRefused core group tag rank
    | .poison poison =>
      let s := if grpRoot (s.group group) then s else s.sendVia group (.result group tag data poison)
      match s.credCopy group tag with
      | none => s
      | some (c, y) => if c ≠ core then s else s.credArrives core y data poison)

/-! ## Porter words (R257 to R262) -/

/-- The meaning of a Porter word: `body` at the Porter of a core. A fragment that issues one raises ILLEGAL (R86, R87). A word with a
reserved code stops the Porter (R258). -/
def porterWord (i : Instr) (s : State) (body : Nat → State → State) : Host.Outcome State Fault Refusal :=
  match s.cur with
  | .porter core => .next (if i.illegal then s.porterStop core cIllegal 0 else body core s)
  | _ => issue i s fun x s => s.finish x

/-- The Porter's registers. -/
def State.qreg (s : State) (core : Nat) (x : BitVec 3) : Word := (s.core core).porter.q[x.toNat]

/-- Change a core's Porter. -/
def State.modPorter (s : State) (core : Nat) (f : Porter → Porter) : State := s.modCore core fun c => { c with porter := f c.porter }

/-- The Porter goes on at the next word. -/
def State.porterNext (s : State) (core : Nat) : State := s.modPorter core fun p => { p with pc := p.pc + 4, wait := .none }

/-- Write a Porter register and go on. -/
def State.porterSet (s : State) (core : Nat) (x : BitVec 3) (v : Word) : State :=
  (s.modPorter core fun p => { p with q := p.q.set x.toNat v }).porterNext core

/-- Does a run enter the scratchpad window? -/
def CopyRun.inScratch (r : CopyRun) : Bool := r.len ≠ 0 && (scratchBase ≤ r.dst.toNat || scratchBase < r.dst.toNat + r.len)

/-- Start a copy: its scratchpad lines become absent, and the stream goes on (R183, R256, R259). -/
def State.startCopy (s : State) (core : Nat) (kind : CopyKind) (shadow : Bool) (lines : List Nat) (result : Option (List Byte × List Bool × Nat)) :
    State :=
  let p := (s.core core).porter
  let gang := p.gang.getD 0
  let id := p.nextCopy
  let y : Copy := { id := id, gang := gang, kind := kind, shadow := shadow, word := p.pc, done := 0, result := result }
  let s := s.modGang gang fun g => { g with absent := g.absent ++ lines.map fun n => ⟨n, core, id⟩ }
  (s.modPorter core fun p => { p with copies := p.copies ++ [y], nextCopy := id + 1 }).porterNext core

/-- Start a copy of runs; one into the scratchpad through a shadow stops the Porter with PROT (R259). -/
def State.beginCopy (s : State) (core : Nat) (kind : CopyKind) (sh : BitVec 1) (dst : Word) : State :=
  if sh = 1 && kind.runs.any CopyRun.inScratch then s.porterStop core cProt dst
  else s.startCopy core kind (sh == 1) (runLines kind.runs) none

/-- CPY (R259). -/
def execCpy (x y z : BitVec 3) (h : BitVec 1) (s : State) : Host.Outcome State Fault Refusal :=
  porterWord (.cpy x y z h) s fun core s =>
    let n := (s.qreg core z).toNat
    if n ≥ 2 ^ 32 then s.porterStop core cEngfault 0
    else s.beginCopy core (.lin (s.qreg core x).toNat (s.qreg core y).toNat n) h (s.qreg core x)

/-- CPY2 (R259). -/
def execCpy2 (x y z : BitVec 3) (h : BitVec 1) (s : State) : Host.Outcome State Fault Refusal :=
  porterWord (.cpy2 x y z h) s fun core s =>
    let q := s.qreg core z
    let rowb := wbits q 47 32
    s.beginCopy core (.grid (s.qreg core x).toNat (s.qreg core y).toNat (if rowb = 0 then 0 else wbits q 63 48) rowb (wbits q 31 16)
      (wbits q 15 0)) h (s.qreg core x)

/-- Read the 64 bytes of a tensor map as the CPYT issues (R260): alignment of 64, then each doubleword. A poisoned one reads 0 (log 119). -/
def State.readMap (s : State) (core : Nat) (va : Word) : Except Failure (List Byte) × State :=
  let w := s.porterWho core ((s.core core).porter.gang.getD 0)
  if va.toNat % 64 ≠ 0 then (.error ⟨cAlign, va⟩, s)
  else match readContribution s w va.toNat 64 with
    | (.ok (bs, _), s) => (.ok bs, s)
    | (.error f, s) => (.error f, s)

/-- CPYT (R260). -/
def execCpyt (x y z : BitVec 3) (h : BitVec 1) (s : State) : Host.Outcome State Fault Refusal :=
  porterWord (.cpyt x y z h) s fun core s =>
    match s.readMap core (s.qreg core y) with
    | (.error f, s) => s.porterStop core f.cause f.addr
    | (.ok m, s) =>
      if (tensorMap m).bad m then s.porterStop core cEngfault (s.qreg core y)
      else s.beginCopy core (.tensor (s.qreg core x).toNat m (s.qreg core z)) h (s.qreg core x)

/-- CFILL (R259). -/
def execCfill (x y z : BitVec 3) (h : BitVec 1) (s : State) : Host.Outcome State Fault Refusal :=
  porterWord (.cfill x y z h) s fun core s =>
    let n := (s.qreg core z).toNat
    if n ≥ 2 ^ 32 then s.porterStop core cEngfault 0
    else s.beginCopy core (.fill (s.qreg core x).toNat (s.qreg core y) n) h (s.qreg core x)

/-- CRED: the checks of R261, R258 and R346; the contribution is then on its way. In a group that a member's death has disabled it completes
with every result line poisoned (R347). -/
def execCred (x y z t : BitVec 3) (o : BitVec 2) (s : State) : Host.Outcome State Fault Refusal :=
  porterWord (.cred x y z t o) s fun core s =>
    let q := s.qreg core z
    let len := wbits q 23 0
    let group : BitVec 8 := q.extractLsb' 24 8
    let tag : BitVec 32 := q.extractLsb' 32 32
    let dst := (s.qreg core x).toNat
    let src := (s.qreg core y).toNat
    if dst % 8 ≠ 0 || src % 8 ≠ 0 || len % 8 ≠ 0 || len < 8 || len > 65536 then s.porterStop core cEngfault 0
    else
      let off := s.redOff.contains group.toNat
      if (!off && !grpValid (s.group group)) || (s.credCopy group tag).isSome then s.porterStop core cEngfault 0
      else s.startCopy core (.reduce dst src tag group (BitVec.ofNat 24 len) t o) false (runLines [⟨s.qreg core x, .zero, len⟩])
        (if off then some (poisonedResult len) else none)

/-- Wait for every earlier copy of the stream (R262). -/
def afterCopies (core : Nat) (body : State → State) (s : State) : State :=
  if (s.core core).porter.copies.isEmpty then body s else s.modPorter core fun p => { p with wait := .copies }

/-- CSIG (R262). -/
def execCsig (k n : BitVec 6) (s : State) : Host.Outcome State Fault Refusal :=
  porterWord (.csig k n) s fun core =>
    afterCopies core fun s => (s.porterNext core).semAdd ((s.core core).porter.gang.getD 0) core n.toNat (k.setWidth 32)

/-- CWAIT (R262, R263). -/
def execCwait (k n : BitVec 6) (s : State) : Host.Outcome State Fault Refusal :=
  porterWord (.cwait k n) s fun core s =>
    let p := (s.core core).porter
    if k = 0 then s.porterNext core
    else if p.wait == .semaphore then s
    else
      let gang := p.gang.getD 0
      let (t, s) := s.ticket gang
      (s.modPorter core fun p => { p with wait := .semaphore }).semWait gang core n.toNat ⟨t, none, k.setWidth 32⟩

/-- CLOOP (R262). -/
def execCloop (x : BitVec 3) (i : BitVec 12) (s : State) : Host.Outcome State Fault Refusal :=
  porterWord (.cloop x i) s fun core s =>
    let p := (s.core core).porter
    let target : Pc := p.pc + 4 + 4 * i.signExtend 32
    if target.toNat < p.lo || p.hi ≤ target.toNat then s.porterStop core cEngfault 0
    else
      let v := s.qreg core x - 1
      let s := s.porterSet core x v
      if v = 0 then s else s.modPorter core fun p => { p with pc := target }

/-- A stream ends; a saved stream that waited for the Porter runs next (R262, R265). -/
def State.endStream (s : State) (core : Nat) : State :=
  s.modPorter core fun p =>
    match p.resumed with
    | [] => { p with gang := none, wait := .none, stopped := none }
    | r :: rest => { p with gang := some r.gang, cver := r.cver, lo := r.lo, hi := r.hi, pc := r.pc, q := r.q, wait := .none,
                            stopped := none, resumed := rest }

/-- CEND (R262). -/
def execCend (s : State) : Host.Outcome State Fault Refusal :=
  porterWord .cend s fun core => afterCopies core fun s => s.endStream core

/-- CPUB: after the earlier copies, the buffer at Qx is published; the Porter waits for it (R130, R262). -/
def execCpub (x : BitVec 3) (s : State) : Host.Outcome State Fault Refusal :=
  porterWord (.cpub x) s fun core =>
    afterCopies core fun s =>
      let p := (s.core core).porter
      let gang := p.gang.getD 0
      match p.wait with
      | .publication n =>
        if ((s.gang gang).pubs.any fun y => y.seq == n && y.st == .pending) then s else s.porterNext core
      | _ =>
        let (n, s) := (s.fenceRelease core).startPub gang (s.qreg core x)
        s.modPorter core fun p => { p with wait := .publication n }

/-- CQSET.ADDI (R262). -/
def execCqsetAddi (x y : BitVec 3) (i : BitVec 10) (s : State) : Host.Outcome State Fault Refusal :=
  porterWord (.cqsetAddi x y i) s fun core s => s.porterSet core x (s.qreg core y + i.signExtend 64)

/-- CQSET.ADD (R262). -/
def execCqsetAdd (x y z : BitVec 3) (s : State) : Host.Outcome State Fault Refusal :=
  porterWord (.cqsetAdd x y z) s fun core s => s.porterSet core x (s.qreg core y + s.qreg core z)

/-- CQSET.LD (R262). -/
def execCqsetLd (x y : BitVec 3) (i : BitVec 10) (s : State) : Host.Outcome State Fault Refusal :=
  porterWord (.cqsetLd x y i) s fun core s =>
    let w := s.porterWho core ((s.core core).porter.gang.getD 0)
    let va := s.qreg core y + 8 * i.signExtend 64
    match checkAccess s w .load va 8 8 with
    | (.error f, s) => s.porterStop core f.cause f.addr
    | (.ok p, s) =>
      let (v, bad, s) := readPlace s w p va 8
      if bad then s.porterStop core cPoison va else s.porterSet core x (BitVec.ofNat 64 v)

/-! ## Orphaned waits and resumption (R258, R266) -/

/-- The semaphore at which a core's Porter waits. -/
def State.porterSem (s : State) (core gang : Nat) : Nat :=
  let c0 := (s.gang gang).core0.getD 0
  match (s.gang gang).semWaits.find? fun q => q.1 / 32 = core - c0 && q.2.any fun w => w.crew.isNone with
  | some q => q.1 % 32
  | none => 0

/-- A stream that waits at a CWAIT after its gang's last crew exited can never be released: once its copies are done it ends, and
Foreman is told (R266). -/
def State.orphanTest (s : State) (core : Nat) : State :=
  let p := (s.core core).porter
  match p.gang with
  | some gang =>
    if p.wait == .semaphore && p.copies.isEmpty && (s.crewsOf gang).isEmpty then
      let n := s.porterSem core gang
      let s := { s with reports := s.reports ++ [Report.orphan core gang p.pc n] }
      let s := s.modGang gang fun g => { g with semWaits := g.semWaits.map fun q => (q.1, q.2.filter fun w => w.crew.isSome) }
      (s.logEvent 4 core 0 1).endStream core
    else s
  | none => s

/-- PORTER_RESUME: Foreman resumes a stopped Porter at its word; stopped copies go on from their completed bytes (R258). -/
def execPorterResume (core : Nat) (s : State) : Host.Outcome State Fault Refusal :=
  .next (s.modPorter core fun p => { p with stopped := none })

end Sys2Proof.Machine
end

