-- ==== Sys2Proof/Machine/Fstore.lean ====
section
/-!
DEFINITION. The FST family (R238 to R248) and the PROP family (R251 to R255).
-/
namespace Sys2Proof.Machine

/-! ## The table of an instruction (R239) -/

/-- The key of table `b` of the issuing ASID, and the issuing die. -/
def State.fstKey (s : State) (x : Ctx) (b : BitVec 6) : Nat × Nat :=
  (tableKey (s.gang x.gang).asid b.toNat, dieOf (s.crew x.key).core)

/-- The checks of R239 on the whole fragment, then `body` with the binding; `outs` says that D names results. -/
def withTable (x : Ctx) (b : BitVec 6) (args : Option (BitVec 6)) (outs : Option (BitVec 6)) (s : State) (body : FstTable → State → State) :
    State :=
  let regs := (s.hdrOf x.key).regs
  match s.table? (s.fstKey x b).1 with
  | none => s.trapAll x cFstbad
  | some t =>
    let tooBig := (args.any fun a => a.toNat + t.dim > regs) || outs.any fun d => d.toNat + t.outs * (1 + t.dim) > regs
    if tooBig then s.trapAll x cReglimit else body t s

/-- `n` consecutive registers of a lane from `a`, in the table's type (R239). -/
def Crew.fstSlots (c : Crew) (t : FstTable) (a n : Nat) (l : Lane) : List Word := (List.range n).map fun i => t.slot (c.reg (a + i) l)

/-- Who submits an update in a lane. -/
def State.teacher (s : State) (key : Nat) (l : Lane) : Teacher :=
  let g := s.gang (gangOf key)
  ⟨g.grid, g.lin, crewIndex key, l.val⟩

/-- A DEFERRED queue that has no room parks the fragment for Foreman, the table number as fault address (R250). -/
def State.queueFull (s : State) (x : Ctx) (b : BitVec 6) (m : Mask) : State :=
  (s.logEvent 4 (s.crew x.key).core b.toNat 1).trapWhole x cEngfault m (allLanes (b.setWidth 64)) (allLanes 0)

/-- The grid of a crew. -/
def State.gridOf (s : State) (key : Nat) : Nat := (s.gang (gangOf key)).grid

/-! ## FCALL and FPROBE (R240 to R243) -/

/-- What FCALL finds in a lane: the record that answers, its outputs, and what their arithmetic signals. -/
def fcallLane (t : FstTable) (v : FstView) (c : Crew) (a : BitVec 6) (l : Lane) : Option (FstRecord × List Word × Exc) :=
  let x := c.fstSlots t a.toNat t.dim l
  (fstFind t.fmt v.recs x).map fun r =>
    let rm := roundingOf 7 (c.th l).fstat
    let outs := (List.range t.outs).map fun k => r.output t.fmt rm x k
    (r, outs.map fun o => BitVec.ofNat 64 o.1, outs.foldl (fun e o => e ||| o.2) 0)

/-- Write consecutive result registers from `d`, with tag G (R18, R240). -/
def Crew.writeSlots (c : Crew) (d : Nat) (m : Mask) (n : Nat) (vals : Lane → Nat → Word) : Crew :=
  (List.range n).foldl (fun c j => c.writeReg (d + j) m (lanes fun l => vals l j) .g) c

/-- Does the routine's ENTRY lie in its overlay of the calling kernel (R241)? -/
def routineOk (h : Header) (t : FstTable) : Bool :=
  match dirEntry h t.ovl with
  | some (off, slots) => off ≤ t.entry.toNat && t.entry.toNat < off + ovlBytes slots
  | none => false

/-- FCALL (R240, R241). The hit lanes' enabled exceptions are tested before the miss lanes' steps, and FSTBAD marks every lane of the fragment
(log 115). -/
def execFcall (g : BitVec 3) (d a b : BitVec 6) (s : State) : Host.Outcome State Fault Refusal :=
  issue (.fcall g d a b) s fun x s =>
    withTable x b (some a) (some d) s fun t s =>
      let (key, die) := s.fstKey x b
      let s := s.settleInst die key
      let c := s.crew x.key
      let grid := s.gridOf x.key
      let view := (s.instOf die key).seen t grid
      let found := lanes fun l => if inMask x.take l then fcallLane t view c a l else none
      let hit := maskOf fun l => (found.at l).isSome
      let miss := x.take &&& ~~~hit
      let exc (l : Lane) : Exc := ((found.at l).map fun r => r.2.2).getD 0
      if enabledLanes c x exc ≠ 0 then withExc x exc id s
      else if miss ≠ 0 && !routineOk (s.hdrOf x.key) t then s.trapAll x cFstbad
      else
        let (ps, fs, s) := pushChecks s x miss
        if !fs.isEmpty then s.trapFails x fs
        else
          let s := pushAll s x ps
          let n := t.outs * (1 + t.dim)
          let res (l : Lane) (j : Nat) : Word := ((found.at l).map fun r => (r.2.1 ++ r.1.j).getD j 0).getD 0
          let s := s.modCrew x.key fun c => (c.signal x exc).writeSlots d.toNat hit n res
          let seqs := (maskLanes hit).filterMap fun l => (found.at l).map fun r => r.1.seq
          let s := s.modInst die key fun i => i.count t grid seqs (maskLanes miss).length
          if miss = 0 then
            s.retire x [c.pushOf d x.take (lanes fun l => res l 0) .g] false fun _ => .next
          else
            let (st, s) := s.enterAll x.key [t.entry]
            s.retire x [] true fun l => if inMask miss l then arriveAt st t.entry (c.th l).sup else .next

/-- FPROBE (R243). -/
def execFprobe (g : BitVec 3) (d a b : BitVec 6) (s : State) : Host.Outcome State Fault Refusal :=
  issue (.fprobe g d a b) s fun x s =>
    withTable x b (some a) none s fun t s =>
      let (key, die) := s.fstKey x b
      let s := s.settleInst die key
      let c := s.crew x.key
      let view := (s.instOf die key).seen t (s.gridOf x.key)
      s.finishReg x d (lanes fun l =>
        match fstFind t.fmt view.recs (c.fstSlots t a.toNat t.dim l) with
        | some r => BitVec.ofNat 64 (r.seq % 2 ^ 32 * 2 ^ 32 + 1)
        | none => 0) .g

/-! ## FRET (R244) -/

/-- FRET: the checks of a return, the clearing of the results' upper halves, the updates in lane order, and the return. -/
def execFret (g : BitVec 3) (d a b : BitVec 6) (s : State) : Host.Outcome State Fault Refusal :=
  issue (.fret g d a b) s fun x s =>
    withTable x b (some a) (some d) s fun t s =>
      let c := s.crew x.key
      let pops := maskOf fun l => inMask x.take l && (c.th l).rsdep != 0
      match retChecks s x pops with
      | (.error fs, s) => s.trapFails x fs
      | (.ok ps, s) =>
        let (key, die) := s.fstKey x b
        if !s.fstRoom die t (maskLanes x.take).length then s.queueFull x b x.take
        else
          let n := t.outs * (1 + t.dim)
          let res (l : Lane) : List Word := c.fstSlots t d.toNat n l
          let s := if t.single then s.modCrew x.key fun c => c.writeSlots d.toNat x.take n fun l j => (res l).getD j 0 else s
          let s := (maskLanes x.take).foldl (fun s l =>
            s.queueUpd die key (s.teacher x.key l)
              (.learn (c.fstSlots t a.toNat t.dim l) ((res l).take t.outs) ((res l).drop t.outs))) s
          returnLanes x ps s

/-! ## FINS, FEVICT, FCLR and FQRY (R246, R247) -/

/-- The update that a record image makes (R236, R246). -/
def imageUpd (t : FstTable) (m : List Byte) : FstUpdate :=
  let w (off : Nat) : Word := BitVec.ofNat 64 (ofBytes ((m.drop off).take 8))
  let vec (off n : Nat) : List Word := (List.range n).map fun i => w (off + 8 * i)
  let x := vec 0x20 t.dim
  let r := vec 0x60 t.dim
  let f := vec 0xA0 t.outs
  let j := (List.range t.outs).flatMap fun k => vec (0xC0 + 64 * k) t.dim
  let bad := t.single && (x ++ r ++ f ++ j).any fun v => v.toNat ≥ 2 ^ 32
  .put (x.map t.slot) (r.map t.slot) (f.map t.slot) (j.map t.slot) bad

/-- One lane of FINS (R246). -/
def finsLane (b : BitVec 6) : LaneFn := fun e key l s =>
  let w := s.whoAt key l
  let k := tableKey w.asid b.toNat
  match s.table? k with
  | none => (.failed ⟨cFstbad, 0⟩, s)
  | some t =>
    match readWhole s w (e.op0.at l) 64 8 with
    | (.error f, s) => (.failed f, s)
    | (.ok m, s) =>
      let die := dieOf w.core
      if !s.fstRoom die t 1 then (.failed ⟨cEngfault, b.setWidth 64⟩, s.logEvent 4 w.core b.toNat 1)
      else
        let (n, s) := s.submitUpd die k t (s.teacher key l) (imageUpd t m)
        (.done (BitVec.ofNat 64 n) 0, s)

/-- FINS (R246). -/
def execFins (g : BitVec 3) (d a b : BitVec 6) (s : State) : Host.Outcome State Fault Refusal :=
  issue (.fins g d a b) s fun x s => withTable x b none none s fun _ => memIssue (finsLane b) noPre (.one d) tagG x

/-- FEVICT (R246). -/
def execFevict (g : BitVec 3) (d a b : BitVec 6) (s : State) : Host.Outcome State Fault Refusal :=
  issue (.fevict g d a b) s fun x s =>
    withTable x b (some a) none s fun t s =>
      let (key, die) := s.fstKey x b
      let c := s.crew x.key
      if !s.fstRoom die t (maskLanes x.take).length then s.queueFull x b x.take
      else
        let (r, s) := (maskLanes x.take).foldl (fun (r : List (Lane × Word) × State) l =>
          let (n, s) := r.2.submitUpd die key t (s.teacher x.key l) (.evict (c.fstSlots t a.toNat t.dim l))
          (r.1 ++ [(l, BitVec.ofNat 64 n)], s)) ([], s)
        s.finishReg x d (laneVals r) .g

/-- FCLR: one issue clears once (R246), sorted at a boundary as its lowest taking lane's (log 116). -/
def execFclr (g : BitVec 3) (b : BitVec 6) (s : State) : Host.Outcome State Fault Refusal :=
  issue (.fclr g b) s fun x s =>
    withTable x b none none s fun t s =>
      let (key, die) := s.fstKey x b
      if x.take = 0 then s.finish x
      else if !s.fstRoom die t 1 then s.queueFull x b x.take
      else (s.submitUpd die key t (s.teacher x.key x.low) .clear).2.finish x

/-- The value that a selector reads (R247). -/
def FstInstance.select (i : FstInstance) (t : FstTable) (v : FstView) (sel : Word) : Word :=
  BitVec.ofNat 64 (match sel.toNat with
    | 0 => v.recs.length
    | 1 => t.cap
    | 2 => v.hits
    | 3 => v.misses
    | 4 => i.inserts
    | 5 => i.grows
    | 6 => i.dups
    | 7 => i.evicts
    | 8 => i.rejects
    | 9 => i.next
    | 10 => i.queue.length
    | 11 => t.routine.toNat * 2 ^ 16 + t.dim * 2 ^ 5 + t.outs * 2 ^ 2 + (if t.single then 2 else 0) + (if t.deferred then 1 else 0)
    | _ => 0)

/-- FQRY (R247). -/
def execFqry (g : BitVec 3) (d a b : BitVec 6) (s : State) : Host.Outcome State Fault Refusal :=
  issue (.fqry g d a b) s fun x s =>
    let (key, die) := s.fstKey x b
    let s := s.settleInst die key
    let c := s.crew x.key
    match s.table? key with
    | none => s.finishReg x d (allLanes 0) .g
    | some t =>
      let i := s.instOf die key
      let v := i.seen t (s.gridOf x.key)
      s.finishReg x d (lanes fun l => i.select t v (c.src kx a l)) .g

/-! ## FTAB (R248) -/

/-- The binding that FTAB makes, read through the lowest lane that has not completed: none unbinds. -/
def ftabRead (e : Entry) (key : Nat) (l : Lane) (s : State) : Except Failure (Option FstTable) × State :=
  let va := e.op0.at l
  if va = 0 then (.ok none, s)
  else
    match readWhole s (s.whoAt key l) va 64 2 with
    | (.error f, s) => (.error f, s)
    | (.ok m, s) =>
      match readDescriptor m with
      | some b => (.ok (some b), s)
      | none => (.error ⟨cFstbad, va⟩, s)

/-- One lane of FTAB: the lowest lane binds, and every lane receives the status (R248). -/
def ftabLane (b : BitVec 6) : LaneFn := fun e key l s =>
  let low := (lowest (e.pending (s.crew key))).getD l
  let k := tableKey (s.whoAt key l).asid b.toNat
  match ftabRead e key low s with
  | (.error f, s) => (if l = low then .failed f else .skip, s)
  | (.ok t, s) =>
    let st : Nat := match t with
      | none => 2
      | some t => if s.bindRoom k t.cap then 0 else 1
    (.done (BitVec.ofNat 64 st) 0, if l = low then (s.bindTable k t).2 else s)

/-- FTAB issues: a descriptor that R235 refuses traps in the lowest taking lane, and nothing is bound. -/
def ftabIssue (d b : BitVec 6) (x : Ctx) (s : State) : State :=
  let go : State := memIssue (ftabLane b) noPre (.one d) (fun _ => .u) x s
  if x.take = 0 then go
  else
    match ftabRead (x.entry (s.crew x.key)) x.key x.low s with
    | (.error f, t) => if f.cause = cFstbad then t.trapWhole x cFstbad (1#32 <<< x.low.val) (allLanes f.addr) (allLanes 0) else go
    | (.ok _, _) => go

/-- FTAB (R235, R248). -/
def execFtab (g : BitVec 3) (d a b : BitVec 6) (s : State) : Host.Outcome State Fault Refusal :=
  issue (.ftab g d a b) s (ftabIssue d b)

/-! ## Proposals (R28, R251 to R254) -/

/-- Commit lanes that are in proposal mode, and discard others: the committed bank takes the shadow values of the written registers, and
both leave proposal mode (R28, R29). -/
def Crew.settleProp (c : Crew) (commit discard : Mask) : Crew :=
  let took (k : Nat) : Mask := maskOf fun l => inMask commit l && (c.th l).pmode && (c.th l).wm.getLsbD k
  let regs := (List.range 8).foldl (fun (r : Vector (Lanes Word) 48) k =>
    let old := c.regs.getD (40 + k) (allLanes 0)
    let sh := c.shadow.getD k (allLanes 0)
    if took k = 0 then r else r.setIfInBounds (40 + k) (lanes fun l => if inMask (took k) l then sh.at l else old.at l)) c.regs
  let tags := (List.range 8).foldl (fun (r : Vector Tag 48) k =>
    r.setIfInBounds (40 + k) (bankTag (c.tags.getD (40 + k) .g) (c.stags.getD k .g) (took k))) c.tags
  ({ c with regs := regs, tags := tags }).updThr (commit ||| discard) fun _ t => { t with pmode := false, wm := 0 }

/-- PBEGIN (R252). -/
def execPbegin (g : BitVec 3) (s : State) : Host.Outcome State Fault Refusal :=
  issue (.pbegin g) s fun x s =>
    let c := s.crew x.key
    let nested := maskOf fun l => inMask x.take l && (c.th l).pmode
    if nested ≠ 0 then s.trapWhole x cPropnest nested (allLanes 0) (allLanes 0)
    else (s.modCrew x.key fun c => c.updThr x.take fun _ t => { t with pmode := true, wm := 0 }).finish x

/-- Does ACCEPT accept, and what does it signal (R253)? -/
def acceptTest (f : Fmt) (lr : Nat) (w : Word) : Bool × Exc :=
  match decodeFp f lr with
  | .nan _ _ _ => (false, excNV)
  | .inf n => (!n, 0)
  | .fin n m e => if !n || m = 0 then (true, 0) else (belowExp (2 * wbits w 63 11 + 1) m e, 0)

/-- ACCEPT (R253). -/
def execAccept (g p : BitVec 3) (y : BitVec 1) (a b : BitVec 6) (s : State) : Host.Outcome State Fault Refusal :=
  issue (.accept g p y a b) s fun x s =>
    let c := s.crew x.key
    let ty : FpType := if y = 1 then .s else .d
    let res := lanes fun l => acceptTest (fmtOf ty) (subEl ty.width (c.src (.fp ty) a l) 0) (c.src kx b l)
    withExc x (fun l => (res.at l).2) (fun s =>
      let yes := maskOf fun l => inMask x.take l && (res.at l).1
      let up (n : BitVec 32) : BitVec 32 := if n = 0xFFFFFFFF then n else n + 1
      (s.modCrew x.key fun c =>
        ((c.setPred p x.take yes).updThr x.take fun l t =>
          { t with pacc := if inMask yes l then up t.pacc else t.pacc, ptot := up t.ptot }).settleProp yes (x.take &&& ~~~yes)).finish x) s

/-- PCOMMIT (R254). -/
def execPcommit (g : BitVec 3) (s : State) : Host.Outcome State Fault Refusal :=
  issue (.pcommit g) s fun x s => (s.modCrew x.key fun c => c.settleProp x.take 0).finish x

/-- PDISC (R254). -/
def execPdisc (g : BitVec 3) (s : State) : Host.Outcome State Fault Refusal :=
  issue (.pdisc g) s fun x s => (s.modCrew x.key fun c => c.settleProp 0 x.take).finish x

end Sys2Proof.Machine
end

