-- ==== Sys2Proof/Machine/Formats.lean ====
section
/-!
DEFINITION. The operand formats of the matrix engine: their widths, chunks and pairs (R92, R111, R112, R218), the value of an element
(R93 to R103), exact dot products with one rounding (R113), and the conversions of a writer (R97 to R99, R107, R110).
-/
namespace Sys2Proof.Machine

/-! ## Format codes (R92) -/

/-- Width in bits of an element: of an index for VQ2, of a block for DB. -/
def fmtBits (f : Nat) : Nat :=
  match f with
  | 0x00 => 64
  | 0x01 | 0x02 => 32
  | 0x03 | 0x04 | 0x0C | 0x12 => 16
  | 0x05 | 0x06 | 0x0B | 0x0D | 0x0E => 8
  | 0x07 | 0x08 => 6
  | 0x09 | 0x0A | 0x0F | 0x10 => 4
  | 0x11 => 2
  | _ => 512

/-- E2M1 -/
def fE2M1 : Nat := 0x09
/-- VQ2 -/
def fVQ2 : Nat := 0x12
/-- DB -/
def fDB : Nat := 0x13

/-- Is a block scale allowed (R92)? DB, which carries a scale in the block, is not marked "no", and is allowed (log 96). -/
def fmtScales (f : Nat) : Bool := [0x05, 0x06, 0x07, 0x08, 0x09, 0x0A, 0x0D, 0x12, 0x13].contains f

/-- The integer formats. -/
def fmtInt (f : Nat) : Bool := 0x0C ≤ f && f ≤ 0x11

/-- Native K-chunk (R112). -/
def nativeK (f : Nat) : Nat :=
  match f with
  | 0x00 => 4
  | 0x01 => 8
  | 0x02 | 0x03 | 0x04 | 0x0C => 16
  | 0x05 | 0x06 | 0x0B | 0x0D | 0x0E | 0x13 => 32
  | 0x11 | 0x12 => 128
  | _ => 64

/-- The pairs of R218 in one order. -/
def pairRow (a b : Nat) : Bool :=
  (a = 0x00 && b = 0x00) || (a = 0x01 && b = 0x01) || ([0x02, 0x03, 0x04].contains a && [0x02, 0x03, 0x04].contains b) ||
  ([0x05, 0x06, 0x07, 0x08, 0x09, 0x0A, 0x0B].contains a && [0x05, 0x06, 0x07, 0x08, 0x09, 0x0A, 0x0B].contains b) ||
  (a = fVQ2 && [0x03, 0x04, 0x05, 0x06].contains b) || (a = fDB && [0x13, 0x03, 0x04].contains b) || (fmtInt a && fmtInt b)

/-- The pairs that a card accepts (R218). -/
def pairOk (a b : Nat) : Bool := pairRow a b || pairRow b a

/-- Accumulator formats (R111). -/
inductive AccFmt where
  | d
  | s
  | int
deriving DecidableEq, Repr

/-- The accumulator of a pair; `scaled` when a block scale applies (R111). -/
def accFmtOf (a b : Nat) (scaled : Bool) : AccFmt :=
  if a = 0x00 && b = 0x00 then .d else if fmtInt a && fmtInt b && !scaled then .int else .s

/-- Bytes of an accumulator element (R212). -/
def AccFmt.bytes : AccFmt → Nat
  | .d => 8
  | _ => 4

/-! ## Elements (R93 to R103) -/

/-- The floating-point layout of a format code. -/
def fpFmt (f : Nat) : Option Fmt :=
  match f with
  | 0x00 => some fmtD
  | 0x01 => some fmtS
  | 0x02 => some fmt19
  | 0x03 => some fmtBf
  | 0x04 => some fmtH
  | 0x05 => some fmtE5M2
  | 0x06 => some fmtE4M3
  | 0x07 => some fmtE3M2
  | 0x08 => some fmtE2M3
  | 0x09 | 0x0A => some fmtE2M1
  | 0x0B => some fmtE3M4
  | _ => none

/-- An integer as a value. -/
def intNum (x : Int) : Num := .fin (x < 0) x.natAbs 0

/-- The value of an element's code; the escapes of E2M1, VQ2 and DB are read by their own rules. -/
def elemNum (f code : Nat) : Num :=
  match fpFmt f with
  | some m => decodeFp m (if f = 0x02 then code >>> 13 else code)
  | none =>
    let w := fmtBits f
    if f = 0x0E || f = 0x10 then intNum (code % 2 ^ w : Nat) else intNum (signed w code)

/-- A value times 2^(e − 127) (R102, R103). -/
def scaleNum (x : Num) (e : Nat) : Num :=
  match x with
  | .fin n m k => .fin n m (k + e - 127)
  | y => y

/-- Weight `j` of a VQ2 index (R100). -/
def vq2Num (cb : List Byte) (index j : Nat) : Num :=
  let mag := ((cb.getD (8 * bits index 15 8 + j) 0).toNat) % 128
  match decodeFp fmtE4M3 mag with
  | .fin _ m e => .fin (index.testBit j) m e
  | y => y

/-- Elements of a described block of a format; none when the block's FMT is not in the table (R104). -/
def dbCount (f : Nat) : Option Nat :=
  match f with
  | 0x05 | 0x06 | 0x0B | 0x0D | 0x0E => some 32
  | 0x07 | 0x08 => some 64
  | 0x09 | 0x0A | 0x0F | 0x10 => some 96
  | 0x11 | 0x12 => some 224
  | _ => none

/-! ## Exact sums (R113, R220) -/

/-- The sign of a value, that of a zero included. -/
def numSign : Num → Bool
  | .fin n _ _ | .inf n | .nan n _ _ => n

/-- A NaN. -/
def aNaN : Num := .nan false true 0

/-- An exact product; NaN for a NaN operand or 0 × ∞. -/
def mulExact (a b : Num) : Num := (mulNum a b).getD aNaN

/-- Is it an infinity of this sign? -/
def isInf (n : Bool) : Num → Bool
  | .inf m => m == n
  | _ => false

/-- The exact sum of values: NaN for a NaN or both infinities, the infinity that is present, or the finite sum, whose exact zero has
the sign `z`. -/
def sumExact (z : Bool) (xs : List Num) : Num :=
  if xs.any Num.isNaN || (xs.any (isInf true) && xs.any (isInf false)) then aNaN
  else if xs.any (isInf true) then .inf true
  else if xs.any (isInf false) then .inf false
  else
    let e0 := xs.foldl (fun e x => match x with
      | .fin _ m k => if m = 0 then e else min e k
      | _ => e) (0 : Int)
    let s := xs.foldl (fun a x => match x with
      | .fin n m k => if m = 0 then a else a + alignTo e0 n m k
      | _ => a) (0 : Int)
    if s = 0 then .fin z 0 0 else .fin (s < 0) s.natAbs e0

/-- An integer accumulator's bits as a signed value. -/
def accInt (x : Nat) : Int := signed 32 x

/-- The value of an accumulator element. -/
def AccFmt.num (a : AccFmt) (x : Nat) : Num :=
  match a with
  | .d => decodeFp fmtD x
  | .s => decodeFp fmtS x
  | .int => intNum (accInt x)

/-- One rounding of an exact value into a floating format, infinities and the canonical NaN included. -/
def roundInto (f : Fmt) (rm : BitVec 3) (x : Num) : Nat :=
  match x with
  | .fin n m e => (roundNum f rm n m e false).1
  | .inf n => codeInf f n
  | .nan _ _ _ => codeNaN f

/-- One chunk applied to an accumulator element: its bits, and whether an S32 sum wrapped (R113). -/
def chunkSum (a : AccFmt) (acc : Nat) (xs ys : List Num) : Nat × Bool :=
  let ps := xs.zipWith mulExact ys
  match a with
  | .int =>
    let s := ps.foldl (fun t p => match p with
      | .fin n m _ => if n then t - m else t + m
      | _ => t) (accInt acc)
    (wrap 32 s, signed 32 (wrap 32 s) ≠ s)
  | .d =>
    let t := decodeFp fmtD acc :: ps
    (roundInto fmtD 0 (sumExact (t.all numSign) t), false)
  | .s =>
    let t := decodeFp fmtS acc :: ps
    (roundInto fmtS 0 (sumExact (t.all numSign) t), false)

/-! ## Conversions of a writer (R97 to R99, R107, R110) -/

/-- E2M1 with its exponent unbounded above (R97 step 1). -/
def fmtE2M1Wide : Fmt := ⟨12, 1, 1, .ieee⟩

/-- What a writer of E2M1 does with a value: a code, or an outlier with the FP16 it stores (R97 steps 1 to 3). -/
inductive E2M1Out where
  | code (c : Nat)
  | outlier (h : Nat) (x : Num)
deriving DecidableEq, Repr

/-- R97 steps 1 to 3, before side-list entries are given out. -/
def toE2M1 (rm : BitVec 3) (x : Num) : E2M1Out :=
  match x with
  | .fin n m e =>
    match decodeFp fmtE2M1Wide (roundNum fmtE2M1Wide rm n m e false).1 with
    | .fin _ 0 _ => .code 0
    | .fin _ m' e' =>
      if cmpNum (.fin false m' e') (.fin false 6 0) = .gt then .outlier (roundInto fmtH 0 x) x
      else .code (roundNum fmtE2M1 0 n m' e' false).1
    | _ => .outlier (roundInto fmtH 0 x) x
  | _ => .outlier (roundInto fmtH 0 x) x

/-- The code of an outlier that finds no free entry, and whether its tile is poisoned (R97 step 4). -/
def e2m1Full (x : Num) : Nat × Bool :=
  match x with
  | .nan _ _ _ => (0, true)
  | .inf n | .fin n _ _ => (if n then 15 else 7, false)

/-- Range of an integer format (R99). -/
def intRange (f : Nat) : Int × Int :=
  let w := fmtBits f
  if f = 0x0E || f = 0x10 then (0, 2 ^ w - 1) else (-(2 ^ (w - 1)), 2 ^ (w - 1) - 1)

/-- An integer clamped to a format's range, as its code. -/
def intCode (f : Nat) (x : Int) : Nat :=
  let (lo, hi) := intRange f
  wrap (fmtBits f) (max lo (min hi x))

/-- A value converted to an output format other than E2M1: its code, and whether its tile is poisoned (R98, R99, R107, R110). A
NaN is the canonical one of R220, also where R110 would keep a sign (log 113). -/
def convertOut (f : Nat) (rm : BitVec 3) (x : Num) : Nat × Bool :=
  match fpFmt f with
  | some m =>
    match m.top, x with
    | .finite, .nan _ _ _ => (0, true)
    | .finite, .inf n => (codeMax m n, false)
    | .nanOnly, .inf n => (carryNaN m n 0, false)
    | _, _ => (if f = 0x02 then roundInto m rm x <<< 13 else roundInto m rm x, false)
  | none =>
    match x with
    | .nan _ _ _ => (0, true)
    | .inf n => (intCode f (if n then (intRange f).1 else (intRange f).2), false)
    | .fin n m e =>
      let (k, _) := roundTo rm n m e false 0
      (intCode f (if n then -(k : Int) else k), false)

end Sys2Proof.Machine
end

