-- ==== Sys2Proof/Machine/Card.lean ====
section
/-!
DEFINITION. Job cards (R211 to R219): their fields, the checks of R222, and the loop nest of R214.
-/
namespace Sys2Proof.Machine

/-! ## Fields -/

/-- A loop level (R213): its kind (0 M, 1 N, 2 K, 3 BATCH), its count, and the batch strides. -/
structure Level where
  kind : Nat
  count : Nat
  a : Int
  b : Int
  d : Int
deriving DecidableEq, Repr

/-- An operand descriptor (R215, R217). `w0` to `w2` are the doublewords at +0x10 to +0x20, which hold the window map when WIN is 1. -/
structure Operand where
  fmt : Nat
  src : Nat
  kout : Bool
  scale : Nat
  win : Bool
  base : Word
  w0 : Nat
  w1 : Nat
  w2 : Nat
  w3 : Nat
  rest : Nat
deriving DecidableEq, Repr

/-- Row pitch (KIN) or K pitch (KOUT). -/
def Operand.stride (o : Operand) : Nat := bits o.w0 63 32
/-- Pitch of the scale array. -/
def Operand.sstr (o : Operand) : Nat := bits o.w0 31 0
/-- Scale array. -/
def Operand.sbase (o : Operand) : Nat := o.w1
/-- Side lists. -/
def Operand.xbase (o : Operand) : Nat := o.w2
/-- Pitch of the side lists. -/
def Operand.xstr (o : Operand) : Nat := bits o.w3 63 32
/-- Is there a block scale (R103)? -/
def Operand.mx (o : Operand) : Bool := o.scale == 1
/-- Does the operand lie in the scratchpad (R216)? -/
def Operand.scr (o : Operand) : Bool := o.src == 1

/-- IH -/
def Operand.ih (o : Operand) : Nat := bits o.w0 63 48
/-- IW -/
def Operand.iw (o : Operand) : Nat := bits o.w0 47 32
/-- OW -/
def Operand.ow (o : Operand) : Nat := bits o.w0 31 16
/-- C -/
def Operand.ch (o : Operand) : Nat := bits o.w0 15 0
/-- KH -/
def Operand.kh (o : Operand) : Nat := bits o.w1 63 56
/-- KW -/
def Operand.kw (o : Operand) : Nat := bits o.w1 55 48
/-- SY -/
def Operand.sy (o : Operand) : Nat := bits o.w1 47 40
/-- SX -/
def Operand.sx (o : Operand) : Nat := bits o.w1 39 32
/-- PY -/
def Operand.py (o : Operand) : Nat := bits o.w1 31 24
/-- PX -/
def Operand.px (o : Operand) : Nat := bits o.w1 23 16
/-- DY -/
def Operand.dy (o : Operand) : Nat := bits o.w1 15 8
/-- DX -/
def Operand.dx (o : Operand) : Nat := bits o.w1 7 0
/-- ROWSTR -/
def Operand.rowstr (o : Operand) : Nat := bits o.w2 63 32
/-- PIXSTR -/
def Operand.pixstr (o : Operand) : Nat := bits o.w2 31 0

/-- The epilogue block (R219). -/
structure Epi where
  ofmt : Nat
  orm : Nat
  act : Nat
  scl : Nat
  bias : Nat
  shadow : Bool
  colmaj : Bool
  dbase : Word
  dstride : Nat
  svec : Word
  bvec : Word
  chi : Nat
  clo : Nat
  exbase : Word
  exstr : Nat
deriving DecidableEq, Repr

/-- A job card. -/
structure Card where
  nlev : Nat
  epi : Bool
  zero : Bool
  ld : Nat
  base : Nat
  levels : List Level
  a : Operand
  b : Operand
  e : Epi
deriving DecidableEq, Repr

/-- `n` bytes of a card, as a number. -/
def cardNat (m : List Byte) (off n : Nat) : Nat := ofBytes ((m.drop off).take n)

/-- Loop level `l` (R213). -/
def cardLevel (m : List Byte) (l : Nat) : Level :=
  let x := cardNat m (0x10 + 16 * l) 8
  let y := cardNat m (0x18 + 16 * l) 8
  { kind := bits x 63 62, count := bits x 31 0, a := signed 21 (bits y 62 42), b := signed 21 (bits y 41 21), d := signed 21 (bits y 20 0) }

/-- The operand descriptor at an offset (R215). -/
def cardOperand (m : List Byte) (off : Nat) : Operand :=
  let x := cardNat m off 8
  { fmt := bits x 63 59, src := bits x 58 57, kout := x.testBit 56, scale := bits x 55 54, win := x.testBit 53,
    base := BitVec.ofNat 64 (cardNat m (off + 0x08) 8), w0 := cardNat m (off + 0x10) 8, w1 := cardNat m (off + 0x18) 8,
    w2 := cardNat m (off + 0x20) 8, w3 := cardNat m (off + 0x28) 8, rest := bits x 52 0 }

/-- The epilogue block (R219). -/
def cardEpi (m : List Byte) : Epi :=
  let x := cardNat m 0xC0 8
  let w (off : Nat) : Word := BitVec.ofNat 64 (cardNat m off 8)
  { ofmt := bits x 63 59, orm := bits x 58 56, act := bits x 55 52, scl := bits x 51 50, bias := bits x 49 48, shadow := x.testBit 47,
    colmaj := x.testBit 46, dbase := w 0xC8, dstride := cardNat m 0xD4 4, svec := w 0xD8, bvec := w 0xE0, chi := cardNat m 0xEC 4,
    clo := cardNat m 0xE8 4, exbase := w 0xF0, exstr := cardNat m 0xFC 4 }

/-- The card in 256 bytes (R211, R212). -/
def cardOf (m : List Byte) : Card :=
  let x := cardNat m 0 8
  let n := bits x 42 40
  { nlev := n, epi := x.testBit 33, zero := x.testBit 32, ld := cardNat m 0xC 2, base := cardNat m 0x8 4,
    levels := (List.range n).map (cardLevel m), a := cardOperand m 0x60, b := cardOperand m 0x90, e := cardEpi m }

/-! ## The loop nest (R213, R214) -/

/-- The count of the level of a kind. -/
def Card.count (c : Card) (kind : Nat) : Nat := ((c.levels.find? fun l => l.kind = kind).map fun l => l.count).getD 0
/-- M -/
def Card.m (c : Card) : Nat := c.count 0
/-- N -/
def Card.n (c : Card) : Nat := c.count 1
/-- K -/
def Card.k (c : Card) : Nat := c.count 2
/-- BATCH levels, outermost first. -/
def Card.batches (c : Card) : List Level := c.levels.filter fun l => l.kind = 3
/-- Batch iterations. -/
def Card.iters (c : Card) : Nat := c.batches.foldl (fun n l => n * l.count) 1
/-- The chunk length (R112). -/
def Card.kc (c : Card) : Nat := min (nativeK c.a.fmt) (nativeK c.b.fmt)
/-- The accumulator format (R111). -/
def Card.acc (c : Card) : AccFmt := accFmtOf c.a.fmt c.b.fmt (c.a.mx || c.b.mx)
/-- Tiles along M. -/
def Card.tm (c : Card) : Nat := (c.m + 15) / 16
/-- Tiles along N. -/
def Card.tn (c : Card) : Nat := (c.n + 15) / 16
/-- Chunks along K. -/
def Card.tk (c : Card) : Nat := (c.k + c.kc - 1) / c.kc
/-- Chunk steps of one iteration. -/
def Card.steps (c : Card) : Nat := c.tm * c.tn * c.tk

/-- Tiles or chunks along a level. -/
def Card.extent (c : Card) (kind : Nat) : Nat :=
  match kind with
  | 0 => c.tm
  | 1 => c.tn
  | _ => c.tk

/-- Index along a kind of step `i` of an iteration, in the nesting order of the M, N and K levels (R214). -/
def Card.indexOf (c : Card) (kind i : Nat) : Nat :=
  let inner := ((c.levels.dropWhile fun l => l.kind ≠ kind).drop 1).foldl (fun n l => n * c.extent l.kind) 1
  i / inner % c.extent kind

/-- The batch offset of an iteration for one of the strides (R214). -/
def Card.offset (c : Card) (stride : Level → Int) (i : Nat) : Int :=
  (c.batches.reverse.foldl (fun (r : Nat × Int) l => (r.1 / l.count, r.2 + (r.1 % l.count : Nat) * stride l * 64)) (i, 0)).2

/-- Least and greatest batch offset. -/
def Card.span (c : Card) (stride : Level → Int) : Int × Int :=
  c.batches.foldl (fun r l =>
    let v := (l.count - 1 : Nat) * stride l * 64
    (r.1 + min 0 v, r.2 + max 0 v)) (0, 0)

/-- Bytes of the accumulator region: rows 0 to 16⌈M/16⌉ − 1 (R212). -/
def Card.regionLen (c : Card) : Nat := 16 * c.tm * c.ld * c.acc.bytes

/-- Offset of element (m, n) in accumulator space (R212). -/
def Card.elemAt (c : Card) (m n : Nat) : Nat := c.base + (m * c.ld + n) * c.acc.bytes

/-! ## The checks of a card (R222) -/

/-- Bytes of one element of an operand: of an index for VQ2, of a block for DB. -/
def Operand.ebytes (o : Operand) : Nat := fmtBits o.fmt / 8

/-- Bytes of one row of `k` elements under KIN (R93, R100, R104). -/
def Operand.rowBytes (o : Operand) (k : Nat) : Nat :=
  if o.fmt = fVQ2 then (k + 7) / 8 * 2
  else if o.fmt = fDB then (k + 31) / 32 * 64
  else (k * fmtBits o.fmt + 7) / 8

/-- Bytes from BASE that an operand of `rows` rows reaches in one iteration. -/
def Operand.extent (o : Operand) (rows k : Nat) : Nat :=
  if o.win then (o.ih - 1) * o.rowstr + (o.iw - 1) * o.pixstr + (if o.fmt = fVQ2 then (o.ch + 7) / 8 * 2 else o.ch * o.ebytes)
  else if o.kout then (k - 1) * o.stride + rows * o.ebytes
  else (rows - 1) * o.stride + o.rowBytes k

/-- The arrays that an operand uses, as first address and bytes: its elements over all iterations, its scales, its side lists. -/
def Operand.arrays (o : Operand) (rows k : Nat) (span : Int × Int) : List (Int × Int) :=
  [((o.base.toNat : Int) + span.1, (o.extent rows k : Int) + span.2 - span.1)] ++
  (if o.mx then [((o.sbase : Int), (((rows - 1) * o.sstr + (k + 31) / 32 : Nat) : Int))] else []) ++
  (if o.fmt = fE2M1 && !o.win then [((o.xbase : Int), (((rows - 1) * o.xstr + 16 * ((k + 63) / 64) : Nat) : Int))] else [])

/-- Does an operand make its card refused? -/
def Operand.bad (o : Operand) (isB : Bool) (rows k scratch : Nat) (span : Int × Int) : Bool :=
  let w := fmtBits o.fmt
  let arrays := o.arrays rows k span
  o.rest ≠ 0 || o.src > 1 || o.scale > 1 || o.fmt > 0x13 || (o.mx && !fmtScales o.fmt) ||
  (o.kout && (w < 8 || o.fmt = fVQ2 || o.fmt = fDB)) ||
  (if o.win then
    isB || o.mx || w < 8 || o.w3 ≠ 0 || [o.ih, o.iw, o.ow, o.ch, o.kh, o.kw, o.sy, o.sx, o.dy, o.dx].contains 0 ||
    (w ≥ 16 && (o.base.toNat % o.ebytes ≠ 0 || o.pixstr % o.ebytes ≠ 0))
  else
    o.xstr % 16 ≠ 0 || bits o.w3 31 0 ≠ 0 || (w ≥ 16 && (o.base.toNat % o.ebytes ≠ 0 || o.stride % o.ebytes ≠ 0))) ||
  (if o.scr then arrays.any fun r => r.1 < scratchBase || r.1 + r.2 > scratchBase + scratch
   else o.base.toNat ≥ scratchBase || (arrays.drop 1).any fun r => r.1 ≥ scratchBase)

/-- Bytes of a destination row of `n` elements. -/
def Epi.rowBytes (e : Epi) (n : Nat) : Nat := (n * fmtBits e.ofmt + 7) / 8

/-- The first destination address of a job over all its iterations, and the first past its reach. -/
def Card.reach (c : Card) : Int × Int :=
  let span := c.span Level.d
  let outer := if c.e.colmaj then c.n else c.m
  let inner := if c.e.colmaj then c.m else c.n
  ((c.e.dbase.toNat : Int) + span.1, (c.e.dbase.toNat : Int) + span.2 + ((outer - 1) * c.e.dstride + c.e.rowBytes inner : Nat))

/-- Does the epilogue block make its card refused? `m` are the card's bytes. -/
def Card.epiBad (c : Card) (m : List Byte) : Bool :=
  let e := c.e
  let lo := decodeFp fmtS e.clo
  let hi := decodeFp fmtS e.chi
  let r := c.reach
  e.ofmt > 0x10 || e.orm > 5 || e.act > 2 || e.scl = 3 || e.bias = 3 || bits (cardNat m 0xC0 8) 45 0 ≠ 0 || cardNat m 0xD0 4 ≠ 0 ||
  cardNat m 0xF8 4 ≠ 0 || e.exstr % 16 ≠ 0 || (e.scl = 2 && e.svec.toNat % 4 ≠ 0) || e.bvec.toNat % 4 ≠ 0 ||
  lo.isNaN || hi.isNaN || cmpNum lo hi = .gt ||
  (e.shadow && (r.1 % (2 ^ 64) ≥ scratchBase || r.2 > scratchBase))

/-- The reserved bits and values of CTL, ACC and the loop levels (R212, R213). -/
def Card.loopBad (c : Card) (m : List Byte) : Bool :=
  let x := cardNat m 0 8
  let y := cardNat m 8 8
  bits x 63 56 ≠ 1 || bits x 55 43 ≠ 0 || bits x 39 34 ≠ 0 || bits x 31 0 ≠ 0 || c.nlev < 3 || c.nlev > 5 || bits y 63 48 ≠ 0 ||
  c.ld % 16 ≠ 0 || c.ld < 16 || c.ld > 4096 || c.base % 64 ≠ 0 ||
  (List.range 5).any (fun l =>
    let p := cardNat m (0x10 + 16 * l) 8
    let q := cardNat m (0x18 + 16 * l) 8
    if l ≥ c.nlev then p ≠ 0 || q ≠ 0
    else bits p 61 32 ≠ 0 || q.testBit 63 || bits p 31 0 = 0 || (bits p 63 62 ≠ 3 && q ≠ 0)) ||
  [0, 1, 2].any (fun k => (c.levels.filter fun l => l.kind = k).length ≠ 1) ||
  !c.batches.isEmpty && (!c.zero || (c.levels.takeWhile fun l => l.kind = 3).length ≠ c.batches.length)

/-- Bytes of each core's part of a gang's accumulator space (R210). -/
def accPart (h : Header) (ncore : Nat) : Nat := h.acc * 1024 / ncore / 1024 * 1024

/-- Is a card refused on core `gcore` of a gang (R222)? `only`: it is read by MEPI. -/
def cardBad (m : List Byte) (h : Header) (ncore gcore : Nat) (only : Bool) : Bool :=
  let c := cardOf m
  let p := accPart h ncore
  c.loopBad m || !pairOk c.a.fmt c.b.fmt || c.a.bad false c.m c.k h.scratch (c.span Level.a) ||
  c.b.bad true c.n c.k h.scratch (c.span Level.b) || c.ld < 16 * c.tn || c.base < gcore * p || c.base + c.regionLen > (gcore + 1) * p ||
  ((c.epi || only) && c.epiBad m)

end Sys2Proof.Machine
end

