-- ==== Sys2Proof/Machine/Tiles.lean ====
section
/-!
DEFINITION. What a matrix job reads, computes and stores: operand rows (R96, R100, R103 to R105, R215 to R217), a chunk applied to a
tile (R113), the ZERO step (R214), and the tiles of an epilogue (R97, R98, R220, R226).
-/
namespace Sys2Proof.Machine

/-! ## Reads of the engine (R131, R216) -/

/-- Why a read of the engine does not give its bytes now. -/
inductive OpStop where
  /-- A scratchpad line is not present. -/
  | absent
  | fault (f : Failure)
deriving DecidableEq, Repr

/-- A read of the engine: the state changes as translations are made. -/
abbrev Rd (α : Type) : Type := ExceptT OpStop (StateM State) α

/-- A page as an engine reads and writes it: through the die's L2, and never through an L1 (R216). -/
def Place.viaL2 (p : Place) : Place :=
  match p with
  | .global page o c l => .global { page with clvl := if page.clvl = 2 then 2 else 1 } o c l
  | q => q

/-- Is the line of a place absent in the gang's scratchpad (R183)? -/
def State.placeAbsent (s : State) (gang : Nat) (p : Place) : Bool :=
  match p with
  | .scratch off => (s.gang gang).absent.any fun a => a.line = off / 128
  | .global _ _ _ _ => false

/-- How the engine reads (R216, R220). -/
inductive Fetch where
  /-- A scale or bias vector. -/
  | plain
  /-- A SRC 0 operand, by the tile fetch unit, which pins each line. -/
  | tile
  /-- A SRC 1 operand, which waits for each line as LDP does. -/
  | scratch
deriving DecidableEq, Repr

/-- How an operand is read. -/
def Operand.via (o : Operand) : Fetch := if o.scr then .scratch else .tile

/-- The tile fetch unit pins the line of a place (R216, R284). -/
def State.pinPlace (s : State) (core : Nat) (v : Fetch) (p : Place) : State :=
  match v, p with
  | .tile, .global page _ _ _ => s.pinLine (dieOf core) (lineOf page.pa)
  | _, _ => s

/-- `n` bytes of one line, and their poison (R216). -/
def rdPiece (w : Who) (via : Fetch) (va : Word) (n : Nat) : Rd (Nat × Bool) :=
  ExceptT.mk fun s =>
    match checkAccess s w .load va n 1 with
    | (.error f, s) => (.error (.fault f), s)
    | (.ok p, s) =>
      if via == .scratch && s.placeAbsent w.gang p then (.error .absent, s)
      else
        let (v, bad, s) := readPlace (s.pinPlace w.core via p) w p.viaL2 va n
        (.ok (v, bad), s)

/-- Up to 128 bytes, which may cross one line boundary. -/
def rdBytes (w : Who) (via : Fetch) (va : Word) (n : Nat) : Rd (Nat × Bool) := do
  let k := min n (128 - va.toNat % 128)
  let (x, p) ← rdPiece w via va k
  if k = n then pure (x, p)
  else
    let (y, q) ← rdPiece w via (va + BitVec.ofNat 64 k) (n - k)
    pure (x + y * 2 ^ (8 * k), p || q)

/-! ## Operand rows -/

/-- What the elements of an operand depend on: who reads, the codebook as it was when the job was issued (R101), and K. -/
structure OpEnv where
  who : Who
  cb : List Byte
  k : Nat
deriving DecidableEq, Repr

/-- Part of an operand row: values in order of k, its poison, and the bad blocks that start in it (R104). -/
structure RowPart where
  vals : List Num
  poison : Bool
  bad : Nat
deriving DecidableEq, Repr

/-- First byte of a row under KIN, or of the operand under KOUT. -/
def Operand.rowAt (o : Operand) (off : Word) (r : Nat) : Word := o.base + off + BitVec.ofNat 64 (r * o.stride)

/-- The code of element (r, k): bits of the packed row under KIN, or an element under KOUT (R93, R216). -/
def Operand.code (o : Operand) (env : OpEnv) (off : Word) (r k : Nat) : Rd (Nat × Bool) := do
  let w := fmtBits o.fmt
  if o.kout then
    rdBytes env.who o.via (o.base + off + BitVec.ofNat 64 (k * o.stride + r * o.ebytes)) (w / 8)
  else
    let bit := k * w
    let n := (bit % 8 + w + 7) / 8
    let (x, p) ← rdBytes env.who o.via (o.rowAt off r + BitVec.ofNat 64 (bit / 8)) n
    pure ((x >>> (bit % 8)) % 2 ^ w, p)

/-- The value of element (r, k) through the window map (R217); none in the padding. -/
def Operand.windowAddr (o : Operand) (off : Word) (m k : Nat) (ebytes : Nat → Nat) : Option Word :=
  let oy := m / o.ow
  let ox := m % o.ow
  let c := k % o.ch
  let t := k / o.ch
  let kx := t % o.kw
  let ky := t / o.kw
  let y : Int := (oy * o.sy : Nat) - (o.py : Int) + (ky * o.dy : Nat)
  let x : Int := (ox * o.sx : Nat) - (o.px : Int) + (kx * o.dx : Nat)
  if o.kh ≤ ky || y < 0 || (o.ih : Int) ≤ y || x < 0 || (o.iw : Int) ≤ x then none
  else some (o.base + off + BitVec.ofNat 64 (y.toNat * o.rowstr + x.toNat * o.pixstr + ebytes c))

/-- Element (m, k) of operand A under WIN (R217). The weights of a VQ2 image are taken from the index that holds channel c; a DB image
has free values (log 16). -/
def Operand.windowElem (o : Operand) (env : OpEnv) (off : Word) (m k : Nat) : Rd (Num × Bool) := do
  if o.fmt = fVQ2 then
    match o.windowAddr off m k fun c => c / 8 * 2 with
    | none => pure (.fin false 0 0, false)
    | some a =>
      let (x, p) ← rdBytes env.who o.via a 2
      pure (vq2Num env.cb x (k % o.ch % 8), p)
  else
    match o.windowAddr off m k fun c => c * o.ebytes with
    | none => pure (.fin false 0 0, false)
    | some a =>
      if o.fmt = fDB then pure (decodeFp fmtS (Config.windowBlock a % 2 ^ 32), false)
      else
        let (x, p) ← rdBytes env.who o.via a o.ebytes
        pure (elemNum o.fmt x, p)

/-- The value of element (r, k) times its MX scale, and whether that scale poisons it (R102, R103, R216). -/
def Operand.scaled (o : Operand) (env : OpEnv) (r k : Nat) (x : Num) : Rd (Num × Bool) := do
  if !o.mx then pure (x, false)
  else
    let (e, p) ← rdBytes env.who o.via (BitVec.ofNat 64 (o.sbase + r * o.sstr + k / 32)) 1
    pure (scaleNum x e, p || e = 0xFF)

/-- Element (r, k) of an operand whose elements stand alone. -/
def Operand.plainElem (o : Operand) (env : OpEnv) (off : Word) (r k : Nat) : Rd (Num × Bool) := do
  if o.fmt = fVQ2 then
    let (x, p) ← rdBytes env.who o.via (o.rowAt off r + BitVec.ofNat 64 (k / 8 * 2)) 2
    let (v, q) ← o.scaled env r k (vq2Num env.cb x (k % 8))
    pure (v, p || q)
  else
    let (x, p) ← o.code env off r k
    let (v, q) ← o.scaled env r k (elemNum o.fmt x)
    pure (v, p || q)

/-- Positions of a list that hold the escape code (R96). -/
def escapes (codes : List Nat) : List Nat := (codes.zipIdx.filter fun c => c.1 = 8).map Prod.snd

/-- Elements of an E2M1 row from `k0` to `k1` − 1, which lie in one group (R96): escapes take the side list's entries in order; a ninth
poisons the group. -/
def Operand.groupElems (o : Operand) (env : OpEnv) (off : Word) (r k0 k1 : Nat) : Rd (List (Num × Bool)) := do
  let g := k0 / 64
  let last := min env.k (64 * g + 64)
  let codes ← (List.range' (64 * g) (last - 64 * g)).mapM fun k => o.code env off r k
  let es := escapes (codes.map Prod.fst)
  let full := es.length > 8
  (List.range' k0 (k1 - k0)).mapM fun k => do
    let (c, p) := codes.getD (k - 64 * g) (0, false)
    let (x, q) ← if c ≠ 8 || full then pure (elemNum fE2M1 c, false)
      else do
        let (h, q) ← rdBytes env.who o.via
          (BitVec.ofNat 64 (o.xbase + r * o.xstr + 16 * g + 2 * (es.findIdx fun e => e = k - 64 * g))) 2
        pure (decodeFp fmtH h, q)
    let (v, z) ← o.scaled env r k x
    pure (v, p || q || z || full)

/-- The described block that holds position `k` of a row (R104): its number, its first position, its FMT byte, and the poison of the
headers read. The first number bounds the blocks. -/
def dbFind (env : OpEnv) (via : Fetch) (row : Word) (k : Nat) : Nat → Nat → Nat → Bool → Rd (Nat × Nat × Nat × Bool)
  | 0, blk, start, p => pure (blk, start, 0xFF, p)
  | fuel + 1, blk, start, p => do
    let (f, q) ← rdBytes env.who via (row + BitVec.ofNat 64 (64 * blk)) 1
    let n := (dbCount f).getD (max 32 (Config.blockSpan f))
    if k < start + n then pure (blk, start, f, p || q)
    else dbFind env via row k fuel (blk + 1) (start + n) (p || q)

/-- Element (r, k) of a DB operand, its poison, and whether it is the first of a bad block (R104). Under SCALE = MX the scale of R103 applies
beside the block's own (log 96). -/
def Operand.blockElem (o : Operand) (env : OpEnv) (off : Word) (r k : Nat) : Rd (Num × Bool × Bool) := do
  let row := o.rowAt off r
  let (blk, start, f, p) ← dbFind env o.via row k (env.k + 1) 0 0 false
  let at_ (j : Nat) : Word := row + BitVec.ofNat 64 (64 * blk + j)
  match dbCount f with
  | none => pure (.fin false 0 0, true, f ≠ 0xFF && k = start)
  | some n =>
    let w := fmtBits f
    let (e, q) ← rdBytes env.who o.via (at_ 1) 1
    let i := k - start
    let code (j : Nat) : Rd (Nat × Bool) := do
      let (x, z) ← rdBytes env.who o.via (at_ (2 + j * w / 8)) ((j * w % 8 + w + 7) / 8)
      pure ((x >>> (j * w % 8)) % 2 ^ w, z)
    let (x, z) ←
      if f = fVQ2 then do
        let (y, z) ← code (i / 8)
        pure (vq2Num env.cb y (i % 8), z)
      else if f = fE2M1 then do
        let codes ← (List.range (min n (env.k - start))).mapM code
        let es := escapes (codes.map Prod.fst)
        let (c, z) := codes.getD i (0, false)
        if es.length > 7 then pure (elemNum f c, true)
        else if c ≠ 8 then pure (elemNum f c, z)
        else do
          let (h, y) ← rdBytes env.who o.via (at_ (50 + 2 * (es.findIdx fun j => j = i))) 2
          pure (decodeFp fmtH h, z || y)
      else do
        let (c, z) ← code i
        pure (elemNum f c, z)
    let (x, y) ← o.scaled env r k (scaleNum x e)
    pure (x, p || q || z || y || e = 0xFF, false)

/-- Elements of row `r` from `k0` to `k1` − 1, which lie in one chunk. -/
def Operand.rowPart (o : Operand) (env : OpEnv) (off : Word) (k0 k1 r : Nat) : Rd RowPart := do
  let ks := List.range' k0 (k1 - k0)
  if o.win then
    let es ← ks.mapM fun k => o.windowElem env off r k
    pure ⟨es.map Prod.fst, es.any Prod.snd, 0⟩
  else if o.fmt = fDB then
    let es ← ks.mapM fun k => o.blockElem env off r k
    pure ⟨es.map Prod.fst, es.any fun e => e.2.1, (es.filter fun e => e.2.2).length⟩
  else if o.fmt = fE2M1 then
    let es ← o.groupElems env off r k0 k1
    pure ⟨es.map Prod.fst, es.any Prod.snd, 0⟩
  else
    let es ← ks.mapM fun k => o.plainElem env off r k
    pure ⟨es.map Prod.fst, es.any Prod.snd, 0⟩

/-! ## The accumulator (R113, R214, R229) -/

/-- The 8-byte words of accumulator space that `n` bytes from `a` occupy. -/
def accWords (a n : Nat) : List Nat := List.range' (a / 8) ((a + n + 7) / 8 - a / 8)

/-- Mark words of a gang's accumulator space as poisoned. -/
def Gang.poisonAcc (g : Gang) (ws : List Nat) : Gang := { g with accPoison := ws.foldl (fun l w => insertNat w l) g.accPoison }

/-- Write bytes of accumulator space and clear the poison of their words (R229). -/
def Gang.clearAcc (g : Gang) (a : Nat) (bs : List Byte) : Gang :=
  { g with acc := writeBytes g.acc a bs, accPoison := g.accPoison.filter fun w => w < a / 8 || (a + bs.length + 7) / 8 ≤ w }

/-- The ZERO step (R214). -/
def zeroStep (c : Card) (g : Gang) : Gang :=
  (List.range c.m).foldl (fun g m => g.clearAcc (c.elemAt m 0) (List.replicate (c.n * c.acc.bytes) 0)) g

/-- Rows and columns of tile (mt, nt). -/
def Card.rows (c : Card) (mt : Nat) : List Nat := List.range' (16 * mt) (min 16 (c.m - 16 * mt))
/-- Columns of a tile. -/
def Card.cols (c : Card) (nt : Nat) : List Nat := List.range' (16 * nt) (min 16 (c.n - 16 * nt))

/-- The words that an accumulator tile occupies (R105). -/
def Card.tileWords (c : Card) (mt nt : Nat) : List Nat :=
  (List.range 16).flatMap fun i => accWords (c.elemAt (16 * mt + i) (16 * nt)) (16 * c.acc.bytes)

/-- Does some word of an element m < M, n < N of a tile carry poison (R105)? -/
def Card.tilePoisoned (c : Card) (g : Gang) (mt nt : Nat) : Bool :=
  (c.rows mt).any fun m => (accWords (c.elemAt m (16 * nt)) ((c.cols nt).length * c.acc.bytes)).any g.accPoison.contains

/-- A chunk applied to the elements of a tile: the gang with the new sums, and whether an S32 sum wrapped. -/
def applyTile (c : Card) (mt nt : Nat) (as bs : List RowPart) (g : Gang) : Gang × Bool :=
  let n := c.acc.bytes
  ((c.rows mt).zip as).foldl (fun r row =>
    let at_ := c.elemAt row.1 (16 * nt)
    let cells := r.1.acc.filter fun x => at_ ≤ x.1 && x.1 < at_ + 16 * n
    let out := bs.zipIdx.map fun col => chunkSum c.acc (readNat cells (at_ + col.2 * n) n) row.2.vals col.1.vals
    ({ r.1 with acc := writeBytes r.1.acc at_ (out.flatMap fun x => toBytes n x.1) }, r.2 || out.any Prod.snd)) (g, false)

/-- Who a job acts as (R180). -/
def State.jobWho (s : State) (core : Nat) (j : Job) : Who :=
  { gang := j.gang, core := core, asid := (s.gang j.gang).asid, sup := j.sup }

/-- A saturating 16-bit count (R223). -/
def sat16 (n : Nat) : Nat := min n 0xFFFF

/-- Chunk (mt, nt, ck) of a job (R113): operands are read first, then the tile is updated, so that a chunk is applied whole or not at
all. A tile that already counts as poisoned, and one that takes a poisoned operand, is poisoned whole (R105). R104 does not say how often a
bad block that several tiles read is counted: it is counted once in each batch iteration, by the chunk that reads its first position in
the first tile along the other operand (log 91). -/
def Job.chunk (j : Job) (core mt nt ck : Nat) : Rd Job := do
  let c := cardOf j.card
  let s ← get
  let env : OpEnv := { who := s.jobWho core j, cb := j.codebook.getD [], k := c.k }
  let off (f : Level → Int) : Word := BitVec.ofInt 64 (c.offset f j.iter)
  let k0 := ck * c.kc
  let k1 := min c.k (k0 + c.kc)
  let as ← (c.rows mt).mapM fun r => c.a.rowPart env (off Level.a) k0 k1 r
  let bs ← (c.cols nt).mapM fun r => c.b.rowPart env (off Level.b) k0 k1 r
  let s ← get
  let bad := as.any (fun p => p.poison) || bs.any (fun p => p.poison) || c.tilePoisoned (s.gang j.gang) mt nt
  let blocks := (if nt = 0 then as.foldl (fun n p => n + p.bad) 0 else 0) + (if mt = 0 then bs.foldl (fun n p => n + p.bad) 0 else 0)
  let (g, wrapped) := applyTile c mt nt as bs (s.gang j.gang)
  set ((s.modGang j.gang fun _ => if bad then g.poisonAcc (c.tileWords mt nt) else g).unpin (dieOf core))
  pure { j with wrapped := j.wrapped || wrapped, poisoned := j.poisoned || bad, badblk := sat16 (j.badblk + blocks) }

/-! ## Tiles of an epilogue (R97, R98, R220, R226) -/

/-- The bytes of a memory from an address, unlisted bytes included. The list holds no earlier address. -/
def spread : List Host.Cell → Nat → Nat → List Byte
  | _, _, 0 => []
  | [], a, n + 1 => unlisted :: spread [] (a + 1) n
  | (k, b) :: rest, a, n + 1 => if k = a then b :: spread rest (a + 1) n else unlisted :: spread ((k, b) :: rest) (a + 1) n

/-- The staging copy of a job's region, and the tiles that are poisoned (R224). -/
def stagingOf (c : Card) (g : Gang) : List Byte × List Nat :=
  let cells := g.acc.filter fun x => c.base ≤ x.1 && x.1 < c.base + c.regionLen
  (spread cells c.base c.regionLen, (List.range (c.tm * c.tn)).filter fun t => c.tilePoisoned g (t / c.tn) (t % c.tn))

/-- Max and Min of R220, −0 below +0. -/
def numMax (a b : Num) : Num :=
  match cmpNum a b with
  | .lt => b
  | .gt => a
  | .eq => if numSign a then b else a
/-- The smaller of two values. -/
def numMin (a b : Num) : Num :=
  match cmpNum a b with
  | .lt => a
  | .gt => b
  | .eq => if numSign a then a else b

/-- Activation (R220). -/
def Epi.activate (e : Epi) (v : Num) : Num :=
  if v.isNaN then v
  else if e.act = 1 then numMax v (.fin false 0 0)
  else if e.act = 2 then numMin (numMax v (decodeFp fmtS e.clo)) (decodeFp fmtS e.chi)
  else v

/-- An FP32 of a scale or bias array. -/
def rdScale (w : Who) (a : Word) : Rd (Num × Bool) := do
  let (x, p) ← rdBytes w .plain a 4
  pure (decodeFp fmtS x, p)

/-- The value of output element (m, n) before its conversion, and whether a scale or bias read met poison (R220). -/
def Epi.value (e : Epi) (w : Who) (v : Num) (m n : Nat) : Rd (Num × Bool) := do
  let rm : BitVec 3 := BitVec.ofNat 3 e.orm
  let (v, p) ← if e.scl = 1 then pure (mulExact v (decodeFp fmtS (e.svec.toNat % 2 ^ 32)), false)
    else if e.scl = 2 then do
      let (x, p) ← rdScale w (e.svec + BitVec.ofNat 64 (4 * n))
      pure (mulExact v x, p)
    else pure (v, false)
  let (v, q) ← if e.bias = 0 then pure (v, false)
    else do
      let (x, q) ← rdScale w (e.bvec + BitVec.ofNat 64 (4 * (if e.bias = 1 then n else m)))
      let z := if numSign v = numSign x then numSign v else rm = 4
      let bothZero : Bool := match v, x with
        | .fin _ a _, .fin _ b _ => a == 0 && b == 0
        | _, _ => false
      pure (sumExact (if bothZero then z else rm = 4) [v, x], q)
  pure (e.activate v, p || q)

/-- The staged value of element (m, n). -/
def Card.staged (c : Card) (bytes : List Byte) (m n : Nat) : Num :=
  c.acc.num (ofBytes ((bytes.drop ((m * c.ld + n) * c.acc.bytes)).take c.acc.bytes))

/-- Output element `i` of destination row `o`: a row of the output under ROWMAJ, a column under COLMAJ. -/
def Card.outValue (c : Card) (w : Who) (bytes : List Byte) (o i : Nat) : Rd (Num × Bool) :=
  if c.e.colmaj then c.e.value w (c.staged bytes i o) i o else c.e.value w (c.staged bytes o i) o i

/-- Destination rows of a tile, and its elements along them. -/
def Card.outRows (c : Card) (mt nt : Nat) : List Nat × List Nat :=
  if c.e.colmaj then (c.cols nt, c.rows mt) else (c.rows mt, c.cols nt)

/-- Elements of a whole destination row. -/
def Card.outLen (c : Card) : Nat := if c.e.colmaj then c.m else c.n

/-- The tile that holds element `i` of destination row `o`. -/
def Card.outTile (c : Card) (o i : Nat) : Nat := if c.e.colmaj then i / 16 * c.tn + o / 16 else o / 16 * c.tn + i / 16

/-- Is a tile poisoned before its conversion: in staging, or by a scale or bias that it reads (R105, R220)? -/
def Card.tileBad (c : Card) (w : Who) (st : List Byte × List Nat) (t : Nat) : Rd Bool := do
  if st.2.contains t then pure true
  else
    let (os, is) := c.outRows (t / c.tn) (t % c.tn)
    let ps ← os.mapM fun o => do
      let xs ← is.mapM fun i => c.outValue w st.1 o i
      pure (xs.any Prod.snd)
    pure (ps.any id)

/-- Packed codes of `w` bits (R93); bits past the last are 0. -/
def packCodes (w : Nat) (cs : List Nat) : List Byte :=
  toBytes ((cs.length * w + 7) / 8) (cs.foldr (fun c n => n * 2 ^ w + c) 0)

/-- Side-list entries that earlier tiles of a group take in destination row `o`, for the group of element `i0` (R97; a poisoned tile
takes none: log 17; one that only its own conversion poisons keeps those it took: log 93). -/
def Card.entriesBefore (c : Card) (w : Who) (st : List Byte × List Nat) (o i0 : Nat) : Rd Nat := do
  let first := i0 / 64 * 64
  let ns ← (List.range ((i0 - first) / 16)).mapM fun k => do
    let bad ← c.tileBad w st (c.outTile o (first + 16 * k))
    if bad then pure 0
    else
      let xs ← (List.range' (first + 16 * k) 16).mapM fun i => c.outValue w st.1 o i
      pure (xs.filter fun x => match toE2M1 (BitVec.ofNat 3 c.e.orm) x.1 with
        | .outlier _ _ => true
        | .code _ => false).length
  pure (ns.foldl (· + ·) 0)

/-- The codes of one destination row of a tile, the side-list entries that it takes, the first entry it leaves, and its poison (R97 to
R99, R220). A group that R97 poisons poisons the tile that held the value without an entry, and no other tile of the group (log 94). -/
def Card.rowCodes (c : Card) (vals : List Num) (taken : Nat) : List Nat × List Nat × Nat × Bool :=
  let rm : BitVec 3 := BitVec.ofNat 3 c.e.orm
  vals.foldl (fun r v =>
    let (codes, es, n, p) := r
    if c.e.ofmt ≠ fE2M1 then
      let (x, q) := convertOut c.e.ofmt rm v
      (codes ++ [x], es, n, p || q)
    else
      match toE2M1 rm v with
      | .code x => (codes ++ [x], es, n, p)
      | .outlier h y =>
        if n < 8 then (codes ++ [8], es ++ [h], n + 1, p)
        else
          let (x, q) := e2m1Full y
          (codes ++ [x], es, n, p || q)) ([], [], taken, false)

/-- What a tile stores: runs of bytes by address, and whether they are poisoned (R105, R220). A 6-bit row that ends inside a 3-byte group stores
the bytes that hold its elements and no others (R93; log 92). -/
def Card.tileStores (c : Card) (w : Who) (st : List Byte × List Nat) (off : Int) (t : Nat) : Rd (List (Word × List Byte) × Bool) := do
  let (os, is) := c.outRows (t / c.tn) (t % c.tn)
  let i0 := is.headD 0
  let bad ← c.tileBad w st t
  let at_ (base : Word) (n : Nat) : Word := base + BitVec.ofInt 64 off + BitVec.ofNat 64 n
  let rows ← os.mapM fun o => do
    let xs ← is.mapM fun i => c.outValue w st.1 o i
    let taken ← if c.e.ofmt = fE2M1 then c.entriesBefore w st o i0 else pure 0
    let (codes, es, n, q) := if bad then (is.map fun _ => 0, [], taken, true) else c.rowCodes (xs.map Prod.fst) taken
    let last := i0 + is.length = min c.outLen (i0 / 64 * 64 + 64)
    let side := if c.e.ofmt ≠ fE2M1 then [] else
      let zeros := if last then List.replicate (8 - n) 0 else []
      [(at_ c.e.exbase (o * c.e.exstr + 16 * (i0 / 64) + 2 * taken), (es ++ zeros).flatMap (toBytes 2))]
    pure ((at_ c.e.dbase (o * c.e.dstride + i0 * fmtBits c.e.ofmt / 8), packCodes (fmtBits c.e.ofmt) codes) :: side, q)
  let poison := rows.any Prod.snd
  let runs := (rows.flatMap Prod.fst).filter fun r => !r.2.isEmpty
  pure (if poison then runs.map fun r => (r.1, r.2.map fun _ => 0) else runs, poison)

/-- The pieces of a run that lie in one naturally aligned 8 bytes (R116). The first number bounds them. -/
def pieces8 : Nat → Word → List Byte → List (Word × List Byte)
  | 0, _, _ => []
  | _, _, [] => []
  | k + 1, a, bs =>
    let n := 8 - a.toNat % 8
    (a, bs.take n) :: pieces8 k (a + BitVec.ofNat 64 n) (bs.drop n)

/-- Mark the memory line or scratchpad line of an engine's store as poisoned (R105). -/
def State.poisonStore (s : State) (w : Who) (p : Place) : State :=
  match p with
  | .scratch off => s.modGang w.gang fun g => { g with scratchPoison := insertNat (off / 128) g.scratchPoison }
  | .global page _ _ _ =>
    (s.poisonLine (lineOf page.pa)).modMember (lineOf page.pa) (.die (dieOf w.core)) id fun e => { e with poison := true }

/-- Does an engine's store find its page's shadow not yet opened (R294)? -/
def State.opensShadow (s : State) (asid : BitVec 12) (va : Word) : Bool :=
  match walk s asid va with
  | .ok l => pteShd l.pte && !pteSfl l.pte
  | .error _ => false

/-- One store of an epilogue: through the die's L2, or into the shadow (R219, R226). -/
def jobStore (w : Who) (shadow poison : Bool) (s : State) (va : Word) (bs : List Byte) : Except Failure Unit × State :=
  let n := bs.length
  match checkAccess s w (if shadow then .shadow else .store) va n 1 with
  | (.error f, s) => (.error f, s)
  | (.ok p, s) =>
    let (r, s) := if shadow then shadowStore s w va n (ofBytes bs) else (.ok (), writePlace s w p.viaL2 n (ofBytes bs))
    match r with
    | .error f => (.error f, s)
    | .ok _ => (.ok (), if poison then s.poisonStore w p else s)

/-- Store runs in order up to the first fault, with the buffers whose shadow was opened. -/
def jobStores (w : Who) (shadow poison : Bool) : List (Word × List Byte) → State → Option Failure × List Word × State
  | [], s => (none, [], s)
  | (va, bs) :: rest, s =>
    let opened := if shadow && s.opensShadow w.asid va then (bufferBase s w.asid va).toList else []
    match jobStore w shadow poison s va bs with
    | (.error f, s) => (some f, [], s)
    | (.ok _, s) =>
      let (r, os, s) := jobStores w shadow poison rest s
      (r, opened ++ os, s)

end Sys2Proof.Machine
end

