-- ==== Sys2Proof/Machine/Matrix.lean ====
section
/-!
DEFINITION. Matrix jobs and the MAT family: submission and its order (R221, R224), chunks and epilogues as events of the engine (R214,
R226), status, waiting and cancelling (R223 to R228), accumulator access and the codebook (R229, R230).
-/
namespace Sys2Proof.Machine

/-! ## Jobs of an engine -/

/-- Has the job ended (R223)? -/
def Job.ended (j : Job) : Bool := j.st == .done || j.st == .cancelled || j.st == .faulted

/-- Is the job queued or running (R221)? -/
def Job.waiting (j : Job) : Bool := j.st == .queued || j.st == .running

/-- Jobs that an engine holds queued or running (R221). -/
def State.engineLoad (s : State) (core : Nat) : Nat := ((s.core core).jobs.filter Job.waiting).length

/-- Change the job at an index of a core's list. -/
def State.setJob (s : State) (core idx : Nat) (j : Job) : State := s.modCore core fun c => { c with jobs := c.jobs.set idx j }

/-- The core and index of the job that a token names in a gang (R221). -/
def State.jobOf (s : State) (gang : Nat) (tok : Word) : Option (Nat × Nat) :=
  let g := s.gang gang
  let gc := wbits tok 1 0
  if wbits tok 31 2 ≠ 0 || gc ≥ g.ncore then none
  else
    let core := g.core0.getD 0 + gc
    ((s.core core).jobs.findIdx? fun j => j.gang == gang && j.seq.toNat == wbits tok 63 32).map fun i => (core, i)

/-- A token (R221). -/
def jobToken (seq : BitVec 32) (gcore : Nat) : Word := BitVec.ofNat 64 (seq.toNat * 2 ^ 32 + gcore)

/-- Code of a state (R223). -/
def JobState.code : JobState → Nat
  | .queued => 0
  | .running => 1
  | .epilogue => 2
  | .held => 3
  | .done => 4
  | .cancelled => 5
  | .faulted => 6

/-- The status word of a job (R223). -/
def Job.status (j : Job) : Word :=
  BitVec.ofNat 64 (j.badblk * 2 ^ 48 + j.batch * 2 ^ 32 + j.stored.length * 2 ^ 16 + j.st.code * 2 ^ 8 +
    (if j.badblk ≠ 0 then 8 else 0) + (if j.wrapped then 4 else 0) + (if j.poisoned then 2 else 0) + (if j.ended then 1 else 0))

/-- The status word that a token gives: UNKNOWN when its job was not issued to this gang (R223, R224). -/
def State.tokenStatus (s : State) (gang : Nat) (tok : Word) : Word :=
  match s.jobOf gang tok with
  | some (core, i) => (((s.core core).jobs[i]?).map Job.status).getD 0x700
  | none => 0x700

/-- The job that a token names. -/
def State.jobAt (s : State) (gang : Nat) (tok : Word) : Option Job :=
  (s.jobOf gang tok).bind fun p => (s.core p.1).jobs[p.2]?

/-- Does the job still hold its accumulator region: it has chunks to apply, or its last value is not yet in staging (R224)? -/
def Job.owns (j : Job) : Bool :=
  if j.ended then false
  else if j.waiting then true
  else (cardOf j.card).iters > j.iter + 1 || j.staging.isNone

/-- Does a job touch some of the accumulator bytes `lo` to `hi` − 1? -/
def Job.touches (j : Job) (lo hi : Nat) : Bool :=
  let c := cardOf j.card
  (List.range c.m).any fun m => c.elemAt m 0 < hi && lo < c.elemAt m 0 + c.n * c.acc.bytes

/-- Do two jobs of one gang touch a common accumulator byte? -/
def Job.meets (j k : Job) : Bool :=
  let c := cardOf j.card
  j.gang == k.gang && (List.range c.m).any fun m => k.touches (c.elemAt m 0) (c.elemAt m 0 + c.n * c.acc.bytes)

/-- Does a job have an epilogue? -/
def Job.stores (j : Job) : Bool := j.only || (cardOf j.card).epi

/-- The virtual bytes that a job's epilogue may store to: first address and the first past, of its outputs and of its side lists, over all
iterations (R219, R226). -/
def Card.destRanges (c : Card) : List (Int × Int) :=
  let span := c.span Level.d
  let outer := if c.e.colmaj then c.n else c.m
  let inner := if c.e.colmaj then c.m else c.n
  let lists := (c.e.exbase.toNat : Int)
  c.reach :: (if c.e.ofmt = fE2M1 then
    [(lists + span.1, lists + span.2 + ((outer - 1) * c.e.exstr + 16 * ((inner + 63) / 64) : Nat))] else [])

/-- Where a job's epilogue may store: extents of physical memory, and of its gang's scratchpad, which count from 2^64 on. -/
def State.destExtents (s : State) (j : Job) : List (Nat × Nat) :=
  let c := cardOf j.card
  c.destRanges.flatMap fun r =>
    let lo := r.1.toNat
    let hi := r.2.toNat
    let base := 2 ^ 64 * (j.gang + 1)
    (if scratchBase < hi then [(base + max lo scratchBase, base + hi)] else []) ++
      extentsFrom s (s.gang j.gang).asid c.e.shadow (2 ^ 44) (BitVec.ofNat 64 lo) (min hi scratchBase)

/-- May the epilogues of two jobs store to a common byte (R224)? -/
def State.destMeets (s : State) (j k : Job) : Bool :=
  let b := s.destExtents k
  (s.destExtents j).any fun x => b.any fun y => x.1 < y.2 && y.1 < x.2

/-- The jobs of a core before an index. -/
def State.earlier (s : State) (core idx : Nat) : List Job := (s.core core).jobs.take idx

/-- May the job use its accumulator region (R224), and is it among the 16 that the engine holds (R221)? -/
def State.jobFree (s : State) (core idx : Nat) (j : Job) : Bool :=
  !((s.earlier core idx).any fun k => k.owns && j.meets k) && ((s.earlier core idx).filter Job.waiting).length < 16

/-! ## Submission (R221, R222) -/

/-- Read a card as a 256-byte load of a lane, with an alignment of 64 (R221). -/
def readCard (s : State) (w : Who) (va : Word) : Except Failure (List Byte) × State := readWhole s w va 64 4

/-- The core's codebook (R101). -/
def Core.codebookBytes (c : Core) : List Byte := readBytes c.codebook 0 2048

/-- Put a job of a card at the end of its core's engine, with the codebook that it reads: its token, and the state with it (R101, R221). -/
def State.addJob (s : State) (w : Who) (card book : List Byte) (only : Bool) : Word × State :=
  let g := s.gang w.gang
  let gc := w.core - g.core0.getD 0
  let n := nextPubSeq (g.jobSeq.getD gc 0)
  let c := cardOf card
  let j : Job :=
    { gang := w.gang, seq := n, gcore := gc, stamp := s.time, sup := w.sup, card := card, only := only, st := .queued, badblk := 0, batch := 0,
      wrapped := false, poisoned := false, iter := 0, next := 0, stuck := false, stored := [], tried := [], staging := none,
      codebook := if c.a.fmt = fVQ2 || c.b.fmt = fVQ2 || c.a.fmt = fDB || c.b.fmt = fDB then some book else none,
      fault := none, shadows := [], opened := [] }
  let s := s.modGang w.gang fun g => { g with jobSeq := g.jobSeq.set gc n }
  (jobToken n gc, s.modCore w.core fun y => { y with jobs := y.jobs ++ [j] })

/-- The cards that the taking lanes of an MMA or MEPI read as it issues, by lane; a lane whose card fails has none (R221). -/
def readCards (va : Lane → Word) (key : Nat) : List Lane → State → List (Nat × List Byte) × State
  | [], s => ([], s)
  | l :: ls, s =>
    match readCard s (s.whoAt key l) (va l) with
    | (.error _, s) => readCards va key ls s
    | (.ok card, s) =>
      let (cs, s) := readCards va key ls s
      ((l.val, card) :: cs, s)

/-- One lane of a submission: of the card that it read at the issue, or reads now, with the codebook as it stood then. A lane that finds 16
jobs queued or running waits (R101, R221). -/
def submitLane (only : Bool) (va : Word) (e : Entry) (key : Nat) (l : Lane) (s : State) : LaneOut × State :=
  let w := s.whoAt key l
  let (r, s) : Except Failure (List Byte) × State := match e.cards.find? fun c => c.1 = l.val with
    | some c => (.ok c.2, s)
    | none => readCard s w va
  match r with
  | .error f => (.failed f, s)
  | .ok card =>
    let g := s.gang w.gang
    if cardBad card (s.hdrOf key) g.ncore (w.core - g.core0.getD 0) only then (.failed ⟨cCard, va⟩, s)
    else if s.engineLoad w.core ≥ 16 then (.wait .engine, s)
    else
      let (t, s) := s.addJob w card (e.book.getD (s.core w.core).codebookBytes) only
      (.done t 0, s)

/-- The lanes of MMA (R221). -/
def mmaFn : LaneFn := fun e key l => submitLane false (e.op0.at l) e key l

/-- The issue of MMA or MEPI: the lanes of `reads` read their cards, a GANG-scope release that the engine acquires is made (R131), and the
lanes submit. -/
def submitIssue (f : LaneFn) (reads : Entry → Mask) (d : BitVec 6) (tag : Lanes Word → Tag) (x : Ctx) (s : State) : State :=
  let e := x.entry (s.crew x.key)
  let (cards, s) := readCards (fun l => e.op0.at l) x.key (maskLanes (reads e)) s
  let s := if x.take = 0 then s else s.eagerRelease (s.crew x.key).core
  entryIssue { e with cards := cards, book := some (s.core (s.crew x.key).core).codebookBytes } f noPre (.one d) tag x s

/-- The tag of a token or a status by the row of one source (R18; log 13). -/
def tokenTag (s : State) (x : Ctx) (a : BitVec 6) : Lanes Word → Tag := fitTag (ruleTag .lanewise [(s.crew x.key).srcShape kx a])

/-- MMA: one job for each taking lane (R131, R221). -/
def execMma (g : BitVec 3) (d a : BitVec 6) (s : State) : Host.Outcome State Fault Refusal :=
  issue (.mma g d a) s fun x s =>
    submitIssue mmaFn Entry.take d (tokenTag s x a) x s

/-- Retry a HELD job: it stores from staging the tiles whose bit is 0 (R227). -/
def Job.retry (j : Job) : Job := if j.st == .held then { j with st := .epilogue, tried := [], fault := none } else j

/-- The lanes of MEPI: the epilogue of a card as a new job, or the retry of a HELD job (R227). -/
def mepiFn : LaneFn := fun e key l s =>
  let b := e.op1.at l
  if b = 0 then submitLane true (e.op0.at l) e key l s
  else
    match s.jobOf (gangOf key) b with
    | none => (.done 0 0, s)
    | some (core, i) =>
      match (s.core core).jobs[i]? with
      | some j => if j.st == .held then (.done b 0, s.setJob core i j.retry) else (.done 0 0, s)
      | none => (.done 0 0, s)

/-- MEPI (R227). -/
def execMepi (g : BitVec 3) (d a b : BitVec 6) (s : State) : Host.Outcome State Fault Refusal :=
  issue (.mepi g d a b) s fun x s =>
    let sh := [(s.crew x.key).srcShape kx a, (s.crew x.key).srcShape kx b]
    submitIssue mepiFn (fun e => maskOf fun l => inMask e.take l && e.op1.at l = 0) d (fitTag (ruleTag .lanewise sh)) x s

/-! ## Waiting, querying and cancelling (R224, R225, R227) -/

/-- Does MWAIT still wait for a token: its job has not ended and is not HELD? -/
def State.jobBusy (s : State) (gang : Nat) (tok : Word) : Bool :=
  match s.jobAt gang tok with
  | some j => !j.ended && j.st != .held
  | none => false

/-- The address that a token's job reports when it is HELD: the first destination address that it faulted on (R227). -/
def State.heldAt (s : State) (gang : Nat) (tok : Word) : Option Word :=
  (s.jobAt gang tok).bind fun j => if j.st == .held then some ((j.fault.map Prod.fst).getD 0) else none

/-- The lanes of a mask whose tokens name HELD jobs. -/
def State.heldLanes (s : State) (gang : Nat) (m : Mask) (tok : Lane → Word) : Mask :=
  maskOf fun l => inMask m l && (s.heldAt gang (tok l)).isSome

/-- MWAIT (R224, R227); a reported completion is a GANG-scope acquire of what the engine wrote (R131). -/
def execMwait (g : BitVec 3) (d a : BitVec 6) (s : State) : Host.Outcome State Fault Refusal :=
  issue (.mwait g d a) s fun x s =>
    let c := s.crew x.key
    let tok (l : Lane) : Word := c.src kx a l
    if (maskLanes x.take).any fun l => s.jobBusy x.gang (tok l) then s.waitTokens x d a .jobs
    else
      let bad := s.heldLanes x.gang x.take tok
      if bad ≠ 0 then s.trapWhole x cEpifault bad (lanes fun l => (s.heldAt x.gang (tok l)).getD 0) (allLanes 0)
      else
        let s := if x.take = 0 then s else s.eagerAcquire c.core
        s.finishStatus x d a (lanes fun l => s.tokenStatus x.gang (tok l))

/-- An MWAIT that waits goes on when every job that it names has ended or is HELD: its lanes receive their statuses, or its fragment raises
EPIFAULT at the MWAIT, with the latches that the MWAIT found (R224, R227). -/
def State.mwaitOver (s : State) (key : Nat) (w : TokenWait) : State :=
  let g := gangOf key
  let c := s.crew key
  let m := c.waiters (.jobs w)
  if (maskLanes w.take).any fun l => s.jobBusy g (w.toks.at l) then s
  else
    let bad := s.heldLanes g (w.take &&& m) fun l => w.toks.at l
    if bad = 0 then (s.eagerAcquire c.core).endTokens key (.jobs w) w (s.tokenStatus g)
    else
      let pc := ((lowest m).map fun l => (c.th l).pc).getD 0
      let s := s.setCrew key { c with latches := w.latches }
      let s := s.raise key (TrapInfo.at_ cEpifault m bad (lanes fun l => (s.heldAt g (w.toks.at l)).getD 0) pc)
      s.modCrew key fun y => { y with latches := c.latches }

/-- MQRY (R224). -/
def execMqry (g : BitVec 3) (d a : BitVec 6) (s : State) : Host.Outcome State Fault Refusal :=
  issue (.mqry g d a) s fun x s =>
    let c := s.crew x.key
    s.finishStatus x d a (lanes fun l => s.tokenStatus x.gang (c.src kx a l))

/-- Cancel the job at an index unless it has ended: it stops, its staging is freed, and the shadows it opened are discarded (R225). -/
def State.cancelJob (s : State) (core idx : Nat) : State :=
  match (s.core core).jobs[idx]? with
  | none => s
  | some j =>
    if j.ended then s
    else
      let s := s.setJob core idx { j with st := .cancelled, staging := none, stuck := false }
      j.opened.eraseDups.foldl (fun s b => s.discardShadow (s.gang j.gang).asid b) s

/-- MCAN: each taking lane's job in ascending lane order (R225). -/
def execMcan (g : BitVec 3) (d a : BitVec 6) (s : State) : Host.Outcome State Fault Refusal :=
  issue (.mcan g d a) s fun x s =>
    let c := s.crew x.key
    let (r, s) := (maskLanes x.take).foldl (fun (r : List (Lane × Word) × State) l =>
      let t := c.src kx a l
      let s := match r.2.jobOf x.gang t with
        | some (core, i) => r.2.cancelJob core i
        | none => r.2
      (r.1 ++ [(l, s.tokenStatus x.gang t)], s)) ([], s)
    s.finishStatus x d a (laneVals r)

/-! ## The engine's steps -/

/-- An iteration of the loop nest is finished: the next one begins, or the job is done (R214). -/
def Job.finishIter (j : Job) : Job :=
  let j := { j with batch := sat16 (j.batch + 1), iter := j.iter + 1, next := 0, staging := none }
  if j.iter = (cardOf j.card).iters then { j with st := .done }
  else { j with st := if j.only then .epilogue else .running, stored := [], tried := [] }

/-- After step `next` of an iteration has been made. -/
def Job.advance (j : Job) : Job :=
  let c := cardOf j.card
  let j := { j with next := j.next + 1, st := .running }
  if j.next ≤ c.steps then j
  else if c.epi then { j with st := .epilogue, stored := [], tried := [] }
  else { j.finishIter with stored := [] }

/-- One step of a queued or running job: the ZERO step, or the next chunk in loop order. It waits while an earlier job holds its bytes,
while a scratchpad line is absent, and while Foreman repairs an operand (R183, R214, R224, R228). -/
def State.jobStep (s : State) (core idx : Nat) : State :=
  match (s.core core).jobs[idx]? with
  | none => s
  | some j =>
    let c := cardOf j.card
    if !j.waiting || j.stuck || !s.jobFree core idx j then s
    else if j.only then s.setJob core idx { j with st := .epilogue }
    else if j.next = 0 then
      (if c.zero then s.modGang j.gang (zeroStep c) else s).setJob core idx j.advance
    else
      let i := j.next - 1
      match j.chunk core (c.indexOf 0 i) (c.indexOf 1 i) (c.indexOf 2 i) s with
      | (.ok j, s) => s.setJob core idx j.advance
      | (.error .absent, s) => s
      | (.error (.fault f), s) =>
        let s := s.setJob core idx { j with stuck := true, st := .running, fault := some (f.addr, f.cause) }
        let s := { s with reports := s.reports ++ [Report.job core j.seq f.addr] }
        s.logEvent 4 core f.addr.toNat 1

/-- May a job go on: its core's clock runs, and its gang has not stopped for a pre-emption (R335, R351)? -/
def State.jobGoes (s : State) (core job : Nat) : Bool :=
  s.clocked core && !((s.core core).jobs[job]?).any fun j => (s.gang j.gang).leaving

/-- MATRIX_CHUNK (R214). -/
def execMatrixChunk (core job : Nat) (s : State) : Host.Outcome State Fault Refusal := .next (if s.jobGoes core job then s.jobStep core job else s)

/-- May the job take the staging buffer: no job of the core holds it, its region is free, and no earlier job has stores to come at the
same bytes (R224)? -/
def State.stagingFree (s : State) (core idx : Nat) (j : Job) : Bool :=
  !((s.core core).jobs.any fun k => k.staging.isSome) &&
  !((s.earlier core idx).any fun k => !k.ended && k.stores && s.destMeets j k) &&
  !((s.earlier core idx).any fun k => k.owns && j.meets k)

/-- The batch offset of the destination (R214). -/
def Job.destOff (j : Job) : Int := (cardOf j.card).offset Level.d j.iter

/-- Is a tile's store held by a pending publication of its buffer (R207)? -/
def State.tileHeld (s : State) (j : Job) (runs : List (Word × List Byte)) : Bool :=
  (cardOf j.card).e.shadow && runs.any fun r =>
    s.heldByPub (s.gang j.gang).asid r.1 r.2.length fun p => p.jobs.contains (j.gcore, j.gang, j.seq)

/-- The first destination address of a tile (R219). -/
def Card.tileAddr (c : Card) (off : Int) (t : Nat) : Word :=
  let (os, is) := c.outRows (t / c.tn) (t % c.tn)
  c.e.dbase + BitVec.ofInt 64 off + BitVec.ofNat 64 (os.headD 0 * c.e.dstride + is.headD 0 * fmtBits c.e.ofmt / 8)

/-- Store one tile of a job's epilogue, or note its fault (R226). A tile whose SVEC or BVEC read fails faults on its first destination
address (R227; log 97). -/
def State.storeTile (s : State) (core idx : Nat) (j : Job) (st : List Byte × List Nat) (t : Nat) : State :=
  let c := cardOf j.card
  let w := s.jobWho core j
  let failed (f : Failure) (j : Job) : Job := { j with tried := j.tried ++ [t], fault := j.fault.or (some (f.addr, f.cause)) }
  match c.tileStores w st j.destOff t s with
  | (.error .absent, s) => s
  | (.error (.fault f), s) => s.setJob core idx (failed { f with addr := c.tileAddr j.destOff t } j)
  | (.ok (runs, poison), s) =>
    if s.tileHeld j runs then s
    else
      let (r, opened, s) := jobStores w c.e.shadow poison (runs.flatMap fun q => pieces8 (q.2.length + 1) q.1 q.2) s
      let j := { j with opened := j.opened ++ opened, poisoned := j.poisoned || poison }
      match r with
      | some f => s.setJob core idx (failed f j)
      | none => s.setJob core idx { j with stored := j.stored ++ [t], tried := j.tried ++ [t] }

/-- One step of a job in its epilogue: the copy to staging, a tile, or the end (R224, R226). -/
def State.epilogueStep (s : State) (core idx : Nat) : State :=
  match (s.core core).jobs[idx]? with
  | none => s
  | some j =>
    if j.st != .epilogue then s
    else
      let c := cardOf j.card
      match j.staging with
      | none =>
        if !s.stagingFree core idx j then s
        else
          s.setJob core idx { j with staging := some (stagingOf c (s.gang j.gang)), stored := [], tried := [], fault := none,
                                     shadows := if c.e.shadow then c.destRanges.map fun r => (r.1.toNat, r.2.toNat) else [] }
      | some st =>
        match (List.range (c.tm * c.tn)).find? fun t => !j.stored.contains t && !j.tried.contains t with
        | some t => s.storeTile core idx j st t
        | none => s.setJob core idx (if j.fault.isSome then { j with st := .held } else j.finishIter)

/-- JOB_EPILOGUE (R226). -/
def execJobEpilogue (core job : Nat) (s : State) : Host.Outcome State Fault Refusal := .next (if s.jobGoes core job then s.epilogueStep core job else s)

/-- FOREMAN_RETRY_JOB (R227). -/
def execForemanRetryJob (core job : Nat) (s : State) : Host.Outcome State Fault Refusal :=
  .next (match (s.core core).jobs[job]? with
    | some j => s.setJob core job j.retry
    | none => s)

/-- FOREMAN_REPAIR_OPERAND: the parked job goes on, or becomes FAULTED (R228). Of a HELD job, not to repair it is to cancel it under R225,
which Foreman may do before it resumes the crew (R227; log 98). -/
def execForemanRepairOperand (core job : Nat) (repaired : Bool) (s : State) : Host.Outcome State Fault Refusal :=
  .next (match (s.core core).jobs[job]? with
    | some j =>
      if j.st == .held then (if repaired then s else s.cancelJob core job)
      else if !j.stuck then s
      else s.setJob core job { j with stuck := false, fault := none, st := if repaired then j.st else .faulted }
    | none => s)

/-! ## Accumulator access (R229) -/

/-- The issued jobs of a gang that still hold bytes `lo` to `hi` − 1 of its accumulator space: their cores and numbers. -/
def State.accJobs (s : State) (gang lo hi : Nat) : List (Nat × BitVec 32) :=
  let g := s.gang gang
  (List.range g.ncore).flatMap fun k =>
    ((s.core (g.core0.getD 0 + k)).jobs.filter fun j => j.gang == gang && j.owns && j.touches lo hi).map fun j => (k, j.seq)

/-- Does one of some jobs of a gang still hold one of these ranges of its accumulator space? -/
def State.accWaits (s : State) (gang : Nat) (jobs : List (Nat × BitVec 32)) (ranges : List (Nat × Nat)) : Bool :=
  ranges.any fun r => (s.accJobs gang r.1 r.2).any jobs.contains

/-- The 8 bytes at each of some offsets. -/
def accRanges (offs : List Nat) : List (Nat × Nat) := offs.map fun o => (o, o + 8)

/-- ACCZ (R229). Its traps fail the whole fragment (R334). -/
def execAccz (g : BitVec 3) (a b : BitVec 6) (s : State) : Host.Outcome State Fault Refusal :=
  issue (.accz g a b) s fun x s =>
    if x.take = 0 then s.finish x
    else
      let c := s.crew x.key
      let off := (c.src kx a x.low).toNat
      let n := (c.src kx b x.low).toNat
      let bad (cause : BitVec 8) : State :=
        s.trapWhole x cause x.F (allLanes (c.src kx a x.low)) (allLanes 0)
      if off % 8 ≠ 0 || n % 8 ≠ 0 then bad cAlign
      else if n = 0 then s.finish x
      else if off + n > (s.hdrOf x.key).acc * 1024 then bad cScrbound
      else if !(s.accJobs x.gang off (off + n)).isEmpty then
        s.retire x [] false fun _ => .wait (.parked (.zeroing off n (s.accJobs x.gang off (off + n)))) x.pc
      else (s.modGang x.gang fun g => g.clearAcc off (List.replicate n 0)).finish x

/-- An ACCZ that waits writes when the jobs issued before it have finished with its bytes (R229). -/
def State.acczOver (s : State) (key off n : Nat) (jobs : List (Nat × BitVec 32)) : State :=
  if s.accWaits (gangOf key) jobs [(off, off + n)] then s
  else
    (s.modGang (gangOf key) fun g => g.clearAcc off (List.replicate n 0)).modCrew key fun c =>
      c.goOn (s.hdrOf key) (c.waiters (.zeroing off n jobs))

/-- The check of an 8-byte accumulator access. -/
def checkAcc (s : State) (key : Nat) (off : Word) : Option Failure :=
  if off.toNat % 8 ≠ 0 then some ⟨cAlign, off⟩
  else if off.toNat + 8 > (s.hdrOf key).acc * 1024 then some ⟨cScrbound, off⟩
  else none

/-- The lanes of ACCRD. -/
def accrdFn : LaneFn := fun e key l s =>
  let off := e.op0.at l
  match checkAcc s key off with
  | some f => (.failed f, s)
  | none =>
    let g := s.gang (gangOf key)
    if g.accPoison.contains (off.toNat / 8) then (.failed ⟨cPoison, off⟩, s)
    else (.done (BitVec.ofNat 64 (readNat g.acc off.toNat 8)) 0, s)

/-- ACCRD (R229). -/
def execAccrd (g : BitVec 3) (d a : BitVec 6) (s : State) : Host.Outcome State Fault Refusal :=
  issue (.accrd g d a) s (memIssue accrdFn noPre (.one d) tagG)

/-- The lanes of ACCWR. -/
def accwrFn : LaneFn := fun e key l s =>
  let off := e.op0.at l
  match checkAcc s key off with
  | some f => (.failed f, s)
  | none => (.done 0 0, s.modGang (gangOf key) fun g => g.clearAcc off.toNat (toBytes 8 (e.op1.at l).toNat))

/-- The wait of ACCWR: for the jobs, issued before it, that hold bytes its taking lanes name (R229). -/
def accwrPre (e : Entry) (key : Nat) (s : State) : Option Park × State :=
  let offs := ((maskLanes (e.pending (s.crew key))).filter fun l => (checkAcc s key (e.op0.at l)).isNone).map fun l => (e.op0.at l).toNat
  let jobs := (accRanges offs).flatMap fun r => s.accJobs (gangOf key) r.1 r.2
  (if jobs.isEmpty then none else some (.accumulator offs jobs.eraseDups), s)

/-- ACCWR (R229). -/
def execAccwr (g : BitVec 3) (a b : BitVec 6) (s : State) : Host.Outcome State Fault Refusal :=
  issue (.accwr g a b) s (memIssue accwrFn accwrPre .none tagG)

/-! ## The codebook (R230) -/

/-- The 16 lines of a codebook, read by a load with an alignment of 128. -/
def readCodebook (s : State) (w : Who) (va : Word) : Except Failure (List Byte) × State := readWhole s w va 128 16

/-- Jobs of a core that may still read the codebook they were issued with, by gang and number (R101). -/
def State.codebookJobs (s : State) (core : Nat) : List (Nat × BitVec 32) :=
  ((s.core core).jobs.filter fun j =>
    j.codebook.isSome && !j.only && !j.ended && (j.waiting || (cardOf j.card).iters > j.iter + 1)).map fun j => (j.gang, j.seq)

/-- The wait of CBLD: for the jobs of its core issued before it that read VQ2 (R101, R230). -/
def cbldPre (e : Entry) (key : Nat) (s : State) : Option Park × State :=
  let jobs := s.codebookJobs (s.crew key).core
  (if e.pending (s.crew key) = 0 || jobs.isEmpty then none else some (.codebook jobs), s)

/-- The lanes of CBLD: the lowest taking lane loads the codebook, the others have nothing to do. -/
def cbldFn : LaneFn := fun e key l s =>
  if lowest e.take ≠ some l then (.done 0 0, s)
  else
    let w := s.whoAt key l
    match readCodebook s w (e.op0.at l) with
    | (.error f, s) => (.failed f, s)
    | (.ok bs, s) => (.done 0 0, s.modCore w.core fun c => { c with codebook := freshCells 0 bs })

/-- CBLD (R230). -/
def execCbld (g : BitVec 3) (a : BitVec 6) (s : State) : Host.Outcome State Fault Refusal :=
  issue (.cbld g a) s (memIssue cbldFn cbldPre .none tagG)

end Sys2Proof.Machine
end

