-- ==== Sys2Proof/Machine/Overlay.lean ====
section
/-!
DEFINITION. The overlay instructions (R270 to R273) and the completion of an overlay's load (R267).
-/
namespace Sys2Proof.Machine

/-- The overlay that the lowest taking lane names, when its number is below HDR.OVLS (R270): number, OFFSET and SLOTS. -/
def namedOverlay (x : Ctx) (a : BitVec 6) (s : State) : Option (Nat × Nat × Nat) :=
  let n := ((s.crew x.key).src kx a x.low).toNat
  (dirEntry (s.hdrOf x.key) n).map fun e => (n, e.1, e.2)

/-- OVLXFER with the overlay number as the fault address (R270). -/
def State.trapOverlay (s : State) (x : Ctx) (a : BitVec 6) : State :=
  s.trapWhole x cOvlxfer x.take (allLanes ((s.crew x.key).src kx a x.low)) (allLanes 0)

/-- Does an overlay of this many slots never load for an ASID on a core (R269)? -/
def State.overQuota (s : State) (core : Nat) (asid : BitVec 12) (slots : Nat) : Bool := slots > quotaOf (s.core core) asid

/-- OVLD (R270). -/
def execOvld (g : BitVec 3) (d a : BitVec 6) (s : State) : Host.Outcome State Fault Refusal :=
  issue (.ovld g d a) s fun x s =>
    if x.take = 0 then s.finishReg x d (allLanes 0) .u
    else
      match namedOverlay x a s with
      | none => s.trapOverlay x a
      | some (n, off, slots) =>
        let c := s.crew x.key
        let asid := (s.gang x.gang).asid
        let s := s.ovlCancel c.core asid c.cver off
        let s := if s.overQuota c.core asid slots then s else s.ovlStart c.core asid c.cver off slots
        s.finishReg x d (allLanes (BitVec.ofNat 64 (c.cver.toNat * 2 ^ 48 + n))) .u

/-- OVWAIT: the crew waits on the issuing core until the token's overlay is resident (R271). -/
def execOvwait (g : BitVec 3) (d a : BitVec 6) (s : State) : Host.Outcome State Fault Refusal :=
  issue (.ovwait g d a) s fun x s =>
    let c := s.crew x.key
    let tok := c.src kx a x.low
    let status (n : Nat) (s : State) : State := s.finishReg x d (allLanes (BitVec.ofNat 64 n)) .u
    if x.take = 0 then s.finishReg x d (allLanes 0) .u
    else
      match dirEntry (s.hdrOf x.key) (wbits tok 9 0) with
      | none => status 3 s
      | some (off, slots) =>
        let asid := (s.gang x.gang).asid
        if wbits tok 63 48 ≠ c.cver.toNat then status 3 s
        else if s.overQuota c.core asid slots then status 1 (s.ovlCancel c.core asid c.cver off)
        else
          let s := ((s.ovlCancel c.core asid c.cver off).ovlStart c.core asid c.cver off slots).ovlEnter c.core asid c.cver off
          if s.ovlResident c.core asid c.cver off then status 0 s
          else s.retire x [] false fun _ => .wait (.parked (.ovwait off d x.take)) x.npc

/-- Pending evictions of the overlays that hold these addresses are cancelled (R270). -/
def State.cancelAll (s : State) (key : Nat) (pcs : List Pc) : State :=
  let c := s.crew key
  pcs.foldl (fun s pc => match overlayAt (s.hdrOf key) pc.toNat with
    | some (_, off, _) => s.ovlCancel c.core (s.gang (gangOf key)).asid c.cver off
    | none => s) s

/-- The status of an OVCALL's lanes at a target whose overlay has a status. -/
def called : Status → Status
  | .parked (.overlay off) => .parked (.called off)
  | st => st

/-- OVCALL: the checks of R272 in order, then each taking lane moves to its target, parked while the overlay is not resident. -/
def execOvcall (g : BitVec 3) (a : BitVec 6) (s : State) : Host.Outcome State Fault Refusal :=
  issue (.ovcall g a) s fun x s =>
    let c := s.crew x.key
    let h := s.hdrOf x.key
    let asid := (s.gang x.gang).asid
    let t (l : Lane) : Pc := (c.src kx a l).setWidth 32
    let at_ (l : Lane) : Word := (t l).setWidth 64
    let f1 := x.fails cAlign at_ fun l => (t l).toNat % 4 ≠ 0
    let f2 := x.fails cOvlxfer at_ fun l =>
      match overlayAt h (t l).toNat with
      | none => true
      | some (_, _, slots) => s.overQuota c.core asid slots
    if !f1.isEmpty then s.trapFails x f1
    else if !f2.isEmpty then s.trapFails x f2
    else
      let (ps, fs, s) := pushChecks s x x.take
      if !fs.isEmpty then s.trapFails x fs
      else
        let s := (pushAll s x ps).cancelAll x.key ((maskLanes x.take).map t)
        let (st, s) := s.enterAll x.key ((maskLanes x.take).map t)
        s.retire x [] (x.take != 0) fun l => if inMask x.take l then arriveAt (called ∘ st) (t l) (c.th l).sup else .next

/-- Free an overlay's slots. -/
def State.ovlFree (s : State) (core : Nat) (asid : BitVec 12) (ver : BitVec 16) (off : Nat) : State :=
  s.modCore core fun c => { c with ovls := c.ovls.filter fun o => !(o.asid == asid && o.ver == ver && o.offset == off) }

/-- OVEVICT (R273). -/
def execOvevict (g : BitVec 3) (d a : BitVec 6) (s : State) : Host.Outcome State Fault Refusal :=
  issue (.ovevict g d a) s fun x s =>
    if x.take = 0 then s.finishReg x d (allLanes 0) .u
    else
      match namedOverlay x a s with
      | none => s.trapOverlay x a
      | some (_, off, _) =>
        let c := s.crew x.key
        let asid := (s.gang x.gang).asid
        let (st, s) := match ovlFind (s.core c.core) asid c.cver off with
          | none => (2, s)
          | some o =>
            if o.resident && s.pinsOn c.core asid c.cver off = 0 then
              (0, (s.ovlFree c.core asid c.cver off).settleOvls c.core)
            else (1, s.modOvl c.core asid c.cver off fun o => { o with evict := true })
        s.finishReg x d (allLanes (BitVec.ofNat 64 st)) .u

/-- The state word of an overlay (R273). A load that waits for room counts as in progress (log 112). -/
def State.ovlWord (s : State) (key : Nat) (n : Word) : Word :=
  let c := s.crew key
  let asid := (s.gang (gangOf key)).asid
  let free := slotsFree (s.core c.core) asid
  match dirEntry (s.hdrOf key) n.toNat with
  | none => BitVec.ofNat 64 (free * 2 ^ 48)
  | some (off, slots) =>
    let pins := min (s.pinsOn c.core asid c.cver off) 65535
    let flags := match ovlFind (s.core c.core) asid c.cver off with
      | none => 0
      | some o => (if o.evict then 4 else 0) + (if o.resident then 1 else 2)
    BitVec.ofNat 64 (free * 2 ^ 48 + pins * 2 ^ 32 + slots * 2 ^ 16 + flags)

/-- OVQRY (R273). -/
def execOvqry (g : BitVec 3) (d a : BitVec 6) (s : State) : Host.Outcome State Fault Refusal :=
  issue (.ovqry g d a) s fun x s =>
    let c := s.crew x.key
    s.finishReg x d (lanes fun l => s.ovlWord x.key (c.src kx a l)) .g

/-! ## Loads (R267) -/

/-- The lanes of a crew that wait for an overlay. -/
def Crew.ovlWaiters (c : Crew) (off : Nat) : Mask :=
  maskOf fun l => match (c.th l).st with
    | .parked (.overlay o) | .parked (.called o) | .parked (.ovwait o _ _) => o == off
    | _ => false

/-- The OVWAITs of a crew for an overlay: destination and taking lanes. -/
def Crew.ovwaits (c : Crew) (off : Nat) : List (BitVec 6 × Mask) :=
  (laneList.filterMap fun l => match (c.th l).st with
    | .parked (.ovwait o d m) => if o = off then some (d, m) else none
    | _ => none).eraseDups

/-- The lanes that wait for an overlay go on; those of an OVWAIT receive status 0 (R271, R272). -/
def Crew.ovlArrived (c : Crew) (off : Nat) : Crew :=
  let w := c.ovlWaiters off
  let c := (c.ovwaits off).foldl (fun c p => c.writeDst p.1 (p.2 &&& w) (allLanes 0) .u) c
  c.updThr w fun _ t => { t with st := .live }

/-- The crews of a core that run under an ASID and version. -/
def State.crewsUnder (s : State) (core : Nat) (asid : BitVec 12) (ver : BitVec 16) : List (Nat × Crew) :=
  s.crews.filter fun p => p.2.core == core && p.2.cver == ver && (s.gang (gangOf p.1)).asid == asid &&
    (s.gang (gangOf p.1)).core0.isSome

/-- Fragments that waited on a load that met poison raise POISON at the code offset (R88, R267); an OVWAIT then issues again. -/
def State.poisonWaiters (s : State) (key : Nat) (off : Nat) : State :=
  let c := s.crew key
  let w := c.ovlWaiters off
  let at_ (t : Thread) : Pc := match t.st with
    | .parked (.ovwait _ _ _) => t.pc - 4
    | _ => t.pc
  let pcs := ((maskLanes w).map fun l => at_ (c.th l)).eraseDups
  pcs.foldl (fun s pc =>
    let c := s.crew key
    let m := maskOf fun l => inMask (c.ovlWaiters off) l && at_ (c.th l) == pc
    (s.modCrew key fun c => c.updThr m fun _ t => { t with pc := pc }).raise key
      (TrapInfo.at_ cPoison m m (allLanes (BitVec.ofNat 64 off)) pc)) s

/-- A resumed gang that waits for overlays before it issues (R340): when the load of one meets poison, its crews that wait on it raise POISON in
each fragment (R267). -/
def State.poisonNeeds (s : State) (core : Nat) (o : Overlay) : State :=
  let n := (core, o.ver, o.offset)
  s.gangs.foldl (fun s q =>
    if !(q.2.asid == o.asid && q.2.needs.contains n) then s
    else
      let s := s.modGang q.1 fun g => { g with needs := g.needs.filter (· != n) }
      ((s.crewsOf q.1).filter fun p => p.2.core = core && p.2.cver == o.ver).foldl (fun s p =>
        (p.2.siblings 0).foldl (fun s m =>
          s.raise p.1 (TrapInfo.at_ cPoison m m (allLanes (BitVec.ofNat 64 o.offset)) (((lowest m).map fun l => (p.2.th l).pc).getD 0))) s) s) s

/-- An overlay's load completes: it becomes resident and the crews that wait on it issue; or it met poison and is not resident
(R267). -/
def State.ovlLoaded (s : State) (core : Nat) (o : Overlay) : State :=
  if o.resident || o.wants then s
  else
    let (code, bad) := s.loadCode o.asid o.ver o.offset o.slots
    let crews := s.crewsUnder core o.asid o.ver
    if bad then
      let s := s.ovlFree core o.asid o.ver o.offset
      ((crews.foldl (fun s p => s.poisonWaiters p.1 o.offset) s).poisonNeeds core o).settleOvls core
    else
      let s := s.modOvl core o.asid o.ver o.offset fun o => { o with code := code, resident := true }
      (crews.foldl (fun s p => s.modCrew p.1 fun c => c.ovlArrived o.offset) s).settleOvls core

/-- OVERLAY_LOAD_COMPLETE: the overlay is the `slot`th that the core holds or loads (R267). -/
def execOverlayLoadComplete (core slot : Nat) (s : State) : Host.Outcome State Fault Refusal :=
  .next (match (s.core core).ovls[slot]? with
    | some o => if s.clocked core then s.ovlLoaded core o else s
    | none => s)

end Sys2Proof.Machine
end

