-- ==== Sys2Proof/Machine/Wake.lean ====
section
/-!
DEFINITION. What a core does of its own accord: the fairness switch (R151, R152), the sets of crews and the forced exchange (R319 to
R321), the end of waits (R184, R192, R208, R221, R224, R229, R279, R324), and the tagged requests of a core (R192).
-/
namespace Sys2Proof.Machine

/-! ## Fragments (R14, R151, R152) -/

/-- The fragments of a crew, by lowest lane (R14). -/
def Crew.frags (c : Crew) : List Mask := c.siblings 0

/-- Address of a fragment. -/
def Crew.fragPc (c : Crew) (m : Mask) : Pc := match lowest m with
  | some l => (c.th l).pc
  | none => 0

/-- Lowest lane of a mask as a number. -/
def lowNum (m : Mask) : Nat := ((lowest m).map Fin.val).getD 32

/-- The crew's issue count since which a fragment has existed without issuing: now, when its lanes were not seen together before (R152). -/
def Crew.fragAge (c : Crew) (m : Mask) : Nat :=
  let ls := maskLanes m
  if ls.all fun l => c.seen.at l = m then ls.foldl (fun n l => min n (c.ages.at l)) c.issues else c.issues

/-- The order of the fairness condition: longest without issuing, then the lower PC, then the lowest lane (R152). -/
def Crew.olderFrag (c : Crew) (a b : Mask) : Bool :=
  if c.fragAge a ≠ c.fragAge b then c.fragAge a < c.fragAge b
  else if c.fragPc a ≠ c.fragPc b then (c.fragPc a).toNat < (c.fragPc b).toNat
  else lowNum a ≤ lowNum b

/-- The fragment that the fairness condition names (R152). -/
def Crew.fairFrag (c : Crew) : Option Mask :=
  if c.same < 64 then none else leastBy c.olderFrag (c.frags.filter fun m => m != c.sameSet)

/-- The order of R151: lowest PC, then the lowest lane. -/
def Crew.firstFrag (c : Crew) (a b : Mask) : Bool :=
  if c.fragPc a ≠ c.fragPc b then (c.fragPc a).toNat < (c.fragPc b).toNat else lowNum a ≤ lowNum b

/-- The fragment of a crew that issues next (R151): the holder of a pending hint run, the one that the fairness condition names, or
the one at the lowest PC. -/
def Crew.nextFrag (c : Crew) : Option Mask :=
  match c.run with
  | some r => if r.lanes &&& c.live = 0 then leastBy c.firstFrag c.frags else some (r.lanes &&& c.live)
  | none =>
    match c.force.filter c.frags.contains with
    | some m => some m
    | none =>
      match c.fairFrag with
      | some m => some m
      | none => leastBy c.firstFrag c.frags

/-- FAIRNESS_SWITCH: after 64 consecutive issues by one set of threads, the fragment that has waited longest is to issue next (R152). -/
def execFairnessSwitch (crew : Nat) (s : State) : Host.Outcome State Fault Refusal :=
  .next (match s.crew? crew with
    | some c => s.setCrew crew { c with force := c.fairFrag.or c.force }
    | none => s)

/-! ## The active set (R319 to R321) -/

/-- The crews on a core. -/
def State.crewsOn (s : State) (core : Nat) : List (Nat × Crew) :=
  s.crews.filter fun p => p.2.core = core && (s.gang (gangOf p.1)).core0.isSome

/-- The order of crews that are ready: the one ready longest, then the lower place on the core (R320). -/
def readyBefore (a b : Nat × Crew) : Bool :=
  a.2.readySince < b.2.readySince || (a.2.readySince = b.2.readySince && a.2.place ≤ b.2.place)

/-- The ready pending crew of a core that has been ready longest (R321). -/
def State.nextPending (s : State) (core : Nat) : Option (Nat × Crew) :=
  leastBy readyBefore ((s.crewsOn core).filter fun p => !p.2.active && s.ready p.1 p.2)

/-- A crew joins the active set. -/
def State.joinActive (s : State) (key : Nat) : State :=
  let core := (s.crew key).core
  (s.modCrew key fun c => { c with active := true, activeSince := s.time }).modCore core fun x => { x with lastJoin := s.time }

/-- A crew goes to the pending set; the rest of a STALL count is dropped (R91). -/
def State.leaveActive (s : State) (key : Nat) : State := s.modCrew key fun c => { c with active := false, stall := 0 }

/-- The crew of a core that has been active longest. -/
def State.oldestActive (s : State) (core : Nat) : Option (Nat × Crew) :=
  leastBy (fun a b => a.2.activeSince ≤ b.2.activeSince) ((s.crewsOn core).filter fun p => p.2.active)

/-- FORCED_EXCHANGE: the crew active longest makes room for the pending crew that has been ready longest, when no crew has joined for
1,024 cycles (R321). It waits while that crew has a pending hint run (R85). -/
def execForcedExchange (core : Nat) (s : State) : Host.Outcome State Fault Refusal :=
  .next (
    if s.time < (s.core core).lastJoin + 1024 || !s.clocked core then s
    else match s.nextPending core with
      | none => s
      | some (k, _) =>
        match s.oldestActive core with
        | some (j, c) => if c.run.isSome then s else (s.leaveActive j).joinActive k
        | none => s.joinActive k)

/-- Since when a crew has been ready, after a step: set when it becomes ready, 0 while it is not (R320, R321). -/
def State.noteReady (s : State) : State :=
  { s with crews := s.crews.mapAll fun k c =>
    if s.ready k c then (if c.readySince = 0 then { c with readySince := readyMark (s.time - 1) } else c) else { c with readySince := 0 } }

/-- Fill a core's active set of 8 crews, and exchange a held active crew for a ready pending one (R321), unless it has a pending hint run (R85). -/
def seatCore : Nat → State → Nat → State
  | 0, s, _ => s
  | n + 1, s, core =>
    match s.nextPending core with
    | none => s
    | some (k, _) =>
      let act := (s.crewsOn core).filter fun p => p.2.active
      if act.length < 8 then seatCore n (s.joinActive k) core
      else match act.find? fun p => !s.ready p.1 p.2 && !p.2.stalled && p.2.run.isNone with
        | some (j, _) => seatCore n ((s.leaveActive j).joinActive k) core
        | none => s

/-- The cores on which crews are resident. -/
def State.busyCores (s : State) : List Nat := s.crews.foldl (fun l p => insertNat p.2.core l) []

/-- The crews' sets after a step, on the cores whose clock runs (R319, R321, R351). -/
def State.seat (s : State) : State :=
  let s := s.noteReady
  (s.busyCores.filter s.clocked).foldl (fun s c => seatCore 64 s c) s

/-! ## The end of waits -/

/-- Is the counter of an EVWAIT below its value? One that no longer passes its checks is not, nor a poisoned one: the instruction then traps
(R279). -/
def State.counterLow (s : State) (w : Who) (q : Word × Word) : Bool :=
  match checkAccess s w .counter q.1 8 8 with
  | (.ok p, s) =>
    let (v, bad) := s.peek w q.1 p
    !bad && v < q.2.toNat
  | (.error _, _) => false

/-- How an instruction that holds its crew in the active set until it completes goes on: its lanes, and what they write. -/
def stalledFn (w : Code) : Option (LaneFn × Dest) :=
  match decodeWord w with
  | .ok (.mma _ d _) => some (mmaFn, .one d)
  | .ok (.mepi _ d _ _) => some (mepiFn, .one d)
  | .ok (.accwr _ _ _) => some (accwrFn, .none)
  | .ok (.cbld _ _) => some (cbldFn, .none)
  | _ => none

/-- A stall of the active set is over: the lanes that made it are live again, and their instruction completes as it was issued. -/
def State.endStall (s : State) (key : Nat) (p : Park) : State :=
  let c := s.crew key
  let m := c.waiters p
  let s := s.setCrew key (c.updThr m fun _ t => { t with st := .live })
  match c.infl.findIdx? fun e => e.frag &&& m != 0 && (stalledFn e.word).isSome with
  | none => s
  | some k =>
    match (c.infl[k]?).bind fun e => stalledFn e.word with
    | some (f, d) => s.finishEntry key k f noPre d tagG true
    | none => s

/-- The end of a wait whose event has come, in the lanes of a crew that wait in this way. Waits that other steps end are not listed
here. -/
def State.endWait (s : State) (key : Nat) (p : Park) : State :=
  let c := s.crew key
  let live : State := s.setCrew key (c.wake fun q => q == p)
  match p with
  | .counters ws =>
    let l := (lowest (c.waiters p)).getD 0
    if ws.any (s.counterLow (s.whoAt key l)) then s else live
  | .tags slice => if s.placesAt c.core slice < 64 then live else s
  | .jobs w => s.mwaitOver key w
  | .publications w => s.pubwaitOver key w
  | .zeroing off n jobs => s.acczOver key off n jobs
  | .accumulator offs jobs => if s.accWaits (gangOf key) jobs (accRanges offs) then s else s.endStall key p
  | .codebook jobs => if (s.codebookJobs c.core).any jobs.contains then s else s.endStall key p
  | .engine => if s.engineLoad c.core < 16 then s.endStall key p else s
  | _ => s

/-- The waits of a crew's lanes, each once. -/
def Crew.parks (c : Crew) : List Park :=
  (laneList.filterMap fun l => match (c.th l).st with
    | .parked p => some p
    | _ => none).eraseDups

/-- A return from a trap that has waited for room is performed (R329, R331). -/
def State.rouseReturn (s : State) (key : Nat) : State := if (s.readyReturn key).isSome then s.settleCrew key else s

/-- End the waits of a crew whose event has come, on a core whose clock runs (R351). -/
def State.rouseCrew (s : State) (key : Nat) : State :=
  match s.crew? key with
  | none => s
  | some c => if (s.gang (gangOf key)).core0.isNone || !s.clocked c.core then s else (c.parks.foldl (fun s p => s.endWait key p) s).rouseReturn key

/-- Wake every thread of the device whose wait is over. -/
def State.rouse (s : State) : State := (s.crews.map Prod.fst).foldl State.rouseCrew s

/-- Is every line that an LDP waits for present (R184)? -/
def State.presenceOver (s : State) (key : Nat) : Park → Bool
  | .presence ls => ls.all fun n => !(s.gang (gangOf key)).absent.any fun a => a.line = n
  | _ => false

/-- LDP_PRESENCE_WAKE: the fragment's LDP is performed again (R184). -/
def execLdpPresenceWake (crew : Nat) (s : State) : Host.Outcome State Fault Refusal :=
  .next (match s.crew? crew with
    | some c => if s.clocked c.core then s.setCrew crew (c.wake (s.presenceOver crew)) else s
    | none => s)

/-- TRAP_VECTOR: a fragment that waited for a frame slot writes its frame and starts its handler, or parks for Foreman (R324, R326). -/
def execTrapVector (crew : Nat) (s : State) : Host.Outcome State Fault Refusal :=
  .next (match s.crew? crew with
    | some c => if s.clocked c.core then s.slotRetry crew else s
    | none => s)

/-! ## Tagged requests (R192) -/

/-- An unacknowledged request of a core. -/
def Core.request (c : Core) (seq : BitVec 32) : Option Tagged := c.unacked.find? fun t => t.seq == seq

/-- TAGGED_REQUEST: a request reaches its memory-side unit, which applies it unless its tag is in the window (R192). -/
def execTaggedRequest (core : Nat) (seq : BitVec 32) (s : State) : Host.Outcome State Fault Refusal :=
  .next (match (s.core core).request seq with
    | none => s
    | some t =>
      if (s.tagOld core t.pa seq).isSome then s
      else if t.red && s.linePoisoned (lineOf t.pa) then (s.tagStore core t.pa seq 0).dropRed t.grid t.addr
      else (s.applyTagged core t).2)

/-- The request is sent again with the same tag: it reaches its unit next. -/
def State.resend (s : State) (core : Nat) (seq : BitVec 32) : State :=
  if ((s.core core).request seq).isSome then { s with agenda := s.agenda ++ [Actor.event (.taggedRequest core seq)] } else s

/-- TAGGED_ACK: an acknowledgement frees a place; one with a correctable error has the request sent again (R192). -/
def execTaggedAck (core : Nat) (seq : BitVec 32) (correctable : Bool) (s : State) : Host.Outcome State Fault Refusal :=
  .next (if correctable then s.resend core seq
    else s.modCore core fun c => { c with unacked := c.unacked.filter fun t => t.seq != seq })

/-- REPLAY_INTERVAL_EXPIRY (R192). -/
def execReplayIntervalExpiry (core : Nat) (seq : BitVec 32) (s : State) : Host.Outcome State Fault Refusal := .next (s.resend core seq)

end Sys2Proof.Machine
end

