-- ==== Sys2Proof/Machine/Protocol.lean ====
section
/-!
DEFINITION. The messages and transactions of the coherence protocol as steps of their own (R297 to R302), page walks and TLB
invalidation (R290 to R293), soft errors and the scrubber (R304), and the release of dynamic-capacity extents (R342).
-/
namespace Sys2Proof.Machine

/-! ## Sharer lists (R297, R298) -/

/-- A message of a die: handled, or dropped and counted when the die has been declared dead, whose number has grown since (R305). -/
def fromDie (die : Nat) (s : State) (body : State → State) : Host.Outcome State Fault Refusal :=
  .next (if (s.die die).alive then body s else s.dropOld)

/-- EPRI and CMP of a message that comes without a page: those of the copy that is there, and otherwise 0 (log 50). -/
def State.keepOf (s : State) (line : Nat) : Member → Keep
  | .core c => (((s.core c).l1.get? line).map L1Line.keep).getD ⟨0, false⟩
  | .die d => (((s.die d).l2.get? line).map L2Line.keep).getD ⟨0, false⟩

/-- JOIN. -/
def execJoin (line : Nat) (m : Member) (s : State) : Host.Outcome State Fault Refusal := fromDie (memberDie m) s fun s => onJoin line m (s.keepOf line m) s
/-- UPG. -/
def execUpg (line : Nat) (m : Member) (s : State) : Host.Outcome State Fault Refusal := fromDie (memberDie m) s fun s => onUpg line m (s.keepOf line m) s
/-- PURGE. -/
def execPurge (line : Nat) (m : Member) (s : State) : Host.Outcome State Fault Refusal := .next (onPurge line m s)
/-- PURGED. -/
def execPurged (line : Nat) (m : Member) (s : State) : Host.Outcome State Fault Refusal := fromDie (memberDie m) s (onPurged line m)
/-- LEAVE: the transaction is made whole, so that no other of the line comes between (R298). -/
def execLeave (line : Nat) (m : Member) (s : State) : Host.Outcome State Fault Refusal := fromDie (memberDie m) s fun s => s.leaveNow line m
/-- SETPREV. -/
def execSetprev (line : Nat) (m : Member) (dest : Option Nat) (s : State) : Host.Outcome State Fault Refusal := .next (onSetprev line m dest s)
/-- SETNEXT. -/
def execSetnext (line : Nat) (m : Member) (dest : Option Nat) (s : State) : Host.Outcome State Fault Refusal := .next (onSetnext line m dest s)
/-- FETCH. -/
def execFetch (line : Nat) (m : Member) (drop : Bool) (s : State) : Host.Outcome State Fault Refusal := .next (onFetch line m drop s)

/-! ## Lazy release (R299, R300) -/

/-- RECALL (R300). -/
def execRecall (core : Nat) (rseq : BitVec 32) (s : State) : Host.Outcome State Fault Refusal := .next (onRecall core rseq s)

/-- RECALL_ACK: the recorded core acknowledges when it has written back what the release covers, and what its die's L2 must send on; the home
sets RD (R300). -/
def execRecallAck (line core : Nat) (s : State) : Host.Outcome State Fault Refusal :=
  fromDie (dieOf core) s fun s =>
    if (s.home line).rv && (s.home line).rcore.toNat = core then
      onRecallAck line ((onRecall core (s.home line).rseq s).l2WriteBackAll (dieOf core))
    else s

/-- HOME_RELEASE_TRANSACTION: a store transaction at the home purges a TRACKED list first, then the release is recorded (R299). -/
def execHomeReleaseTransaction (line core : Nat) (s : State) : Host.Outcome State Fault Refusal :=
  fromDie (dieOf core) s fun s => (((s.flushOwn core line).purgeAll line).continueRelease core line).recordRelease core line

/-- HOME_ACQUIRE_TRANSACTION: a recall when it is needed, then the acquiring core drops its SELFINV copies (R300). -/
def execHomeAcquireTransaction (line core : Nat) (s : State) : Host.Outcome State Fault Refusal :=
  fromDie (dieOf core) s fun s => if s.acquireLocal core line then s else (s.homeAcquire core line).acquireDone core

/-- BACK_INVALIDATE_SNOOP: for a line of an HDM-DB window the home purges the line's lists and writes an M copy back before it answers
(R302); a sharer of the memory device may then hold the line. -/
def execBackInvalidateSnoop (line : Nat) (s : State) : Host.Outcome State Fault Refusal :=
  .next (match s.windowOf (line * 128) with
    | some w =>
      if w.type = 1 then
        let s := (s.purgeAll line).cleanHome line
        { s with lent := insertNat line s.lent }
      else s
    | none => s)

/-! ## Translation (R290 to R293) -/

/-- PAGE_WALK: a walk that finds a leaf loads it into the TLBs with AC set; one that faults changes nothing, and the fragment that
needs it traps at its own access (R290 to R293). -/
def execPageWalk (core : Nat) (asid : BitVec 12) (va : Word) (s : State) : Host.Outcome State Fault Refusal :=
  .next (walkFill s core asid va).2

/-- TLB_INVALIDATE: every TLB drops the entries that meet the range (R293). -/
def execTlbInvalidate (asid : BitVec 12) (first last : Word) (s : State) : Host.Outcome State Fault Refusal :=
  .next (s.tlbDrop fun e => e.asid == asid && e.meets first.toNat last.toNat)

/-! ## Dynamic capacity (R342) -/

/-- Lines of physical addresses `lo` to `hi` − 1 that their home slices hold. -/
def State.heldIn (s : State) (lo hi : Nat) : List Nat :=
  s.dies.foldl (fun l d => (d.2.held.filter fun h => lo ≤ h.1 * 128 && h.1 * 128 < hi).foldl (fun l h => insertNat h.1 l) l) []

/-- Clear V in the leaf of each page of a range that is mapped, and write the dirty copies of its lines back to memory. -/
def unmapFrom (asid : BitVec 12) : Nat → Nat → Nat → State → State
  | 0, _, _, s => s
  | k + 1, va, last, s =>
    if last < va then s
    else
      match walk s asid (BitVec.ofNat 64 va) with
      | .error _ => unmapFrom asid k (va - va % 16384 + 16384) last s
      | .ok l =>
        let n := 2 ^ pageShift l.level
        let pa := pteAddr l.pte
        let len := if pteShd l.pte then 2 * n else n
        let s := (s.cachedIn pa (pa + len)).foldl State.writeBackLine s
        let s := (s.heldIn pa (pa + len)).foldl State.cleanHome s
        let s := s.writePte l.pteAt (l.pte &&& ~~~1#64)
        unmapFrom asid k (va - va % n + n) last s

/-- DCD_RELEASE_REQUEST: Foreman unmaps the extent, completes the invalidation of R293 and writes back every dirty line, before it
acknowledges (R342). -/
def execDcdReleaseRequest (asid : BitVec 12) (first last : Word) (s : State) : Host.Outcome State Fault Refusal :=
  .next ((unmapFrom asid ((last.toNat - first.toNat) / 16384 + 2) first.toNat last.toNat s).tlbDrop fun e =>
    e.asid == asid && e.meets first.toNat last.toNat)

/-! ## Soft errors (R304) -/

/-- Both error counts of a die in one number: corrected in the high half, uncorrected in the low one (R304, R352). -/
def Die.errorCounts (d : Die) : Nat := d.corrected * 2 ^ 32 + d.uncorrected

/-- Count an error of a die: a corrected one, or an uncorrectable one, at which Foreman logs both counts (R304, R352). -/
def State.countError (s : State) (die : Nat) (correctable : Bool) : State :=
  if correctable then s.modDie die fun d => { d with corrected := d.corrected + 1 }
  else
    let s := s.modDie die fun d => { d with uncorrected := d.uncorrected + 1 }
    s.logEvent 1 (256 + die) 0 (s.die die).errorCounts

/-- The first core of a gang, where its own structures stand. -/
def State.coreOfGang (s : State) (gang : Nat) : Nat := (s.gang gang).core0.getD 0

/-- The die of the struck structure. -/
def State.struckDie (s : State) : Struck → Nat
  | .l1Line core _ | .tlbEntry core _ _ | .slot core _ => dieOf core
  | .l2Line die _ | .fstRecord die _ _ => die
  | .scratchLine gang _ | .accWord gang _ => dieOf (s.coreOfGang gang)
  | .fifoEntry _ core _ _ => dieOf core
  | .crewState crew => dieOf (s.crew crew).core
  | .dieTlb die _ _ => die
  | .releaseRecord line | .sharerPointers line | .tag line => s.homeDie (line * 128)

/-- A line whose pointers cannot be trusted leaves every cache of the device. Every copy is looked for where it stands, so that an M copy is
found and written back, and no line is lost (R304). -/
def State.purgeEverywhere (s : State) (line : Nat) : State :=
  let s := s.writeBackLine line
  let s : State := { s with
    cores := s.cores.mapAll fun _ c => { c with l1 := c.l1.erase line }
    dies := s.dies.mapAll fun _ d => { d with l2 := d.l2.erase line } }
  s.modHome line fun h => { h with head := none }

/-- A crew whose own state is struck: its live and waiting threads park for Foreman with POISON at address 0, and Foreman is told
(R304). -/
def State.loseCrew (s : State) (key : Nat) : State :=
  match s.crew? key with
  | none => s
  | some c =>
    let m := ~~~c.exited
    let s := s.takeTrap key { cause := cPoison, swn := 0, frag := m, failing := m, faddr := allLanes 0, exc := allLanes 0,
                              pc := c.fragPc m, tent := none, entries := c.infl, foreman := true }
    let s := s.modCrew key fun c => { c with infl := [] }
    { s with reports := s.reports ++ [Report.crewLost key] }

/-- An uncorrectable error, by the structure that it strikes (R304). -/
def State.strike (s : State) : Struck → State
  | .l1Line core line =>
    match (s.core core).l1.get? line with
    | none => s
    | some e =>
      if e.dirty ≠ 0 then s.modCore core fun c => { c with l1 := c.l1.set line { e with poison := true } }
      else if e.coh = 0 then (if e.modified then (s.poisonLine line).refresh core line else s.leaveNow line (.core core))
      else s.modCore core fun c => { c with l1 := c.l1.erase line }
  | .l2Line die line =>
    if s.homeDie (line * 128) = die then
      (if s.dirtyAtHome line then s.poisonLine line else s.modDie die fun d => { d with held := d.held.erase line })
    else match (s.die die).l2.get? line with
      | none => s
      | some e =>
        if e.dirty ≠ 0 then s.modDie die fun d => { d with l2 := d.l2.set line { e with poison := true } }
        else if e.coh = 0 then
          (if e.modified then s.poisonLine line else (s.purgeList line (.core (die * 32))).leaveNow line (.die die))
        else s.modDie die fun d => { d with l2 := d.l2.erase line }
  | .tlbEntry core asid va =>
    s.modCore core fun c => { c with tlb := c.tlb.filter fun e => !(e.asid == asid && e.page == pageOf va e.level) }
  | .dieTlb die asid va =>
    s.modDie die fun d => { d with tlb := d.tlb.filter fun e => !(e.asid == asid && e.page == pageOf va e.level) }
  | .tag line => if (s.windowOf (line * 128)).any fun w => w.tagbase != 0 then s.poisonLine line else s
  | .slot core k =>
    match (s.core core).ovls[k]? with
    | some o =>
      if o.resident then s.modOvl core o.asid o.ver o.offset fun o => { o with resident := false, code := [] } else s
    | none => s
  | .scratchLine gang line =>
    if (s.gangs.get? gang).isNone then s
    else s.modGang gang fun g => { g with scratchPoison := insertNat line g.scratchPoison }
  | .fifoEntry gang core slot index =>
    let key := (core - s.coreOfGang gang) * 48 + slot
    if index < ((s.gang gang).fifos.getD key []).length then
      s.modGang gang fun g => { g with fifoPoison := g.fifoPoison.set key (insertNat index (g.fifoPoison.getD key [])) }
    else s
  | .accWord gang word =>
    if (s.gangs.get? gang).isNone then s else s.modGang gang fun g => { g with accPoison := insertNat word g.accPoison }
  | .crewState crew => s.loseCrew crew
  | .fstRecord die table seq =>
    if ((s.die die).fst.get? table).isNone then s
    else s.modInst die table fun i =>
      if i.recs.any fun r => r.seq = seq then
        { i with recs := i.recs.filter (fun r => r.seq ≠ seq), evicts := sat64 (i.evicts + 1) }
      else i
  | .releaseRecord line => s.modHome line fun h => { h with rv := true, rd := false, lost := true }
  | .sharerPointers line => s.purgeEverywhere line

/-- SOFT_ERROR: a correctable error is corrected and counted; an uncorrectable one is counted and handled by the struck structure
(R304). -/
def execSoftError (place : Struck) (correctable : Bool) (s : State) : Host.Outcome State Fault Refusal :=
  .next (
    let s := s.countError (s.struckDie place) correctable
    if correctable then s else s.strike place)

/-- BACKGROUND_SCRUB: the scrubber reads lines and words; an error that it meets is a SOFT_ERROR of its own (R304). -/
def execBackgroundScrub (die : Nat) (s : State) : Host.Outcome State Fault Refusal := .next (s.modDie die fun d => d)

end Sys2Proof.Machine
end

