-- ==== Sys2Proof/Machine/Launch.lean ====
section
/-!
DEFINITION. Launch parameter blocks and the refusals of R309 (R307, R309), the traversal order (R313), the room of R312 on a core, and
the device's own reads and writes for a launch (R308, R310, R316).
-/
namespace Sys2Proof.Machine

/-! ## The block (R307) -/

/-- The fields of a block's 16 doublewords. -/
def lpbOf (d : List Nat) : Lpb :=
  let w (k : Nat) : Nat := d.getD k 0
  { mode := bits (w 0) 55 54, cores := (w 0).testBit 53, trav := bits (w 0) 52 50, swz := bits (w 0) 49 46, gcore := bits (w 0) 45 44,
    cgang := bits (w 0) 43 41, ncrew := bits (w 0) 40 32, koff := bits (w 0) 31 0, gdy := bits (w 1) 63 32, gdx := bits (w 1) 31 0,
    pri := bits (w 2) 63 61, qlen := bits (w 2) 47 32, gdz := bits (w 2) 31 0, tlbase := BitVec.ofNat 64 (w 3), tlstride := bits (w 4) 31 0,
    argp := BitVec.ofNat 64 (w 5), waitev := BitVec.ofNat 64 (w 6), waitval := BitVec.ofNat 64 (w 7), doneev := BitVec.ofNat 64 (w 8),
    doneadd := BitVec.ofNat 64 (w 9), crec := BitVec.ofNat 64 (w 10) }

/-- Gangs of the grid. -/
def Lpb.gangs (b : Lpb) : Nat := b.gdx * b.gdy * b.gdz
/-- Cores of a gang. -/
def Lpb.ncore (b : Lpb) : Nat := b.gcore + 1
/-- Gangs of a full cluster. -/
def Lpb.perCluster (b : Lpb) : Nat := b.cgang + 1
/-- Clusters of the grid (R313). -/
def Lpb.clusters (b : Lpb) : Nat := (b.gangs + b.cgang) / b.perCluster
/-- Gangs of cluster `c` (R313). -/
def Lpb.clusterSize (b : Lpb) (c : Nat) : Nat := min b.perCluster (b.gangs - c * b.perCluster)
/-- Crews of a gang on its core `j` (R312). -/
def Lpb.crewsOn (b : Lpb) (j : Nat) : Nat := (b.ncrew + b.gcore - j) / b.ncore
/-- Length of a QUANTUM slice in cycles (R307). -/
def Lpb.slice (b : Lpb) : Nat := (if b.qlen = 0 then 1024 else b.qlen) * 1024

/-- Is a range of addresses canonical (R42)? -/
def rangeCanonical (first len : Nat) : Bool :=
  let last := first + len - 1
  last < 2 ^ 64 && first / 2 ^ 57 = last / 2 ^ 57 && (first / 2 ^ 57 = 0 || first / 2 ^ 57 = 127)

/-- Cause 0x01 of R309: a reserved field or a field outside its values, too many gangs, or a thread-local range that is not canonical. -/
def lpbBad (d : List Nat) : Bool :=
  let w (k : Nat) : Nat := d.getD k 0
  let b := lpbOf d
  bits (w 0) 63 56 ≠ 1 || b.mode = 3 || b.trav > 3 || b.swz > 8 || b.ncrew = 0 || b.ncrew > 256 || b.koff % 4096 ≠ 0 ||
  b.gdx = 0 || b.gdy = 0 || b.gdz = 0 || b.gangs > 2 ^ 48 || bits (w 2) 60 48 ≠ 0 || bits (w 4) 63 32 ≠ 0 || (d.drop 11).any (· ≠ 0) ||
  b.tlbase.toNat % 4096 ≠ 0 || b.tlstride % 4096 ≠ 0 || b.tlstride < 0x9000 || b.waitev.toNat % 8 ≠ 0 || b.doneev.toNat % 8 ≠ 0 ||
  b.crec.toNat % 64 ≠ 0 || !rangeCanonical b.tlbase.toNat (b.tlstride * b.gangs * b.ncrew * 32)

/-- The SLOTS of overlay 0. -/
def Header.slots0 (h : Header) : Nat := match h.dir with
  | (_, n) :: _ => n
  | [] => 0

/-- Banks that a gang takes on each core at placement (R202). -/
def Header.bankCount (h : Header) : Nat := h.scr + h.fifo

/-! ## Traversal (R313) -/

/-- HilbertXY of R313 for the distance `d`: `k` doublings from the side `s`, `t` the digits still to use. -/
def hilbertFrom : Nat → Nat → Nat → Nat → Nat → Nat × Nat
  | 0, _, _, x, y => (x, y)
  | k + 1, s, t, x, y =>
    let rx := t / 2 % 2
    let ry := (t % 2 + rx) % 2
    let (x, y) :=
      if ry = 0 then
        let (x, y) := if rx = 1 then (s - 1 - x, s - 1 - y) else (x, y)
        (y, x)
      else (x, y)
    hilbertFrom k (s * 2) (t / 4) (x + s * rx) (y + s * ry)

/-- The bits of a Morton number at even or odd places. -/
def evenBits (d odd : Nat) : Nat :=
  (List.range 32).foldl (fun n j => if d.testBit (2 * j + odd) then n + 2 ^ j else n) 0

/-- Doublings to reach a side of at least `n`. -/
def curveBits (n : Nat) : Nat := ((List.range 33).find? fun k => n ≤ 2 ^ k).getD 32

/-- The position of curve distance `d` in a square of side 2^k. -/
def curveAt (trav k d : Nat) : Nat × Nat :=
  if trav = 2 then (evenBits d 0, evenBits d 1) else hilbertFrom k 1 d 0 0

/-- The `n`th position of a curve that lies inside a strip of `w` × `h`, from the distance `d` on. -/
def curveNth (trav k w h : Nat) : Nat → Nat → Nat → Nat × Nat
  | 0, _, _ => (0, 0)
  | f + 1, d, n =>
    let p := curveAt trav k d
    if p.1 < w && p.2 < h then
      match n with
      | 0 => p
      | m + 1 => curveNth trav k w h f (d + 1) m
    else curveNth trav k w h f (d + 1) n

/-- The `n`th position of a strip of `w` × `h` (R313). -/
def stripAt (trav w h n : Nat) : Nat × Nat :=
  if trav = 0 then (n % w, n / w)
  else if trav = 1 then (n / h, n % h)
  else
    let k := curveBits (max w h)
    curveNth trav k w h (2 ^ (2 * k)) 0 n

/-- The index (x, y, z) of the gang at a position (R313). -/
def Lpb.gangAt (b : Lpb) (p : Nat) : Nat × Nat × Nat :=
  let plane := b.gdx * b.gdy
  let z := p / plane
  let r := p % plane
  let w := if b.swz = 0 then b.gdx else min b.gdx (2 ^ b.swz)
  let k := r / (w * b.gdy)
  let (x, y) := stripAt b.trav (min w (b.gdx - k * w)) b.gdy (r - k * (w * b.gdy))
  (k * w + x, y, z)

/-- The linear index of a gang (R308). -/
def Lpb.linear (b : Lpb) (i : Nat × Nat × Nat) : Nat := i.1 + b.gdx * (i.2.1 + b.gdy * i.2.2)

/-! ## Room (R312) -/

/-- What placing gangs takes of a core: crews, banks and accumulator bytes. -/
structure Load where
  crews : Nat
  banks : Nat
  acc : Nat
deriving DecidableEq, Repr

/-- The sum of two loads. -/
def Load.plus (a b : Load) : Load := ⟨a.crews + b.crews, a.banks + b.banks, a.acc + b.acc⟩

/-- What a gang holds on a core where it is resident. A freed gang whose cluster has not retired holds the places of all its crews (R314). -/
def State.gangLoad (s : State) (key : Nat) (g : Gang) (core : Nat) : Load :=
  match g.core0 with
  | none => ⟨0, 0, 0⟩
  | some c0 =>
    if core < c0 || c0 + g.ncore ≤ core then ⟨0, 0, 0⟩
    else
      let j := core - c0
      { crews := if g.freed then (g.ncrew + g.ncore - 1 - j) / g.ncore else ((s.crewsOf key).filter fun p => p.2.core = core).length
        banks := (g.banks.filter fun p => p.1 / 48 = j && p.2 != .unmapped).length
        acc := accPart g.hdr g.ncore }

/-- What the resident gangs hold on a core, but for some of them. -/
def State.coreLoad (s : State) (without : List Nat) (core : Nat) : Load :=
  s.gangs.foldl (fun n g => if without.contains g.1 then n else n.plus (s.gangLoad g.1 g.2 core)) ⟨0, 0, 0⟩

/-- Can the core hold a further gang's part: its crews, banks and accumulator part, and overlay 0 within the quota (R312)? `held` is what
the core holds. -/
def State.coreFits (s : State) (b : Lpb) (h : Header) (asid : BitVec 12) (core j : Nat) (held : Load) : Bool :=
  held.crews + b.crewsOn j ≤ 64 && held.banks + h.bankCount ≤ 44 && held.acc + accPart h b.ncore ≤ 262144 &&
  h.slots0 ≤ quotaOf (s.core core) asid

/-- The load of a gang of this block on its core `j`. -/
def Lpb.load (b : Lpb) (h : Header) (j : Nat) : Load := ⟨b.crewsOn j, h.bankCount, accPart h b.ncore⟩

/-- The load that a list of first cores, where gangs of this block are about to be placed, puts on a core. -/
def Lpb.trialLoad (b : Lpb) (h : Header) (trial : List Nat) (core : Nat) : Load :=
  trial.foldl (fun n c0 => if c0 ≤ core && core < c0 + b.ncore then n.plus (b.load h (core - c0)) else n) ⟨0, 0, 0⟩

/-- The lowest-numbered group of cores of a die with room for one more gang (R312, R314). -/
def State.findGroup (s : State) (b : Lpb) (h : Header) (asid : BitVec 12) (without trial : List Nat) (die : Nat) : Option Nat :=
  ((List.range (32 / b.ncore)).map fun k => die * 32 + k * b.ncore).find? fun c0 =>
    (List.range b.ncore).all fun j =>
      s.coreFits b h asid (c0 + j) j ((s.coreLoad without (c0 + j)).plus (b.trialLoad h trial (c0 + j)))

/-- First cores for `n` gangs on one die, after those of a trial; none when they do not fit. -/
def State.findOnDie (s : State) (b : Lpb) (h : Header) (asid : BitVec 12) (without : List Nat) (die : Nat) : Nat → List Nat → Option (List Nat)
  | 0, _ => some []
  | n + 1, trial =>
    match s.findGroup b h asid without trial die with
    | none => none
    | some c0 => (s.findOnDie b h asid without die n (trial ++ [c0])).map (c0 :: ·)

/-- The die of a cluster when its mode fixes it (R314). -/
def Lpb.dieOf (b : Lpb) (c : Nat) : Option Nat :=
  if b.mode ≠ 1 then none else some (if b.clusters ≥ 8 then c * 8 / b.clusters else c)

/-- The dies in the order in which a cluster looks for room: the one that its mode fixes, or any, the first of which is free (R314; log
19). -/
def State.dieOrder (s : State) (fixed : Option Nat) : List Nat :=
  match fixed with
  | some d => if (s.die d).alive then [d] else []
  | none => (((List.range 8).map fun k => (Config.dieChoice s.fresh + k) % 8).filter fun d => (s.die d).alive)

/-- First cores for a cluster of `n` gangs. -/
def State.findCluster (s : State) (b : Lpb) (h : Header) (asid : BitVec 12) (without trial : List Nat) (fixed : Option Nat) (n : Nat) :
    Option (List Nat) :=
  (s.dieOrder fixed).findSome? fun d => s.findOnDie b h asid without d n trial

/-- First cores for several clusters: (fixed die, gangs) each. -/
def State.findClusters (s : State) (b : Lpb) (h : Header) (asid : BitVec 12) (without : List Nat) :
    List (Option Nat × Nat) → List Nat → Option (List (List Nat))
  | [], _ => some []
  | (d, n) :: rest, trial =>
    match s.findCluster b h asid without trial d n with
    | none => none
    | some cs => (s.findClusters b h asid without rest (trial ++ cs)).map (cs :: ·)

/-! ## Refusals for want of room (R309) -/

/-- Gangs that an otherwise idle die can hold (R309). -/
def State.idleGangs (s : State) (b : Lpb) (h : Header) (asid : BitVec 12) (die : Nat) : Nat :=
  if !(s.die die).alive then 0
  else
    (List.range (32 / b.ncore)).foldl (fun n k =>
      let c0 := die * 32 + k * b.ncore
      let per (j : Nat) : Nat :=
        if h.slots0 > quotaOf (s.core (c0 + j)) asid then 0
        else
          let p := accPart h b.ncore
          let a := if h.bankCount = 0 then 64 else 44 / h.bankCount
          let q := if p = 0 then 64 else 262144 / p
          min (64 / max 1 (b.crewsOn j)) (min a q)
      n + (List.range b.ncore).foldl (fun m j => min m (per j)) 64) 0

/-- Gangs that an ORDERED grid places on a die (R314). -/
def Lpb.orderedLoad (b : Lpb) (die : Nat) : Nat :=
  let n := b.clusters
  if n < 8 then (if die < n then b.clusterSize die else 0)
  else
    let first := (die * n + 7) / 8
    let last := ((die + 1) * n + 7) / 8
    min b.gangs (last * b.perCluster) - min b.gangs (first * b.perCluster)

/-- Does the whole grid fit an otherwise idle device (R309, cause 0x06)? -/
def State.wholeFits (s : State) (b : Lpb) (h : Header) (asid : BitVec 12) : Bool :=
  let cap (d : Nat) : Nat := s.idleGangs b h asid d
  if b.mode = 1 then (List.range 8).all fun d => b.orderedLoad d ≤ cap d
  else
    let full := b.gangs / b.perCluster
    let rest := b.gangs % b.perCluster
    let room := (List.range 8).foldl (fun n d => n + cap d / b.perCluster) 0
    full < room || (full = room && (rest = 0 || (List.range 8).any fun d => rest ≤ cap d % b.perCluster))

/-- The cause for which a block is refused, the lowest when there are several; otherwise its header (R309). `ver` is the bound version. -/
def State.launchCheck (s : State) (asid : BitVec 12) (ver : Option (BitVec 16)) (d : List Nat) : Except (BitVec 8) Header :=
  let b := lpbOf d
  if lpbBad d then .error 0x01
  else
    match ver with
    | none => .error 0x02
    | some v =>
      match s.readHeader asid v b.koff b.ncore with
      | .error .bad => .error 0x02
      | .error .level => .error 0x03
      | .ok h =>
        if accPart h b.ncore > 262144 then .error 0x04
        else if (List.range 8).all fun k => s.idleGangs b h asid k < min b.perCluster b.gangs then .error 0x05
        else if b.cores && !s.wholeFits b h asid then .error 0x06
        else .ok h

/-! ## The device's accesses for a launch -/

/-- A load of 8 bytes that the device makes for an ASID: the checks of R290 but SUP (log 20), and poison. AC is set (R291). The read of a
counter is a SYSTEM-scope acquire (R310). -/
def State.launchLoad (s : State) (asid : BitVec 12) (va : Word) (counter : Bool) : Except Failure Word × State :=
  match walk s asid va with
  | .error f => (.error ⟨cXlate, match f with | none => va | some pa => BitVec.ofNat 64 pa⟩, s)
  | .ok l =>
    let pa := leafPa l va false
    if (s.windowOf pa).isNone then (.error ⟨cXlate, BitVec.ofNat 64 pa⟩, s)
    else if !pteRd l.pte then (.error ⟨cProt, va⟩, s)
    else if counter && pteOrd l.pte then (.error ⟨cOrdrmw, va⟩, s)
    else
      let s := (if pteAc l.pte then s else s.writePte l.pteAt (l.pte ||| 0x80#64)).homeTouch (lineOf pa) (pteKeep l.pte)
      let s := if counter then s.deviceAcquire (lineOf pa) else s
      if s.linePoisoned (lineOf pa) then (.error ⟨cPoison, va⟩, s)
      else if s.inSpill asid va 8 then
        let (v, s) := s.spillValue 8
        (.ok (BitVec.ofNat 64 v), s)
      else (.ok (BitVec.ofNat 64 (readNat s.mem pa 8)), s)

/-- Where a write that the device makes for an ASID goes, with AC and D set: its physical address, and whether the page is ORDERED. -/
def State.launchPlace (s : State) (asid : BitVec 12) (va : Word) : Except Failure (Nat × Bool) × State :=
  match walk s asid va with
  | .error f => (.error ⟨cXlate, match f with | none => va | some pa => BitVec.ofNat 64 pa⟩, s)
  | .ok l =>
    let pa := leafPa l va false
    if (s.windowOf pa).isNone then (.error ⟨cXlate, BitVec.ofNat 64 pa⟩, s)
    else if !pteW l.pte || pteCode l.pte then (.error ⟨cProt, va⟩, s)
    else
      let e := l.pte ||| 0x180#64
      let s := (if e = l.pte then s else s.writePte l.pteAt e).homeTouch (lineOf pa) (pteKeep l.pte)
      (.ok (pa, pteOrd l.pte), s)

/-- Bytes that the device writes at their home: the TRACKED lists are purged first (R298). The bytes do not cross a line. -/
def State.launchWrite (s : State) (pa : Nat) (bs : List Byte) : State := (s.purgeAll (lineOf pa)).memWrite pa bs

/-- The 16 doublewords of a block, read whole (R310). -/
def State.readBlock (s : State) (asid : BitVec 12) (va : Word) : Except Failure (List Nat) × State :=
  (List.range 16).foldl (fun r k =>
    match r with
    | (.error f, s) => (.error f, s)
    | (.ok ws, s) =>
      match s.launchLoad asid (va + BitVec.ofNat 64 (8 * k)) false with
      | (.error f, s) => (.error f, s)
      | (.ok w, s) => (.ok (ws ++ [w.toNat]), s)) (.ok [], s)

end Sys2Proof.Machine
end

