-- ==== Sys2Proof/Machine/Finish.lean ====
section
/-!
DEFINITION. The end of crews, gangs and grids: gangs freed (R13, R232, R265, R314), grids that Foreman ends (R308, R317, R325), and the
completion of a grid (R316, R317).
-/
namespace Sys2Proof.Machine

/-- A grid's record, when it has one. -/
def State.grid? (s : State) (k : Nat) : Option Grid := s.grids.get? k

/-- Change a grid's record when it has one. -/
def State.modGrid (s : State) (k : Nat) (f : Grid → Grid) : State :=
  match s.grid? k with
  | some g => { s with grids := s.grids.set k (f g) }
  | none => s

/-! ## Gangs -/

/-- The cores of a resident gang. -/
def Gang.coreList (g : Gang) : List Nat := match g.core0 with
  | some c0 => (List.range g.ncore).map (c0 + ·)
  | none => []

/-- Does some Porter run, or is it to resume, a stream of the gang (R265)? -/
def State.hasStream (s : State) (gang : Nat) : Bool :=
  s.cores.any fun c => c.2.porter.gang == some gang || c.2.porter.resumed.any fun r => r.gang = gang

/-- Has every job of the gang ended, but for those that are HELD (R232)? -/
def State.jobsOver (s : State) (gang : Nat) : Bool :=
  s.cores.all fun c => c.2.jobs.all fun j => j.gang != gang || j.ended || j.st == .held

/-- May a gang be freed: its crews are, its jobs have ended or are HELD, its stream has ended (R13, R232, R265)? -/
def State.gangOver (s : State) (key : Nat) (g : Gang) : Bool :=
  !g.freed && (s.crewsOf key).isEmpty && s.jobsOver key && !s.hasStream key &&
  g.savedJobs.all (fun j => j.ended || j.st == .held) && g.savedStreams.isEmpty

/-- Cancel the jobs of a gang that have not ended, and take its jobs off the cores: the number that were HELD (R225, R232). -/
def State.dropJobs (s : State) (gang : Nat) : Nat × State :=
  let held := s.cores.foldl (fun n c => n + (c.2.jobs.filter fun j => j.gang = gang && j.st == .held).length) 0
  let s := s.cores.foldl (fun s c => (List.range c.2.jobs.length).foldl (fun s i =>
    if ((c.2.jobs[i]?).map fun j => j.gang) = some gang then s.cancelJob c.1 i else s) s) s
  (held, { s with cores := s.cores.mapAll fun _ c => { c with jobs := c.jobs.filter fun j => j.gang != gang } })

/-- A gang's record goes, its context region with it. -/
def State.eraseGang (s : State) (key : Nat) : State :=
  let g := s.gang key
  { s with gangs := s.gangs.erase key, ctxMaps := s.ctxMaps.filter fun m => !(m.asid == g.asid && m.va = g.ctxVa) }

/-- Is every gang of a cluster freed? -/
def State.clusterFreed (s : State) (c : Cluster) : Bool := c.gangs.all fun k => match s.gangs.get? k with
  | some g => g.freed
  | none => true

/-- Clusters of an ORDERED grid retire in order: one that is freed and has no earlier one left gives its cores back (R314). -/
def State.retireClusters (s : State) (grid : Nat) : List Cluster → State
  | [] => s
  | c :: rest =>
    if c.retired then s.retireClusters grid rest
    else if !s.clusterFreed c then s
    else
      let s := c.gangs.foldl State.eraseGang s
      let s := s.modGrid grid fun g => { g with clusters := g.clusters.map fun y => if y.index = c.index then { y with retired := true } else y }
      s.retireClusters grid rest

/-- A gang is freed (R13, R43, R232, R314). -/
def State.freeGang (s : State) (key : Nat) : State :=
  let g := s.gang key
  let (held, s) := s.dropJobs key
  let held := held + (g.savedJobs.filter fun j => j.st == .held).length
  let s := s.modGrid g.grid fun y => { y with gangsFreed := y.gangsFreed + 1, heldcan := y.heldcan + held }
  match s.grid? g.grid with
  | some y =>
    if y.lpb.mode = 1 then (s.modGang key fun g => { g with freed := true }).retireClusters g.grid y.clusters
    else s.eraseGang key
  | none => s.eraseGang key

/-- Free every gang that is over. -/
def State.freeGangs (s : State) : State :=
  s.gangs.foldl (fun s g =>
    match s.gangs.get? g.1 with
    | some x => if s.gangOver g.1 x then s.freeGang g.1 else s
    | none => s) s

/-! ## Ending a grid (R317, R325) -/

/-- A gang of a grid that ends: its crews, jobs and streams end with it, and it counts as freed. -/
def State.killGang (s : State) (key : Nat) : State :=
  let g := s.gang key
  let s := (s.crewsOf key).foldl (fun s p => (s.modCrew p.1 fun c => c.exitLanes fullMask).freeCrew p.1) s
  let (held, s) := s.dropJobs key
  let held := held + (g.savedJobs.filter fun j => j.st == .held).length
  let s := s.cores.foldl (fun s c =>
    let s := s.modPorter c.1 fun p =>
      { p with copies := p.copies.filter (fun y => y.gang != key), resumed := p.resumed.filter fun r => r.gang != key }
    if c.2.porter.gang == some key then s.endStream c.1 else s) s
  let s := s.modGrid g.grid fun y =>
    { y with gangsFreed := if g.freed then y.gangsFreed else y.gangsFreed + 1, heldcan := y.heldcan + held }
  s.eraseGang key

/-- Foreman ends a grid that has not completed: nothing more of it is placed, its gangs end, and it goes through steps 2 to 7 with STATUS 3
(R317, R325). -/
def State.endGrid (s : State) (grid : Nat) (cause : BitVec 8) (addr : Word) : State :=
  match s.grid? grid with
  | none => s
  | some g =>
    match g.st with
    | .placing | .running =>
      let s := (s.gangs.filter fun y => y.2.grid = grid).foldl (fun s y => s.killGang y.1) s
      s.modGrid grid fun g => { g with st := .completing 2, status := 3, cause := cause, faddr := addr, nextPos := g.lpb.gangs, stuck := false }
    | _ => s

/-! ## Completion (R316, R317) -/

/-- The completion record (R317), as doublewords. -/
def Grid.record (g : Grid) : List Nat :=
  [g.lseq.toNat * 2 ^ 32 + g.cause.toNat * 2 ^ 8 + g.status, (g.heldcan % 2 ^ 32) * 2 ^ 32 + g.reddrop % 2 ^ 32, g.redaddr.toNat,
   (if g.status = 3 then g.faddr.toNat else 0), g.gangsFreed % 2 ^ 64, 0, 0, 0]

/-- The bytes of doublewords. -/
def dwordBytes (ws : List Nat) : List Byte := ws.flatMap (toBytes 8)

/-- A completion step that fails is reported, and completion stops there (R316). -/
def State.stepFails (s : State) (grid : Nat) (f : Failure) : State :=
  let s := s.modGrid grid fun g => { g with stuck := true }
  { s with reports := s.reports ++ [Report.completion grid f.addr f.cause] }

/-- Every store of a grid reaches memory: the kernel boundary with the SYSTEM-scope release of its record (R128, R302). -/
def State.kernelBoundary (s : State) : State := (s.dies.map Prod.fst).foldl State.cleanHomes s.flushDevice

/-- The core whose tags the dispatcher's own requests carry: the first of the lowest die that is alive (log 103). -/
def State.signalCore (s : State) : Nat := (s.liveDies.headD 0) * 32

/-- The counter that a grid signals, with its addition made as one tagged RMW at its home, a SYSTEM-scope release (R192, R299, R302, R316; no
core makes it: log 103). -/
def State.signalDone (s : State) (grid : Nat) (g : Grid) : Except Failure Unit × State :=
  if g.lpb.doneev = 0 then (.ok (), s)
  else
    match s.launchPlace g.asid g.lpb.doneev with
    | (.error f, s) => (.error f, s)
    | (.ok (pa, ordered), s) =>
      if ordered then (.ok (), { s with reports := s.reports ++ [Report.orderedDone grid g.lpb.doneev] })
      else if s.linePoisoned (lineOf pa) then (.ok (), { s with reports := s.reports ++ [Report.redDrop grid g.lpb.doneev] })
      else
        let core := s.signalCore
        let t := { Tagged.ask 0 false false g.lpb.doneadd 0 with
          pa := pa, grid := grid, addr := g.lpb.doneev, keep := s.deviceKeep g.asid g.lpb.doneev, red := true }
        let s := (s.awaitPlace core pa).recallRecord (lineOf pa)
        (.ok (), (s.rmwHome core t).2.deviceRelease (lineOf pa))

/-- The next step of a grid's completion (R316). -/
def State.completeStep (s : State) (grid : Nat) : State :=
  match s.grid? grid with
  | none => s
  | some g =>
    let next (k : Nat) (s : State) : State := s.modGrid grid fun g => { g with st := .completing k }
    match g.st with
    | .completing 2 => next 3 (s.redDrain fun e => e.grid = grid)
    | .completing 3 => next 4 (s.fstBoundary grid)
    | .completing 4 => next 5 (s.kernelBoundary.addBinds g.asid g.ver (-1))
    | .completing 5 =>
      match s.launchPlace g.asid g.lpb.crec with
      | (.error f, s) => s.stepFails grid f
      | (.ok (pa, _), s) => next 6 (((s.recallRecord (lineOf pa)).launchWrite pa (dwordBytes g.record)).deviceRelease (lineOf pa))
    | .completing 6 =>
      match s.signalDone grid g with
      | (.error f, s) => s.stepFails grid f
      | (.ok _, s) => next 7 s
    | .completing _ =>
      let s := s.modQueue g.queue fun q => { q with current := none }
      { s with grids := s.grids.erase grid }
    | _ => s

/-- The remaining steps of a completion, up to one that fails. -/
def State.completeFrom : Nat → State → Nat → State
  | 0, s, _ => s
  | k + 1, s, grid =>
    match s.grid? grid with
    | some g => if g.stuck then s else (s.completeStep grid).completeFrom k grid
    | none => s

/-- Has every gang of a running grid been freed (R316 step 1)? -/
def State.gridOver (s : State) (grid : Nat) (g : Grid) : Bool :=
  g.st == .running && !(s.gangs.any fun y => y.2.grid = grid && !y.2.freed)

/-- GRID_COMPLETION (R316): a grid whose gangs are all freed, or whose completion has begun, completes. -/
def execGridCompletion (grid : Nat) (s : State) : Host.Outcome State Fault Refusal :=
  .next (match s.grid? grid with
    | none => s
    | some g =>
      let s := if s.gridOver grid g then
          let s := (s.gangs.filter fun y => y.2.grid = grid).foldl (fun s y => s.eraseGang y.1) s
          s.modGrid grid fun g => { g with st := .completing 2, status := 1 }
        else s
      s.completeFrom 6 grid)

/-! ## Foreman's decisions on fragments, crews and grids (R325, R331, R333) -/

/-- Is the crew's gang on its cores? -/
def State.residentCrew? (s : State) (key : Nat) : Option Crew :=
  if (s.gang (gangOf key)).core0.isSome then s.crew? key else none

/-- FOREMAN_RESUME: a fragment parked for Foreman resumes as TRET would resume it, when its crew has room for its replay entries (R325, R329,
R331). One of a saved gang stays parked: Foreman resumes it after the gang (R335, R336). -/
def State.resumeFrag (s : State) (key slot : Nat) : State :=
  match s.residentCrew? key with
  | none => s
  | some c =>
    match c.slots.getD slot none with
    | some u =>
      if u.foreman then (s.setCrew key { c with slots := c.slots.setIfInBounds slot (some { u with resume := true }) }).settleCrew key else s
    | none => s

/-- FOREMAN_RESUME. -/
def execForemanResume (crew slot : Nat) (s : State) : Host.Outcome State Fault Refusal := .next (s.resumeFrag crew slot)

/-- FOREMAN_KILL_CREW: each thread of the crew ends as EXIT does and its frame slots are released (R325). -/
def execForemanKillCrew (crew : Nat) (s : State) : Host.Outcome State Fault Refusal :=
  .next (match s.residentCrew? crew with
    | some _ =>
      (s.modCrew crew fun c => { c.exitLanes fullMask with slots := Vector.replicate 4 none, infl := [], run := none }).settleCrew crew
    | none => s)

/-- FOREMAN_END_GRID (R325). -/
def execForemanEndGrid (grid : Nat) (cause : BitVec 8) (addr : Word) (s : State) : Host.Outcome State Fault Refusal :=
  .next (s.endGrid grid cause addr)

/-- The fault address that a frame slot's trap reported, in its lowest failing lane. -/
def SlotUse.faultAddr (u : SlotUse) : Word := match lowest u.trap.failing with
  | some l => u.trap.faddr.at l
  | none => 0

/-- Fragments of an ASID parked for Foreman with ENGFAULT at an address that satisfies `p`: crew and slot. -/
def State.parkedAt (s : State) (which : Nat → Crew → Bool) (p : Nat → Bool) : List (Nat × Nat) :=
  s.crews.flatMap fun q =>
    if !which q.1 q.2 then []
    else (List.range 4).filterMap fun k =>
      match q.2.slots.getD k none with
      | some u => if u.foreman && u.cause == cEngfault && p u.faultAddr.toNat then some (q.1, k) else none
      | none => none

/-- The grids of parked fragments end, or the fragments resume. -/
def State.settleParked (s : State) (endGrid : Bool) (fs : List (Nat × Nat)) (addr : Word) : State :=
  if endGrid then ((fs.map fun f => s.gridOf f.1).eraseDups).foldl (fun s g => s.endGrid g cEngfault addr) s
  else fs.foldl (fun s f => s.resumeFrag f.1 f.2) s

/-- FOREMAN_EXTEND_SPILL: Foreman extends a full spill area and resumes the fragments that met it, or ends their grids (R190). -/
def execForemanExtendSpill (asid : BitVec 12) (entries : Nat) (endGrid : Bool) (s : State) : Host.Outcome State Fault Refusal :=
  .next (
    let e := s.asidEntry asid
    let fs := s.parkedAt (fun k _ => (s.gang (gangOf k)).asid == asid) fun a => a = e.redspill.toNat
    let s := if endGrid || entries < e.redsplen.toNat || entries ≥ 2 ^ 32 then s
      else s.modAsid asid fun e => { e with redsplen := BitVec.ofNat 32 entries }
    s.settleParked endGrid fs e.redspill)

/-- FOREMAN_GROW_CARVEOUT: for a full DEFERRED queue Foreman grows the die's carve-out and resumes the fragments that met it, or ends their
grids (R250). -/
def execForemanGrowCarveout (die records : Nat) (endGrid : Bool) (s : State) : Host.Outcome State Fault Refusal :=
  .next (
    let fs := s.parkedAt (fun _ c => dieOf c.core = die) fun a => a < 32
    let s := if endGrid then s else s.growFst die records
    s.settleParked endGrid fs 0)

/-- FOREMAN_CREATE_VERSION: after a store to a CODE page, Foreman creates an unpublished version whose code map names a writable copy of the
page, and resumes the store (R274). The map has one entry for each page of the bound version, and the copy replaces the page stored to. -/
def State.createVersion (s : State) (key slot : Nat) (v : BitVec 16) (codeMap copy : Nat) : State :=
  match s.crew? key with
  | none => s
  | some c =>
    let asid := (s.gang (gangOf key)).asid
    match (c.slots.getD slot none), s.version asid c.cver with
    | some u, some (x, y) =>
      if !u.foreman || u.cause != cProt then s
      else
        let va := u.faultAddr
        match walk s asid va with
        | .error _ => s
        | .ok l =>
          if !pteCode l.pte then s
          else
            let page := leafPa l va false / 16384 * 16384
            let n := wbits y 18 0
            let old (p : Nat) : Nat := readNat s.mem (wbits x 63 12 * 4096 + 8 * p) 8
            let s := s.copyPage (pteKeep l.pte) (copy * 16384) page 16384
            let s := (List.range n).foldl (fun s p =>
              let e := old p
              s.memWrite (codeMap * 4096 + 8 * p) (toBytes 8 (if pteAddr (BitVec.ofNat 64 e) = page then copy * 16384 else e))) s
            let a := versionAt (s.asidEntry asid).cvtab v
            let s := s.deviceWrite asid a (BitVec.ofNat 64 (codeMap * 4096 + 1))
            let s := s.deviceWrite asid (a + 8) (BitVec.ofNat 64 n)
            -- the copy is mapped at the stored address: a leaf of its own page size, not CODE
            let s := if l.level = 3 then
                s.writePte l.pteAt (BitVec.ofNat 64 (l.pte.toNat - pteAddr l.pte + copy * 16384) &&& ~~~(0x20000000000000#64))
              else s
            let s := s.tlbDrop fun e => e.asid == asid && e.meets va.toNat va.toNat
            s.resumeFrag key slot
    | _, _ => s

/-- FOREMAN_CREATE_VERSION. -/
def execForemanCreateVersion (crew slot : Nat) (version : BitVec 16) (codeMap copy : Nat) (s : State) : Host.Outcome State Fault Refusal :=
  .next (s.createVersion crew slot version codeMap copy)

end Sys2Proof.Machine
end

