-- ==== Sys2Proof/Machine/Save.lean ====
section
/-!
DEFINITION. Pre-emption of a gang and its save area (R335 to R339), its resumption (R340), and the withdrawal of a lane from a wait at a
CONV (R333).
-/
namespace Sys2Proof.Machine

/-! ## The layout of the save area (R337 to R339) -/

/-- Round up to a multiple of 64. -/
def align64 (n : Nat) : Nat := (n + 63) / 64 * 64

/-- Physical address of a gang's save area: it follows the frame slots in the context region (R324). -/
def Gang.areaPa (g : Gang) : Nat := g.ctxPa + g.ncrew * 65536

/-- Bytes of a register item (R338). -/
def Tag.itemLen : Tag → Nat
  | .u => 8
  | .a => 16
  | .g => 256

/-- A register item at an offset (R338). -/
def itemFields (off : Nat) (t : Tag) (v : Lanes Word) : List (Nat × Nat × Nat) :=
  match t with
  | .u => [(off, 8, (v.at 0).toNat)]
  | .a => [(off, 8, (v.at 0).toNat), (off + 8, 8, (v.at 1 - v.at 0).toNat % 2 ^ 32)]
  | .g => laneFields off 8 fun l => (v.at l).toNat

/-- The items of a crew's register image, in order (R338). -/
def Crew.items (c : Crew) (h : Header) : List (Tag × Lanes Word) :=
  (c.tags.toList.zip c.regs.toList).take h.regs ++ (if h.prop then c.stags.toList.zip c.shadow.toList else []) ++
  (c.latches.toList.filter fun b => b.valid).map fun b => (b.tag, b.val)

/-- Offset of the replay entries in a crew's record (R338). -/
def Crew.entriesOff (c : Crew) (h : Header) : Nat := align64 (0x1380 + (c.items h).foldl (fun n p => n + p.1.itemLen) 0)

/-- RLEN of a crew's record (R338). -/
def Crew.recordLen (c : Crew) (h : Header) : Nat := c.entriesOff h + 0x340 * c.infl.length

/-- Items laid out from an offset. -/
def itemsFrom : Nat → List (Tag × Lanes Word) → List (Nat × Nat × Nat)
  | _, [] => []
  | off, p :: rest => itemFields off p.1 p.2 ++ itemsFrom (off + p.1.itemLen) rest

/-- The lanes that wait, and their masks (R159, R331). -/
def Crew.waitMask (c : Crew) (l : Lane) : Option Mask := match (c.th l).st with
  | .waiting m | .returning m => some m
  | _ => none

/-- Is a lane parked? -/
def Crew.parked (c : Crew) (l : Lane) : Bool := match (c.th l).st with
  | .parked _ => true
  | _ => false

/-- A crew's record at an offset (R338). -/
def Crew.recordFields (c : Crew) (h : Header) (idx o : Nat) : List (Nat × Nat × Nat) :=
  let mask (p : Lane → Bool) : Nat := (maskOf p).toNat
  let lat := c.latches.toList.filter fun b => b.valid
  [(o, 8, c.cver.toNat * 2 ^ 48 + idx * 2 ^ 32 + c.recordLen h),
   (o + 0x8, 8, mask (fun l => (c.waitMask l).isSome) * 2 ^ 32 + c.exited.toNat),
   (o + 0x10, 8, mask c.parked * 2 ^ 32 + mask fun l => (c.th l).sup),
   (o + 0x18, 8, mask (fun l => (c.th l).pmode) * 2 ^ 32 + (c.slots.toList.foldr (fun u n => n * 2 + (if u.isSome then 1 else 0)) 0) * 2 ^ 16 +
      c.latchBits * 2 ^ 12 + c.infl.length * 2 ^ 8)] ++
  c.preds.toList.zipIdx.map (fun p => (o + 0x20 + 4 * p.2, 4, if p.2 = 0 then fullMask.toNat else p.1.toNat)) ++
  laneFields (o + 0x40) 4 (fun l => (c.th l).pc.toNat) ++ laneFields (o + 0xC0) 4 (fun l => ((c.waitMask l).getD 0).toNat) ++
  laneFields (o + 0x140) 2 (fun l => (c.th l).fstat.toNat % 2 ^ 13) ++ laneFields (o + 0x180) 2 (fun l => (c.th l).rsdep) ++
  laneFields (o + 0x1C0) 4 (fun l => (c.th l).pacc.toNat) ++ laneFields (o + 0x240) 4 (fun l => (c.th l).ptot.toNat) ++
  laneFields (o + 0x2C0) 1 (fun l => (c.th l).wm.toNat) ++ [(o + 0x2E0, 8, c.barcm.toNat)] ++
  c.barm.toList.zipIdx.map (fun m => (o + 0x300 + 4 * m.2, 4, m.1.toNat)) ++
  [(o + 0x340, 8, packTags (c.tags.toList.take 32)),
   (o + 0x348, 8, packTags (lat.map fun b => b.tag) * 2 ^ 48 + packTags c.stags.toList * 2 ^ 32 + packTags (c.tags.toList.drop 32))] ++
  laneFields (o + 0x350) 1 (fun l => (c.th l).rstk.length) ++
  (List.range 16).flatMap (fun j => laneFields (o + 0x380 + 256 * j) 8 fun l => ((c.th l).rstk.getD j 0).toNat) ++
  itemsFrom (o + 0x1380) (c.items h) ++
  (c.infl.zipIdx.map fun e => entryFields (o + c.entriesOff h + 0x340 * e.2) e.1).flatten

/-- Crew records from an offset, with the offset past them. -/
def recordsFrom (g : Gang) : Nat → List (Nat × Crew) → Nat × List (Nat × Nat × Nat)
  | o, [] => (o, [])
  | o, p :: rest =>
    let h := p.2.header g
    let r := recordsFrom g (o + p.2.recordLen h) rest
    (r.1, p.2.recordFields h (crewIndex p.1) o ++ r.2)

/-- A bitmap of `n` bits from an offset. -/
def bitmapFields (off n : Nat) (p : Nat → Bool) : List (Nat × Nat × Nat) :=
  (List.range ((n + 7) / 8)).map fun k =>
    (off + k, 1, (List.range 8).foldl (fun x j => if 8 * k + j < n && p (8 * k + j) then x + 2 ^ j else x) 0)

/-- Bytes of a bitmap. -/
def bitmapLen (n : Nat) : Nat := (n + 7) / 8

/-- The bytes of a memory of `len` bytes from an offset. -/
def cellFields (off len : Nat) (m : List Host.Cell) : List (Nat × Nat × Nat) :=
  (m.filter fun c => c.1 < len).map fun c => (off + c.1, 1, c.2.toNat)

/-- The scratchpad section, with its length (R339). -/
def Gang.scratchSection (g : Gang) (o : Nat) : Nat × List (Nat × Nat × Nat) :=
  let n := g.hdr.scratch
  let b := bitmapLen (n / 128)
  (n + 2 * b, cellFields o n g.scratch ++ bitmapFields (o + n) (n / 128) (fun k => !g.absent.any fun a => a.line = k) ++
    bitmapFields (o + n + b) (n / 128) fun k => g.scratchPoison.contains k)

/-- The accumulator section, with its length (R339). -/
def Gang.accSection (g : Gang) (o : Nat) : Nat × List (Nat × Nat × Nat) :=
  let n := g.hdr.acc * 1024
  (n + bitmapLen (n / 8), cellFields o n g.acc ++ bitmapFields (o + n) (n / 8) fun k => g.accPoison.contains k)

/-- The keys of a gang's FIFO slots in SLOTMAP order (R339). -/
def Gang.fifoKeys (g : Gang) : List Nat := (List.range (g.ncore * 48)).filter fun k => g.banks.getD k .unmapped == .fifo

/-- FIFO records from an offset, with the offset past them (R339). -/
def fifosFrom (g : Gang) : Nat → List Nat → Nat × List (Nat × Nat × Nat)
  | o, [] => (o, [])
  | o, k :: rest =>
    let q := g.fifos.getD k []
    let r := fifosFrom g (o + 8 + 8 * q.length) rest
    (r.1, [(o, 8, q.length)] ++ q.zipIdx.map (fun e => (o + 8 + 8 * e.2, 8, e.1.toNat)) ++ r.2)

/-- The Porter's block of each core of the gang, 72 bytes each in core order (R339). -/
def Gang.porterSection (g : Gang) (o : Nat) : List (Nat × Nat × Nat) :=
  (List.range g.ncore).flatMap fun j =>
    match (g.savedStreams.find? fun p => p.1 = j).map Prod.snd with
    | none => []
    | some st => [(o + 72 * j, 8, st.pc.toNat * 2 ^ 32 + 1)] ++ st.q.toList.zipIdx.map fun q => (o + 72 * j + 8 + 8 * q.2, 8, q.1.toNat)

/-! ## Saved jobs (R232, R339) -/

/-- The extents of a card's loop levels: batches, tiles or chunks. -/
def Card.extents (c : Card) : List Nat := c.levels.map fun l => if l.kind = 3 then l.count else c.extent l.kind

/-- Steps of a card's whole loop nest that a job has behind it. -/
def Job.position (j : Job) : Nat :=
  let n := (cardOf j.card).steps
  if !j.only && (j.st == .epilogue || j.st == .held) then (j.iter + 1) * n else j.iter * n + (j.next - 1)

/-- The indices of a position, outermost level first. -/
def indicesOf : List Nat → Nat → List Nat
  | [], _ => []
  | _ :: rest, p => let inner := rest.foldl (· * ·) 1; p / inner :: indicesOf rest (p % inner)

/-- The position of indices. -/
def positionOf (ext idx : List Nat) : Nat := (ext.zip idx).foldl (fun n p => n * p.1 + p.2) 0

/-- A job at a position of its loop nest. -/
def Job.setPosition (j : Job) (p : Nat) : Job :=
  if p = j.position then j
  else
    let n := max 1 (cardOf j.card).steps
    if !j.only && (j.st == .epilogue || j.st == .held) then { j with iter := p / n - 1, next := n + 1 }
    else { j with iter := p / n, next := if p % n = 0 then 0 else p % n + 1 }

/-- Bytes of a job's record (R339). -/
def Job.recordLen (j : Job) : Nat :=
  align64 (0x200 + (if j.codebook.isSome then 2048 else 0) + (match j.staging with | some st => st.1.length | none => 0))

/-- The bytes of a list from an offset. -/
def byteFields (off : Nat) (bs : List Byte) : List (Nat × Nat × Nat) := bs.zipIdx.map fun b => (off + b.2, 1, b.1.toNat)

/-- A job's record at an offset (R339). -/
def Job.recordFields (j : Job) (o : Nat) : List (Nat × Nat × Nat) :=
  let cb := j.codebook.getD []
  let stg := match j.staging with | some st => st.1 | none => []
  [(o, 8, (jobToken j.seq j.gcore).toNat), (o + 8, 8, j.status.toNat),
   (o + 0x10, 8, j.recordLen * 2 ^ 32 + (if j.staging.isSome then 2 else 0) + (if j.codebook.isSome then 1 else 0))] ++
  (indicesOf (cardOf j.card).extents j.position).zipIdx.map (fun i => (o + 0x20 + 4 * i.2, 4, i.1)) ++
  bitmapFields (o + 0x40) 256 (fun t => j.stored.contains t) ++ byteFields (o + 0x100) j.card ++ byteFields (o + 0x200) cb ++
  byteFields (o + 0x200 + cb.length) stg

/-- Job records from an offset, with the offset past them. -/
def jobsFrom : Nat → List Job → Nat × List (Nat × Nat × Nat)
  | o, [] => (o, [])
  | o, j :: rest => let r := jobsFrom (o + j.recordLen) rest; (r.1, j.recordFields o ++ r.2)

/-- The overlays of a crew's directory that some PC or return entry of it names (R268). -/
def Crew.namedOvls (c : Crew) (h : Header) : List Nat :=
  h.dir.zipIdx.filterMap fun e => if crewPins h c e.1.1 = 0 then none else some e.2

/-- The whole save area of a gang with its saved jobs and streams: its length and fields (R337 to R339). -/
def areaFields (g : Gang) (cs : List (Nat × Crew)) : Nat × List (Nat × Nat × Nat) :=
  let jobs := g.savedJobs.filter fun j => !j.ended
  let (crewEnd, crewF) := recordsFrom g 0x380 cs
  let scr := align64 crewEnd
  let (scrLen, scrF) := g.scratchSection scr
  let acc := align64 (scr + scrLen)
  let (accLen, accF) := g.accSection acc
  let fifo := align64 (acc + accLen)
  let (fifoEnd, fifoF) := fifosFrom g fifo g.fifoKeys
  let port := align64 fifoEnd
  let job := align64 (port + 72 * g.ncore)
  let (total, jobF) := jobsFrom job jobs
  let pins := cs.foldl (fun l p => (p.2.namedOvls (p.2.header g)).foldl (fun l k => insertNat k l) l) []
  (total,
   [(0, 8, 2 ^ 56 + (g.ncore - 1) * 2 ^ 48 + g.ncrew * 2 ^ 32 + g.hdr.acc), (0x8, 8, g.hdr.scratch * 2 ^ 32), (0x10, 8, g.lin),
    (0x18, 8, g.barcgen.toNat), (0x20, 8, 0x380 * 2 ^ 32 + scr), (0x28, 8, acc * 2 ^ 32 + fifo), (0x30, 8, job * 2 ^ 32 + port),
    (0x38, 8, total * 2 ^ 32 + jobs.length)] ++
   g.bargen.toList.zipIdx.map (fun b => (0x40 + 4 * b.2, 4, b.1.toNat)) ++
   (List.range g.ncore).map (fun j => (0x80 + 16 * j, 12, (List.range 48).foldl (fun n k =>
      n + (match g.banks.getD (j * 48 + k) .unmapped with | .unmapped => 0 | .scratch => 1 | .fifo => 2) * 4 ^ k) 0)) ++
   [(0xC0, 8, g.clus)] ++
   (List.range g.ncore).flatMap (fun j => (List.range 32).map fun k => (0x100 + 128 * j + 4 * k, 4, (g.sems.getD (j * 32 + k) 0).toNat)) ++
   [(0x300, 128, pins.foldl (fun n k => n + 2 ^ k) 0)] ++
   crewF ++ scrF ++ accF ++ fifoF ++ g.porterSection port ++ jobF)

/-! ## Pre-emption (R335, R336) -/

/-- Complete the copies that the gang's streams have issued (R335 step 2). A copy that is stopped or held stays. -/
def State.finishCopies (s : State) (key : Nat) : State :=
  s.cores.foldl (fun s c => (c.2.porter.copies.filter fun y => y.gang = key).foldl (fun s y =>
    if (s.core c.1).porter.stopped.isSome || s.copyHeld c.1 y then s
    else match y.kind with
      | .reduce _ _ _ _ _ _ _ => s
      | _ => s.runCopy c.1 y) s) s

/-- Has the gang a copy that is not complete? -/
def State.copiesOpen (s : State) (key : Nat) : Bool := s.cores.any fun c => c.2.porter.copies.any fun y => y.gang = key

/-- The address of the instruction at which a lane is saved that waits for an event: the instruction issues again after the resumption
(R336). An OVCALL has pushed its return entry, which names the word after it. -/
def Thread.waitPc (t : Thread) : Option Pc := match t.st with
  | .parked (.fifo _) | .parked (.ovwait _ _ _) => some (t.pc - 4)
  | .parked (.called _) => some (entryPc t.top - 4)
  | .parked (.jobs _) | .parked (.publications _) => some t.pc
  | _ => none

/-- The entry that an OVCALL pushed in a lane is taken back. -/
def Crew.unpush (c : Crew) (l : Lane) : Crew :=
  (c.updThr (1#32 <<< l.val) fun _ t => { t with rstk := t.rstk.dropLast, rsdep := t.rsdep - 1 }).addPins l (wbits (c.th l).top 47 32) false 1

/-- The lanes of a crew that an OVCALL has parked. -/
def Crew.calledLanes (c : Crew) : List Lane := laneList.filter fun l => match (c.th l).st with
  | .parked (.called _) => true
  | _ => false

/-- A crew as it is saved: lanes that wait in an instruction which has had no effect stand at it again, with the latches that it found when no
other fragment has issued since; lanes that wait for an overlay stand at their address in it (R26, R336). -/
def Crew.unpark (c : Crew) : Crew :=
  let again := maskOf fun l => (c.th l).waitPc.isSome
  let latches := if c.last.any fun m => m &&& again != 0 then c.found else c.latches
  let thr (t : Thread) : Thread := match t.waitPc with
    | some pc => { t with st := .live, pc := pc }
    | none => match t.st with
      | .parked (.overlay _) => { t with st := .live }
      | _ => t
  let back := c.calledLanes.foldl Crew.unpush c
  { back with
    thr := lanes fun l => { thr (c.th l) with rstk := (back.th l).rstk, rsdep := (back.th l).rsdep }
    latches := latches
    active := false
    stall := 0 }

/-- The gang's buffered reductions move to the spill area; false when it is full (R335 step 5). -/
def State.spillGang (s : State) (key : Nat) : Bool × State :=
  s.cores.foldl (fun r c =>
    if !r.1 then r else spillEntries (fun e => e.gang = key) [] (r.2.core c.1).redbuf r.2 c.1) (true, s)

/-- The gang's streams and jobs leave its cores for its record (R232, R265, R335). A stream that waits at a word is saved at it (log 118). -/
def State.liftEngines (s : State) (key : Nat) : State :=
  let c0 := (s.gang key).core0.getD 0
  (s.gang key).coreList.foldl (fun s core =>
    let p := (s.core core).porter
    let mine : List (Nat × Stream) :=
      if p.gang = some key then [(core - c0, { gang := key, cver := p.cver, lo := p.lo, hi := p.hi, pc := p.pc, q := p.q })]
      else ((p.resumed.filter fun r => r.gang = key).take 1).map fun r => (core - c0, r)
    let jobs := (s.core core).jobs.filter fun j => j.gang = key
    let s := s.modGang key fun g => { g with savedStreams := g.savedStreams ++ mine, savedJobs := g.savedJobs ++ jobs }
    let s := s.modPorter core fun p => { p with resumed := p.resumed.filter fun r => r.gang != key }
    let s := if p.gang = some key then s.endStream core else s
    s.modCore core fun c => { c with jobs := c.jobs.filter fun j => j.gang != key }) s

/-- The gang's saved jobs in the order in which they were issued (R339). -/
def State.orderJobs (s : State) (key : Nat) : State :=
  s.modGang key fun g => { g with savedJobs := sortBy (fun a b => a.stamp ≤ b.stamp) g.savedJobs }

/-- Saves that can go no further are reported once, and logged (R335, R352). -/
def State.saveWaits (s : State) (key : Nat) : State :=
  if s.reports.contains (.save key) then s
  else { s with reports := s.reports ++ [Report.save key] }.logEvent 4 ((s.gang key).core0.getD 0) (s.asidEntry (s.gang key).asid).redspill.toNat 1

/-- The pre-emption that was asked for takes effect: the steps of R335. It waits, its crews stopped, while a hint run is open, while a copy is not
complete, while the spill area is full, and while the clock of one of its cores is stopped (R351). -/
def State.preempt (s : State) (key : Nat) : State :=
  let g := s.gang key
  if g.core0.isNone || g.freed || ((s.crewsOf key).any fun p => p.2.midRun) || g.coreList.any fun c => !s.clocked c then s
  else
    let s := (s.batches key).foldl (fun s _ => s.drainNext key) s
    let s := s.finishCopies key
    if s.copiesOpen key then s
    else
      match s.spillGang key with
      | (false, s) => s.saveWaits key
      | (true, s) =>
        let cores := g.coreList
        let s := (s.crewsOf key).foldl (fun s p => s.setCrew p.1 p.2.unpark) s
        let s := cores.foldl (fun s c => s.fenceRelease c) s
        let s := (s.liftEngines key).orderJobs key
        let s := s.modGang key fun g =>
          { g with
            fifoReqs := []
            semWaits := g.semWaits.map fun q => (q.1, q.2.filter fun w => w.crew.isSome) }
        let g := s.gang key
        let (total, fields) := areaFields g (s.crewsOf key)
        let s := s.memFill g.areaPa total fields
        s.modGang key fun g => { g with core0 := none, saved := some g.areaPa, absent := [], leaving := false }

/-- A pre-emption of a resident gang is asked for: its crews stop at their next issue slots, its Porters and its jobs where they stand (R335). -/
def State.askPreempt (s : State) (key : Nat) : State :=
  match s.gangs.get? key with
  | some g => if g.core0.isNone || g.freed then s else (s.modGang key fun g => { g with leaving := true }).preempt key
  | none => s

/-- The pre-emptions that have been asked for take effect where nothing holds them back (R335). -/
def State.preemptions (s : State) : State := s.gangs.foldl (fun s g => if g.2.leaving then s.preempt g.1 else s) s

/-- PREEMPTION (R335). -/
def execPreemption (gang : Nat) (s : State) : Host.Outcome State Fault Refusal := .next (s.askPreempt gang)

/-! ## Reading a save area back (R340) -/

/-- The bytes of a save area, with its address. -/
structure Area where
  m : List Host.Cell
  pa : Nat
deriving DecidableEq, Repr

/-- A number in the area. -/
def Area.n (a : Area) (off len : Nat) : Nat := readNat a.m (a.pa + off) len

/-- The save area of a gang. -/
def State.areaOf (s : State) (pa : Nat) : Area :=
  let total := readNat s.mem (pa + 0x3C) 4
  ⟨s.mem.filter fun c => pa ≤ c.1 && c.1 < pa + max total 0x380, pa⟩

/-- TOTAL -/
def Area.total (a : Area) : Nat := a.n 0x3C 4

/-- The offsets of `n` crew records, up to one whose RLEN is bad. -/
def Area.crewOffs (a : Area) : Nat → Nat → List Nat
  | _, 0 => []
  | o, n + 1 =>
    let len := a.n o 4
    if o + 0x1380 > a.total || len < 0x1380 || len % 64 ≠ 0 || o + len > a.total then [o] else o :: a.crewOffs (o + len) n

/-- Does a doubleword of the area hold a tag of code 3 in its low `n` codes? -/
def Area.badTags (a : Area) (off n : Nat) : Bool := (List.range n).any fun k => bits (a.n off 8) (2 * k + 1) (2 * k) = 3

/-- The tags of a packed field of the image. -/
def Area.tags (a : Area) (off lo n : Nat) : List Tag :=
  (List.range n).map fun k => tagOfCode (bits (a.n off 8) (lo + 2 * k + 1) (lo + 2 * k))

/-- The latches of a crew record that are valid. -/
def Area.validLatches (a : Area) (o : Nat) : List Nat := (List.range 4).filter fun k => (bits (a.n (o + 0x18) 8) 15 12).testBit k

/-- The tags of a record's register items: of its registers, its shadow, and its valid latches (R338). -/
def Area.itemTags (a : Area) (o : Nat) (h : Header) : List Tag × List Tag × List Tag :=
  ((a.tags (o + 0x340) 0 32 ++ a.tags (o + 0x348) 0 16).take h.regs, if h.prop then a.tags (o + 0x348) 32 8 else [],
   a.tags (o + 0x348) 48 (a.validLatches o).length)

/-- The offsets of a record's register items, with the offset past the last. -/
def itemOffs : Nat → List Tag → List (Nat × Tag) × Nat
  | o, [] => ([], o)
  | o, t :: rest => let r := itemOffs (o + t.itemLen) rest; ((o, t) :: r.1, r.2)

/-- The register items of a record, and the offset of its replay entries (R338). -/
def Area.layout (a : Area) (o : Nat) (h : Header) : List (Nat × Tag) × Nat :=
  let (r, sh, lat) := a.itemTags o h
  let (items, e) := itemOffs (o + 0x1380) (r ++ sh ++ lat)
  (items, o + align64 (e - o))

/-- The replay entries of a record: NREP. -/
def Area.entryCount (a : Area) (o : Nat) : Nat := min 8 (bits (a.n (o + 0x18) 8) 11 8)

/-- The bad doublewords of a replay entry (R328, R340). -/
def Area.badEntry (a : Area) (e : Nat) : List Nat :=
  (if bits (a.n (e + 0x18) 8) 63 11 ≠ 0 || bits (a.n (e + 0x18) 8) 8 8 ≠ 0 then [e + 0x18] else []) ++
  (List.range 4).filterMap fun k => if a.n (e + 0x20 + 8 * k) 8 ≠ 0 then some (e + 0x20 + 8 * k) else none

/-- The bad doublewords of a crew record of a kernel (R328, R338, R340). -/
def Area.badCrew (a : Area) (o : Nat) (h : Header) : List Nat :=
  let len := a.n o 4
  let c0 := a.n o 8
  let (items, entries) := a.layout o h
  let n := a.entryCount o
  (if bits c0 47 40 ≠ 0 || len < 0x1380 || len % 64 ≠ 0 || o + len > a.total || entries + 0x340 * n > o + len then [o] else []) ++
  (if bits (a.n (o + 0x18) 8) 31 20 ≠ 0 || bits (a.n (o + 0x18) 8) 7 0 ≠ 0 then [o + 0x18] else []) ++
  ((List.range 8).filterMap fun k => if (List.range 4).any (fun j => a.n (o + 0x140 + 8 * k + 2 * j) 2 ≥ 2 ^ 13) then some (o + 0x140 + 8 * k) else none) ++
  (if bits (a.n (o + 0x2E0) 8) 63 32 ≠ 0 then [o + 0x2E0] else []) ++
  ((List.range 3).filterMap fun k => if a.n (o + 0x2E8 + 8 * k) 8 ≠ 0 then some (o + 0x2E8 + 8 * k) else none) ++
  (if a.badTags (o + 0x340) 32 then [o + 0x340] else []) ++
  (if bits (a.n (o + 0x348) 8) 63 56 ≠ 0 || a.badTags (o + 0x348) 28 then [o + 0x348] else []) ++
  ((List.range 2).filterMap fun k => if a.n (o + 0x370 + 8 * k) 8 ≠ 0 then some (o + 0x370 + 8 * k) else none) ++
  (items.filterMap fun p => if p.2 == .a && a.n (p.1 + 12) 4 ≠ 0 then some (p.1 + 8) else none) ++
  (List.range n).flatMap fun k => a.badEntry (entries + 0x340 * k)

/-- The offsets of `n` job records, up to one whose JLEN leads past TOTAL. -/
def Area.jobOffs (a : Area) : Nat → Nat → List Nat
  | _, 0 => []
  | o, n + 1 =>
    let len := a.n (o + 0x14) 4
    if len < 0x200 || o + len > a.total then [o] else o :: a.jobOffs (o + len) n

/-- The bad doublewords of a job record (R339, R340). -/
def Area.badJob (a : Area) (o : Nat) : List Nat :=
  let w := a.n (o + 0x10) 8
  (if bits w 31 2 ≠ 0 || bits w 63 32 < 0x200 || o + bits w 63 32 > a.total then [o + 0x10] else []) ++
  (if a.n (o + 0x18) 8 ≠ 0 then [o + 0x18] else []) ++ (if a.n (o + 0x34) 4 ≠ 0 then [o + 0x30] else []) ++
  (if a.n (o + 0x38) 8 ≠ 0 then [o + 0x38] else []) ++
  (List.range 20).filterMap fun k => if a.n (o + 0x60 + 8 * k) 8 ≠ 0 then some (o + 0x60 + 8 * k) else none

/-- The bad doublewords of the area's header (R337, R340). -/
def Area.badHeader (a : Area) (ncore : Nat) : List Nat :=
  let w (off : Nat) : Nat := a.n off 8
  let past (off : Nat) : Bool := bits (w off) 63 32 > a.total || bits (w off) 31 0 > a.total
  (if bits (w 0) 63 56 ≠ 1 || bits (w 0) 55 50 ≠ 0 || bits (w 0) 47 41 ≠ 0 || bits (w 0) 31 16 ≠ 0 then [0] else []) ++
  (if bits (w 8) 31 0 ≠ 0 then [8] else []) ++ (if bits (w 0x18) 63 32 ≠ 0 then [0x18] else []) ++
  ([0x20, 0x28, 0x30].filter past) ++
  ((List.range ncore).filterMap fun j => if a.n (0x80 + 16 * j + 12) 4 ≠ 0 then some (0x80 + 16 * j + 8) else none) ++
  (List.range 7).filterMap fun k => if w (0xC8 + 8 * k) ≠ 0 then some (0xC8 + 8 * k) else none

/-- The first bad doubleword of an area, as an offset; none when the area is accepted (R340). -/
def Area.firstBad (a : Area) (g : Gang) (crews : List Header) : Option Nat :=
  let h := a.badHeader g.ncore
  let crew := ((a.crewOffs (a.n 0x24 4) crews.length).zip crews).flatMap fun p => a.badCrew p.1 p.2
  let port := a.n 0x30 4
  let ports := (List.range g.ncore).filterMap fun j =>
    if port + 72 * g.ncore ≤ a.total && bits (a.n (port + 72 * j) 8) 31 1 ≠ 0 then some (port + 72 * j) else none
  let jobs := (a.jobOffs (a.n 0x34 4) (min 64 (a.n 0x38 4))).flatMap a.badJob
  let all := if h.isEmpty then crew ++ ports ++ jobs else h
  match all with
  | [] => none
  | x :: rest => some (rest.foldl min x)

/-- A register item of the image, by its tag. -/
def Area.item (a : Area) (off : Nat) : Tag → Lanes Word
  | .u => allLanes (BitVec.ofNat 64 (a.n off 8))
  | .a =>
    let b : Word := BitVec.ofNat 64 (a.n off 8)
    let st : Word := (BitVec.ofNat 32 (a.n (off + 8) 4)).signExtend 64
    lanes fun l => b + BitVec.ofNat 64 l.val * st
  | .g => lanes fun l => BitVec.ofNat 64 (a.n (off + 8 * l.val) 8)

/-- A replay entry of the image, in the lanes of a fragment, with those whose request was lost (R305); none when V is 0 or DISC is 1 (R328, R331). -/
def Area.entry (a : Area) (e : Nat) (frag lost : Mask) : Option Entry :=
  let w := a.n e 8
  let t := a.n (e + 0x10) 8
  let f := a.n (e + 0x18) 8
  if f.testBit 10 || !f.testBit 9 then none
  else
    let m := entryCells a.m (a.pa + e)
    some { frag := frag, ipc := BitVec.ofNat 32 (bits w 63 32), word := BitVec.ofNat 32 (bits w 31 0), imm := BitVec.ofNat 64 (a.n (e + 8) 8),
           take := BitVec.ofNat 32 (bits t 63 32), done := BitVec.ofNat 32 (bits t 31 0), ord := BitVec.ofNat 2 (bits f 7 6),
           scope := BitVec.ofNat 3 (bits f 5 3), rm := BitVec.ofNat 3 (bits f 2 0), op0 := entryOps m (a.pa + e) 0x40,
           op1 := entryOps m (a.pa + e) 0x140, op2 := entryOps m (a.pa + e) 0x240, cards := [], book := none,
           lost := lost }

/-- A thread as its crew's record has it. A lane whose wait the image no longer holds, or that has a new PC, has left it (R333). -/
def Area.thread (a : Area) (o : Nat) (l : Lane) (t : Thread) : Thread :=
  let bit (off : Nat) : Bool := (a.n (o + off) 4).testBit l.val
  let pc : Pc := BitVec.ofNat 32 (a.n (o + 0x40 + 4 * l.val) 4)
  let cmask : Mask := BitVec.ofNat 32 (a.n (o + 0xC0 + 4 * l.val) 4)
  let st : Status :=
    if bit 8 then .exited
    else if bit 0xC && pc = t.pc then (match t.st with | .returning _ => .returning cmask | _ => .waiting cmask)
    else match t.st with
      | .parked p => if bit 0x14 then .parked p else .live
      | _ => .live
  let left := match t.st with
    | .waiting _ => if bit 0xC && pc = t.pc then t.left else t.pc :: t.left
    | _ => t.left
  let n := min 16 (a.n (o + 0x350 + l.val) 1)
  let t := { t with
    pc := pc
    sup := bit 0x10
    st := st
    rstk := (List.range n).map fun j => BitVec.ofNat 64 (a.n (o + 0x380 + 8 * (32 * j + l.val)) 8)
    rsdep := a.n (o + 0x180 + 2 * l.val) 2
    fstat := BitVec.ofNat 64 (a.n (o + 0x140 + 2 * l.val) 2)
    pacc := BitVec.ofNat 32 (a.n (o + 0x1C0 + 4 * l.val) 4)
    ptot := BitVec.ofNat 32 (a.n (o + 0x240 + 4 * l.val) 4)
    pmode := bit 0x1C
    wm := BitVec.ofNat 8 (a.n (o + 0x2C0 + l.val) 1)
    left := left }
  if st == .exited then t.ended else t

/-- A crew as its record has it, over what the crew's own record keeps. A lane whose PC was edited has not flowed to it from an overlay
(R44, R156, R338, R340). -/
def Area.crew (a : Area) (o : Nat) (h : Header) (c : Crew) : Crew :=
  let (tr, ts, tl) := a.itemTags o h
  let (items, e0) := a.layout o h
  let read (l : List (Nat × Tag)) : List (Tag × Lanes Word) := l.map fun p => let v := a.item p.1 p.2; (fitTag p.2 v, v)
  let regs := read (items.take tr.length)
  let sh := read ((items.drop tr.length).take ts.length)
  let lat := read ((items.drop (tr.length + ts.length)).take tl.length)
  let lv := bits (a.n (o + 0x18) 8) 15 12
  let fr := bits (a.n (o + 0x18) 8) 19 16
  let entries := (List.range (a.entryCount o)).filterMap fun k =>
    let old := c.infl[k]?
    a.entry (e0 + 0x340 * k) ((old.map fun e => e.frag).getD fullMask) ((old.map fun e => e.lost).getD 0)
  let latch (k : Nat) : Latch :=
    if lv.testBit k then
      let i := ((List.range k).filter fun j => lv.testBit j).length
      match lat[i]? with
      | some p => ⟨true, p.2, p.1⟩
      | none => Latch.reset
    else { c.latches.getD k Latch.reset with valid := false }
  let thr := lanes fun l => a.thread o l (c.th l)
  { c with
    cver := BitVec.ofNat 16 (a.n (o + 6) 2)
    thr := thr
    seqOvl := lanes fun l => if (thr.at l).pc = (c.th l).pc then c.seqOvl.at l else none
    regs := Vector.ofFn fun n => ((regs[n.val]?).map Prod.snd).getD (c.regs.getD n.val (allLanes 0))
    tags := Vector.ofFn fun n => ((regs[n.val]?).map Prod.fst).getD (c.tags.getD n.val .u)
    shadow := Vector.ofFn fun n => ((sh[n.val]?).map Prod.snd).getD (c.shadow.getD n.val (allLanes 0))
    stags := Vector.ofFn fun n => ((sh[n.val]?).map Prod.fst).getD (c.stags.getD n.val .u)
    preds := Vector.ofFn fun n => BitVec.ofNat 32 (a.n (o + 0x20 + 4 * n.val) 4)
    latches := Vector.ofFn fun n => latch n.val
    slots := Vector.ofFn fun n => if fr.testBit n.val then c.slots.getD n.val none else none
    infl := entries
    barm := Vector.ofFn fun n => BitVec.ofNat 32 (a.n (o + 0x300 + 4 * n.val) 4)
    barcm := BitVec.ofNat 32 (a.n (o + 0x2E0) 4) }

/-- The canonical memory of `len` bytes of the area. -/
def Area.cells (a : Area) (off len : Nat) : List Host.Cell :=
  (a.m.filter fun c => a.pa + off ≤ c.1 && c.1 < a.pa + off + len).map fun c => (c.1 - (a.pa + off), c.2)

/-- The numbers below `n` whose bit of a bitmap has a value. -/
def Area.bitmap (a : Area) (off n : Nat) (v : Bool) : List Nat :=
  (List.range n).filter fun k => (a.n (off + k / 8) 1).testBit (k % 8) == v

/-- FIFO records of the area. -/
def Area.fifos (a : Area) : Nat → List Nat → Store (List Word)
  | _, [] => []
  | o, k :: rest =>
    let n := min 2048 (a.n o 8)
    let q := (List.range n).map fun j => BitVec.ofNat 64 (a.n (o + 8 + 8 * j) 8)
    (a.fifos (o + 8 + 8 * n) rest).set k q

/-- The jobs of the area over the jobs kept (R232, R339). -/
def Area.job (a : Area) (o : Nat) (j : Job) : Job :=
  let bs (off n : Nat) : List Byte := toBytes n (a.n off n)
  let w := a.n (o + 0x10) 8
  let tok := a.n o 8
  let cb := w.testBit 0
  let stg := w.testBit 1
  let card := bs (o + 0x100) 256
  let n := (cardOf card).regionLen
  let stored := j.stored.filter fun t => (a.n (o + 0x40 + t / 8) 1).testBit (t % 8)
  let more := (a.bitmap (o + 0x40) 256 true).filter fun t => !stored.contains t
  let j := { j with
    seq := BitVec.ofNat 32 (bits tok 63 32)
    gcore := bits tok 1 0
    card := card
    stored := stored ++ more
    codebook := if cb then some (bs (o + 0x200) 2048) else none
    staging := if stg then some (bs (o + 0x200 + (if cb then 2048 else 0)) n, (j.staging.map Prod.snd).getD []) else none }
  j.setPosition (positionOf (cardOf card).extents ((List.range 5).map fun k => a.n (o + 0x20 + 4 * k) 4))

/-- Jobs that have not ended take the records of the area in order. -/
def Area.jobs (a : Area) : List Nat → List Job → List Job
  | _, [] => []
  | os, j :: rest =>
    if j.ended then j :: a.jobs os rest
    else match os with
      | o :: os => a.job o j :: a.jobs os rest
      | [] => j :: a.jobs [] rest

/-- A gang as its area has it (R337, R339). -/
def Area.gang (a : Area) (g : Gang) : Gang :=
  let scr := a.n 0x20 4
  let n := a.n 0xC 4
  let b := bitmapLen (n / 128)
  let acc := a.n 0x2C 4
  let k := a.n 0 2 * 1024
  let port := a.n 0x30 4
  let banks := (List.range (g.ncore * 48)).foldl (fun (m : Store BankMode) q =>
    match bits (a.n (0x80 + 16 * (q / 48)) 12) (2 * (q % 48) + 1) (2 * (q % 48)) with
    | 0 => m
    | 1 => m.set q .scratch
    | _ => m.set q .fifo) []
  let stream (p : Nat × Stream) : Option (Nat × Stream) :=
    let o := port + 72 * p.1
    let q : Vector Word 8 := Vector.ofFn fun i => BitVec.ofNat 64 (a.n (o + 8 + 8 * i.val) 8)
    if (a.n o 8).testBit 0 then some (p.1, { p.2 with pc := BitVec.ofNat 32 (a.n (o + 4) 4), q := q }) else none
  let g := { g with
    bargen := Vector.ofFn fun i => BitVec.ofNat 32 (a.n (0x40 + 4 * i.val) 4)
    barcgen := BitVec.ofNat 32 (a.n 0x18 4)
    banks := banks
    sems := (List.range (g.ncore * 32)).foldl (fun (m : Store (BitVec 32)) q =>
      m.set q (BitVec.ofNat 32 (a.n (0x100 + 128 * (q / 32) + 4 * (q % 32)) 4))) []
    scratch := a.cells scr n
    absent := (a.bitmap (scr + n) (n / 128) false).map fun l => { line := l, core := 256, copy := 0 }
    scratchPoison := a.bitmap (scr + n + b) (n / 128) true
    acc := a.cells acc k
    accPoison := a.bitmap (acc + k) (k / 8) true
    savedJobs := a.jobs (a.jobOffs (a.n 0x34 4) (min 64 (a.n 0x38 4))) g.savedJobs
    savedStreams := g.savedStreams.filterMap stream }
  { g with fifos := a.fifos (a.n 0x28 4) g.fifoKeys }

/-! ## Resumption (R340) -/

/-- Can a saved gang resume on the cores from `c0` on, when some gangs are taken away and others of its block are about to come (R312)? -/
def State.resumeFits (s : State) (without trial : List Nat) (g : Gang) (b : Lpb) (c0 : Nat) : Bool :=
  c0 < 256 && c0 % 32 % b.ncore = 0 && c0 % 32 + b.ncore ≤ 32 && (s.die (dieOf c0)).alive &&
  (List.range b.ncore).all fun j =>
    let held := (s.coreLoad without (c0 + j)).plus (b.trialLoad g.hdr trial (c0 + j))
    let banks := (g.banks.filter fun p => p.1 / 48 = j && p.2 != .unmapped).length
    s.coreFits b g.hdr g.asid (c0 + j) j held && held.banks + banks ≤ 44

/-- Lines in ways that the L1 of a core no longer has leave it (R205). -/
def State.trimL1 (s : State) (core : Nat) : State :=
  let n := s.waysOf core
  ((s.core core).l1.filter fun p => p.2.way ≥ n).foldl (fun s p =>
    if p.2.coh = 0 then s.leaveNow p.1 (.core core)
    else (s.l1WriteBack core p.1).modCore core fun c => { c with l1 := c.l1.erase p.1 }) s

/-- The gang's engines go to its cores: its jobs behind those of other gangs, its streams behind a stream that runs there (R232, R265). -/
def State.placeEngines (s : State) (key c0 : Nat) : State :=
  let g := s.gang key
  let s := g.savedStreams.foldl (fun s p => s.modPorter (c0 + p.1) fun q =>
    if q.gang.isSome || !q.resumed.isEmpty then { q with resumed := q.resumed ++ [p.2] }
    else { q with gang := some p.2.gang, cver := p.2.cver, lo := p.2.lo, hi := p.2.hi, pc := p.2.pc, q := p.2.q, wait := .none, stopped := none }) s
  let s := g.savedJobs.foldl (fun s j => s.modCore (c0 + j.gcore) fun c => { c with jobs := c.jobs ++ [j] }) s
  s.modGang key fun g => { g with savedStreams := [], savedJobs := [] }

/-- The overlays of OVPIN that a crew's kernel has, where its core does not hold them yet: core, version, OFFSET and SLOTS. -/
def State.missingPins (s : State) (g : Gang) (pins : Nat) (c : Crew) : List (Nat × BitVec 16 × Nat × Nat) :=
  ((c.header g).dir.zipIdx.filter fun e => pins.testBit e.2 && !s.ovlResident c.core g.asid c.cver e.1.1).map fun e =>
    (c.core, c.cver, e.1.1, e.1.2)

/-- The overlays of OVPIN begin to load on the gang's cores, and none of its crews issues before all of them are there (R268, R340). -/
def State.loadPins (s : State) (key pins : Nat) : State :=
  let g := s.gang key
  let ns := ((s.crewsOf key).flatMap fun p => s.missingPins g pins p.2).eraseDups
  (ns.foldl (fun s n => s.ovlStart n.1 g.asid n.2.1 n.2.2.1 n.2.2.2) s).modGang key fun g => { g with needs := ns.map fun n => (n.1, n.2.1, n.2.2.1) }

/-- The places of crews that come to these cores: on each the lowest that no resident crew has, nor one of `taken`, the pairs of core and place
given before (R320). -/
def State.placesFor (s : State) : List Nat → List (Nat × Nat) → List Nat
  | [], _ => []
  | core :: rest, taken =>
    let used := (s.crewsOn core).map (fun p => p.2.place) ++ (taken.filter fun t => t.1 = core).map Prod.snd
    let p := ((List.range 64).find? fun k => !used.contains k).getD 0
    p :: s.placesFor rest (taken ++ [(core, p)])

/-- Crews come to their cores and take places there (R312, R320). -/
def State.seatCrews (s : State) (cs : List (Nat × Crew)) : State :=
  (cs.zip (s.placesFor (cs.map fun p => p.2.core) [])).foldl (fun s p => s.setCrew p.1.1 { p.1.2 with place := p.2 }) s

/-- RESUMPTION of a saved gang on the cores from `c0` on: the area is checked and read back, what Foreman has edited takes effect, and
resumption is the acquire of R129 (R333, R340). -/
def State.resume (s : State) (key c0 : Nat) : State :=
  match s.gangs.get? key with
  | none => s
  | some g =>
    match g.saved, s.grid? g.grid with
    | some pa, some y =>
      let cs := s.crewsOf key
      let a := s.areaOf pa
      if g.core0.isSome || !s.resumeFits [] [] g y.lpb c0 then s
      else match a.firstBad g (cs.map fun p => p.2.header g) with
        | some off => s.endGrid g.grid cResbits (BitVec.ofNat 64 (pa + off))
        | none =>
          let crews := (cs.zip (a.crewOffs (a.n 0x24 4) cs.length)).map fun p => (p.1.1, { a.crew p.2 (p.1.2.header g) p.1.2 with core := c0 + crewIndex p.1.1 % g.ncore })
          let s := s.seatCrews crews
          let s := s.modGang key fun g => { a.gang g with core0 := some c0, saved := none }
          let cores := (List.range g.ncore).map (c0 + ·)
          let s := cores.foldl State.trimL1 s
          let s := s.placeEngines key c0
          let s := s.loadPins key (a.n 0x300 128)
          let s := cores.foldl State.acquireDone s
          crews.foldl (fun s p => s.settleCrew p.1) s
    | _, _ => s

/-- RESUMPTION (R340). -/
def execResumption (gang core : Nat) (s : State) : Host.Outcome State Fault Refusal := .next (s.resume gang core)

/-! ## Lanes withdrawn from a wait (R333) -/

/-- Does a lane wait at a CONV? -/
def Crew.convLane (c : Crew) (l : Lane) : Bool := match (c.th l).st with
  | .waiting _ => true
  | _ => false

/-- Is a new PC, when there is one, word-aligned? -/
def alignedPc : Option Pc → Bool
  | some p => p.toNat % 4 = 0
  | none => true

/-- A lane that Foreman withdraws from its wait at a CONV: it goes on at a PC, or ends; for that CONV it counts as exited. -/
def Crew.withdraw (c : Crew) (l : Lane) (pc : Option Pc) : Crew :=
  let m : Mask := 1#32 <<< l.val
  match pc with
  | some p => c.updThr m fun _ t => { t with left := t.pc :: t.left, pc := p, st := .live }
  | none => c.exitLanes m

/-- The same in a saved image: the lane's PC changes or its XMASK bit is set, and its WMASK bit is cleared. -/
def State.withdrawSaved (s : State) (key : Nat) (l : Lane) (pc : Option Pc) (pa : Nat) : State :=
  let a := s.areaOf pa
  let cs := s.crewsOf (gangOf key)
  match (cs.zip (a.crewOffs (a.n 0x24 4) cs.length)).find? fun p => p.1.1 = key with
  | none => s
  | some p =>
    let o := p.2
    let bit : Mask := 1#32 <<< l.val
    let word (off : Nat) : Mask := BitVec.ofNat 32 (a.n (o + off) 4)
    if !p.1.2.convLane l || word 0xC &&& bit = 0 || !alignedPc pc then s
    else
      let put (s : State) (off : Nat) (m : Mask) : State := s.memWrite (pa + o + off) (toBytes 4 m.toNat)
      match pc with
      | some q => put (put s 0xC (word 0xC &&& ~~~bit)) (0x40 + 4 * l.val) q
      | none => put (put s 0x8 (word 0x8 ||| bit)) 0xC (word 0xC &&& ~~~bit)

/-- FOREMAN_WITHDRAW_LANE: Foreman edits a crew so that a lane waiting at a CONV gets a new PC or ends (R333). -/
def execForemanWithdrawLane (crew : Nat) (lane : BitVec 5) (pc : Option Pc) (s : State) : Host.Outcome State Fault Refusal :=
  .next (
    let l : Lane := ⟨lane.toNat, lane.isLt⟩
    match s.crew? crew with
    | none => s
    | some c =>
      match (s.gang (gangOf crew)).saved with
      | some pa => s.withdrawSaved crew l pc pa
      | none =>
        if c.convLane l && alignedPc pc then (s.setCrew crew (c.withdraw l pc)).settleCrew crew else s)

end Sys2Proof.Machine
end

