-- ==== Sys2Proof/Machine/Place.lean ====
section
/-!
DEFINITION. The dispatcher: grids that become eligible or are refused (R309, R310), the placing of clusters and what their threads start
with (R308, R311, R312, R315), QUANTUM slices (R311, R314), and Foreman's repair of a mapping that a launch or a completion met (R308,
R310, R316).
-/
namespace Sys2Proof.Machine

/-! ## Eligibility (R309, R310) -/

/-- A grid's record as its block gives it. -/
def Grid.make (queue : Nat) (e : Launch) (b : Lpb) (time : Nat) : Grid :=
  { queue := queue, lseq := e.lseq, asid := e.asid, block := e.block, lpb := b, hdr := Header.reset, ver := 0, st := .placing,
    eligible := time, nextPos := 0, clusters := [], gangsFreed := 0, status := 0, cause := 0, faddr := 0, heldcan := 0, reddrop := 0,
    redaddr := 0, sliceStart := time, stuck := false }

/-- A grid takes the head's place in its queue. -/
def State.addGrid (s : State) (queue : Nat) (g : Grid) : State :=
  let k := s.nextGrid
  { s with grids := s.grids.set k g, nextGrid := k + 1 }.modQueue queue fun q => { q with entries := q.entries.drop 1, current := some k }

/-- A read for the head of a queue failed: Foreman is told, and the launch stays where it is (R310). -/
def State.launchFails (s : State) (queue : Nat) (e : Launch) (f : Failure) : State :=
  let s := s.modQueue queue fun q => { q with entries := { e with failed := some (f.addr, f.cause) } :: q.entries.drop 1 }
  { s with reports := s.reports ++ [Report.launch queue f.addr f.cause] }

/-- A block whose CREC is not 64-aligned, or that cannot be read and is removed, is reported to Foreman alone, and the queue moves on
(R309, R310). -/
def State.launchLost (s : State) (queue : Nat) (e : Launch) (cause : BitVec 8) : State :=
  let s := s.modQueue queue fun q => { q with entries := q.entries.drop 1 }
  { s with reports := s.reports ++ [Report.launch queue e.block cause] }

/-- The head of a queue whose conditions hold becomes eligible, or is refused; CUR is read as a SYSTEM-scope acquire (R275, R309, R310). -/
def State.grant (s : State) (queue : Nat) (e : Launch) (d : List Nat) : State :=
  let b := lpbOf d
  let g := Grid.make queue e b s.time
  if b.crec.toNat % 64 ≠ 0 then s.launchLost queue e 0x01
  else
    let s := s.versionAcquire e.asid
    let ver := s.curVersion e.asid
    match s.launchCheck e.asid ver d with
    | .error c => s.addGrid queue { g with st := .completing 5, status := 2, cause := c }
    | .ok h =>
      let v := ver.getD 0
      (s.addBinds e.asid v 1).addGrid queue { g with hdr := h, ver := v }

/-- WAITEV and WAITVAL of a block (R310). -/
def State.readWait (s : State) (asid : BitVec 12) (block : Word) : Except Failure (Word × Word) × State :=
  match s.launchLoad asid (block + 0x30) false with
  | (.error f, s) => (.error f, s)
  | (.ok ev, s) =>
    match s.launchLoad asid (block + 0x38) false with
    | (.error f, s) => (.error f, s)
    | (.ok v, s) => (.ok (ev, v), s)

/-- The head of a queue becomes eligible: its block is read whole (R310). -/
def State.eligible (s : State) (queue : Nat) (e : Launch) : State :=
  match s.readBlock e.asid e.block with
  | (.error f, s) => s.launchFails queue e f
  | (.ok d, s) => s.grant queue e d

/-- The test of R310 for the head of a queue: its new state, or none while the counter at WAITEV is below WAITVAL. -/
def State.launchTest (s : State) (queue : Nat) : Option State :=
  let q := s.queue queue
  match q.entries, q.current with
  | e :: _, none =>
    if e.failed.isSome then none
    else
      match s.readWait e.asid e.block with
      | (.error f, s) => some (s.launchFails queue e f)
      | (.ok (ev, least), s) =>
        if ev = 0 || ev.toNat % 8 ≠ 0 then some (s.eligible queue e)
        else
          match s.launchLoad e.asid ev true with
          | (.error f, s) => some (s.launchFails queue e f)
          | (.ok v, s) => if v.toNat < least.toNat then none else some (s.eligible queue e)
  | _, _ => none

/-- GRID_ELIGIBLE, once a boot image has been accepted (R310, R349). -/
def execGridEligible (queue : BitVec 6) (s : State) : Host.Outcome State Fault Refusal :=
  .next (if s.boot.accepted then (s.launchTest queue.toNat).getD s else s)

/-! ## Placing a gang (R308, R312, R315) -/

/-- The first context region that no gang holds (R324; log 7). -/
def State.freeCtx (s : State) : Nat :=
  ((List.range (s.ctxMaps.length + 1)).map fun k => s.ctxBase + k * 2 ^ 31).find? (fun a => !s.ctxMaps.any fun m => m.pa = a) |>.getD s.ctxBase

/-- The store of ARGP for a thread, at TLSB + 0x8000. A store that fails is reported and stays to be made (R308). -/
def State.argpStore (s : State) (key : Nat) (asid : BitVec 12) (argp tlsb : Word) : State :=
  let va := tlsb + 0x8000
  match s.launchPlace asid va with
  | (.ok (pa, _), s) => s.launchWrite pa (toBytes 8 argp.toNat)
  | (.error f, s) =>
    let s := s.modGang key fun g => { g with argps := g.argps ++ [tlsb] }
    { s with reports := s.reports ++ [Report.argp key f.addr f.cause] }

/-- The bank slots that a gang takes on one of its cores (R202). -/
def State.takeSlots (s : State) (key core : Nat) (h : Header) : State :=
  (List.range h.bankCount).foldl (fun s n => (s.setBank key core n (if n < h.scr then .scratch else .fifo)).2) s

/-- A crew at allocation (R12, R308): crew `c` of a gang, in which lane `l` is thread number `first` + l. -/
def Crew.allocated (g : Grid) (core first : Nat) (wait : Bool) : Crew :=
  let off := match g.hdr.dir with
    | (o, _) :: _ => o
    | [] => 0
  { Crew.reset with
    core := core
    cver := g.ver
    thr := lanes fun l => { Thread.reset with
      pc := g.hdr.entry
      st := if wait then .parked (.overlay off) else .live
      tlsb := g.lpb.tlbase + BitVec.ofNat 64 (g.lpb.tlstride * (first + l.val)) } }

/-- The acquire of a grid's start on a core (R315). -/
def State.startAcquire (s : State) (b : Lpb) (core : Nat) : State := if b.waitev = 0 then s.acquireDone core else s.systemAcquire core

/-- A gang is placed on the cores from `c0` on: its banks, its context region, its crews at ENTRY with overlay 0 loading, its ARGP stores,
and the acquire of its start (R12, R202, R308, R312, R315). -/
def State.placeGang (s : State) (gk : Nat) (g : Grid) (pos c0 : Nat) : State :=
  let b := g.lpb
  let i := b.gangAt pos
  let lin := b.linear i
  let key := s.nextGang
  let ctx := s.freeCtx
  let gang : Gang := { Gang.reset with
    grid := gk
    asid := g.asid
    lin := lin
    x := i.1
    y := i.2.1
    z := i.2.2
    clus := pos / b.perCluster
    ncrew := b.ncrew
    ncore := b.ncore
    core0 := some c0
    hdr := g.hdr
    ctxVa := ctx
    ctxPa := ctx
    since := s.time }
  let s : State := { s with
    nextGang := key + 1
    gangs := s.gangs.set key gang
    ctxMaps := s.ctxMaps ++ [{ asid := g.asid, va := ctx, pa := ctx, len := 2 ^ 31 }] }
  let cores := (List.range b.ncore).map (c0 + ·)
  let s := cores.foldl (fun (s : State) c => s.takeSlots key c g.hdr) s
  let s : State := match g.hdr.dir with
    | (off, slots) :: _ => cores.foldl (fun (s : State) c => s.ovlStart c g.asid g.ver off slots) s
    | [] => s
  let crews := (List.range b.ncrew).map fun c =>
    let core := c0 + c % b.ncore
    let wait := match g.hdr.dir with
      | (off, _) :: _ => !s.ovlResident core g.asid g.ver off
      | [] => false
    (crewKey key c, Crew.allocated g core ((lin * b.ncrew + c) * 32) wait)
  let s := crews.foldl (fun (s : State) p => laneList.foldl (fun (s : State) l => s.argpStore key g.asid b.argp (p.2.th l).tlsb) s) (s.seatCrews crews)
  cores.foldl (fun s c => s.startAcquire b c) s

/-! ## Placing a unit (R311, R314) -/

/-- Gangs at positions from `pos` on, placed one after another on a die; none when one finds no room. -/
def State.placeOn (s : State) (gk : Nat) (g : Grid) (die : Nat) : Nat → Nat → Option State
  | _, 0 => some s
  | pos, n + 1 =>
    match s.findGroup g.lpb g.hdr g.asid [] [] die with
    | none => none
    | some c0 => (s.placeGang gk g pos c0).placeOn gk g die (pos + 1) n

/-- The next cluster of a grid, placed whole on the first die that has room (R314). -/
def State.placeCluster (s : State) (gk : Nat) : Option State :=
  match s.grid? gk with
  | none => none
  | some g =>
    let b := g.lpb
    let c := g.nextPos / b.perCluster
    let n := b.clusterSize c
    (s.dieOrder (b.dieOf c)).findSome? fun d =>
      (s.placeOn gk g d g.nextPos n).map fun t =>
        t.modGrid gk fun g =>
          { g with
            nextPos := g.nextPos + n
            clusters := g.clusters ++
              [{ index := c, gangs := (List.range n).map (s.nextGang + ·), die := d, since := s.time, resident := true, retired := false }]
            sliceStart := if g.clusters.isEmpty then s.time else g.sliceStart
            st := if g.nextPos + n = b.gangs then .running else g.st }

/-- Clusters placed one after another; none when one of them finds no room. -/
def State.placeClusters (s : State) (gk : Nat) : Nat → Option State
  | 0 => some s
  | n + 1 =>
    match s.placeCluster gk with
    | none => none
    | some s => s.placeClusters gk n

/-- A die was chosen freely: the counter of free values moves on (log 19). -/
def State.dieChosen (s : State) : State := { s with fresh := s.fresh + 1 }

/-- The next unit of a grid: a cluster, or the whole grid under CORES = 1 (R311, R312). -/
def State.placeUnit (s : State) (gk : Nat) : Option State :=
  match s.grid? gk with
  | none => none
  | some g => (s.placeClusters gk (if g.lpb.cores then g.lpb.clusters else 1)).map State.dieChosen

/-- The gangs of a cluster that are saved. -/
def State.savedOf (s : State) (c : Cluster) : List Nat :=
  c.gangs.filter fun k => match s.gangs.get? k with
    | some g => g.saved.isSome
    | none => false

/-- The gangs of a cluster that are resident. -/
def State.residentOf (s : State) (c : Cluster) : List Nat :=
  c.gangs.filter fun k => match s.gangs.get? k with
    | some g => g.core0.isSome && !g.freed
    | none => false

/-- The pre-empted clusters of a grid, in the order in which they wait (R314). -/
def State.waitingClusters (s : State) (g : Grid) : List Cluster :=
  sortBy (fun a b => a.since < b.since || (a.since = b.since && a.index ≤ b.index))
    (g.clusters.filter fun c => !c.resident && (s.residentOf c).isEmpty && !(s.savedOf c).isEmpty)

/-- The lowest-numbered group of cores of a die on which a saved gang can resume. -/
def State.resumeCore (s : State) (without trial : List Nat) (g : Gang) (b : Lpb) (die : Nat) : Option Nat :=
  ((List.range (32 / b.ncore)).map fun k => die * 32 + k * b.ncore).find? (s.resumeFits without trial g b)

/-- Do saved gangs find room on a die when some gangs are taken away, after those of a trial? -/
def State.resumeRoom (s : State) (without : List Nat) (b : Lpb) (die : Nat) : List Gang → List Nat → Bool
  | [], _ => true
  | g :: rest, trial =>
    match s.resumeCore without trial g b die with
    | none => false
    | some c0 => s.resumeRoom without b die rest (trial ++ [c0])

/-- Saved gangs resume one after another on a die; none when one finds no room there. -/
def State.resumeOn (s : State) (b : Lpb) (die : Nat) : List Nat → Option State
  | [] => some s
  | k :: rest =>
    match s.gangs.get? k with
    | none => s.resumeOn b die rest
    | some g =>
      match s.resumeCore [] [] g b die with
      | none => none
      | some c0 => (s.resume k c0).resumeOn b die rest

/-- Change the clusters of a grid that satisfy `p`. -/
def Grid.modClusters (g : Grid) (p : Cluster → Bool) (f : Cluster → Cluster) : Grid :=
  { g with clusters := g.clusters.map fun y => if p y then f y else y }

/-- A pre-empted cluster resumes on any die with room (R314). -/
def State.resumeCluster (s : State) (gk : Nat) (b : Lpb) (c : Cluster) : Option State :=
  (s.dieOrder (b.dieOf c.index)).findSome? fun d =>
    (s.resumeOn b d (s.savedOf c)).map fun t =>
      let seated (y : Cluster) : Cluster := { y with resident := true, since := s.time, die := d }
      (t.modGrid gk fun g => g.modClusters (fun y => y.index = c.index) seated).dieChosen

/-- The order of service (R311). -/
def servedBefore (a b : Nat × Grid) : Bool :=
  if a.2.lpb.pri ≠ b.2.lpb.pri then a.2.lpb.pri > b.2.lpb.pri
  else if a.2.eligible ≠ b.2.eligible then a.2.eligible < b.2.eligible
  else a.2.queue ≤ b.2.queue

/-- Has a grid a unit to place: gangs not placed yet, or pre-empted clusters, which wait again (R311, R314)? -/
def State.unplaced (s : State) (g : Grid) : Bool := g.st == .placing || (g.st == .running && !(s.waitingClusters g).isEmpty)

/-- The grid that is served: the first that has a unit to place (R311, R314, R318). -/
def State.served (s : State) : Option (Nat × Grid) := leastBy servedBefore (s.grids.filter fun g => s.unplaced g.2)

/-- The next unit of a grid takes its place: an unplaced one, or the pre-empted cluster that has waited longest (R311, R314). -/
def State.seatUnit (s : State) (gk : Nat) : Option State :=
  match s.grid? gk with
  | none => none
  | some g =>
    if g.st == .placing then s.placeUnit gk
    else match s.waitingClusters g with
      | c :: _ => s.resumeCluster gk g.lpb c
      | [] => none

/-- Does the next unit of a grid find room when some gangs are taken away? -/
def State.unitFits (s : State) (gk : Nat) (without : List Nat) : Bool :=
  match s.grid? gk with
  | none => false
  | some g =>
    let b := g.lpb
    if g.st == .placing then
      let c := g.nextPos / b.perCluster
      let cs := if b.cores then List.range b.clusters else [c]
      (s.findClusters b g.hdr g.asid without (cs.map fun k => (b.dieOf k, b.clusterSize k)) []).isSome
    else match s.waitingClusters g with
      | c :: _ => (s.dieOrder (b.dieOf c.index)).any fun d => s.resumeRoom without b d ((s.savedOf c).filterMap s.gangs.get?) []
      | [] => false

/-- What the dispatcher places next: the next unit of the grid that is served (R311, R314). -/
def State.placeNext (s : State) : Option State := s.served.bind fun g => s.seatUnit g.1

/-- CLUSTER_PLACE, once a boot image has been accepted (R311, R314, R349). -/
def execClusterPlace (s : State) : Host.Outcome State Fault Refusal := .next (if s.boot.accepted then s.placeNext.getD s else s)

/-! ## Slices of a QUANTUM grid (R311, R314) -/

/-- Pre-empt clusters of a grid whole: have all of their gangs left? A gang whose save has to wait leaves later (R335). -/
def State.preemptClusters (s : State) (gk : Nat) (cs : List Cluster) : Bool × State :=
  let s := (cs.flatMap s.residentOf).foldl State.askPreempt s
  let gone (y : Cluster) : Cluster := { y with resident := false, since := s.time }
  (cs.all fun c => (s.residentOf c).isEmpty, s.modGrid gk fun g => g.modClusters (fun y => cs.any fun c => c.index = y.index) gone)

/-- The resident clusters of a grid, those resident longest first (R311, R314). -/
def State.residentClusters (s : State) (g : Grid) : List Cluster :=
  sortBy (fun a b => a.since < b.since || (a.since = b.since && a.index ≤ b.index))
    (g.clusters.filter fun c => c.resident && !(s.residentOf c).isEmpty)

/-- The choices of `k` members of a list, earlier members first. -/
def choices : Nat → List α → List (List α)
  | 0, _ => [[]]
  | _ + 1, [] => []
  | k + 1, x :: xs => (choices k xs).map (x :: ·) ++ choices (k + 1) xs

/-- The fewest of a grid's resident clusters whose going leaves room for another grid's next unit (R311). -/
def State.clustersFor (s : State) (g : Grid) (unit : Nat) : Option (List Cluster) :=
  let cs := s.residentClusters g
  (List.range cs.length).findSome? fun k =>
    (choices (k + 1) cs).find? fun pick => s.unitFits unit (pick.flatMap s.residentOf)

/-- At a slice's end: room for a unit of the served grid, when its PRI is higher and it waits for room (R311). The unit is placed once the gangs
that make room have left. -/
def State.yieldRoom (s : State) (gk : Nat) (g : Grid) : State :=
  match s.served with
  | some (h, y) =>
    if h = gk || y.lpb.pri ≤ g.lpb.pri || s.unitFits h [] then s
    else match s.clustersFor g h with
      | none => s
      | some cs =>
        let (left, t) := s.preemptClusters gk cs
        if left then (t.seatUnit h).getD t else t
  | none => s

/-- At a slice's end: the cluster resident longest makes room for the one waiting longest, of the unplaced first (R314). -/
def State.rotate (s : State) (gk : Nat) : State :=
  match s.grid? gk with
  | none => s
  | some g =>
    match s.residentClusters g with
    | [] => s
    | c :: _ =>
      let (left, t) := s.preemptClusters gk [c]
      if left then (t.seatUnit gk).getD t else t

/-- Is a slice of a QUANTUM grid over (R314)? -/
def Grid.sliceOver (g : Grid) (time : Nat) : Bool :=
  g.lpb.mode = 2 && (g.st == .placing || g.st == .running) && !g.clusters.isEmpty && g.sliceStart + g.lpb.slice ≤ time

/-- Do clusters of a grid wait for room, unplaced or pre-empted (R314)? A unit that finds room is placed without a pre-emption. -/
def State.clustersWait (s : State) (gk : Nat) : Bool :=
  match s.grid? gk with
  | none => false
  | some g => s.unplaced g && !s.unitFits gk []

/-- The end of a slice. A cluster that gives way in it to another grid does not wait yet (R311). -/
def State.sliceEnd (s : State) (gk : Nat) : Option State :=
  match s.grid? gk with
  | none => none
  | some g =>
    if !g.sliceOver s.time then none
    else
      let t := s.yieldRoom gk g
      some ((if s.clustersWait gk then t.rotate gk else t).modGrid gk fun g => { g with sliceStart := s.time })

/-- QUANTUM_SLICE_END (R311, R314). -/
def execQuantumSliceEnd (grid : Nat) (s : State) : Host.Outcome State Fault Refusal := .next ((s.sliceEnd grid).getD s)

/-! ## Foreman's repair of a mapping (R308, R310, R316) -/

/-- The first gang of a grid with ARGP stores to make. -/
def State.argpGang (s : State) (grid : Nat) : Option (Nat × Gang) := s.gangs.find? fun g => g.2.grid = grid && !g.2.argps.isEmpty

/-- The ARGP stores of a grid that are still to be made are made again, before the acquire of its gangs' start (R308, R315). -/
def State.argpRetry (s : State) (grid : Nat) (b : Lpb) : State :=
  (s.gangs.filter fun g => g.2.grid = grid && !g.2.argps.isEmpty).foldl (fun s g =>
    let s := s.modGang g.1 fun x => { x with argps := [] }
    let s := g.2.argps.foldl (fun s a => s.argpStore g.1 g.2.asid b.argp a) s
    g.2.coreList.foldl (fun s c => s.startAcquire b c) s) s

/-- A launch that Foreman removes from the head of its queue (R310). -/
def State.removeLaunch (s : State) (queue : Nat) (e : Launch) (cause : BitVec 8) : State :=
  match s.readBlock e.asid e.block with
  | (.error _, s) => s.launchLost queue e cause
  | (.ok d, s) =>
    let b := lpbOf d
    if b.crec.toNat % 64 ≠ 0 then s.launchLost queue e cause
    else s.addGrid queue { Grid.make queue e b s.time with st := .completing 5, status := 3, cause := cause, faddr := b.waitev }

/-- The fault of a gang's first ARGP store that is still to be made. -/
def State.argpFault (s : State) (g : Gang) : Failure :=
  let va := g.argps.headD 0 + 0x8000
  match s.launchPlace g.asid va with
  | (.error f, _) => f
  | (.ok _, _) => ⟨cXlate, va⟩

/-- Foreman repairs the mapping that a queue's head or current grid met, or gives up the launch, the grid or the step. -/
def State.repair (s : State) (queue : Nat) (repaired : Bool) : State :=
  let q := s.queue queue
  match q.current with
  | none =>
    match q.entries with
    | e :: _ =>
      match e.failed with
      | none => s
      | some (_, cause) =>
        if repaired then s.modQueue queue fun q => { q with entries := { e with failed := none } :: q.entries.drop 1 }
        else s.removeLaunch queue e cause
    | [] => s
  | some k =>
    match s.grid? k with
    | none => s
    | some g =>
      match s.argpGang k with
      | some (_, y) =>
        if repaired then s.argpRetry k g.lpb
        else
          let f := s.argpFault y
          s.endGrid k f.cause f.addr
      | none =>
        if !g.stuck then s
        else s.modGrid k fun g =>
          { g with
            stuck := false
            st := match g.st with
              | .completing n => .completing (if repaired then n else n + 1)
              | st => st }

/-- FOREMAN_REPAIR_MAPPING (R308, R310, R316). -/
def execForemanRepairMapping (queue : BitVec 6) (repaired : Bool) (s : State) : Host.Outcome State Fault Refusal :=
  .next (s.repair queue.toNat repaired)

end Sys2Proof.Machine
end

