-- ==== Sys2Proof/Machine/Links.lean ====
section
/-!
DEFINITION. Dead agents (R305, R306, R347), the CXL ports (R341), the Umnor ports (R343 to R345), and Ethernet (R348).
-/
namespace Sys2Proof.Machine

/-! ## A die declared dead (R305, R306) -/

/-- Key of an agent's incarnation number. -/
def agentKey : Party → Nat
  | .die n => n
  | .umnor p => 8 + p
  | .sharer w => 20 + w

/-- Source of an agent's log records. -/
def agentSource : Party → Nat
  | .die n => 256 + n
  | .umnor p => 512 + p
  | .sharer w => 768 + w

/-- An agent's number grows by 1 at every home, and the declaration is logged (R305, R352). -/
def State.bumpIncarnation (s : State) (a : Party) : State :=
  let n := s.incarnations.getD (agentKey a) 0 + 1
  { s with incarnations := s.incarnations.set (agentKey a) n }.logEvent 2 (agentSource a) 0 n.toNat

/-- A surviving home unlinks a dead die from a line's list; the line is poisoned when the die held it in M (R306). -/
def State.unlinkDead (s : State) (die line : Nat) (e : L2Line) : State :=
  let s := if e.modified then s.poisonLine line else s
  let s := match e.prev with
    | some p => onSetnext line (.die p) e.next s
    | none => if (s.home line).head = some die then s.setListHead line (.die die) e.next else s
  match e.next with
  | some n => onSetprev line (.die n) e.prev s
  | none => s

/-- The grids with a gang resident on a die. -/
def State.gridsOn (s : State) (die : Nat) : List Nat :=
  (s.gangs.filterMap fun g => match g.2.core0 with
    | some c0 => if dieOf c0 = die then some g.2.grid else none
    | none => none).eraseDups

/-- Does a surviving die hold a line in M (R297)? -/
def State.heldElsewhere (s : State) (die line : Nat) : Bool :=
  s.dies.any fun d => d.1 ≠ die && d.2.alive && (d.2.l2.get? line).any fun e => e.modified

/-- The lines of the 64 KiB regions in which the dead die's L2 held dirty data: lines homed there, SELFINV lines with dirty bytes, and TRACKED lines
in M. A line that a survivor holds in M is not data of the dead die's L2 (R306). -/
def State.deadRegions (s : State) (die : Nat) : List Nat :=
  let d := s.die die
  let home := (d.held.filter fun h => h.2.dirty && !s.heldElsewhere die h.1).map Prod.fst
  let dirty := home ++ (d.l2.filter fun p => p.2.dirty != 0 || (p.2.coh = 0 && p.2.modified)).map Prod.fst
  let regions := dirty.foldl (fun l n => insertNat (n / 512) l) []
  regions.flatMap fun r => (List.range 512).map fun k => r * 512 + k

/-- A reduction's lane, which has gone on, is to raise POISON at the location when it is next live (R189, R305; log 101). -/
def State.loseRequest (s : State) (t : Tagged) : State :=
  match t.crew with
  | none => s
  | some key =>
    if !t.red then s
    else s.modCrew key fun c => c.updThr ((1#32 <<< (t.lane % 32)) &&& ~~~c.exited) fun _ th => { th with lost := th.lost.or (some t.addr) }

/-- Is the location of an unfinished read-modify-write's lane homed on a die? -/
def State.sentTo (s : State) (die key : Nat) (e : Entry) (l : Lane) : Bool :=
  let at_ (k : AccessKind) (small red : Bool) : Bool :=
    match checkAccess s (s.whoAt key l) k (e.op0.at l) (rmwWidth small / 8) (rmwWidth small / 8) with
    | (.ok (.global page ordered _ _), _) => s.homeDie page.pa = die && !(red && ordered)
    | _ => false
  match decodeWord e.word with
  | .ok (.atom _ _ _ _ _ z) => at_ .rmw (z == 1) false
  | .ok (.cas _ _ _ _ t) => at_ .rmw (t == 1) false
  | .ok (.red _ _ _ _ _ _ z) => at_ .update (z == 1) true
  | .ok (.evsig _ _ _) => at_ .signal false false
  | _ => false

/-- Does a fragment wait for a free place at a slice, its request not sent yet (R192)? -/
def Crew.placeWaits (c : Crew) (F : Mask) : Bool := laneList.any fun l => inMask F l && (match (c.th l).st with
  | .parked (.tags _) => true
  | _ => false)

/-- The unfinished instructions of a crew whose requests were on their way to a home that is dead: those lanes are to fail with POISON (R305,
R329). -/
def State.loseEntries (s : State) (die key : Nat) (c : Crew) : Crew :=
  { c with infl := c.infl.map fun e =>
    if c.placeWaits e.frag then e
    else { e with lost := e.lost ||| maskOf fun l => inMask (e.pending c) l && s.sentTo die key e l } }

/-- Requests to a dead home are neither applied nor acknowledged, and their lanes raise POISON (R305). The dispatcher's own completion step has
no lane. A request whose old value its lane has received is done: only its place is freed (log 101). -/
def State.dropRequests (s : State) (die : Nat) : State :=
  let lost := s.cores.foldl (fun l c => l ++ c.2.unacked.filter fun t => s.homeDie t.pa == die) []
  let s : State := { s with
    cores := s.cores.mapAll fun _ c => { c with unacked := c.unacked.filter fun t => s.homeDie t.pa != die }
    crews := s.crews.mapAll fun k c => if c.infl.isEmpty then c else s.loseEntries die k c }
  lost.foldl State.loseRequest s

/-- The surviving dies write back every dirty line of which `homed` holds: those that were homed on the dead die (R306). -/
def State.rescue (s : State) (homed : Nat → Bool) : State :=
  let s := s.cores.foldl (fun s c => c.2.l1.foldl (fun s l => if homed l.1 then s.l1WriteBack c.1 l.1 else s) s) s
  s.dies.foldl (fun s d => d.2.l2.foldl (fun s l => if homed l.1 then s.l2WriteBack d.1 l.1 else s) s) s

/-- The lines that the surviving agents hold and that are homed on a die. -/
def State.homedLines (s : State) (die : Nat) : List Nat :=
  let all := s.cores.foldl (fun l c => c.2.l1.foldl (fun l e => insertNat e.1 l) l) []
  let all := s.dies.foldl (fun l d => d.2.l2.foldl (fun l e => insertNat e.1 l) l) all
  all.filter fun n => s.homeDie (n * 128) = die

/-- A compute die is declared dead: its grids end with a fault, its caches and engines are gone, and the lines that depended on it are
poisoned or read from memory (R306). -/
def State.dieDead (s : State) (die : Nat) : State :=
  if die ≥ 8 || !(s.die die).alive then s
  else
    let d := s.die die
    let regions := s.deadRegions die
    let homed := s.homedLines die
    let s := (s.gridsOn die).foldl (fun s g => s.endGrid g cEngfault 0) s
    let s := s.dropRequests die
    let s := d.l2.foldl (fun s p => if p.2.coh = 0 then s.unlinkDead die p.1 p.2 else s) s
    let s := { s with cores := s.cores.filter fun c => dieOf c.1 != die }
    let s := s.modDie die fun d => { Die.reset with alive := false, corrected := d.corrected, uncorrected := d.uncorrected }
    let s := s.rescue homed.contains
    regions.foldl State.poisonLine s

/-! ## A peer declared dead (R305, R347) -/

/-- Does the death of the peer on a port disable a group: the port leads to the group's root, or the group has a member behind it, as a
contribution has shown or as the root knows it (R347; what the root knows is free: log 100)? -/
def State.grpLost (s : State) (port group : Nat) (e : Word) : Bool :=
  grpValid e && ((!grpRoot e && grpPort e = port) || (s.redVia.getD group []).contains port || (grpRoot e && Config.memberBehind group port))

/-- The root sends every member that survives a poisoned result for each pending block of a group (R347). -/
def State.poisonBlocks (s : State) (port group : Nat) : State :=
  s.blocks.foldl (fun s b =>
    if b.group.toNat ≠ group then s
    else
      let n := (b.parts.head?.map fun c => c.len.toNat).getD 0
      let (data, poison, _) := poisonedResult n
      { s with outbox := s.outbox ++ ((s.via b.group).filter (· != port)).map fun p => (p, Outbound.result b.group b.tag data poison) }) s

/-- This module's own reductions of a group get a result with every line poisoned, which their copies write (R347). -/
def State.poisonCreds (s : State) (group : BitVec 8) : State :=
  s.cores.foldl (fun s c => c.2.porter.copies.foldl (fun s y =>
    match y.kind with
    | .reduce _ _ _ g len _ _ =>
      if g != group || y.result.isSome then s
      else
        { s.modCopy c.1 y.id fun z => { z with result := some (poisonedResult len.toNat) } with
          agenda := s.agenda ++ [Actor.event (.porterCopyComplete c.1 y.id)] }
    | _ => s) s) s

/-- A group is disabled by the death of the peer on a port: its pending blocks and those begun afterwards complete poisoned, V is cleared, and
Foreman is told (R347, R352). -/
def State.disableGroup (s : State) (port group : Nat) (e : Word) : State :=
  let s := (s.poisonBlocks port group).poisonCreds (BitVec.ofNat 8 group)
  let s : State := { s with
    blocks := s.blocks.filter fun b => b.group.toNat != group
    redHeld := s.redHeld.filter fun c => c.group.toNat != group
    redOff := insertNat group s.redOff
    groups := s.groups.set group (e &&& 0x7FFFFFFFFFFFFFFF#64)
    reports := s.reports ++ [Report.group group] }
  s.logEvent 7 (512 + port) 0 1

/-- A port's record. -/
def State.port (s : State) (p : Nat) : Umnor := s.umnor.getD p Umnor.reset

/-- Change a port's record. -/
def State.modPort (s : State) (p : Nat) (f : Umnor → Umnor) : State := { s with umnor := s.umnor.set p (f (s.port p)) }

/-- An Umnor peer is declared dead: messages in flight from it are dropped, and groups that it belongs to are disabled (R306, R347). -/
def State.peerDead (s : State) (port : Nat) : State :=
  let s := s.modPort port fun u => { u with peerDead := true, retraining := false, received := [], unacked := [], sendq := [], wire := [] }
  let s : State := { s with redHeld := s.redHeld.filter fun c => c.port != some port }
  s.groups.foldl (fun s g => if s.grpLost port g.1 g.2 then s.disableGroup port g.1 g.2 else s) s

/-- A sharer of the memory device behind a window is declared dead: of the lines that the device took for its sharers, those that the sharer
held modified are poisoned by the device (R302, R306; which they are is free: log 104). -/
def State.sharerDead (s : State) (window : Nat) : State :=
  match s.windows.get? window with
  | none => s
  | some w =>
    let mine := s.lent.filter fun l => w.base ≤ l * 128 && l * 128 < w.base + w.size
    let lost := mine.filter fun l => Config.lentModified l s.fresh
    lost.foldl State.poisonLine { s with lent := s.lent.filter (fun l => !mine.contains l), fresh := s.fresh + 1 }

/-- AGENT_DECLARED_DEAD (R305, R306). -/
def execAgentDeclaredDead (agent : Party) (s : State) : Host.Outcome State Fault Refusal :=
  .next (
    let s := s.bumpIncarnation agent
    match agent with
    | .die n => s.dieDead n
    | .umnor p => s.peerDead p
    | .sharer w => s.sharerDead w)

/-! ## CXL ports (R341) -/

/-- The rates that a CXL port offers, the highest first, in GT/s. -/
def cxlRates : List Nat := [128, 64, 32]

/-- The widths that a CXL port offers, the largest first. -/
def cxlWidths : List Nat := [16, 8, 4]

/-- A disabled port drops out of every window that names it: Foreman clears V in each and reports the window (R285, R341). -/
def State.dropWindows (s : State) (port : Nat) : State :=
  s.windows.foldl (fun s w =>
    if w.2.valid && w.2.ports.getLsbD port then
      { s with windows := s.windows.set w.1 { w.2 with valid := false }, reports := s.reports ++ [Report.window w.1] }
    else s) s

/-- Source of a CXL port's log records. -/
def cxlSource (port : Nat) : Nat := 528 + port

/-- CXL_PORT_TRAINING, once the signed configuration has been applied (R349): the highest rate that both sides offer and the largest width they
share; otherwise the port is disabled (R341, R352). -/
def execCxlPortTraining (port : Nat) (partner : CxlPartner) (s : State) : Host.Outcome State Fault Refusal :=
  .next (
    let old := s.cxl.getD port CxlPort.reset
    if !s.boot.powered || !s.boot.accepted then s
    else match partner.flit256, cxlRates.find? partner.rates.contains, cxlWidths.find? fun w => w ≤ partner.width with
    | true, some r, some w =>
      let s := { s with cxl := s.cxl.set port { old with trained := true, disabled := false, rate := r, width := w } }
      if old.trained || old.disabled || r < 128 || w < 16 then s.logEvent 3 (cxlSource port) 0 1 else s
    | _, _, _ =>
      let s := { s with cxl := s.cxl.set port { old with trained := false, disabled := true, rate := 0, width := 0 } }
      (s.dropWindows port).logEvent 3 (cxlSource port) 0 1)

/-! ## Umnor flits (R343) -/

/-- One step of the CRC-64 of ECMA-182 on a bit. -/
def crcBit (c : BitVec 64) : BitVec 64 := if c.msb then (c <<< 1) ^^^ 0x42F0E1EBA9EA3693#64 else c <<< 1

/-- The CRC-64 of ECMA-182, the first byte first. -/
def crc64 (bs : List Byte) : BitVec 64 :=
  bs.foldl (fun (c : BitVec 64) b => (List.range 8).foldl (fun c _ => crcBit c) (c ^^^ ((b.setWidth 64 : BitVec 64) <<< 56))) 0

/-- The header of a flit (R343). -/
structure FlitHeader where
  kind : Nat
  seq : BitVec 12
  ackSeq : BitVec 12
  ackV : Bool
  nak : Bool
  stop : Bool
deriving DecidableEq, Repr

/-- The header that a flit's first doubleword holds. -/
def flitHeader (flit : List Byte) : FlitHeader :=
  let x := ofBytes (flit.take 8)
  { kind := bits x 63 60, seq := BitVec.ofNat 12 (bits x 59 48), ackSeq := BitVec.ofNat 12 (bits x 47 36), ackV := x.testBit 35,
    nak := x.testBit 34, stop := x.testBit 33 }

/-- The doubleword of a header. -/
def FlitHeader.word (h : FlitHeader) : Nat :=
  h.kind * 2 ^ 60 + h.seq.toNat * 2 ^ 48 + h.ackSeq.toNat * 2 ^ 36 + (if h.ackV then 2 ^ 35 else 0) + (if h.nak then 2 ^ 34 else 0) +
  (if h.stop then 2 ^ 33 else 0)

/-- A flit with its CRC. -/
def makeFlit (h : FlitHeader) (payload : List Byte) : List Byte :=
  let body := toBytes 8 h.word ++ payload.take 240 ++ List.replicate (240 - payload.length) 0
  body ++ toBytes 8 (crc64 body).toNat

/-- Does a flit pass its check: 256 bytes, its CRC, and no reserved KIND (R343)? -/
def flitOk (flit : List Byte) : Bool :=
  flit.length = 256 && (crc64 (flit.take 248)).toNat = ofBytes (flit.drop 248) && (flitHeader flit).kind < 3

/-- The header that a port sends now. -/
def Umnor.header (u : Umnor) (kind : Nat) (seq : BitVec 12) : FlitHeader :=
  { kind := kind, seq := seq, ackSeq := u.acked.getD 0, ackV := u.acked.isSome, nak := u.nak, stop := u.stopSent }

/-- A DATA flit of a port. -/
def Umnor.dataFlit (u : Umnor) (p : BitVec 12 × List Byte) : List Byte := makeFlit (u.header 1 p.1) p.2

/-! ## Link-level retry (R344) -/

/-- Flit buffers of a receiver (log 21). -/
def flitBuffers : Nat := 1024

/-- STOP is set while 64 buffers or fewer are free (R344). -/
def Umnor.setStop (u : Umnor) : Umnor :=
  let free := flitBuffers - u.received.length
  { u with freeBuffers := free, stopSent := free ≤ 64 }

/-- Is sequence `a` among the unacknowledged flits? -/
def Umnor.holds (u : Umnor) (a : BitVec 12) : Bool := u.unacked.any fun p => p.1 == a

/-- Flits up to one with a sequence are freed. -/
def dropUpTo (a : BitVec 12) : List (BitVec 12 × List Byte) → List (BitVec 12 × List Byte)
  | [] => []
  | p :: rest => if p.1 == a then rest else dropUpTo a rest

/-- What every flit brings: an acknowledgement, and its sender's STOP state. -/
def Umnor.hear (u : Umnor) (h : FlitHeader) : Umnor :=
  let u := { u with stopSeen := h.stop }
  if h.ackV && u.holds h.ackSeq then { u with unacked := dropUpTo h.ackSeq u.unacked, replays := 0 } else u

/-- The sender resends from the oldest unacknowledged flit, in order; after the sixteenth replay of it the port retrains. -/
def Umnor.resend (u : Umnor) : Umnor :=
  if !u.enabled || u.unacked.isEmpty || u.stopSeen || u.retraining then u
  else
    let u := { u with replays := u.replays + 1, wire := u.wire ++ u.unacked.map u.dataFlit }
    if u.replays ≥ 16 then { u with replays := 0, retraining := true, heard := false } else u

/-- Send waiting payloads while fewer than 1,024 flits are unacknowledged. -/
def Umnor.pump : Nat → Umnor → Umnor
  | 0, u => u
  | n + 1, u =>
    if !u.enabled || u.stopSeen || u.retraining || u.unacked.length ≥ 1024 then u
    else match u.sendq with
      | [] => u
      | p :: rest =>
        let f := (u.nextSeq, p)
        Umnor.pump n { u with sendq := rest, nextSeq := u.nextSeq + 1, unacked := u.unacked ++ [f], wire := u.wire ++ [u.dataFlit f] }

/-- The end of a port's event: its STOP state, a replay when one is called for, its new DATA flits, and an IDLE flit when it sends none. -/
def Umnor.answer (u : Umnor) (replay : Bool) : Umnor :=
  let u := u.setStop
  let u := if replay then u.resend else u
  let u := Umnor.pump 1024 u
  if u.wire.isEmpty && u.enabled && !u.retraining then { u with wire := [makeFlit (u.header 0 0) []] } else u

/-- A flit that fails its check is dropped, and the receiver asks for a replay. -/
def Umnor.badFlit (u : Umnor) : Umnor := { u with nak := true }

/-- A DATA flit: accepted when it is the next one expected, dropped otherwise. -/
def Umnor.accept (u : Umnor) (h : FlitHeader) (payload : List Byte) : Umnor :=
  if h.seq != u.expect then u
  else { u with received := u.received ++ [payload], expect := u.expect + 1, acked := some h.seq, nak := false }

/-- The lane counts of a port, the largest first. -/
def umnorLanes : List Nat := [16, 8, 4]

/-- The highest rate of a port, in units of 0.1 Gb/s. -/
def umnorRate : Nat := 2125

/-- The NEG flit that a port of this module sends (R345; its places are log 22). -/
def State.negFlit (s : State) (port : Nat) : List Byte :=
  makeFlit { (s.port port).header 2 0 with seq := 0 }
    (toBytes 8 (Config.serial).toNat ++ toBytes 1 port ++ toBytes 1 7 ++ toBytes 2 s.moduleInc.toNat ++ toBytes 4 umnorRate)

/-- A port sends its NEG flit, with its latest STOP state: at bring-up, when a retrain begins, and in answer (R343, R345). -/
def State.sendNeg (s : State) (port : Nat) : State :=
  let s := s.modPort port Umnor.setStop
  s.modPort port fun u => { u with wire := u.wire ++ [s.negFlit port] }

/-- The hub takes what was delivered before, unless contributions of the port wait for room in its reduction buffer (R346); flits sent before are
on their way. -/
def State.hubTakes (s : State) (port : Nat) : Umnor :=
  let u := s.port port
  { u with wire := [], received := if s.redHeld.any fun c => c.port == some port then u.received else [] }

/-- The port after an event. One that has begun to retrain sends its NEG flit (R344, R345). -/
def State.portAfter (s : State) (port : Nat) (u : Umnor) : State :=
  let before := (s.port port).retraining
  let s := s.modPort port fun _ => u
  if u.retraining && !before then s.sendNeg port else s

/-- A DATA or IDLE flit arrives at a port. -/
def State.flitArrives (s : State) (port kind : Nat) (flit : List Byte) : State :=
  let u := s.hubTakes port
  if !u.enabled || u.peerDead then s
  else
    let h := flitHeader flit
    if !flitOk flit then s.portAfter port (u.badFlit.answer false)
    else if h.kind ≠ kind then s
    else
      let u := u.hear h
      let u := if kind = 1 then u.accept h ((flit.drop 8).take 240) else u
      s.portAfter port (u.answer h.nak)

/-- UMNOR_DATA_FLIT (R344). -/
def execUmnorDataFlit (port : Nat) (flit : List (BitVec 8)) (s : State) : Host.Outcome State Fault Refusal :=
  .next (s.flitArrives port 1 flit)

/-- UMNOR_IDLE_FLIT (R343). -/
def execUmnorIdleFlit (port : Nat) (flit : List (BitVec 8)) (s : State) : Host.Outcome State Fault Refusal :=
  .next (s.flitArrives port 0 flit)

/-- UMNOR_REPLAY_TIMEOUT: 2 µs without progress while flits are unacknowledged (R344). -/
def execUmnorReplayTimeout (port : Nat) (s : State) : Host.Outcome State Fault Refusal :=
  .next (
    let u := s.hubTakes port
    if u.unacked.isEmpty then s else s.portAfter port (u.answer true))

/-! ## Training (R345) -/

/-- The NEG record of a payload (R345; its places are log 22): serial number, port, incarnation, lane counts (bit n of a byte for the
nth of 4, 8, 16) and highest rate. -/
structure NegRecord where
  serial : Word
  port : Nat
  incarnation : BitVec 16
  lanes : List Nat
  rate : Nat
deriving DecidableEq, Repr

/-- The NEG record in a payload. -/
def negOf (p : List Byte) : NegRecord :=
  let n (off k : Nat) : Nat := ofBytes ((p.drop off).take k)
  { serial := BitVec.ofNat 64 (n 0 8), port := n 8 1, incarnation := BitVec.ofNat 16 (n 10 2),
    lanes := [4, 8, 16].zipIdx.filterMap (fun l => if (n 9 1).testBit l.2 then some l.1 else none), rate := n 12 4 }

/-- A known peer's record with an older incarnation number is an older message, which is dropped (R305, R345). -/
def State.negOld (s : State) (port : Nat) (r : NegRecord) : Bool := (s.port port).peerSerial == r.serial && s.stale port r.incarnation

/-- A port adopts the largest lane count and the highest rate that both ends offer, and trains; a partner with fewer than 4 lanes leaves it
disabled. A new incarnation of a known peer has its older messages dropped (R345, R352). -/
def State.adopt (s : State) (port : Nat) (r : NegRecord) : State :=
  let u := s.port port
  let again := u.peerSerial == r.serial && u.peerInc != r.incarnation
  let s : State := { s with
    incarnations := s.incarnations.set (8 + port) r.incarnation
    redHeld := if again then s.redHeld.filter fun c => c.port != some port else s.redHeld }
  let u := { u with
    peerSerial := r.serial
    peerInc := r.incarnation
    peerDead := false
    nak := false
    received := if again then [] else u.received }
  match umnorLanes.find? r.lanes.contains with
  | some n => s.modPort port fun _ => { u with lanes := n, rate := min umnorRate r.rate, retraining := true, heard := true }
  | none => (s.modPort port fun _ => { u with enabled := false, lanes := 0, rate := 0, retraining := false, heard := false }).logEvent 3 (512 + port) 0 1

/-- A NEG record arrives. The first one of a training is adopted and answered with this end's own; a later one is answered when its sender asks
for this end's again, by NAK, so that the exchange ends once each end has received one (R345; log 111). -/
def State.negotiate (s : State) (port : Nat) (r : NegRecord) (nak : Bool) : State :=
  let u := s.port port
  if u.retraining && u.heard then (if nak then s.sendNeg port else s) else (s.adopt port r).sendNeg port

/-- UMNOR_NEG_FLIT, once the signed configuration has been applied (R349): the flit brings its sender's ACKSEQ, NAK and STOP as every flit does,
and its record. A port that receives a bad one asks for it again (R343 to R345). -/
def execUmnorNegFlit (port : Nat) (flit : List (BitVec 8)) (s : State) : Host.Outcome State Fault Refusal :=
  .next (
    let h := flitHeader flit
    let r := negOf ((flit.drop 8).take 240)
    if !s.boot.powered || !s.boot.accepted then s
    else if !flitOk flit then
      let s := s.modPort port fun _ => (s.hubTakes port).badFlit
      if (s.port port).retraining && !(s.port port).heard then s.sendNeg port else s
    else if h.kind ≠ 2 then s
    else if s.negOld port r then s.dropOld
    else (s.modPort port fun _ => (s.hubTakes port).hear h).negotiate port r h.nak)

/-- A training ends: the port is usable, and what is not acknowledged is sent again (R344, R345). A port that had been usable has retrained; one
below its full width or rate is degraded (R352). -/
def State.trained (s : State) (port : Nat) : State :=
  let u := s.port port
  let s := s.modPort port fun u => { u with
    enabled := true, retraining := false, heard := false, retrains := 0, replays := 0,
    wire := if u.stopSeen then [] else u.unacked.map u.dataFlit }
  if u.enabled || u.lanes < 16 || u.rate < umnorRate then s.logEvent 3 (512 + port) 0 1 else s

/-- UMNOR_RETRAIN: the training of a port, at bring-up or in a retrain, ends once its NEG exchange has been made, or fails; three failures in a row
declare the peer dead and leave the port disabled (R344, R345, R352). -/
def execUmnorRetrain (port : Nat) (ok : Bool) (s : State) : Host.Outcome State Fault Refusal :=
  .next (
    let u := s.port port
    if !u.retraining then s
    else if ok then (if u.heard then s.trained port else s)
    else
      let n := u.retrains + 1
      if n < 3 then (s.modPort port fun u => { u with retrains := n, heard := false, wire := [] }).sendNeg port
      else
        let s := (s.modPort port fun u => { u with retrains := 0, enabled := false, heard := false }).logEvent 3 (512 + port) 0 1
        (s.bumpIncarnation (.umnor port)).peerDead port)

/-! ## Ethernet (R348) -/

/-- Set the state of an Ethernet link. -/
def State.setLink (s : State) (port : Nat) (up : Bool) : State := { s with ether := s.ether.set port up }

/-- ETHERNET_LINK_DOWN: the device goes on; host traffic uses the other port (R348). -/
def execEthernetLinkDown (port : Nat) (s : State) : Host.Outcome State Fault Refusal := .next (s.setLink port false)

/-- ETHERNET_LINK_UP (R348). -/
def execEthernetLinkUp (port : Nat) (s : State) : Host.Outcome State Fault Refusal := .next (s.setLink port true)

end Sys2Proof.Machine
end

