-- ==== Sys2Proof/Machine/Boot.lean ====
section
/-!
DEFINITION. Boot and identity (R349, R350): power-good, the boot image's check with SHA-384 (FIPS 180-4) and ECDSA over P-384 (FIPS
186-5), the signed configuration, and attestation.
-/
namespace Sys2Proof.Machine

/-! ## SHA-384 -/

/-- The greatest `r` < 2^n with `r`^k ≤ `x`. -/
def rootOf (k x : Nat) : Nat → Nat
  | 0 => 0
  | n + 1 => (List.range (n + 1)).foldr (fun b r => if (r + 2 ^ b) ^ k ≤ x then r + 2 ^ b else r) 0

/-- The first `n` primes from a candidate on. -/
def primesFrom : Nat → Nat → Nat → List Nat
  | 0, _, _ => []
  | _, _, 0 => []
  | f + 1, p, n + 1 =>
    if (List.range p).all fun d => d < 2 || p % d ≠ 0 then p :: primesFrom f (p + 1) n else primesFrom f (p + 1) (n + 1)

/-- The first 80 primes. -/
def primes80 : List Nat := primesFrom 420 2 80

/-- The round constants: fractions of the cube roots of the first 80 primes. -/
def shaK : List (BitVec 64) := primes80.map fun p => BitVec.ofNat 64 (rootOf 3 (p * 2 ^ 192) 68)

/-- The initial value: fractions of the square roots of the 9th to 16th primes. -/
def shaInit : List (BitVec 64) := ((primes80.drop 8).take 8).map fun p => BitVec.ofNat 64 (rootOf 2 (p * 2 ^ 128) 68)

/-- The big-endian number of bytes. -/
def beNat (bs : List Byte) : Nat := bs.foldl (fun n b => n * 256 + b.toNat) 0

/-- The 16 words of a 128-byte block. -/
def shaWords (b : List Byte) : List (BitVec 64) := (List.range 16).map fun k => BitVec.ofNat 64 (beNat ((b.drop (8 * k)).take 8))

/-- The words of the message schedule that follow the latest 16, `n` of them. -/
def shaSchedule : Nat → List (BitVec 64) → List (BitVec 64)
  | 0, _ => []
  | n + 1, w =>
    let x := w.getD 1 0
    let y := w.getD 14 0
    let s0 := x.rotateRight 1 ^^^ x.rotateRight 8 ^^^ (x >>> 7)
    let s1 := y.rotateRight 19 ^^^ y.rotateRight 61 ^^^ (y >>> 6)
    let z := w.getD 0 0 + s0 + w.getD 9 0 + s1
    z :: shaSchedule n (w.drop 1 ++ [z])

/-- One round. -/
def shaRound (v : List (BitVec 64)) (kw : BitVec 64) : List (BitVec 64) :=
  match v with
  | [a, b, c, d, e, f, g, h] =>
    let s1 := e.rotateRight 14 ^^^ e.rotateRight 18 ^^^ e.rotateRight 41
    let t1 := h + s1 + ((e &&& f) ^^^ (~~~e &&& g)) + kw
    let s0 := a.rotateRight 28 ^^^ a.rotateRight 34 ^^^ a.rotateRight 39
    let t2 := s0 + ((a &&& b) ^^^ (a &&& c) ^^^ (b &&& c))
    [t1 + t2, a, b, c, d + t1, e, f, g]
  | _ => v

/-- One block. -/
def shaBlock (h : List (BitVec 64)) (b : List Byte) : List (BitVec 64) :=
  let w := shaWords b
  let ws := w ++ shaSchedule 64 w
  let v := ((ws.zip shaK).map fun p => p.1 + p.2).foldl shaRound h
  (h.zip v).map fun p => p.1 + p.2

/-- Blocks of 128 bytes. -/
def shaBlocks : Nat → List (BitVec 64) → List Byte → List (BitVec 64)
  | 0, h, _ => h
  | n + 1, h, bs => shaBlocks n (shaBlock h (bs.take 128)) (bs.drop 128)

/-- SHA-384 of a message. -/
def sha384 (m : List Byte) : List Byte :=
  let pad := (239 - m.length % 128) % 128
  let bs := m ++ [0x80#8] ++ List.replicate pad 0 ++ (toBytes 16 (8 * m.length)).reverse
  ((shaBlocks (bs.length / 128) shaInit bs).take 6).flatMap fun x => (toBytes 8 x.toNat).reverse

/-! ## ECDSA over P-384 -/

/-- The field of P-384. -/
def p384p : Nat := 2 ^ 384 - 2 ^ 128 - 2 ^ 96 + 2 ^ 32 - 1
/-- The order of its base point. -/
def p384n : Nat := 0xffffffffffffffffffffffffffffffffffffffffffffffffc7634d81f4372ddf581a0db248b0a77aecec196accc52973
/-- The coefficient b of its curve; a is −3. -/
def p384b : Nat := 0xb3312fa7e23ee7e4988e056be3f82d19181d9c6efe8141120314088f5013875ac656398d8a2ed19d2a85c8edd3ec2aef
/-- Its base point. -/
def p384g : Nat × Nat :=
  (0xaa87ca22be8b05378eb1c71ef320ad746e1d3b628ba79b9859f741e082542a385502f25dbf55296c3a545e3872760ab7,
   0x3617de4a96262c6f5d9e98bf9292dc29f8f41dbd289a147ce9da3113b5f0b8c00a60b1ce1d7e819d7a431d7c90ea0e5f)

/-- `b`^`e` modulo `m`, for `e` below 2^n. -/
def powMod (m b e n : Nat) : Nat :=
  (List.range n).foldr (fun k r => let r := r * r % m; if e.testBit k then r * b % m else r) (1 % m)

/-- The inverse modulo a prime. -/
def invMod (m x : Nat) : Nat := powMod m x (m - 2) 384

/-- The difference modulo `m` of numbers below it. -/
def subMod (m a b : Nat) : Nat := (a + (m - b % m)) % m

/-- Points of the curve; none is the point at infinity. -/
abbrev CurvePoint := Option (Nat × Nat)

/-- The sum of two points. -/
def addPoints (a b : CurvePoint) : CurvePoint :=
  match a, b with
  | none, q => q
  | q, none => q
  | some (x, y), some (u, v) =>
    let m := p384p
    if x = u && (y + v) % m = 0 then none
    else
      let l := if x = u then (3 * x * x + (m - 3)) * invMod m (2 * y % m) % m
        else subMod m v y * invMod m (subMod m u x) % m
      let w := subMod m (subMod m (l * l % m) x) u
      some (w, subMod m (l * subMod m x w % m) y)

/-- A multiple of a point, for a factor below 2^384. -/
def mulPoint (k : Nat) (a : CurvePoint) : CurvePoint :=
  (List.range 384).foldr (fun i r => let r := addPoints r r; if k.testBit i then addPoints r a else r) none

/-- Does a point lie on the curve? -/
def onCurve (a : Nat × Nat) : Bool :=
  a.1 < p384p && a.2 < p384p && a.2 * a.2 % p384p = (a.1 * a.1 * a.1 + (p384p - 3) * a.1 + p384b) % p384p

/-- Does a signature (r, s) of a digest hold under a public key? -/
def ecdsaOk (key : Nat × Nat) (digest : List Byte) (r s : Nat) : Bool :=
  r ≠ 0 && r < p384n && s ≠ 0 && s < p384n && onCurve key &&
  (let w := invMod p384n s
   let e := beNat digest
   match addPoints (mulPoint (e * w % p384n) (some p384g)) (mulPoint (r * w % p384n) (some key)) with
   | some (x, _) => x % p384n = r
   | none => false)

/-! ## The boot image (R350) -/

/-- A number of the image's header. -/
def imageNat (m : List Byte) (off n : Nat) : Nat := ofBytes ((m.drop off).take n)

/-- Why an image is refused, in the order of R350: 1 MAGIC or FMT, 2 SIG, 3 DIGEST, 4 SVN; none when it is accepted (log 24). -/
def imageFault (m : List Byte) (minSvn : Nat) : Option Nat :=
  let body := m.drop 0xA0
  if m.length < 0xA0 || imageNat m 4 4 ≠ 0x564C4D38 || imageNat m 0 2 ≠ 1 then some 1
  else if !ecdsaOk Config.vellysKey (sha384 (m.take 0x40)) (beNat ((m.drop 0x40).take 48)) (beNat ((m.drop 0x70).take 48)) then some 2
  else if body.length ≠ imageNat m 8 8 || sha384 body != (m.drop 0x10).take 48 then some 3
  else if imageNat m 2 2 < minSvn then some 4
  else none

/-- The windows of the signed configuration (R285). -/
def windowOfSigned (w : Config.SignedWindow) : Window :=
  { valid := true, type := w.type, gran := w.gran, ways := w.ways, ports := w.ports, base := w.base, size := w.size,
    tagbase := w.tagbase, devaddr := w.devaddr }

/-- The signed configuration is applied (R349 step 5); a window that names a disabled port is not valid (R341). -/
def State.applySigned (s : State) (c : Config.Signed) : State :=
  let s : State := { s with
    windows := c.windows.foldl (fun m w => m.set w.1 (windowOfSigned w.2)) s.windows
    groups := c.groups.foldl (fun m g => m.set g.1 g.2) s.groups }
  let s := c.queues.foldl (fun s q => s.modQueue q.1 fun y => { y with asid := some q.2 }) s
  let s := c.fstsize.foldl (fun s f => s.modDie f.1 fun d => { d with fstsize := f.2 }) s
  let s := c.replay.foldl (fun s f => s.modDie f.1 fun d => { d with replay := f.2 }) s
  let s := c.quotas.foldl (fun s q => s.modCore q.1 fun y => { y with quota := y.quota.set q.2.1.toNat q.2.2 }) s
  let s := c.budgets.foldl (fun s b => { s with power := s.power.set b.1 { s.powerOf b.1 with milliwatts := b.2 } }) s
  let s : State := c.ide.foldl (fun (s : State) p => { s with cxl := s.cxl.set p { s.cxl.getD p CxlPort.reset with ide := true } }) s
  s.cxl.foldl (fun (s : State) p => if p.2.disabled then s.dropWindows p.1 else s) s

/-- The Umnor ports come up: each begins its training and sends its NEG flit (R345, R349 step 6). -/
def State.bringUp (s : State) : State :=
  (List.range 12).foldl (fun s p => (s.modPort p fun u => { u with retraining := true, heard := false }).sendNeg p) s

/-- POWER_GOOD: the device comes up as after reset, with Foreman running from ROM and no image accepted. Memory behind the ports, the
fused minimum SVN and the device's inputs stay, and the module has a new incarnation number (R345, R349; log 106). -/
def execPowerGood (s : State) : Host.Outcome State Fault Refusal :=
  .next { State.reset with
    mem := s.mem
    poison := s.poison
    ether := s.ether
    agenda := s.agenda
    fresh := s.fresh
    memLate := s.memLate
    incarnations := [(52, s.moduleInc + 1)]
    boot := { Boot.reset with powered := true, minSvn := s.boot.minSvn, servers := s.boot.servers } }

/-- BOOT_IMAGE_CHECK: a fetched image passes, its configuration is applied, the Umnor ports come up and the compute dies may run; or it is
discarded and Foreman tries the next server, up to 8 attempts for each (R349, R350, R352). -/
def execBootImageCheck (image : List (BitVec 8)) (s : State) : Host.Outcome State Fault Refusal :=
  .next (
    if !s.boot.powered || s.boot.accepted || !s.hostLink || 8 * s.boot.servers ≤ s.boot.attempts then s
    else
      match imageFault image s.boot.minSvn with
      | some cause =>
        let s := { s with boot := { s.boot with attempts := s.boot.attempts + 1 } }
        s.logEvent 6 1024 0 cause
      | none =>
        let s := { s with boot := { s.boot with
          accepted := true
          minSvn := max s.boot.minSvn (imageNat image 2 2)
          digest := (image.drop 0x10).take 48 } }
        (s.applySigned (Config.signed (image.drop 0xA0))).bringUp)

/-- ATTESTATION_REQUEST: Foreman signs the accepted DIGEST with the host's nonce (R350). -/
def execAttestationRequest (nonce : Word) (s : State) : Host.Outcome State Fault Refusal :=
  .next (if s.boot.accepted && s.hostLink then { s with boot := { s.boot with signature := Config.attest s.boot.digest nonce } } else s)

end Sys2Proof.Machine
end

