-- ==== Sys2Proof/Machine/Power.lean ====
section
/-!
DEFINITION. Power blocks and their clocks (R351), and Foreman's event log (R352). Blocks 0 to 255 are the cores, by number; the groups of
L2 slices and the hub dies follow (log 25).
-/
namespace Sys2Proof.Machine

/-- Change a power block. -/
def State.modPower (s : State) (b : Nat) (f : PowerBlock → PowerBlock) : State := { s with power := s.power.set b (f (s.powerOf b)) }

/-- The package's limit in milliwatts. -/
def packageLimit : Nat := 1900000

/-- New readings of a block's monitors: free values, the temperature above 95 °C, in 1/16 °C, when the block steps down for it (R277, R351; log
105). -/
def PowerBlock.read (b : PowerBlock) (fresh : Nat) (hot : Bool) : PowerBlock :=
  let t := Config.monitor fresh
  { b with temp := if hot then BitVec.ofNat 16 (1521 + t.toNat % 31247) else t, volt := Config.monitor (fresh + 1), proc := Config.monitor (fresh + 2) }

/-- POWER_SAMPLE: above 1,900 W every block's budget falls in proportion (R351). -/
def execPowerSample (milliwatts : Nat) (s : State) : Host.Outcome State Fault Refusal :=
  .next (
    if milliwatts ≤ packageLimit then s
    else { s with power := s.power.mapAll fun _ b => { b with milliwatts := b.milliwatts * packageLimit / milliwatts } })

/-- CLOCK_STEP: a block's clock moves by 100 MHz, never above 3.0 GHz, and its monitors read anew (R4, R351). A stopped clock stays
stopped. -/
def execClockStep (block : Nat) (down : Bool) (reason : StepReason) (s : State) : Host.Outcome State Fault Refusal :=
  .next (
    if (s.powerOf block).stopped.isSome then s
    else
      let hot := down && reason == StepReason.temperature
      let step (b : PowerBlock) : PowerBlock := { b with mhz := if down then max 100 (b.mhz - 100) else min 3000 (b.mhz + 100) }
      { s with fresh := s.fresh + 3 }.modPower block fun b => (step b).read s.fresh hot)

/-- THERMAL_STOP: at 110 °C a block stops its clock and keeps all state (R351, R352). -/
def execThermalStop (block : Nat) (s : State) : Host.Outcome State Fault Refusal :=
  .next (
    if (s.powerOf block).stopped.isSome then s
    else (s.modPower block fun b => { b with stopped := some s.time, temp := 1760 }).logEvent 5 block 0 1)

/-- A wait for a count of cycles, put off by the cycles in which its core's clock was stopped. -/
def Park.later (n : Nat) : Park → Park
  | .asleep w => .asleep (w + n)
  | p => p

/-- A crew's counts of its core's cycles, put off by the cycles in which its clock was stopped (R91, R277, R351). -/
def Crew.later (n : Nat) (c : Crew) : Crew :=
  { c.updThr fullMask fun _ t => { t with st := match t.st with
      | .parked p => .parked (p.later n)
      | st => st } with
    stall := if c.stall = 0 then 0 else c.stall + n }

/-- THERMAL_RESUME: cooled to 95 °C, the block's clock runs again. CLOCK did not count the cycles between, nor did the counts of the crews on
the core (R40, R91, R277, R321, R351). -/
def execThermalResume (block : Nat) (s : State) : Host.Outcome State Fault Refusal :=
  .next (
    match (s.powerOf block).stopped with
    | none => s
    | some t =>
      let n := s.time - t
      let s := s.modPower block fun b => { b with stopped := none, temp := 1520 }
      if block < 256 then
        let s := s.modCore block fun c => { c with lag := c.lag + n, lastJoin := c.lastJoin + n }
        (s.crewsOn block).foldl (fun s p => s.setCrew p.1 (p.2.later n)) s
      else s)

/-- ERROR_COUNT_LOG: Foreman records a die's error counts (R304, R352). -/
def execErrorCountLog (die : Nat) (s : State) : Host.Outcome State Fault Refusal :=
  .next (s.logEvent 1 (256 + die) 0 (s.die die).errorCounts)

/-- EVENT_LOG_READ: the host reads the log over Ethernet; the log keeps its records (R348, R352). -/
def execEventLogRead (_host : Nat) (s : State) : Host.Outcome State Fault Refusal := .next s

end Sys2Proof.Machine
end

