-- ==== Sys2Proof/Machine/Replay.lean ====
section
/-!
DEFINITION. Unfinished instructions (R329, R331 step 5): what an entry's word completes in its lanes, when a crew waits for its entries,
and words that are no instruction (R86, R87).
-/
namespace Sys2Proof.Machine

/-- How the lanes of an unfinished instruction complete: what each does, a wait before they run, and what they write. -/
structure Completion where
  lane : LaneFn
  pre : Entry → Nat → State → Option Park × State
  dest : Dest
  tag : Lanes Word → Tag

/-- The completion of an instruction whose lanes complete separately (R181, R329); none for another. -/
def completionOf : Instr → Option Completion
  | .ld _ d _ o z => some ⟨ldFn o z, noPre, loadDest z d, tagG⟩
  | .st _ _ _ o z => some ⟨stFn o z, noPre, .none, tagG⟩
  | .ldp _ d _ o z => some ⟨ldpFn o z, ldpPre o z, loadDest z d, tagG⟩
  | .stp _ _ _ o z => some ⟨stpFn o z, noPre, .none, tagG⟩
  | .ldacq _ d _ _ z => some ⟨ldacqFn z, noPre, .one d, tagG⟩
  | .strel _ _ _ _ z => some ⟨strelFn z, noPre, .none, tagG⟩
  | .atom _ d _ _ p z => some ⟨atomFn p (z == 1), noPre, .one d, tagG⟩
  | .cas d _ _ _ t => some ⟨casFn t, noPre, .one d, tagG⟩
  | .red _ _ _ _ _ p z => some ⟨redLane p (z == 1), noPre, .none, tagG⟩
  | .clean _ _ v => some ⟨cleanLane (v == 1) false, noPre, .none, tagG⟩
  | .inval _ _ v => some ⟨cleanLane (v == 1) true, noPre, .none, tagG⟩
  | .pscrub _ _ => some ⟨pscrubLane, noPre, .none, tagG⟩
  | .presq _ d _ => some ⟨presqLane, noPre, .one d, tagG⟩
  | .evsig _ _ _ => some ⟨evsigLane, noPre, .none, tagG⟩
  | .evwait _ _ _ => some ⟨evwaitLane, evwaitPre, .none, tagG⟩
  | .mma _ d _ => some ⟨mmaFn, noPre, .one d, tagG⟩
  | .mepi _ d _ _ => some ⟨mepiFn, noPre, .one d, tagG⟩
  | .accrd _ d _ => some ⟨accrdFn, noPre, .one d, tagG⟩
  | .accwr _ _ _ => some ⟨accwrFn, accwrPre, .none, tagG⟩
  | .cbld _ _ => some ⟨cbldFn, cbldPre, .none, tagG⟩
  | .fins _ d _ b => some ⟨finsLane b, noPre, .one d, tagG⟩
  | .ftab _ d _ b => some ⟨ftabLane b, noPre, .one d, fun _ => .u⟩
  | _ => none

/-- Drop an unfinished instruction. -/
def State.dropEntry (s : State) (key k : Nat) : State := s.modCrew key fun c => { c with infl := c.infl.eraseIdx k }

/-- Complete the `k`th unfinished instruction of a crew, by its word. A word that an edited save area made into no such instruction completes
nothing. -/
def State.finishNth (s : State) (key k : Nat) : State :=
  match (s.crew key).infl[k]? with
  | none => s
  | some e =>
    match decodeWord e.word with
    | .error _ => s.dropEntry key k
    | .ok i =>
      match completionOf i with
      | none => s.dropEntry key k
      | some c => s.finishEntry key k c.lane c.pre c.dest c.tag false

/-- The oldest unfinished instruction that can go on: lanes of its fragment are live, or none is left to complete. One whose fragment
is parked waits with it. -/
def Crew.openEntry (c : Crew) : Option Nat := c.infl.findIdx? fun e => e.frag &&& c.live != 0 || e.pending c == 0

/-- Complete unfinished instructions of a crew that can go on, from the oldest, at most `n`. -/
def State.finishOpen : Nat → State → Nat → State
  | 0, s, _ => s
  | n + 1, s, key =>
    match s.crew? key with
    | none => s
    | some c =>
      match c.openEntry with
      | none => s
      | some k => (s.finishNth key k).finishOpen n key

/-- UNFINISHED_INSTRUCTION_FINISH: an unfinished instruction completes its lanes, after those before it (R329). -/
def execUnfinishedInstructionFinish (crew entry : Nat) (s : State) : Host.Outcome State Fault Refusal :=
  .next (match s.crew? crew with
    | some c => if s.clocked c.core then s.finishOpen (entry + 1) crew else s
    | none => s)

/-- May an instruction issue while older ones are unfinished: it only computes registers, or loads, and uses none that they write? -/
def Instr.overlaps : Instr → Bool
  | .nop | .stall _ | .iadd _ _ _ _ _ | .isub _ _ _ _ _ | .imin _ _ _ _ _ | .imax _ _ _ _ _ | .and _ _ _ _ | .or _ _ _ _ | .xor _ _ _ _
  | .shlX _ _ _ _ | .shrX _ _ _ _ | .mov _ _ _ | .movs _ _ _ | .limm _ _ _ | .iaddi _ _ _ _ | .andi _ _ _ _ | .ori _ _ _ _ | .xori _ _ _ _
  | .imulX _ _ _ _ | .imadX _ _ _ _ | .ld _ _ _ _ _ => true
  | _ => false

/-- The registers that an unfinished instruction writes. -/
def Entry.writes (e : Entry) : List Nat :=
  match decodeWord e.word with
  | .ok i => match i.dst with
    | some d => if i.writesPair then [d.toNat, d.toNat + 1] else [d.toNat]
    | none => []
  | .error _ => []

/-- Must a crew's unfinished instructions complete before this one issues? A ninth also waits (R329). -/
def Crew.mustFinish (c : Crew) (i : Instr) : Bool :=
  c.infl.length ≥ 8 || !Instr.overlaps i || c.infl.any fun e => e.writes.any fun n => i.regNumbers.contains n

/-! ## Words that are no instruction (R86, R87) -/

/-- The cause of a word that is no instruction of the compute stream: ILLEGAL before RESBITS (R87); none for an instruction. -/
def unusedCause (w : Code) (h : Header) (run : Option HintRun) : Option (BitVec 8) :=
  match decodeWord w with
  | .ok _ => none
  | .error .resbits =>
    match decodeLoose w with
    | some i => if i.isPorter || runMisuse i run || propMissing i h then some cIllegal else some cResbits
    | none => some cIllegal
  | .error _ => some cIllegal

/-- The cause with which a Porter stops at a word that is no instruction (R86, R258). -/
def porterCause (w : Code) : Option (BitVec 8) :=
  match decodeWord w with
  | .ok _ => none
  | .error .resbits =>
    match decodeLoose w with
    | some i => some (if i.isPorter then cResbits else cIllegal)
    | none => some cIllegal
  | .error _ => some cIllegal

/-- UNUSED_ENCODING: the fragment traps with ILLEGAL or RESBITS (R86, R87); a Porter stops (R258). -/
def execUnusedEncoding (word : BitVec 32) (s : State) : Host.Outcome State Fault Refusal :=
  match s.cur with
  | .porter core =>
    .next (match porterCause word with
      | some c => s.porterStop core c 0
      | none => s)
  | _ =>
    match ctxOf (.unusedEncoding word) s with
    | none => .fault .noIssuer
    | some x =>
      match unusedCause word (s.hdrOf x.key) x.run with
      | some c => .next ((s.modCrew x.key fun y => y.noteIssue x.F false).trapAll x c)
      | none => .next s

end Sys2Proof.Machine
end

