-- ==== Sys2Proof/Machine/Dispatch.lean ====
section
/-!
DEFINITION. The meaning of every row of the opcode table: one arm per constructor, each a call of its definition.
-/
namespace Sys2Proof.Machine

/-- What an instruction or an event does to the machine. -/
def exec (i : Instr) (s : State) : Host.Outcome State Fault Refusal :=
  match i with
  | .nop => Sys2Proof.Machine.execNop s
  | .stall n => Sys2Proof.Machine.execStall n s
  | .rnd r => Sys2Proof.Machine.execRnd r s
  | .ximm e => Sys2Proof.Machine.execXimm e s
  | .guard p => Sys2Proof.Machine.execGuard p s
  | .scope k o => Sys2Proof.Machine.execScope k o s
  | .iadd g d a b w => Sys2Proof.Machine.execIadd g d a b w s
  | .isub g d a b w => Sys2Proof.Machine.execIsub g d a b w s
  | .imin g d a b w => Sys2Proof.Machine.execImin g d a b w s
  | .imax g d a b w => Sys2Proof.Machine.execImax g d a b w s
  | .nmin g d a b w => Sys2Proof.Machine.execNmin g d a b w s
  | .nmax g d a b w => Sys2Proof.Machine.execNmax g d a b w s
  | .sadd g d a b w => Sys2Proof.Machine.execSadd g d a b w s
  | .ssub g d a b w => Sys2Proof.Machine.execSsub g d a b w s
  | .imulX g d a b => Sys2Proof.Machine.execImulX g d a b s
  | .imulW g d a b => Sys2Proof.Machine.execImulW g d a b s
  | .imulhX g d a b => Sys2Proof.Machine.execImulhX g d a b s
  | .imulhW g d a b => Sys2Proof.Machine.execImulhW g d a b s
  | .nmulhX g d a b => Sys2Proof.Machine.execNmulhX g d a b s
  | .nmulhW g d a b => Sys2Proof.Machine.execNmulhW g d a b s
  | .imulw g d a b => Sys2Proof.Machine.execImulw g d a b s
  | .nmulw g d a b => Sys2Proof.Machine.execNmulw g d a b s
  | .and g d a b => Sys2Proof.Machine.execAnd g d a b s
  | .or g d a b => Sys2Proof.Machine.execOr g d a b s
  | .xor g d a b => Sys2Proof.Machine.execXor g d a b s
  | .andn g d a b => Sys2Proof.Machine.execAndn g d a b s
  | .orn g d a b => Sys2Proof.Machine.execOrn g d a b s
  | .shlX g d a b => Sys2Proof.Machine.execShlX g d a b s
  | .shlW g d a b => Sys2Proof.Machine.execShlW g d a b s
  | .shrX g d a b => Sys2Proof.Machine.execShrX g d a b s
  | .shrW g d a b => Sys2Proof.Machine.execShrW g d a b s
  | .sarX g d a b => Sys2Proof.Machine.execSarX g d a b s
  | .sarW g d a b => Sys2Proof.Machine.execSarW g d a b s
  | .rolX g d a b => Sys2Proof.Machine.execRolX g d a b s
  | .rolW g d a b => Sys2Proof.Machine.execRolW g d a b s
  | .popc g d a => Sys2Proof.Machine.execPopc g d a s
  | .clz g d a => Sys2Proof.Machine.execClz g d a s
  | .ctz g d a => Sys2Proof.Machine.execCtz g d a s
  | .brev g d a => Sys2Proof.Machine.execBrev g d a s
  | .sel g d a b => Sys2Proof.Machine.execSel g d a b s
  | .bfx g d a b => Sys2Proof.Machine.execBfx g d a b s
  | .bfxs g d a b => Sys2Proof.Machine.execBfxs g d a b s
  | .bfi g d a b => Sys2Proof.Machine.execBfi g d a b s
  | .seperm g d a b => Sys2Proof.Machine.execSeperm g d a b s
  | .iaddi g d a n => Sys2Proof.Machine.execIaddi g d a n s
  | .andi g d a n => Sys2Proof.Machine.execAndi g d a n s
  | .ori g d a n => Sys2Proof.Machine.execOri g d a n s
  | .xori g d a n => Sys2Proof.Machine.execXori g d a n s
  | .shli g d a w n => Sys2Proof.Machine.execShli g d a w n s
  | .shri g d a w n => Sys2Proof.Machine.execShri g d a w n s
  | .sari g d a w n => Sys2Proof.Machine.execSari g d a w n s
  | .roli g d a w n => Sys2Proof.Machine.execRoli g d a w n s
  | .limm g d n => Sys2Proof.Machine.execLimm g d n s
  | .icmp g p q a b k w => Sys2Proof.Machine.execIcmp g p q a b k w s
  | .icmpi g p q a n k w => Sys2Proof.Machine.execIcmpi g p q a n k w s
  | .pand g p q x y => Sys2Proof.Machine.execPand g p q x y s
  | .por g p q x y => Sys2Proof.Machine.execPor g p q x y s
  | .pxor g p q x y => Sys2Proof.Machine.execPxor g p q x y s
  | .pandn g p q x y => Sys2Proof.Machine.execPandn g p q x y s
  | .pnot g p q x => Sys2Proof.Machine.execPnot g p q x s
  | .mskr g d a => Sys2Proof.Machine.execMskr g d a s
  | .mskw g p q a => Sys2Proof.Machine.execMskw g p q a s
  | .mov g d a => Sys2Proof.Machine.execMov g d a s
  | .movs g d b => Sys2Proof.Machine.execMovs g d b s
  | .wrs g a b => Sys2Proof.Machine.execWrs g a b s
  | .wrsFstat g a => Sys2Proof.Machine.execWrsFstat g a s
  | .lperm g d a b => Sys2Proof.Machine.execLperm g d a b s
  | .lxor g d a b => Sys2Proof.Machine.execLxor g d a b s
  | .lup g d a b => Sys2Proof.Machine.execLup g d a b s
  | .ldown g d a b => Sys2Proof.Machine.execLdown g d a b s
  | .lbc g d a b => Sys2Proof.Machine.execLbc g d a b s
  | .ballot g d a => Sys2Proof.Machine.execBallot g d a s
  | .vany g d a => Sys2Proof.Machine.execVany g d a s
  | .vall g d a => Sys2Proof.Machine.execVall g d a s
  | .elect g d => Sys2Proof.Machine.execElect g d s
  | .lpfx g d a => Sys2Proof.Machine.execLpfx g d a s
  | .imadX d a b c => Sys2Proof.Machine.execImadX d a b c s
  | .imadW d a b c => Sys2Proof.Machine.execImadW d a b c s
  | .imadw d a b c => Sys2Proof.Machine.execImadw d a b c s
  | .nmadw d a b c => Sys2Proof.Machine.execNmadw d a b c s
  | .bra g o => Sys2Proof.Machine.execBra g o s
  | .call g o => Sys2Proof.Machine.execCall g o s
  | .brx g a => Sys2Proof.Machine.execBrx g a s
  | .callx g a => Sys2Proof.Machine.execCallx g a s
  | .ret g => Sys2Proof.Machine.execRet g s
  | .conv g a => Sys2Proof.Machine.execConv g a s
  | .exit g => Sys2Proof.Machine.execExit g s
  | .fadd g d a b r t => Sys2Proof.Machine.execFadd g d a b r t s
  | .fsub g d a b r t => Sys2Proof.Machine.execFsub g d a b r t s
  | .fmul g d a b r t => Sys2Proof.Machine.execFmul g d a b r t s
  | .fdiv g d a b r t => Sys2Proof.Machine.execFdiv g d a b r t s
  | .fma d a b c t => Sys2Proof.Machine.execFma d a b c t s
  | .fms d a b c t => Sys2Proof.Machine.execFms d a b c t s
  | .fnma d a b c t => Sys2Proof.Machine.execFnma d a b c t s
  | .fnms d a b c t => Sys2Proof.Machine.execFnms d a b c t s
  | .fsqrt g d a r t => Sys2Proof.Machine.execFsqrt g d a r t s
  | .frsq g d a r t => Sys2Proof.Machine.execFrsq g d a r t s
  | .frcp g d a r t => Sys2Proof.Machine.execFrcp g d a r t s
  | .fexp g d a r t => Sys2Proof.Machine.execFexp g d a r t s
  | .fexp2 g d a r t => Sys2Proof.Machine.execFexp2 g d a r t s
  | .fexpm1 g d a r t => Sys2Proof.Machine.execFexpm1 g d a r t s
  | .flog g d a r t => Sys2Proof.Machine.execFlog g d a r t s
  | .flog2 g d a r t => Sys2Proof.Machine.execFlog2 g d a r t s
  | .flog1p g d a r t => Sys2Proof.Machine.execFlog1p g d a r t s
  | .ferf g d a r t => Sys2Proof.Machine.execFerf g d a r t s
  | .ferfc g d a r t => Sys2Proof.Machine.execFerfc g d a r t s
  | .fsin g d a r t => Sys2Proof.Machine.execFsin g d a r t s
  | .fcos g d a r t => Sys2Proof.Machine.execFcos g d a r t s
  | .ftanh g d a r t => Sys2Proof.Machine.execFtanh g d a r t s
  | .frint g d a r t => Sys2Proof.Machine.execFrint g d a r t s
  | .fmin g d a b t => Sys2Proof.Machine.execFmin g d a b t s
  | .fmax g d a b t => Sys2Proof.Machine.execFmax g d a b t s
  | .fminn g d a b t => Sys2Proof.Machine.execFminn g d a b t s
  | .fmaxn g d a b t => Sys2Proof.Machine.execFmaxn g d a b t s
  | .fabs g d a t => Sys2Proof.Machine.execFabs g d a t s
  | .fneg g d a t => Sys2Proof.Machine.execFneg g d a t s
  | .fcps g d a b t => Sys2Proof.Machine.execFcps g d a b t s
  | .fclass g d a t => Sys2Proof.Machine.execFclass g d a t s
  | .fcmp g p q a b k t => Sys2Proof.Machine.execFcmp g p q a b k t s
  | .fcvt g d a x z r => Sys2Proof.Machine.execFcvt g d a x z r s
  | .fkey g d a z => Sys2Proof.Machine.execFkey g d a z s
  | .rng g d a b => Sys2Proof.Machine.execRng g d a b s
  | .ld g d a o z => Sys2Proof.Machine.execLd g d a o z s
  | .st g d a o z => Sys2Proof.Machine.execSt g d a o z s
  | .ldp g d a o z => Sys2Proof.Machine.execLdp g d a o z s
  | .stp g d a o z => Sys2Proof.Machine.execStp g d a o z s
  | .ldacq g d a k z => Sys2Proof.Machine.execLdacq g d a k z s
  | .strel g d a k z => Sys2Proof.Machine.execStrel g d a k z s
  | .atom g d a b p z => Sys2Proof.Machine.execAtom g d a b p z s
  | .red g k o a b p z => Sys2Proof.Machine.execRed g k o a b p z s
  | .cas d a b c t => Sys2Proof.Machine.execCas d a b c t s
  | .fence g k o => Sys2Proof.Machine.execFence g k o s
  | .aflush g => Sys2Proof.Machine.execAflush g s
  | .clean g a l => Sys2Proof.Machine.execClean g a l s
  | .inval g a l => Sys2Proof.Machine.execInval g a l s
  | .pscrub g a => Sys2Proof.Machine.execPscrub g a s
  | .bar g b => Sys2Proof.Machine.execBar g b s
  | .arrive g d b => Sys2Proof.Machine.execArrive g d b s
  | .waitb g a b => Sys2Proof.Machine.execWaitb g a b s
  | .barc g => Sys2Proof.Machine.execBarc g s
  | .fifow g d a b => Sys2Proof.Machine.execFifow g d a b s
  | .fifor g d b => Sys2Proof.Machine.execFifor g d b s
  | .bankcfg g d a => Sys2Proof.Machine.execBankcfg g d a s
  | .presq g d a => Sys2Proof.Machine.execPresq g d a s
  | .pub g d a => Sys2Proof.Machine.execPub g d a s
  | .pubwait g d a => Sys2Proof.Machine.execPubwait g d a s
  | .mma g d a => Sys2Proof.Machine.execMma g d a s
  | .mepi g d a b => Sys2Proof.Machine.execMepi g d a b s
  | .mwait g d a => Sys2Proof.Machine.execMwait g d a s
  | .mqry g d a => Sys2Proof.Machine.execMqry g d a s
  | .mcan g d a => Sys2Proof.Machine.execMcan g d a s
  | .accz g a b => Sys2Proof.Machine.execAccz g a b s
  | .accrd g d a => Sys2Proof.Machine.execAccrd g d a s
  | .accwr g a b => Sys2Proof.Machine.execAccwr g a b s
  | .cbld g a => Sys2Proof.Machine.execCbld g a s
  | .ftab g d a b => Sys2Proof.Machine.execFtab g d a b s
  | .fcall g d a b => Sys2Proof.Machine.execFcall g d a b s
  | .fprobe g d a b => Sys2Proof.Machine.execFprobe g d a b s
  | .fret g d a b => Sys2Proof.Machine.execFret g d a b s
  | .fins g d a b => Sys2Proof.Machine.execFins g d a b s
  | .fevict g d a b => Sys2Proof.Machine.execFevict g d a b s
  | .fclr g b => Sys2Proof.Machine.execFclr g b s
  | .fqry g d a b => Sys2Proof.Machine.execFqry g d a b s
  | .pbegin g => Sys2Proof.Machine.execPbegin g s
  | .accept g p y a b => Sys2Proof.Machine.execAccept g p y a b s
  | .pcommit g => Sys2Proof.Machine.execPcommit g s
  | .pdisc g => Sys2Proof.Machine.execPdisc g s
  | .prun g d a b => Sys2Proof.Machine.execPrun g d a b s
  | .semsig g a b => Sys2Proof.Machine.execSemsig g a b s
  | .semwait g a b => Sys2Proof.Machine.execSemwait g a b s
  | .semqry g d b => Sys2Proof.Machine.execSemqry g d b s
  | .ovld g d a => Sys2Proof.Machine.execOvld g d a s
  | .ovwait g d a => Sys2Proof.Machine.execOvwait g d a s
  | .ovcall g a => Sys2Proof.Machine.execOvcall g a s
  | .ovevict g d a => Sys2Proof.Machine.execOvevict g d a s
  | .ovqry g d a => Sys2Proof.Machine.execOvqry g d a s
  | .trap g b => Sys2Proof.Machine.execTrap g b s
  | .tret => Sys2Proof.Machine.execTret s
  | .yield g => Sys2Proof.Machine.execYield g s
  | .sleep g a => Sys2Proof.Machine.execSleep g a s
  | .launch g d a b => Sys2Proof.Machine.execLaunch g d a b s
  | .evsig g a b => Sys2Proof.Machine.execEvsig g a b s
  | .evwait g a b => Sys2Proof.Machine.execEvwait g a b s
  | .cvpub g d a => Sys2Proof.Machine.execCvpub g d a s
  | .cvswitch g d => Sys2Proof.Machine.execCvswitch g d s
  | .rdsys g d b => Sys2Proof.Machine.execRdsys g d b s
  | .wrsys g a b => Sys2Proof.Machine.execWrsys g a b s
  | .wrsysOvquota g a => Sys2Proof.Machine.execWrsysOvquota g a s
  | .cpy x y z h => Sys2Proof.Machine.execCpy x y z h s
  | .cpy2 x y z h => Sys2Proof.Machine.execCpy2 x y z h s
  | .cpyt x y z h => Sys2Proof.Machine.execCpyt x y z h s
  | .cfill x y z h => Sys2Proof.Machine.execCfill x y z h s
  | .cred x y z t o => Sys2Proof.Machine.execCred x y z t o s
  | .csig k z => Sys2Proof.Machine.execCsig k z s
  | .cwait k z => Sys2Proof.Machine.execCwait k z s
  | .cloop x n => Sys2Proof.Machine.execCloop x n s
  | .cend => Sys2Proof.Machine.execCend s
  | .cpub x => Sys2Proof.Machine.execCpub x s
  | .cqsetAddi x y n => Sys2Proof.Machine.execCqsetAddi x y n s
  | .cqsetAdd x y z => Sys2Proof.Machine.execCqsetAdd x y z s
  | .cqsetLd x y n => Sys2Proof.Machine.execCqsetLd x y n s
  | .stallExpiry crew => Sys2Proof.Machine.execStallExpiry crew s
  | .sleepExpiry crew => Sys2Proof.Machine.execSleepExpiry crew s
  | .fairnessSwitch crew => Sys2Proof.Machine.execFairnessSwitch crew s
  | .forcedExchange core => Sys2Proof.Machine.execForcedExchange core s
  | .clusterBarrierComplete grid cluster => Sys2Proof.Machine.execClusterBarrierComplete grid cluster s
  | .ldpPresenceWake crew => Sys2Proof.Machine.execLdpPresenceWake crew s
  | .porterCopyComplete core copy => Sys2Proof.Machine.execPorterCopyComplete core copy s
  | .porterResume core => Sys2Proof.Machine.execPorterResume core s
  | .matrixChunk core job => Sys2Proof.Machine.execMatrixChunk core job s
  | .jobEpilogue core job => Sys2Proof.Machine.execJobEpilogue core job s
  | .foremanRetryJob core job => Sys2Proof.Machine.execForemanRetryJob core job s
  | .foremanRepairOperand core job repaired => Sys2Proof.Machine.execForemanRepairOperand core job repaired s
  | .overlayLoadComplete core slot => Sys2Proof.Machine.execOverlayLoadComplete core slot s
  | .assayerUpdate die table => Sys2Proof.Machine.execAssayerUpdate die table s
  | .publicationSwap gang seq => Sys2Proof.Machine.execPublicationSwap gang seq s
  | .redDrainComplete gang => Sys2Proof.Machine.execRedDrainComplete gang s
  | .foremanExtendSpill asid entries endGrid => Sys2Proof.Machine.execForemanExtendSpill asid entries endGrid s
  | .foremanGrowCarveout die records endGrid => Sys2Proof.Machine.execForemanGrowCarveout die records endGrid s
  | .taggedRequest core seq => Sys2Proof.Machine.execTaggedRequest core seq s
  | .taggedAck core seq correctable => Sys2Proof.Machine.execTaggedAck core seq correctable s
  | .replayIntervalExpiry core seq => Sys2Proof.Machine.execReplayIntervalExpiry core seq s
  | .join line m => Sys2Proof.Machine.execJoin line m s
  | .upg line m => Sys2Proof.Machine.execUpg line m s
  | .purge line m => Sys2Proof.Machine.execPurge line m s
  | .purged line m => Sys2Proof.Machine.execPurged line m s
  | .leave line m => Sys2Proof.Machine.execLeave line m s
  | .setprev line m dest => Sys2Proof.Machine.execSetprev line m dest s
  | .setnext line m dest => Sys2Proof.Machine.execSetnext line m dest s
  | .fetch line m drop => Sys2Proof.Machine.execFetch line m drop s
  | .recall core rseq => Sys2Proof.Machine.execRecall core rseq s
  | .recallAck line core => Sys2Proof.Machine.execRecallAck line core s
  | .homeReleaseTransaction line core => Sys2Proof.Machine.execHomeReleaseTransaction line core s
  | .homeAcquireTransaction line core => Sys2Proof.Machine.execHomeAcquireTransaction line core s
  | .backInvalidateSnoop line => Sys2Proof.Machine.execBackInvalidateSnoop line s
  | .pageWalk core asid va => Sys2Proof.Machine.execPageWalk core asid va s
  | .tlbInvalidate asid first last => Sys2Proof.Machine.execTlbInvalidate asid first last s
  | .softError place correctable => Sys2Proof.Machine.execSoftError place correctable s
  | .backgroundScrub die => Sys2Proof.Machine.execBackgroundScrub die s
  | .agentDeclaredDead agent => Sys2Proof.Machine.execAgentDeclaredDead agent s
  | .dcdReleaseRequest asid first last => Sys2Proof.Machine.execDcdReleaseRequest asid first last s
  | .hostLaunchSubmit asid queue block => Sys2Proof.Machine.execHostLaunchSubmit asid queue block s
  | .queueBind queue asid => Sys2Proof.Machine.execQueueBind queue asid s
  | .gridEligible queue => Sys2Proof.Machine.execGridEligible queue s
  | .foremanRepairMapping queue repaired => Sys2Proof.Machine.execForemanRepairMapping queue repaired s
  | .clusterPlace => Sys2Proof.Machine.execClusterPlace s
  | .quantumSliceEnd grid => Sys2Proof.Machine.execQuantumSliceEnd grid s
  | .preemption gang => Sys2Proof.Machine.execPreemption gang s
  | .resumption gang core => Sys2Proof.Machine.execResumption gang core s
  | .gridCompletion grid => Sys2Proof.Machine.execGridCompletion grid s
  | .trapVector crew => Sys2Proof.Machine.execTrapVector crew s
  | .foremanResume crew slot => Sys2Proof.Machine.execForemanResume crew slot s
  | .foremanKillCrew crew => Sys2Proof.Machine.execForemanKillCrew crew s
  | .foremanEndGrid grid cause addr => Sys2Proof.Machine.execForemanEndGrid grid cause addr s
  | .foremanWithdrawLane crew lane pc => Sys2Proof.Machine.execForemanWithdrawLane crew lane pc s
  | .foremanCreateVersion crew slot version codeMap copy => Sys2Proof.Machine.execForemanCreateVersion crew slot version codeMap copy s
  | .fstsizeSet die records => Sys2Proof.Machine.execFstsizeSet die records s
  | .groupTableWrite group entry => Sys2Proof.Machine.execGroupTableWrite group entry s
  | .credContribution c => Sys2Proof.Machine.execCredContribution c s
  | .credResult core group tag data reply => Sys2Proof.Machine.execCredResult core group tag data reply s
  | .umnorDataFlit port flit => Sys2Proof.Machine.execUmnorDataFlit port flit s
  | .umnorIdleFlit port flit => Sys2Proof.Machine.execUmnorIdleFlit port flit s
  | .umnorNegFlit port flit => Sys2Proof.Machine.execUmnorNegFlit port flit s
  | .umnorReplayTimeout port => Sys2Proof.Machine.execUmnorReplayTimeout port s
  | .umnorRetrain port ok => Sys2Proof.Machine.execUmnorRetrain port ok s
  | .cxlPortTraining port partner => Sys2Proof.Machine.execCxlPortTraining port partner s
  | .powerGood => Sys2Proof.Machine.execPowerGood s
  | .bootImageCheck image => Sys2Proof.Machine.execBootImageCheck image s
  | .attestationRequest nonce => Sys2Proof.Machine.execAttestationRequest nonce s
  | .powerSample milliwatts => Sys2Proof.Machine.execPowerSample milliwatts s
  | .clockStep block down reason => Sys2Proof.Machine.execClockStep block down reason s
  | .thermalStop block => Sys2Proof.Machine.execThermalStop block s
  | .thermalResume block => Sys2Proof.Machine.execThermalResume block s
  | .errorCountLog die => Sys2Proof.Machine.execErrorCountLog die s
  | .eventLogRead host => Sys2Proof.Machine.execEventLogRead host s
  | .ethernetLinkDown port => Sys2Proof.Machine.execEthernetLinkDown port s
  | .unusedEncoding word => Sys2Proof.Machine.execUnusedEncoding word s
  | .unfinishedInstructionFinish crew entry => Sys2Proof.Machine.execUnfinishedInstructionFinish crew entry s
  | .ethernetLinkUp port => Sys2Proof.Machine.execEthernetLinkUp port s

end Sys2Proof.Machine
end

