-- ==== Sys2Proof/Machine/Sched.lean ====
section
/-!
DEFINITION. Who acts in a step: the device's own events that can make progress, the crews (R151, R320) and the Porters (R256); fetching
and issuing a word (R72, R154 to R156, R267); and what follows every step.
-/
namespace Sys2Proof.Machine

/-! ## Fetch and issue by a crew -/

/-- What a fragment meets at its address. -/
inductive Fetched where
  | word (w : Code)
  /-- Its overlay is not resident (R272). -/
  | absent (off slots : Nat)
  /-- No overlay holds it, or these lanes flowed into another one (R154, R156). -/
  | outside (failing : Mask)
deriving DecidableEq, Repr

/-- Fetch for a fragment of a crew (R72, R156). -/
def State.fetch (s : State) (key : Nat) (F : Mask) (pc : Pc) : Fetched :=
  let c := s.crew key
  let g := s.gang (gangOf key)
  match overlayAt (c.header g) pc.toNat with
  | none => .outside F
  | some (n, off, slots) =>
    let out := maskOf fun l => inMask F l && (c.seqOvl.at l).any fun m => m != n
    if out ≠ 0 then .outside out
    else match s.fetchWord c.core g.asid c.cver (c.header g) pc with
      | some w => .word w
      | none => .absent off slots

/-- The fragment raises OVLXFER at an address that its failing lanes may not reach (R156). -/
def State.trapOutside (s : State) (key : Nat) (F failing : Mask) (pc : Pc) : State :=
  s.raise key (TrapInfo.at_ cOvlxfer F failing (allLanes (pc.setWidth 64)) pc)

/-- The fragment parks until its overlay, which begins to load, is resident (R267, R272). -/
def State.awaitOverlay (s : State) (key : Nat) (F : Mask) (off slots : Nat) : State :=
  let c := s.crew key
  let s := s.ovlStart c.core (s.gang (gangOf key)).asid c.cver off slots
  s.modCrew key fun c => c.updThr F fun _ t => { t with st := .parked (.overlay off) }

/-- What a word means for the crew: an instruction, or the trap of a word that is none. -/
def wordInstr (w : Code) : Instr := match decodeWord w with
  | .ok i => i
  | .error _ => .unusedEncoding w

/-- After an issue the crew stands behind the crews that have been ready longer (R320); one that the issue has moved to the pending set has its
place there. -/
def issuedBy (o : Host.Outcome State Fault Refusal) (key : Nat) : Host.Outcome State Fault Refusal :=
  match o with
  | .next s => .next (match s.crew? key with
    | some c => if c.active then s.setCrew key { c with readySince := readyMark s.time } else s
    | none => s)
  | o => o

/-- Unfinished instructions that complete before the word issues: all that can, unless the machine leaves memory instructions unfinished
(R329, R331 step 5). -/
def State.interlocked (s : State) (key : Nat) (i : Instr) : Bool :=
  let c := s.crew key
  c.openEntry.isSome && (!s.memLate || c.mustFinish i)

/-- The lanes of a fragment whose request was lost with its home. -/
def Crew.lostIn (c : Crew) (F : Mask) : Mask := maskOf fun l => inMask F l && (c.th l).lost.isSome

/-- Lanes whose request was lost with its home raise POISON at its location (R305; log 101). -/
def State.raiseLost (s : State) (key : Nat) (F : Mask) : State :=
  let c := s.crew key
  let pc := ((c.run.filter fun r => r.lanes &&& F != 0).map fun r => r.start).getD (c.fragPc F)
  (s.setCrew key (c.updThr F fun _ t => { t with lost := none })).raise key
    (TrapInfo.at_ cPoison F (c.lostIn F) (lanes fun l => (c.th l).lost.getD 0) pc)

/-- One issue slot of a crew: its next fragment's word, or what keeps it from issuing. -/
def State.issueCrew (s : State) (key : Nat) (F : Mask) : Host.Outcome State Fault Refusal :=
  let pc := (s.crew key).fragPc F
  if (s.crew key).lostIn F ≠ 0 then .next (s.raiseLost key F)
  else match s.fetch key F pc with
  | .outside m => .next (s.trapOutside key F m pc)
  | .absent off slots => .next (s.awaitOverlay key F off slots)
  | .word w =>
    if s.interlocked key (wordInstr w) then .next (s.finishOpen 64 key)
    else issuedBy (exec (wordInstr w) { s with cur := .frag key F pc }) key

/-- The word that a crew issues next, when its fragment finds one at its address. -/
def State.nextWord (s : State) (key : Nat) (c : Crew) : Option Code :=
  c.nextFrag.bind fun F => match s.fetch key F (c.fragPc F) with
    | .word w => some w
    | _ => none

/-- A ninth instruction whose lanes complete separately waits in the active set until one of eight unfinished ones is finished (R329). -/
def State.ninthWaits (s : State) (key : Nat) (c : Crew) : Bool :=
  c.infl.length ≥ 8 && c.openEntry.isNone && (s.nextWord key c).any fun w => (completionOf (wordInstr w)).isSome

/-- Does an instruction read registers of other lanes (R150)? -/
def readsLanes : Instr → Bool
  | .lperm _ _ _ _ | .lxor _ _ _ _ | .lup _ _ _ _ | .ldown _ _ _ _ | .lbc _ _ _ _ => true
  | _ => false

/-- An instruction that has issued and is held with its parked fragment: some of its lanes are still to complete. An LDP that waits for its
lines issues again (R184). -/
def Crew.heldEntry (c : Crew) (e : Entry) : Bool :=
  e.pending c != 0 && e.frag &&& c.live == 0 && !laneList.any fun l => inMask e.frag l && (match (c.th l).st with
    | .parked (.presence _) => true
    | _ => false)

/-- A word that reads other lanes' registers waits until a held instruction has written them (R89, R150). -/
def State.sourceWaits (s : State) (key : Nat) (c : Crew) : Bool :=
  (c.infl.any c.heldEntry) && (s.nextWord key c).any fun w =>
    let i := wordInstr w
    readsLanes i && c.infl.any fun e => c.heldEntry e && e.writes.any fun n => i.srcs.any fun a => a.toNat = n

/-- May a crew use an issue slot: it is ready, not in a STALL, no ninth unfinished instruction is next, and no source of another lane is
unwritten (R89, R91, R319, R329)? -/
def State.canIssue (s : State) (key : Nat) (c : Crew) : Bool :=
  s.ready key c && c.stall = 0 && s.clocked c.core && !s.ninthWaits key c && !s.sourceWaits key c

/-- Does a word take the vector slot (R320)? -/
def vectorWord (w : Code) : Bool :=
  let m := (w.extractLsb' 26 6).toNat
  (0x01 ≤ m && m ≤ 0x10) || (0x14 ≤ m && m ≤ 0x20)

/-- A step of a crew. -/
def State.stepCrew (s : State) (key : Nat) : Host.Outcome State Fault Refusal :=
  match s.crew? key with
  | none => .next s
  | some c =>
    if !s.canIssue key c then .next s
    else match c.nextFrag with
      | none => .next s
      | some F => s.issueCrew key F

/-- The crew of a core that takes an issue slot: of the active ones that can issue and whose next word goes there, the one ready longest, then
the lower place (R320). -/
def State.slotCrew (s : State) (core : Nat) (vec : Bool) : Option Nat :=
  (leastBy readyBefore ((s.crewsOn core).filter fun p =>
    p.2.active && s.canIssue p.1 p.2 && (s.nextWord p.1 p.2).any vectorWord == vec)).map Prod.fst

/-- A cycle of a core's issue slots: a word of one crew in the vector slot and a word of another in the other slot (R320). -/
def State.stepCore (s : State) (core : Nat) : Host.Outcome State Fault Refusal :=
  match s.slotCrew core true, s.slotCrew core false with
  | some a, some b =>
    match s.stepCrew a with
    | .next s => s.stepCrew b
    | o => o
  | some a, none => s.stepCrew a
  | none, some b => s.stepCrew b
  | none, none => .next s

/-! ## A word of a Porter (R256, R258) -/

/-- May a Porter go on: it runs, is not stopped nor held by a pre-emption, and what it waits for has come (R335)? -/
def State.porterGoes (s : State) (core : Nat) : Bool :=
  let p := (s.core core).porter
  match p.gang with
  | none => false
  | some g =>
    p.stopped.isNone && s.clocked core && !(s.gang g).leaving && (match p.wait with
      | .none => true
      | .copies => p.copies.isEmpty
      | .semaphore => false
      | .publication n => !(s.gang g).pubs.any fun y => y.seq == n && y.st == .pending)

/-- The word at a Porter's PC, from its version's code space. -/
def State.porterFetch (s : State) (core : Nat) : Option Code :=
  let p := (s.core core).porter
  (s.codeRead (s.gang (p.gang.getD 0)).asid p.cver p.pc.toNat 4).map (BitVec.ofNat 32)

/-- A step of a Porter. A PC past the stream stops it, and nothing is fetched there (R258). -/
def State.stepPorter (s : State) (core : Nat) : Host.Outcome State Fault Refusal :=
  if !s.porterGoes core then .next s
  else
    let p := (s.core core).porter
    if p.pc.toNat < p.lo || p.hi ≤ p.pc.toNat then .next (s.porterStop core cEngfault 0)
    else match s.porterFetch core with
      | none => .next (s.porterStop core cEngfault 0)
      | some w => exec (wordInstr w) { s with cur := .porter core }

/-! ## The device's own events -/

/-- Events that stand for something of the world or of a unit; UNUSED_ENCODING stands for an issued word. -/
def Instr.happens (i : Instr) : Bool :=
  i.isEvent && (match i with
    | .unusedEncoding _ => false
    | _ => true)

/-- An event happens. -/
def State.happen (s : State) (i : Instr) : Host.Outcome State Fault Refusal := if Instr.happens i then exec i s else .next s

/-- The cores with their numbers, changed by an event? -/
def State.coreMoves (s : State) (core : Nat) (i : Instr) : Bool :=
  match exec i s with
  | .next t => t.core core != s.core core
  | _ => false

/-- The event of a core's engines that can make progress: an overlay's load, a copy, a job, an acknowledgement (R192, R214, R226, R259,
R267). -/
def State.coreEvent (s : State) (core : Nat) (c : Core) : Option Instr :=
  if !s.clocked core then none
  else
    ((c.ovls.findIdx? fun o => !o.resident && !o.wants).map (Instr.overlayLoadComplete core)).or <|
    (c.unacked.head?.map fun t => Instr.taggedAck core t.seq false).or <|
    (c.porter.copies.findSome? fun y =>
      let i : Instr := .porterCopyComplete core y.id
      if s.coreMoves core i then some i else none).or <|
    (List.range c.jobs.length).findSome? fun k =>
      match c.jobs[k]? with
      | none => none
      | some j =>
        let i : Instr := if j.st == .epilogue then .jobEpilogue core k else .matrixChunk core k
        if (j.waiting || j.st == .epilogue) && s.coreMoves core i then some i else none

/-- The event that a crew waits for, when it has come, on a core whose clock runs (R91, R184, R277, R324, R351). -/
def State.crewEvent (s : State) (key : Nat) (c : Crew) : Option Instr :=
  let any (p : Park → Bool) : Bool := laneList.any fun l => match (c.th l).st with
    | .parked w => p w
    | _ => false
  let slot : Park → Bool
    | .slotWait _ => true
    | _ => false
  if (s.gang (gangOf key)).core0.isNone || !s.clocked c.core then none
  else if c.stall ≠ 0 && c.stall ≤ s.time then some (.stallExpiry key)
  else if any (Park.sleepDone s.time) then some (.sleepExpiry key)
  else if any (s.presenceOver key) then some (.ldpPresenceWake key)
  else if c.freeSlot.isSome && any slot then some (.trapVector key)
  else none

/-- The event of a gang: a publication, a flush point, its cluster's barrier (R134, R201, R207). -/
def State.gangEvent (s : State) (key : Nat) (g : Gang) : Option Instr :=
  match g.pubs.find? fun p => p.st == .pending && s.pubReady p with
  | some p => some (.publicationSwap key p.seq.toNat)
  | none =>
    if !(s.batches key).isEmpty then some (.redDrainComplete key)
    else if ((s.crewsOf key).any fun p => p.2.barcm != 0) && s.clusterFull g.grid g.clus then some (.clusterBarrierComplete g.grid g.clus)
    else none

/-- A LIVE table with an update that has arrived (R249). -/
def State.assayerEvent (s : State) (die : Nat) (d : Die) : Option Instr :=
  (d.fst.find? fun f => match s.table? f.1 with
    | some t => !t.deferred && !f.2.queue.isEmpty
    | none => false).map fun f => Instr.assayerUpdate die f.1

/-- The dispatcher's next event; it works once a boot image has been accepted (R310, R311, R314, R316, R349). -/
def State.dispatchEvent (s : State) : Option Instr :=
  ((s.grids.find? fun g => s.gridOver g.1 g.2 || (match g.2.st with
    | .completing _ => !g.2.stuck
    | _ => false)).map fun g => Instr.gridCompletion g.1).or <|
  if !s.boot.accepted then none
  else
    ((s.grids.find? fun g => (s.sliceEnd g.1).isSome).map fun g => Instr.quantumSliceEnd g.1).or <|
    ((s.queues.find? fun q => (s.launchTest q.1).isSome).map fun q => Instr.gridEligible (BitVec.ofNat 6 q.1)).or <|
    if s.placeNext.isSome then some .clusterPlace else none

/-- A core whose clock runs and whose active set is full, and which a pending crew has waited long enough to join (R321). -/
def State.exchangeEvent (s : State) : Option Instr :=
  (s.busyCores.find? fun c => s.clocked c && (s.core c).lastJoin + 1024 ≤ s.time && (s.nextPending c).isSome &&
    (s.oldestActive c).all fun p => p.2.run.isNone).map Instr.forcedExchange

/-- The device's own event that happens next, when some event can make progress. -/
def State.ownEvent (s : State) : Option Instr :=
  (s.crews.findSome? fun p => s.crewEvent p.1 p.2).or <|
  (s.cores.findSome? fun c => s.coreEvent c.1 c.2).or <|
  (s.gangs.findSome? fun g => s.gangEvent g.1 g.2).or <|
  (s.dies.findSome? fun d => s.assayerEvent d.1 d.2).or <|
  s.exchangeEvent.or s.dispatchEvent

/-! ## Choosing who acts -/

/-- What can act on a core: its issue slots, and its Porter, as units 2 × core and 2 × core + 1. -/
def State.units (s : State) : List (Nat × Actor) :=
  (s.busyCores.foldl (fun l c => insertNat c l) (s.cores.map Prod.fst)).flatMap fun c =>
    (if (s.slotCrew c true).isSome || (s.slotCrew c false).isSome then [(2 * c, Actor.core c)] else []) ++
    (if s.porterGoes c then [(2 * c + 1, Actor.porter c)] else [])

/-- The unit that acts: the next one in turn. -/
def State.nextUnit (s : State) : Option (Nat × Actor) :=
  let us := s.units
  (us.find? fun u => s.rotor ≤ u.1).or us.head?

/-- Who acts when the agenda names nobody: a message of the list protocol that is not old (R305), an event of the device, a core's issue slots or a Porter in turn, or
nobody. -/
def State.chosen (s : State) : Actor × State :=
  match s.fabric with
  | m :: rest =>
    let s := { s with fabric := rest }
    if s.older m.sender m.inc then (.idle, s.dropOld) else (.event m.kind, s)
  | [] =>
    match s.ownEvent with
    | some i => (.event i, s)
    | none =>
      match s.nextUnit with
      | some (n, a) => (a, { s with rotor := n + 1 })
      | none => (.idle, s)

/-- The actor of the step, and the state without it in the agenda. -/
def State.turn (s : State) : Actor × State :=
  match s.agenda with
  | a :: rest => (a, { s with agenda := rest })
  | [] => s.chosen

/-- The act of an actor. -/
def State.act (s : State) : Actor → Host.Outcome State Fault Refusal
  | .crew key => s.stepCrew key
  | .core n => s.stepCore n
  | .porter core => s.stepPorter core
  | .event i => s.happen i
  | .idle => .next s

/-! ## After every step -/

/-- The overlays that resumed gangs still wait for (R340). -/
def State.settleNeeds (s : State) : State :=
  { s with gangs := s.gangs.mapAll fun _ g =>
    if g.needs.isEmpty then g else { g with needs := g.needs.filter fun n => !s.ovlResident n.1 g.asid n.2.1 n.2.2 } }

/-- Foreman logs the error counts of every die each 2^30 cycles (R352). -/
def State.logCounts (s : State) : State :=
  if s.time % 2 ^ 30 ≠ 0 then s else (List.range 8).foldl (fun s d => s.logEvent 1 (256 + d) 0 (s.die d).errorCounts) s

/-- Evictions and loads that a change of pins lets go on (R269, R273). -/
def State.settleStores (s : State) : State :=
  s.cores.foldl (fun s c => if c.2.ovls.any fun o => o.evict || o.wants then s.settleOvls c.1 else s) s

/-- Streams that can never be released end (R266). -/
def State.settleStreams (s : State) : State :=
  s.cores.foldl (fun s c => if c.2.porter.gang.isSome then s.orphanTest c.1 else s) s

/-- What follows every act: a cycle passes, waits that are over end, gangs that are over are freed and gangs that are to leave are saved, the
L2s keep to their ways, and the sets of crews are brought up to date. -/
def State.settled (s : State) : State :=
  let s := { s with time := s.time + 1, cur := .nobody }
  s.logCounts.rouse.settleStreams.freeGangs.preemptions.settleStores.settleNeeds.trimL2.seat

/-- The outcome of an act, settled. -/
def settleOutcome : Host.Outcome State Fault Refusal → Host.Outcome State Fault Refusal
  | .next s => .next s.settled
  | .fault f => .fault f
  | .refused r => .refused r

/-! ## Placing a word where the next step fetches -/

/-- The gang that stands for a loaded kernel: one crew on core 0, with one overlay at 0x1000 and a Porter's stream at 0x2000. -/
def loadedGang : Gang :=
  { Gang.reset with
    ncrew := 1
    core0 := some 0
    hdr := { Header.reset with prop := true, regs := 48, ovls := 1, bars := 16, entry := 0x1000, porterLen := 4, porter := 0x2000,
                               dir := [(0x1000, 1)] }
    ctxVa := 0x0008000000000000
    ctxPa := 0x0008000000000000 }

/-- Its crew, at allocation. -/
def loadedCrew : Crew :=
  { Crew.reset with
    thr := allLanes { Thread.reset with pc := 0x1000 }
    active := true
    readySince := 1 }

/-- The gang and its crew, with the word as the only nonzero one of its overlay, resident on core 0. -/
def State.loadCrew (s : State) (w : Code) : State :=
  let o : Overlay := ⟨0, 0, 0x1000, 1, if w = 0 then [] else [(0x1000, w)], true, false, false, 0, false⟩
  { s with
    gangs := s.gangs.set 0 loadedGang
    crews := s.crews.set 0 loadedCrew
    ctxMaps := [{ asid := 0, va := 0x0008000000000000, pa := 0x0008000000000000, len := 2 ^ 31 }]
    cores := s.cores.set 0 { s.core 0 with ovls := [o] }
    agenda := [.crew 0] }

/-- The memory of a Porter's word: page tables that map the page at 0x4000 (R288, R289), the version table there with one version of
one page (R274), and the word at offset 0x2000 of that version. -/
def porterCells (w : Code) : List (Nat × Nat) :=
  [(0x10000, 0x14001), (0x14000, 0x18001), (0x18000, 0x1C001), (0x1C008, 0x20063), (0x20010, 0x24001), (0x20018, 1), (0x24000, 0x28000),
   (0x2A000, w.toNat)]

/-- The same with core 0's Porter at the word. -/
def State.loadPorter (s : State) (w : Code) : State :=
  let s := s.loadCrew 0
  { s with
    mem := (porterCells w).foldl (fun m c => writeNat m c.1 8 c.2) s.mem
    windows := s.windows.set 0 { valid := true, type := 0, gran := 0, ways := 0, ports := 1, base := 0, size := 0x100000, tagbase := 0, devaddr := 0 }
    cxl := s.cxl.set 0 { CxlPort.reset with trained := true }
    asids := s.asids.set 0 { AsidEntry.reset with valid := true, root := 4, cvtab := 0x4000 }
    cores := s.cores.set 0 { s.core 0 with porter := { Porter.reset with gang := some 0, lo := 0x2000, hi := 0x2004, pc := 0x2000 } }
    agenda := [.porter 0] }

end Sys2Proof.Machine
end

