-- ==== Sys2Proof/Machine/Step.lean ====
section
/-!
DEFINITION. One step of the machine: the actor whose turn it is acts, and the machine settles. What acts is data of the state: the head of
the agenda, or the scheduler's choice.
-/
namespace Sys2Proof.Machine

/-- One step. -/
def step (s : State) : Host.Outcome State Fault Refusal :=
  let r := s.turn
  settleOutcome (r.2.act r.1)

/-- `s` with a word where the next step fetches: at the PC of a crew on core 0 whose turn it is, or, for a word of a Porter's stream, at
the PC of core 0's Porter. It stands for the load of a program: a launch placed by the dispatcher, or a PRUN. -/
def State.withFetchWord (s : State) (nbits w : Nat) : State :=
  let c : Code := BitVec.ofNat 32 (w % 2 ^ nbits)
  match decodeTableWord nbits w with
  | some i => if i.isPorter then s.loadPorter c else s.loadCrew c
  | none => s.loadCrew c

end Sys2Proof.Machine
end

