-- ==== Sys2Proof/WellFormed.lean ====
section
/-!
DEFINITION. Well-formed instructions: the words that pass the ILLEGAL and RESBITS checks of R87, each written as the one row
of the opcode table that its word decodes to; and events whose arguments name units that the module has (R1, R3).
-/
namespace Sys2Proof

/-- The row is the one its own word decodes to: WRS of FSTAT, WRSYS of OVQUOTA and FKEY are rows of their own. -/
def Instr.canonical : Instr → Bool
  | .wrs _ _ b => b != 11
  | .wrsys _ _ b => b != 4
  | .fcvt _ _ _ x _ _ => x != 15
  | _ => true

/-- A sharer-list member that the module has: 256 cores, 8 dies (R1). -/
def Member.ok : Member → Bool
  | .core n => n < 256
  | .die n => n < 8

/-- The units named by an event exist: 8 dies, 256 cores, 12 Umnor ports, 16 CXL ports, 2 Ethernet ports (R1, R3). -/
def Instr.unitsExist : Instr → Bool
  | .forcedExchange c | .porterCopyComplete c _ | .porterResume c | .matrixChunk c _ | .jobEpilogue c _
  | .foremanRetryJob c _ | .foremanRepairOperand c _ _ | .taggedRequest c _ | .taggedAck c _ _
  | .replayIntervalExpiry c _ | .recall c _ | .recallAck _ c | .homeReleaseTransaction _ c
  | .homeAcquireTransaction _ c | .pageWalk c _ _ | .resumption _ c | .credResult c _ _ _ _ => c < 256
  | .overlayLoadComplete c k => c < 256 && k < 48
  | .assayerUpdate d t => d < 8 && t < 32 * 4096
  | .foremanGrowCarveout d _ _ | .backgroundScrub d | .errorCountLog d => d < 8
  | .fstsizeSet d r => d < 8 && r ≤ 131072 && r % 2048 == 0
  | .join _ m | .upg _ m | .purge _ m | .purged _ m | .leave _ m | .setprev _ m _ | .setnext _ m _ | .fetch _ m _ => m.ok
  | .umnorDataFlit p f | .umnorIdleFlit p f | .umnorNegFlit p f => p < 12 && f.length == 256
  | .umnorReplayTimeout p | .umnorRetrain p _ => p < 12
  | .cxlPortTraining p _ => p < 16
  | .ethernetLinkDown p | .ethernetLinkUp p => p < 2
  | .clockStep b _ _ | .thermalStop b | .thermalResume b => b < 322
  | _ => true

/-- A well-formed instruction: no ILLEGAL code field, no destination code of 49 to 63, the row its word decodes to, and the
units of an event existing. -/
def Instr.wellFormed (i : Instr) : Bool := !i.illegal && !i.badDst && i.canonical && i.unitsExist

end Sys2Proof
end

