-- ==== Sys2Proof/Safety.lean ====
section
/-!
DEFINITION. The terms that statements use: what a safe run is; when a fragment issues an instruction that passes the decode checks of R87;
and what stands still while an instruction has its effect.
-/
namespace Sys2Proof

/-- The outcome is a next state: no fault and no refusal of the model. -/
def goesOn (o : Host.Outcome Machine.State Machine.Fault Machine.Refusal) : Prop := ∃ t, o = .next t

/-- The machine takes `n` steps from `s` without a fault or a refusal. -/
def SafeRun (n : Nat) (s : Machine.State) : Prop := goesOn (Host.Core.run core n s)

/-- The exchange triggers that R25 lists. -/
def Instr.leavesSet : Instr → Prop
  | .ld _ _ _ _ _ | .ldp _ _ _ _ _ | .ldacq _ _ _ _ _ | .atom _ _ _ _ _ _ | .cas _ _ _ _ _ | .fifor _ _ _ | .bar _ _ | .waitb _ _ _
  | .barc _ | .conv _ _ | .semwait _ _ _ | .evwait _ _ _ | .mwait _ _ _ | .ovwait _ _ _ | .pubwait _ _ _ | .yield _ | .sleep _ _ => True
  | _ => False

/-- The branches, calls and returns that R25 lists, but FCALL, whose lanes may all hit. -/
def Instr.jumps : Instr → Prop
  | .bra _ _ | .brx _ _ | .call _ _ | .callx _ _ | .ovcall _ _ | .ret _ => True
  | _ => False

namespace Machine

/-! ## Issuing -/

/-- Fragment `F` of crew `key` issues `i`, whose word is at `pc`, and `i` passes every check of R87: no reserved code (ILLEGAL,
RESBITS), register numbers below REGS (REGLIMIT), SUPER for a privileged form (SUPERONLY), and no source that names an invalid latch
(LATCH: an issue from another fragment than the one before finds every latch invalid, R25, R26). -/
structure Issues (i : Instr) (s : State) (key : Nat) (F : Mask) (pc : Pc) : Prop where
  cur : s.cur = .frag key F pc
  resident : (s.crew? key).isSome = true
  lanes : F ≠ 0
  legal : i.illegal = false
  compute : i.isPorter = false
  dest : i.badDst = false
  hints : runMisuse i (s.crew key).run = false
  bank : propMissing i (s.hdrOf key) = false
  regs : ∀ n ∈ i.regNumbers, n < (s.hdrOf key).regs
  mode : i.superOnly = true → ∀ l, inMask F l = true → ((s.crew key).th l).sup = true
  latches : ∀ a ∈ i.srcs, 48 ≤ a → a < 52 →
    (s.crew key).latches[(a - 48).toNat % 4].valid = true ∧ (s.crew key).differs F = false

/-- The taking lanes of an instruction: those of F whose guard reads 1 (R22, R84). -/
def taking (i : Instr) (s : State) (key : Nat) (F : Mask) : Mask := F &&& (s.crew key).pred (guardOf i (s.crew key).run)

/-- The instruction completes: whenever it issues and `pre` holds of the state, execution answers a next state, and `post` relates it to
the state before. -/
def Completes (i : Instr) (pre : State → Nat → Mask → Prop) (post : State → Nat → Mask → Pc → State → Prop) : Prop :=
  ∀ s key F pc, Issues i s key F pc → pre s key F → ∃ t, exec i s = .next t ∧ post s key F pc t

/-- No condition. -/
def always (_ : State) (_ : Nat) (_ : Mask) : Prop := True

/-! ## What stands still -/

/-- The machine is unchanged but for the record of one crew, which still exists: memory, poison, the other crews, gangs, cores, caches,
tables, grids, queues and every special register outside the crew. -/
structure OnlyCrew (s t : State) (key : Nat) : Prop where
  rest : { t with crews := s.crews } = s
  others : ∀ k, k ≠ key → t.crew? k = s.crew? k
  here : (t.crew? key).isSome = true

/-- A crew without its general registers, bank, predicates, threads and latches, and without what every issue counts and consumes: the
hint run, the fragment of R25's test, the fairness counts, and the overlay of R156. -/
def Crew.rest (c : Crew) : Crew :=
  { c with
    thr := Crew.reset.thr, regs := Crew.reset.regs, tags := Crew.reset.tags, shadow := Crew.reset.shadow, stags := Crew.reset.stags
    preds := Crew.reset.preds, latches := Crew.reset.latches, run := none, last := none, restored := none, same := 0, sameSet := 0
    issues := 0, found := Crew.reset.found, seen := Crew.reset.seen, ages := Crew.reset.ages, force := none, seqOvl := Crew.reset.seqOvl }

/-- An instruction of fragment F at `pc` goes on at the next word and touches nothing but the crew: outside the crew nothing changes, in
the crew nothing but registers, predicates, latches and the lanes' addresses; threads outside F stand still, and those of F keep their
privilege, state, return stack, FSTAT, PACC, PTOT, PMODE, TLSB and frame. -/
structure Advances (s t : State) (key : Nat) (F : Mask) (pc : Pc) : Prop where
  only : OnlyCrew s t key
  rest : (t.crew key).rest = (s.crew key).rest
  next : ∀ l, inMask F l = true → ((t.crew key).th l).pc = pc + 4
  threads : ∀ l, inMask F l = true →
    { (t.crew key).th l with pc := ((s.crew key).th l).pc, wm := ((s.crew key).th l).wm } = (s.crew key).th l
  away : ∀ l, inMask F l = false → (t.crew key).th l = (s.crew key).th l

/-- The predicates stand still. -/
def PredsKept (s t : State) (key : Nat) : Prop := (t.crew key).preds = (s.crew key).preds

/-- The general registers, their tags and the proposal bank stand still. -/
def RegsKept (s t : State) (key : Nat) : Prop :=
  (t.crew key).regs = (s.crew key).regs ∧ (t.crew key).tags = (s.crew key).tags ∧ (t.crew key).shadow = (s.crew key).shadow ∧
  (t.crew key).stags = (s.crew key).stags ∧ ∀ l, ((t.crew key).th l).wm = ((s.crew key).th l).wm

/-- The instruction writes destination code `d` in the lanes `m` and nothing else: V(d) reads `v` there, every other register of every
lane reads as before, and code 48 writes nothing (R18, R27, R75). -/
structure WritesReg (s t : State) (key : Nat) (F : Mask) (pc : Pc) (d : BitVec 6) (m : Mask) (v : Lane → Word) : Prop where
  moves : Advances s t key F pc
  preds : PredsKept s t key
  value : d < 48 → ∀ l, inMask m l = true → (t.crew key).reg d.toNat l = v l
  other : ∀ n l, n < 48 → (n ≠ d.toNat ∨ inMask m l = false) → (t.crew key).reg n l = (s.crew key).reg n l
  none : d = 48 → RegsKept s t key

/-! ## Results -/

/-- The instruction always completes: it writes its destination in its taking lanes and nothing else, and `val` holds of every value
written. -/
def Yields (i : Instr) (d : BitVec 6) (val : State → Nat → Mask → Lane → Word → Prop) : Prop :=
  Completes i always fun s key F pc t => ∃ v : Lane → Word,
    WritesReg s t key F pc d (taking i s key F) v ∧ ∀ l, inMask (taking i s key F) l = true → val s key F l (v l)

/-- The value of source `a` of a crew's lane, a constant in the view of integers of `w` bits (R74, R77). -/
def srcInt (s : State) (key w : Nat) (a : BitVec 6) (l : Lane) : Word := (s.crew key).src (.int w) a l

/-- The instruction acts on each sub-element of `w` bits of two sources (R16). -/
def SubWise (i : Instr) (w : Nat) (d a b : BitVec 6) (f : Nat → Nat → Nat) : Prop :=
  Yields i d fun s key _ l r => ∀ j, j < 64 / w →
    subEl w r j = f (subEl w (srcInt s key w a l) j) (subEl w (srcInt s key w b l) j)

/-- The instruction acts on each sub-element of `w` bits of one source. -/
def SubWise1 (i : Instr) (w : Nat) (d a : BitVec 6) (f : Nat → Nat) : Prop :=
  Yields i d fun s key _ l r => ∀ j, j < 64 / w → subEl w r j = f (subEl w (srcInt s key w a l) j)

/-- The instruction computes each taking lane's result from the 64-bit values of two sources in that lane. -/
def LaneWise (i : Instr) (d a b : BitVec 6) (f : Word → Word → Word → Prop) : Prop :=
  Yields i d fun s key _ l r => f (srcInt s key 64 a l) (srcInt s key 64 b l) r

/-- The same from one source. -/
def LaneWise1 (i : Instr) (d a : BitVec 6) (f : Word → Word → Prop) : Prop := Yields i d fun s key _ l r => f (srcInt s key 64 a l) r

/-- The immediate of an instruction under the XIMM words of its hint run: their concatenation, the first one highest, and the field,
sign-extended to 64 bits; bits above bit 63 are dropped (R82). -/
def immediate (xs : List (BitVec 22)) (field : BitVec n) : Option Word :=
  match xs with
  | [] => some (field.signExtend 64)
  | [e] => some ((e ++ field).signExtend 64)
  | [e, e'] => some ((e ++ e' ++ field).signExtend 64)
  | [e, e', e''] => some ((e ++ e' ++ e'' ++ field).signExtend 64)
  | _ => none

/-- The XIMM words of a crew's pending run. -/
def ximms (s : State) (key : Nat) : List (BitVec 22) := ((s.crew key).run.map fun r => r.ximm).getD []

/-- The instruction computes each taking lane's result from a source and its immediate. -/
def WithImm (i : Instr) (d a : BitVec 6) (field : BitVec n) (f : Word → Word → Word) : Prop :=
  Completes i (fun s key _ => (immediate (ximms s key) field).isSome = true) fun s key F pc t =>
    ∀ imm, immediate (ximms s key) field = some imm →
      WritesReg s t key F pc d (taking i s key F) fun l => f (srcInt s key 64 a l) imm

/-! ## Predicates -/

/-- The instruction writes PD := c and PC := not c in the lanes `m`, and nothing else; a write to P0 is discarded (R21, R145). -/
structure WritesPred (s t : State) (key : Nat) (F : Mask) (pc : Pc) (p q : BitVec 3) (m : Mask) (c : Lane → Bool) : Prop where
  moves : Advances s t key F pc
  regs : RegsKept s t key
  value : ∀ n l, inMask ((t.crew key).pred n) l =
    if n ≠ 0 ∧ inMask m l = true then
      (if n = q then !c l else if n = p then c l else inMask ((s.crew key).pred n) l)
    else inMask ((s.crew key).pred n) l

/-- The instruction always completes, with a predicate result. -/
def Decides (i : Instr) (p q : BitVec 3) (c : State → Nat → Lane → Bool) : Prop :=
  Completes i always fun s key F pc t => WritesPred s t key F pc p q (taking i s key F) (c s key)


/-! ## Other endings -/

/-- The general registers, their tags, the proposal bank's values and the predicates stand still. -/
def FileKept (s t : State) (key : Nat) : Prop :=
  (t.crew key).regs = (s.crew key).regs ∧ (t.crew key).tags = (s.crew key).tags ∧ (t.crew key).shadow = (s.crew key).shadow ∧
  (t.crew key).stags = (s.crew key).stags ∧ (t.crew key).preds = (s.crew key).preds

/-- Only the crew changes: each thread of F becomes what `next` says, the crew's own record changes by `own`, threads outside F, registers,
tags, bank and predicates stand still. -/
structure Goes (s t : State) (key : Nat) (F : Mask) (own : Crew → Crew) (next : Lane → Thread → Thread) : Prop where
  only : OnlyCrew s t key
  rest : (t.crew key).rest = own (s.crew key).rest
  file : FileKept s t key
  threads : ∀ l, inMask F l = true → (t.crew key).th l = next l ((s.crew key).th l)
  away : ∀ l, inMask F l = false → (t.crew key).th l = (s.crew key).th l

/-- As `TrapsWith`, from a state `s₁` that the checks of `i` leave of `s`. -/
def TrapsFrom (i : Instr) (s s₁ : State) (key : Nat) (F : Mask) (pc : Pc) (cause : BitVec 8) (failing : Mask) (addr : Lane → Word) : Prop :=
  ∃ info u, exec i s = .next (u.takeTrap key info) ∧
    Goes s₁ u key F (fun c => { c with infl := (u.crew key).infl }) (fun _ t => t) ∧
    info.cause = cause ∧ info.swn = 0 ∧ info.frag = F ∧ info.failing = failing ∧
    (∀ l, inMask failing l = true → info.faddr.at l = addr l) ∧
    info.pc = ((s.crew key).run.map fun r => r.start).getD pc ∧ info.tent = none

/-- The fragment traps with `cause`, the failing lanes and their addresses, and the instruction has no effect: TAKING THE TRAP starts from a
state in which nothing but the crew's issue counts has changed, with the reported PC at the instruction or its hint run's first word
(R85, R88, R323). -/
def TrapsWith (i : Instr) (s : State) (key : Nat) (F : Mask) (pc : Pc) (cause : BitVec 8) (failing : Mask) (addr : Lane → Word) : Prop :=
  TrapsFrom i s s key F pc cause failing addr

/-! ## Memories -/

/-- Every byte memory of the machine is in its canonical form: physical memory, and each gang's scratchpad and accumulator space and each
core's codebook. -/
def Canonical (s : State) : Prop :=
  Memory.wf s.mem = true ∧ (∀ g ∈ s.gangs, Memory.wf g.2.scratch = true ∧ Memory.wf g.2.acc = true) ∧ ∀ c ∈ s.cores, Memory.wf c.2.codebook = true

/-! ## Shape tags -/

/-- A tag is true of 32 values: U of equal ones, A of values in arithmetic progression with a nonzero signed 32-bit stride (R17). -/
def tagFits (t : Tag) (v : Lanes Word) : Prop :=
  match t with
  | .u => ∀ l, v.at l = v.at 0
  | .a => ∃ st : Int, st ≠ 0 ∧ -(2 ^ 31) ≤ st ∧ st < 2 ^ 31 ∧ ∀ l : Lane, v.at l = v.at 0 + BitVec.ofInt 64 (st * l.val)
  | .g => True

/-- Every tag of a crew is true of the values it stands for: registers, the proposal bank, latches. -/
def Crew.TagsFit (c : Crew) : Prop :=
  (∀ n : Fin 48, tagFits c.tags[n.val] c.regs[n.val]) ∧ (∀ n : Fin 8, tagFits c.stags[n.val] c.shadow[n.val]) ∧
  ∀ n : Fin 4, tagFits c.latches[n.val].tag c.latches[n.val].val

/-! ## Waits -/

/-- No lane of the crew waits at a CONV or a TRET, and none of its frames has been acted on by Foreman while its lanes wait for room among
the crew's unfinished instructions (R329). -/
def NoWaits (s : State) (key : Nat) : Prop :=
  (∀ l, match ((s.crew key).th l).st with
    | .waiting _ | .returning _ => False
    | _ => True) ∧
  ∀ k u, (s.crew key).slots.getD k none = some u → u.resume = false

/-- The same, and no thread of its gang has arrived at a barrier. -/
def Quiet (s : State) (key : Nat) : Prop :=
  NoWaits s key ∧
  ∀ p ∈ s.crewsOf (gangOf key), ∀ id : Fin 16, p.2.barm[id.val] = 0

/-- The lanes of a crew that wait at the CONV at an address. -/
def Crew.Waits (c : Crew) (a : Pc) (l : Lane) : Prop :=
  (c.th l).pc = a ∧ match (c.th l).st with
    | .waiting _ => True
    | _ => False

/-- Nobody waits at a CONV for nobody: at every address where lanes wait, one of their masks names a lane that has not exited, does not
wait there, and was not taken from there by a handler (R159). -/
def Crew.ConvsTested (c : Crew) : Prop :=
  ∀ l, (c.Waits (c.th l).pc l) → ∃ l', c.Waits (c.th l).pc l' ∧
    match (c.th l').st with
    | .waiting m => ∃ k, inMask m k = true ∧ (c.th k).st ≠ .exited ∧ ¬c.Waits (c.th l).pc k ∧ (c.th l).pc ∉ (c.th k).left
    | _ => False

/-! ## Floating point (R161 to R163) -/

/-- The state in which the taking lanes have ORed what they signal into their sticky flags (R163). -/
def flagged (i : Instr) (s : State) (key : Nat) (F : Mask) (e : Lane → Exc) : State :=
  s.modCrew key fun c => c.updThr (taking i s key F) fun l t => { t with fstat := t.fstat ||| ((e l).setWidth 64 <<< 3) }

/-- The taking lanes with a signalled exception that their FSTAT enables. -/
def trapping (i : Instr) (s : State) (key : Nat) (F : Mask) (e : Lane → Exc) : Mask :=
  maskOf fun l => inMask (taking i s key F) l && e l &&& ((s.crew key).th l).fstat.extractLsb' 8 5 != 0

/-- No lane of the fragment enables an exception: FSTAT[12:8] is 0 in each (R40, R163). -/
def Untrapped (s : State) (key : Nat) (F : Mask) : Prop :=
  ∀ l, inMask F l = true → ((s.crew key).th l).fstat.extractLsb' 8 5 = 0

/-- R163: the taking lanes signal `e`. In a fragment that enables no exception the instruction completes, and `post` relates the state after
it to the state before with the flags set; the same wherever no enabled exception is signalled; with one, the fragment raises FPX for the
lanes that have one, with their flags set, every lane's exceptions reported and no other effect. -/
def Signals (i : Instr) (e : State → Nat → Lane → Exc) (post : State → Nat → Mask → Pc → State → State → Prop) : Prop :=
  (Completes i Untrapped fun s key F pc t => post s key F pc (flagged i s key F (e s key)) t) ∧
  ∀ s key F pc, Issues i s key F pc →
    let u := flagged i s key F (e s key)
    let bad := trapping i s key F (e s key)
    (bad = 0 → ∃ t, exec i s = .next t ∧ post s key F pc u t) ∧
    (bad ≠ 0 → ∃ info v, exec i s = .next (v.takeTrap key info) ∧
      Goes u v key F (fun c => { c with infl := (v.crew key).infl }) (fun _ t => t) ∧ info.cause = 0x0C ∧ info.frag = F ∧
      info.failing = bad ∧ info.pc = ((s.crew key).run.map fun r => r.start).getD pc ∧
      ∀ l, info.exc.at l = if inMask (taking i s key F) l then e s key l else 0)

/-- A floating-point instruction with a register result: each taking lane's word and what it signals. -/
def FpYields (i : Instr) (d : BitVec 6) (res : State → Nat → Lane → Word × Exc) : Prop :=
  Signals i (fun s key l => (res s key l).2) fun s key F pc u t =>
    WritesReg u t key F pc d (taking i s key F) fun l => (res s key l).1

/-- The rounding mode of a lane: code 7 reads FSTAT.RM (R162). -/
def laneRm (s : State) (key : Nat) (r : BitVec 3) (l : Lane) : BitVec 3 := if r = 7 then ((s.crew key).th l).fstat.extractLsb' 0 3 else r

/-- Sub-element `j` of a source of a floating-point type, a constant in its FP view (R16, R77, R78). -/
def fpEl (s : State) (key : Nat) (t : BitVec 2) (a : BitVec 6) (l : Lane) (j : Nat) : Nat :=
  subEl (fpTypeOf t).width ((s.crew key).src (.fp (fpTypeOf t)) a l) j

/-- The format of a T field (R78). -/
def fpFormat (t : BitVec 2) : Fmt := fmtOf (fpTypeOf t)

/-- An instruction on each sub-element of one source, under rounding field `r`. -/
def FpEach1 (i : Instr) (d a : BitVec 6) (r : BitVec 3) (t : BitVec 2) (f : Fmt → BitVec 3 → Nat → Nat × Exc) : Prop :=
  FpYields i d fun s key l => joinSubs (fpFormat t).width fun j => f (fpFormat t) (laneRm s key r l) (fpEl s key t a l j)

/-- An instruction on each sub-element of two sources. -/
def FpEach2 (i : Instr) (d a b : BitVec 6) (r : BitVec 3) (t : BitVec 2) (f : Fmt → BitVec 3 → Nat → Nat → Nat × Exc) : Prop :=
  FpYields i d fun s key l => joinSubs (fpFormat t).width fun j =>
    f (fpFormat t) (laneRm s key r l) (fpEl s key t a l j) (fpEl s key t b l j)

/-- An instruction on the bits of each sub-element of one source, which signals nothing and always completes. -/
def FpBits1 (i : Instr) (d a : BitVec 6) (t : BitVec 2) (f : Fmt → Nat → Nat) : Prop :=
  Completes i always fun s key F pc u => WritesReg s u key F pc d (taking i s key F) fun l =>
    (joinSubs (fpFormat t).width fun j => (f (fpFormat t) (fpEl s key t a l j), 0)).1

/-- The same of two sources. -/
def FpBits2 (i : Instr) (d a b : BitVec 6) (t : BitVec 2) (f : Fmt → Nat → Nat → Nat) : Prop :=
  Completes i always fun s key F pc u => WritesReg s u key F pc d (taking i s key F) fun l =>
    (joinSubs (fpFormat t).width fun j => (f (fpFormat t) (fpEl s key t a l j) (fpEl s key t b l j), 0)).1

/-! ### Exact values (R106, R109, R169, R171) -/

/-- The signed integer (−1)^neg × m × 2^e, in units of 2^e0 for e0 ≤ e. -/
def scaled (e0 : Int) (neg : Bool) (m : Nat) (e : Int) : Int := (if neg then -1 else 1) * (m * 2 ^ (e - e0).toNat : Nat)

/-- Values of the functions of R168 in FP32 and FP64, worked out from the mathematics and not with the model: the function's code, the
operand, and the result rounded to nearest, toward −∞ and toward +∞. -/
def knownValues : List (Fmt × List (Nat × Nat × Nat × Nat × Nat)) :=
  [(fmtS, [
    (1, 0x40000000, 0x3F3504F3, 0x3F3504F3, 0x3F3504F4), (3, 0x3F800000, 0x402DF854, 0x402DF854, 0x402DF855),
    (4, 0x3F000000, 0x3FB504F3, 0x3FB504F3, 0x3FB504F4), (5, 0xBF800000, 0xBF21D2A7, 0xBF21D2A8, 0xBF21D2A7),
    (6, 0x40400000, 0x3F8C9F54, 0x3F8C9F53, 0x3F8C9F54), (7, 0x40400000, 0x3FCAE00D, 0x3FCAE00D, 0x3FCAE00E),
    (8, 0x3F800000, 0x3F317218, 0x3F317217, 0x3F317218), (9, 0x3F000000, 0x3F053F7B, 0x3F053F7A, 0x3F053F7B),
    (10, 0x3F000000, 0x3EF5810A, 0x3EF5810A, 0x3EF5810B), (11, 0x40000000, 0x3F68C7B7, 0x3F68C7B7, 0x3F68C7B8),
    (11, 0xC0000000, 0xBF68C7B7, 0xBF68C7B8, 0xBF68C7B7), (12, 0x40000000, 0xBED51133, 0xBED51133, 0xBED51132),
    (13, 0x3F000000, 0x3EEC9A9F, 0x3EEC9A9E, 0x3EEC9A9F), (3, 0xC0A00000, 0x3BDCC9FF, 0x3BDCC9FF, 0x3BDCCA00),
    (6, 0x3F000000, 0xBF317218, 0xBF317218, 0xBF317217), (9, 0xBF800000, 0xBF57BB3D, 0xBF57BB3E, 0xBF57BB3D),
    (10, 0xBF000000, 0x3FC29FBD, 0x3FC29FBD, 0x3FC29FBE), (13, 0xBF800000, 0xBF42F7D6, 0xBF42F7D6, 0xBF42F7D5)]),
  (fmtD, [
    (1, 0x4000000000000000, 0x3FE6A09E667F3BCD, 0x3FE6A09E667F3BCC, 0x3FE6A09E667F3BCD), (3, 0x3FF0000000000000, 0x4005BF0A8B145769, 0x4005BF0A8B145769, 0x4005BF0A8B14576A),
    (4, 0x3FE0000000000000, 0x3FF6A09E667F3BCD, 0x3FF6A09E667F3BCC, 0x3FF6A09E667F3BCD), (5, 0xBFF0000000000000, 0xBFE43A54E4E98864, 0xBFE43A54E4E98865, 0xBFE43A54E4E98864),
    (6, 0x4008000000000000, 0x3FF193EA7AAD030B, 0x3FF193EA7AAD030A, 0x3FF193EA7AAD030B), (7, 0x4008000000000000, 0x3FF95C01A39FBD68, 0x3FF95C01A39FBD68, 0x3FF95C01A39FBD69),
    (8, 0x3FF0000000000000, 0x3FE62E42FEFA39EF, 0x3FE62E42FEFA39EF, 0x3FE62E42FEFA39F0), (9, 0x3FE0000000000000, 0x3FE0A7EF5C18EDD2, 0x3FE0A7EF5C18EDD2, 0x3FE0A7EF5C18EDD3),
    (10, 0x3FE0000000000000, 0x3FDEB02147CE245C, 0x3FDEB02147CE245B, 0x3FDEB02147CE245C), (11, 0x4000000000000000, 0x3FED18F6EAD1B446, 0x3FED18F6EAD1B445, 0x3FED18F6EAD1B446),
    (11, 0xC000000000000000, 0xBFED18F6EAD1B446, 0xBFED18F6EAD1B446, 0xBFED18F6EAD1B445), (12, 0x4000000000000000, 0xBFDAA22657537205, 0xBFDAA22657537205, 0xBFDAA22657537204),
    (13, 0x3FE0000000000000, 0x3FDD9353D7568AF3, 0x3FDD9353D7568AF3, 0x3FDD9353D7568AF4), (3, 0xC014000000000000, 0x3F7B993FE00D5376, 0x3F7B993FE00D5376, 0x3F7B993FE00D5377),
    (6, 0x3FE0000000000000, 0xBFE62E42FEFA39EF, 0xBFE62E42FEFA39F0, 0xBFE62E42FEFA39EF), (9, 0xBFF0000000000000, 0xBFEAF767A741088B, 0xBFEAF767A741088B, 0xBFEAF767A741088A),
    (10, 0xBFE0000000000000, 0x3FF853F7AE0C76E9, 0x3FF853F7AE0C76E9, 0x3FF853F7AE0C76EA), (13, 0xBFF0000000000000, 0xBFE85EFAB514F394, 0xBFE85EFAB514F395, 0xBFE85EFAB514F394)])]

/-- The exact sum of two finite values rounded once; an exact zero takes the terms' common sign, else +0, −0 under RDN (R106). -/
def sumRounded (f : Fmt) (rm : BitVec 3) (n : Bool) (m : Nat) (e : Int) (n' : Bool) (m' : Nat) (e' : Int) : Nat × Exc :=
  let e0 := min e e'
  let v := scaled e0 n m e + scaled e0 n' m' e'
  if v = 0 then (codeZero f (if n = n' then n else rm == 4), 0) else roundNum f rm (v < 0) v.natAbs e0 false

/-- The first NaN among operand codes, its quiet bit set, and NV when one is signalling (R108, R109). -/
def nanOf (f : Fmt) (xs : List Nat) : Option (Nat × Exc) :=
  (xs.find? fun x => (decodeFp f x).isNaN).map fun x =>
    (x ||| 2 ^ (f.m - 1), excIf (xs.any fun x => (decodeFp f x).isSNaN) excNV)

/-- The numeric order of two values that are not NaN. -/
def Num.below (a b : Num) : Prop :=
  match a, b with
  | .inf n, .inf n' => n = true ∧ n' = false
  | .inf n, .fin _ _ _ => n = true
  | .fin _ _ _, .inf n' => n' = false
  | .fin n m e, .fin n' m' e' => scaled (min e e') n m e < scaled (min e e') n' m' e'
  | _, _ => False

/-- Does a magnitude m × 2^e have a fraction? -/
def fractional (m : Nat) (e : Int) : Prop := m * 2 ^ e.toNat % 2 ^ (-e).toNat ≠ 0

/-- A magnitude m × 2^e rounded to an integer in a mode, its value's sign being `neg` (R106, R169). -/
def integral (rm : BitVec 3) (neg : Bool) (m : Nat) (e : Int) : Nat :=
  let den := 2 ^ (-e).toNat
  let low := m * 2 ^ e.toNat / den
  let r := m * 2 ^ e.toNat % den
  if r = 0 then low
  else match rm.toNat with
    | 0 => if 2 * r < den then low else if den < 2 * r then low + 1 else low + low % 2
    | 1 => if 2 * r < den then low else low + 1
    | 2 => low
    | 3 => if neg then low else low + 1
    | 4 => if neg then low + 1 else low
    | _ => low + (1 - low % 2)

/-- Two values are the same: NaN, the same infinity, or finite and equal, a zero with its sign. -/
def Num.same (a b : Num) : Prop :=
  match a, b with
  | .nan _ _ _, .nan _ _ _ => True
  | .inf n, .inf n' => n = n'
  | .fin n m e, .fin n' m' e' => scaled (min e e') n m e = scaled (min e e') n' m' e' ∧ (m = 0 → n = n')
  | _, _ => False

/-- The exact product of two values: NaN for a NaN or 0 × ∞ (R113). -/
def ProductIs (a b r : Num) : Prop :=
  match a, b with
  | .fin n m e, .fin n' m' e' => r.same (.fin (n != n') (m * m') (e + e'))
  | .inf n, .inf n' => r = .inf (n != n')
  | .inf n, .fin n' m _ | .fin n' m _, .inf n => if m = 0 then r.isNaN = true else r = .inf (n != n')
  | _, _ => r.isNaN = true

/-- The exact sum of values: NaN for a NaN or infinities of both signs, the infinity that is present, or the finite sum, whose exact zero has
the sign `z` (R113). -/
def SumIs (z : Bool) (xs : List Num) (r : Num) : Prop :=
  let none := (∃ x ∈ xs, x.isNaN = true) ∨ Num.inf true ∈ xs ∧ Num.inf false ∈ xs
  (none → r.isNaN = true) ∧ (¬none → ∀ n, Num.inf n ∈ xs → r = .inf n) ∧
  ∀ (ts : List (Bool × Nat × Int)) (e0 : Int), xs = ts.map (fun t => Num.fin t.1 t.2.1 t.2.2) → (∀ t ∈ ts, e0 ≤ t.2.2) →
    let v := (ts.map fun t => scaled e0 t.1 t.2.1 t.2.2).sum
    r.same (.fin (if v = 0 then z else decide (v < 0)) v.natAbs e0)

/-- A value's code in a format after one rounding: a finite one rounded, an infinity, or the canonical NaN (R106, R113). -/
def Rounded (f : Fmt) (rm : BitVec 3) (x : Num) (code : Nat) : Prop :=
  match x with
  | .fin n m e => code = (roundNum f rm n m e false).1
  | .inf n => code = codeInf f n
  | .nan _ _ _ => code = codeNaN f

/-- What the epilogue reads for a scale or a bias: none, a value of the card, or an FP32 in memory (R220). -/
def VectorRead (w : Who) (kind : Nat) (held : Option Num) (a : Word) (s : State) (x : Option Num) (p : Bool) (t : State) : Prop :=
  kind = 0 ∧ x = none ∧ p = false ∧ t = s ∨ kind ≠ 0 ∧ held.isSome = true ∧ x = held ∧ p = false ∧ t = s ∨
  kind ≠ 0 ∧ held = none ∧ ∃ y, rdBytes w .plain a 4 s = (.ok (y, p), t) ∧ x = some (decodeFp fmtS y)

/-- The instruction writes the register pair `d`, `d` + 1 in the lanes `m` and nothing else (R19). -/
structure WritesPair (s t : State) (key : Nat) (F : Mask) (pc : Pc) (d : BitVec 6) (m : Mask) (lo hi : Lane → Word) : Prop where
  moves : Advances s t key F pc
  preds : PredsKept s t key
  low : ∀ l, inMask m l = true → (t.crew key).reg d.toNat l = lo l
  high : ∀ l, inMask m l = true → (t.crew key).reg (d.toNat + 1) l = hi l
  other : ∀ n l, n < 48 → ((n ≠ d.toNat ∧ n ≠ d.toNat + 1) ∨ inMask m l = false) → (t.crew key).reg n l = (s.crew key).reg n l

/-! ### Result tags (R18) -/

/-- The tag with which a source code outside V40 to V47 is read: its register's, its latch's, U for a constant. -/
def Crew.tagAt (c : Crew) (a : BitVec 6) : Tag :=
  if a < 48 then c.tags.getD a.toNat .g else if a < 52 then c.latches[(a - 48).toNat % 4].tag else .u

/-- The difference of a source's values in lanes 1 and 0, signed: the stride of an affine source, 0 for a uniform one. -/
def strideOf (s : State) (key : Nat) (a : BitVec 6) : Int := (srcInt s key 64 a 1 - srcInt s key 64 a 0).toInt

/-- The tag of a result in arithmetic progression: U for stride 0, G for a stride outside 32 signed bits. -/
def strideTag (x : Int) : Tag := if x = 0 then .u else if -(2 ^ 31) ≤ x ∧ x < 2 ^ 31 then .a else .g

/-- U when every source is U, else G. -/
def allUniform (as : List (BitVec 6)) (s : State) (key : Nat) : Tag := if ∀ a ∈ as, (s.crew key).tagAt a = .u then .u else .g

/-- A row for uniform and affine sources, whose result has the stride `x`; any other source gives G. -/
def affineRow (as : List (BitVec 6)) (x : State → Nat → Int) (s : State) (key : Nat) : Tag :=
  if ∀ a ∈ as, (s.crew key).tagAt a ≠ .g then strideTag (x s key) else .g

/-- A write of all 32 lanes of register `d` leaves the tag that the instruction's row names, a write of some lanes G, and no write the old
tag; the sources and the destination stand outside V40 to V47, where R29 holds. -/
def RowTag (i : Instr) (d : BitVec 6) (row : State → Nat → Tag) : Prop :=
  d < 40 → (∀ a ∈ i.srcs, a < 40 ∨ 48 ≤ a) →
    Completes i (fun s key F => (s.crew key).TagsFit ∧ Untrapped s key F) fun s key F _ t =>
      let m := taking i s key F
      (t.crew key).tags.getD d.toNat .g =
        if m = fullMask then row s key else if m = 0 then (s.crew key).tags.getD d.toNat .g else .g

/-! ## Memory instructions (R180 to R197) -/

/-- The state in which the crew has counted the issue. -/
def noted (i : Instr) (s : State) (key : Nat) (F : Mask) : State := s.modCrew key fun c => c.noteIssue F (isTret i)

/-- Offset of an address in the scratchpad window (R42). -/
def scratchAt (va : Word) : Nat := va.toNat - 0xFFFFFFFFFF000000

/-- The gang's scratchpad. -/
def pad (s : State) (key : Nat) : List Host.Cell := (s.gang (gangOf key)).scratch

/-- `n` bytes at an address pass R180 in the scratchpad of the crew's gang, whose memory is in canonical form, and their line holds no
poison. -/
def InScratch (s : State) (key : Nat) (n : Nat) (va : Word) : Prop :=
  Memory.wf (pad s key) = true ∧
  va.toNat % n = 0 ∧ 0xFFFFFFFFFF000000 ≤ va.toNat ∧ scratchAt va + n ≤ (s.gang (gangOf key)).hdr.scratch ∧
  pieceMapped (s.gang (gangOf key)) (scratchAt va) = true ∧ (s.gang (gangOf key)).scratchPoison.contains (scratchAt va / 128) = false

/-- A scratchpad after stores of `n` bytes by lanes in ascending order. -/
def storedPad (m : List Host.Cell) (n : Nat) (ls : List Lane) (va : Lane → Word) (v : Lane → Nat) : List Host.Cell :=
  ls.foldl (fun m l => writeNat m (scratchAt (va l)) n (v l)) m

/-- Every byte of a scratchpad outside the stored ranges reads as before. -/
def PadKept (s t : State) (key n : Nat) (m : Mask) (va : Lane → Word) : Prop :=
  ∀ a, (∀ l, inMask m l = true → a < scratchAt (va l) ∨ scratchAt (va l) + n ≤ a) → readByte (pad t key) a = readByte (pad s key) a

/-- `s` with the memory hierarchy of `t`: physical memory, caches, homes, lines lent to other sharers, and the messages between them with
the count of those dropped as old. -/
def withHierarchy (s t : State) : State :=
  { s with mem := t.mem, poison := t.poison, cores := t.cores, dies := t.dies, homes := t.homes, lent := t.lent, fabric := t.fabric,
           dropped := t.dropped }

/-- The next word, in every lane of a fragment. -/
def onward (pc : Pc) (_ : Lane) (th : Thread) : Thread := { th with pc := pc + 4 }

/-- The instruction's lanes complete at its issue: always, but for those that the machine may leave unfinished (log 8, 69). -/
def atOnce (i : Instr) (s : State) : Prop := i.exchanges = true → s.memLate = false

/-- The instruction's lanes complete at its issue, and every taking lane's address passes. -/
def allIn (i : Instr) (n : Nat) (va : State → Nat → Lane → Word) (s : State) (key : Nat) (F : Mask) : Prop :=
  atOnce i s ∧ ∀ l, inMask (taking i s key F) l = true → InScratch s key n (va s key l)

/-- While `memLate` is true the instruction goes on at the next word and stays unfinished, with its captured sources (R181, R328, R329;
log 8, 69). -/
def StaysOpen (i : Instr) : Prop :=
  ∀ s key F pc, Issues i s key F pc → s.memLate = true → ∃ t e, exec i s = .next t ∧
    Goes s t key F (fun c => { c with infl := c.infl ++ [e] }) (onward pc) ∧
    e.frag = F ∧ e.ipc = pc ∧ e.take = taking i s key F ∧ e.done = 0 ∧ e.lost = 0 ∧ (∀ w, (encode i)[0]? = some w → e.word = w) ∧
    ∀ n a, n < 3 → i.srcs[n]? = some a → ∀ l, ([e.op0, e.op1, e.op2].getD n (allLanes 0)).at l = srcInt s key 64 a l

/-- No cache holds a copy of a line, and no sharer list of it exists. -/
structure Uncopied (s : State) (line : Nat) : Prop where
  l1 : ∀ c, (s.core c).l1.get? line = none
  l2 : ∀ d, (s.die d).l2.get? line = none
  list : (s.home line).head = none

/-- A transaction at a line's home meets nothing but memory: no copy, no poison, no release on record, no window with tags, fewer than 64
unacknowledged requests of the core to the slice, and no request of it answered there under the next tag (R192, R286, R300). -/
structure AtHome (s : State) (core pa : Nat) : Prop where
  sound : Memory.wf s.mem = true
  bare : Uncopied s (pa / 128)
  clean : s.linePoisoned (pa / 128) = false
  unrecorded : (s.home (pa / 128)).rv = false ∧ (s.home (pa / 128)).lost = false
  tagless : ∀ a w, s.windowOf a = some w → w.tagbase = 0
  room : s.unackedAt core pa < 64
  fresh : s.tagOld core pa ((s.core core).tagSeq + 1) = none

/-- Of the line of `pa`, `n` bytes at `pa` hold `v`, and every other byte is as before. -/
def LineHolds (s t : State) (pa n v : Nat) : Prop :=
  readNat t.mem pa n = v % 2 ^ (8 * n) ∧ ∀ a, a / 128 = pa / 128 → (a < pa ∨ pa + n ≤ a) → readByte t.mem a = readByte s.mem a

/-! ## Return stacks (R30 to R32) -/

/-- The entry that a call of the fragment's word at `pc` pushes for a thread (R30, R155). -/
def callEntry (s : State) (key : Nat) (pc : Pc) (th : Thread) : Word :=
  (s.crew key).cver ++ BitVec.ofNat 16 (((overlayAt (s.hdrOf key) pc.toNat).map Prod.fst).getD 0) ++
    (pc + 4).extractLsb' 2 30 ++ 0#1 ++ BitVec.ofBool th.sup

/-- A thread after a push: of 16 resident entries the 8 oldest have been spilled first (R31). -/
def pushed (th : Thread) (e : Word) : Thread :=
  { th with rsdep := th.rsdep + 1, rstk := th.rstk.drop (if th.rstk.length = 16 then 8 else 0) ++ [e] }

/-- Where doubleword `j` of spilled block `k` of a thread lies (R31). -/
def spillAt (th : Thread) (k j : Nat) : Word := th.tlsb + BitVec.ofNat 64 (64 * k + 8 * j)

/-- Each of these lanes may push: below depth 4,112, with room among its resident entries or a spill into the scratchpad that passes R180. -/
def PushRoom (s : State) (key : Nat) (m : Mask) : Prop :=
  ∀ l, inMask m l = true →
    let th := (s.crew key).th l
    th.rsdep < 4112 ∧ th.rstk.length ≤ 16 ∧ (th.rstk.length = 16 → ∀ j, j < 8 → InScratch s key 8 (spillAt th ((th.rsdep - 16) / 8) j))

/-- What the pushes of these lanes store: in ascending lane order, the 8 oldest entries of each full stack as its next block; and nothing
where no stack is full (R31). -/
structure Spills (s t : State) (key : Nat) (m : Mask) : Prop where
  none : (∀ l, inMask m l = true → ((s.crew key).th l).rstk.length < 16) → t.gangs = s.gangs
  others : ∀ k, k ≠ gangOf key → t.gang k = s.gang k
  own : t.gang (gangOf key) = { s.gang (gangOf key) with scratch := pad t key }
  blocks : pad t key = (maskLanes m).foldl (fun x l =>
    let th := (s.crew key).th l
    if th.rstk.length = 16 then (List.range 8).foldl (fun x j =>
      writeNat x (scratchAt (spillAt th ((th.rsdep - 16) / 8) j)) 8 (th.rstk.getD j 0).toNat) x
    else x) (pad s key)

/-- Where a push fails, the call has no effect: SCRBOUND at depth 4,112, with the address just past the spill region, and a spill's own
fault with the spill address, here of a region that is not aligned (R31, R32). -/
def PushFails (i : Instr) (s s₁ : State) (key : Nat) (F : Mask) (pc : Pc) (m : Mask) : Prop :=
  let th (l : Lane) : Thread := (s.crew key).th l
  let block (l : Lane) : Word := spillAt (th l) (((th l).rsdep - 16) / 8) 0
  let full := maskOf fun l => inMask m l && decide ((th l).rsdep = 4112)
  let odd := maskOf fun l => inMask m l && decide ((th l).rsdep < 4112 ∧ (th l).rstk.length = 16 ∧ (block l).toNat % 8 ≠ 0)
  (full ≠ 0 → PushRoom s key (m &&& ~~~full) → TrapsFrom i s s₁ key F pc 0x05 full fun l => (th l).tlsb + 0x8000) ∧
  (odd ≠ 0 → PushRoom s key (m &&& ~~~odd) → TrapsFrom i s s₁ key F pc 0x07 odd block)

/-- A thread's newest entry may be popped: it is the only one left in all, or others are resident, or their newest block is read back from the
scratchpad; it is of the crew's version and of an overlay that is resident, and gives no privilege that the thread has not (R31, R32, R157). -/
def MayPop (s : State) (key : Nat) (th : Thread) : Prop :=
  let e := th.rstk.getLastD 0
  th.rstk ≠ [] ∧ (2 ≤ th.rstk.length ∨ th.rstk.length = th.rsdep ∨
    th.rstk.length < th.rsdep ∧ ∀ j, j < 8 → InScratch s key 8 (spillAt th ((th.rsdep - 1) / 8 - 1) j)) ∧
  e.extractLsb' 48 16 = (s.crew key).cver ∧ (e.extractLsb' 32 16).toNat < (s.hdrOf key).ovls ∧ (e.getLsbD 0 = true → th.sup = true) ∧
  ∀ off slots, (s.hdrOf key).dir[(e.extractLsb' 32 16).toNat]? = some (off, slots) →
    s.ovlResident (s.crew key).core (s.gang (gangOf key)).asid (s.crew key).cver off = true

/-- A thread after a pop: at the entry's address with its privilege; when no entry stays resident and some are spilled, their newest block
is read back (R31, R157). -/
def popped (s : State) (key : Nat) (th : Thread) : Thread :=
  let e := th.rstk.getLastD 0
  { th with
    pc := e.extractLsb' 2 30 ++ 0#2, sup := e.getLsbD 0, rsdep := th.rsdep - 1
    rstk := if th.rstk.length = 1 ∧ 1 < th.rsdep then
        (List.range 8).map fun j => BitVec.ofNat 64 (readNat (pad s key) (scratchAt (spillAt th ((th.rsdep - 1) / 8 - 1) j)) 8)
      else th.rstk.dropLast }

/-- The captured operands of one lane (R328). -/
def laneEntry (a b c : Word) (o : BitVec 2) (k : BitVec 3) : Entry :=
  { frag := 0, ipc := 0, word := 0, imm := 0, take := 0, done := 0, ord := o, scope := k, rm := 0, op0 := allLanes a, op1 := allLanes b,
    op2 := allLanes c, cards := [], book := none, lost := 0 }

/-- What an instruction does whose one taking lane does `f`: the lane's results are written to `d`, or the fragment traps with the lane's
cause and address, the next word as its PC, and the instruction in a replay entry that has nothing done (R181, R329). -/
def OneLane (i : Instr) (f : State → Nat → Mask → Lane → LaneOut × State) (d : Dest) : Prop :=
  ∀ s key F pc l, Issues i s key F pc → taking i s key F = 1#32 <<< l.val → atOnce i s → (s.crew key).infl = [] →
    (∀ lo hi u, f (noted i s key F) key F l = (.done lo hi, u) → ∃ t, exec i s = .next t ∧
      match d with
      | .none => Goes u t key F id (onward pc)
      | .one d => WritesReg u t key F pc d (1#32 <<< l.val) fun _ => lo
      | .pair d => WritesPair u t key F pc d (1#32 <<< l.val) (fun _ => lo) fun _ => hi) ∧
    ∀ x u, f (noted i s key F) key F l = (.failed x, u) → ∃ info v, exec i s = .next (v.takeTrap key info) ∧
      Goes u v key F id (onward pc) ∧ info.cause = x.cause ∧ info.frag = F &&& ~~~(s.crew key).exited ∧ info.failing = 1#32 <<< l.val ∧
      info.faddr.at l = x.addr ∧ info.pc = pc + 4 ∧ info.tent = some 0 ∧
      ∃ e, info.entries = [e] ∧ e.ipc = pc ∧ e.take = 1#32 <<< l.val ∧ e.done = 0

/-- The crew's only unfinished instruction is `i`, and its one lane left does `f`: the lane's results are written to `d` and the entry is
done with, or the fragment traps with the entry in its frame (R181, R329, R331). -/
def LaterLane (i : Instr) (f : Entry → Nat → Lane → State → LaneOut × State) (d : Dest) : Prop :=
  ∀ s key k e l, (s.crew? key).isSome = true → s.clocked (s.crew key).core = true → (s.crew key).infl = [e] → decodeWord e.word = .ok i →
    e.frag &&& (s.crew key).live ≠ 0 → e.lost = 0 → e.take &&& e.frag &&& ~~~e.done &&& ~~~(s.crew key).exited = 1#32 <<< l.val →
    (∀ lo hi u, f e key l s = (.done lo hi, u) → ∃ t, exec (.unfinishedInstructionFinish key k) s = .next t ∧ OnlyCrew u t key ∧
      (t.crew key).infl = [] ∧ (t.crew key).preds = (u.crew key).preds ∧
      (∀ m, (t.crew key).th m = { (u.crew key).th m with wm := ((t.crew key).th m).wm }) ∧
      ∀ n m, n < 48 → (t.crew key).reg n m =
        let old := (u.crew key).reg n m
        if m ≠ l then old else match d with
          | .none => old
          | .one d => if n = d.toNat then lo else old
          | .pair d => if n = (d + 1).toNat then hi else if n = d.toNat then lo else old) ∧
    ∀ x u, f e key l s = (.failed x, u) → ∃ info v, exec (.unfinishedInstructionFinish key k) s = .next (v.takeTrap key info) ∧
      OnlyCrew u v key ∧ (v.crew key).infl = [] ∧ info.cause = x.cause ∧ info.failing = 1#32 <<< l.val ∧ info.faddr.at l = x.addr ∧
      info.frag = e.frag &&& ~~~(s.crew key).exited ∧ ∃ e', info.entries = [e'] ∧ e'.ipc = e.ipc ∧ e'.take = e.take ∧ e'.done = e.done

/-! ## Barriers and banks (R198 to R206) -/

/-- Lanes of the crew arrive at a barrier of its gang. -/
def arrivedAt (s : State) (key id : Nat) (m : Mask) : State :=
  s.modCrew key fun c => { c with barm := c.barm.setIfInBounds id (c.barm.getD id 0 ||| m) }

/-- With these arrivals, every thread of the gang that has not exited has arrived at the barrier, and there is one. -/
def FullWith (s : State) (key id : Nat) (m : Mask) : Prop :=
  let cs := (arrivedAt s key id m).crewsOf (gangOf key)
  (∀ p ∈ cs, ∀ l, (p.2.th l).st = .exited ∨ inMask (p.2.barm.getD id 0) l = true) ∧ ∃ p ∈ cs, ∃ l, (p.2.th l).st ≠ .exited

/-- A FIFO of the crew's core (R204). -/
def fifoOf (s : State) (key slot : Nat) : List Word := (s.gang (gangOf key)).fifos.getD (s.slotKey key slot) []

/-! ## Porters (R256 to R262) -/

/-- The Porter of a core is at a word of a gang's stream, and the word has no reserved code (R86, R257). -/
structure Streams (i : Instr) (s : State) (core gang : Nat) : Prop where
  cur : s.cur = .porter core
  stream : (s.core core).porter.gang = some gang
  legal : i.illegal = false

/-- The word completes: whenever a Porter runs it and `pre` holds, execution answers a next state that `post` relates to the one before. -/
def PorterDoes (i : Instr) (pre : State → Nat → Nat → Prop) (post : State → Nat → Nat → State → Prop) : Prop :=
  ∀ s core gang, Streams i s core gang → pre s core gang → ∃ t, exec i s = .next t ∧ post s core gang t

/-- Of the whole machine, only the Porter of one core has changed. -/
structure PorterBecomes (s t : State) (core : Nat) (p : Porter) : Prop where
  rest : { t with cores := s.cores } = s
  others : ∀ n, n ≠ core → t.core n = s.core n
  here : t.core core = { s.core core with porter := p }

/-- The Porter goes on at the next word. -/
def Porter.onward (p : Porter) : Porter := { p with pc := p.pc + 4, wait := .none }

/-- The word stops its Porter with a cause and an address and does nothing else: the Porter stays at the word, Foreman is told, and the
event is logged (R258, R352). -/
def PorterStops (i : Instr) (s : State) (core gang : Nat) (cause : BitVec 8) (addr : Word) : Prop :=
  let p := (s.core core).porter
  ∃ t, exec i s = .next t ∧ PorterBecomes { s with
    reports := s.reports ++ [Report.porter core gang p.pc cause addr 0]
    log := t.log
    logLost := t.logLost } t core { p with stopped := some ⟨cause, addr, 0⟩ }

/-! ## Save areas (R338) -/

/-- Offset of the `n`th crew record of the save area at an address: each follows the one before by that record's RLEN. -/
def recordAt (m : List Host.Cell) (pa first : Nat) : Nat → Nat
  | 0 => first
  | n + 1 => recordAt m pa first n + readNat m (pa + recordAt m pa first n) 4

/-- The register items at an address, each with its tag code: 8 bytes for U, base and signed 32-bit stride for A, 32 values for G. -/
def readItems (m : List Host.Cell) : Nat → List Nat → List (Nat × Lanes Word)
  | _, [] => []
  | a, code :: rest =>
    let w (off : Nat) : Word := BitVec.ofNat 64 (readNat m (a + off) 8)
    match code with
    | 0 => (0, allLanes (w 0)) :: readItems m (a + 8) rest
    | 1 => (1, lanes fun l => w 0 + BitVec.ofNat 64 l.val * (BitVec.ofNat 32 (readNat m (a + 8) 4)).signExtend 64) ::
        readItems m (a + 16) rest
    | k => (k, lanes fun l => w (8 * l.val)) :: readItems m (a + 256) rest

/-- The crew record at an address, under the crew's kernel header, holds the crew: its version, and for each lane that has not ended PC,
privilege, FSTAT, return stack, PACC, PTOT and proposal mode with WM; which lanes have ended or wait, and for whom; predicates; arrivals at
barriers; and the register items with their tags: the registers below REGS, the shadow when the kernel has a bank, and the valid latches. -/
structure RecordHolds (m : List Host.Cell) (a : Nat) (h : Header) (c : Crew) : Prop where
  version : c.cver = BitVec.ofNat 16 (readNat m (a + 6) 2)
  ended : ∀ l, (readNat m (a + 8) 4).testBit l.val = true ↔ (c.th l).st = .exited
  waits : ∀ l, match (c.th l).st with
    | .waiting k | .returning k => (readNat m (a + 0xC) 4).testBit l.val = true ∧ readNat m (a + 0xC0 + 4 * l.val) 4 = k.toNat
    | _ => (readNat m (a + 0xC) 4).testBit l.val = false
  threads : ∀ l, (c.th l).st ≠ .exited →
    let t := c.th l
    let i := l.val
    t.pc.toNat = readNat m (a + 0x40 + 4 * i) 4 ∧ t.sup = (readNat m (a + 0x10) 4).testBit i ∧
    t.fstat.toNat % 2 ^ 13 = readNat m (a + 0x140 + 2 * i) 2 ∧ t.rsdep % 2 ^ 16 = readNat m (a + 0x180 + 2 * i) 2 ∧
    t.pacc.toNat = readNat m (a + 0x1C0 + 4 * i) 4 ∧ t.ptot.toNat = readNat m (a + 0x240 + 4 * i) 4 ∧
    t.wm.toNat = readNat m (a + 0x2C0 + i) 1 ∧ t.pmode = (readNat m (a + 0x1C) 4).testBit i ∧
    (t.rstk.length ≤ 16 → t.rstk.length = min 16 (readNat m (a + 0x350 + i) 1)) ∧
    ∀ j x, j < 16 → t.rstk[j]? = some x → x.toNat = readNat m (a + 0x380 + 256 * j + 8 * i) 8
  preds : ∀ p : BitVec 3, p ≠ 0 → (c.pred p).toNat = readNat m (a + 0x20 + 4 * p.toNat) 4
  arrivals : c.barcm.toNat = readNat m (a + 0x2E0) 4 ∧ ∀ k : Fin 16, c.barm[k.val].toNat = readNat m (a + 0x300 + 4 * k.val) 4
  latches : ∀ k : Fin 4, c.latches[k.val].valid = (readNat m (a + 0x18) 8).testBit (12 + k.val)
  items :
    let tags := readNat m (a + 0x340) 16
    let code (k : Nat) : Nat := tags / 4 ^ k % 4
    let n := min 48 h.regs
    let bank := if h.prop then 8 else 0
    let valid := (List.range 4).filter fun k => (readNat m (a + 0x18) 8).testBit (12 + k)
    let codes := (List.range n).map code ++ (List.range bank).map (fun k => code (48 + k)) ++ (List.range valid.length).map fun k => code (56 + k)
    let its := readItems m (a + 0x1380) codes
    let holds (k : Nat) (tag : Tag) (v : Lanes Word) : Prop := ∃ x, its[k]? = some (x, v) ∧ tag = fitTag (tagOfCode x) v
    (∀ k : Fin 48, k.val < n → holds k.val c.tags[k.val] c.regs[k.val]) ∧
    (∀ k : Fin 8, k.val < bank → holds (n + k.val) c.stags[k.val] c.shadow[k.val]) ∧
    ∀ (i : Nat) (k : Fin 4), valid[i]? = some k.val → holds (n + bank + i) c.latches[k.val].tag c.latches[k.val].val

/-! ## Returns from traps (R327, R331, R332) -/

/-- A number of the frame in slot `k` of a crew. -/
def frameField (s : State) (key k off n : Nat) : Nat := readNat s.mem ((s.gang (gangOf key)).framePa (crewIndex key) k + off) n

/-- The frame in slot `k` belongs to the lanes `F`, waits for Foreman or not, is in order and holds no entry; a lane of the crew lives on
after it, no lane of the crew waits for a slot, no more instructions than eight are unfinished, and the overlays of the addresses where its
lanes go on are resident. -/
structure FrameGood (s : State) (key k : Nat) (F : Mask) (foreman : Bool) : Prop where
  slot : ((s.crew key).slots.getD k none).map (fun u => (u.frag, u.foreman)) = some (F, foreman)
  sound : frameBad s.mem ((s.gang (gangOf key)).framePa (crewIndex key) k) = false
  bare : ((s.crew key).slots.getD k none).map (fun u => u.trap.entries) = some []
  stays : ∃ l, (inMask F l = false ∨ (frameField s key k 0x1C 4).testBit l.val = false) ∧ ((s.crew key).th l).st ≠ .exited
  free : ∀ l, (match ((s.crew key).th l).st with
    | .parked (.slotWait _) => true
    | _ => false) = false
  room : (s.crew key).infl.length ≤ 8
  near : ∀ l, inMask F l = true → ∀ n off slots, overlayAt (s.hdrOf key) (frameField s key k (0x380 + 4 * l.val) 4) = some (n, off, slots) →
    s.ovlResident (s.crew key).core (s.gang (gangOf key)).asid (s.crew key).cver off = true

/-- The frame's lanes have returned: each lane of KILL has ended and every other one goes on at its NPC with the privilege, FSTAT, proposal
mode, WM and shadow that the frame holds; the slot is free; registers, predicates, memory and gangs stand still. -/
structure FrameReturns (s t : State) (key k : Nat) (F : Mask) : Prop where
  lanes : ∀ l, inMask F l = true → (t.crew key).th l =
    let th := (s.crew key).th l
    let f := frameField s key k
    if (f 0x1C 4).testBit l.val then { th with st := .exited, rstk := [], rsdep := 0, pmode := false, wm := 0 }
    else { th with
      st := .live
      pc := BitVec.ofNat 32 (f (0x380 + 4 * l.val) 4)
      sup := (f 4 1).testBit 0
      fstat := BitVec.ofNat 64 (f (0x200 + 8 * l.val) 8)
      pmode := (f 0x320 4).testBit l.val
      wm := if (f 0x320 4).testBit l.val then BitVec.ofNat 8 (f (0x340 + l.val) 1) else 0
      held := if th.held = some k then none else th.held }
  away : ∀ l, inMask F l = false → (t.crew key).th l = (s.crew key).th l
  slot : (t.crew key).slots.getD k none = none
  file : (t.crew key).regs = (s.crew key).regs ∧ (t.crew key).tags = (s.crew key).tags ∧ (t.crew key).preds = (s.crew key).preds
  world : t.mem = s.mem ∧ t.gangs = s.gangs
  shadow : ∀ (n : Fin 8) l, inMask F l = true → (frameField s key k 0x1C 4).testBit l.val = false →
    (frameField s key k 0x320 4).testBit l.val = true →
    (t.crew key).shadow[n.val].at l = BitVec.ofNat 64 (frameField s key k (0x800 + 256 * n.val + 8 * l.val) 8)

/-- The fault address that the trap in slot `k` reported for its lowest failing lane. -/
def slotFault (s : State) (key k : Nat) : Word :=
  match (s.crew key).slots.getD k none with
  | some u => match lowest u.trap.failing with
    | some l => u.trap.faddr.at l
    | none => 0
  | none => 0

/-- The fragment in slot `k` of a crew is parked for Foreman with a cause. -/
def ParkedWith (s : State) (key k : Nat) (cause : BitVec 8) : Prop :=
  k < 4 ∧ ∃ c, (key, c) ∈ s.crews ∧ ∃ u, c.slots.getD k none = some u ∧ u.foreman = true ∧ u.cause = cause

end Machine
end Sys2Proof
end

