-- ==== Sys2Proof/Certificates/Slice0/Obligations.lean ====
section
/-!
DEFINITION. The statements for the provers.
-/
open Sys2Proof Sys2Proof.Machine

/-! ## The machine: reset, steps, decoding, the decode checks, tags and latches -/

/-- What device reset leaves (R40, R101, R277, R299, R310), and, by the model's choice (log 2), memory that reads 0; the machine then
goes on, and in its first step nobody acts. R12: what a crew holds when it is allocated; TLSB is the launch block's TLBASE plus TLSTRIDE
times the thread's number (R308). The fields that no rule gives a reset value are the model's choice too (log 1), and so are those that
order the acts (log 9, 68, 77). -/
def Obligations.ResetLeaves : Prop :=
  (let s := State.reset;
    s.time = 0 ∧ (∀ k, s.crew? k = none) ∧ (∀ k, s.gangs.get? k = none) ∧ (∀ k, s.grids.get? k = none) ∧
    (∀ q, (s.queue q).asid = none ∧ (s.queue q).entries = [] ∧ (s.queue q).nextSeq = 1) ∧
    (∀ d, (s.die d).replay = 65536) ∧ (∀ c, (s.core c).relC = 0 ∧ (s.core c).codebook = [] ∧ (s.core c).porter.gang = none) ∧
    (∀ line, (s.home line).rv = false ∧ (s.home line).head = none) ∧ (∀ a, readByte s.mem a = 0) ∧ Canonical s ∧
    s.turn.1 = .idle ∧ ∃ t, step s = .next t ∧ t.time = 1) ∧
  ∀ (g : Grid) (core first : Nat) (wait : Bool),
    let c := Crew.allocated g core first wait
    c.core = core ∧ c.cver = g.ver ∧ (∀ n l, c.reg n l = 0) ∧ (∀ n : Fin 48, c.tags[n.val] = .u) ∧
    (∀ k : Fin 8, c.shadow[k.val] = allLanes 0 ∧ c.stags[k.val] = .u) ∧ (∀ p : BitVec 3, p ≠ 0 → c.pred p = 0) ∧ c.pred 0 = fullMask ∧
    (∀ k : Fin 4, c.latches[k.val].valid = false) ∧
    ∀ l, let t := c.th l
      t.pc = g.hdr.entry ∧ t.sup = false ∧ t.rstk = [] ∧ t.rsdep = 0 ∧ t.fstat = 0 ∧ t.pacc = 0 ∧ t.ptot = 0 ∧ t.pmode = false ∧ t.wm = 0 ∧
      t.tlsb = g.lpb.tlbase + BitVec.ofNat 64 (g.lpb.tlstride * (first + l.val)) ∧ (wait = false → t.st = .live)

/-- A STEP RUNS THE DECODED INSTRUCTION. When it is a crew's turn, the word that its next fragment fetches decodes to `i`, and no
unfinished instruction stands before it, nor a lost access of one of its lanes, the step is the execution of `i` by that fragment, then the
crew's place behind the others, then what follows every act. The same for a Porter's word and for an event. A cycle of a core issues a word of one crew in the vector slot
and a word of another in the other slot, each of the crew ready longest, then of the lower place (R320). Who acts is the agenda's choice,
which is the model's (log 9). -/
def Obligations.StepRunsDecoded : Prop :=
  (∀ (s : State) (rest : List Actor) (key : Nat) (c : Crew) (F : Mask) (w : Code) (i : Instr),
    s.agenda = .crew key :: rest → s.crew? key = some c → s.canIssue key c = true → c.nextFrag = some F →
    s.fetch key F (c.fragPc F) = .word w → decodeWord w = .ok i → c.openEntry = none → (∀ l, inMask F l = true → (c.th l).lost = none) →
    step s = settleOutcome (issuedBy (exec i { s with agenda := rest, cur := .frag key F (c.fragPc F) }) key)) ∧
  (∀ (s : State) (rest : List Actor) (core : Nat) (w : Code) (i : Instr),
    let p := (s.core core).porter
    s.agenda = .porter core :: rest → s.porterGoes core = true → p.lo ≤ p.pc.toNat → p.pc.toNat < p.hi → s.porterFetch core = some w →
    decodeWord w = .ok i → step s = settleOutcome (exec i { s with agenda := rest, cur := .porter core })) ∧
  (∀ (s : State) (rest : List Actor) (i : Instr), s.agenda = .event i :: rest → Instr.happens i = true →
    step s = settleOutcome (exec i { s with agenda := rest })) ∧
  ∀ (s : State) (rest : List Actor) (core : Nat), s.agenda = .core core :: rest →
    let u := { s with agenda := rest }
    let fits (vec : Bool) (p : Nat × Crew) : Prop :=
      p ∈ u.crewsOn core ∧ p.2.active = true ∧ u.canIssue p.1 p.2 = true ∧ (u.nextWord p.1 p.2).any vectorWord = vec
    ∃ first : Bool → Option Nat,
      (∀ vec k, first vec = some k → ∃ p, fits vec p ∧ p.1 = k ∧ ∀ q, fits vec q →
        p.2.readySince < q.2.readySince ∨ p.2.readySince = q.2.readySince ∧ p.2.place ≤ q.2.place) ∧
      (∀ vec, first vec = none → ∀ p, ¬fits vec p) ∧
      step s = settleOutcome (match first true, first false with
        | some a, some b => match u.stepCrew a with
          | .next v => v.stepCrew b
          | o => o
        | some a, none => u.stepCrew a
        | none, some b => u.stepCrew b
        | none, none => .next u)

/-- The worked encodings of the spec decode to the instructions they stand for. -/
def Obligations.DecodeWords : Prop :=
  decodeTableWord 32 0x00800003 = some (.rnd 3) ∧ decodeTableWord 32 0x01000003 = some (.guard 3) ∧
  decodeTableWord 32 0x60824A2C = some (.fma 8 9 10 11 0) ∧ decodeTableWord 32 0x2C141889 = some (.icmp 0 1 2 3 4 2 1) ∧
  decodeTableWord 32 0x840E1812 = some (.ld 0 7 3 2 2) ∧ decodeTableWord 32 0x28050000 = some (.limm 0 2 0x10000) ∧
  decodeTableWord 32 0x01400007 = some (.scope 1 3) ∧ decodeTableWord 32 0x980828C0 = some (.atom 0 4 5 6 0 0) ∧
  decodeTableWord 32 0x4C000004 = some (.exit 0) ∧ decodeTableWord 32 0 = some .nop ∧ decodeTableWord 32 0xFFFFFFFF = none

/-- DECODE AND ENCODE AGREE: every well-formed instruction but an event is one word, which decodes to it with every operand, also from the
bytes of the word (R5) with anything after them; and a word decodes to at most the instruction whose encoding it is. -/
def Obligations.DecodeEncode : Prop :=
  (∀ i : Instr, i.wellFormed = true → i.isEvent = false →
    ∃ w, encode i = [w] ∧ decodeWord w = .ok i ∧ ∀ rest, decode (wordBytes w ++ rest) = .ok (i, rest)) ∧
  (∀ (w : Code) (i : Instr), decodeWord w = .ok i → encode i = [w])

/-- The machine never stops: from every state, a step answers a next state, with no fault and no refusal of the model. -/
def Obligations.NeverStops : Prop := ∀ s, goesOn (step s)

/-- An invariant that every step keeps, whatever the state before it (R319, R320): a crew's record of when it became ready is set
exactly while the crew is ready. When that time is set anew is the model's choice (log 58). -/
def Obligations.ReadyRecord : Prop :=
  let inv (s : State) : Prop := ∀ k c, s.crew? k = some c → (c.readySince ≠ 0 ↔ s.ready k c = true)
  inv State.reset ∧ ∀ s t, step s = .next t → inv t

/-- The decode checks of R87 in their order, the first that fails the only one reported, for the whole fragment whatever its guard, with no
effect of the instruction. That an issue from another fragment than the one before finds every latch invalid, and so raises LATCH, is the
model's reading (log 88). -/
def Obligations.DecodeChecks : Prop :=
  ∀ (i : Instr) (s : State) (key : Nat) (F : Mask) (pc : Pc), i.isEvent = false → s.cur = .frag key F pc → (s.crew? key).isSome = true →
    let c := s.crew key
    let code := i.illegal = true ∨ i.isPorter = true ∨ runMisuse i c.run = true ∨ propMissing i (s.hdrOf key) = true
    let reserved := i.badDst = true
    let number := ∃ n ∈ i.regNumbers, (s.hdrOf key).regs ≤ n
    let mode := i.superOnly = true ∧ c.supOf F = false
    let latch := ∃ a ∈ i.srcs, 48 ≤ a ∧ a < 52 ∧
      (c.latches[(a - 48).toNat % 4].valid = false ∨ c.differs F = true)
    let traps (cause : BitVec 8) := TrapsWith i s key F pc cause F fun _ => 0
    (code → traps 0x01) ∧ (¬code → reserved → traps 0x02) ∧ (¬code → ¬reserved → number → traps 0x03) ∧
    (¬code → ¬reserved → ¬number → mode → traps 0x15) ∧ (¬code → ¬reserved → ¬number → ¬mode → latch → traps 0x06)

/-- R17, R18 and R29: shape tags stay true of the values: when every tag of a crew fits the values it stands for, it does so after each of
the first instructions; and the result tags of R18: a write of all lanes takes the row's tag, a partial write G, and RM = DYN gives G. R23
and R25: an instruction with a register result pushes it, a predicate result and a store of a status register push nothing, and an issue
from another fragment, or of an exchanging instruction, or a branch, call, return or table call whose taking lanes go elsewhere, leaves all
four latches invalid unless it traps. The push of an instruction with no taking lane is the model's reading (log 63), and so is the 0 that
a push without destination holds in the lanes outside the fragment (log 86); that an issue from another fragment invalidates the latches
before its operands are read is log 88. -/
def Obligations.TagsAndLatches : Prop :=
  (∀ (g p q : BitVec 3) (d a b c : BitVec 6) (w : BitVec 2) (n : BitVec 6) (m : BitVec 11) (e : BitVec 17),
      ∀ i ∈ [Instr.iadd g d a b w, .isub g d a b w, .imin g d a b w, .nmax g d a b w, .sadd g d a b w, .imulX g d a b, .imulW g d a b,
          .imulhX g d a b, .imulw g d a b, .imadX d a b c, .imadW d a b c, .and g d a b, .popc g d a, .shlX g d a b, .shli g d a w n,
          .sari g d a w n, .bfi g d a b, .seperm g d a b, .sel g d a b, .iaddi g d a m, .xori g d a m, .limm g d e, .mov g d a, .movs g d b,
          .mskr g d a, .lperm g d a b, .lxor g d a b, .lup g d a b, .lbc g d a b, .ballot g d a, .vall g d a, .elect g d, .lpfx g d a,
          .icmp g p q a b p w],
        Completes i (fun s key _ => (s.crew key).TagsFit) fun _ key _ _ t => (t.crew key).TagsFit) ∧
  ∀ (g p q : BitVec 3) (d a b c n : BitVec 6) (w : BitVec 2) (m : BitVec 11) (e : BitVec 17),
    let stride (s : State) (key : Nat) : Int := strideOf s key a
    let product (s : State) (key : Nat) : Int :=
      if strideOf s key b = 0 then stride s key * (srcInt s key 64 b 0).toInt else strideOf s key b * (srcInt s key 64 a 0).toInt
    let oneUniform (s : State) (key : Nat) : Prop := (s.crew key).tagAt a = .u ∨ (s.crew key).tagAt b = .u
    let one (s : State) (key : Nat) (F : Mask) : Prop :=
      (s.crew key).live = F ∧ (s.crew key).restored = none ∧ ∀ m, (s.crew key).last = some m → m &&& ~~~(s.crew key).exited = F
    let other (s : State) (key : Nat) (F : Mask) : Prop :=
      (s.crew key).restored = none ∧ ∃ m, (s.crew key).last = some m ∧ m &&& ~~~(s.crew key).exited ≠ F
    let dead (_ : State) (key : Nat) (_ : Mask) (_ : Pc) (t : State) : Prop := ∀ k : Fin 4, (t.crew key).latches[k.val].valid = false
    let even (s : State) (key : Nat) : Prop := (s.crew key).pred g = fullMask ∨ (s.crew key).pred g = 0
    (RowTag (.mov g d a) d fun s key => (s.crew key).tagAt a) ∧
    RowTag (.iadd g d a b w) d (if w = 0 then affineRow [a, b] fun s key => stride s key + strideOf s key b else allUniform [a, b]) ∧
    RowTag (.isub g d a b w) d (if w = 0 then affineRow [a, b] fun s key => stride s key - strideOf s key b else allUniform [a, b]) ∧
    RowTag (.iaddi g d a m) d (affineRow [a] stride) ∧
    RowTag (.shli g d a w n) d (if w = 0 then affineRow [a] fun s key => stride s key * 2 ^ n.toNat else allUniform [a]) ∧
    (RowTag (.imulX g d a b) d fun s key => if oneUniform s key then affineRow [a, b] product s key else .g) ∧
    (RowTag (.imadX d a b c) d fun s key =>
      if oneUniform s key ∧ (s.crew key).tagAt c = .u then affineRow [a, b] product s key else .g) ∧
    (∀ i ∈ [Instr.limm g d e, .mskr g d a, .lbc g d a b, .ballot g d a, .vany g d a, .vall g d a], RowTag i d fun _ _ => .u) ∧
    (∀ i ∈ [Instr.lxor g d a b, .lup g d a b, .ldown g d a b, .popc g d a, .xori g d a m], RowTag i d (allUniform [a])) ∧
    (∀ i ∈ [Instr.lperm g d a b, .imulW g d a b, .and g d a b, .shlX g d a b, .imin g d a b w, .imulhX g d a b, .seperm g d a b], RowTag i d
      (allUniform [a, b])) ∧
    RowTag (.bfi g d a b) d (allUniform [d, a, b]) ∧
    (RowTag (.sel g d a b) d fun s key => if even s key then allUniform [a, b] s key else .g) ∧
    (∀ i ∈ [Instr.elect g d, .lpfx g d a], RowTag i d fun _ _ => .g) ∧
    (RowTag (.movs g d a) d fun _ _ => if a = 0 then .a else if 11 ≤ a ∧ a ≤ 16 then .g else .u) ∧
    (∀ r ty, RowTag (.fadd g d a b r ty) d fun s key => if r = 7 then .g else allUniform [a, b] s key) ∧
    (∀ i ∈ [Instr.iadd g d a b w, .isub g d a b w, .mov g d a, .movs g d n, .elect g d, .lxor g d a b],
      (Completes i one fun s key F _ t =>
        let x := (s.crew key).latches
        let y := (t.crew key).latches
        y[3] = x[2] ∧ y[2] = x[1] ∧ y[1] = x[0] ∧ y[0].valid = true ∧ (d < 48 → ∀ l, y[0].val.at l = (t.crew key).reg d.toNat l) ∧
        (d = 48 → ∀ l, inMask (taking i s key F) l = false → y[0].val.at l = 0)) ∧
      Completes i other dead) ∧
    (∀ i ∈ [Instr.icmp g p q a b p w, .pand g p q p q, .mskw g p q a, .nop, .stall n, .wrs g a 14],
      (Completes i one fun s key _ _ t => (t.crew key).latches = (s.crew key).latches) ∧ Completes i other dead) ∧
    Completes (.yield g) always dead ∧
    ∀ (i : Instr) (s t : State) (key : Nat) (F : Mask) (pc : Pc), Issues i s key F pc → NoWaits s key → exec i s = .next t →
      (i.leavesSet ∨ taking i s key F ≠ 0 ∧ i.jumps ∨
        (∃ d a b, i = .fcall g d a b) ∧ ∃ l, inMask F l = true ∧ ((t.crew key).th l).pc ≠ pc + 4) →
      (∀ k : Fin 4, (t.crew key).latches[k.val].valid = false) ∨ (t.crew key).slots ≠ (s.crew key).slots ∨
        ∃ l info, inMask F l = true ∧ ((t.crew key).th l).st = .parked (.slotWait info)

/-! ## Integer, logic and cross-lane instructions (R137 to R150) -/

/-- R138: IOP on every sub-element of width w. -/
def Obligations.IntegerOps : Prop :=
  ∀ (g : BitVec 3) (d a b : BitVec 6) (w : BitVec 2),
    SubWise (.iadd g d a b w) (widthOf w) d a b (fun x y => (x + y) % 2 ^ widthOf w) ∧
    SubWise (.isub g d a b w) (widthOf w) d a b (fun x y => wrap (widthOf w) ((x : Int) - y)) ∧
    SubWise (.imin g d a b w) (widthOf w) d a b (fun x y => wrap (widthOf w) (min (signed (widthOf w) x) (signed (widthOf w) y))) ∧
    SubWise (.imax g d a b w) (widthOf w) d a b (fun x y => wrap (widthOf w) (max (signed (widthOf w) x) (signed (widthOf w) y))) ∧
    SubWise (.nmin g d a b w) (widthOf w) d a b min ∧
    SubWise (.nmax g d a b w) (widthOf w) d a b max ∧
    SubWise (.sadd g d a b w) (widthOf w) d a b (fun x y => wrap (widthOf w)
      (max (-(2 ^ (widthOf w - 1))) (min (signed (widthOf w) x + signed (widthOf w) y) (2 ^ (widthOf w - 1) - 1)))) ∧
    SubWise (.ssub g d a b w) (widthOf w) d a b (fun x y => wrap (widthOf w)
      (max (-(2 ^ (widthOf w - 1))) (min (signed (widthOf w) x - signed (widthOf w) y) (2 ^ (widthOf w - 1) - 1))))

/-- R139: IMUL. Products are exact before they are cut to size. -/
def Obligations.Multiplies : Prop :=
  ∀ (g : BitVec 3) (d a b : BitVec 6),
    SubWise (.imulX g d a b) 64 d a b (fun x y => (x * y) % 2 ^ 64) ∧
    SubWise (.imulW g d a b) 32 d a b (fun x y => (x * y) % 2 ^ 32) ∧
    SubWise (.imulhX g d a b) 64 d a b (fun x y => wrap 64 (signed 64 x * signed 64 y / 2 ^ 64)) ∧
    SubWise (.imulhW g d a b) 32 d a b (fun x y => wrap 32 (signed 32 x * signed 32 y / 2 ^ 32)) ∧
    SubWise (.nmulhX g d a b) 64 d a b (fun x y => x * y / 2 ^ 64) ∧
    SubWise (.nmulhW g d a b) 32 d a b (fun x y => x * y / 2 ^ 32) ∧
    Yields (.imulw g d a b) d (fun s key _ l r =>
      r.toInt = ((srcInt s key 32 a l).extractLsb' 0 32).toInt * ((srcInt s key 32 b l).extractLsb' 0 32).toInt) ∧
    Yields (.nmulw g d a b) d (fun s key _ l r =>
      r.toNat = ((srcInt s key 32 a l).extractLsb' 0 32).toNat * ((srcInt s key 32 b l).extractLsb' 0 32).toNat)

/-- R140: IMAD, with the constant views of its three sources. -/
def Obligations.MultiplyAdds : Prop :=
  ∀ (d a b c : BitVec 6),
    Yields (.imadX d a b c) d (fun s key _ l r => r = srcInt s key 64 a l * srcInt s key 64 b l + srcInt s key 64 c l) ∧
    Yields (.imadW d a b c) d (fun s key _ l r => ∀ j, j < 2 →
      subEl 32 r j = (subEl 32 (srcInt s key 32 a l) j * subEl 32 (srcInt s key 32 b l) j + subEl 32 (srcInt s key 32 c l) j) % 2 ^ 32) ∧
    Yields (.imadw d a b c) d (fun s key _ l r =>
      r = BitVec.ofInt 64 (((srcInt s key 32 a l).extractLsb' 0 32).toInt * ((srcInt s key 32 b l).extractLsb' 0 32).toInt +
        (srcInt s key 64 c l).toInt)) ∧
    Yields (.nmadw d a b c) d (fun s key _ l r =>
      r = BitVec.ofNat 64 (((srcInt s key 32 a l).extractLsb' 0 32).toNat * ((srcInt s key 32 b l).extractLsb' 0 32).toNat +
        (srcInt s key 64 c l).toNat))

/-- R142, the rows AND to ORN, POPC, CLZ, CTZ and BREV. -/
def Obligations.LogicOps : Prop :=
  ∀ (g : BitVec 3) (d a b : BitVec 6),
    LaneWise (.and g d a b) d a b (fun x y r => r = x &&& y) ∧
    LaneWise (.or g d a b) d a b (fun x y r => r = x ||| y) ∧
    LaneWise (.xor g d a b) d a b (fun x y r => r = x ^^^ y) ∧
    LaneWise (.andn g d a b) d a b (fun x y r => r = x &&& ~~~y) ∧
    LaneWise (.orn g d a b) d a b (fun x y r => r = x ||| ~~~y) ∧
    LaneWise1 (.popc g d a) d a (fun x r => r.toNat = (List.range 64).countP fun k => x.getLsbD k) ∧
    LaneWise1 (.clz g d a) d a (fun x r => r.toNat ≤ 64 ∧ (∀ k, k < r.toNat → x.getLsbD (63 - k) = false) ∧
      (r.toNat < 64 → x.getLsbD (63 - r.toNat) = true)) ∧
    LaneWise1 (.ctz g d a) d a (fun x r => r.toNat ≤ 64 ∧ (∀ k, k < r.toNat → x.getLsbD k = false) ∧
      (r.toNat < 64 → x.getLsbD r.toNat = true)) ∧
    LaneWise1 (.brev g d a) d a (fun x r => ∀ k, k < 64 → r.getLsbD k = x.getLsbD (63 - k))

/-- R142 and R143: the shifts and rotates, with the count taken modulo the sub-element width, and their immediate forms. -/
def Obligations.Shifts : Prop :=
  ∀ (g : BitVec 3) (d a b : BitVec 6) (w : BitVec 2) (n : BitVec 6),
    let shl (w x k : Nat) : Nat := x * 2 ^ (k % w) % 2 ^ w
    let shr (w x k : Nat) : Nat := x / 2 ^ (k % w)
    let sar (w x k : Nat) : Nat := wrap w (signed w x / 2 ^ (k % w))
    let rol (w x k : Nat) : Nat := (x * 2 ^ (k % w) + x / 2 ^ (w - k % w)) % 2 ^ w
    SubWise (.shlX g d a b) 64 d a b (shl 64) ∧ SubWise (.shlW g d a b) 32 d a b (shl 32) ∧
    SubWise (.shrX g d a b) 64 d a b (shr 64) ∧ SubWise (.shrW g d a b) 32 d a b (shr 32) ∧
    SubWise (.sarX g d a b) 64 d a b (sar 64) ∧ SubWise (.sarW g d a b) 32 d a b (sar 32) ∧
    SubWise (.rolX g d a b) 64 d a b (rol 64) ∧ SubWise (.rolW g d a b) 32 d a b (rol 32) ∧
    SubWise1 (.shli g d a w n) (widthOf w) d a (fun x => shl (widthOf w) x n.toNat) ∧
    SubWise1 (.shri g d a w n) (widthOf w) d a (fun x => shr (widthOf w) x n.toNat) ∧
    SubWise1 (.sari g d a w n) (widthOf w) d a (fun x => sar (widthOf w) x n.toNat) ∧
    SubWise1 (.roli g d a w n) (widthOf w) d a (fun x => rol (widthOf w) x n.toNat)

/-- R144 and the SEL row of R142: bit fields by position p and length n, byte selection, and selection by a predicate. -/
def Obligations.BitFields : Prop :=
  ∀ (g : BitVec 3) (d a b : BitVec 6),
    let p (y : Word) : Nat := (y.extractLsb' 0 6).toNat
    let n (y : Word) : Nat := min (y.extractLsb' 8 7).toNat (64 - p y)
    LaneWise (.bfx g d a b) d a b (fun x y r => ∀ k, k < 64 → r.getLsbD k = (decide (k < n y) && x.getLsbD (p y + k))) ∧
    LaneWise (.bfxs g d a b) d a b (fun x y r => ∀ k, k < 64 →
      r.getLsbD k = (decide (n y ≠ 0) && x.getLsbD (p y + min k (n y - 1)))) ∧
    Yields (.bfi g d a b) d (fun s key _ l r => ∀ k, k < 64 →
      let old : Word := if d < 48 then (s.crew key).reg d.toNat l else 0
      let y := srcInt s key 64 b l
      r.getLsbD k = if p y ≤ k ∧ k < p y + n y then (srcInt s key 64 a l).getLsbD (k - p y) else old.getLsbD k) ∧
    LaneWise (.seperm g d a b) d a b (fun x y r => ∀ j, j < 8 →
      let sel := (y.extractLsb' (4 * j) 4).toNat
      subEl 8 r j = if sel < 8 then subEl 8 x sel else 0) ∧
    Completes (.sel g d a b) always (fun s key F pc t => WritesReg s t key F pc d F fun l =>
      if inMask ((s.crew key).pred g) l then srcInt s key 64 a l else srcInt s key 64 b l)

/-- R141 and R82: the immediate forms under every run of at most three XIMM words. -/
def Obligations.Immediates : Prop :=
  ∀ (g : BitVec 3) (d a : BitVec 6) (m : BitVec 11) (n : BitVec 17),
    WithImm (.iaddi g d a m) d a m (fun x i => x + i) ∧
    WithImm (.andi g d a m) d a m (fun x i => x &&& i) ∧
    WithImm (.ori g d a m) d a m (fun x i => x ||| i) ∧
    WithImm (.xori g d a m) d a m (fun x i => x ^^^ i) ∧
    WithImm (.limm g d n) d 52 n (fun _ i => i)

/-- R145, R147, R148 and the MOV row of R149: comparisons, predicate logic, whole predicate masks, and the move. -/
def Obligations.PredicatesAndMasks : Prop :=
  ∀ (g p q x y : BitVec 3) (a b i : BitVec 6) (k : BitVec 3) (w : BitVec 2),
    let cond (u v : BitVec (widthOf w)) : Bool :=
      [u == v, u != v, decide (u.toInt < v.toInt), decide (u.toInt ≤ v.toInt), decide (u.toInt > v.toInt), decide (u.toInt ≥ v.toInt),
        decide (u.toNat < v.toNat), decide (u.toNat ≤ v.toNat)].getD k.toNat false
    Decides (.icmp g p q a b k w) p q (fun s key l =>
      cond ((srcInt s key (widthOf w) a l).setWidth _) ((srcInt s key (widthOf w) b l).setWidth _)) ∧
    Completes (.icmpi g p q a i k w) (fun s key _ => (immediate (ximms s key) i).isSome = true) (fun s key F pc t =>
      ∀ imm, immediate (ximms s key) i = some imm →
        WritesPred s t key F pc p q (taking (.icmpi g p q a i k w) s key F) fun l =>
          cond ((srcInt s key (widthOf w) a l).setWidth _) (imm.setWidth _)) ∧
    Decides (.pand g p q x y) p q (fun s key l => inMask ((s.crew key).pred x) l && inMask ((s.crew key).pred y) l) ∧
    Decides (.por g p q x y) p q (fun s key l => inMask ((s.crew key).pred x) l || inMask ((s.crew key).pred y) l) ∧
    Decides (.pxor g p q x y) p q (fun s key l => inMask ((s.crew key).pred x) l != inMask ((s.crew key).pred y) l) ∧
    Decides (.pandn g p q x y) p q (fun s key l => inMask ((s.crew key).pred x) l && !inMask ((s.crew key).pred y) l) ∧
    Decides (.pnot g p q x) p q (fun s key l => !inMask ((s.crew key).pred x) l) ∧
    ∀ (d : BitVec 6),
      Yields (.mskr g d a) d (fun s key _ _ r => r = ((s.crew key).pred (a.setWidth 3)).setWidth 64) ∧
      Decides (.mskw g p q a) p q (fun s key l => (srcInt s key 64 a l).getLsbD l.val) ∧
      LaneWise1 (.mov g d a) d a (fun x r => r = x)

/-- R150: the cross-lane instructions. A source lane is any lane of the crew; only the taking lanes write. -/
def Obligations.CrossLane : Prop :=
  ∀ (g : BitVec 3) (d a b : BitVec 6),
    let num (y : Word) : Nat := (y.extractLsb' 0 5).toNat
    let A (s : State) (key : Nat) (n : Nat) : Word := if h : n < 32 then srcInt s key 64 a ⟨n, h⟩ else 0
    let B (s : State) (key : Nat) (l : Lane) : Word := srcInt s key 64 b l
    Yields (.lperm g d a b) d (fun s key _ l r => ∀ j, j < 8 →
      let y := subEl 8 (B s key l) j
      subEl 8 r j = subEl 8 (A s key (y / 8)) (y % 8)) ∧
    Yields (.lxor g d a b) d (fun s key _ l r => r = A s key (l.val ^^^ num (B s key l))) ∧
    Yields (.lup g d a b) d (fun s key _ l r =>
      r = if num (B s key l) ≤ l.val then A s key (l.val - num (B s key l)) else A s key l.val) ∧
    Yields (.ldown g d a b) d (fun s key _ l r =>
      r = if l.val + num (B s key l) ≤ 31 then A s key (l.val + num (B s key l)) else A s key l.val) ∧
    Yields (.lbc g d a b) d (fun s key F _ r => ∀ k, lowest (taking (.lbc g d a b) s key F) = some k → r = A s key (num (B s key k))) ∧
    Yields (.ballot g d a) d (fun s key F _ r => ∀ k : Lane, r.getLsbD k.val = (inMask (taking (.ballot g d a) s key F) k &&
      srcInt s key 64 a k != 0) ∧ r.toNat < 2 ^ 32) ∧
    Yields (.vany g d a) d (fun s key F _ r =>
      ((∃ k, inMask (taking (.vany g d a) s key F) k = true ∧ srcInt s key 64 a k ≠ 0) → r = 1) ∧
      ((∀ k, inMask (taking (.vany g d a) s key F) k = true → srcInt s key 64 a k = 0) → r = 0)) ∧
    Yields (.vall g d a) d (fun s key F _ r =>
      ((∀ k, inMask (taking (.vall g d a) s key F) k = true → srcInt s key 64 a k ≠ 0) → r = 1) ∧
      ((∃ k, inMask (taking (.vall g d a) s key F) k = true ∧ srcInt s key 64 a k = 0) → r = 0)) ∧
    Yields (.elect g d) d (fun s key F l r => r = if lowest (taking (.elect g d) s key F) = some l then 1 else 0) ∧
    Yields (.lpfx g d a) d (fun s key F l r =>
      r = ((List.finRange 32).filter fun k => inMask (taking (.lpfx g d a) s key F) k && decide (k ≤ l)).foldl
        (fun n k => n + srcInt s key 64 a k) 0)

/-! ## Events of cores and engines -/

/-- R85, R91, R151, R152, R184, R277, R320, R321, R324, R351: the end of a STALL and of a SLEEP, the fairness switch, the forced exchange of
the active set, which waits for the end of a hint run, the wake of an LDP whose lines are present, and a trap that gets its frame slot;
nothing else changes, a crew that does not exist is left alone, and so is one whose core has no clock. The time of readiness is the model's
choice (log 58); so are the count of issues by one set of threads (log 87) and the time that a fragment has existed without issuing, which
the model counts in issues (log 109). -/
def Obligations.CoreEvents : Prop :=
  (∀ (s : State) (key : Nat), s.crew? key = none → ∀ i ∈ [Instr.stallExpiry key, .sleepExpiry key, .fairnessSwitch key, .ldpPresenceWake key,
    .trapVector key], exec i s = .next s) ∧
  (∀ (s : State) (key : Nat) (c : Crew), s.crew? key = some c →
    let becomes (i : Instr) (c' : Crew) : Prop := ∃ t, exec i s = .next t ∧ OnlyCrew s t key ∧ t.crew? key = some c'
    let woken (p : Park → Bool) : Crew := c.updThr (maskOf fun l => match (c.th l).st with
      | .parked w => p w
      | _ => false) fun _ th => { th with st := .live }
    let older (m n : Mask) : Prop := c.fragAge m < c.fragAge n ∨ c.fragAge m = c.fragAge n ∧
      ((c.fragPc m).toNat < (c.fragPc n).toNat ∨ c.fragPc m = c.fragPc n ∧ ∃ l, inMask m l = true ∧ ∀ k, inMask n k = true → l ≤ k)
    (s.clocked c.core = false → ∀ i ∈ [Instr.stallExpiry key, .sleepExpiry key, .ldpPresenceWake key, .trapVector key], exec i s = .next s) ∧
    (s.clocked c.core = true → becomes (.stallExpiry key) (if c.stall ≤ s.time then { c with stall := 0 } else c) ∧
      becomes (.sleepExpiry key) (woken fun w => match w with
        | .asleep n => decide (n ≤ s.time)
        | _ => false) ∧
      becomes (.ldpPresenceWake key) (woken fun w => match w with
        | .presence ls => ls.all fun n => !(s.gang (gangOf key)).absent.any fun a => a.line = n
        | _ => false)) ∧
    (c.same < 64 → becomes (.fairnessSwitch key) c) ∧
    (64 ≤ c.same → (∃ m ∈ c.frags, m ≠ c.sameSet) → ∃ m ∈ c.frags, m ≠ c.sameSet ∧ (∀ n ∈ c.frags, n ≠ c.sameSet → older m n) ∧
      becomes (.fairnessSwitch key) { c with force := some m }) ∧
    ((∀ l t, (c.th l).st ≠ .parked (.slotWait t)) ∨ (∀ k : Fin 4, c.slots[k] ≠ none) → exec (.trapVector key) s = .next s) ∧
    (s.clocked c.core = true → ∀ k : Fin 4, c.slots[k] = none → ∀ l info, (c.th l).st = .parked (.slotWait info) →
      (∀ l' info', (c.th l').st = .parked (.slotWait info') → info' = info) → exec (.trapVector key) s = .next (s.takeTrap key info))) ∧
  (∀ (c : Crew) (m : Mask), c.nextFrag = some m → c.run = none → c.force = none → c.same < 64 →
    m ≠ 0 ∧ (∀ l, inMask m l = true → (c.th l).st = .live) ∧
    ∀ l k, inMask m l = true → (c.th k).st = .live → (c.th l).pc.toNat ≤ (c.th k).pc.toNat) ∧
  ∀ (s : State) (core : Nat), (s.crews.map Prod.fst).Nodup →
    let on (k : Nat) (c : Crew) : Prop := s.crew? k = some c ∧ c.core = core ∧ (s.gang (gangOf k)).core0.isSome = true
    let waits (k : Nat) (c : Crew) : Prop := on k c ∧ c.active = false ∧ s.ready k c = true
    let eldest (j : Nat) (x : Crew) : Prop := on j x ∧ x.active = true ∧
      ∀ j' x', on j' x' → x'.active = true → j' ≠ j → x.activeSince < x'.activeSince
    (s.clocked core = false ∨ s.time < (s.core core).lastJoin + 1024 ∨ (∀ k c, ¬waits k c) ∨ (∃ j x, eldest j x ∧ x.run ≠ none) →
      exec (.forcedExchange core) s = .next s) ∧
    (s.clocked core = true → (s.core core).lastJoin + 1024 ≤ s.time → (∃ k c, waits k c) → (∀ j x, on j x → x.active = true → x.run = none) →
      ∃ t k c, exec (.forcedExchange core) s = .next t ∧ waits k c ∧
      (∀ k' c', waits k' c' → c.readySince ≤ c'.readySince) ∧ t.crew? k = some { c with active := true, activeSince := s.time } ∧
      t.core core = { s.core core with lastJoin := s.time } ∧ { t with crews := s.crews, cores := s.cores } = s ∧
      (∀ n, n ≠ core → t.core n = s.core n) ∧
      (((∀ j x, on j x → x.active = false) ∧ ∀ j, j ≠ k → t.crew? j = s.crew? j) ∨
        ∃ j x, on j x ∧ x.active = true ∧ (∀ j' x', on j' x' → x'.active = true → x.activeSince ≤ x'.activeSince) ∧
          t.crew? j = some { x with active := false, stall := 0 } ∧ ∀ n, n ≠ k → n ≠ j → t.crew? n = s.crew? n))

/-- R214, R224, R226 to R228, R258, R259, R351: a copy inside the scratchpad writes its bytes and makes its lines present; a stopped Porter
resumes; a job makes its ZERO step, its chunks, its copy to staging and its end in turn, and waits for what an earlier job holds, for its
core's clock and for a pre-emption (R335); Foreman retries a held job or cancels it (log 98) and repairs, or gives up, an operand. The arithmetic of
a chunk (R105, R111, R113): exact products and one sum with one rounding for each element of its tile, or the sum of integers that wraps, and
no other byte of accumulator space; a poisoned operand poisons the tile. What an epilogue computes and where it stores a tile (R93, R220): an
output NaN is the canonical one, also where R110 would keep a sign (log 113). -/
def Obligations.EngineEvents : Prop :=
  (∀ (s : State) (core n : Nat), let p := (s.core core).porter
    ((∀ y ∈ p.copies, y.id ≠ n) ∨ p.stopped ≠ none → exec (.porterCopyComplete core n) s = .next s) ∧
    ∀ y dst src len, p.copies.find? (fun y => y.id = n) = some y → p.stopped = none → s.clocked core = true →
      y.kind = .lin dst src len → y.shadow = false → y.done = 0 →
      let g := s.gang y.gang
      let base : Nat := 0xFFFFFFFFFF000000
      let fits (a : Nat) : Prop := base ≤ a ∧ a + len ≤ base + g.hdr.scratch ∧ g.hdr.scratch ≤ 2 ^ 24 ∧
        ∀ k, k < len → pieceMapped g (a - base + k) = true ∧ g.scratchPoison.contains ((a - base + k) / 128) = false
      Memory.wf g.scratch = true → fits dst → fits src → dst + len ≤ src ∨ src + len ≤ dst → ∃ t, exec (.porterCopyComplete core n) s = .next t ∧
        { t with gangs := s.gangs, cores := s.cores, fresh := s.fresh } = s ∧ (∀ m, m ≠ core → t.core m = s.core m) ∧
        t.core core = { s.core core with porter := { p with copies := p.copies.filter fun z => z.id ≠ n } } ∧
        (∀ m, m ≠ y.gang → t.gang m = s.gang m) ∧
        (t.gang y.gang).absent = g.absent.filter (fun a => a.core ≠ core ∨ a.copy ≠ n) ∧
        ∀ m, readByte (t.gang y.gang).scratch m =
          if dst ≤ base + m ∧ base + m < dst + len then readByte g.scratch (src + m - dst) else readByte g.scratch m) ∧
  (∀ (s : State) (core : Nat), ∃ t, exec (.porterResume core) s = .next t ∧
    PorterBecomes s t core { (s.core core).porter with stopped := none }) ∧
  (∀ (s : State) (core n : Nat),
    let events : List Instr := [.matrixChunk core n, .jobEpilogue core n, .foremanRetryJob core n, .foremanRepairOperand core n true,
      .foremanRepairOperand core n false]
    ((s.core core).jobs[n]? = none → ∀ i ∈ events, exec i s = .next s) ∧
    ∀ j, (s.core core).jobs[n]? = some j →
      let c := cardOf j.card
      let only (u t : State) (j' : Job) : Prop := { t with cores := u.cores } = u ∧ (∀ m, m ≠ core → t.core m = u.core m) ∧
        t.core core = { u.core core with jobs := (u.core core).jobs.set n j' }
      let becomes (i : Instr) (j' : Job) : Prop := ∃ t, exec i s = .next t ∧ only s t j'
      let turned (j : Job) : Job :=
        let j' := { j with batch := min (j.batch + 1) 65535, iter := j.iter + 1, next := 0, staging := none }
        if j.iter + 1 = c.iters then { j' with st := .done }
        else { j' with st := if j.only then .epilogue else .running, stored := [], tried := [] }
      let went (j : Job) : Job :=
        let j' := { j with next := j.next + 1, st := .running }
        if j.next + 1 ≤ c.steps then j'
        else if c.epi then { j' with st := .epilogue, stored := [], tried := [] } else { turned j' with stored := [] }
      let mine (k : Job) : Prop := k.owns = true ∧ j.meets k = true
      let before : List Job := (s.core core).jobs.take n
      let free : Prop := (∀ k ∈ before, ¬mine k) ∧ (before.filter Job.waiting).length < 16
      let waits : Prop := j.st = .queued ∨ j.st = .running
      let goes : Prop := s.clocked core = true ∧ (s.gang j.gang).leaving = false
      (¬waits ∨ j.stuck = true ∨ ¬free ∨ ¬goes → exec (.matrixChunk core n) s = .next s) ∧
      (waits → j.stuck = false → free → goes → j.only = true → becomes (.matrixChunk core n) { j with st := .epilogue }) ∧
      (waits → j.stuck = false → free → goes → j.only = false → j.next = 0 → ∃ t, exec (.matrixChunk core n) s = .next t ∧
        only { s with gangs := t.gangs } t (went j) ∧ (c.zero = false → t.gangs = s.gangs) ∧ (c.zero = true →
          (∀ m, m ≠ j.gang → t.gang m = s.gang m) ∧ ∀ b, readByte (t.gang j.gang).acc b =
            if ∃ m, m < c.m ∧ c.base + m * c.ld * c.acc.bytes ≤ b ∧ b < c.base + m * c.ld * c.acc.bytes + c.n * c.acc.bytes then 0
            else readByte (s.gang j.gang).acc b)) ∧
      (waits → j.stuck = false → free → goes → j.only = false → j.next ≠ 0 →
        let at_ (k : Nat) : Nat := c.indexOf k (j.next - 1)
        (∀ j' u, j.chunk core (at_ 0) (at_ 1) (at_ 2) s = (.ok j', u) → ∃ t, exec (.matrixChunk core n) s = .next t ∧ only u t (went j')) ∧
        ∀ f u, j.chunk core (at_ 0) (at_ 1) (at_ 2) s = (.error (.fault f), u) → ∃ t, exec (.matrixChunk core n) s = .next t ∧
          t.reports = u.reports ++ [Report.job core j.seq f.addr] ∧
          (t.core core).jobs = (u.core core).jobs.set n { j with stuck := true, st := .running, fault := some (f.addr, f.cause) }) ∧
      (j.st ≠ .epilogue ∨ ¬goes → exec (.jobEpilogue core n) s = .next s) ∧
      (j.st = .epilogue → goes → j.staging = none →
        let open_ : Prop := (∀ k ∈ (s.core core).jobs, k.staging = none) ∧
          ∀ k ∈ before, ¬mine k ∧ ¬(k.ended = false ∧ k.stores = true ∧ s.destMeets j k = true)
        (¬open_ → exec (.jobEpilogue core n) s = .next s) ∧
        (open_ → ∃ t, exec (.jobEpilogue core n) s = .next t ∧ ∃ bases, only s t { j with
          staging := some (stagingOf c (s.gang j.gang)), stored := [], tried := [], fault := none, shadows := bases })) ∧
      (j.st = .epilogue → goes → ∀ st k, j.staging = some st → k < c.tm * c.tn → k ∉ j.stored → k ∉ j.tried →
        (∀ i, i < k → i ∈ j.stored ∨ i ∈ j.tried) → ∀ runs poison u, c.tileStores (s.jobWho core j) st j.destOff k s = (.ok (runs, poison), u) →
        u.tileHeld j runs = false →
        let out := jobStores (s.jobWho core j) c.e.shadow poison (runs.flatMap fun q => pieces8 (q.2.length + 1) q.1 q.2) u
        let j' := { j with opened := j.opened ++ out.2.1, poisoned := j.poisoned || poison, tried := j.tried ++ [k] }
        ∃ t, exec (.jobEpilogue core n) s = .next t ∧ only out.2.2 t (match out.1 with
          | none => { j' with stored := j.stored ++ [k] }
          | some f => { j' with fault := j.fault.or (some (f.addr, f.cause)) })) ∧
      (j.st = .epilogue → goes → ∀ st, j.staging = some st → (∀ k, k < c.tm * c.tn → k ∈ j.stored ∨ k ∈ j.tried) →
        becomes (.jobEpilogue core n) (if j.fault = none then turned j else { j with st := .held })) ∧
      becomes (.foremanRetryJob core n) (if j.st = .held then { j with st := .epilogue, tried := [], fault := none } else j) ∧
      (j.st = .held → exec (.foremanRepairOperand core n true) s = .next s ∧
        (j.opened = [] → becomes (.foremanRepairOperand core n false) { j with st := .cancelled, staging := none, stuck := false })) ∧
      (j.st ≠ .held → ∀ ok, (j.stuck = false → exec (.foremanRepairOperand core n ok) s = .next s) ∧
        (j.stuck = true → becomes (.foremanRepairOperand core n ok)
          { j with stuck := false, fault := none, st := if ok then j.st else .faulted }))) ∧
  (∀ x y, ProductIs x y (mulExact x y)) ∧
  (∀ (acc : Nat) (vs ws : List Int), let sum := signed 32 acc + (vs.zipWith (· * ·) ws).sum
    chunkSum .int acc (vs.map intNum) (ws.map intNum) = (wrap 32 sum, decide (signed 32 (wrap 32 sum) ≠ sum))) ∧
  (∀ p ∈ [(AccFmt.d, fmtD), (AccFmt.s, fmtS)], ∀ (acc : Nat) (xs ys : List Machine.Num),
    let terms := decodeFp p.2 acc :: xs.zipWith mulExact ys
    ∃ sum, SumIs (terms.all numSign) terms sum ∧ Rounded p.2 0 sum (chunkSum p.1 acc xs ys).1 ∧ (chunkSum p.1 acc xs ys).2 = false) ∧
  (∀ (j : Job) (core mt nt ck : Nat) (s s₁ s₂ : State) (as bs : List RowPart),
    let c := cardOf j.card
    let env : OpEnv := { who := s.jobWho core j, cb := j.codebook.getD [], k := c.k }
    let off (f : Level → Int) : Word := BitVec.ofInt 64 (c.offset f j.iter)
    let part (o : Operand) (f : Level → Int) (n : Nat) : Rd RowPart := o.rowPart env (off f) (ck * c.kc) (min c.k (ck * c.kc + c.kc)) n
    let w := c.acc.bytes
    let g := s₂.gang j.gang
    let bad := as.any (fun p => p.poison) || bs.any (fun p => p.poison) || c.tilePoisoned g mt nt
    ((c.rows mt).mapM (part c.a Level.a)) s = (.ok as, s₁) → ((c.cols nt).mapM (part c.b Level.b)) s₁ = (.ok bs, s₂) →
    Memory.wf g.acc = true → c.n ≤ c.ld → ∃ j' t, j.chunk core mt nt ck s = (.ok j', t) ∧
      { t with gangs := s₂.gangs, dies := s₂.dies } = s₂ ∧ (∀ k, k ≠ j.gang → t.gang k = s₂.gang k) ∧
      let at_ (x y : Nat) : Nat := c.elemAt (16 * mt + x) (16 * nt + y)
      let value (x y : Nat) (A B : RowPart) : Nat × Bool := chunkSum c.acc (readNat g.acc (at_ x y) w) A.vals B.vals
      (∀ x y A B, as[x]? = some A → bs[y]? = some B →
        readNat (t.gang j.gang).acc (at_ x y) w = (value x y A B).1 % 2 ^ (8 * w)) ∧
      (∀ b, (∀ x y, x < as.length → y < bs.length → b < at_ x y ∨ at_ x y + w ≤ b) → readByte (t.gang j.gang).acc b = readByte g.acc b) ∧
      (j'.wrapped = true ↔ j.wrapped = true ∨ ∃ x y A B, as[x]? = some A ∧ bs[y]? = some B ∧ (value x y A B).2 = true) ∧
      j'.poisoned = (j.poisoned || bad) ∧
      ∀ a, a ∈ (t.gang j.gang).accPoison ↔ a ∈ g.accPoison ∨ bad = true ∧ a ∈ c.tileWords mt nt) ∧
  (∀ (e : Epi) (w : Who) (v : Machine.Num) (m n : Nat) (s s₁ s₂ : State) (x y : Option Machine.Num) (p q : Bool), e.scl ≤ 2 → e.bias ≤ 2 →
    VectorRead w e.scl (if e.scl = 1 then some (decodeFp fmtS (e.svec.toNat % 2 ^ 32)) else none) (e.svec + BitVec.ofNat 64 (4 * n)) s x p s₁ →
    VectorRead w e.bias none (e.bvec + BitVec.ofNat 64 (4 * (if e.bias = 1 then n else m))) s₁ y q s₂ →
    ∃ a b r, e.value w v m n s = (.ok (r, p || q), s₂) ∧
      (match x with
        | none => a = v
        | some x => ProductIs v x a) ∧
      (match y with
        | none => b = a
        | some y => SumIs (if numSign a = numSign y then numSign a else BitVec.ofNat 3 e.orm = 4) [a, y] b) ∧
      (b.isNaN = true ∨ e.act = 0 → r = b) ∧
      (e.act = 1 → Machine.Num.below b (.fin false 0 0) ∨ (∃ k, b = .fin true 0 k) → r.same (.fin false 0 0)) ∧
      (e.act = 1 → Machine.Num.below (.fin false 0 0) b → r = b) ∧
      let lo := decodeFp fmtS e.clo
      let hi := decodeFp fmtS e.chi
      (e.act = 2 → Machine.Num.below lo hi → (Machine.Num.below b lo → r = lo) ∧ (Machine.Num.below hi b → r = hi) ∧ (Machine.Num.below lo b → Machine.Num.below b hi → r = b))) ∧
  (∀ (rm : BitVec 3) (x : Machine.Num), rm.toNat ≤ 5 →
    (∀ p ∈ [(0x00, fmtD), (0x01, fmtS), (0x03, fmtBf), (0x04, fmtH), (0x05, fmtE5M2)],
      Rounded p.2 rm x (convertOut p.1 rm x).1 ∧ (convertOut p.1 rm x).2 = false) ∧
    convertOut 0x06 rm x = (match x with
      | .fin n m e => (roundNum fmtE4M3 rm n m e false).1
      | .inf n => if n then 0xFF else 0x7F
      | .nan _ _ _ => 0x7F, false) ∧
    (∀ p ∈ [(0x07, fmtE3M2), (0x08, fmtE2M3), (0x0A, fmtE2M1), (0x0B, fmtE3M4)], convertOut p.1 rm x = match x with
      | .fin n m e => ((roundNum p.2 rm n m e false).1, false)
      | .inf n => (codeMax p.2 n, false)
      | .nan _ _ _ => (0, true)) ∧
    ∀ p ∈ [(0x0C, 16, true), (0x0D, 8, true), (0x0E, 8, false), (0x0F, 4, true), (0x10, 4, false)],
      let w := p.2.1
      let lo : Int := if p.2.2 then -(2 ^ (w - 1)) else 0
      let hi : Int := if p.2.2 then 2 ^ (w - 1) - 1 else 2 ^ w - 1
      convertOut p.1 rm x = match x with
        | .fin n m e => (wrap w (max lo (min hi (if n then -(integral rm n m e : Int) else integral rm n m e))), false)
        | .inf n => (wrap w (if n then lo else hi), false)
        | .nan _ _ _ => (0, true)) ∧
  ∀ (c : Card) (w : Who) (st : List Byte × List Nat) (off : Int) (k : Nat) (s s₁ s₂ : State) (vals : List (List (Machine.Num × Bool))),
    let at_ := c.outRows (k / c.tn) (k % c.tn)
    let bits := fmtBits c.e.ofmt
    c.e.ofmt ≤ 0x10 → c.e.ofmt ≠ fE2M1 → at_.2 ≠ [] → c.tileBad w st k s = (.ok false, s₁) →
    (at_.1.mapM fun o => at_.2.mapM fun i => c.outValue w st.1 o i) s₁ = (.ok vals, s₂) →
    let codes := vals.map fun row => row.map fun v => convertOut c.e.ofmt (BitVec.ofNat 3 c.e.orm) v.1
    ((codes.any fun row => row.any Prod.snd) = false → c.tileStores w st off k s = (.ok ((at_.1.zip codes).map fun p =>
      (c.e.dbase + BitVec.ofInt 64 off + BitVec.ofNat 64 (p.1 * c.e.dstride + at_.2.headD 0 * bits / 8), packCodes bits (p.2.map Prod.fst)),
      false), s₂)) ∧
    ((codes.any fun row => row.any Prod.snd) = true → ∃ runs, c.tileStores w st off k s = (.ok (runs, true), s₂) ∧
      ∀ p ∈ runs, ∀ b ∈ p.2, b = 0)

/-! ## Coherence and translation (R192, R288 to R302, R342) -/

/-- R297 to R302, R305: each message of the sharer lists at the member or home that it reaches: SETPREV, SETNEXT, FETCH, PURGE and its PURGED,
which a member without a copy forwards along its last pointers; a FETCH at a die also takes M from its own head core; LEAVE, which no other transaction of the line divides; JOIN puts its member
at the head in S and UPG makes it the only one, in M; recalls, release and acquire transactions at a line's home, and a back-invalidate
snoop of a line that no list holds. What a dead die sends is dropped and counted. -/
def Obligations.SharerLists : Prop :=
  (∀ (s : State) (line : Nat) (m : Member),
    let links (t : State) (k : Member) : Option (Option Nat × Option Nat × Bool) := t.memberLinks line k
    let next (i : Instr) (post : State → Prop) : Prop := ∃ t, exec i s = .next t ∧ t.mem = s.mem ∧ t.crews = s.crews ∧ t.gangs = s.gangs ∧ post t
    let same (t : State) : Prop := (∀ k, k ≠ m → links t k = links s k) ∧ t.fabric = s.fabric
    let tells (i : Instr) (t : State) : Prop := t.fabric = s.fabric ++ [⟨i, memberDie m, s.incarnations.getD (memberDie m) 0⟩]
    let other (k : Nat) : Member := peerOf m k
    let last := s.lastPtrs line m
    let lives : Prop := (s.die (memberDie m)).alive = true
    let under (k : Member) : Prop := ∃ d c, m = .die d ∧ ((s.die d).l2.get? line).bind (fun e => e.head) = some c ∧ k = .core c
    let bare : Prop := match m with
      | .core c => (s.core c).l1.get? line = none
      | .die d => (s.die d).l2.get? line = none
    (¬lives → ∀ i ∈ [Instr.join line m, .upg line m, .purged line m, .leave line m], exec i s = .next { s with dropped := s.dropped + 1 }) ∧
    (links s m = none →
      (∀ d, (last.1 = none → exec (.setprev line m d) s = .next s) ∧ (last.2 = none → exec (.setnext line m d) s = .next s) ∧
        (∀ n, last.1 = some n → next (.setprev line m d) (tells (.setprev line (other n) d))) ∧
        ∀ n, last.2 = some n → next (.setnext line m d) (tells (.setnext line (other n) d))) ∧
      (∀ d, (last.1 = none → exec (.fetch line m d) s = .next s) ∧
        ∀ n, last.1 = some n → next (.fetch line m d) (tells (.fetch line (other n) d))) ∧
      (lives → s.fabric = [] → exec (.leave line m) s = .next s) ∧
      next (.purge line m) (tells (match last.1 with
        | some n => .purge line (other n)
        | none => .purged line m))) ∧
    (∀ nx pv mod, links s m = some (nx, pv, mod) →
      (∀ d, next (.setprev line m d) (fun t => same t ∧ links t m = some (nx, d, mod)) ∧
        next (.setnext line m d) fun t => same t ∧ links t m = some (d, pv, mod)) ∧
      next (.fetch line m false) (fun t => links t m = some (nx, pv, false) ∧ t.fabric = s.fabric ∧ ∀ k, k ≠ m →
        (¬under k → links t k = links s k) ∧ (under k → links t k = (links s k).map fun x => (x.1, x.2.1, false))) ∧
      next (.fetch line m true) (fun t => same t ∧ links t m = none) ∧
      next (.purge line m) (fun t => links t m = none ∧ tells (match nx with
        | some n => .purge line (other n)
        | none => .purged line m) t) ∧
      let peer (n : Nat) : Prop := n ≠ memberNum m ∧ (links s (other n)).isSome = true
      (lives → s.fabric = [] → (∀ p, pv = some p → peer p ∧ nx ≠ some p) → (∀ n, nx = some n → peer n) →
        next (.leave line m) fun t => links t m = none ∧ t.fabric = [] ∧ (pv = none → t.listHead line m = nx) ∧
          (∀ p a b c, pv = some p → links s (other p) = some (a, b, c) → links t (other p) = some (nx, b, c)) ∧
          ∀ n a b c, nx = some n → links s (other n) = some (a, b, c) → links t (other n) = some (a, pv, c))) ∧
    (lives → next (.purged line m) fun t => t.listHead line m = none ∧ t.fabric = s.fabric) ∧
    (lives → s.fabric = [] → bare →
      (∀ c, m = .core c → ((s.core c).l1.filter fun p => p.1 % 128 = line % 128).length < s.waysOf c) →
      (s.listHead line m = none →
        next (.join line m) (fun t => links t m = some (none, none, false) ∧ t.listHead line m = some (memberNum m)) ∧
        next (.upg line m) fun t => links t m = some (none, none, true) ∧ t.listHead line m = some (memberNum m)) ∧
      ∀ h nx pv mod, s.listHead line m = some h → links s (other h) = some (nx, pv, mod) → h ≠ memberNum m →
        (∀ c, m = .core c → h / 32 = c / 32) →
        next (.join line m) (fun t => links t m = some (some h, none, false) ∧ t.listHead line m = some (memberNum m) ∧
          links t (other h) = some (nx, some (memberNum m), false) ∧ t.fabric = []) ∧
        (nx = none → next (.upg line m) fun t => links t m = some (none, none, true) ∧ t.listHead line m = some (memberNum m) ∧
          links t (other h) = none ∧ t.fabric = []))) ∧
  ∀ (s : State) (core line : Nat),
    let copy (t : State) (n : Nat) : Option L1Line := (t.core core).l1.get? n
    let below (m r : BitVec 32) : Prop := 1 ≤ (r - m).toNat ∧ (r - m).toNat ≤ 2 ^ 31 - 1
    let h := s.home line
    let lives : Prop := (s.die (core / 32)).alive = true
    let recalled (rseq : BitVec 32) (t : State) : Prop := ((s.core core).l1.map Prod.fst).Nodup →
      ∀ n e, copy s n = some e → (e.dirty ≠ 0 ∧ below e.mark rseq → copy t n = some { e with dirty := 0 }) ∧
        (¬(e.dirty ≠ 0 ∧ below e.mark rseq) → copy t n = some e)
    let named : Prop := h.rv = true ∧ h.rcore.toNat = core
    (¬lives → ∀ i ∈ [Instr.recallAck line core, .homeReleaseTransaction line core, .homeAcquireTransaction line core],
      exec i s = .next { s with dropped := s.dropped + 1 }) ∧
    (∀ rseq, ∃ t, exec (.recall core rseq) s = .next t ∧ recalled rseq t) ∧
    (lives → (named → ∃ t, exec (.recallAck line core) s = .next t ∧ t.home line = { h with rd := true } ∧ recalled h.rseq t) ∧
      (¬named → exec (.recallAck line core) s = .next s) ∧
      (∃ t, exec (.homeReleaseTransaction line core) s = .next t ∧ (t.core core).relC = (s.core core).relC + 1 ∧
        (t.home line).rv = true ∧ (t.home line).rcore = BitVec.ofNat 8 core ∧ (t.home line).rseq = (s.core core).relC + 1 ∧
        (t.home line).rd = false ∧ (t.home line).lost = false) ∧
      (named ∧ h.lost = false → exec (.homeAcquireTransaction line core) s = .next s) ∧
      (¬(named ∧ h.lost = false) → ∃ t, exec (.homeAcquireTransaction line core) s = .next t ∧
        (∀ p ∈ (t.core core).l1, p.2.coh ≠ 1) ∧ (t.home line).rv = h.rv ∧ (t.home line).rcore = h.rcore ∧
        (t.home line).rd = (h.rd || h.lost || h.rv))) ∧
    ((∀ w, s.windowOf (line * 128) = some w → w.type ≠ 1) → exec (.backInvalidateSnoop line) s = .next s) ∧
    ∀ w, s.windowOf (line * 128) = some w → w.type = 1 → s.listHead line (.die 0) = none →
      s.listHead line (.core (s.homeDie (line * 128) * 32)) = none → ∃ t, exec (.backInvalidateSnoop line) s = .next t ∧
        { t with mem := s.mem, dies := s.dies, lent := s.lent } = s ∧ (w.tagbase = 0 → t.mem = s.mem) ∧ line ∈ t.lent ∧
        (∀ n, (t.die n).l2 = (s.die n).l2) ∧ ∀ n k, (t.die n).held.get? k =
          if n = s.homeDie (line * 128) ∧ k = line then ((s.die n).held.get? k).map fun e => { e with dirty := false }
          else (s.die n).held.get? k

/-- R191, R192, R290 to R293, R342: a tagged request is applied once and its old value is kept in the window of the last 64; a reduction of a
poisoned line is dropped and its grid counts it; an acknowledgement frees a request and a lost one has it sent again. A page walk sets AC
and fills the TLBs; an invalidation empties them of a range and touches nothing else; the release of a mapped or unmapped page of dynamic
capacity clears V and leaves no line of it dirty at its home. -/
def Obligations.TaggedAndTranslation : Prop :=
  (∀ (s : State) (core : Nat) (seq : BitVec 32),
    let sent : List Instr := [.taggedAck core seq true, .replayIntervalExpiry core seq]
    let found := (s.core core).unacked.find? fun t => t.seq == seq
    (found = none → exec (.taggedRequest core seq) s = .next s ∧ ∀ i ∈ sent, exec i s = .next s) ∧
    (∃ t, exec (.taggedAck core seq false) s = .next t ∧ { t with cores := s.cores } = s ∧ (∀ n, n ≠ core → t.core n = s.core n) ∧
      t.core core = { s.core core with unacked := (s.core core).unacked.filter fun q => q.seq ≠ seq }) ∧
    ∀ q, found = some q →
      let home := s.homeDie q.pa
      let line := q.pa / 128
      let key : Nat := State.windowKey core q.pa
      let window (t : State) : TagWindow := (t.die home).windows.getD key []
      let n : Nat := if q.small then 4 else 8
      let low (x : Word) : Nat := x.toNat % 2 ^ (8 * n)
      let old := readNat s.mem q.pa n
      let new : Nat := if q.compare then (if old = low q.opnd then low q.opnd2 else old) else rmwNew q.op (8 * n) old (low q.opnd)
      let noted (t : State) (v : Word) : Prop := window t = ((seq, v) :: window s).take 64
      (∀ i ∈ sent, exec i s = .next { s with agenda := s.agenda ++ [Actor.event (.taggedRequest core seq)] }) ∧
      ((∃ e ∈ window s, e.1 = seq) → exec (.taggedRequest core seq) s = .next s) ∧
      ((∀ e ∈ window s, e.1 ≠ seq) → q.red = true → s.linePoisoned line = true → ∃ t, exec (.taggedRequest core seq) s = .next t ∧
        t.mem = s.mem ∧ noted t 0 ∧ t.reports = s.reports ++ [Report.redDrop q.grid q.addr] ∧
        ∀ g, s.grids.get? q.grid = some g → t.grids.get? q.grid =
          some { g with reddrop := g.reddrop + 1, redaddr := if g.reddrop = 0 then q.addr else g.redaddr }) ∧
      ((∀ e ∈ window s, e.1 ≠ seq) → q.red = false ∨ s.linePoisoned line = false → Memory.wf s.mem = true → (s.core core).l1.get? line = none →
        (s.die (core / 32)).l2.get? line = none → (s.home line).head = none → s.listHead line (.core (s.homeDie (line * 128) * 32)) = none →
        ∃ t, exec (.taggedRequest core seq) s = .next t ∧ noted t (BitVec.ofNat 64 old) ∧
          t.mem = if q.compare = true ∧ old ≠ low q.opnd then s.mem else writeNat s.mem q.pa n new)) ∧
  (∀ (s : State) (core : Nat) (asid : BitVec 12) (va : Word),
    (∀ f, walk s asid va = .error f → exec (.pageWalk core asid va) s = .next s) ∧
    ∀ l, walk s asid va = .ok l → ∃ t, exec (.pageWalk core asid va) s = .next t ∧
      tlbFind (t.core core).tlb asid va = some ⟨asid, pageOf va l.level, l.level, l.pte ||| 0x80#64, l.pteAt⟩ ∧
      tlbFind (t.die (core / 32)).tlb asid va = some ⟨asid, pageOf va l.level, l.level, l.pte ||| 0x80#64, l.pteAt⟩ ∧
      (l.pte.getLsbD 7 = true → t.mem = s.mem) ∧
      (l.pte.getLsbD 7 = false → readNat t.mem l.pteAt 8 = (l.pte ||| 0x80#64).toNat ∧
        ∀ a, a < l.pteAt ∨ l.pteAt + 8 ≤ a → readByte t.mem a = readByte s.mem a)) ∧
  ∀ (s : State) (asid : BitVec 12) (first last : Word),
    let met (e : TlbEntry) : Prop := e.asid = asid ∧ e.page * 2 ^ (47 - 11 * e.level) ≤ last.toNat % 2 ^ 58 ∧
      first.toNat % 2 ^ 58 < e.page * 2 ^ (47 - 11 * e.level) + 2 ^ (47 - 11 * e.level)
    let cleared (u t : State) : Prop := { t with cores := u.cores, dies := u.dies } = u ∧
      (∀ c, t.core c = { u.core c with tlb := (t.core c).tlb } ∧ ∀ e, e ∈ (t.core c).tlb ↔ e ∈ (u.core c).tlb ∧ ¬met e) ∧
      ∀ d, t.die d = { u.die d with tlb := (t.die d).tlb } ∧ ∀ e, e ∈ (t.die d).tlb ↔ e ∈ (u.die d).tlb ∧ ¬met e
    (∃ t, exec (.tlbInvalidate asid first last) s = .next t ∧ cleared s t) ∧
    (first.toNat % 16384 = 0 → last.toNat = first.toNat + 16383 →
      (∀ f, walk s asid first = .error f → ∃ t, exec (.dcdReleaseRequest asid first last) s = .next t ∧ cleared s t) ∧
      ∀ l, walk s asid first = .ok l → l.level = 3 → l.pte.getLsbD 54 = false →
        s.cachedIn (pteAddr l.pte) (pteAddr l.pte + 16384) = [] → (∀ w ∈ s.windows, w.2.tagbase = 0) → (s.home (l.pteAt / 128)).head = none →
        s.listHead (l.pteAt / 128) (.core (s.homeDie (l.pteAt / 128 * 128) * 32)) = none →
        ∃ t u, exec (.dcdReleaseRequest asid first last) s = .next t ∧ cleared u t ∧ { u with mem := s.mem, dies := s.dies } = s ∧
          u.mem = writeNat s.mem l.pteAt 8 (l.pte &&& ~~~1#64).toNat ∧
          ∀ n, pteAddr l.pte ≤ n * 128 → n * 128 < pteAddr l.pte + 16384 → n ≠ l.pteAt / 128 → t.dirtyAtHome n = false)

/-! ## Grids and gangs (R307 to R317, R335 to R340) -/

/-- R309 to R311, R314, R316, R317, R349: the head of a queue becomes a grid, is refused with a cause, or waits; Foreman repairs a mapping;
the dispatcher places the next gang with its threads at ENTRY, or nothing; before a boot image is accepted it does neither; a slice without a
competitor begins again; a completion writes its record, signals nothing when DONEEV is 0, and frees the queue. Device accesses of a launch and the order of resumptions are
the model's reading (log 20, 61). -/
def Obligations.Dispatcher : Prop :=
  (∀ (s : State) (n : BitVec 6),
    let q := s.queue n.toNat
    (s.boot.accepted = false → exec (.gridEligible n) s = .next s ∧ exec .clusterPlace s = .next s) ∧
    (q.entries = [] ∨ q.current ≠ none → exec (.gridEligible n) s = .next s) ∧
    ∀ e rest, s.boot.accepted = true → q.entries = e :: rest → q.current = none →
      (e.failed ≠ none → exec (.gridEligible n) s = .next s) ∧
      (e.failed = none →
        let fails (f : Failure) (u : State) : Prop := ∃ t, exec (.gridEligible n) s = .next t ∧
          (t.queue n.toNat).entries = { e with failed := some (f.addr, f.cause) } :: rest ∧
          t.reports = u.reports ++ [Report.launch n.toNat f.addr f.cause] ∧ t.grids = s.grids
        let granted (d : List Nat) (u : State) : Prop := ∃ t, exec (.gridEligible n) s = .next t ∧ (t.queue n.toNat).entries = rest ∧
          let b := lpbOf d
          (b.crec.toNat % 64 ≠ 0 → t.grids = u.grids ∧ t.reports = u.reports ++ [Report.launch n.toNat e.block 0x01]) ∧
          (b.crec.toNat % 64 = 0 → t.nextGrid = u.nextGrid + 1 ∧ (t.queue n.toNat).current = some u.nextGrid ∧
            ∃ g, t.grids.get? u.nextGrid = some g ∧ g.queue = n.toNat ∧ g.lseq = e.lseq ∧ g.asid = e.asid ∧ g.lpb = b ∧
              g.eligible = s.time ∧ g.gangsFreed = 0 ∧ g.nextPos = 0 ∧
              let a := u.versionAcquire e.asid
              match a.launchCheck e.asid (a.curVersion e.asid) d with
              | .error c => g.st = .completing 5 ∧ g.status = 2 ∧ g.cause = c
              | .ok h => g.st = .placing ∧ g.hdr = h ∧ g.ver = (a.curVersion e.asid).getD 0)
        let taken (u : State) : Prop := (∀ f v, u.readBlock e.asid e.block = (.error f, v) → fails f v) ∧
          ∀ d v, u.readBlock e.asid e.block = (.ok d, v) → granted d v
        (∀ f u, s.readWait e.asid e.block = (.error f, u) → fails f u) ∧
        ∀ ev least u, s.readWait e.asid e.block = (.ok (ev, least), u) →
          (ev = 0 ∨ ev.toNat % 8 ≠ 0 → taken u) ∧
          (ev ≠ 0 → ev.toNat % 8 = 0 → (∀ f w, u.launchLoad e.asid ev true = (.error f, w) → fails f w) ∧
            ∀ v w, u.launchLoad e.asid ev true = (.ok v, w) →
              (v.toNat < least.toNat → exec (.gridEligible n) s = .next s) ∧ (least.toNat ≤ v.toNat → taken w)))) ∧
  (∀ (s : State) (n : BitVec 6) (e : Launch) (rest : List Launch) (x : Word × BitVec 8),
    (s.queue n.toNat).entries = e :: rest → (s.queue n.toNat).current = none →
      (e.failed = none → ∀ ok, exec (.foremanRepairMapping n ok) s = .next s) ∧
      (e.failed = some x → (∃ t, exec (.foremanRepairMapping n true) s = .next t ∧
        (t.queue n.toNat).entries = { e with failed := none } :: rest ∧ { t with queues := s.queues } = s) ∧
        ∃ t, exec (.foremanRepairMapping n false) s = .next t ∧ (t.queue n.toNat).entries = rest)) ∧
  (∀ (s : State) (n : BitVec 6) (k : Nat) (g : Grid) (ok : Bool), (s.queue n.toNat).current = some k → s.grids.get? k = some g →
    (∀ y ∈ s.gangs, y.2.grid = k → y.2.argps = []) →
      (g.stuck = false → exec (.foremanRepairMapping n ok) s = .next s) ∧
      ∀ m, g.stuck = true → g.st = .completing m → ∃ t, exec (.foremanRepairMapping n ok) s = .next t ∧
        t.grids.get? k = some { g with stuck := false, st := .completing (if ok then m else m + 1) } ∧ { t with grids := s.grids } = s) ∧
  (∀ (s : State), s.placeNext = none → exec .clusterPlace s = .next s) ∧
  (∀ (s t : State) (k : Nat) (g : Grid), s.served = some (k, g) → s.grids.get? k = some g → g.st = .placing → s.placeUnit k = some t →
    s.boot.accepted = true → exec .clusterPlace s = .next t ∧
    (g.lpb.cores = false → g.lpb.clusterSize (g.nextPos / g.lpb.perCluster) = 1 → g.lpb.ncrew ≤ 256 →
      let key := s.nextGang
      let y := t.gang key
      let at_ := g.lpb.gangAt g.nextPos
      t.nextGang = key + 1 ∧ (t.grids.get? k).map Grid.nextPos = some (g.nextPos + 1) ∧
      y.grid = k ∧ y.asid = g.asid ∧ y.hdr = g.hdr ∧ y.lin = g.lpb.linear at_ ∧ y.x = at_.1 ∧ y.y = at_.2.1 ∧ y.z = at_.2.2 ∧
      (∃ c0, y.core0 = some c0 ∧ c0 % 32 % g.lpb.ncore = 0 ∧ (s.die (c0 / 32)).alive = true ∧
        ∀ c, c < g.lpb.ncrew → (t.crew (crewKey key c)).core = c0 + c % g.lpb.ncore) ∧
      ∀ c, c < g.lpb.ncrew → (t.crew (crewKey key c)).cver = g.ver ∧ ∀ l, let th := (t.crew (crewKey key c)).th l
        th.pc = g.hdr.entry ∧ th.sup = false ∧ th.tlsb = g.lpb.tlbase + BitVec.ofNat 64 (g.lpb.tlstride * ((y.lin * g.lpb.ncrew + c) * 32 + l.val)))) ∧
  (∀ (s t : State) (k : Nat) (g : Grid) (c : Cluster) (rest : List Cluster), s.served = some (k, g) → s.grids.get? k = some g →
    g.st = .running → s.waitingClusters g = c :: rest → s.resumeCluster k g.lpb c = some t → s.boot.accepted = true →
    exec .clusterPlace s = .next t ∧ ∃ y, t.grids.get? k = some y ∧ ∀ x ∈ y.clusters, x.index = c.index → x.resident = true) ∧
  (∀ (s : State) (k : Nat), (∀ g, s.grids.get? k = some g → g.sliceOver s.time = false) → exec (.quantumSliceEnd k) s = .next s) ∧
  (∀ (s : State) (k : Nat) (g : Grid), s.grids.get? k = some g → g.sliceOver s.time = true →
    (s.served = none ∨ ∃ h y, s.served = some (h, y) ∧ (h = k ∨ y.lpb.pri ≤ g.lpb.pri ∨ s.unitFits h [] = true)) →
    s.clustersWait k = false →
    ∃ t, exec (.quantumSliceEnd k) s = .next t ∧ { t with grids := s.grids } = s ∧ t.grids.get? k = some { g with sliceStart := s.time }) ∧
  (∀ (s : State) (k : Nat), ((∀ g, s.grids.get? k = some g → (g.stuck = true ∧ g.st ≠ .running) ∨ g.st = .placing ∨ g.st = .running ∧
    ∃ y ∈ s.gangs, y.2.grid = k ∧ y.2.freed = false) → exec (.gridCompletion k) s = .next s)) ∧
  ∀ (s u : State) (k : Nat) (g : Grid) (pa : Nat) (o : Bool), s.grids.get? k = some g → g.stuck = false → g.st = .completing 5 →
    g.lpb.doneev = 0 → s.launchPlace g.asid g.lpb.crec = (.ok (pa, o), u) → (u.home (pa / 128)).rv = false → (u.home (pa / 128)).lost = false →
    (∀ w ∈ s.windows, w.2.tagbase = 0) → ∃ t, exec (.gridCompletion k) s = .next t ∧
      t.grids.get? k = none ∧ (t.queue g.queue).current = none ∧ (t.queue g.queue).entries = (s.queue g.queue).entries ∧
      t.mem = writeBytes u.mem pa ([g.lseq.toNat * 2 ^ 32 + g.cause.toNat * 2 ^ 8 + g.status,
        (g.heldcan % 2 ^ 32) * 2 ^ 32 + g.reddrop % 2 ^ 32, g.redaddr.toNat, if g.status = 3 then g.faddr.toNat else 0,
        g.gangsFreed % 2 ^ 64, 0, 0, 0].flatMap (toBytes 8))

/-- R335 to R340, R351: a gang whose hint run is open, or that has a core without a clock, stops and is saved later; a resident gang with
nothing in flight leaves its cores for its save area, which holds the record of every crew in order, the gang's header, its scratchpad and
its accumulator space, its crews as they are but for waits that are taken up again; a saved gang that fits, and whose area passes its checks,
stands on its new cores, each crew as its record has it and the gang as the area has it. Where Foreman puts the area, which gang it saves and
how parked lanes stand there are the model's choice or reading (log 7, 53, 54, 61, 62). -/
def Obligations.Preemption : Prop :=
  (∀ (s : State) (k : Nat), s.gangs.get? k = none → exec (.preemption k) s = .next s ∧ ∀ c, exec (.resumption k c) s = .next s) ∧
  (∀ (s : State) (k : Nat) (g : Gang), s.gangs.get? k = some g →
    (g.core0 = none ∨ g.freed = true → exec (.preemption k) s = .next s) ∧
    (g.core0 ≠ none → g.freed = false → (∃ p ∈ s.crewsOf k, p.2.midRun = true) ∨ (∃ n ∈ g.coreList, s.clocked n = false) → ∃ t, exec (.preemption k) s = .next t ∧
      { t with gangs := s.gangs } = s ∧ t.gang k = { g with leaving := true } ∧ ∀ m, m ≠ k → t.gang m = s.gang m) ∧
    (g.core0 ≠ none → g.freed = false → (∀ p ∈ s.crewsOf k, p.2.midRun = false) → (∀ n ∈ g.coreList, s.clocked n = true) →
      (s.crews.map Prod.fst).Nodup → s.batches k = [] →
      (∀ c ∈ s.cores, c.2.porter.copies = [] ∧ c.2.redbuf = [] ∧ c.2.porter.gang ≠ some k ∧ c.2.porter.resumed = []) →
      ∃ t, exec (.preemption k) s = .next t ∧ (t.gang k).core0 = none ∧ (t.gang k).saved = some g.areaPa ∧ (t.gang k).absent = [] ∧
        (t.gang k).leaving = false ∧
        (t.gang k).scratch = g.scratch ∧ (t.gang k).acc = g.acc ∧ (∀ m, m ≠ k → t.gang m = s.gang m) ∧
        (∀ c, c < g.ncore → ∀ j ∈ (t.core (g.core0.getD 0 + c)).jobs, j.gang ≠ k) ∧
        (g.ncore ≤ 4 → g.ncrew ≤ 256 → g.hdr.acc < 2 ^ 16 → g.hdr.scratch ≤ 2 ^ 24 → Memory.wf g.scratch = true → Memory.wf g.acc = true →
          (∀ p ∈ s.crewsOf k, p.2.infl.length ≤ 8) →
          let n (off len : Nat) : Nat := readNat t.mem (g.areaPa + off) len
          n 7 1 = 1 ∧ n 0x10 8 = g.lin % 2 ^ 64 ∧ n 0x18 4 = g.barcgen.toNat ∧ n 0x24 4 = 0x380 ∧ n 0xC0 8 = g.clus % 2 ^ 64 ∧
          (∀ b : Fin 16, n (0x40 + 4 * b.val) 4 = g.bargen[b.val].toNat) ∧
          (∀ j x, j < g.ncore → x < 32 → n (0x100 + 128 * j + 4 * x) 4 = (g.sems.getD (j * 32 + x) 0).toNat) ∧
          (∀ b, b < g.hdr.scratch → readByte t.mem (g.areaPa + n 0x20 4 + b) = readByte g.scratch b) ∧
          (∀ b, b < g.hdr.acc * 1024 → readByte t.mem (g.areaPa + n 0x2C 4 + b) = readByte g.acc b) ∧
          ∀ i key c, (t.crewsOf k)[i]? = some (key, c) → c.TagsFit →
            RecordHolds t.mem (g.areaPa + recordAt t.mem g.areaPa 0x380 i) (c.header g) c) ∧
        ∀ key c, s.crew? key = some c → ∃ c', t.crew? key = some c' ∧ (gangOf key ≠ k → c' = c) ∧
          (gangOf key = k → c'.active = false ∧ c'.regs = c.regs ∧ c'.preds = c.preds ∧ c'.stall = 0 ∧
            (c'.latches = c.latches ∨ c'.latches = c.found) ∧ ((∀ l, (c.th l).waitPc = none) → c'.latches = c.latches) ∧
            (∀ l pc, (c.th l).waitPc = some pc → (c'.th l).st = .live ∧ (c'.th l).pc = pc) ∧
            ∀ l, (c'.th l).fstat = (c.th l).fstat ∧ ((c.th l).st = .live → c'.th l = c.th l)))) ∧
  ∀ (s : State) (k n : Nat) (g : Gang), s.gangs.get? k = some g →
    (g.saved = none ∨ g.core0 ≠ none ∨ s.grids.get? g.grid = none → exec (.resumption k n) s = .next s) ∧
    ∀ pa y, g.saved = some pa → g.core0 = none → s.grids.get? g.grid = some y →
      (s.resumeFits [] [] g y.lpb n = false → exec (.resumption k n) s = .next s) ∧
      (s.resumeFits [] [] g y.lpb n = true → (s.areaOf pa).firstBad g ((s.crewsOf k).map fun p => p.2.header g) = none → ∃ t, exec (.resumption k n) s = .next t ∧
        (t.gang k).core0 = some n ∧ (t.gang k).saved = none ∧ (t.gang k).grid = g.grid ∧ (t.gang k).hdr = g.hdr ∧
        (∀ m, m ≠ k → t.gang m = s.gang m) ∧
        let w (off len : Nat) : Nat := readNat s.mem (pa + off) len
        let at_ (i : Nat) : Nat := recordAt s.mem pa (w 0x24 4) i
        (t.gang k).barcgen.toNat = w 0x18 4 ∧
        (w 0x20 4 + g.hdr.scratch ≤ w 0x3C 4 → w 0xC 4 = g.hdr.scratch →
          ∀ b, b < g.hdr.scratch → readByte (t.gang k).scratch b = readByte s.mem (pa + w 0x20 4 + b)) ∧
        (w 0x2C 4 + w 0 2 * 1024 ≤ w 0x3C 4 →
          ∀ b, b < w 0 2 * 1024 → readByte (t.gang k).acc b = readByte s.mem (pa + w 0x2C 4 + b)) ∧
        ((s.crews.map Prod.fst).Nodup → (∀ i, i < (s.crewsOf k).length → w (at_ i + 8) 4 ≠ 2 ^ 32 - 1 ∧ w (at_ i + 0xC) 4 = 0 ∧
            w (at_ i + 0x1A) 1 = 0 ∧ w (at_ i + 0x2E0) 4 = 0 ∧ ∀ b : Fin 16, w (at_ i + 0x300 + 4 * b.val) 4 = 0) →
          ∀ i key c, (s.crewsOf k)[i]? = some (key, c) → ∃ c', t.crew? key = some c' ∧ RecordHolds s.mem (pa + at_ i) (c.header g) c' ∧
            c'.core = n + crewIndex key % g.ncore))

/-! ## Foreman, errors, links, boot and power (R250, R274, R283, R304 to R306, R325, R333, R341 to R352) -/

/-- R190, R250, R274, R283, R325, R333, R346: Foreman resumes a parked fragment as TRET would, kills a crew, ends a grid, withdraws a
lane from a CONV, makes a writable copy of a CODE page for a new version, sizes the carve-out of a die, writes a group's entry, and
extends a full spill area or carve-out and resumes the fragments that met it, or ends their grids. Withdrawals outside the words, and
decisions on a saved gang, are the model's reading (log 59, 62). -/
def Obligations.ForemanDecisions : Prop :=
  let resident (s : State) (key : Nat) : Prop := (s.gang (gangOf key)).core0 ≠ none ∧ (s.crew? key).isSome = true
  (∀ (s : State) (key k : Nat),
    ((¬resident s key ∨ ∀ u, (s.crew key).slots.getD k none = some u → u.foreman = false) → exec (.foremanResume key k) s = .next s) ∧
    ∀ F, resident s key → k < 4 → Quiet s key → FrameGood s key k F true →
      (∀ l, inMask F l = true → ((s.crew key).th l).st = .parked (.foreman k)) →
      ∃ t, exec (.foremanResume key k) s = .next t ∧ FrameReturns s t key k F) ∧
  (∀ (s : State) (key : Nat), (¬resident s key → exec (.foremanKillCrew key) s = .next s) ∧
    (resident s key → ∃ t, exec (.foremanKillCrew key) s = .next t ∧ t.crew? key = none ∧
      crewIndex key ∈ (t.gang (gangOf key)).crewsFreed ∧
      (Quiet s key → ∀ k, k ≠ key → t.crew? k = s.crew? k) ∧ ((s.crew key).switched = false → t.mem = s.mem))) ∧
  (∀ (s : State) (n : Nat) (cause : BitVec 8) (addr : Word),
    ((∀ g, s.grids.get? n = some g → g.st ≠ .placing ∧ g.st ≠ .running) → exec (.foremanEndGrid n cause addr) s = .next s) ∧
    ∀ g, s.grids.get? n = some g → g.st = .placing ∨ g.st = .running → (s.gangs.map Prod.fst).Nodup →
      ∃ t held, exec (.foremanEndGrid n cause addr) s = .next t ∧
        t.grids.get? n = some { g with
          st := .completing 2
          status := 3
          cause := cause
          faddr := addr
          nextPos := g.lpb.gangs
          stuck := false
          gangsFreed := g.gangsFreed + (s.gangs.filter fun y => y.2.grid = n && !y.2.freed).length
          heldcan := g.heldcan + held } ∧
        (∀ m, m ≠ n → t.grids.get? m = s.grids.get? m) ∧ (∀ y ∈ t.gangs, y.2.grid ≠ n) ∧
        ∀ m y, s.gangs.get? m = some y →
          (y.grid = n → ∀ p ∈ t.crews, gangOf p.1 ≠ m) ∧ (y.grid ≠ n → t.gangs.get? m = some y)) ∧
  (∀ (s : State) (key : Nat) (lane : BitVec 5) (pc : Option Pc),
    let l : Lane := ⟨lane.toNat, lane.isLt⟩
    let th := (s.crew key).th l
    let out : Prop := s.crew? key = none ∨ (match th.st with
      | .waiting _ => False
      | _ => True) ∨ ∃ p, pc = some p ∧ p.toNat % 4 ≠ 0
    (out → exec (.foremanWithdrawLane key lane pc) s = .next s) ∧
    (¬out → (s.gang (gangOf key)).saved = none → ∃ t, exec (.foremanWithdrawLane key lane pc) s = .next t ∧
      (∀ p, pc = some p → (∀ k, (s.crew key).returnReady k = false) →
        (t.crew key).th l = { th with st := .live, pc := p, left := th.pc :: th.left }) ∧
      (pc = none → (t.crew? key = none ∨ ((t.crew key).th l).st = .exited)) ∧
      ∀ c, t.crew? key = some c → c.ConvsTested)) ∧
  (∀ (s : State) (key k : Nat) (v : BitVec 16) (map copy : Nat),
    let c := s.crew key
    let asid := (s.gang (gangOf key)).asid
    let va := slotFault s key k
    let i : Instr := .foremanCreateVersion key k v map copy
    ((s.crew? key = none ∨ (∀ u, c.slots.getD k none = some u → u.foreman = false ∨ u.cause ≠ 0x08) ∨ s.version asid c.cver = none) →
      exec i s = .next s) ∧
    ∀ u x y, (s.crew? key).isSome = true → c.slots.getD k none = some u → u.foreman = true → u.cause = 0x08 →
      s.version asid c.cver = some (x, y) →
      (∀ f, walk s asid va = .error f → exec i s = .next s) ∧
      ∀ l, walk s asid va = .ok l → (l.pte.getLsbD 53 = false → exec i s = .next s) ∧
        (l.pte.getLsbD 53 = true →
          let page := (pteAddr l.pte + va.toNat % 2 ^ pageShift l.level) / 16384 * 16384
          let n := y.toNat % 2 ^ 19
          let old (p : Nat) : Nat := readNat s.mem (x.toNat / 4096 * 4096 + 8 * p) 8
          let target := copy * 16384
          Memory.wf s.mem = true → pteAddr l.pte + va.toNat % 2 ^ pageShift l.level = leafPa l va false → target < 2 ^ 64 →
          (map * 4096 + 8 * n ≤ target ∨ target + 16384 ≤ map * 4096) →
          ∃ w : State, { w with mem := s.mem, poison := s.poison, dies := s.dies } = s ∧
            (∀ b, b < 16384 → readByte w.mem (target + b) = readByte s.mem (page + b)) ∧
            (∀ p, p < n → readNat w.mem (map * 4096 + 8 * p) 8 = if pteAddr (BitVec.ofNat 64 (old p)) = page then target else old p) ∧
            (∀ b, (b < target ∨ target + 16384 ≤ b) → (b < map * 4096 ∨ map * 4096 + 8 * n ≤ b) → readByte w.mem b = readByte s.mem b) ∧
            let at_ := versionAt (s.asidEntry asid).cvtab v
            let w := (w.deviceWrite asid at_ (BitVec.ofNat 64 (map * 4096 + 1))).deviceWrite asid (at_ + 8) (BitVec.ofNat 64 n)
            let leaf : Word := BitVec.ofNat 64 (l.pte.toNat - pteAddr l.pte + target) &&& ~~~(0x20000000000000#64)
            let w := if l.level = 3 then w.writePte l.pteAt leaf else w
            exec i s = .next ((w.tlbDrop fun e => e.asid == asid && e.meets va.toNat va.toNat).resumeFrag key k))) ∧
  (∀ (s : State) (d n : Nat),
    (s.tables = [] → n % 2048 = 0 → n ≤ 131072 → ∃ t, exec (.fstsizeSet d n) s = .next t ∧ { t with dies := s.dies } = s ∧
      (∀ m, m ≠ d → t.die m = s.die m) ∧ t.die d = { s.die d with fstsize := n }) ∧
    (s.tables ≠ [] ∨ n % 2048 ≠ 0 ∨ 131072 < n → exec (.fstsizeSet d n) s = .next s)) ∧
  (∀ (s : State) (g : BitVec 8) (e : Word), ∃ t, exec (.groupTableWrite g e) s = .next t ∧
    { t with groups := s.groups, redVia := s.redVia, redOff := s.redOff } = s ∧ (∀ h, t.group h = if h = g then e else s.group h) ∧
    g.toNat ∉ t.redOff ∧ t.redVia.get? g.toNat = none ∧ ∀ n, n ≠ g.toNat → (n ∈ t.redOff ↔ n ∈ s.redOff) ∧ t.redVia.get? n = s.redVia.get? n) ∧
  ∀ (s : State) (asid : BitVec 12) (d n : Nat),
    let e := s.asidEntry asid
    let settles (i : Instr) (met : Nat → Nat → Prop) (endGrid : Bool) (addr : Word) (u : State) : Prop :=
      ∃ fs : List (Nat × Nat), (∀ f, f ∈ fs ↔ ParkedWith s f.1 f.2 0x11 ∧ met f.1 f.2) ∧
        exec i s = .next (if endGrid = true then ((fs.map fun f => s.gridOf f.1).eraseDups).foldl (fun s g => s.endGrid g 0x11 addr) u
          else fs.foldl (fun s f => s.resumeFrag f.1 f.2) u)
    let full (key k : Nat) : Prop := (s.gang (gangOf key)).asid = asid ∧ slotFault s key k = e.redspill
    let queued (key k : Nat) : Prop := (s.crew key).core / 32 = d ∧ (slotFault s key k).toNat < 32
    ((s.crews.map Prod.fst).Nodup →
      (∃ u, settles (.foremanExtendSpill asid n false) full false e.redspill u ∧ { u with asids := s.asids } = s ∧
        (∀ m, m ≠ asid → u.asidEntry m = s.asidEntry m) ∧
        u.asidEntry asid = if e.redsplen.toNat ≤ n ∧ n < 2 ^ 32 then { e with redsplen := BitVec.ofNat 32 n } else e) ∧
      settles (.foremanExtendSpill asid n true) full true e.redspill s ∧
      (∃ u, settles (.foremanGrowCarveout d n false) queued false 0 u ∧ { u with dies := s.dies } = s ∧
        (¬(n % 2048 = 0 ∧ n ≤ 131072 ∧ (s.die d).fstsize ≤ n) → u = s) ∧
        (n % 2048 = 0 ∧ n ≤ 131072 ∧ (s.die d).fstsize ≤ n →
          (s.tables ≠ [] → u.die d = { s.die d with fstNext := some n } ∧ ∀ m, m ≠ d → u.die m = s.die m) ∧
          (s.tables = [] → u.die d = { s.die d with fstsize := n, fstNext := none } ∧
            ∀ m, m ≠ d → (s.die m).fstNext = none → u.die m = s.die m))) ∧
      settles (.foremanGrowCarveout d n true) queued true 0 s)

/-- R304 to R306, R352, R86 and R329: the event log; a soft error is corrected and counted, or counted, logged, and handled by the
structure that it strikes; the death of an agent raises its incarnation, is logged, and ends what depended on it; a word that is no
instruction raises ILLEGAL or RESBITS; an unfinished load completes from its captured operands. Source numbers of the log, incarnations
modulo 2^16, what a dead die loses, the members of a group and the lines lent to sharers are the model's choice or reading (log 51, 57,
64, 66, 99, 100, 104). -/
def Obligations.Errors : Prop :=
  let both (d : Die) : Nat := d.corrected * 2 ^ 32 + d.uncorrected
  (∀ (s : State) (kind source addr n : Nat),
    let t := s.logEvent kind source addr n
    { t with log := s.log, logLost := s.logLost } = s ∧
    t.log = (if s.log.length < s.logCap then s.log else s.log.drop 1) ++ [⟨s.time, source, kind, addr, n⟩] ∧
    t.logLost = if s.log.length < s.logCap then s.logLost else s.logLost + 1) ∧
  (∀ (s : State) (d : Nat), exec (.errorCountLog d) s = .next (s.logEvent 1 (256 + d) 0 (both (s.die d))) ∧
    exec (.eventLogRead d) s = .next s ∧
    ∃ t, exec (.backgroundScrub d) s = .next t ∧ { t with dies := s.dies } = s ∧ ∀ m, t.die m = s.die m) ∧
  (∀ (s : State) (x : Struck), let d := s.struckDie x
    ∃ t, exec (.softError x true) s = .next t ∧ { t with dies := s.dies } = s ∧ (∀ m, m ≠ d → t.die m = s.die m) ∧
      t.die d = { s.die d with corrected := (s.die d).corrected + 1 }) ∧
  (∀ (s : State) (n line k g : Nat) (asid : BitVec 12) (va : Word),
    let strikes (x : Struck) (post : State → State → Prop) : Prop := ∃ u t, exec (.softError x false) s = .next t ∧
      (let d := s.struckDie x
       let v : State := { s with dies := u.dies }
       u = v.logEvent 1 (256 + d) 0 (both (u.die d)) ∧ (∀ m, m ≠ d → u.die m = s.die m) ∧
       u.die d = { s.die d with uncorrected := (s.die d).uncorrected + 1 }) ∧ post u t
    let only (u t : State) (c : Nat) (x : Core) : Prop := { t with cores := u.cores } = u ∧ (∀ m, m ≠ c → t.core m = u.core m) ∧ t.core c = x
    let onlyGang (u t : State) (g : Nat) (x : Gang) : Prop :=
      { t with gangs := u.gangs } = u ∧ (∀ m, m ≠ g → t.gang m = u.gang m) ∧ t.gang g = x
    strikes (.l1Line n line) (fun u t => match (u.core n).l1.get? line with
      | none => t = u
      | some e =>
        (e.dirty ≠ 0 → only u t n { u.core n with l1 := (u.core n).l1.set line { e with poison := true } }) ∧
        (e.dirty = 0 → e.coh ≠ 0 → only u t n { u.core n with l1 := (u.core n).l1.erase line }) ∧
        (e.dirty = 0 → e.coh = 0 → e.modified = true → t.linePoisoned line = true) ∧
        (e.dirty = 0 → e.coh = 0 → e.modified = false → s.fabric = [] → (t.core n).l1.get? line = none)) ∧
    strikes (.l2Line n line) (fun u t => u.homeDie (line * 128) = n →
      (u.dirtyAtHome line = true → t.linePoisoned line = true) ∧
      (u.dirtyAtHome line = false → { t with dies := u.dies } = u ∧ (t.die n).held.get? line = none)) ∧
    strikes (.l2Line n line) (fun u t => match (u.die n).l2.get? line with
      | none => u.homeDie (line * 128) ≠ n → t = u
      | some e => u.homeDie (line * 128) ≠ n →
        (e.dirty ≠ 0 → { t with dies := u.dies } = u ∧ (t.die n).l2.get? line = some { e with poison := true }) ∧
        (e.dirty = 0 → e.coh ≠ 0 → { t with dies := u.dies } = u ∧ (t.die n).l2.get? line = none) ∧
        (e.dirty = 0 → e.coh = 0 → e.modified = true → t.linePoisoned line = true)) ∧
    strikes (.tlbEntry n asid va) (fun u t => only u t n { u.core n with
      tlb := (u.core n).tlb.filter fun e => ¬(e.asid = asid ∧ e.page = va.toNat % 2 ^ 58 / 2 ^ (47 - 11 * e.level)) }) ∧
    strikes (.dieTlb n asid va) (fun u t => { t with dies := u.dies } = u ∧ (∀ m, m ≠ n → t.die m = u.die m) ∧ t.die n = { u.die n with
      tlb := (u.die n).tlb.filter fun e => ¬(e.asid = asid ∧ e.page = va.toNat % 2 ^ 58 / 2 ^ (47 - 11 * e.level)) }) ∧
    strikes (.tag line) (fun u t => match u.windowOf (line * 128) with
      | some w => (w.tagbase ≠ 0 → { t with poison := u.poison } = u ∧ ∀ m, m ∈ t.poison ↔ m = line ∨ m ∈ u.poison) ∧ (w.tagbase = 0 → t = u)
      | none => t = u) ∧
    strikes (.slot n k) (fun u t => match (u.core n).ovls[k]? with
      | none => t = u
      | some o =>
        let same (p : Overlay) : Prop := p.asid = o.asid ∧ p.ver = o.ver ∧ p.offset = o.offset
        (o.resident = false → t = u) ∧ (o.resident = true → only u t n { u.core n with
          ovls := (u.core n).ovls.map fun p => if same p then { p with resident := false, code := [] } else p })) ∧
    (s.gangs.get? g ≠ none →
      strikes (.scratchLine g line) (fun u t => onlyGang u t g { u.gang g with scratchPoison := (t.gang g).scratchPoison } ∧
        ∀ m, m ∈ (t.gang g).scratchPoison ↔ m = line ∨ m ∈ (u.gang g).scratchPoison) ∧
      strikes (.accWord g n) (fun u t => onlyGang u t g { u.gang g with accPoison := (t.gang g).accPoison } ∧
        ∀ m, m ∈ (t.gang g).accPoison ↔ m = n ∨ m ∈ (u.gang g).accPoison)) ∧
    strikes (.fifoEntry g n k line) (fun u t =>
      let q := (n - (u.gang g).core0.getD 0) * 48 + k
      (((u.gang g).fifos.getD q []).length ≤ line → t = u) ∧
      (line < ((u.gang g).fifos.getD q []).length → onlyGang u t g { u.gang g with fifoPoison := (t.gang g).fifoPoison } ∧
        ∀ m, m ∈ (t.gang g).fifoPoison.getD q [] ↔ m = line ∨ m ∈ (u.gang g).fifoPoison.getD q [])) ∧
    strikes (.crewState n) (fun u t => match u.crew? n with
      | none => t = u
      | some c => ∃ info v, v = u.takeTrap n info ∧ info.cause = 0x0A ∧ info.foreman = true ∧ info.frag = ~~~c.exited ∧
        info.failing = ~~~c.exited ∧ (∀ l, info.faddr.at l = 0) ∧ { t with crews := v.crews, reports := v.reports } = v ∧
        t.reports = v.reports ++ [Report.crewLost n] ∧ t.crew n = { v.crew n with infl := [] }) ∧
    strikes (.fstRecord n k line) (fun u t => ((u.die n).fst.get? k = none → t = u) ∧
      ∀ i, (u.die n).fst.get? k = some i →
        ((∀ r ∈ i.recs, r.seq ≠ line) → ∀ m, t.die m = u.die m) ∧
        ((∃ r ∈ i.recs, r.seq = line) → ∃ j, (t.die n).fst.get? k = some j ∧ (∀ r, r ∈ j.recs ↔ r ∈ i.recs ∧ r.seq ≠ line) ∧
          j.evicts = min (i.evicts + 1) (2 ^ 64 - 1))) ∧
    strikes (.releaseRecord line) (fun u t => { t with homes := u.homes } = u ∧ (∀ m, m ≠ line → t.home m = u.home m) ∧
      t.home line = { u.home line with rv := true, rd := false, lost := true }) ∧
    strikes (.sharerPointers line) (fun u t => (∀ c, (t.core c).l1.get? line = none) ∧ (∀ d, (t.die d).l2.get? line = none) ∧
      (t.home line).head = none ∧ ∀ m, m ≠ line → t.home m = u.home m)) ∧
  (∀ (s : State) (n : Nat),
    let bumped (a : Party) (key source : Nat) (post : State → State → Prop) : Prop := ∃ u t, exec (.agentDeclaredDead a) s = .next t ∧
      (let i := s.incarnations.getD key 0 + 1
       u = { s with incarnations := u.incarnations }.logEvent 2 source 0 i.toNat ∧
       (∀ m, m ≠ key → u.incarnations.getD m 0 = s.incarnations.getD m 0) ∧ u.incarnations.getD key 0 = i) ∧ post u t
    bumped (.sharer n) (20 + n) (768 + n) (fun u t => match u.windows.get? n with
      | none => t = u
      | some w =>
        let inside (l : Nat) : Prop := w.base ≤ l * 128 ∧ l * 128 < w.base + w.size
        { t with poison := u.poison, lent := u.lent, fresh := u.fresh } = u ∧ t.fresh = u.fresh + 1 ∧
        (∀ l, l ∈ t.lent ↔ l ∈ u.lent ∧ ¬inside l) ∧
        ∀ l, l ∈ t.poison ↔ l ∈ u.poison ∨ (l ∈ u.lent ∧ inside l ∧ Config.lentModified l u.fresh = true)) ∧
    bumped (.umnor n) (8 + n) (512 + n) (fun u t =>
      let p := u.umnor.getD n Umnor.reset
      t.umnor.getD n Umnor.reset = { p with
        peerDead := true, retraining := false, received := [], unacked := [], sendq := [], wire := [] } ∧
      ((s.groups.map Prod.fst).Nodup → ∀ g e, s.groups.get? g = some e →
        let lost : Prop := e.getLsbD 63 = true ∧
          ((e.getLsbD 62 = false ∧ (e.extractLsb' 58 4).toNat = n) ∨ n ∈ s.redVia.getD g [] ∨
            (e.getLsbD 62 = true ∧ Config.memberBehind g n = true))
        t.groups.get? g = some (if lost then e &&& 0x7FFFFFFFFFFFFFFF#64 else e) ∧ (lost → g ∈ t.redOff ∧ ∀ b ∈ t.blocks, b.group.toNat ≠ g)) ∧
      (∀ c ∈ t.redHeld, c.port ≠ some n)) ∧
    bumped (.die n) n (256 + n) (fun u t => (8 ≤ n ∨ (s.die n).alive = false → t = u) ∧
      (n < 8 → (s.die n).alive = true → (t.die n).alive = false ∧ (∀ c, c / 32 = n → t.core c = Core.reset) ∧
        ((s.gangs.map Prod.fst).Nodup → (∀ y ∈ s.gangs, ∀ c, y.2.core0 = some c → c / 32 = n →
            ∃ g, s.grids.get? y.2.grid = some g ∧ (g.st = .placing ∨ g.st = .running)) →
          ∀ y ∈ t.gangs, ∀ c, y.2.core0 = some c → c / 32 ≠ n)))) ∧
  (∀ (s : State) (key : Nat) (F : Mask) (pc : Pc) (w : Code), s.cur = .frag key F pc → (s.crew? key).isSome = true →
    (∀ i, decodeWord w = .ok i → exec (.unusedEncoding w) s = .next s) ∧
    ∀ e, decodeWord w = .error e →
      let reserved : Prop := e = .resbits ∧ ∃ i, decodeLoose w = some i ∧
        ¬(i.isPorter = true ∨ runMisuse i (s.crew key).run = true ∨ propMissing i (s.hdrOf key) = true)
      TrapsWith (.unusedEncoding w) s key F pc (if reserved then 0x02 else 0x01) F fun _ => 0) ∧
  ∀ (s : State) (key n : Nat),
    let c := s.crew key
    let closed (e : Entry) : Prop := e.frag &&& c.live = 0 ∧ e.take &&& e.frag &&& ~~~e.done &&& ~~~c.exited ≠ 0
    ((s.crew? key = none ∨ ∀ e ∈ c.infl, closed e) → exec (.unfinishedInstructionFinish key n) s = .next s) ∧
    (s.clocked c.core = false → exec (.unfinishedInstructionFinish key n) s = .next s) ∧
    ∀ (e : Entry) (g : BitVec 3) (d a : BitVec 6) (o : BitVec 8), (s.crew? key).isSome = true → s.clocked c.core = true → c.infl = [e] →
      ¬closed e → e.lost = 0 → d < 48 →
      decodeWord e.word = .ok (.ld g d a o 3) →
      let m := e.take &&& e.frag &&& ~~~e.done &&& ~~~c.exited
      let ea (l : Lane) : Word := e.op0.at l + o.signExtend 64 * 8
      (∀ l, inMask m l = true → InScratch s key 8 (ea l)) → ∃ t, exec (.unfinishedInstructionFinish key n) s = .next t ∧
        OnlyCrew s t key ∧ (t.crew key).infl = [] ∧ (t.crew key).preds = c.preds ∧ (∀ l, (t.crew key).th l = { c.th l with wm := ((t.crew key).th l).wm }) ∧
        ∀ n l, n < 48 → (t.crew key).reg n l =
          if n = d.toNat ∧ inMask m l = true then BitVec.ofNat 64 (readNat (pad s key) (scratchAt (ea l)) 8) else c.reg n l

/-- R261, R341, R343 to R347 and R348: a flit is checked, its acknowledgement frees what was sent, the next expected one is delivered, a
NAK has the unacknowledged ones sent again, and after the sixteenth replay the port retrains; a retrain begins with a NEG flit of this
module; the first NEG flit of a training sets lanes and rate and is answered, a later one is answered when it asks for it, and one of an
older incarnation is dropped; the training ends after that exchange, and a third failed one declares the peer dead; a CXL port takes the
best rate and width of both sides or is disabled, with its windows; neither trains before an image is accepted (R349). A contribution
reaches the root or goes on to it, or is dropped, refused, held, or, in a group that a death has disabled, answered with poison; the result
of a block is sent to the members' ports and written at its member, and a refusal goes on to the member of its rank. The number of flit
buffers, the places in a NEG record, which NEG flits are answered, the source numbers of the log, the outbox, the hubs' ports, the members'
ports as far as contributions have shown them, the rank in a refusal and the module's number are the model's (log 21, 22, 42, 66, 99, 100,
106, 111); so are 'older' by the sign of the difference modulo 2^16 (log 64) and the stop at a refusal with cause 0x11 and address 0
(log 39). -/
def Obligations.Links : Prop :=
  let stopped (v : Umnor) : Umnor :=
    { v with freeBuffers := 1024 - v.received.length, stopSent := decide (1024 - v.received.length ≤ 64) }
  let resent (v : Umnor) : Umnor :=
    if v.enabled = false ∨ v.unacked = [] ∨ v.stopSeen = true ∨ v.retraining = true then v
    else if v.replays < 15 then { v with replays := v.replays + 1, wire := v.wire ++ v.unacked.map v.dataFlit }
    else { v with replays := 0, retraining := true, heard := false, wire := v.wire ++ v.unacked.map v.dataFlit }
  let field (flit : List Byte) (hi lo : Nat) : Nat := ofBytes (flit.take 8) / 2 ^ lo % 2 ^ (hi + 1 - lo)
  let sound (flit : List Byte) : Prop :=
    flit.length = 256 ∧ (crc64 (flit.take 248)).toNat = ofBytes (flit.drop 248) ∧ field flit 63 60 < 3
  (∀ (s : State) (p : Nat) (flit : List Byte),
    let u := s.port p
    let x := ofBytes (flit.take 8)
    let neg (t : State) (v : Umnor) (f : List Byte) : Prop :=
      sound f ∧ field f 63 60 = 2 ∧ negOf ((f.drop 8).take 240) = ⟨Config.serial, p % 256, t.moduleInc, [4, 8, 16], 2125⟩ ∧
      (ofBytes (f.take 8)).testBit 33 = v.stopSent ∧ (ofBytes (f.take 8)).testBit 34 = v.nak
    let sends (t : State) (v : Umnor) : Prop := ∃ f, neg t (stopped v) f ∧ t.port p = { stopped v with wire := v.wire ++ [f] }
    let only (t : State) : Prop := (∀ q, q ≠ p → t.port q = s.port q) ∧ { t with umnor := s.umnor } = s
    let active : Prop := s.boot.powered = true ∧ s.boot.accepted = true
    let becomes (i : Instr) (v : Umnor) : Prop := ∃ t, exec i s = .next t ∧ (∀ q, q ≠ p → t.port q = s.port q) ∧
      { t with umnor := s.umnor, log := s.log, logLost := s.logLost } = s ∧
      if v.retraining = true ∧ u.retraining = false then sends t v else t.port p = v
    let waits : Prop := ∃ c ∈ s.redHeld, c.port = some p
    (∃ taken : Umnor, taken = { u with wire := [], received := taken.received } ∧ (waits → taken.received = u.received) ∧
      (¬waits → taken.received = []) ∧
      let heard : Umnor :=
        let ack := BitVec.ofNat 12 (field flit 47 36)
        if x.testBit 35 = true ∧ ∃ e ∈ u.unacked, e.1 = ack then
          { taken with stopSeen := x.testBit 33, unacked := (u.unacked.dropWhile fun e => e.1 != ack).drop 1, replays := 0 }
        else { taken with stopSeen := x.testBit 33 }
      let seq := BitVec.ofNat 12 (field flit 59 48)
      let here : Prop := u.enabled = true ∧ u.peerDead = false
      (¬here → exec (.umnorDataFlit p flit) s = .next s ∧ exec (.umnorIdleFlit p flit) s = .next s) ∧
      (here → ¬sound flit → becomes (.umnorDataFlit p flit) ({ taken with nak := true }.answer false) ∧
        becomes (.umnorIdleFlit p flit) ({ taken with nak := true }.answer false)) ∧
      (here → sound flit → (field flit 63 60 = 0 → becomes (.umnorIdleFlit p flit) (heard.answer (x.testBit 34))) ∧
        (field flit 63 60 = 1 → becomes (.umnorDataFlit p flit) ((if seq = u.expect then { heard with
          received := heard.received ++ [(flit.drop 8).take 240], expect := u.expect + 1, acked := some seq, nak := false } else heard).answer
            (x.testBit 34)))) ∧
      (u.unacked = [] → exec (.umnorReplayTimeout p) s = .next s) ∧
      (u.unacked ≠ [] → becomes (.umnorReplayTimeout p) (taken.answer true)) ∧
      (¬active → exec (.umnorNegFlit p flit) s = .next s) ∧
      (active → ¬sound flit → ∃ t, exec (.umnorNegFlit p flit) s = .next t ∧ only t ∧
        if u.retraining = true ∧ u.heard = false then sends t { taken with nak := true } else t.port p = { taken with nak := true }) ∧
      (active → sound flit → field flit 63 60 ≠ 2 → exec (.umnorNegFlit p flit) s = .next s) ∧
      (active → sound flit → field flit 63 60 = 2 →
        let r := negOf ((flit.drop 8).take 240)
        let known := s.incarnations.getD (8 + p) 0
        let old : Prop := u.peerSerial = r.serial ∧ known ≠ r.incarnation ∧ (known - r.incarnation).msb = false
        let again : Prop := u.peerSerial = r.serial ∧ u.peerInc ≠ r.incarnation
        let met : Prop := u.retraining = true ∧ u.heard = true
        let best : Nat := if 16 ∈ r.lanes then 16 else if 8 ∈ r.lanes then 8 else if 4 ∈ r.lanes then 4 else 0
        (old → exec (.umnorNegFlit p flit) s = .next { s with dropped := s.dropped + 1 }) ∧
        (¬old → met → ∃ t, exec (.umnorNegFlit p flit) s = .next t ∧ only t ∧
          if x.testBit 34 = true then sends t heard else t.port p = heard) ∧
        (¬old → ¬met → ∃ t, exec (.umnorNegFlit p flit) s = .next t ∧ (∀ q, q ≠ p → t.port q = s.port q) ∧
          { t with umnor := s.umnor, incarnations := s.incarnations, log := s.log, logLost := s.logLost, redHeld := s.redHeld } = s ∧
          t.log = (if best = 0 then (s.logEvent 3 (512 + p) 0 1).log else s.log) ∧
          t.incarnations.getD (8 + p) 0 = r.incarnation ∧ (¬again → t.redHeld = s.redHeld) ∧
          (again → ∀ c, c ∈ t.redHeld ↔ c ∈ s.redHeld ∧ c.port ≠ some p) ∧
          sends t { heard with
            enabled := u.enabled && decide (best ≠ 0), lanes := best, rate := if best = 0 then 0 else min 2125 r.rate,
            peerSerial := r.serial, peerInc := r.incarnation, peerDead := false, retraining := decide (best ≠ 0),
            heard := decide (best ≠ 0), nak := false, received := if again then [] else heard.received }))) ∧
    (u.retraining = false → ∀ ok, exec (.umnorRetrain p ok) s = .next s) ∧
    (u.heard = false → exec (.umnorRetrain p true) s = .next s) ∧
    (u.retraining = true → u.heard = true → ∃ t, exec (.umnorRetrain p true) s = .next t ∧ (∀ q, q ≠ p → t.port q = s.port q) ∧
      { t with umnor := s.umnor, log := s.log, logLost := s.logLost } = s ∧ t.port p = { u with
        enabled := true, retraining := false, heard := false, retrains := 0, replays := 0,
        wire := if u.stopSeen = true then [] else u.unacked.map u.dataFlit } ∧
      t.log = if u.enabled = true ∨ u.lanes < 16 ∨ u.rate < 2125 then (s.logEvent 3 (512 + p) 0 1).log else s.log) ∧
    (u.retraining = true → u.retrains < 2 → ∃ t, exec (.umnorRetrain p false) s = .next t ∧ only t ∧
      sends t { u with retrains := u.retrains + 1, heard := false, wire := [] }) ∧
    (u.retraining = true → 2 ≤ u.retrains → ∃ t, exec (.umnorRetrain p false) s = .next t ∧ (t.port p).enabled = false ∧
      (t.port p).peerDead = true ∧
      (t.port p).retrains = 0 ∧ t.incarnations.getD (8 + p) 0 = s.incarnations.getD (8 + p) 0 + 1 ∧
      (s.groups = [] → t.log = ((s.logEvent 3 (512 + p) 0 1).logEvent 2 (512 + p) 0 (s.incarnations.getD (8 + p) 0 + 1).toNat).log))) ∧
  (∀ u : Umnor, u.answer true = (resent (stopped u)).answer false ∧
    let v := u.answer false
    v.received = u.received ∧ v.expect = u.expect ∧ v.acked = u.acked ∧ v.nak = u.nak ∧ v.freeBuffers = 1024 - u.received.length ∧
    v.stopSent = decide (1024 - u.received.length ≤ 64) ∧
    (u.enabled = false ∨ u.stopSeen = true ∨ u.retraining = true → v.sendq = u.sendq ∧ v.unacked = u.unacked ∧ v.nextSeq = u.nextSeq) ∧
    (u.enabled = true → u.stopSeen = false → u.retraining = false → u.unacked.length + u.sendq.length ≤ 1024 → v.sendq = [] ∧
      v.nextSeq = u.nextSeq + BitVec.ofNat 12 u.sendq.length ∧
      v.unacked = u.unacked ++ u.sendq.zipIdx.map fun e => (u.nextSeq + BitVec.ofNat 12 e.2, e.1))) ∧
  (∀ (s : State) (p : Nat) (c : CxlPartner),
    let old := s.cxl.getD p CxlPort.reset
    let rate : Nat := if 128 ∈ c.rates then 128 else if 64 ∈ c.rates then 64 else if 32 ∈ c.rates then 32 else 0
    let width : Nat := if 16 ≤ c.width then 16 else if 8 ≤ c.width then 8 else if 4 ≤ c.width then 4 else 0
    let trains : Prop := c.flit256 = true ∧ rate ≠ 0 ∧ width ≠ 0
    let active : Prop := s.boot.powered = true ∧ s.boot.accepted = true
    (¬active → exec (.cxlPortTraining p c) s = .next s) ∧
    (active → ∃ t, exec (.cxlPortTraining p c) s = .next t ∧ (∀ q, q ≠ p → t.cxl.getD q CxlPort.reset = s.cxl.getD q CxlPort.reset) ∧
      (trains → t.cxl.getD p CxlPort.reset = { old with trained := true, disabled := false, rate := rate, width := width } ∧
        t.windows = s.windows ∧ t.log = if old.trained = false ∧ old.disabled = false ∧ rate = 128 ∧ width = 16 then s.log
          else (s.logEvent 3 (528 + p) 0 1).log) ∧
      (¬trains → t.cxl.getD p CxlPort.reset = { old with trained := false, disabled := true, rate := 0, width := 0 } ∧
        ((s.windows.map Prod.fst).Nodup → ∀ n w, s.windows.get? n = some w →
          t.windows.get? n = some (if w.ports.getLsbD p then { w with valid := false } else w)) ∧
        t.log = (s.logEvent 3 (528 + p) 0 1).log))) ∧
  (∀ (s : State) (p : Nat), exec (.ethernetLinkDown p) s = .next { s with ether := s.ether.set p false } ∧
    exec (.ethernetLinkUp p) s = .next { s with ether := s.ether.set p true }) ∧
  (∀ (s : State) (c : Contribution),
    let e := s.group c.group
    let held := s.incarnations.getD (8 + c.port.getD 0) 0
    let old : Prop := c.port ≠ none ∧ held ≠ c.incarnation ∧ (held - c.incarnation).msb = false
    let b := ((s.blocks.find? fun b => b.group == c.group && b.tag == c.tag).getD ⟨c.group, c.tag, []⟩).parts
    let parts := b ++ [c]
    let others := s.blocks.filter fun y => !(y.group == c.group && y.tag == c.tag)
    let used := ((s.blocks.flatMap fun y => y.parts.filter fun z => z.port.getD 0 / 6 = c.port.getD 0 / 6).map fun z => z.len.toNat).sum
    let fits : Prop := used + c.len.toNat ≤ 8 * 2 ^ 20
    let off : Prop := c.group.toNat ∈ s.redOff
    let goes : Prop := ¬old ∧ ¬off ∧ e.getLsbD 63 = true
    let v := s.noteVia c
    let takes (u : State) : Prop := exec (.credContribution c) s = .next (u.takeHeld s.redHeld.length)
    (old ∨ (¬off ∧ e.getLsbD 63 = false) → exec (.credContribution c) s = .next { s with dropped := s.dropped + 1 }) ∧
    (¬old → off → exec (.credContribution c) s = .next { s with outbox := s.outbox ++ (match c.port with
      | some p => [(p, Outbound.result c.group c.tag (List.replicate c.len.toNat 0) (List.replicate (c.len.toNat / 8) true))]
      | none => []) }) ∧
    ({ v with redVia := s.redVia } = s ∧
      ∀ g p, p ∈ v.redVia.getD g [] ↔ p ∈ s.redVia.getD g [] ∨ (g = c.group.toNat ∧ c.port = some p)) ∧
    (goes → e.getLsbD 62 = false → takes { v with
      outbox := s.outbox ++ [((e.extractLsb' 58 4).toNat, Outbound.contribution { c with incarnation := s.moduleInc })] }) ∧
    (goes → e.getLsbD 62 = true →
      let refused : Prop := (∃ f, b.head? = some f ∧ (f.len ≠ c.len ∨ f.type ≠ c.type ∨ f.op ≠ c.op)) ∨ ∃ y ∈ b, y.rank = c.rank
      (refused → takes { v with
        outbox := s.outbox ++ [(c.port.getD (e.extractLsb' 58 4).toNat, Outbound.refusal c.group c.tag c.rank)] }) ∧
      (¬refused → ¬fits → takes { v with redHeld := s.redHeld ++ [c] }) ∧
      (¬refused → fits → (byRank parts).length ≠ (e.extractLsb' 40 6).toNat + 1 →
        takes { v with blocks := others ++ [⟨c.group, c.tag, parts⟩] }) ∧
      (¬refused → fits → (byRank parts).length = (e.extractLsb' 40 6).toNat + 1 →
        let r := blockResult (byRank parts)
        ∃ t, takes t ∧ { t with blocks := s.blocks, outbox := s.outbox, agenda := s.agenda } = v ∧ t.blocks = others ∧
          t.outbox = s.outbox ++ (v.redVia.getD c.group.toNat []).map (fun p => (p, Outbound.result c.group c.tag r.1 r.2)) ∧
          (s.credCopy c.group c.tag = none → t.agenda = s.agenda) ∧ ∀ core y, s.credCopy c.group c.tag = some (core, y) →
            t.agenda = s.agenda ++ [Actor.event (.credResult core c.group c.tag r.1 (.poison r.2))])) ∧
    (∀ k, (∀ d ∈ s.redHeld, 8 * 2 ^ 20 < s.credBytes (d.port.getD 0 / 6) + d.len.toNat) → s.takeHeld k = s) ∧
    (s.credBytes (c.port.getD 0 / 6) = used ∧
      (fits → ∀ rest, s.redHeld = c :: rest → s.takeHeld 1 = { s with redHeld := rest }.takePart c))) ∧
  (∀ (s : State) (core : Nat) (group : BitVec 8) (tag : BitVec 32) (data : List Byte) (rank : BitVec 6),
    let i : Instr := .credResult core group tag data (.refused rank)
    let mine : Prop := rank = (s.group group).extractLsb' 46 6
    (¬mine → exec i s = .next { s with outbox := s.outbox ++ (s.redVia.getD group.toNat []).map fun p => (p, Outbound.refusal group tag rank) }) ∧
    (mine → (∀ y, s.credCopy group tag ≠ some (core, y)) → exec i s = .next s) ∧
    (mine → ∀ y, s.credCopy group tag = some (core, y) →
      exec i s = .next ((s.modCopy core y.id fun z => { z with done := 0 }).porterFault core y.word 0x11 0 0))) ∧
  ∀ (s : State) (core : Nat) (group : BitVec 8) (tag : BitVec 32) (data : List Byte) (poison : List Bool),
    let i : Instr := .credResult core group tag data (.poison poison)
    let v : State := if (s.group group).getLsbD 62 = true then s
      else { s with outbox := s.outbox ++ (s.redVia.getD group.toNat []).map fun p => (p, Outbound.result group tag data poison) }
    ((∀ y, s.credCopy group tag ≠ some (core, y)) → exec i s = .next v) ∧
    ∀ y dst a q g n w o, s.credCopy group tag = some (core, y) → y.kind = .reduce dst a q g n w o →
      let r := v.modCopy core y.id fun z => { z with result := some (data, poison, 0) }
      let goesOn : Prop := (s.core core).porter.stopped = none
      ((s.core core).porter.stopped ≠ none → exec i s = .next r) ∧
      (∀ k f u, goesOn → writeResult (r.porterWho core y.gang) r dst data poison = (k, some f, u) →
        ∃ t, exec i s = .next t ∧ (t.core core).porter.stopped = some ⟨f.cause, f.addr, k⟩ ∧
          (t.core core).porter.copies = (u.core core).porter.copies.map (fun z =>
            if z.id = y.id then { z with result := some (data, poison, k) } else z) ∧
          { t with gangs := u.gangs, cores := u.cores, reports := u.reports, log := u.log, logLost := u.logLost } = u) ∧
      ∀ k u, goesOn → writeResult (r.porterWho core y.gang) r dst data poison = (k, none, u) → ∃ t, exec i s = .next t ∧
        { t with gangs := u.gangs, cores := u.cores } = u ∧
        (∀ m, m ≠ core → t.core m = u.core m) ∧ t.core core = { u.core core with
          porter := { (u.core core).porter with copies := (u.core core).porter.copies.filter fun z => z.id ≠ y.id } } ∧
        (∀ m, m ≠ y.gang → t.gang m = u.gang m) ∧
        (t.gang y.gang).absent = (u.gang y.gang).absent.filter fun z => z.core ≠ core ∨ z.copy ≠ y.id

/-- R40, R349 to R351: power-good leaves the machine as after reset with memory and the fused minimum, and a new number of the module; an
image is refused with the first check that it fails, up to 8 for each server, or accepted, with its configuration applied and a NEG flit sent
on every Umnor port; the accepted digest is attested; a sample above 1,900 W cuts every budget; clocks step by 100 MHz up to 3.0 GHz; a
stopped block keeps its state, and neither CLOCK nor the counts of its crews count its cycles (R91, R277, R321). The numbers of refusals, of blocks and of sources, the floor of a clock,
the rounding of a budget, the readings of the monitors, the number of servers and the module's number are the model's choice (log 24, 25, 66,
67, 105 to 107). -/
def Obligations.BootAndPower : Prop :=
  (∀ s : State, ∃ t, exec .powerGood s = .next t ∧
    { t with mem := [], poison := [], ether := State.reset.ether, agenda := [], fresh := 0, memLate := false, incarnations := [],
             boot := Boot.reset } = State.reset ∧
    t.mem = s.mem ∧ t.poison = s.poison ∧ t.ether = s.ether ∧ t.agenda = s.agenda ∧
    (∀ k, t.incarnations.getD k 0 = if k = 52 then s.incarnations.getD 52 0 + 1 else 0) ∧
    t.boot = { Boot.reset with powered := true, minSvn := s.boot.minSvn, servers := s.boot.servers }) ∧
  (∀ (s : State) (m : List Byte),
    let num (off n : Nat) : Nat := ofBytes ((m.drop off).take n)
    let link : Prop := true ∈ s.ether
    let shape : Prop := 0xA0 ≤ m.length ∧ num 4 4 = 0x564C4D38 ∧ num 0 2 = 1
    let signedWell : Prop := ecdsaOk Config.vellysKey (sha384 (m.take 0x40)) (beNat ((m.drop 0x40).take 48)) (beNat ((m.drop 0x70).take 48))
    let whole : Prop := (m.drop 0xA0).length = num 8 8 ∧ sha384 (m.drop 0xA0) = (m.drop 0x10).take 48
    let young : Prop := s.boot.minSvn ≤ num 2 2
    let refused (cause : Nat) : Prop := exec (.bootImageCheck m) s =
      .next ({ s with boot := { s.boot with attempts := s.boot.attempts + 1 } }.logEvent 6 1024 0 cause)
    let tries : Prop := s.boot.powered = true ∧ s.boot.accepted = false ∧ link ∧ s.boot.attempts < 8 * s.boot.servers
    (¬tries → exec (.bootImageCheck m) s = .next s) ∧ (tries →
      (¬shape → refused 1) ∧ (shape → ¬signedWell → refused 2) ∧ (shape → signedWell → ¬whole → refused 3) ∧
      (shape → signedWell → whole → ¬young → refused 4) ∧
      (shape → signedWell → whole → young →
        let v := { s with boot := { s.boot with accepted := true, minSvn := num 2 2, digest := (m.drop 0x10).take 48 } }.applySigned
          (Config.signed (m.drop 0xA0))
        ∃ t, exec (.bootImageCheck m) s = .next t ∧ { t with umnor := v.umnor } = v ∧ ∀ p,
          (12 ≤ p → t.port p = v.port p) ∧ (p < 12 → ∃ f, t.port p = { v.port p with
              retraining := true, heard := false, wire := (v.port p).wire ++ [f], freeBuffers := 1024 - (v.port p).received.length
              stopSent := decide (1024 - (v.port p).received.length ≤ 64) } ∧
            ofBytes (f.take 8) / 2 ^ 60 = 2 ∧ (crc64 (f.take 248)).toNat = ofBytes (f.drop 248) ∧
            negOf ((f.drop 8).take 240) = ⟨Config.serial, p, s.moduleInc, [4, 8, 16], 2125⟩)))) ∧
  (∀ (s : State) (nonce : Word),
    (s.boot.accepted = true → true ∈ s.ether → exec (.attestationRequest nonce) s =
      .next { s with boot := { s.boot with signature := Config.attest s.boot.digest nonce } }) ∧
    (s.boot.accepted = false ∨ true ∉ s.ether → exec (.attestationRequest nonce) s = .next s)) ∧
  (∀ (s : State) (w : Nat), (w ≤ 1900000 → exec (.powerSample w) s = .next s) ∧
    (1900000 < w → ∃ t, exec (.powerSample w) s = .next t ∧ { t with power := s.power } = s ∧ ∀ b x, s.power.get? b = some x →
      t.power.get? b = some { x with milliwatts := x.milliwatts * 1900000 / w })) ∧
  ∀ (s : State) (b : Nat),
    let x := s.powerOf b
    let becomes (i : Instr) (y : PowerBlock) (u : State) : Prop := ∃ t, exec i s = .next t ∧ t.powerOf b = y ∧
      (∀ n, n ≠ b → t.powerOf n = s.powerOf n) ∧ { t with power := s.power } = u
    (∀ down r, (x.stopped ≠ none → exec (.clockStep b down r) s = .next s) ∧
      (x.stopped = none → ∃ temp, becomes (.clockStep b down r)
        { x with mhz := if down = true then max 100 (x.mhz - 100) else min 3000 (x.mhz + 100), temp := temp,
                 volt := Config.monitor (s.fresh + 1), proc := Config.monitor (s.fresh + 2) } { s with fresh := s.fresh + 3 } ∧
        if down = true ∧ r = .temperature then 95 * 16 < temp.toInt else temp = Config.monitor s.fresh)) ∧
    (x.stopped ≠ none → exec (.thermalStop b) s = .next s) ∧
    (x.stopped = none → becomes (.thermalStop b) { x with stopped := some s.time, temp := 110 * 16 } (s.logEvent 5 b 0 1) ∧
      exec (.thermalResume b) s = .next s) ∧
    ∀ n, x.stopped = some n → ∃ t, exec (.thermalResume b) s = .next t ∧ t.powerOf b = { x with stopped := none, temp := 95 * 16 } ∧
      (∀ m, m ≠ b → t.powerOf m = s.powerOf m) ∧ { t with power := s.power, cores := s.cores, crews := s.crews } = s ∧
      let d := s.time - n
      (∀ c, (c ≠ b ∨ 256 ≤ b) → t.core c = s.core c) ∧
      (b < 256 → t.core b = { s.core b with lag := (s.core b).lag + d, lastJoin := (s.core b).lastJoin + d }) ∧
      ((s.crews.map Prod.fst).Nodup → ∀ k c, s.crew? k = some c → t.crew? k = some (
        if b < 256 ∧ c.core = b ∧ (s.gang (gangOf k)).core0.isSome = true then
          { c.updThr fullMask (fun _ th => { th with st := match th.st with
              | .parked (.asleep w) => .parked (.asleep (w + d))
              | st => st }) with stall := if c.stall = 0 then 0 else c.stall + d }
        else c))

/-- An invariant that every step keeps: every byte memory of the machine (physical memory, scratchpads, accumulator spaces, codebooks) is in
its canonical form, so that equal memories are equal data. -/
def Obligations.MemoryCanonical : Prop := ∀ s t, Machine.step s = .next t → Canonical s → Canonical t

/-! ## Status registers, hints and control flow (R36 to R40, R83, R91, R149, R154 to R159) -/

/-- R36, R38 and R40: MOVS gives the status register that its B field names.
R34, R35, R37 and R39: WRS writes the named register of each taking lane and nothing else; WRS of TLSB by USER threads raises
SUPERONLY, and a WRS of FSTAT with RM 6 or 7 in a taking lane raises ILLEGAL, for the whole fragment. -/
def Obligations.StatusRegisters : Prop :=
  (∀ (g : BitVec 3) (d b : BitVec 6), Yields (.movs g d b) d fun s key _ l r =>
      let c := s.crew key
      let y := s.gang (gangOf key)
      let th := c.th l
      (b = 0 → r.toNat = l.val) ∧ (b = 1 → r = BitVec.ofNat 64 (crewIndex key)) ∧ (b = 2 → r = BitVec.ofNat 64 y.lin) ∧
      (b = 3 → r = BitVec.ofNat 64 y.x) ∧ (b = 4 → r = BitVec.ofNat 64 y.y) ∧ (b = 5 → r = BitVec.ofNat 64 y.z) ∧
      (b = 6 → r = BitVec.ofNat 64 y.clus) ∧ (b = 7 → r.toNat = c.core % 32) ∧ (b = 8 → r = BitVec.ofNat 64 (c.core / 32)) ∧
      (b = 9 → r = BitVec.ofNat 64 y.ncrew) ∧ (b = 10 → r = BitVec.ofNat 64 (s.time - (s.core c.core).lag)) ∧
      (b = 11 → r = th.fstat) ∧ (b = 12 → r = th.tlsb) ∧ (b = 13 → r = BitVec.ofNat 64 th.rsdep) ∧ (b = 14 → r = th.pacc.setWidth 64) ∧
      (b = 15 → r = th.ptot.setWidth 64) ∧
      (b = 16 → r.extractLsb' 8 8 = th.wm ∧ r.getLsbD 0 = th.pmode ∧ r.extractLsb' 1 7 = 0 ∧ r.extractLsb' 16 48 = 0) ∧
      (b = 17 → r = c.cver.setWidth 64)) ∧
  ∀ (g : BitVec 3) (a b : BitVec 6),
    Completes (.wrs g a b) (fun s key F => b ≠ 11 ∧
        (b = 12 → ∀ l, inMask (taking (.wrs g a b) s key F) l = true → ((s.crew key).th l).sup = true))
      (fun s key F pc t => Goes s t key F id fun l th =>
        let v := srcInt s key 64 a l
        if inMask (taking (.wrs g a b) s key F) l then
          (if b = 12 then { th with tlsb := v, pc := pc + 4 }
          else if b = 14 then { th with pacc := v.setWidth 32, pc := pc + 4 }
          else if b = 15 then { th with ptot := v.setWidth 32, pc := pc + 4 }
          else { th with pc := pc + 4 })
        else { th with pc := pc + 4 }) ∧
    (∀ s key F pc, Issues (.wrs g a b) s key F pc → b = 12 →
      (maskOf fun l => inMask (taking (.wrs g a b) s key F) l && !((s.crew key).th l).sup) ≠ 0 →
      TrapsWith (.wrs g a b) s key F pc 0x15 (maskOf fun l => inMask (taking (.wrs g a b) s key F) l && !((s.crew key).th l).sup)
        fun _ => 0) ∧
    Completes (.wrsFstat g a)
      (fun s key F => ∀ l, inMask (taking (.wrsFstat g a) s key F) l = true → (srcInt s key 64 a l).extractLsb' 0 3 < 6#3)
      (fun s key F pc t => Goes s t key F id fun l th =>
        if inMask (taking (.wrsFstat g a) s key F) l then
          { th with fstat := ((srcInt s key 64 a l).extractLsb' 0 13).setWidth 64, pc := pc + 4 }
        else { th with pc := pc + 4 }) ∧
    (∀ s key F pc, Issues (.wrsFstat g a) s key F pc →
      (maskOf fun l => inMask (taking (.wrsFstat g a) s key F) l && decide (6#3 ≤ (srcInt s key 64 a l).extractLsb' 0 3)) ≠ 0 →
      TrapsWith (.wrsFstat g a) s key F pc 0x01
        (maskOf fun l => inMask (taking (.wrsFstat g a) s key F) l && decide (6#3 ≤ (srcInt s key 64 a l).extractLsb' 0 3)) fun _ => 0)

/-- R83, R84, R85 and R91: a NOP takes one issue slot; a STALL keeps the crew from issuing for its count; a hint word goes on with the run
that it begins or extends, which its fragment holds. -/
def Obligations.Hints : Prop :=
  let on (pc : Pc) (_ : Lane) (th : Thread) : Thread := { th with pc := pc + 4 }
  let joins (i : Instr) (f : HintRun → HintRun) : Prop := Completes i always fun s key F pc t => Goes s t key F id (on pc) ∧
    (t.crew key).run = some (f { ((s.crew key).run.getD ⟨F, pc, none, [], none, none⟩) with lanes := F })
  Completes .nop always (fun s key F pc t => Goes s t key F id (on pc) ∧ (t.crew key).run = none) ∧
  (∀ n : BitVec 6, Completes (.stall n) always fun s key F pc t =>
    Goes s t key F (fun c => { c with stall := if n = 0 then c.stall else s.time + 1 + n.toNat }) (on pc)) ∧
  (∀ r : BitVec 3, joins (.rnd r) fun h => { h with rnd := some r }) ∧
  (∀ e : BitVec 22, joins (.ximm e) fun h => { h with ximm := h.ximm ++ [e] }) ∧
  (∀ p : BitVec 3, joins (.guard p) fun h => { h with guard := some p }) ∧
  (∀ (k : BitVec 3) (o : BitVec 2), joins (.scope k o) fun h => { h with scope := some (k, o) })

/-- R31, R32, R154 and R155: a branch moves each taking lane to its target when every target is aligned and lies in the current overlay, and
a call besides pushes the entry (CVER, the current overlay, the next word, the lane's privilege); with 16 resident entries it spills the 8
oldest first, here into the scratchpad. The other lanes go on at the next word. A misaligned target of BRX or CALLX raises ALIGN, one
outside the overlay OVLXFER, a push at depth 4,112 SCRBOUND, and a spill its own fault. That OVLXFER reports the target as its address is
the model's reading (log 89). -/
def Obligations.Branches : Prop :=
  ∀ (g : BitVec 3) (o : BitVec 23) (a : BitVec 6),
    let direct (pc : Pc) (_ : State) (_ : Nat) (_ : Lane) : Pc := BitVec.ofInt 32 (pc.toInt + 4 + 4 * o.toInt)
    let indirect (_ : Pc) (s : State) (key : Nat) (l : Lane) : Pc := (srcInt s key 64 a l).extractLsb' 0 32
    let inOvl (s : State) (key : Nat) (pc t : Pc) : Prop := ∃ n off slots, overlayAt (s.hdrOf key) pc.toNat = some (n, off, slots) ∧
      off ≤ t.toNat ∧ t.toNat ≤ off + 4096 * slots - 1
    let ok (i : Instr) (tgt : Pc → State → Nat → Lane → Pc) (pc : Pc) (s : State) (key : Nat) (F : Mask) : Prop :=
      ∀ l, inMask (taking i s key F) l = true → (tgt pc s key l).toNat % 4 = 0 ∧ inOvl s key pc (tgt pc s key l)
    let goes (i : Instr) (tgt : Pc → State → Nat → Lane → Pc) : Prop := ∀ s key F pc, Issues i s key F pc → ok i tgt pc s key F →
      ∃ t, exec i s = .next t ∧ Goes s t key F id fun l th =>
        { th with pc := if inMask (taking i s key F) l then tgt pc s key l else pc + 4 }
    let calls (i : Instr) (tgt : Pc → State → Nat → Lane → Pc) : Prop := ∀ s key F pc, Issues i s key F pc → ok i tgt pc s key F →
      PushFails i s s key F pc (taking i s key F) ∧
      (PushRoom s key (taking i s key F) → ∃ t, exec i s = .next t ∧ Spills s t key (taking i s key F) ∧
        Goes { s with gangs := t.gangs } t key F (fun c => { c with pins := (t.crew key).pins }) fun l th =>
          if inMask (taking i s key F) l then { pushed th (callEntry s key pc th) with pc := tgt pc s key l } else { th with pc := pc + 4 })
    let traps (i : Instr) (tgt : Pc → State → Nat → Lane → Pc) : Prop := ∀ s key F pc, Issues i s key F pc →
      let bad := maskOf fun l => inMask (taking i s key F) l && decide ((tgt pc s key l).toNat % 4 ≠ 0)
      let out := maskOf fun l => inMask (taking i s key F) l && !sameOverlay (s.hdrOf key) pc (tgt pc s key l)
      (bad ≠ 0 → TrapsWith i s key F pc 0x07 bad fun l => (tgt pc s key l).setWidth 64) ∧
      (bad = 0 → out ≠ 0 → TrapsWith i s key F pc 0x0D out fun l => (tgt pc s key l).setWidth 64)
    goes (.bra g o) direct ∧ goes (.brx g a) indirect ∧ calls (.call g o) direct ∧ calls (.callx g a) indirect ∧
    traps (.bra g o) direct ∧ traps (.brx g a) indirect ∧ traps (.call g o) direct ∧ traps (.callx g a) indirect

/-! ## Exits, waits, traps and system instructions (R157 to R159, R276 to R278, R310, R323 to R331) -/

/-- R31, R32 and R157 to R159. In a crew in which nobody waits, EXIT ends its taking lanes, CONV lets its taking lanes go on at the next word
when their masks name only lanes that are among them or have exited and makes them wait otherwise, and RET takes each lane to the address
and the privilege of its newest entry, or ends it at depth 0; the pop of a last resident entry reads the newest spilled block back, here
from the scratchpad, and a refill that faults leaves all as it was. The last exit frees the crew. After EXIT
and CONV, no lane waits at a CONV whose set is complete. -/
def Obligations.Exits : Prop :=
  ∀ (g : BitVec 3) (a : BitVec 6),
    let ended (th : Thread) : Thread := { th with st := .exited, rstk := [], rsdep := 0, pmode := false, wm := 0 }
    let stays (i : Instr) (s : State) (key : Nat) (F : Mask) : Prop := ∃ l, inMask (taking i s key F) l = false ∧ ((s.crew key).th l).st ≠ .exited
    let live (t : State) (key : Nat) (c : Crew) : Crew := { c with pins := (t.crew key).pins }
    Completes (.exit g) (fun s key F => Quiet s key ∧ stays (.exit g) s key F) (fun s key F pc t =>
      Goes s t key F (live t key) fun l th => if inMask (taking (.exit g) s key F) l then ended th else { th with pc := pc + 4 }) ∧
    Completes (.exit g) (fun s key F => Quiet s key ∧ ¬stays (.exit g) s key F) (fun _ key _ _ t =>
      t.crew? key = none ∧ crewIndex key ∈ (t.gang (gangOf key)).crewsFreed) ∧
    Completes (.conv g a) (fun s key _ => Quiet s key ∧ (s.crew key).exited ≠ fullMask) (fun s key F pc t =>
      let c := s.crew key
      let take := taking (.conv g a) s key F
      let m (l : Lane) : Mask := (srcInt s key 64 a l).extractLsb' 0 32 ||| (1#32 <<< l.val)
      let gone (k : Lane) : Prop := (c.th k).st = .exited ∨ (inMask take k = false ∧ pc ∈ (c.th k).left)
      let done : Prop := ∀ l k, inMask take l = true → inMask (m l) k = true → inMask take k = true ∨ gone k
      let moved (l : Lane) (th : Thread) : Thread :=
        if inMask take l then { th with left := th.left.filter (· ≠ pc) } else { th with pc := pc + 4 }
      (done → Goes s t key F id fun l th => { moved l th with pc := pc + 4 }) ∧
      (¬done → Goes s t key F id fun l th => if inMask take l then { moved l th with pc := pc, st := .waiting (m l) } else moved l th)) ∧
    Completes (.ret g) (fun s key F => Quiet s key ∧ (∃ l, (inMask (taking (.ret g) s key F) l = false ∨ ((s.crew key).th l).rsdep ≠ 0) ∧
          ((s.crew key).th l).st ≠ .exited) ∧
        ∀ l, inMask (taking (.ret g) s key F) l = true → ((s.crew key).th l).rsdep = 0 ∨ MayPop s key ((s.crew key).th l))
      (fun s key F pc t =>
        Goes { s with cores := t.cores } t key F (live t key) fun l th =>
          if inMask (taking (.ret g) s key F) l then (if th.rsdep = 0 then ended th else popped s key th) else { th with pc := pc + 4 }) ∧
    (∀ s key F pc, Issues (.ret g) s key F pc →
      let th (l : Lane) : Thread := (s.crew key).th l
      let block (l : Lane) : Word := spillAt (th l) (((th l).rsdep - 1) / 8 - 1) 0
      let odd := maskOf fun l => inMask (taking (.ret g) s key F) l && decide ((th l).rstk.length = 1 ∧ 1 < (th l).rsdep ∧ (block l).toNat % 8 ≠ 0)
      odd ≠ 0 → (∀ l, inMask (taking (.ret g) s key F) l = true → inMask odd l = true ∨ (th l).rsdep = 0 ∨ 2 ≤ (th l).rstk.length) →
        TrapsWith (.ret g) s key F pc 0x07 odd block) ∧
    ∀ i ∈ [Instr.exit g, .conv g a], ∀ s key F pc, Issues i s key F pc → ∃ t, exec i s = .next t ∧ ∀ c, t.crew? key = some c → c.ConvsTested

/-- R277 and R321: YIELD, after which the crew stands behind every ready pending crew, and SLEEP, which parks nothing but the taking lanes
(the mark that orders ready crews is the model's choice: log 58); and TRAP, which raises SWTRAP with its number and the next word as
frame PC. -/
def Obligations.Sleeps : Prop :=
  ∀ (g : BitVec 3) (a n : BitVec 6),
    let on (pc : Pc) (_ : Lane) (th : Thread) : Thread := { th with pc := pc + 4 }
    let stands (t : State) (key : Nat) (c : Crew) : Crew :=
      { c with active := (t.crew key).active, readySince := (t.crew key).readySince, stall := (t.crew key).stall }
    let yields (i : Instr) (s : State) (key : Nat) (F : Mask) (pc : Pc) (t : State) : Prop :=
      let queued : Prop := ∃ p ∈ s.crews, p.1 ≠ key ∧ p.2.core = (s.crew key).core ∧ p.2.active = false ∧ s.ready p.1 p.2 = true
      Goes s t key F (stands t key) (on pc) ∧
      (taking i s key F = 0 ∨ ¬queued → (t.crew key).active = (s.crew key).active ∧ (t.crew key).stall = (s.crew key).stall) ∧
      (taking i s key F ≠ 0 → queued → (t.crew key).active = false ∧ (t.crew key).stall = 0 ∧ (t.crew key).readySince = 2 * s.time + 3)
    Completes (.yield g) always (yields (.yield g)) ∧
    Completes (.sleep g a) always (fun s key F pc t =>
      let take := taking (.sleep g a) s key F
      ∀ k, lowest take = some k →
        let count := (srcInt s key 64 a k).extractLsb' 0 32
        if count = 0 then yields (.sleep g a) s key F pc t
        else Goes s t key F id fun l th =>
          { th with pc := pc + 4, st := if inMask take l then .parked (.asleep (s.time + count.toNat)) else th.st }) ∧
    Completes (.trap g n) (fun s key F => taking (.trap g n) s key F = 0) (fun s key F pc t => Goes s t key F id (on pc)) ∧
    Completes (.trap g n) (fun s key F => taking (.trap g n) s key F ≠ 0) (fun s key F pc t =>
      ∃ info u, t = u.takeTrap key info ∧ Goes s u key F (fun c => { c with infl := (u.crew key).infl }) (fun _ th => th) ∧
        info.cause = 0x13 ∧ info.swn = n ∧ info.frag = F ∧ info.failing = taking (.trap g n) s key F ∧ info.pc = pc + 4 ∧
        info.tent = none)

/-- R323 to R327: TAKING A TRAP with a free frame slot. The frame goes to the lowest free slot of the crew's context region and nothing
else of memory changes; the fragment starts the ASID's handler in SUPER when the handler may take it, with its overlay resident, and
otherwise parks for Foreman, who is told. With no free slot the fragment waits. -/
def Obligations.TrapEntry : Prop :=
  ∀ (s : State) (key : Nat) (info : TrapInfo), (s.crew? key).isSome = true → info.frag ≠ 0 → info.entries = [] →
    let c := s.crew key
    let g := s.gang (gangOf key)
    let t := s.takeTrap key info
    let c' := t.crew key
    (∀ l, inMask info.frag l = false → c'.th l = c.th l) ∧ FileKept s t key ∧
    (∀ k, c.freeSlot = some k →
      let pa := g.framePa (crewIndex key) k
      let f (off n : Nat) : Nat := readNat t.mem (pa + off) n
      (∀ a, a < pa ∨ pa + 16384 ≤ a → readByte t.mem a = readByte s.mem a) ∧
      f 0 1 = info.cause.toNat ∧ f 1 1 = info.swn.toNat ∧ f 3 1 = 0 ∧ f 4 1 = (if c.supOf info.frag then 1 else 0) ∧ f 7 1 = 1 ∧
      f 8 4 = info.pc.toNat ∧ f 0xE 2 = c.cver.toNat ∧ f 0x10 4 = info.frag.toNat ∧ f 0x14 4 = info.failing.toNat ∧
      f 0x18 4 = c.exited.toNat ∧ f 0x1C 4 = 0 ∧ f 0x30 8 = g.lin % 2 ^ 64 ∧
      (∀ l : Lane, f (0x100 + 8 * l.val) 8 = (if inMask info.failing l then (info.faddr.at l).toNat else 0) ∧
        f (0x200 + 8 * l.val) 8 = (c.th l).fstat.toNat ∧ f (0x340 + l.val) 1 = (c.th l).wm.toNat ∧
        f (0x380 + 4 * l.val) 4 = (c.npcOf info l).toNat ∧ (∀ n : Fin 4, f (0x400 + 256 * n.val + 8 * l.val) 8 = (c.latches[n.val].val.at l).toNat) ∧
        ∀ n : Fin 8, f (0x800 + 256 * n.val + 8 * l.val) 8 = (c.shadow[n.val].at l).toNat) ∧
      ((c'.slots.getD k none).map fun u => (u.frag, u.cause, u.foreman)) = some (info.frag, info.cause, !s.localTrap key info) ∧
      let tvec := (s.asidEntry g.asid).tvec
      let mine := s.localTrap key info
      (mine = true → (∀ n off slots, overlayAt (s.hdrOf key) (tvec.extractLsb' 0 32).toNat = some (n, off, slots) →
          s.ovlResident c.core g.asid c.cver off = true) →
        (∀ l, inMask info.frag l = true → c'.th l = { c.th l with
          pc := tvec.extractLsb' 0 32, sup := true, st := .live, fstat := 0, pmode := false, wm := 0, held := some k }) ∧
        ∀ n : Fin 4, c'.latches[n.val].valid = false) ∧
      (mine = false → (∀ l, inMask info.frag l = true → c'.th l = { c.th l with st := .parked (.foreman k) }) ∧
        t.reports = s.reports ++ [.trap key k info.cause (BitVec.ofNat 64 (g.frameVa (crewIndex key) k))])) ∧
    (c.freeSlot = none → t.mem = s.mem ∧ ∀ l, inMask info.frag l = true → c'.th l = { c.th l with st := .parked (.slotWait info) })

/-- R331 and R332: TRET. A USER thread raises SUPERONLY, and a lane without a frame ILLEGAL. When exactly the lanes of a frame issue it,
and the frame is in order, each lane of KILL ends and every other one goes on at its NPC with the privilege, FSTAT, proposal mode and WM
that the frame holds, and the slot is free; the registers and all of memory stand still. Which lanes complete the set is the model's
reading (log 72). -/
def Obligations.TrapReturn : Prop :=
  (∀ s key F pc, Issues .tret s key F pc → (∃ l, inMask F l = true ∧ ((s.crew key).th l).sup = false) →
    TrapsWith .tret s key F pc 0x15 F fun _ => 0) ∧
  (∀ s key F pc, Issues .tret s key F pc → (∀ l, inMask F l = true → ((s.crew key).th l).sup = true) →
    (∃ l, inMask F l = true ∧ ((s.crew key).th l).held = none) → TrapsWith .tret s key F pc 0x01 F fun _ => 0) ∧
  ∀ k : Fin 4, Completes .tret (fun s key F => Quiet s key ∧ FrameGood s key k.val F false ∧
      ∀ l, inMask F l = true → ((s.crew key).th l).sup = true ∧ ((s.crew key).th l).held = some k.val ∧ ((s.crew key).th l).st = .live)
    fun s key F _ t => FrameReturns s t key k.val F

/-- R277: RDSYS of each system register, and WRSYS, which writes it from the lowest taking lane. A quota above what the core's 48 slots
leave is cut to that. -/
def Obligations.SystemRegisters : Prop :=
  ∀ (g : BitVec 3) (d a b : BitVec 6),
    Yields (.rdsys g d b) d (fun s key _ l r =>
      let c := s.crew key
      let y := s.gang (gangOf key)
      let e := s.asidEntry y.asid
      (b = 0 → r = y.asid.setWidth 64) ∧ (b = 1 → r = e.tvec) ∧ (b = 3 → r = e.cvtab) ∧ (b = 5 → r = e.redspill) ∧
      (b = 2 → r = match (c.th l).held with
        | some k => BitVec.ofNat 64 (y.ctxVa + (crewIndex key * 4 + k) * 16384)
        | none => 0) ∧
      (b = 4 → r = BitVec.ofNat 64 (quotaOf (s.core c.core) y.asid)) ∧ (b = 6 → r = e.redsplen.setWidth 64) ∧
      (b = 7 → r = BitVec.ofNat 64 (s.die (c.core / 32)).fstsize) ∧ (b = 8 → r = (s.powerOf c.core).temp.setWidth 64) ∧
      (b = 9 → r = (s.powerOf c.core).volt.setWidth 64) ∧ (b = 10 → r = (s.powerOf c.core).proc.setWidth 64) ∧
      (b = 11 → r = BitVec.ofNat 64 (s.powerOf c.core).mhz) ∧ (b = 12 → r = (s.die (c.core / 32)).replay.setWidth 64)) ∧
    Completes (.wrsys g a b) always (fun s key F pc t =>
      let asid := (s.gang (gangOf key)).asid
      let e := s.asidEntry asid
      let set (e : AsidEntry) : State := { s with asids := s.asids.set asid.toNat e }
      let on (u : State) : Prop := Goes u t key F id fun _ th => { th with pc := pc + 4 }
      (taking (.wrsys g a b) s key F = 0 → on s) ∧
      ∀ k, lowest (taking (.wrsys g a b) s key F) = some k →
        let v := srcInt s key 64 a k
        (b = 1 → on (set { e with tvec := v })) ∧ (b = 3 → on (set { e with cvtab := v })) ∧ (b = 5 → on (set { e with redspill := v })) ∧
        (b = 6 → on (set { e with redsplen := v.extractLsb' 0 32 })) ∧
        (b = 12 → on { s with dies := t.dies } ∧ (t.die ((s.crew key).core / 32)).replay = v.extractLsb' 0 32)) ∧
    Completes (.wrsysOvquota g a) always (fun s key F pc t =>
      let asid := (s.gang (gangOf key)).asid
      let core := (s.crew key).core
      let others := ((s.core core).quota.filter fun p => p.1 ≠ asid.toNat).foldl (fun n p => n + p.2) 0
      (Goes { s with cores := t.cores } t key F id fun _ th => { th with pc := pc + 4 }) ∧
      ∀ k, lowest (taking (.wrsysOvquota g a) s key F) = some k →
        quotaOf (t.core core) asid = min ((srcInt s key 64 a k).extractLsb' 0 6).toNat (48 - others))

/-- R278 and R310: LAUNCH submits a block per taking lane in ascending order, and each lane's word tells what became of it; the queue is
bound to an ASID or to none by Foreman, and a host's submission over a link that is up follows the same rule. The upper half of the word
of a refused lane, 0, is the model's choice (log 29). -/
def Obligations.Launches : Prop :=
  (∀ (g : BitVec 3) (d a b : BitVec 6), Completes (.launch g d a b) always fun s key F pc t =>
    let i := Instr.launch g d a b
    let asid := (s.gang (gangOf key)).asid
    let q (l : Lane) : Nat := ((srcInt s key 64 b l).extractLsb' 0 6).toNat
    let before (n : Nat) (l : Lane) : Nat := (maskLanes (taking i s key F)).countP fun m => decide (m < l) && decide (q m = n)
    let s' := if taking i s key F = 0 then s else s.fenceRelease (s.crew key).core
    WritesReg { s' with queues := t.queues } t key F pc d (taking i s key F) (fun l =>
      let y := s.queue (q l)
      if y.asid ≠ some asid then 2
      else if 64 ≤ y.entries.length + before (q l) l then 1
      else (y.nextSeq + BitVec.ofNat 32 (before (q l) l)) ++ 0#32) ∧
    ∀ n, ((s.queue n).asid ≠ some asid → t.queue n = s.queue n) ∧
      ((s.queue n).asid = some asid → (t.queue n).entries = (s.queue n).entries ++
        (((maskLanes (taking i s key F)).filter fun l => q l = n).take (64 - (s.queue n).entries.length)).zipIdx.map fun p =>
          ⟨srcInt s key 64 a p.1, (s.queue n).nextSeq + BitVec.ofNat 32 p.2, asid, none⟩)) ∧
  (∀ (asid : BitVec 12) (q : BitVec 6) (block : Word) (s : State),
    let y := s.queue q.toNat
    let goes : Bool := s.ether.contains true && y.asid == some asid && decide (y.entries.length < 64)
    (goes = false → exec (.hostLaunchSubmit asid q block) s = .next s) ∧
    let y' := { y with entries := y.entries ++ [⟨block, y.nextSeq, asid, none⟩], nextSeq := y.nextSeq + 1 }
    (goes = true → exec (.hostLaunchSubmit asid q block) s = .next { s with queues := s.queues.set q.toNat y' })) ∧
  ∀ (q : BitVec 6) (asid : Option (BitVec 12)) (s : State),
    exec (.queueBind q asid) s = .next { s with queues := s.queues.set q.toNat { s.queue q.toNat with asid := asid } }

/-- R276: the status of CVPUB by its cases, and CVSWITCH: status 2 when some thread takes no part and 1 when some return stack is not
empty (the order of these two is the model's choice), with nothing changed; status 0 when the crew now runs under CUR and its header.
That order is log 27. -/
def Obligations.CodeVersions : Prop :=
  ∀ (g : BitVec 3) (d a : BitVec 6),
    Completes (.cvpub g d a) always (fun s key F pc t =>
      let take := taking (.cvpub g d a) s key F
      let asid := (s.gang (gangOf key)).asid
      let s' := s.systemRelease (s.crew key).core
      let cvtab := (s'.asidEntry asid).cvtab
      let wrote (u : State) (st : Word) : Prop := WritesReg u t key F pc d take fun _ => st
      (take = 0 → wrote s 0) ∧
      ∀ k, lowest take = some k →
        let v := (srcInt s key 64 a k).extractLsb' 0 16
        (∀ cur x y, s'.curVersion asid = some cur → s'.version asid v = some (x, y) → cur ≠ v → x.getLsbD 0 = true →
          let s2 := s'.publishStore (s.crew key).core asid v
          wrote ((s2.deviceWrite asid (versionAt cvtab v) (x ||| 2)).addBinds asid cur 0) 0 ∧
          ∀ pa, s'.devicePa asid cvtab = some pa →
            (s2.home (pa / 128)).rv = true ∧ (s2.home (pa / 128)).rcore = BitVec.ofNat 8 (s.crew key).core) ∧
        (s'.curVersion asid = some v → wrote s' 1) ∧
        (s'.curVersion asid ≠ some v → (∀ x y, s'.version asid v = some (x, y) → x.getLsbD 0 = false) → wrote s' 2)) ∧
    Completes (.cvswitch g d) (fun s key F => taking (.cvswitch g d) s key F = 0 ∨
        (∃ l, ((s.crew key).th l).st ≠ .exited ∧ inMask (taking (.cvswitch g d) s key F) l = false) ∨
        ∃ l, inMask (taking (.cvswitch g d) s key F) l = true ∧ ((s.crew key).th l).rsdep ≠ 0)
      (fun s key F pc t =>
        let take := taking (.cvswitch g d) s key F
        let all : Prop := ∀ l, ((s.crew key).th l).st ≠ .exited → inMask take l = true
        WritesReg s t key F pc d take fun _ => if all then 1 else 2) ∧
    ∀ s key F pc cur h, Issues (.cvswitch g d) s key F pc →
      let take := taking (.cvswitch g d) s key F
      let asid := (s.gang (gangOf key)).asid
      take ≠ 0 → take = ~~~(s.crew key).exited → (∀ l, inMask take l = true → ((s.crew key).th l).rsdep = 0) →
      s.curVersion asid = some cur → s.readHeader asid cur (s.hdrOf key).koff (s.gang (gangOf key)).ncore = .ok h →
      overlayNum h (pc + 4) = overlayNum (s.hdrOf key) (pc + 4) → (overlayNum h (pc + 4)).isSome = true →
      ∃ t, exec (.cvswitch g d) s = .next t ∧ (t.crew key).cver = cur ∧ (t.crew key).hdr = some h ∧ (t.crew key).switched = true ∧
        (∀ l, inMask F l = true → ((t.crew key).th l).pc = pc + 4) ∧ (d < 48 → ∀ l, inMask take l = true → (t.crew key).reg d.toNat l = 0)

/-! ## Floating point (R106 to R109, R161 to R178) -/

/-- R106: a nonzero magnitude m × 2^e is rounded once. A finite result has the sign given, its NX is clear exactly when it equals the
exact value, and no code of the format lies nearer (RNE, RNA), or between the exact value and it on the side of the mode (RTZ, RUP, RDN);
ties go to the even code (RNE) or away from zero (RNA), and RTO gives an odd code next to an inexact value. An infinite result has OF. -/
def Obligations.Rounding : Prop :=
  ∀ f ∈ [fmtD, fmtS, fmtH, fmtBf], ∀ (rm : BitVec 3) (neg : Bool) (m : Nat) (e : Int), rm < 6 → 0 < m →
    let r := roundNum f rm neg m e false
    let down : Bool := rm == 2 || (rm == 3 && neg) || (rm == 4 && !neg)
    let up : Bool := (rm == 3 && !neg) || (rm == 4 && neg)
    r.1 < 2 ^ f.width ∧ (decodeFp f r.1 = .inf neg → r.2 &&& excOF ≠ 0) ∧ (decodeFp f r.1).isNaN = false ∧
    ∀ n' m' e', decodeFp f r.1 = .fin n' m' e' → n' = neg ∧
      ∀ e0, e0 ≤ e → e0 ≤ e' →
        let v : Int := m * 2 ^ (e - e0).toNat
        let v' : Int := m' * 2 ^ (e' - e0).toNat
        (r.2 &&& excNX = 0 ↔ v' = v) ∧ (down = true → v' ≤ v) ∧ (up = true → v ≤ v') ∧ (rm = 5 → v' ≠ v → r.1 % 2 = 1) ∧
        ∀ x m2 e2, x < 2 ^ f.width → decodeFp f x = .fin neg m2 e2 → e0 ≤ e2 →
          let w : Int := m2 * 2 ^ (e2 - e0).toNat
          (rm ≤ 1 → (v' - v).natAbs ≤ (w - v).natAbs) ∧ (down = true → w ≤ v → w ≤ v') ∧ (up = true → v ≤ w → v' ≤ w) ∧
          (rm = 5 → ¬(v' < w ∧ w < v) ∧ ¬(v < w ∧ w < v')) ∧
          ((v' - v).natAbs = (w - v).natAbs → w ≠ v' → (rm = 0 → r.1 % 2 = 0) ∧ (rm = 1 → w < v'))

/-- R161 to R167: FADD, FSUB, FMUL, FDIV and the FMA family on each sub-element, with their rounding modes, flags and FPX; what their
special cases give; and, of finite operands, the exact value rounded once in the lane's mode, for FDIV as a quotient to any number of bits
with what is left over. -/
def Obligations.FloatArithmetic : Prop :=
  (∀ (g r : BitVec 3) (d a b c : BitVec 6) (t : BitVec 2),
    FpEach2 (.fadd g d a b r t) d a b r t fpAdd ∧ FpEach2 (.fsub g d a b r t) d a b r t fpSub ∧
    FpEach2 (.fmul g d a b r t) d a b r t fpMul ∧ FpEach2 (.fdiv g d a b r t) d a b r t fpDiv ∧
    ∀ p ∈ [(Instr.fma d a b c t, false, false), (.fms d a b c t, false, true), (.fnma d a b c t, true, false), (.fnms d a b c t, true, true)],
      FpYields p.1 d fun s key l => joinSubs (fpFormat t).width fun j =>
        fpFma (fpFormat t) (laneRm s key (((s.crew key).run.bind fun h => h.rnd).getD 0) l) p.2.1 p.2.2
          (fpEl s key t a l j) (fpEl s key t b l j) (fpEl s key t c l j)) ∧
  (∀ f ∈ [fmtD, fmtS, fmtH, fmtBf], ∀ (rm : BitVec 3) (x y : Nat) (n n' : Bool) (m : Nat) (e : Int),
    (decodeFp f x = .inf n → decodeFp f y = .inf (!n) → fpAdd f rm x y = (codeNaN f, excNV)) ∧
    (decodeFp f x = .inf n → decodeFp f y = .inf n → fpSub f rm x y = (codeNaN f, excNV)) ∧
    (decodeFp f x = .inf n → decodeFp f y = .fin n' m e → fpAdd f rm x y = (codeInf f n, 0) ∧ fpSub f rm y x = (codeInf f (!n), 0)) ∧
    (decodeFp f x = .inf n → decodeFp f y = .fin n' 0 e → fpMul f rm x y = (codeNaN f, excNV) ∧ fpMul f rm y x = (codeNaN f, excNV)) ∧
    (decodeFp f x = .inf n → decodeFp f y = .inf n' → fpMul f rm x y = (codeInf f (n != n'), 0) ∧ fpDiv f rm x y = (codeNaN f, excNV)) ∧
    (decodeFp f x = .fin n 0 e → decodeFp f y = .fin n' 0 e → fpDiv f rm x y = (codeNaN f, excNV)) ∧
    (0 < m → decodeFp f x = .fin n m e → ∀ e', decodeFp f y = .fin n' 0 e' → fpDiv f rm x y = (codeInf f (n != n'), excDZ)) ∧
    (decodeFp f x = .inf n → decodeFp f y = .fin n' m e → fpDiv f rm x y = (codeInf f (n != n'), 0) ∧
      fpDiv f rm y x = (codeZero f (n != n'), 0))) ∧
  ∀ f ∈ [fmtD, fmtS, fmtH, fmtBf], ∀ (rm : BitVec 3) (x y z : Nat), x < 2 ^ f.width → y < 2 ^ f.width → z < 2 ^ f.width →
    let a := decodeFp f x
    let b := decodeFp f y
    let c := decodeFp f z
    (∀ r, nanOf f [x, y] = some r → fpAdd f rm x y = r ∧ fpSub f rm x y = r ∧ fpMul f rm x y = r ∧ fpDiv f rm x y = r) ∧
    (∀ n m e n' m' e', a = .fin n m e → b = .fin n' m' e' →
      fpAdd f rm x y = sumRounded f rm n m e n' m' e' ∧ fpSub f rm x y = sumRounded f rm n m e (!n') m' e' ∧
      fpMul f rm x y = roundNum f rm (n != n') (m * m') (e + e') false ∧
      (m = 0 → 0 < m' → fpDiv f rm x y = (codeZero f (n != n'), 0)) ∧
      (0 < m → 0 < m' → ∀ k : Nat, f.m + 5 + m'.log2 ≤ k →
        fpDiv f rm x y = roundNum f rm (n != n') (m * 2 ^ k / m') (e - e' - k) (m * 2 ^ k % m' != 0))) ∧
    ∀ np nc : Bool,
      let r := fpFma f rm np nc x y z
      let lost := (∃ n n' e, a = .inf n ∧ b = .fin n' 0 e) ∨ ∃ n n' e, a = .fin n 0 e ∧ b = .inf n'
      (lost → r = (if c.isNaN then z ||| 2 ^ (f.m - 1) else codeNaN f, excNV)) ∧
      (¬lost → ∀ v, nanOf f [x, y, z] = some v → r = v) ∧
      (¬lost → a.isNaN = false → b.isNaN = false → ∀ n n', a.isNeg = n → b.isNeg = n' →
        let neg := (n != n') != np
        (∀ n3, c = .inf n3 → ((∃ k, a = .inf k) ∨ ∃ k, b = .inf k) → r = if neg = (n3 != nc) then (codeInf f neg, 0) else (codeNaN f, excNV)) ∧
        (∀ n3 m3 e3, c = .fin n3 m3 e3 → ((∃ k, a = .inf k) ∨ ∃ k, b = .inf k) → r = (codeInf f neg, 0)) ∧
        ∀ m e m' e', a = .fin n m e → b = .fin n' m' e' →
          (∀ n3, c = .inf n3 → r = (codeInf f (n3 != nc), 0)) ∧
          ∀ n3 m3 e3, c = .fin n3 m3 e3 → r = sumRounded f rm neg (m * m') (e + e') (n3 != nc) m3 e3)

/-- R168 and R169: the functions of FUN on each sub-element, and the results that the table fixes for special operands and NaN; FRINT's
integral values; FSQRT, FRSQ and FRCP of ordinary operands as the root and the quotient to any number of bits, with what is left over; FEXP2
of integers and FLOG2 of powers of two; cos −x; and, for every function, values correctly rounded to nearest, down and up. That the
enclosures of the other operands suffice is presumed (log 78), and stated nowhere. -/
def Obligations.FloatFunctions : Prop :=
  (∀ (g r : BitVec 3) (d a : BitVec 6) (t : BitVec 2),
    ∀ p ∈ [(Instr.fsqrt g d a r t, 0), (.frsq g d a r t, 1), (.frcp g d a r t, 2), (.fexp g d a r t, 3), (.fexp2 g d a r t, 4),
        (.fexpm1 g d a r t, 5), (.flog g d a r t, 6), (.flog2 g d a r t, 7), (.flog1p g d a r t, 8), (.ferf g d a r t, 9),
        (.ferfc g d a r t, 10), (.fsin g d a r t, 11), (.fcos g d a r t, 12), (.ftanh g d a r t, 13), (.frint g d a r t, 14)],
      FpEach1 p.1 d a r t fun f rm x => fpFun f rm p.2 x) ∧
  ∀ f ∈ [fmtD, fmtS, fmtH, fmtBf], ∀ (rm : BitVec 3), rm < 6 →
    let zero (n : Bool) : Nat := if n then 2 ^ (f.width - 1) else 0
    let inf (n : Bool) : Nat := zero n + (2 ^ f.e - 1) * 2 ^ f.m
    let one (n : Bool) : Nat := zero n + f.bias.toNat * 2 ^ f.m
    let two : Nat := (f.bias.toNat + 1) * 2 ^ f.m
    let nv : Nat × Exc := (codeNaN f, excNV)
    (∀ n, ∀ k ∈ [0, 5, 8, 9, 11, 13, 14], fpFun f rm k (zero n) = (zero n, 0)) ∧
    (∀ n, fpFun f rm 1 (zero n) = (inf n, excDZ) ∧ fpFun f rm 2 (zero n) = (inf n, excDZ) ∧ fpFun f rm 2 (inf n) = (zero n, 0)) ∧
    (∀ n, ∀ k ∈ [3, 4, 10, 12], fpFun f rm k (zero n) = (one false, 0)) ∧
    (∀ n, fpFun f rm 6 (zero n) = (inf true, excDZ) ∧ fpFun f rm 7 (zero n) = (inf true, excDZ)) ∧
    (∀ k ∈ [0, 3, 4, 5, 6, 7, 8, 14], fpFun f rm k (inf false) = (inf false, 0)) ∧
    (∀ k ∈ [0, 1, 6, 7, 8], fpFun f rm k (inf true) = nv) ∧ fpFun f rm 1 (inf false) = (zero false, 0) ∧
    fpFun f rm 3 (inf true) = (zero false, 0) ∧ fpFun f rm 4 (inf true) = (zero false, 0) ∧ fpFun f rm 5 (inf true) = (one true, 0) ∧
    (∀ n, fpFun f rm 9 (inf n) = (one n, 0) ∧ fpFun f rm 13 (inf n) = (one n, 0) ∧ fpFun f rm 11 (inf n) = nv ∧ fpFun f rm 12 (inf n) = nv) ∧
    fpFun f rm 10 (inf true) = (two, 0) ∧ fpFun f rm 10 (inf false) = (zero false, 0) ∧
    fpFun f rm 6 (one false) = (zero false, 0) ∧ fpFun f rm 7 (one false) = (zero false, 0) ∧ fpFun f rm 8 (one true) = (inf true, excDZ) ∧
    (∀ x m e, decodeFp f x = .fin true m e → 0 < m → ∀ k ∈ [0, 1, 6, 7], fpFun f rm k x = nv) ∧ fpFun f rm 14 (inf true) = (inf true, 0) ∧
    (∀ x m e, decodeFp f x = .fin true m e → 2 ^ (-e).toNat < m * 2 ^ e.toNat → fpFun f rm 8 x = nv) ∧
    ∀ x, x < 2 ^ f.width →
      (∀ r, nanOf f [x] = some r → ∀ k, k ≤ 14 → fpFun f rm k x = r) ∧
      ∀ n m e, decodeFp f x = .fin n m e →
        fpFun f rm 14 x = ((roundNum f rm n (integral rm n m e) 0 false).1, 0) ∧
        (0 < m → n = false → ∀ (q : Int) (k r : Nat), e = 2 * q + k → r ^ 2 ≤ m * 2 ^ k → m * 2 ^ k < (r + 1) ^ 2 → 2 ^ (f.m + 4) ≤ r →
          fpFun f rm 0 x = roundNum f rm false r q (r ^ 2 != m * 2 ^ k)) ∧
        (0 < m → ∀ k : Nat, f.m + 5 + m.log2 ≤ k → fpFun f rm 2 x = roundNum f rm n (2 ^ k / m) (-e - k) (2 ^ k % m != 0)) ∧
        (0 < m → n = false → ∀ (q : Int) (k p r : Nat), e = 2 * q + k → r ^ 2 * (m * 2 ^ k) ≤ 4 ^ p → 4 ^ p < (r + 1) ^ 2 * (m * 2 ^ k) →
          2 ^ (f.m + 4) ≤ r → fpFun f rm 1 x = roundNum f rm false r (-q - p) (r ^ 2 * (m * 2 ^ k) != 4 ^ p)) ∧
        (∀ v : Nat, 0 < v → v < 2 ^ 16 → v * 2 ^ (-e).toNat = m * 2 ^ e.toNat →
          fpFun f rm 4 x = roundNum f rm false 1 (if n then -(v : Int) else v) false) ∧
        (∀ j : Nat, n = false → m = 2 ^ j → fpFun f rm 7 x = roundNum f rm (decide (e + j < 0)) (e + j).natAbs 0 false) ∧
        (∀ y, decodeFp f y = .fin (!n) m e → fpFun f rm 12 x = fpFun f rm 12 y) ∧
        ∀ p ∈ knownValues, p.1 = f → ∀ v ∈ p.2, fpFun f 0 v.1 v.2.1 = (v.2.2.1, excNX) ∧
          fpFun f 4 v.1 v.2.1 = (v.2.2.2.1, excNX) ∧ fpFun f 3 v.1 v.2.1 = (v.2.2.2.2, excNX)

/-- R170 to R173: minima, maxima, sign operations, classes and comparisons: which operand FMIN and FMAX give, −0 below +0, and what FCMP
tells by the numeric order. -/
def Obligations.FloatSelection : Prop :=
  (∀ (g p q k : BitVec 3) (d a b : BitVec 6) (t : BitVec 2),
    let sign (f : Fmt) : Nat := 2 ^ (f.width - 1)
    FpEach2 (.fmin g d a b t) d a b 0 t (fun f _ => fpMinMax f false false) ∧
    FpEach2 (.fmax g d a b t) d a b 0 t (fun f _ => fpMinMax f true false) ∧
    FpEach2 (.fminn g d a b t) d a b 0 t (fun f _ => fpMinMax f false true) ∧
    FpEach2 (.fmaxn g d a b t) d a b 0 t (fun f _ => fpMinMax f true true) ∧
    FpEach1 (.fabs g d a t) d a 0 t (fun f _ x => (x % sign f, 0)) ∧
    FpEach1 (.fneg g d a t) d a 0 t (fun f _ x => (if x < sign f then x + sign f else x - sign f, 0)) ∧
    FpEach2 (.fcps g d a b t) d a b 0 t (fun f _ x y => (x % sign f + (if y < sign f then 0 else sign f), 0)) ∧
    FpEach1 (.fclass g d a t) d a 0 t (fun f _ x => (2 ^ (match decodeFp f x with
      | .inf n => if n then 0 else 7
      | .nan _ quiet _ => if quiet then 9 else 8
      | .fin n m _ => if m = 0 then (if n then 3 else 4) else if m < 2 ^ f.m then (if n then 2 else 5) else if n then 1 else 6), 0)) ∧
    FpBits1 (.fabs g d a t) d a t (fun f x => x % sign f) ∧
    FpBits1 (.fneg g d a t) d a t (fun f x => if x < sign f then x + sign f else x - sign f) ∧
    FpBits2 (.fcps g d a b t) d a b t (fun f x y => x % sign f + (if y < sign f then 0 else sign f)) ∧
    FpBits1 (.fclass g d a t) d a t (fun f x => 2 ^ (match decodeFp f x with
      | .inf n => if n then 0 else 7
      | .nan _ quiet _ => if quiet then 9 else 8
      | .fin n m _ => if m = 0 then (if n then 3 else 4) else if m < 2 ^ f.m then (if n then 2 else 5) else if n then 1 else 6)) ∧
    Signals (.fcmp g p q a b k t) (fun s key l => (fpCond (fpFormat t) k (fpEl s key t a l 0) (fpEl s key t b l 0)).2)
      fun s key F pc u t' => WritesPred u t' key F pc p q (taking (.fcmp g p q a b k t) s key F) fun l =>
        (fpCond (fpFormat t) k (fpEl s key t a l 0) (fpEl s key t b l 0)).1) ∧
  ∀ f ∈ [fmtD, fmtS, fmtH, fmtBf], ∀ (x y : Nat), x < 2 ^ f.width → y < 2 ^ f.width →
    let a := decodeFp f x
    let b := decodeFp f y
    let nan : Bool := a.isNaN || b.isNaN
    (∀ number, (a.below b → fpMinMax f false number x y = (x, 0) ∧ fpMinMax f true number x y = (y, 0)) ∧
      (b.below a → fpMinMax f false number x y = (y, 0) ∧ fpMinMax f true number x y = (x, 0)) ∧
      (nan = false → ¬a.below b → ¬b.below a →
        fpMinMax f false number x y = (if 2 ^ (f.width - 1) ≤ x then x else y, 0) ∧
        fpMinMax f true number x y = (if 2 ^ (f.width - 1) ≤ x then y else x, 0))) ∧
    (∀ r wantMax, nanOf f [x, y] = some r → fpMinMax f wantMax false x y = r ∧
      (a.isNaN = true → b.isNaN = true → fpMinMax f wantMax true x y = r)) ∧
    (nan = false → ((fpCond f 2 x y).1 = true ↔ a.below b) ∧ ((fpCond f 0 x y).1 = true ↔ ¬a.below b ∧ ¬b.below a)) ∧
    let signalling : Bool := a.isSNaN || b.isSNaN
    (∀ wantMax, (a.isNaN = true → b.isNaN = false → fpMinMax f wantMax true x y = (y, excIf signalling excNV)) ∧
      (a.isNaN = false → b.isNaN = true → fpMinMax f wantMax true x y = (x, excIf signalling excNV)) ∧
      (nan = false → (fpMinMax f wantMax false x y = (x, 0) ∨ fpMinMax f wantMax false x y = (y, 0)))) ∧
    (∀ k : BitVec 3, (fpCond f k x y).2 = excIf (if 2 ≤ k ∧ k ≤ 5 then nan else signalling) excNV) ∧
    (nan = true → ∀ k : BitVec 3, (fpCond f k x y).1 = decide (k = 1 ∨ k = 6)) ∧
    (nan = false → ((fpCond f 6 x y).1 = false ∧ (fpCond f 7 x y).1 = true ∧ (fpCond f 1 x y).1 = !(fpCond f 0 x y).1 ∧
      (fpCond f 3 x y).1 = !(fpCond f 4 x y).1 ∧ (fpCond f 5 x y).1 = !(fpCond f 2 x y).1 ∧ (fpCond f 2 x y).1 = (fpCond f 4 y x).1))

/-- R174 to R178: conversions of every pair of types, finite, infinite and NaN, order keys, and the ten rounds of Philox. -/
def Obligations.Conversions : Prop :=
  (∀ (g r : BitVec 3) (d a b : BitVec 6) (k q : BitVec 4) (t : BitVec 2),
    (let w := (cvtType k).width
      let n := 64 / max w (cvtType q).width
      Signals (.fcvt g d a k q r)
        (fun s key l => (List.range n).foldl (fun e j =>
          e ||| (convert (cvtType k) (cvtType q) (laneRm s key r l) (subEl (cvtType q).width ((s.crew key).cvtSrc (cvtType q) a l) j)).2) 0)
        fun s key F pc u t' => ∃ v : Lane → Word, WritesReg u t' key F pc d (taking (.fcvt g d a k q r) s key F) v ∧
          ∀ l, inMask (taking (.fcvt g d a k q r) s key F) l = true → ∀ j, j < 64 / w → subEl w (v l) j =
            if j < n then
              (convert (cvtType k) (cvtType q) (laneRm s key r l) (subEl (cvtType q).width ((s.crew key).cvtSrc (cvtType q) a l) j)).1 % 2 ^ w
            else 0) ∧
    FpEach1 (.fkey g d a t) d a 0 t (fun f _ x =>
      (if (decodeFp f x).isNaN then 2 ^ f.width - 1 else if x < 2 ^ (f.width - 1) then x + 2 ^ (f.width - 1) else 2 ^ f.width - 1 - x, 0)) ∧
    FpBits1 (.fkey g d a t) d a t (fun f x =>
      if (decodeFp f x).isNaN then 2 ^ f.width - 1 else if x < 2 ^ (f.width - 1) then x + 2 ^ (f.width - 1) else 2 ^ f.width - 1 - x) ∧
    Completes (.rng g d a b) always (fun s key F pc t => WritesPair s t key F pc d (taking (.rng g d a b) s key F)
      (fun l => (philox (srcInt s key 64 a l) (srcInt s key 64 b l)).1) fun l => (philox (srcInt s key 64 a l) (srcInt s key 64 b l)).2)) ∧
  philox 0 0 = (0xE169C58D6627E8D5, 0x9B00DBD8BC57AC4C) ∧
  (∀ f ∈ [fmtD, fmtS, fmtH, fmtBf, fmtE4M3, fmtE5M2], ∀ w ∈ [8, 16, 32, 64], ∀ (rm : BitVec 3) (sgn : Bool) (x : Nat),
    ((decodeFp f x).isNaN = true → convert (.int w sgn) (.fp f) rm x = (0, excNV)) ∧
    ∀ n, decodeFp f x = .inf n → (convert (.int w sgn) (.fp f) rm x).2 = excNV) ∧
  (∀ f ∈ [fmtD, fmtS, fmtH, fmtBf], ∀ (x y : Nat), x < 2 ^ f.width → y < 2 ^ f.width →
    (decodeFp f x).isNaN = false → (decodeFp f y).isNaN = false → cmpNum (decodeFp f x) (decodeFp f y) = .lt → orderKey f x < orderKey f y) ∧
  (∀ f ∈ [fmtD, fmtS, fmtH, fmtBf, fmtE4M3, fmtE5M2], ∀ (rm : BitVec 3) (x : Nat), rm < 6 →
    (∀ g ∈ [fmtD, fmtS, fmtH, fmtBf, fmtE4M3, fmtE5M2],
      let r := convert (.fp g) (.fp f) rm x
      (∀ n m e, decodeFp f x = .fin n m e → r = roundNum g rm n m e false ∧
        ((f, g) ∈ [(fmtS, fmtD), (fmtH, fmtD), (fmtBf, fmtD), (fmtH, fmtS), (fmtBf, fmtS), (fmtE4M3, fmtH), (fmtE5M2, fmtH)] → r.2 = 0)) ∧
      (∀ n, decodeFp f x = .inf n → g ≠ fmtE4M3 → r = (codeInf g n, 0)) ∧
      ∀ n quiet fr, decodeFp f x = .nan n quiet fr → r.2 = excIf (!quiet) excNV ∧
        (g = fmtE4M3 → r.1 = if n then 0xFF else 0x7F) ∧
        (g ≠ fmtE4M3 → decodeFp g r.1 = .nan n true ((fr / 2 ^ (52 - g.m) ||| 2 ^ (g.m - 1)) * 2 ^ (52 - g.m)))) ∧
    ∀ w ∈ [8, 16, 32, 64], ∀ sgn : Bool,
      let lo : Int := if sgn then -(2 ^ (w - 1)) else 0
      let hi : Int := if sgn then 2 ^ (w - 1) - 1 else 2 ^ w - 1
      let code (v : Int) : Nat := (v % 2 ^ w).toNat
      (∀ n m e, decodeFp f x = .fin n m e →
        let v : Int := if n then -(integral rm n m e : Int) else integral rm n m e
        let r := convert (.int w sgn) (.fp f) rm x
        (lo ≤ v → v ≤ hi → r.1 = code v ∧ (fractional m e → r.2 = excNX) ∧ (¬fractional m e → r.2 = 0)) ∧
        (v < lo → r = (code lo, excNV)) ∧ (hi < v → r = (code hi, excNV))) ∧
      ∀ y : Nat, y < 2 ^ w →
        let v : Int := if sgn = true ∧ 2 ^ (w - 1) ≤ y then (y : Int) - 2 ^ w else y
        convert (.fp f) (.int w sgn) rm y = roundNum f rm (v < 0) v.natAbs 0 false ∧
        ∀ u ∈ [8, 16, 32, 64], ∀ sgn' : Bool,
          let low : Int := if sgn' then -(2 ^ (u - 1)) else 0
          let high : Int := if sgn' then 2 ^ (u - 1) - 1 else 2 ^ u - 1
          convert (.int u sgn') (.int w sgn) rm y = ((max low (min v high) % 2 ^ u).toNat, 0)) ∧
  ∀ (key counter : Word) (k0 k1 c0 c1 c2 c3 : Nat → Nat),
    k0 0 = key.toNat % 2 ^ 32 → k1 0 = key.toNat / 2 ^ 32 → c0 0 = counter.toNat % 2 ^ 32 → c1 0 = counter.toNat / 2 ^ 32 →
    c2 0 = 0 → c3 0 = 0 →
    (∀ r, r < 10 → k0 (r + 1) = (k0 r + 0x9E3779B9) % 2 ^ 32 ∧ k1 (r + 1) = (k1 r + 0xBB67AE85) % 2 ^ 32 ∧
      c0 (r + 1) = 0xCD9E8D57 * c2 r / 2 ^ 32 ^^^ c1 r ^^^ k0 r ∧ c1 (r + 1) = 0xCD9E8D57 * c2 r % 2 ^ 32 ∧
      c2 (r + 1) = 0xD2511F53 * c0 r / 2 ^ 32 ^^^ c3 r ^^^ k1 r ∧ c3 (r + 1) = 0xD2511F53 * c0 r % 2 ^ 32) →
    philox key counter = (BitVec.ofNat 64 (c1 10 * 2 ^ 32 + c0 10), BitVec.ofNat 64 (c3 10 * 2 ^ 32 + c2 10))

/-! ## Memory (R179 to R197) -/

/-- R179, R182 to R185, on the scratchpad: LD and LDP (with every line present) read the little-endian bytes at base plus scaled offset,
zero- or sign-extended, or a pair, and an LDP may drop its core's copies (R301); ST and STP store the data's low bytes in ascending lane
order, STP marks its lines present, and every other byte stands still. LD and LDP at an issue that completes them (log 8, 69; the issue
that leaves them unfinished is in the statement on one lane). -/
def Obligations.ScratchpadAccess : Prop :=
  ∀ (g : BitVec 3) (d a : BitVec 6) (o : BitVec 8) (z : BitVec 3),
    let n : Nat := [1, 2, 4, 8, 1, 2, 4, 16].getD z.toNat 0
    let ea (s : State) (key : Nat) (l : Lane) : Word := srcInt s key 64 a l + o.signExtend 64 * BitVec.ofNat 64 n
    let bytes (s : State) (key : Nat) (l : Lane) (k n : Nat) : Nat := readNat (pad s key) (scratchAt (ea s key l) + k) n
    let value (s : State) (key : Nat) (l : Lane) : Word :=
      if z = 4 then (BitVec.ofNat 8 (bytes s key l 0 1)).signExtend 64
      else if z = 5 then (BitVec.ofNat 16 (bytes s key l 0 2)).signExtend 64
      else if z = 6 then (BitVec.ofNat 32 (bytes s key l 0 4)).signExtend 64
      else BitVec.ofNat 64 (bytes s key l 0 n)
    let loads (i : Instr) (s u : State) (key : Nat) (F : Mask) (pc : Pc) (t : State) : Prop :=
      (z ≠ 7 → WritesReg u t key F pc d (taking i s key F) (value s key)) ∧
      (z = 7 → WritesPair u t key F pc d (taking i s key F) (fun l => BitVec.ofNat 64 (bytes s key l 0 8))
        fun l => BitVec.ofNat 64 (bytes s key l 8 8))
    let data (s : State) (key : Nat) (l : Lane) : Nat :=
      (srcInt s key 64 d l).toNat + if z = 7 then (srcInt s key 64 (d + 1) l).toNat * 2 ^ 64 else 0
    let stores (i : Instr) (s : State) (key : Nat) (F : Mask) (t : State) : Prop :=
      pad t key = storedPad (pad s key) n (maskLanes (taking i s key F)) (ea s key) (data s key) ∧
      PadKept s t key n (taking i s key F) (ea s key) ∧ ∀ k, k ≠ gangOf key → t.gang k = s.gang k
    Completes (.ld g d a o z) (allIn (.ld g d a o z) n ea) (fun s key F pc t => loads (.ld g d a o z) s s key F pc t) ∧
    Completes (.ldp g d a o z) (fun s key F => allIn (.ldp g d a o z) n ea s key F ∧
      ∀ l, inMask (taking (.ldp g d a o z) s key F) l = true →
        ∀ x ∈ (s.gang (gangOf key)).absent, x.line ≠ scratchAt (ea s key l) / 128)
      (fun s key F pc t => loads (.ldp g d a o z) s (withHierarchy s t) key F pc t) ∧
    Completes (.st g d a o z) (allIn (.st g d a o z) n ea) (fun s key F pc t =>
      Goes { s with gangs := t.gangs } t key F id (onward pc) ∧ stores (.st g d a o z) s key F t ∧
      t.gang (gangOf key) = { s.gang (gangOf key) with scratch := pad t key }) ∧
    Completes (.stp g d a o z) (allIn (.stp g d a o z) n ea) (fun s key F pc t =>
      Goes (withHierarchy { s with gangs := t.gangs } t) t key F id (onward pc) ∧ stores (.stp g d a o z) s key F t ∧
      t.gang (gangOf key) = { s.gang (gangOf key) with
        scratch := pad t key
        absent := (s.gang (gangOf key)).absent.filter fun x =>
          (maskLanes (taking (.stp g d a o z) s key F)).all fun l => x.line != scratchAt (ea s key l) / 128 })

/-- Every memory instruction with one taking lane, wherever its address lies: what the lane does, and its trap when the lane fails (R181
to R197, R279). The lane completes as the instruction issues; but while memLate is true LD, LDP, LDACQ, ATOM, CAS and EVWAIT stay
unfinished with their captured sources, and a lane of LD, LDACQ, ATOM or CAS then completes by itself (log 8, 69). Then, of an address
that passes R180 on a page: what a load reads (memory's bytes, or those of the core's own SELFINV copy), what a store writes (memory, or
that copy), and what an RMW, the addition of EVSIG, a RED at once, an STREL and an LDACQ do at the line's home (R116, R187 to R192, R279,
R296, R299, R300); every other byte of the line stands still. That a TRACKED store's bytes stand in memory itself is log 11, and that a
write-through store reaches it at once, and its copies elsewhere go, is log 81. -/
def Obligations.OneLaneAccess : Prop :=
  ∀ (g : BitVec 3) (d a b c : BitVec 6) (o : BitVec 8) (z k : BitVec 3) (p : BitVec 4) (x v : BitVec 1) (t : BitVec 2),
    let A (s : State) (key : Nat) (l : Lane) : Word := srcInt s key 64 a l
    let B (s : State) (key : Nat) (l : Lane) : Word := srcInt s key 64 b l
    let ea (s : State) (key : Nat) (l : Lane) : Word := offsetAddr (A s key l) o z
    let data (s : State) (key : Nat) (l : Lane) : Nat :=
      (srcInt s key 64 d l).toNat + if z = 7 then (srcInt s key 64 (d + 1) l).toNat * 2 ^ 64 else 0
    let hint (s : State) (key : Nat) : BitVec 3 × BitVec 2 := ((s.crew key).run.bind fun r => r.scope).getD (3, 0)
    OneLane (.ld g d a o z) (fun s key _ l => loadLane (ea s key l) z key l s) (loadDest z d) ∧
    OneLane (.st g d a o z) (fun s key _ l => storeLane (ea s key l) (Machine.sizeOf z) (data s key l) key l s) .none ∧
    OneLane (.stp g d a o z) (fun s key _ l => stpLane (ea s key l) (Machine.sizeOf z) (data s key l) key l s) .none ∧
    OneLane (.ldacq g d a k z) (fun s key _ l => acquireLane (A s key l) z k key l s) (.one d) ∧
    OneLane (.strel g d a k z) (fun s key _ l => releaseLane (A s key l) (Machine.sizeOf z) (srcInt s key 64 d l).toNat k key l s) .none ∧
    OneLane (.atom g d a b p x) (fun s key _ l =>
      atomFn p (x == 1) (laneEntry (A s key l) (B s key l) 0 (hint s key).2 (hint s key).1) key l s) (.one d) ∧
    OneLane (.cas d a b c t) (fun s key _ l =>
      casFn t (laneEntry (A s key l) (B s key l) (srcInt s key 64 c l) (hint s key).2 (hint s key).1) key l s) (.one d) ∧
    OneLane (.clean g a v) (fun s key _ l => cleanLane (v == 1) false (laneEntry (A s key l) 0 0 0 0) key l s) .none ∧
    OneLane (.inval g a v) (fun s key _ l => cleanLane (v == 1) true (laneEntry (A s key l) 0 0 0 0) key l s) .none ∧
    OneLane (.pscrub g a) (fun s key _ l => pscrubLane (laneEntry (A s key l) 0 0 0 0) key l s) .none ∧
    OneLane (.evsig g a b) (fun s key _ l => evsigLane (laneEntry (A s key l) (B s key l) 0 0 0) key l s) .none ∧
    (∀ i ∈ [Instr.ld g d a o z, .ldp g d a o z, .ldacq g d a k z, .atom g d a b p x, .cas d a b c t, .evwait g a b], StaysOpen i) ∧
    LaterLane (.ld g d a o z) (fun e key l => loadLane (offsetAddr (e.op0.at l) o z) z key l) (loadDest z d) ∧
    LaterLane (.ldacq g d a k z) (fun e key l => acquireLane (e.op0.at l) z e.scope key l) (.one d) ∧
    LaterLane (.atom g d a b p x) (atomFn p (x == 1)) (.one d) ∧ LaterLane (.cas d a b c t) (casFn t) (.one d) ∧
    ∀ (s u : State) (key : Nat) (l : Lane) (va : Word) (page : Page) (o m : Bool) (leaf : Option Leaf) (v : Nat),
      let who := s.whoAt key l
      let n := Machine.sizeOf z
      let at_ := page.pa % 128
      let held := (u.core who.core).l1.get? (page.pa / 128)
      let passes (kind : AccessKind) (n : Nat) : Prop :=
        checkAccess s who kind va n n = (.ok (.global page o m leaf), u) ∧ at_ + n ≤ 128 ∧ Memory.wf u.mem = true ∧ u.inSpill who.asid va n = false
      let even : Prop := ∀ x, (u.die (dieOf who.core)).l2.get? (page.pa / 128) = some x → x.coh = 1
      let gives (poisoned : Bool) (x : Nat) : LaneOut :=
        if poisoned then .failed ⟨0x0A, va⟩
        else .done (if 4 ≤ z.toNat ∧ z.toNat ≤ 6 then BitVec.ofInt 64 (signed (8 * n) x) else BitVec.ofNat 64 x) (BitVec.ofNat 64 (x / 2 ^ 64))
      (passes .load n →
        let r := loadLane va z key l s
        (page.coh = 0 ∨ page.coh = 2 ∨ page.clvl = 2 → r.1 = gives (r.2.linePoisoned (page.pa / 128)) (readNat r.2.mem page.pa n)) ∧
        (page.coh = 1 → Uncopied u (page.pa / 128) → r.1 = gives (u.linePoisoned (page.pa / 128)) (readNat u.mem page.pa n)) ∧
        (page.coh = 1 → page.clvl = 0 → even → ∀ e, held = some e → e.coh = 1 → r.1 = gives e.poison (lineNat e.data at_ n))) ∧
      (passes .store n →
        let r := storeLane va n v key l s
        r.1 = .done 0 0 ∧
        (page.coh = 0 ∨ page.coh = 2 ∨ page.clvl = 2 ∨ page.coh = 1 ∧ page.wt = true → readNat r.2.mem page.pa n = v % 2 ^ (8 * n)) ∧
        (page.coh = 2 ∨ page.clvl = 2 → Uncopied u (page.pa / 128) → r.2.mem = writeNat u.mem page.pa n v) ∧
        (page.coh = 1 → page.clvl = 0 → page.wt = false → even → ∀ e, held = some e → e.coh = 1 → r.2.mem = u.mem ∧
          ∃ e', (r.2.core who.core).l1.get? (page.pa / 128) = some e' ∧ lineNat e'.data at_ n = v % 2 ^ (8 * n) ∧
            e'.dirty = e.dirty ||| byteMask at_ n ∧ ∀ j, j < at_ ∨ at_ + n ≤ j → lineNat e'.data j 1 = lineNat e.data j 1)) ∧
      (AtHome u who.core page.pa →
        (∀ (kind : AccessKind) (q : Tagged) (ord : BitVec 2), passes kind (rmwWidth q.small / 8) →
          let r := rmwLane kind va q ord k key l s
          let old := readNat u.mem page.pa (rmwWidth q.small / 8)
          r.1 = .done (BitVec.ofNat 64 old) 0 ∧ LineHolds u r.2 page.pa (rmwWidth q.small / 8) ((q.apply old).getD old)) ∧
        (∀ inc : Word, passes .signal 8 →
          let r := evsigLane (laneEntry va inc 0 0 0) key l s
          r.1 = .done (BitVec.ofNat 64 (readNat u.mem page.pa 8)) 0 ∧ LineHolds u r.2 page.pa 8 (readNat u.mem page.pa 8 + inc.toNat)) ∧
        (∀ (e : Entry), o = false → e.op0.at l = va → passes .update (rmwWidth (x == 1) / 8) →
          let r := redLane p (x == 1) e key l s
          r.1 = .done 0 0 ∧ LineHolds u r.2 page.pa (rmwWidth (x == 1) / 8)
            (rmwNew p (rmwWidth (x == 1)) (readNat u.mem page.pa (rmwWidth (x == 1) / 8)) ((e.op1.at l).toNat % 2 ^ rmwWidth (x == 1)))) ∧
        (passes .store n →
          let r := releaseLane va n v k key l s
          r.1 = .done 0 0 ∧ LineHolds u r.2 page.pa n v ∧
          let h := r.2.home (page.pa / 128)
          h.rv = true ∧ h.rd = false ∧ h.rcore = BitVec.ofNat 8 who.core ∧ h.rseq = (u.core who.core).relC + 1) ∧
        (passes .load n → page.coh ≠ 0 → n ≤ 8 → (acquireLane va z k key l s).1 = match gives false (readNat u.mem page.pa n) with
          | .done a _ => .done a 0
          | y => y))

/-- R180: the checks of an access in their order, on the scratchpad and on a page, with causes and addresses. -/
def Obligations.AccessChecks : Prop :=
  ∀ (s : State) (w : Who) (k : AccessKind) (va : Word) (n : Nat),
    let y := s.gang w.gang
    let off := scratchAt va
    let fails (cause : BitVec 8) : Prop := (checkAccess s w k va n n).1 = .error ⟨cause, va⟩
    (va.toNat % n ≠ 0 → fails 0x07) ∧
    (va.toNat % n = 0 → 0xFFFFFFFFFF000000 ≤ va.toNat →
      (y.hdr.scratch < off + n → fails 0x05) ∧ (off + n ≤ y.hdr.scratch → pieceMapped y off = false → fails 0x14) ∧
      (off + n ≤ y.hdr.scratch → pieceMapped y off = true → checkAccess s w k va n n = (.ok (.scratch off), s))) ∧
    (va.toNat % n = 0 → va.toNat < 0xFFFFFFFFFF000000 → s.ctxMapOf w.asid va = none →
      (∀ u, translate s w.core w.asid va = (.error none, u) → fails 0x08) ∧
      (∀ l u, translate s w.core w.asid va = (.ok l, u) → u.windowOf (leafPa l va (k == .shadow)) = none →
        (checkAccess s w k va n n).1 = .error ⟨0x08, BitVec.ofNat 64 (leafPa l va (k == .shadow))⟩) ∧
      ∀ l u, translate s w.core w.asid va = (.ok l, u) → (u.windowOf (leafPa l va (k == .shadow))).isSome = true →
        (pteSup l.pte = true → w.sup = false → fails 0x15) ∧
        (pteSup l.pte = false ∨ w.sup = true →
          ((k = .load ∧ pteRd l.pte = false ∨ k = .store ∧ (pteW l.pte = false ∨ pteCode l.pte = true) ∨
            k = .rmw ∧ (pteRd l.pte = false ∨ pteW l.pte = false ∨ pteCode l.pte = true)) → fails 0x09) ∧
          (k = .rmw → pteRd l.pte = true → pteW l.pte = true → pteCode l.pte = false → pteOrd l.pte = true → fails 0x0B)))

/-- R187 to R189 and R279 on the scratchpad: ATOM, CAS, RED and the addition of EVSIG in ascending lane order, each lane reading what the
one before left; CAS writes only where the old value equals B. -/
def Obligations.Atomics : Prop :=
  ∀ (g k : BitVec 3) (ord : BitVec 2) (d a b c : BitVec 6) (p : BitVec 4) (z : BitVec 1) (q : BitVec 2),
    let A (s : State) (key : Nat) (l : Lane) : Word := srcInt s key 64 a l
    let n (small : Bool) : Nat := if small then 4 else 8
    let low (small : Bool) (x : Word) : Nat := x.toNat % 2 ^ (8 * n small)
    let op (old b : Nat) : Nat :=
      let w := 8 * n (z == 1)
      [(old + b) % 2 ^ w, if signed w b < signed w old then b else old, if signed w old < signed w b then b else old, min old b, max old b,
        old &&& b, old ||| b, old ^^^ b, b].getD p.toNat (fpAdd (if z = 1 then fmtS else fmtD) 0 old b).1
    let swap (s : State) (key : Nat) (l : Lane) (old : Nat) : Nat :=
      if old = low (q == 1) (srcInt s key 64 b l) then low (q == 1) (srcInt s key 64 c l) else old
    let run (small : Bool) (s : State) (key : Nat) (f : Lane → Nat → Nat) (ls : List Lane) : List Host.Cell :=
      ls.foldl (fun m l => writeNat m (scratchAt (A s key l)) (n small) (f l (readNat m (scratchAt (A s key l)) (n small)))) (pad s key)
    let rmw (i : Instr) (small result : Bool) (f : State → Nat → Lane → Nat → Nat) : Prop :=
      Completes i (allIn i (n small) A) fun s key F pc t =>
        let ls := maskLanes (taking i s key F)
        let u := withHierarchy { s with gangs := t.gangs } t
        (if result then WritesReg u t key F pc d (taking i s key F) fun l =>
            BitVec.ofNat 64 (readNat (run small s key (f s key) (ls.filter fun m => m < l)) (scratchAt (A s key l)) (n small))
          else Goes u t key F id (onward pc)) ∧
        pad t key = run small s key (f s key) ls ∧ t.gang (gangOf key) = { s.gang (gangOf key) with scratch := pad t key } ∧
        PadKept s t key (n small) (taking i s key F) (A s key)
    rmw (.atom g d a b p z) (z == 1) true (fun s key l old => op old (low (z == 1) (srcInt s key 64 b l))) ∧
    rmw (.cas d a b c q) (q == 1) true swap ∧
    rmw (.red g k ord a b p z) (z == 1) false (fun s key l old => op old (low (z == 1) (srcInt s key 64 b l))) ∧
    rmw (.evsig g a b) false false (fun s key l old => (old + (srcInt s key 64 b l).toNat) % 2 ^ 64)

/-- R127, R133, R134, R186, R193, R195 to R197: acquiring loads and releasing stores of the scratchpad, FENCE, AFLUSH with its flush point,
at which the batch leaves the buffers and the reductions of one location are applied to memory in the order of R133, CLEAN and INVAL,
which leave the scratchpad alone, and PSCRUB of scratchpad lines. What an acquire drops, the address of a failing PSCRUB, and the size of
1 byte with which CLEAN and INVAL are checked are the model's reading (log 12, 38, 41, 85). -/
def Obligations.AcquireRelease : Prop :=
  ∀ (g k z : BitVec 3) (d a : BitVec 6) (ord : BitVec 2) (v : BitVec 1),
    let A (s : State) (key : Nat) (l : Lane) : Word := srcInt s key 64 a l
    let n : Nat := [1, 2, 4, 8, 1, 2, 4].getD z.toNat 0
    let at_ (s : State) (key : Nat) (l : Lane) : Nat := readNat (pad s key) (scratchAt (A s key l)) n
    let ended (i : Instr) (s : State) (key : Nat) (F : Mask) (pc : Pc) (t : State) : Prop :=
      (taking i s key F = 0 → Goes s t key F id (onward pc)) ∧ Goes (withHierarchy s t) t key F id (onward pc)
    Completes (.ldacq g d a k z) (allIn (.ldacq g d a k z) n A) (fun s key F pc t =>
      WritesReg (withHierarchy s t) t key F pc d (taking (.ldacq g d a k z) s key F) fun l =>
        if z < 4 then BitVec.ofNat 64 (at_ s key l) else BitVec.ofInt 64 (signed (8 * n) (at_ s key l))) ∧
    Completes (.strel g d a k z) (allIn (.strel g d a k z) n A) (fun s key F pc t =>
      Goes (withHierarchy { s with gangs := t.gangs } t) t key F id (onward pc) ∧
      pad t key = storedPad (pad s key) n (maskLanes (taking (.strel g d a k z) s key F)) (A s key) (fun l => (srcInt s key 64 d l).toNat) ∧
      PadKept s t key n (taking (.strel g d a k z) s key F) (A s key)) ∧
    Completes (.fence g k ord) always (fun s key F pc t => ended (.fence g k ord) s key F pc t ∧
      (ord = 0 → Goes s t key F id (onward pc))) ∧
    Completes (.aflush g) always (fun s key F pc t =>
      let mine (e : RedEntry) : Bool := e.gang == gangOf key
      (taking (.aflush g) s key F = 0 → Goes s t key F id (onward pc)) ∧
      (s.redPending mine = [] → Goes (withHierarchy s t) t key F id (onward pc)) ∧
      (taking (.aflush g) s key F ≠ 0 → s.redPending mine ≠ [] →
        Goes { s with gangs := t.gangs, cores := t.cores } t key F id
          (fun _ th => { th with pc := pc + 4, st := .parked (.draining (s.gang (gangOf key)).tickets) }) ∧
        ∀ core, ∀ e ∈ (t.core core).redbuf, e.gang = gangOf key → e.batch ≠ none)) ∧
    (∀ i ∈ [Instr.clean g a v, .inval g a v], Completes i (allIn i 1 A) fun s key F pc t => Goes s t key F id (onward pc)) ∧
    Completes (.pscrub g a) (fun s key F => ∀ l, inMask (taking (.pscrub g a) s key F) l = true →
        0xFFFFFFFFFF000000 ≤ (A s key l).toNat ∧ scratchAt (A s key l) / 128 * 128 + 128 ≤ (s.gang (gangOf key)).hdr.scratch ∧
        pieceMapped (s.gang (gangOf key)) (scratchAt (A s key l) / 128 * 128) = true) (fun s key F pc t =>
      Goes { s with gangs := t.gangs } t key F id (onward pc) ∧
      ∀ byte, readByte (pad t key) byte =
        if ∃ l, inMask (taking (.pscrub g a) s key F) l = true ∧ scratchAt (A s key l) / 128 = byte / 128 then 0
        else readByte (pad s key) byte) ∧
    ∀ (s : State) (gang n : Nat), (s.batches gang).head? = some n → ∃ t, exec (.redDrainComplete gang) s = .next t ∧
      (∀ k l, gangOf k = gang → ((s.crew k).th l).st = .parked (.draining n) → ((t.crew k).th l).st = .live) ∧
      let mine (e : RedEntry) : Bool := e.gang = gang && e.batch == some n
      let before (a b : RedEntry) : Prop :=
        a.lin < b.lin ∨ a.lin = b.lin ∧ (a.crew < b.crew ∨ a.crew = b.crew ∧
          (a.lane < b.lane ∨ a.lane = b.lane ∧ a.pseq.toNat < b.pseq.toNat))
      (∀ core, (t.core core).redbuf = (s.core core).redbuf.filter fun e => !mine e) ∧
      ∀ (pa : Nat) (small : Bool) (es : List (Nat × RedEntry)),
        let w := rmwWidth small
        es.Perm (s.redPending mine) → es.Pairwise (fun a b => before a.2 b.2) → (∀ q ∈ es, q.1 < 256 ∧ q.2.pa = pa ∧ q.2.small = small) →
        pa % 128 + w / 8 ≤ 128 → Memory.wf s.mem = true → Uncopied s (pa / 128) → s.linePoisoned (pa / 128) = false →
        (∀ core, (s.die (s.homeDie pa)).windows.getD (State.windowKey core pa) [] = []) →
        LineHolds s t pa (w / 8) (es.foldl (fun x q => rmwNew q.2.op w x (q.2.opnd.toNat % 2 ^ w)) (readNat s.mem pa (w / 8)))

/-! ## Barriers, banks, publications and counters (R198 to R208, R279) -/

/-- R198 to R201: BAR, ARRIVE, WAITB and BARC, with the completion of a generation. That ARRIVE's result is pushed is the model's
reading (log 36). -/
def Obligations.Barriers : Prop :=
  (∀ (g : BitVec 3) (d a b : BitVec 6),
    let nb := b.toNat
    let gen (s : State) (key : Nat) : BitVec 32 := (s.gang (gangOf key)).bargen.getD nb 0
    let fresh (i : Instr) (s : State) (key : Nat) (F : Mask) : Prop := NoWaits s key ∧ nb < (s.hdrOf key).bars ∧ nb < 16 ∧
      taking i s key F &&& (s.crew key).barm.getD nb 0 = 0 ∧
      ∀ p ∈ s.crewsOf (gangOf key), ∀ k : Fin 16, k.val ≠ nb → p.2.barm[k.val] = 0
    let here (s t : State) (key : Nat) (m : Mask) : State := withHierarchy (arrivedAt s key nb m) t
    let completes (s t : State) (key : Nat) : Prop := (t.gang (gangOf key)).bargen.getD nb 0 = gen s key + 1 ∧
      ∀ p ∈ t.crewsOf (gangOf key), p.2.barm.getD nb 0 = 0 ∧ ∀ l, (p.2.th l).st ≠ .parked (.barrier nb (gen s key))
    (∀ i ∈ [Instr.bar g b, .arrive g d b, .waitb g a b], ∀ s key F pc, Issues i s key F pc → (s.hdrOf key).bars ≤ nb →
      TrapsWith i s key F pc 0x04 F fun _ => 0) ∧
    Completes (.bar g b) (fun s key F => fresh (.bar g b) s key F ∧ ¬FullWith s key nb (taking (.bar g b) s key F)) (fun s key F pc t =>
      let take := taking (.bar g b) s key F
      Goes (here s t key take) t key F id fun l th =>
        { th with pc := pc + 4, st := if inMask take l then .parked (.barrier nb (gen s key)) else th.st }) ∧
    Completes (.bar g b) (fun s key F => fresh (.bar g b) s key F ∧ taking (.bar g b) s key F ≠ 0 ∧
        FullWith s key nb (taking (.bar g b) s key F)) (fun s key F pc t => completes s t key ∧
      ∀ l, inMask (taking (.bar g b) s key F) l = true → (t.crew key).th l = { (s.crew key).th l with pc := pc + 4, st := .live }) ∧
    Completes (.arrive g d b) (fun s key F => fresh (.arrive g d b) s key F ∧ ¬FullWith s key nb (taking (.arrive g d b) s key F))
      (fun s key F pc t => WritesReg (here s t key (taking (.arrive g d b) s key F)) t key F pc d (taking (.arrive g d b) s key F)
        fun _ => (gen s key).setWidth 64) ∧
    Completes (.arrive g d b) (fun s key F => fresh (.arrive g d b) s key F ∧ taking (.arrive g d b) s key F ≠ 0 ∧
        FullWith s key nb (taking (.arrive g d b) s key F)) (fun s key F _ t => completes s t key ∧
      (d < 40 → ∀ l, inMask (taking (.arrive g d b) s key F) l = true → (t.crew key).reg d.toNat l = (gen s key).setWidth 64)) ∧
    Completes (.waitb g a b) (fun s key _ => nb < (s.hdrOf key).bars) (fun s key F pc t =>
      Goes (withHierarchy s t) t key F id fun l th =>
        let target : BitVec 32 := (srcInt s key 64 a l).extractLsb' 0 32
        let behind := (gen s key - target).toNat
        { th with
          pc := pc + 4
          st := if inMask (taking (.waitb g a b) s key F) l = true ∧ ¬(1 ≤ behind ∧ behind < 2 ^ 31) then .parked (.generation nb target)
            else th.st }) ∧
    Completes (.barc g) (fun s key F => taking (.barc g) s key F &&& (s.crew key).barcm = 0) (fun s key F pc t =>
      let take := taking (.barc g) s key F
      Goes (withHierarchy (s.modCrew key fun c => { c with barcm := c.barcm ||| take }) t) t key F id fun l th =>
        { th with pc := pc + 4, st := if inMask take l then .parked (.cluster (s.gang (gangOf key)).barcgen) else th.st })) ∧
  ∀ (grid clus : Nat) (s : State),
    (s.clusterFull grid clus = false → exec (.clusterBarrierComplete grid clus) s = .next s) ∧
    (s.clusterFull grid clus = true → ∃ t, exec (.clusterBarrierComplete grid clus) s = .next t ∧
      ∀ k ∈ s.clusterGangs grid clus, (s.clusterGangs grid clus).Nodup → (t.gang k).barcgen = (s.gang k).barcgen + 1 ∧
        ∀ p ∈ t.crewsOf k, p.2.barcm = 0 ∧ ∀ l, (p.2.th l).st ≠ .parked (.cluster (s.gang k).barcgen))

/-- R202 to R206: FIFOs in order, with their two ends; bank modes and their statuses; presence queries. The order of BANKCFG's refusals
and the slot that keeps its mode are the model's choice (log 28), and so is the size of 1 byte with which PRESQ is checked (log 85). -/
def Obligations.Banks : Prop :=
  ∀ (g : BitVec 3) (d a b : BitVec 6),
    let slot (s : State) (key : Nat) : Nat := s.slotKey key b.toNat
    let mode (s : State) (key n : Nat) : BankMode := (s.gang (gangOf key)).banks.getD n .unmapped
    let rank (m : Mask) (l : Lane) : Nat := (maskLanes m).countP fun k => decide (k < l)
    let count (m : Mask) : Nat := (maskLanes m).length
    let mine (s t : State) : State := { s with gangs := t.gangs }
    let idle (s : State) (key : Nat) : Prop := mode s key (slot s key) = .fifo ∧ (s.gang (gangOf key)).fifoReqs.getD (slot s key) [] = []
    let clean (s : State) (key n : Nat) : Prop := ∀ i ∈ (s.gang (gangOf key)).fifoPoison.getD (slot s key) [], n ≤ i
    (∀ i ∈ [Instr.fifow g d a b, .fifor g d b], ∀ s key F pc, Issues i s key F pc → mode s key (slot s key) ≠ .fifo →
      TrapsWith i s key F pc 0x14 F fun _ => 0) ∧
    Completes (.fifow g d a b) (fun s key _ => idle s key) (fun s key F pc t =>
      let take := taking (.fifow g d a b) s key F
      let q := fifoOf s key b.toNat
      WritesReg (mine s t) t key F pc d take (fun l => if q.length + rank take l < 2048 then 1 else 0) ∧
      fifoOf t key b.toNat = q ++ ((maskLanes take).take (2048 - q.length)).map (srcInt s key 64 a)) ∧
    Completes (.fifor g d b) (fun s key F => idle s key ∧ (∀ l, inMask F l = true → ((s.crew key).th l).st = .live) ∧
        count (taking (.fifor g d b) s key F) ≤ (fifoOf s key b.toNat).length ∧ clean s key (count (taking (.fifor g d b) s key F)))
      (fun s key F pc t =>
        let take := taking (.fifor g d b) s key F
        WritesReg (mine s t) t key F pc d take (fun l => (fifoOf s key b.toNat).getD (rank take l) 0) ∧
        fifoOf t key b.toNat = (fifoOf s key b.toNat).drop (count take)) ∧
    Completes (.fifor g d b) (fun s key F => idle s key ∧ (fifoOf s key b.toNat).length < count (taking (.fifor g d b) s key F))
      (fun s key F pc t =>
        Goes (mine s t) t key F id (fun _ th => { th with pc := pc + 4, st := .parked (.fifo (s.gang (gangOf key)).tickets) }) ∧
        fifoOf t key b.toNat = fifoOf s key b.toNat ∧ (t.gang (gangOf key)).tickets = (s.gang (gangOf key)).tickets + 1) ∧
    (∀ s key F pc k, Issues (.bankcfg g d a) s key F pc → lowest (taking (.bankcfg g d a) s key F) = some k →
      let r := srcInt s key 64 a k
      let bad := r.extractLsb' 8 2 = 3#2 ∨ 48 ≤ (r.extractLsb' 0 6).toNat
      let reserved := r.extractLsb' 10 54 ≠ 0#54 ∨ r.extractLsb' 6 2 ≠ 0#2
      let n := s.slotKey key (r.extractLsb' 0 6).toNat
      let new : BankMode := if r.extractLsb' 8 2 = 0#2 then .unmapped else if r.extractLsb' 8 2 = 1#2 then .scratch else .fifo
      let held : Prop := mode s key n = .fifo ∧ ∃ q ∈ (s.gang (gangOf key)).fifoReqs.getD n [], (s.crew q.crew).fifoLanes q.ticket ≠ 0
      let short : Prop := mode s key n = .unmapped ∧ s.waysOf (s.crew key).core ≤ 4
      (bad → TrapsWith (.bankcfg g d a) s key F pc 0x01 F fun _ => 0) ∧
      (¬bad → reserved → TrapsWith (.bankcfg g d a) s key F pc 0x02 F fun _ => 0) ∧
      (¬bad → ¬reserved → ∃ t, exec (.bankcfg g d a) s = .next t ∧
        WritesReg (withHierarchy (mine s t) t) t key F pc d (taking (.bankcfg g d a) s key F)
          (fun _ => if mode s key n = new then 0 else if held then 2 else if short then 1 else 0) ∧
        (mode s key n ≠ new → held ∨ short → t.gang (gangOf key) = s.gang (gangOf key)) ∧
        (mode s key n ≠ new → ¬held → ¬short → mode t key n = new ∧ (new = .fifo → (t.gang (gangOf key)).fifos.getD n [] = []) ∧
          ∀ m, m ≠ n → mode t key m = mode s key m))) ∧
    Completes (.bankcfg g d a) (fun s key F => taking (.bankcfg g d a) s key F = 0) (fun s key F pc t =>
      WritesReg s t key F pc d 0 fun _ => 0) ∧
    Completes (.presq g d a) (fun s key F => ∀ l, inMask (taking (.presq g d a) s key F) l = true →
        let va := srcInt s key 64 a l
        0xFFFFFFFFFF000000 ≤ va.toNat → scratchAt va + 1 ≤ (s.gang (gangOf key)).hdr.scratch ∧
          pieceMapped (s.gang (gangOf key)) (scratchAt va) = true)
      (fun s key F pc t => WritesReg s t key F pc d (taking (.presq g d a) s key F) fun l =>
        let va := srcInt s key 64 a l
        if 0xFFFFFFFFFF000000 ≤ va.toNat ∧ ∃ y ∈ (s.gang (gangOf key)).absent, y.line = scratchAt va / 128 then 0 else 1)

/-- R207, R208 and R295: PUB numbers one publication for each distinct address, PUBWAIT gives each token its status or waits, and a
publication that nothing holds back completes. R279: EVWAIT of counters in the scratchpad. One publication for several lanes of one
address, and the lifetime of status 2, are the model's reading (log 34, 35). -/
def Obligations.Publications : Prop :=
  (∀ (g : BitVec 3) (d a b : BitVec 6),
    let A (s : State) (key : Nat) (l : Lane) : Word := srcInt s key 64 a l
    let B (s : State) (key : Nat) (l : Lane) : Word := srcInt s key 64 b l
    let after (n : BitVec 32) : BitVec 32 := if n = 0xFFFFFFFF then 1 else n + 1
    let counts (s : State) (key : Nat) (l : Lane) : Prop := (readNat (pad s key) (scratchAt (A s key l)) 8) < (B s key l).toNat
    Completes (.pub g d a) always (fun s key F pc t =>
      let take := taking (.pub g d a) s key F
      let bases := ((maskLanes take).map (A s key)).eraseDups
      let seq (l : Lane) : BitVec 32 := (bases.idxOf (A s key l) + 1).repeat after (s.gang (gangOf key)).pubSeq
      WritesReg (withHierarchy { s with gangs := t.gangs } t) t key F pc d take (fun l => seq l ++ 0#32) ∧
      (∀ l, inMask take l = true → ∃ p ∈ (t.gang (gangOf key)).pubs, p.seq = seq l ∧ p.base = A s key l ∧
        (p.st = .pending ∨ p.st = .noBuffer)) ∧
      (t.gang (gangOf key)).pubSeq = bases.length.repeat after (s.gang (gangOf key)).pubSeq) ∧
    Completes (.pubwait g d a) always (fun s key F pc t =>
      let take := taking (.pubwait g d a) s key F
      let pub (l : Lane) : Option Publication := if (A s key l).extractLsb' 0 32 = 0#32 then
        (s.gang (gangOf key)).pubs.find? fun p => p.seq == (A s key l).extractLsb' 32 32 else none
      let pending : Prop := ∃ l, inMask take l = true ∧ (pub l).map (·.st) = some .pending
      (pending → ∃ w : TokenWait, w.d = d ∧ w.take = take ∧ (∀ l, w.toks.at l = A s key l) ∧
        Goes s t key F id fun _ th => { th with pc := pc, st := .parked (.publications w) }) ∧
      (¬pending → WritesReg s t key F pc d take fun l =>
        if (pub l).map (·.st) = some .published then 0 else if (pub l).map (·.st) = some .noBuffer then 1
        else if (pub l).map (·.st) = some .discarded then 2 else 3)) ∧
    Completes (.evwait g a b) (fun s key F => allIn (.evwait g a b) 8 A s key F ∧
        ∀ l, inMask (taking (.evwait g a b) s key F) l = true → ¬counts s key l) (fun s key F pc t =>
      Goes (withHierarchy s t) t key F id (onward pc)) ∧
    Completes (.evwait g a b) (fun s key F => allIn (.evwait g a b) 8 A s key F ∧
        ∃ l, inMask (taking (.evwait g a b) s key F) l = true ∧ counts s key l) (fun s key F pc t =>
      ∀ l, inMask F l = true → inMask (s.crew key).exited l = false → ((t.crew key).th l).pc = pc + 4 ∧
        ((t.crew key).th l).st = .parked (.counters ((maskLanes (taking (.evwait g a b) s key F &&& ~~~(s.crew key).exited)).map fun l =>
          (A s key l, B s key l))))) ∧
  ∀ (gang seq : Nat) (s : State) (p : Publication), (s.gang gang).pubs.find? (fun q => q.seq == BitVec.ofNat 32 seq) = some p →
    let gone := s.discarded.any fun d => d.1 == (s.gang gang).asid && d.2 == p.base
    ((p.st ≠ .pending ∨ s.pubReady p = false) → exec (.publicationSwap gang seq) s = .next s) ∧
    (p.st = .pending → s.pubReady p = true → ∃ t, exec (.publicationSwap gang seq) s = .next t ∧
      (∀ q ∈ (t.gang gang).pubs, q.seq = p.seq → q.st = if gone then .discarded else .published) ∧
      (gone = true → t.mem = s.mem) ∧ t.crews = s.crews)

/-! ## Matrix jobs and accumulators (R221 to R230) -/

/-- R221, R227: MMA and MEPI submit one job for each taking lane in lane order, numbered per core, with its card as it stands. MEPI of a
HELD job starts its epilogue again. A lane that finds 16 jobs waits, with its card and the codebook as they stood at the issue (R101). R223 to R225: MWAIT, MQRY and MCAN write the status word; MWAIT waits, and traps for HELD jobs; MCAN
ends the job. The address that CARD reports is the model's reading (log 44). -/
def Obligations.MatrixJobs : Prop :=
  ∀ (g : BitVec 3) (d a b : BitVec 6),
    let A (s : State) (key : Nat) (l : Lane) : Word := srcInt s key 64 a l
    let B (s : State) (key : Nat) (l : Lane) : Word := srcInt s key 64 b l
    let core (s : State) (key : Nat) : Nat := (s.crew key).core
    let part (s : State) (key : Nat) : Nat := core s key - (s.gang (gangOf key)).core0.getD 0
    let card (s : State) (key : Nat) (l : Lane) : List Byte := readBytes (pad s key) (scratchAt (A s key l)) 256
    let book (s : State) (key : Nat) : List Byte := readBytes (s.core (core s key)).codebook 0 2048
    let after (n : BitVec 32) : BitVec 32 := if n = 0xFFFFFFFF then 1 else n + 1
    let room (i : Instr) (s : State) (key : Nat) (F : Mask) : Prop :=
      s.engineLoad (core s key) + (maskLanes (taking i s key F)).length ≤ 16
    let good (only : Bool) (i : Instr) (s : State) (key : Nat) (F : Mask) : Prop := room i s key F ∧
      ∀ l, inMask (taking i s key F) l = true → (∀ k, k < 4 → InScratch s key 64 (A s key l + BitVec.ofNat 64 (64 * k))) ∧
        cardBad (card s key l) (s.hdrOf key) (s.gang (gangOf key)).ncore (part s key) only = false
    let submits (only : Bool) (i : Instr) (s : State) (key : Nat) (F : Mask) (pc : Pc) (t : State) : Prop :=
      let ls := maskLanes (taking i s key F)
      let seq (l : Lane) : BitVec 32 := (ls.idxOf l + 1).repeat after ((s.gang (gangOf key)).jobSeq.getD (part s key) 0)
      WritesReg (withHierarchy { s with gangs := t.gangs } t) t key F pc d (taking i s key F) (fun l => seq l ++ BitVec.ofNat 32 (part s key)) ∧
      t.gang (gangOf key) = { s.gang (gangOf key) with jobSeq := (t.gang (gangOf key)).jobSeq } ∧
      ∃ js : List Job, (t.core (core s key)).jobs = (s.core (core s key)).jobs ++ js ∧
        js.map (fun j => (j.seq, j.gang, j.card, j.only, j.st)) = (ls.map fun l => (seq l, gangOf key, card s key l, only, JobState.queued)) ∧
        ∀ j ∈ js, j.codebook = none ∨ j.codebook = some (book s key)
    let sized (s : State) : Prop := ∀ c, ∀ j ∈ (s.core c).jobs, j.badblk < 2 ^ 16 ∧ j.batch < 2 ^ 16 ∧ j.stored.length < 2 ^ 16
    let code (j : Job) : BitVec 8 := match j.st with
      | .queued => 0 | .running => 1 | .epilogue => 2 | .held => 3 | .done => 4 | .cancelled => 5 | .faulted => 6
    let ended (j : Job) : Prop := j.st = .done ∨ j.st = .cancelled ∨ j.st = .faulted
    let bit (p : Prop) [Decidable p] : BitVec 1 := if p then 1 else 0
    let status (j : Option Job) : Word := match j with
      | some j => BitVec.ofNat 16 j.badblk ++ BitVec.ofNat 16 j.batch ++ BitVec.ofNat 16 j.stored.length ++ code j ++ 0#4 ++
          bit (j.badblk ≠ 0) ++ bit (j.wrapped = true) ++ bit (j.poisoned = true) ++ bit (ended j)
      | none => 0x700
    let named (s : State) (key : Nat) (l : Lane) : Option Job := s.jobAt (gangOf key) (A s key l)
    let busy (s : State) (key : Nat) (l : Lane) : Prop := ∃ j, named s key l = some j ∧ ¬ended j ∧ j.st ≠ .held
    let held (s : State) (key : Nat) (l : Lane) : Bool := ((named s key l).map Job.st) = some .held
    Completes (.mma g d a) (good false (.mma g d a)) (submits false (.mma g d a)) ∧
    (∀ s key F pc l, Issues (.mma g d a) s key F pc → taking (.mma g d a) s key F = 1#32 <<< l.val → (s.crew key).infl = [] →
      16 ≤ s.engineLoad (core s key) → (∀ k, k < 4 → InScratch s key 64 (A s key l + BitVec.ofNat 64 (64 * k))) →
      cardBad (card s key l) (s.hdrOf key) (s.gang (gangOf key)).ncore (part s key) false = false →
      (s.crew key).exited &&& (1#32 <<< l.val) = 0 → ∃ t e, exec (.mma g d a) s = .next t ∧
        Goes (withHierarchy s t) t key F (fun c => { c with infl := [e] })
          (fun _ th => { th with pc := pc + 4, st := if th.st = .exited then th.st else .parked .engine }) ∧
        e.ipc = pc ∧ e.take = 1#32 <<< l.val ∧ e.done = 0 ∧ e.cards = [(l.val, card s key l)] ∧ e.book = some (book s key)) ∧
    Completes (.mepi g d a b) (fun s key F => good true (.mepi g d a b) s key F ∧
      ∀ l, inMask (taking (.mepi g d a b) s key F) l = true → B s key l = 0) (submits true (.mepi g d a b)) ∧
    Completes (.mepi g d a b) (fun s key F => room (.mepi g d a b) s key F ∧
        ∃ l, taking (.mepi g d a b) s key F = 1#32 <<< l.val ∧ B s key l ≠ 0) (fun s key F pc t =>
      let job (l : Lane) : Option Job := s.jobAt (gangOf key) (B s key l)
      WritesReg (withHierarchy s t) t key F pc d (taking (.mepi g d a b) s key F) (fun l =>
        if (job l).map (·.st) = some .held then B s key l else 0) ∧
      ∀ l c k j, inMask (taking (.mepi g d a b) s key F) l = true → s.jobOf (gangOf key) (B s key l) = some (c, k) →
        (s.core c).jobs[k]? = some j →
        (t.core c).jobs[k]? = some (if j.st = .held then { j with st := .epilogue, tried := [], fault := none } else j)) ∧
    Completes (.mqry g d a) (fun s _ _ => sized s) (fun s key F pc t =>
      WritesReg s t key F pc d (taking (.mqry g d a) s key F) fun l => status (named s key l)) ∧
    (∀ s key F pc, Issues (.mwait g d a) s key F pc →
      let take := taking (.mwait g d a) s key F
      ((∃ l, inMask take l = true ∧ busy s key l) → ∃ t, exec (.mwait g d a) s = .next t ∧
        ∃ w : TokenWait, w.d = d ∧ w.take = take ∧ (∀ l, w.toks.at l = A s key l) ∧
          Goes s t key F id fun _ th => { th with pc := pc, st := .parked (.jobs w) }) ∧
      ((∀ l, inMask take l = true → ¬busy s key l) → (∃ l, inMask take l = true ∧ held s key l = true) →
        TrapsWith (.mwait g d a) s key F pc 0x12 (maskOf fun l => inMask take l && held s key l) fun l =>
          (((named s key l).bind Job.fault).map Prod.fst).getD 0) ∧
      (sized s → (∀ l, inMask take l = true → ¬busy s key l ∧ held s key l = false) → ∃ t, exec (.mwait g d a) s = .next t ∧
        WritesReg (withHierarchy s t) t key F pc d take fun l => status (named s key l))) ∧
    Completes (.mcan g d a) (fun s _ _ => sized s) (fun s key F pc t =>
      let take := taking (.mcan g d a) s key F
      let stopped (j : Job) : Job := { j with st := .cancelled, staging := none, stuck := false }
      WritesReg { withHierarchy s t with discarded := t.discarded } t key F pc d take (fun l =>
        status ((named s key l).map fun j => if ended j then j else stopped j)) ∧
      ∀ c k j, (s.core c).jobs[k]? = some j → (t.core c).jobs[k]? = some (
        if ¬ended j ∧ ∃ l, inMask take l = true ∧ s.jobOf (gangOf key) (A s key l) = some (c, k) then stopped j else j))

/-- R101, R229, R230: ACCZ clears bytes and their poison, ACCRD and ACCWR move 8 bytes of accumulator space in each taking lane, and
wait for the jobs that still own the bytes; ACCZ traps for the whole fragment. CBLD copies the 2,048 bytes of the lowest taking lane.
The trap of ACCZ is the model's reading (log 45). -/
def Obligations.Accumulator : Prop :=
  ∀ (g : BitVec 3) (d a b : BitVec 6),
    let A (s : State) (key : Nat) (l : Lane) : Word := srcInt s key 64 a l
    let B (s : State) (key : Nat) (l : Lane) : Word := srcInt s key 64 b l
    let size (s : State) (key : Nat) : Nat := (s.hdrOf key).acc * 1024
    let inside (s : State) (key : Nat) (o : Word) : Prop := o.toNat % 8 = 0 ∧ o.toNat + 8 ≤ size s key
    let acc (s : State) (key n : Nat) : Byte := readByte (s.gang (gangOf key)).acc n
    let bad (s : State) (key n : Nat) : Bool := (s.gang (gangOf key)).accPoison.contains n
    let moved (s t : State) (key : Nat) : Prop := t.gang (gangOf key) =
      { s.gang (gangOf key) with acc := (t.gang (gangOf key)).acc, accPoison := (t.gang (gangOf key)).accPoison }
    let ends (s t : State) (key : Nat) (F : Mask) (pc : Pc) : Prop := Goes { s with gangs := t.gangs } t key F id (onward pc) ∧ moved s t key
    (∀ s key F pc k, Issues (.accz g a b) s key F pc → lowest (taking (.accz g a b) s key F) = some k →
      let off := (A s key k).toNat
      let n := (B s key k).toNat
      let fails (cause : BitVec 8) : Prop := TrapsWith (.accz g a b) s key F pc cause F fun _ => A s key k
      (off % 8 ≠ 0 ∨ n % 8 ≠ 0 → fails 0x07) ∧
      (off % 8 = 0 → n % 8 = 0 → n ≠ 0 → size s key < off + n → fails 0x05) ∧
      (off % 8 = 0 → n % 8 = 0 → n ≠ 0 → off + n ≤ size s key → s.accJobs (gangOf key) off (off + n) ≠ [] →
        ∃ t, exec (.accz g a b) s = .next t ∧
          Goes s t key F id fun _ th => { th with pc := pc, st := .parked (.zeroing off n (s.accJobs (gangOf key) off (off + n))) }) ∧
      (off % 8 = 0 → n % 8 = 0 → n = 0 ∨ off + n ≤ size s key ∧ s.accJobs (gangOf key) off (off + n) = [] →
        ∃ t, exec (.accz g a b) s = .next t ∧ ends s t key F pc ∧
          (∀ m, acc t key m = if off ≤ m ∧ m < off + n then 0 else acc s key m) ∧
          ∀ m, bad t key m = (bad s key m && !(decide (off ≤ 8 * m) && decide (8 * m < off + n))))) ∧
    Completes (.accrd g d a) (fun s key F => ∀ l, inMask (taking (.accrd g d a) s key F) l = true →
        inside s key (A s key l) ∧ bad s key ((A s key l).toNat / 8) = false) (fun s key F pc t =>
      WritesReg s t key F pc d (taking (.accrd g d a) s key F) fun l => BitVec.ofNat 64 (readNat (s.gang (gangOf key)).acc (A s key l).toNat 8)) ∧
    Completes (.accwr g a b) (fun s key F => ∀ l, inMask (taking (.accwr g a b) s key F) l = true →
        inside s key (A s key l) ∧ s.accJobs (gangOf key) (A s key l).toNat ((A s key l).toNat + 8) = []) (fun s key F pc t =>
      let ls := maskLanes (taking (.accwr g a b) s key F)
      ends s t key F pc ∧
      (∀ m, acc t key m = readByte (ls.foldl (fun x l => writeNat x (A s key l).toNat 8 (B s key l).toNat) (s.gang (gangOf key)).acc) m) ∧
      ∀ m, bad t key m = (bad s key m && ls.all fun l => (A s key l).toNat / 8 != m)) ∧
    Completes (.cbld g a) (fun s key F => s.codebookJobs (s.crew key).core = [] ∧ ∀ k, lowest (taking (.cbld g a) s key F) = some k →
        ∀ n, n < 16 → InScratch s key 128 (A s key k + BitVec.ofNat 64 (128 * n))) (fun s key F pc t =>
      Goes { s with cores := t.cores } t key F id (onward pc) ∧
      ∀ c, t.core c = { s.core c with codebook := (t.core c).codebook } ∧ ∀ n, n < 2048 → readByte (t.core c).codebook n =
        match lowest (taking (.cbld g a) s key F) with
        | some k => if c = (s.crew key).core then readByte (pad s key) (scratchAt (A s key k) + n) else readByte (s.core c).codebook n
        | none => readByte (s.core c).codebook n)

/-! ## The function store and proposals (R233 to R254) -/

/-- R31, R32, R235, R237, R239 to R243, R247, R248: the checks of a table operand; FTAB binds, unbinds or reports no room; FCALL of lanes that all
hit writes the answers and counts them, and of lanes that all miss calls the routine, with the pushes of R31 and R32; FPROBE tells which record would answer; FQRY reads
the instance. The address that FSTBAD reports and the lanes that it marks are the model's reading (log 44, 46, 115), and so are a DEFERRED table's view of its grid, through
which lookups and FQRY go (log 48), and the time at which an update of a LIVE table settles (log 47). -/
def Obligations.FunctionStore : Prop :=
  ∀ (g : BitVec 3) (d a b : BitVec 6),
    let tk (s : State) (key : Nat) : Nat := (s.gang (gangOf key)).asid.toNat * 32 + b.toNat
    let die (s : State) (key : Nat) : Nat := (s.crew key).core / 32
    let A (s : State) (key : Nat) (l : Lane) : Word := srcInt s key 64 a l
    let now (s : State) (key : Nat) : State := s.settleInst (die s key) (tk s key)
    let inst (s : State) (key : Nat) : FstInstance := s.instOf (die s key) (tk s key)
    let seen (s : State) (key : Nat) (f : FstTable) : FstView := (inst (now s key) key).seen f (s.gang (gangOf key)).grid
    let reg (s : State) (key n : Nat) (l : Lane) (f : FstTable) : Word :=
      if f.single then (s.crew key).reg n l &&& 0xFFFFFFFF#64 else (s.crew key).reg n l
    let args (s : State) (key : Nat) (l : Lane) (f : FstTable) : List Word := (List.range f.dim).map fun k => reg s key (a.toNat + k) l f
    let answer (s : State) (key : Nat) (l : Lane) (f : FstTable) : Option FstRecord :=
      (seen s key f).recs.find? fun r => r.contains f.fmt numOne (args s key l f)
    let large (s : State) (key : Nat) (_ : FstTable) (v : BitVec 6) (n : Nat) : Prop := (s.hdrOf key).regs < v.toNat + n
    let size (f : FstTable) : Nat := f.outs * (1 + f.dim)
    let many (s t : State) (key : Nat) (F : Mask) (pc : Pc) (n : Nat) (m : Mask) (v : Lane → Nat → Word) : Prop :=
      Advances s t key F pc ∧ PredsKept s t key ∧
      (∀ l j, inMask m l = true → j < n → (t.crew key).reg (d.toNat + j) l = v l j) ∧
      ∀ l r, r < 48 → (inMask m l = false ∨ r < d.toNat ∨ d.toNat + n ≤ r) → (t.crew key).reg r l = (s.crew key).reg r l
    (∀ i ∈ [Instr.fcall g d a b, .fprobe g d a b, .fret g d a b, .fins g d a b, .fevict g d a b, .fclr g b], ∀ s key F pc, Issues i s key F pc →
      s.table? (tk s key) = none → TrapsWith i s key F pc 0x0F F fun _ => 0) ∧
    (∀ i ∈ [Instr.fcall g d a b, .fprobe g d a b, .fret g d a b, .fevict g d a b], ∀ s key F pc f, Issues i s key F pc →
      s.table? (tk s key) = some f → large s key f a f.dim → TrapsWith i s key F pc 0x03 F fun _ => 0) ∧
    (∀ i ∈ [Instr.fcall g d a b, .fret g d a b], ∀ s key F pc f, Issues i s key F pc →
      s.table? (tk s key) = some f → large s key f d (size f) → TrapsWith i s key F pc 0x03 F fun _ => 0) ∧
    (∀ s key F pc k, Issues (.ftab g d a b) s key F pc → lowest (taking (.ftab g d a b) s key F) = some k →
      let image := readBytes (pad s key) (scratchAt (A s key k)) 128
      let others (t : State) : Prop := ∀ n, n ≠ tk s key → t.table? n = s.table? n ∧ ∀ x, t.instOf x n = s.instOf x n
      let ends (st : Word) (f : Option FstTable) : Prop := ∃ t, exec (.ftab g d a b) s = .next t ∧
        WritesReg { s with tables := t.tables, dies := t.dies } t key F pc d (taking (.ftab g d a b) s key F) (fun _ => st) ∧ others t ∧
        t.table? (tk s key) = f ∧ (st ≠ 1 → ∀ x, t.instOf x (tk s key) = FstInstance.reset) ∧ (st = 1 → t.dies = s.dies)
      let good : Prop := InScratch s key 64 (A s key k) ∧ InScratch s key 64 (A s key k + 64)
      (A s key k = 0 → ends 2 none) ∧
      (good → readDescriptor image = none → TrapsWith (.ftab g d a b) s key F pc 0x0F (1#32 <<< k.val) fun _ => A s key k) ∧
      ∀ f, readDescriptor image = some f → good →
        (s.bindRoom (tk s key) f.cap = true → ends 0 (some f)) ∧ (s.bindRoom (tk s key) f.cap = false → ends 1 (s.table? (tk s key)))) ∧
    (∀ s key F pc f, Issues (.fprobe g d a b) s key F pc → s.table? (tk s key) = some f → ¬large s key f a f.dim →
      ∃ t, exec (.fprobe g d a b) s = .next t ∧ WritesReg (now s key) t key F pc d (taking (.fprobe g d a b) s key F) fun l =>
        match answer s key l f with
        | some r => BitVec.ofNat 32 r.seq ++ 1#32
        | none => 0) ∧
    (∀ s key F pc f, Issues (.fcall g d a b) s key F pc → s.table? (tk s key) = some f → ¬large s key f a f.dim → ¬large s key f d (size f) →
      let i := Instr.fcall g d a b
      let take := taking i s key F
      let out (l : Lane) (k : Nat) : Nat × Exc :=
        ((answer s key l f).map fun r => r.output f.fmt (laneRm s key 7 l) (args s key l f) k).getD (0, 0)
      let exc (l : Lane) : Exc := (List.range f.outs).foldl (fun e k => e ||| (out l k).2) 0
      ((∀ l, inMask take l = true → (answer s key l f).isSome = true ∧ ((s.crew key).th l).fstat.extractLsb' 8 5 = 0) →
        ∃ t, exec i s = .next t ∧
          many { flagged i s key F exc with dies := t.dies } t key F pc (size f) take (fun l j =>
            if j < f.outs then BitVec.ofNat 64 (out l j).1 else (((answer s key l f).map FstRecord.j).getD []).getD (j - f.outs) 0) ∧
          (f.deferred = false → (inst t key).hits = min ((inst (now s key) key).hits + (maskLanes take).length) (2 ^ 64 - 1) ∧
            (inst t key).misses = min (inst (now s key) key).misses (2 ^ 64 - 1) ∧
            (inst t key).recs = (inst (now s key) key).recs.map fun r => { r with
              hits := min (r.hits + ((maskLanes take).filter fun l => (answer s key l f).map FstRecord.seq == some r.seq).length)
                (2 ^ 64 - 1) })) ∧
      (take ≠ 0 → (∀ l, inMask take l = true → answer s key l f = none) →
        (∃ off slots, dirEntry (s.hdrOf key) f.ovl = some (off, slots) ∧ off ≤ f.entry.toNat ∧ f.entry.toNat < off + 4096 * slots) →
        PushFails i s (now s key) key F pc take ∧ (PushRoom s key take → (∀ n off slots, overlayAt (s.hdrOf key) f.entry.toNat = some (n, off, slots) →
          s.ovlResident (s.crew key).core (s.gang (gangOf key)).asid (s.crew key).cver off = true) →
        ∃ t, exec i s = .next t ∧ Spills s t key take ∧
          Goes { now s key with dies := t.dies, cores := t.cores, gangs := t.gangs } t key F (fun c => { c with pins := (t.crew key).pins })
            fun l th => if inMask take l then { pushed th (callEntry s key pc th) with pc := f.entry } else { th with pc := pc + 4 }))) ∧
    Completes (.fqry g d a b) always (fun s key F pc t =>
      WritesReg (now s key) t key F pc d (taking (.fqry g d a b) s key F) fun l =>
        match s.table? (tk s key) with
        | none => 0
        | some f =>
          let v := seen s key f
          let i := inst (now s key) key
          BitVec.ofNat 64 ([v.recs.length, f.cap, v.hits, v.misses, i.inserts, i.grows, i.dups, i.evicts, i.rejects, i.next, i.queue.length,
            f.routine.toNat * 65536 + f.dim * 32 + f.outs * 4 + (if f.single then 2 else 0) + if f.deferred then 1 else 0].getD
              (A s key l).toNat 0))

/-- R244 to R246, R249, R250: FRET queues what its lanes teach and returns; FINS, FEVICT and FCLR act on a LIVE instance at once, in
lane order after every update that arrived before, and are queued for a DEFERRED one when there is room, with outcome 0. An update
teaches by inserting a record, at the place of the least used when the instance is full, growing a candidate, or nothing. The room of a
DEFERRED queue, the time of a LIVE update, and the lane of FCLR's one entry are the model's reading (log 18, 47, 116). -/
def Obligations.FunctionStoreUpdates : Prop :=
  (∀ (g : BitVec 3) (d a b : BitVec 6) (s : State) (key : Nat) (F : Mask) (pc : Pc) (f : FstTable),
    let tk : Nat := (s.gang (gangOf key)).asid.toNat * 32 + b.toNat
    let die : Nat := (s.crew key).core / 32
    let c := s.crew key
    let inst (u : State) : FstInstance := u.instOf die tk
    let i0 := inst (s.settleInst die tk)
    let reg (n : Nat) (l : Lane) : Word := if f.single then c.reg n l &&& 0xFFFFFFFF#64 else c.reg n l
    let args (n k : Nat) (l : Lane) : List Word := (List.range k).map fun j => reg (n + j) l
    let size := f.outs * (1 + f.dim)
    let mine (i : Instr) : List Lane := maskLanes (taking i s key F)
    let fits (v : BitVec 6) (n : Nat) : Prop := v.toNat + n ≤ (s.hdrOf key).regs
    let base (t : State) : State := { s with dies := t.dies }
    let queued (t : State) (ls : List Lane) (u : Lane → FstUpdate) : Prop :=
      (inst t).queue.map (fun q => (q.grid, q.lin, q.crew, q.lane, q.upd)) =
        (inst s).queue.map (fun q => (q.grid, q.lin, q.crew, q.lane, q.upd)) ++ ls.map fun l =>
          ((s.gang (gangOf key)).grid, (s.gang (gangOf key)).lin, crewIndex key, l.val, u l)
    let image (l : Lane) : List Byte := readBytes (pad s key) (scratchAt (srcInt s key 64 a l)) 512
    let put (l : Lane) : FstUpdate := imageUpd f (image l)
    let after (ls : List Lane) : FstInstance := ls.foldl (fun i l => (i.apply f (put l)).2) i0
    let has (r : FstRecord) (l : Lane) : Bool := r.contains f.fmt numOne (args a.toNat f.dim l)
    s.table? tk = some f →
    (Issues (.fret g d a b) s key F pc → fits a f.dim → fits d size → s.fstRoom die f (mine (.fret g d a b)).length = true → f.single = false →
      Quiet s key → (∃ l, (inMask (taking (.fret g d a b) s key F) l = false ∨ (c.th l).rsdep ≠ 0) ∧ (c.th l).st ≠ .exited) →
      (∀ l, inMask (taking (.fret g d a b) s key F) l = true → (c.th l).rsdep = 0 ∨ MayPop s key (c.th l)) →
      ∃ t, exec (.fret g d a b) s = .next t ∧
        Goes { base t with cores := t.cores } t key F (fun c => { c with pins := (t.crew key).pins }) (fun l th =>
          if inMask (taking (.fret g d a b) s key F) l then
            (if th.rsdep = 0 then { th with st := .exited, rstk := [], rsdep := 0, pmode := false, wm := 0 } else popped s key th)
          else { th with pc := pc + 4 }) ∧
        queued t (mine (.fret g d a b)) fun l =>
          .learn (args a.toNat f.dim l) (args d.toNat f.outs l) (args (d.toNat + f.outs) (f.outs * f.dim) l)) ∧
    (Issues (.fins g d a b) s key F pc → s.fstRoom die f (mine (.fins g d a b)).length = true →
      (∀ l, inMask (taking (.fins g d a b) s key F) l = true →
        ∀ k, k < 8 → InScratch s key 64 (srcInt s key 64 a l + BitVec.ofNat 64 (64 * k))) →
      ∃ t, exec (.fins g d a b) s = .next t ∧
        WritesReg (base t) t key F pc d (taking (.fins g d a b) s key F) (fun l =>
          if f.deferred then 0 else BitVec.ofNat 64 ((after ((mine (.fins g d a b)).filter fun k => k < l)).apply f (put l)).1) ∧
        if f.deferred then queued t (mine (.fins g d a b)) put
        else mine (.fins g d a b) ≠ [] → inst t = after (mine (.fins g d a b))) ∧
    (Issues (.fevict g d a b) s key F pc → fits a f.dim → s.fstRoom die f (mine (.fevict g d a b)).length = true →
      ∃ t, exec (.fevict g d a b) s = .next t ∧
        WritesReg (base t) t key F pc d (taking (.fevict g d a b) s key F) (fun l => if f.deferred then 0 else
          BitVec.ofNat 64 (i0.recs.filter fun r => has r l && ((mine (.fevict g d a b)).all fun k => decide (l ≤ k) || !has r k)).length) ∧
        if f.deferred then queued t (mine (.fevict g d a b)) fun l => .evict (args a.toNat f.dim l)
        else mine (.fevict g d a b) ≠ [] →
          (inst t).recs = (i0.recs.filter fun r => (mine (.fevict g d a b)).all fun l => !has r l) ∧ (inst t).queue = []) ∧
    (Issues (.fclr g b) s key F pc → s.fstRoom die f 1 = true → ∃ t, exec (.fclr g b) s = .next t ∧ Goes (base t) t key F id (onward pc) ∧
      (taking (.fclr g b) s key F = 0 → t.dies = s.dies) ∧
      (taking (.fclr g b) s key F ≠ 0 → if f.deferred then queued t ((mine (.fclr g b)).take 1) (fun _ => .clear)
        else (inst t).recs = [] ∧ (inst t).queue = []))) ∧
  (∀ (s : State) (die table : Nat),
    let acts (f : FstTable) (q : FstQueued) (rest : List FstQueued) : Prop := s.table? table = some f ∧ f.deferred = false ∧
      (s.instOf die table).queue = q :: rest
    ((∀ f q rest, ¬acts f q rest) → exec (.assayerUpdate die table) s = .next s) ∧
    ∀ f q rest, acts f q rest → ∃ t, exec (.assayerUpdate die table) s = .next t ∧ { t with dies := s.dies } = s ∧
      t.instOf die table = { ((s.instOf die table).apply f q.upd).2 with queue := rest }) ∧
  ∀ (i : FstInstance) (b : FstTable) (x f j : List Word),
    let up (n : Nat) : Nat := min (n + 1) (2 ^ 64 - 1)
    let finite : Prop := ∀ v ∈ x ++ f ++ j, fstFinite b.fmt v = true
    let found := i.recs.find? (b.candidate x f)
    let new : FstRecord := ⟨b.routine, i.next, 0, x, b.rho, f, j⟩
    let r := i.apply b (.learn x f j)
    (¬finite → r = (5, { i with rejects := up i.rejects })) ∧
    (finite → found = none → i.recs.length < b.cap →
      r = (2, { i with recs := i.recs ++ [new], next := up i.next, inserts := up i.inserts })) ∧
    (finite → found = none → b.cap ≤ i.recs.length → i.recs ≠ [] → r.1 = 3 ∧
      ∃ v ∈ i.recs, (∀ y ∈ i.recs, v.hits < y.hits ∨ (v.hits = y.hits ∧ v.seq ≤ y.seq)) ∧
        r.2.recs = (i.recs.filter fun y => y.seq ≠ v.seq) ++ [new]) ∧
    ∀ c, found = some c → finite →
      (c.contains b.fmt numOne x = true → r = (4, { i with dups := up i.dups })) ∧
      (c.contains b.fmt numOne x = false → r.1 = 1 ∧ r.2.next = i.next ∧ r.2.recs.length = i.recs.length ∧
        ∀ y ∈ i.recs, y.seq ≠ c.seq → y ∈ r.2.recs)

/-- R28, R29, R251 to R254: PBEGIN, ACCEPT, PCOMMIT and PDISC: proposal mode begins with nothing written and traps where it is on already;
its end moves the written bank registers to the committed bank in lanes that commit, drops them in lanes that discard, and moves nothing
else. ACCEPT decides by the log ratio and the random word, counts, and ends the proposal. -/
def Obligations.Proposals : Prop :=
  ∀ (g p : BitVec 3) (y : BitVec 1) (a b : BitVec 6),
    let settles (s t : State) (key : Nat) (F take : Mask) (pc : Pc) (commit : Lane → Bool) (own : Lane → Thread → Thread) : Prop :=
      OnlyCrew s t key ∧ (t.crew key).rest = (s.crew key).rest ∧ (t.crew key).shadow = (s.crew key).shadow ∧
      (∀ l, inMask F l = true → (t.crew key).th l = let th := own l ((s.crew key).th l)
        if inMask take l then { th with pc := pc + 4, pmode := false, wm := 0 } else { th with pc := pc + 4 }) ∧
      (∀ l, inMask F l = false → (t.crew key).th l = (s.crew key).th l) ∧
      ∀ n l, n < 48 → ((t.crew key).regs.getD n (allLanes 0)).at l =
        let th := (s.crew key).th l
        if inMask take l = true ∧ commit l = true ∧ th.pmode = true ∧ 40 ≤ n ∧ th.wm.getLsbD (n - 40) = true then
          ((s.crew key).shadow.getD (n - 40) (allLanes 0)).at l
        else ((s.crew key).regs.getD n (allLanes 0)).at l
    let nested (s : State) (key : Nat) (F : Mask) : Mask := maskOf fun l => inMask (taking (.pbegin g) s key F) l && ((s.crew key).th l).pmode
    (∀ s key F pc, Issues (.pbegin g) s key F pc → nested s key F ≠ 0 → TrapsWith (.pbegin g) s key F pc 0x0E (nested s key F) fun _ => 0) ∧
    Completes (.pbegin g) (fun s key F => nested s key F = 0) (fun s key F pc t => Goes s t key F id fun l th =>
      if inMask (taking (.pbegin g) s key F) l then { th with pc := pc + 4, pmode := true, wm := 0 } else { th with pc := pc + 4 }) ∧
    Completes (.pcommit g) always (fun s key F pc t => PredsKept s t key ∧
      settles s t key F (taking (.pcommit g) s key F) pc (fun _ => true) fun _ th => th) ∧
    Completes (.pdisc g) always (fun s key F pc t => PredsKept s t key ∧
      settles s t key F (taking (.pdisc g) s key F) pc (fun _ => false) fun _ th => th) ∧
    let ratio (s : State) (key : Nat) (l : Lane) : Machine.Num := decodeFp (if y = 1 then fmtS else fmtD)
      (subEl (if y = 1 then 32 else 64) ((s.crew key).src (.fp (if y = 1 then FpType.s else FpType.d)) a l) 0)
    let yes (s : State) (key : Nat) (l : Lane) : Bool := match ratio s key l with
      | .nan _ _ _ => false
      | .inf neg => !neg
      | .fin neg m e => !neg || m == 0 || belowExp (2 * ((srcInt s key 64 b l).extractLsb' 11 53).toNat + 1) m e
    let exc (s : State) (key : Nat) (l : Lane) : Exc := match ratio s key l with
      | .nan _ _ _ => 0x10
      | _ => 0
    let up (n : BitVec 32) : BitVec 32 := if n = 0xFFFFFFFF then n else n + 1
    Signals (.accept g p y a b) exc fun s key F pc u t =>
      let take := taking (.accept g p y a b) s key F
      settles u t key F take pc (yes s key) (fun l th => if inMask take l then
        { th with ptot := up th.ptot, pacc := if yes s key l then up th.pacc else th.pacc } else th) ∧
      ∀ n l, inMask ((t.crew key).pred n) l = if n ≠ 0 ∧ n = p ∧ inMask take l = true then yes s key l else inMask ((s.crew key).pred n) l

/-! ## Porter, semaphores and overlays (R256 to R273) -/

/-- R263 to R265: PRUN starts the core's Porter or says why not; SEMSIG adds, saturating, and serves the oldest waiter; SEMWAIT takes its
count or waits; SEMQRY reads the count. That a busy Porter is tested before the offset is the model's choice (log 117). -/
def Obligations.PorterAndSemaphores : Prop :=
  ∀ (g : BitVec 3) (d a b : BitVec 6),
    let core (s : State) (key : Nat) : Nat := (s.crew key).core
    let slot (s : State) (key : Nat) : Nat := (core s key - (s.gang (gangOf key)).core0.getD 0) * 32 + b.toNat
    let count (s : State) (key : Nat) : BitVec 32 := (s.gang (gangOf key)).sems.getD (slot s key) 0
    let waits (s : State) (key : Nat) : List SemWaiter := (s.gang (gangOf key)).semWaits.getD (slot s key) []
    let asked (s : State) (key : Nat) (l : Lane) : BitVec 32 := (srcInt s key 64 a l).extractLsb' 0 32
    let sum (x y : BitVec 32) : BitVec 32 := BitVec.ofNat 32 (min (x.toNat + y.toNat) (2 ^ 32 - 1))
    let mine (s t : State) : State := { s with gangs := t.gangs }
    let others (s t : State) (key : Nat) : Prop := ∀ n, n ≠ slot s key →
      (t.gang (gangOf key)).sems.getD n 0 = (s.gang (gangOf key)).sems.getD n 0 ∧
      (t.gang (gangOf key)).semWaits.getD n [] = (s.gang (gangOf key)).semWaits.getD n []
    Completes (.prun g d a b) (fun s key F => taking (.prun g d a b) s key F = 0) (fun s key F pc t =>
      WritesReg s t key F pc d 0 fun _ => 0) ∧
    (∀ s key F pc k, Issues (.prun g d a b) s key F pc → lowest (taking (.prun g d a b) s key F) = some k →
      let p := (s.core (core s key)).porter
      let h := s.hdrOf key
      let start : Pc := (srcInt s key 64 a k).extractLsb' 0 32
      let free : Prop := p.gang = none ∧ p.resumed = []
      let inside : Prop := h.porter ≠ 0 ∧ start.toNat % 4 = 0 ∧ h.porter ≤ start.toNat ∧ start.toNat < h.porter + h.porterLen
      let ends (st : Word) (p' : Porter) : Prop := ∃ t, exec (.prun g d a b) s = .next t ∧
        WritesReg { s with cores := t.cores } t key F pc d (taking (.prun g d a b) s key F) (fun _ => st) ∧
        (∀ n, n ≠ core s key → t.core n = s.core n) ∧ t.core (core s key) = { s.core (core s key) with porter := p' }
      (¬free → ends 1 p) ∧ (free → ¬inside → ends 2 p) ∧
      (free → inside → ends 0 { p with
        gang := some (gangOf key), cver := (s.crew key).cver, lo := h.porter, hi := h.porter + h.porterLen, pc := start
        q := (Vector.replicate 8 0).set 0 (srcInt s key 64 b k), wait := .none, stopped := none })) ∧
    Completes (.semsig g a b) (fun s key F => taking (.semsig g a b) s key F = 0) (fun s key F pc t => Goes s t key F id (onward pc)) ∧
    (∀ s key F pc k, Issues (.semsig g a b) s key F pc → lowest (taking (.semsig g a b) s key F) = some k →
      (waits s key = [] → ∃ t, exec (.semsig g a b) s = .next t ∧ Goes (mine s t) t key F id (onward pc) ∧
        count t key = sum (count s key) (asked s key k) ∧ waits t key = [] ∧ others s t key) ∧
      ∀ w n, waits s key = [w] → w.crew = some n → n ≠ key → (s.crew n).semLanes w.ticket ≠ 0 →
        w.count ≤ sum (count s key) (asked s key k) → (s.crew? n).isSome = true → ∃ t, exec (.semsig g a b) s = .next t ∧
          count t key = sum (count s key) (asked s key k) - w.count ∧ waits t key = [] ∧ others s t key ∧
          (∀ l, inMask F l = true → ((t.crew key).th l).pc = pc + 4) ∧
          ∀ l, (t.crew n).th l = if ((s.crew n).th l).st = .parked (.semaphore w.ticket) then { (s.crew n).th l with st := .live }
            else (s.crew n).th l) ∧
    Completes (.semwait g a b) (fun s key F => ∀ k, lowest (taking (.semwait g a b) s key F) = some k → asked s key k = 0) (fun s key F pc t =>
      Goes s t key F id (onward pc)) ∧
    (∀ s key F pc k, Issues (.semwait g a b) s key F pc → lowest (taking (.semwait g a b) s key F) = some k →
      waits s key = [] → asked s key k ≠ 0 → (∀ l, ((s.crew key).th l).st ≠ .parked (.semaphore (s.gang (gangOf key)).tickets)) →
      ∃ t, exec (.semwait g a b) s = .next t ∧ (t.gang (gangOf key)).tickets = (s.gang (gangOf key)).tickets + 1 ∧ others s t key ∧
        (asked s key k ≤ count s key → Goes (mine s t) t key F id (fun _ th => { th with pc := pc + 4, st := .live }) ∧
          count t key = count s key - asked s key k ∧ waits t key = []) ∧
        (count s key < asked s key k →
          Goes (mine s t) t key F id (fun _ th => { th with
            pc := pc + 4
            st := .parked (.semaphore (s.gang (gangOf key)).tickets) }) ∧
          count t key = count s key ∧ waits t key = [⟨(s.gang (gangOf key)).tickets, some key, asked s key k⟩])) ∧
    Completes (.semqry g d b) always (fun s key F pc t =>
      WritesReg s t key F pc d (taking (.semqry g d b) s key F) fun _ => (count s key).setWidth 64)

/-- R267 to R273: OVLD, OVWAIT, OVCALL, OVEVICT and OVQRY of an overlay that is absent, loading or resident, with their traps and status
words, OVCALL's pushes (R31, R32), and the completion of a load, with which the waiting lanes go on. That OVLXFER reports OVCALL's target as its address is the
model's reading (log 89); overlapping directory entries, the words of a slot past PAGES, the rank of an overlay that was never entered and
the state of a load that waits for room are its choice (log 110, 112). -/
def Obligations.Overlays : Prop :=
  (∀ (g : BitVec 3) (d a : BitVec 6) (s : State) (key : Nat) (F : Mask) (pc : Pc) (k : Lane),
    let c := s.crew key
    let asid := (s.gang (gangOf key)).asid
    let A (l : Lane) : Word := srcInt s key 64 a l
    let takes (i : Instr) : Prop := Issues i s key F pc ∧ lowest (taking i s key F) = some k
    let ovl (t : State) (off : Nat) : Option Overlay := ovlFind (t.core c.core) asid c.cver off
    let quota : Nat := (s.core c.core).quota.getD asid.toNat 0
    let used : Nat := ((s.core c.core).ovls.filter fun o => o.asid == asid && !o.wants).foldl (fun n o => n + o.slots) 0
    let ends (i : Instr) (st : Word) (post : State → Prop) : Prop := ∃ t, exec i s = .next t ∧
      WritesReg { s with cores := t.cores } t key F pc d (taking i s key F) (fun _ => st) ∧
      (∀ n, n ≠ c.core → t.core n = s.core n) ∧ t.core c.core = { s.core c.core with ovls := (t.core c.core).ovls } ∧ post t
    let all : Nat := ((s.core c.core).ovls.filter fun o => !o.wants).foldl (fun n o => n + o.slots) 0
    let same (t : State) : Prop := (t.core c.core).ovls = (s.core c.core).ovls
    let kept (off : Nat) (t : State) : Prop := (t.core c.core).ovls = (s.core c.core).ovls.map fun o =>
      if o.asid = asid ∧ o.ver = c.cver ∧ o.offset = off then { o with evict := false } else o
    let entry (n : Word) : Option (Nat × Nat) := (s.hdrOf key).dir[n.toNat]?
    let token : Word := c.cver ++ (A k).extractLsb' 0 48
    (∀ i ∈ [Instr.ovld g d a, .ovevict g d a], takes i → entry (A k) = none →
      TrapsWith i s key F pc 0x0D (taking i s key F) fun _ => A k) ∧
    (∀ i ∈ [Instr.ovld g d a, .ovwait g d a, .ovevict g d a, .ovqry g d a], Issues i s key F pc → taking i s key F = 0 →
      ∃ t, exec i s = .next t ∧ WritesReg s t key F pc d 0 fun _ => 0) ∧
    (∀ off slots, entry (A k) = some (off, slots) → takes (.ovld g d a) → (A k).toNat < 2 ^ 48 →
      (quota < slots → ends (.ovld g d a) token (kept off)) ∧
      (slots ≤ quota → ∀ o, ovl s off = some o → ends (.ovld g d a) token fun t => ovl t off = some { o with evict := false }) ∧
      (slots ≤ quota → ovl s off = none → slots ≤ quota - used → slots ≤ 48 - all → ends (.ovld g d a) token fun t =>
        (t.core c.core).ovls = (s.core c.core).ovls ++ [⟨asid, c.cver, off, slots, [], false, false, false, s.time, false⟩])) ∧
    (takes (.ovwait g d a) →
      let known := entry ((A k).extractLsb' 0 10 |>.setWidth 64)
      (known = none ∨ (A k).extractLsb' 48 16 ≠ c.cver → ends (.ovwait g d a) 3 same) ∧
      ∀ off slots, known = some (off, slots) → (A k).extractLsb' 48 16 = c.cver →
        (quota < slots → ends (.ovwait g d a) 1 (kept off)) ∧
        (slots ≤ quota → ∀ o, ovl s off = some o →
          (o.resident = true → ends (.ovwait g d a) 0 fun t => ovl t off = some { o with evict := false, entered := s.time }) ∧
          (o.resident = false → ∃ t, exec (.ovwait g d a) s = .next t ∧
            Goes { s with cores := t.cores } t key F id fun _ th =>
              { th with pc := pc + 4, st := .parked (.ovwait off d (taking (.ovwait g d a) s key F)) }))) ∧
    (Issues (.ovcall g a) s key F pc →
      let take := taking (.ovcall g a) s key F
      let T (l : Lane) : Pc := (A l).extractLsb' 0 32
      let bad := maskOf fun l => inMask take l && decide ((T l).toNat % 4 ≠ 0)
      let out := maskOf fun l => inMask take l && match overlayAt (s.hdrOf key) (T l).toNat with
        | none => true
        | some (_, _, slots) => decide (quota < slots)
      (bad ≠ 0 → TrapsWith (.ovcall g a) s key F pc 0x07 bad fun l => (T l).setWidth 64) ∧
      (bad = 0 → out ≠ 0 → TrapsWith (.ovcall g a) s key F pc 0x0D out fun l => (T l).setWidth 64) ∧
      (bad = 0 → out = 0 → PushFails (.ovcall g a) s s key F pc take ∧ (PushRoom s key take → (∀ l, inMask take l = true →
          ∀ n off slots, overlayAt (s.hdrOf key) (T l).toNat = some (n, off, slots) → s.ovlResident c.core asid c.cver off = true) →
        ∃ t, exec (.ovcall g a) s = .next t ∧ Spills s t key take ∧
          Goes { s with cores := t.cores, gangs := t.gangs } t key F (fun c => { c with pins := (t.crew key).pins }) fun l th =>
            if inMask take l then { pushed th (callEntry s key pc th) with pc := T l } else { th with pc := pc + 4 }))) ∧
    (∀ off slots, entry (A k) = some (off, slots) → takes (.ovevict g d a) →
      (ovl s off = none → ends (.ovevict g d a) 2 same) ∧
      ∀ o, ovl s off = some o →
        (o.resident = true → s.pinsOn c.core asid c.cver off = 0 → (∀ x ∈ (s.core c.core).ovls, x.wants = false ∧ x.evict = false) →
          ends (.ovevict g d a) 0 fun t => (t.core c.core).ovls =
            (s.core c.core).ovls.filter fun x => !(x.asid == asid && x.ver == c.cver && x.offset == off)) ∧
        (o.resident = false ∨ s.pinsOn c.core asid c.cver off ≠ 0 → ends (.ovevict g d a) 1 fun t =>
          ovl t off = some { o with evict := true })) ∧
    (Issues (.ovqry g d a) s key F pc → ∃ t, exec (.ovqry g d a) s = .next t ∧
      WritesReg s t key F pc d (taking (.ovqry g d a) s key F) fun l =>
        let free := BitVec.ofNat 64 ((quota - used) * 2 ^ 48)
        match entry (A l) with
        | none => free
        | some (off, slots) => free + BitVec.ofNat 64 (min (s.pinsOn c.core asid c.cver off) 65535 * 2 ^ 32 + slots * 2 ^ 16 +
            match ovl s off with
            | none => 0
            | some o => (if o.evict then 4 else 0) + if o.resident then 1 else 2))) ∧
  ∀ (s : State) (core n : Nat),
    let os := (s.core core).ovls
    (∀ o, (os[n]? = none ∨ (os[n]? = some o ∧ (o.resident = true ∨ o.wants = true))) → exec (.overlayLoadComplete core n) s = .next s) ∧
    (s.clocked core = false → exec (.overlayLoadComplete core n) s = .next s) ∧
    ∀ o, os[n]? = some o → s.clocked core = true → o.resident = false → (∀ x ∈ os, x.wants = false ∧ x.evict = false) →
      (os.map fun x => (x.asid, x.ver, x.offset)).Nodup → (s.loadCode o.asid o.ver o.offset o.slots).2 = false →
      ∃ t, exec (.overlayLoadComplete core n) s = .next t ∧
        (t.core core).ovls = os.set n { o with code := (s.loadCode o.asid o.ver o.offset o.slots).1, resident := true } ∧
        (∀ m, m ≠ core → t.core m = s.core m) ∧ t.gangs = s.gangs ∧ t.mem = s.mem ∧
        ∀ key c, s.crew? key = some c → c.core = core → c.cver = o.ver → (s.gang (gangOf key)).asid = o.asid →
          (s.gang (gangOf key)).core0.isSome = true → ∀ l, (c.th l).st = .parked (.overlay o.offset) ∨ (c.th l).st = .parked (.called o.offset) →
          (t.crew key).th l = { c.th l with st := .live }

/-- R256, R258 to R261: CPY, CPY2, CPYT, CFILL and CRED start a copy with the parameters of their registers, mark the scratchpad lines
it will write as absent, and the stream goes on; forms that the rules refuse stop the Porter. The cause and address of the forms refused
are the model's reading (log 39); so are that a second CRED is refused only while the first is pending (log 30), and that a CRED of a group
that a death has disabled completes poisoned (log 100). -/
def Obligations.PorterMoves : Prop :=
  ∀ (x y z r : BitVec 3) (h : BitVec 1) (o : BitVec 2),
    let Q (s : State) (core : Nat) (n : BitVec 3) : Word := (s.core core).porter.q[n.toNat]
    let starts (s t : State) (core gang : Nat) (kind : CopyKind) (sh : Bool) (lines : List Nat)
        (result : Option (List Byte × List Bool × Nat)) : Prop :=
      let p := (s.core core).porter
      PorterBecomes { s with gangs := t.gangs } t core { p.onward with
        nextCopy := p.nextCopy + 1
        copies := p.copies ++ [{ id := p.nextCopy, gang := gang, kind := kind, shadow := sh, word := p.pc, done := 0, result := result }] } ∧
      (∀ n, n ≠ gang → t.gang n = s.gang n) ∧
      t.gang gang = { s.gang gang with absent := (s.gang gang).absent ++ lines.map fun n => ⟨n, core, p.nextCopy⟩ }
    let inPad (kind : CopyKind) : Prop := ∃ w ∈ kind.runs, w.len ≠ 0 ∧
      (0xFFFFFFFFFF000000 ≤ w.dst.toNat ∨ 0xFFFFFFFFFF000000 < w.dst.toNat + w.len)
    let copies (i : Instr) (s : State) (core gang : Nat) (kind : CopyKind) : Prop :=
      (h = 0 ∨ ¬inPad kind → ∃ t, exec i s = .next t ∧ starts s t core gang kind (h == 1) (runLines kind.runs) none) ∧
      (h = 1 → inPad kind → PorterStops i s core gang 0x09 (Q s core x))
    let zrow (n : Nat) : Nat := if n = 0 then 0 else 1
    (∀ s core gang, Streams (.cpy x y z h) s core gang →
      ((Q s core z).toNat < 2 ^ 32 →
        copies (.cpy x y z h) s core gang (.lin (Q s core x).toNat (Q s core y).toNat (Q s core z).toNat)) ∧
      (2 ^ 32 ≤ (Q s core z).toNat → PorterStops (.cpy x y z h) s core gang 0x11 0)) ∧
    (∀ s core gang, Streams (.cfill x y z h) s core gang →
      ((Q s core z).toNat < 2 ^ 32 → copies (.cfill x y z h) s core gang (.fill (Q s core x).toNat (Q s core y) (Q s core z).toNat)) ∧
      (2 ^ 32 ≤ (Q s core z).toNat → PorterStops (.cfill x y z h) s core gang 0x11 0)) ∧
    (∀ s core gang, Streams (.cpy2 x y z h) s core gang →
      let part (n : Nat) : Nat := ((Q s core z).extractLsb' n 16).toNat
      copies (.cpy2 x y z h) s core gang
        (.grid (Q s core x).toNat (Q s core y).toNat (part 48 * zrow (part 32)) (part 32) (part 16) (part 0))) ∧
    (∀ s core gang, Streams (.cpyt x y z h) s core gang →
      let va := Q s core y
      let map := readBytes (s.gang gang).scratch (scratchAt va) 64
      (va.toNat % 64 ≠ 0 → PorterStops (.cpyt x y z h) s core gang 0x07 va) ∧
      (Memory.wf (s.gang gang).scratch = true → va.toNat % 64 = 0 → 0xFFFFFFFFFF000000 ≤ va.toNat → scratchAt va + 64 ≤ (s.gang gang).hdr.scratch →
        pieceMapped (s.gang gang) (scratchAt va) = true → (s.gang gang).scratchPoison.contains (scratchAt va / 128) = false →
        ((tensorMap map).bad map = true → PorterStops (.cpyt x y z h) s core gang 0x11 va) ∧
        ((tensorMap map).bad map = false → copies (.cpyt x y z h) s core gang (.tensor (Q s core x).toNat map (Q s core z))))) ∧
    ∀ s core gang, Streams (.cred x y z r o) s core gang →
      let q := Q s core z
      let len : BitVec 24 := q.extractLsb' 0 24
      let dst := (Q s core x).toNat
      let src := (Q s core y).toNat
      let shaped : Prop := dst % 8 = 0 ∧ src % 8 = 0 ∧ len.toNat % 8 = 0 ∧ 8 ≤ len.toNat ∧ len.toNat ≤ 65536
      let off : Prop := (q.extractLsb' 24 8).toNat ∈ s.redOff
      let allowed : Prop := (off ∨ (s.group (q.extractLsb' 24 8)).getLsbD 63 = true) ∧ s.credCopy (q.extractLsb' 24 8) (q.extractLsb' 32 32) = none
      (shaped → allowed → ∃ t, exec (.cred x y z r o) s = .next t ∧
        starts s t core gang (.reduce dst src (q.extractLsb' 32 32) (q.extractLsb' 24 8) len r o) false
          (runLines [⟨Q s core x, .zero, len.toNat⟩])
          (if off then some (List.replicate len.toNat 0, List.replicate (len.toNat / 8) true, 0) else none)) ∧
      (¬shaped ∨ ¬allowed → PorterStops (.cred x y z r o) s core gang 0x11 0)

/-- R86, R257, R258, R262, R265: the control words of a stream: semaphores after the earlier copies, loops inside the stream, its end, the
publication that it waits for, its registers, NOP, and reserved codes. The cause and address 0 of the words refused are the model's reading
(log 39), and so is that CPUB takes the next publication number of its gang (log 90). -/
def Obligations.PorterControl : Prop :=
  ∀ (x y z : BitVec 3) (k n : BitVec 6) (i12 : BitVec 12) (i10 : BitVec 10),
    let P (s : State) (core : Nat) : Porter := (s.core core).porter
    let Q (s : State) (core : Nat) (n : BitVec 3) : Word := (P s core).q[n.toNat]
    let slot (s : State) (core gang : Nat) : Nat := (core - (s.gang gang).core0.getD 0) * 32 + n.toNat
    let count (s : State) (core gang : Nat) : BitVec 32 := (s.gang gang).sems.getD (slot s core gang) 0
    let free (s : State) (core gang : Nat) : Prop := (s.gang gang).semWaits.getD (slot s core gang) [] = []
    let sems (s t : State) (core gang : Nat) (v : BitVec 32) (w : List SemWaiter) : Prop := count t core gang = v ∧
      (t.gang gang).semWaits.getD (slot s core gang) [] = w ∧ (∀ m, m ≠ gang → t.gang m = s.gang m) ∧
      ∀ m, m ≠ slot s core gang → (t.gang gang).sems.getD m 0 = (s.gang gang).sems.getD m 0
    let becomes (i : Instr) (s : State) (core : Nat) (p : Porter) : Prop := ∃ t, exec i s = .next t ∧ PorterBecomes s t core p
    let mine (s t : State) : State := { s with gangs := t.gangs }
    let set (s : State) (core : Nat) (v : Word) : Porter := { (P s core).onward with q := (P s core).q.setIfInBounds x.toNat v }
    (∀ i, i.isPorter = true → i.illegal = true → ∀ s core gang, s.cur = .porter core → (P s core).gang = some gang →
      PorterStops i s core gang 0x01 0) ∧
    (∀ w e s core gang, decodeWord w = .error e → s.cur = .porter core → (P s core).gang = some gang →
      PorterStops (.unusedEncoding w) s core gang (if e = .resbits ∧ (decodeLoose w).any Instr.isPorter = true then 0x02 else 0x01) 0) ∧
    (∀ s core, s.cur = .porter core → becomes .nop s core { P s core with pc := (P s core).pc + 4 }) ∧
    (∀ i ∈ [Instr.csig k n, .cend, .cpub x], ∀ s core gang, Streams i s core gang → (P s core).copies ≠ [] →
      becomes i s core { P s core with wait := .copies }) ∧
    PorterDoes (.csig k n) (fun s core gang => (P s core).copies = [] ∧ free s core gang) (fun s core gang t =>
      PorterBecomes (mine s t) t core (P s core).onward ∧
      sems s t core gang (BitVec.ofNat 32 (min ((count s core gang).toNat + k.toNat) (2 ^ 32 - 1))) []) ∧
    PorterDoes (.cwait k n) (fun _ _ _ => k = 0) (fun s core _ t => PorterBecomes s t core (P s core).onward) ∧
    PorterDoes (.cwait k n) (fun s core gang => k ≠ 0 ∧ (P s core).wait ≠ .semaphore ∧ free s core gang) (fun s core gang t =>
      (k.setWidth 32 ≤ count s core gang → PorterBecomes (mine s t) t core (P s core).onward ∧
        sems s t core gang (count s core gang - k.setWidth 32) []) ∧
      (count s core gang < k.setWidth 32 → PorterBecomes (mine s t) t core { P s core with wait := .semaphore } ∧
        sems s t core gang (count s core gang) [⟨(s.gang gang).tickets, none, k.setWidth 32⟩])) ∧
    PorterDoes (.cwait k n) (fun s core _ => k ≠ 0 ∧ (P s core).wait = .semaphore) (fun s _ _ t => t = s) ∧
    (∀ s core gang, Streams (.cloop x i12) s core gang →
      let target : Pc := BitVec.ofInt 32 ((P s core).pc.toNat + 4 + 4 * i12.toInt)
      let v := Q s core x - 1
      ((P s core).lo ≤ target.toNat ∧ target.toNat < (P s core).hi →
        becomes (.cloop x i12) s core { set s core v with pc := if v = 0 then (P s core).pc + 4 else target }) ∧
      (target.toNat < (P s core).lo ∨ (P s core).hi ≤ target.toNat → PorterStops (.cloop x i12) s core gang 0x11 0)) ∧
    (∀ s core gang, Streams .cend s core gang → (P s core).copies = [] →
      ((P s core).resumed = [] → becomes .cend s core { P s core with gang := none, wait := .none, stopped := none }) ∧
      ∀ r rest, (P s core).resumed = r :: rest → becomes .cend s core { P s core with
        gang := some r.gang, cver := r.cver, lo := r.lo, hi := r.hi, pc := r.pc, q := r.q, wait := .none, stopped := none
        resumed := rest }) ∧
    PorterDoes (.cpub x) (fun s core _ => (P s core).copies = [] ∧ ∀ m, (P s core).wait ≠ .publication m) (fun s core gang t =>
      let seq : BitVec 32 := if (s.gang gang).pubSeq = 0xFFFFFFFF then 1 else (s.gang gang).pubSeq + 1
      (t.core core).porter = { P s core with wait := .publication seq } ∧
      (∃ p ∈ (t.gang gang).pubs, p.seq = seq ∧ p.base = Q s core x) ∧ { t with gangs := s.gangs } = withHierarchy s t) ∧
    (∀ s core gang m, Streams (.cpub x) s core gang → (P s core).copies = [] → (P s core).wait = .publication m →
      becomes (.cpub x) s core (if ∃ p ∈ (s.gang gang).pubs, p.seq = m ∧ p.st = .pending then P s core else (P s core).onward)) ∧
    PorterDoes (.cqsetAddi x y i10) (fun _ _ _ => True) (fun s core _ t =>
      PorterBecomes s t core (set s core (Q s core y + i10.signExtend 64))) ∧
    PorterDoes (.cqsetAdd x y z) (fun _ _ _ => True) (fun s core _ t => PorterBecomes s t core (set s core (Q s core y + Q s core z))) ∧
    let ea (s : State) (core : Nat) : Word := Q s core y + 8 * i10.signExtend 64
    PorterDoes (.cqsetLd x y i10) (fun s core gang => (ea s core).toNat % 8 = 0 ∧ 0xFFFFFFFFFF000000 ≤ (ea s core).toNat ∧
        scratchAt (ea s core) + 8 ≤ (s.gang gang).hdr.scratch ∧ pieceMapped (s.gang gang) (scratchAt (ea s core)) = true ∧
        (s.gang gang).scratchPoison.contains (scratchAt (ea s core) / 128) = false) (fun s core gang t =>
      PorterBecomes s t core (set s core (BitVec.ofNat 64 (readNat (s.gang gang).scratch (scratchAt (ea s core)) 8))))
end

