-- ==== Sys2Proof/Laws/State.lean ====
section
/-!
SUPPORT. What each update of the state leaves alone: one lemma for each field and update.
-/
namespace Sys2Proof.Machine

/-! State.setCrew -/

@[simp] theorem State.setCrew_mem (s : State) (k : Nat) (c : Crew) : (s.setCrew k c).mem = s.mem := rfl
@[simp] theorem State.setCrew_poison (s : State) (k : Nat) (c : Crew) : (s.setCrew k c).poison = s.poison := rfl
@[simp] theorem State.setCrew_gangs (s : State) (k : Nat) (c : Crew) : (s.setCrew k c).gangs = s.gangs := rfl
@[simp] theorem State.setCrew_cores (s : State) (k : Nat) (c : Crew) : (s.setCrew k c).cores = s.cores := rfl
@[simp] theorem State.setCrew_dies (s : State) (k : Nat) (c : Crew) : (s.setCrew k c).dies = s.dies := rfl
@[simp] theorem State.setCrew_homes (s : State) (k : Nat) (c : Crew) : (s.setCrew k c).homes = s.homes := rfl
@[simp] theorem State.setCrew_fabric (s : State) (k : Nat) (c : Crew) : (s.setCrew k c).fabric = s.fabric := rfl
@[simp] theorem State.setCrew_grids (s : State) (k : Nat) (c : Crew) : (s.setCrew k c).grids = s.grids := rfl
@[simp] theorem State.setCrew_queues (s : State) (k : Nat) (c : Crew) : (s.setCrew k c).queues = s.queues := rfl
@[simp] theorem State.setCrew_tables (s : State) (k : Nat) (c : Crew) : (s.setCrew k c).tables = s.tables := rfl
@[simp] theorem State.setCrew_asids (s : State) (k : Nat) (c : Crew) : (s.setCrew k c).asids = s.asids := rfl
@[simp] theorem State.setCrew_windows (s : State) (k : Nat) (c : Crew) : (s.setCrew k c).windows = s.windows := rfl
@[simp] theorem State.setCrew_groups (s : State) (k : Nat) (c : Crew) : (s.setCrew k c).groups = s.groups := rfl
@[simp] theorem State.setCrew_blocks (s : State) (k : Nat) (c : Crew) : (s.setCrew k c).blocks = s.blocks := rfl
@[simp] theorem State.setCrew_outbox (s : State) (k : Nat) (c : Crew) : (s.setCrew k c).outbox = s.outbox := rfl
@[simp] theorem State.setCrew_redHeld (s : State) (k : Nat) (c : Crew) : (s.setCrew k c).redHeld = s.redHeld := rfl
@[simp] theorem State.setCrew_redVia (s : State) (k : Nat) (c : Crew) : (s.setCrew k c).redVia = s.redVia := rfl
@[simp] theorem State.setCrew_redOff (s : State) (k : Nat) (c : Crew) : (s.setCrew k c).redOff = s.redOff := rfl
@[simp] theorem State.setCrew_umnor (s : State) (k : Nat) (c : Crew) : (s.setCrew k c).umnor = s.umnor := rfl
@[simp] theorem State.setCrew_cxl (s : State) (k : Nat) (c : Crew) : (s.setCrew k c).cxl = s.cxl := rfl
@[simp] theorem State.setCrew_ether (s : State) (k : Nat) (c : Crew) : (s.setCrew k c).ether = s.ether := rfl
@[simp] theorem State.setCrew_power (s : State) (k : Nat) (c : Crew) : (s.setCrew k c).power = s.power := rfl
@[simp] theorem State.setCrew_boot (s : State) (k : Nat) (c : Crew) : (s.setCrew k c).boot = s.boot := rfl
@[simp] theorem State.setCrew_incarnations (s : State) (k : Nat) (c : Crew) : (s.setCrew k c).incarnations = s.incarnations := rfl
@[simp] theorem State.setCrew_dropped (s : State) (k : Nat) (c : Crew) : (s.setCrew k c).dropped = s.dropped := rfl
@[simp] theorem State.setCrew_reports (s : State) (k : Nat) (c : Crew) : (s.setCrew k c).reports = s.reports := rfl
@[simp] theorem State.setCrew_log (s : State) (k : Nat) (c : Crew) : (s.setCrew k c).log = s.log := rfl
@[simp] theorem State.setCrew_logLost (s : State) (k : Nat) (c : Crew) : (s.setCrew k c).logLost = s.logLost := rfl
@[simp] theorem State.setCrew_logCap (s : State) (k : Nat) (c : Crew) : (s.setCrew k c).logCap = s.logCap := rfl
@[simp] theorem State.setCrew_discarded (s : State) (k : Nat) (c : Crew) : (s.setCrew k c).discarded = s.discarded := rfl
@[simp] theorem State.setCrew_ctxMaps (s : State) (k : Nat) (c : Crew) : (s.setCrew k c).ctxMaps = s.ctxMaps := rfl
@[simp] theorem State.setCrew_lent (s : State) (k : Nat) (c : Crew) : (s.setCrew k c).lent = s.lent := rfl
@[simp] theorem State.setCrew_ctxBase (s : State) (k : Nat) (c : Crew) : (s.setCrew k c).ctxBase = s.ctxBase := rfl
@[simp] theorem State.setCrew_nextGang (s : State) (k : Nat) (c : Crew) : (s.setCrew k c).nextGang = s.nextGang := rfl
@[simp] theorem State.setCrew_nextGrid (s : State) (k : Nat) (c : Crew) : (s.setCrew k c).nextGrid = s.nextGrid := rfl
@[simp] theorem State.setCrew_memLate (s : State) (k : Nat) (c : Crew) : (s.setCrew k c).memLate = s.memLate := rfl
@[simp] theorem State.setCrew_time (s : State) (k : Nat) (c : Crew) : (s.setCrew k c).time = s.time := rfl
@[simp] theorem State.setCrew_agenda (s : State) (k : Nat) (c : Crew) : (s.setCrew k c).agenda = s.agenda := rfl
@[simp] theorem State.setCrew_rotor (s : State) (k : Nat) (c : Crew) : (s.setCrew k c).rotor = s.rotor := rfl
@[simp] theorem State.setCrew_fresh (s : State) (k : Nat) (c : Crew) : (s.setCrew k c).fresh = s.fresh := rfl
@[simp] theorem State.setCrew_cur (s : State) (k : Nat) (c : Crew) : (s.setCrew k c).cur = s.cur := rfl

/-! State.modCrew -/

@[simp] theorem State.modCrew_mem (s : State) (k : Nat) (f : Crew → Crew) : (s.modCrew k f).mem = s.mem := rfl
@[simp] theorem State.modCrew_poison (s : State) (k : Nat) (f : Crew → Crew) : (s.modCrew k f).poison = s.poison := rfl
@[simp] theorem State.modCrew_gangs (s : State) (k : Nat) (f : Crew → Crew) : (s.modCrew k f).gangs = s.gangs := rfl
@[simp] theorem State.modCrew_cores (s : State) (k : Nat) (f : Crew → Crew) : (s.modCrew k f).cores = s.cores := rfl
@[simp] theorem State.modCrew_dies (s : State) (k : Nat) (f : Crew → Crew) : (s.modCrew k f).dies = s.dies := rfl
@[simp] theorem State.modCrew_homes (s : State) (k : Nat) (f : Crew → Crew) : (s.modCrew k f).homes = s.homes := rfl
@[simp] theorem State.modCrew_fabric (s : State) (k : Nat) (f : Crew → Crew) : (s.modCrew k f).fabric = s.fabric := rfl
@[simp] theorem State.modCrew_grids (s : State) (k : Nat) (f : Crew → Crew) : (s.modCrew k f).grids = s.grids := rfl
@[simp] theorem State.modCrew_queues (s : State) (k : Nat) (f : Crew → Crew) : (s.modCrew k f).queues = s.queues := rfl
@[simp] theorem State.modCrew_tables (s : State) (k : Nat) (f : Crew → Crew) : (s.modCrew k f).tables = s.tables := rfl
@[simp] theorem State.modCrew_asids (s : State) (k : Nat) (f : Crew → Crew) : (s.modCrew k f).asids = s.asids := rfl
@[simp] theorem State.modCrew_windows (s : State) (k : Nat) (f : Crew → Crew) : (s.modCrew k f).windows = s.windows := rfl
@[simp] theorem State.modCrew_groups (s : State) (k : Nat) (f : Crew → Crew) : (s.modCrew k f).groups = s.groups := rfl
@[simp] theorem State.modCrew_blocks (s : State) (k : Nat) (f : Crew → Crew) : (s.modCrew k f).blocks = s.blocks := rfl
@[simp] theorem State.modCrew_outbox (s : State) (k : Nat) (f : Crew → Crew) : (s.modCrew k f).outbox = s.outbox := rfl
@[simp] theorem State.modCrew_redHeld (s : State) (k : Nat) (f : Crew → Crew) : (s.modCrew k f).redHeld = s.redHeld := rfl
@[simp] theorem State.modCrew_redVia (s : State) (k : Nat) (f : Crew → Crew) : (s.modCrew k f).redVia = s.redVia := rfl
@[simp] theorem State.modCrew_redOff (s : State) (k : Nat) (f : Crew → Crew) : (s.modCrew k f).redOff = s.redOff := rfl
@[simp] theorem State.modCrew_umnor (s : State) (k : Nat) (f : Crew → Crew) : (s.modCrew k f).umnor = s.umnor := rfl
@[simp] theorem State.modCrew_cxl (s : State) (k : Nat) (f : Crew → Crew) : (s.modCrew k f).cxl = s.cxl := rfl
@[simp] theorem State.modCrew_ether (s : State) (k : Nat) (f : Crew → Crew) : (s.modCrew k f).ether = s.ether := rfl
@[simp] theorem State.modCrew_power (s : State) (k : Nat) (f : Crew → Crew) : (s.modCrew k f).power = s.power := rfl
@[simp] theorem State.modCrew_boot (s : State) (k : Nat) (f : Crew → Crew) : (s.modCrew k f).boot = s.boot := rfl
@[simp] theorem State.modCrew_incarnations (s : State) (k : Nat) (f : Crew → Crew) : (s.modCrew k f).incarnations = s.incarnations := rfl
@[simp] theorem State.modCrew_dropped (s : State) (k : Nat) (f : Crew → Crew) : (s.modCrew k f).dropped = s.dropped := rfl
@[simp] theorem State.modCrew_reports (s : State) (k : Nat) (f : Crew → Crew) : (s.modCrew k f).reports = s.reports := rfl
@[simp] theorem State.modCrew_log (s : State) (k : Nat) (f : Crew → Crew) : (s.modCrew k f).log = s.log := rfl
@[simp] theorem State.modCrew_logLost (s : State) (k : Nat) (f : Crew → Crew) : (s.modCrew k f).logLost = s.logLost := rfl
@[simp] theorem State.modCrew_logCap (s : State) (k : Nat) (f : Crew → Crew) : (s.modCrew k f).logCap = s.logCap := rfl
@[simp] theorem State.modCrew_discarded (s : State) (k : Nat) (f : Crew → Crew) : (s.modCrew k f).discarded = s.discarded := rfl
@[simp] theorem State.modCrew_ctxMaps (s : State) (k : Nat) (f : Crew → Crew) : (s.modCrew k f).ctxMaps = s.ctxMaps := rfl
@[simp] theorem State.modCrew_lent (s : State) (k : Nat) (f : Crew → Crew) : (s.modCrew k f).lent = s.lent := rfl
@[simp] theorem State.modCrew_ctxBase (s : State) (k : Nat) (f : Crew → Crew) : (s.modCrew k f).ctxBase = s.ctxBase := rfl
@[simp] theorem State.modCrew_nextGang (s : State) (k : Nat) (f : Crew → Crew) : (s.modCrew k f).nextGang = s.nextGang := rfl
@[simp] theorem State.modCrew_nextGrid (s : State) (k : Nat) (f : Crew → Crew) : (s.modCrew k f).nextGrid = s.nextGrid := rfl
@[simp] theorem State.modCrew_memLate (s : State) (k : Nat) (f : Crew → Crew) : (s.modCrew k f).memLate = s.memLate := rfl
@[simp] theorem State.modCrew_time (s : State) (k : Nat) (f : Crew → Crew) : (s.modCrew k f).time = s.time := rfl
@[simp] theorem State.modCrew_agenda (s : State) (k : Nat) (f : Crew → Crew) : (s.modCrew k f).agenda = s.agenda := rfl
@[simp] theorem State.modCrew_rotor (s : State) (k : Nat) (f : Crew → Crew) : (s.modCrew k f).rotor = s.rotor := rfl
@[simp] theorem State.modCrew_fresh (s : State) (k : Nat) (f : Crew → Crew) : (s.modCrew k f).fresh = s.fresh := rfl
@[simp] theorem State.modCrew_cur (s : State) (k : Nat) (f : Crew → Crew) : (s.modCrew k f).cur = s.cur := rfl

/-! State.modGang -/

@[simp] theorem State.modGang_mem (s : State) (k : Nat) (f : Gang → Gang) : (s.modGang k f).mem = s.mem := rfl
@[simp] theorem State.modGang_poison (s : State) (k : Nat) (f : Gang → Gang) : (s.modGang k f).poison = s.poison := rfl
@[simp] theorem State.modGang_crews (s : State) (k : Nat) (f : Gang → Gang) : (s.modGang k f).crews = s.crews := rfl
@[simp] theorem State.modGang_cores (s : State) (k : Nat) (f : Gang → Gang) : (s.modGang k f).cores = s.cores := rfl
@[simp] theorem State.modGang_dies (s : State) (k : Nat) (f : Gang → Gang) : (s.modGang k f).dies = s.dies := rfl
@[simp] theorem State.modGang_homes (s : State) (k : Nat) (f : Gang → Gang) : (s.modGang k f).homes = s.homes := rfl
@[simp] theorem State.modGang_fabric (s : State) (k : Nat) (f : Gang → Gang) : (s.modGang k f).fabric = s.fabric := rfl
@[simp] theorem State.modGang_grids (s : State) (k : Nat) (f : Gang → Gang) : (s.modGang k f).grids = s.grids := rfl
@[simp] theorem State.modGang_queues (s : State) (k : Nat) (f : Gang → Gang) : (s.modGang k f).queues = s.queues := rfl
@[simp] theorem State.modGang_tables (s : State) (k : Nat) (f : Gang → Gang) : (s.modGang k f).tables = s.tables := rfl
@[simp] theorem State.modGang_asids (s : State) (k : Nat) (f : Gang → Gang) : (s.modGang k f).asids = s.asids := rfl
@[simp] theorem State.modGang_windows (s : State) (k : Nat) (f : Gang → Gang) : (s.modGang k f).windows = s.windows := rfl
@[simp] theorem State.modGang_groups (s : State) (k : Nat) (f : Gang → Gang) : (s.modGang k f).groups = s.groups := rfl
@[simp] theorem State.modGang_blocks (s : State) (k : Nat) (f : Gang → Gang) : (s.modGang k f).blocks = s.blocks := rfl
@[simp] theorem State.modGang_outbox (s : State) (k : Nat) (f : Gang → Gang) : (s.modGang k f).outbox = s.outbox := rfl
@[simp] theorem State.modGang_redHeld (s : State) (k : Nat) (f : Gang → Gang) : (s.modGang k f).redHeld = s.redHeld := rfl
@[simp] theorem State.modGang_redVia (s : State) (k : Nat) (f : Gang → Gang) : (s.modGang k f).redVia = s.redVia := rfl
@[simp] theorem State.modGang_redOff (s : State) (k : Nat) (f : Gang → Gang) : (s.modGang k f).redOff = s.redOff := rfl
@[simp] theorem State.modGang_umnor (s : State) (k : Nat) (f : Gang → Gang) : (s.modGang k f).umnor = s.umnor := rfl
@[simp] theorem State.modGang_cxl (s : State) (k : Nat) (f : Gang → Gang) : (s.modGang k f).cxl = s.cxl := rfl
@[simp] theorem State.modGang_ether (s : State) (k : Nat) (f : Gang → Gang) : (s.modGang k f).ether = s.ether := rfl
@[simp] theorem State.modGang_power (s : State) (k : Nat) (f : Gang → Gang) : (s.modGang k f).power = s.power := rfl
@[simp] theorem State.modGang_boot (s : State) (k : Nat) (f : Gang → Gang) : (s.modGang k f).boot = s.boot := rfl
@[simp] theorem State.modGang_incarnations (s : State) (k : Nat) (f : Gang → Gang) : (s.modGang k f).incarnations = s.incarnations := rfl
@[simp] theorem State.modGang_dropped (s : State) (k : Nat) (f : Gang → Gang) : (s.modGang k f).dropped = s.dropped := rfl
@[simp] theorem State.modGang_reports (s : State) (k : Nat) (f : Gang → Gang) : (s.modGang k f).reports = s.reports := rfl
@[simp] theorem State.modGang_log (s : State) (k : Nat) (f : Gang → Gang) : (s.modGang k f).log = s.log := rfl
@[simp] theorem State.modGang_logLost (s : State) (k : Nat) (f : Gang → Gang) : (s.modGang k f).logLost = s.logLost := rfl
@[simp] theorem State.modGang_logCap (s : State) (k : Nat) (f : Gang → Gang) : (s.modGang k f).logCap = s.logCap := rfl
@[simp] theorem State.modGang_discarded (s : State) (k : Nat) (f : Gang → Gang) : (s.modGang k f).discarded = s.discarded := rfl
@[simp] theorem State.modGang_ctxMaps (s : State) (k : Nat) (f : Gang → Gang) : (s.modGang k f).ctxMaps = s.ctxMaps := rfl
@[simp] theorem State.modGang_lent (s : State) (k : Nat) (f : Gang → Gang) : (s.modGang k f).lent = s.lent := rfl
@[simp] theorem State.modGang_ctxBase (s : State) (k : Nat) (f : Gang → Gang) : (s.modGang k f).ctxBase = s.ctxBase := rfl
@[simp] theorem State.modGang_nextGang (s : State) (k : Nat) (f : Gang → Gang) : (s.modGang k f).nextGang = s.nextGang := rfl
@[simp] theorem State.modGang_nextGrid (s : State) (k : Nat) (f : Gang → Gang) : (s.modGang k f).nextGrid = s.nextGrid := rfl
@[simp] theorem State.modGang_memLate (s : State) (k : Nat) (f : Gang → Gang) : (s.modGang k f).memLate = s.memLate := rfl
@[simp] theorem State.modGang_time (s : State) (k : Nat) (f : Gang → Gang) : (s.modGang k f).time = s.time := rfl
@[simp] theorem State.modGang_agenda (s : State) (k : Nat) (f : Gang → Gang) : (s.modGang k f).agenda = s.agenda := rfl
@[simp] theorem State.modGang_rotor (s : State) (k : Nat) (f : Gang → Gang) : (s.modGang k f).rotor = s.rotor := rfl
@[simp] theorem State.modGang_fresh (s : State) (k : Nat) (f : Gang → Gang) : (s.modGang k f).fresh = s.fresh := rfl
@[simp] theorem State.modGang_cur (s : State) (k : Nat) (f : Gang → Gang) : (s.modGang k f).cur = s.cur := rfl

/-! State.setCore -/

@[simp] theorem State.setCore_mem (s : State) (k : Nat) (x : Core) : (s.setCore k x).mem = s.mem := rfl
@[simp] theorem State.setCore_poison (s : State) (k : Nat) (x : Core) : (s.setCore k x).poison = s.poison := rfl
@[simp] theorem State.setCore_crews (s : State) (k : Nat) (x : Core) : (s.setCore k x).crews = s.crews := rfl
@[simp] theorem State.setCore_gangs (s : State) (k : Nat) (x : Core) : (s.setCore k x).gangs = s.gangs := rfl
@[simp] theorem State.setCore_dies (s : State) (k : Nat) (x : Core) : (s.setCore k x).dies = s.dies := rfl
@[simp] theorem State.setCore_homes (s : State) (k : Nat) (x : Core) : (s.setCore k x).homes = s.homes := rfl
@[simp] theorem State.setCore_fabric (s : State) (k : Nat) (x : Core) : (s.setCore k x).fabric = s.fabric := rfl
@[simp] theorem State.setCore_grids (s : State) (k : Nat) (x : Core) : (s.setCore k x).grids = s.grids := rfl
@[simp] theorem State.setCore_queues (s : State) (k : Nat) (x : Core) : (s.setCore k x).queues = s.queues := rfl
@[simp] theorem State.setCore_tables (s : State) (k : Nat) (x : Core) : (s.setCore k x).tables = s.tables := rfl
@[simp] theorem State.setCore_asids (s : State) (k : Nat) (x : Core) : (s.setCore k x).asids = s.asids := rfl
@[simp] theorem State.setCore_windows (s : State) (k : Nat) (x : Core) : (s.setCore k x).windows = s.windows := rfl
@[simp] theorem State.setCore_groups (s : State) (k : Nat) (x : Core) : (s.setCore k x).groups = s.groups := rfl
@[simp] theorem State.setCore_blocks (s : State) (k : Nat) (x : Core) : (s.setCore k x).blocks = s.blocks := rfl
@[simp] theorem State.setCore_outbox (s : State) (k : Nat) (x : Core) : (s.setCore k x).outbox = s.outbox := rfl
@[simp] theorem State.setCore_redHeld (s : State) (k : Nat) (x : Core) : (s.setCore k x).redHeld = s.redHeld := rfl
@[simp] theorem State.setCore_redVia (s : State) (k : Nat) (x : Core) : (s.setCore k x).redVia = s.redVia := rfl
@[simp] theorem State.setCore_redOff (s : State) (k : Nat) (x : Core) : (s.setCore k x).redOff = s.redOff := rfl
@[simp] theorem State.setCore_umnor (s : State) (k : Nat) (x : Core) : (s.setCore k x).umnor = s.umnor := rfl
@[simp] theorem State.setCore_cxl (s : State) (k : Nat) (x : Core) : (s.setCore k x).cxl = s.cxl := rfl
@[simp] theorem State.setCore_ether (s : State) (k : Nat) (x : Core) : (s.setCore k x).ether = s.ether := rfl
@[simp] theorem State.setCore_power (s : State) (k : Nat) (x : Core) : (s.setCore k x).power = s.power := rfl
@[simp] theorem State.setCore_boot (s : State) (k : Nat) (x : Core) : (s.setCore k x).boot = s.boot := rfl
@[simp] theorem State.setCore_incarnations (s : State) (k : Nat) (x : Core) : (s.setCore k x).incarnations = s.incarnations := rfl
@[simp] theorem State.setCore_dropped (s : State) (k : Nat) (x : Core) : (s.setCore k x).dropped = s.dropped := rfl
@[simp] theorem State.setCore_reports (s : State) (k : Nat) (x : Core) : (s.setCore k x).reports = s.reports := rfl
@[simp] theorem State.setCore_log (s : State) (k : Nat) (x : Core) : (s.setCore k x).log = s.log := rfl
@[simp] theorem State.setCore_logLost (s : State) (k : Nat) (x : Core) : (s.setCore k x).logLost = s.logLost := rfl
@[simp] theorem State.setCore_logCap (s : State) (k : Nat) (x : Core) : (s.setCore k x).logCap = s.logCap := rfl
@[simp] theorem State.setCore_discarded (s : State) (k : Nat) (x : Core) : (s.setCore k x).discarded = s.discarded := rfl
@[simp] theorem State.setCore_ctxMaps (s : State) (k : Nat) (x : Core) : (s.setCore k x).ctxMaps = s.ctxMaps := rfl
@[simp] theorem State.setCore_lent (s : State) (k : Nat) (x : Core) : (s.setCore k x).lent = s.lent := rfl
@[simp] theorem State.setCore_ctxBase (s : State) (k : Nat) (x : Core) : (s.setCore k x).ctxBase = s.ctxBase := rfl
@[simp] theorem State.setCore_nextGang (s : State) (k : Nat) (x : Core) : (s.setCore k x).nextGang = s.nextGang := rfl
@[simp] theorem State.setCore_nextGrid (s : State) (k : Nat) (x : Core) : (s.setCore k x).nextGrid = s.nextGrid := rfl
@[simp] theorem State.setCore_memLate (s : State) (k : Nat) (x : Core) : (s.setCore k x).memLate = s.memLate := rfl
@[simp] theorem State.setCore_time (s : State) (k : Nat) (x : Core) : (s.setCore k x).time = s.time := rfl
@[simp] theorem State.setCore_agenda (s : State) (k : Nat) (x : Core) : (s.setCore k x).agenda = s.agenda := rfl
@[simp] theorem State.setCore_rotor (s : State) (k : Nat) (x : Core) : (s.setCore k x).rotor = s.rotor := rfl
@[simp] theorem State.setCore_fresh (s : State) (k : Nat) (x : Core) : (s.setCore k x).fresh = s.fresh := rfl
@[simp] theorem State.setCore_cur (s : State) (k : Nat) (x : Core) : (s.setCore k x).cur = s.cur := rfl

/-! State.modCore -/

@[simp] theorem State.modCore_mem (s : State) (k : Nat) (f : Core → Core) : (s.modCore k f).mem = s.mem := rfl
@[simp] theorem State.modCore_poison (s : State) (k : Nat) (f : Core → Core) : (s.modCore k f).poison = s.poison := rfl
@[simp] theorem State.modCore_crews (s : State) (k : Nat) (f : Core → Core) : (s.modCore k f).crews = s.crews := rfl
@[simp] theorem State.modCore_gangs (s : State) (k : Nat) (f : Core → Core) : (s.modCore k f).gangs = s.gangs := rfl
@[simp] theorem State.modCore_dies (s : State) (k : Nat) (f : Core → Core) : (s.modCore k f).dies = s.dies := rfl
@[simp] theorem State.modCore_homes (s : State) (k : Nat) (f : Core → Core) : (s.modCore k f).homes = s.homes := rfl
@[simp] theorem State.modCore_fabric (s : State) (k : Nat) (f : Core → Core) : (s.modCore k f).fabric = s.fabric := rfl
@[simp] theorem State.modCore_grids (s : State) (k : Nat) (f : Core → Core) : (s.modCore k f).grids = s.grids := rfl
@[simp] theorem State.modCore_queues (s : State) (k : Nat) (f : Core → Core) : (s.modCore k f).queues = s.queues := rfl
@[simp] theorem State.modCore_tables (s : State) (k : Nat) (f : Core → Core) : (s.modCore k f).tables = s.tables := rfl
@[simp] theorem State.modCore_asids (s : State) (k : Nat) (f : Core → Core) : (s.modCore k f).asids = s.asids := rfl
@[simp] theorem State.modCore_windows (s : State) (k : Nat) (f : Core → Core) : (s.modCore k f).windows = s.windows := rfl
@[simp] theorem State.modCore_groups (s : State) (k : Nat) (f : Core → Core) : (s.modCore k f).groups = s.groups := rfl
@[simp] theorem State.modCore_blocks (s : State) (k : Nat) (f : Core → Core) : (s.modCore k f).blocks = s.blocks := rfl
@[simp] theorem State.modCore_outbox (s : State) (k : Nat) (f : Core → Core) : (s.modCore k f).outbox = s.outbox := rfl
@[simp] theorem State.modCore_redHeld (s : State) (k : Nat) (f : Core → Core) : (s.modCore k f).redHeld = s.redHeld := rfl
@[simp] theorem State.modCore_redVia (s : State) (k : Nat) (f : Core → Core) : (s.modCore k f).redVia = s.redVia := rfl
@[simp] theorem State.modCore_redOff (s : State) (k : Nat) (f : Core → Core) : (s.modCore k f).redOff = s.redOff := rfl
@[simp] theorem State.modCore_umnor (s : State) (k : Nat) (f : Core → Core) : (s.modCore k f).umnor = s.umnor := rfl
@[simp] theorem State.modCore_cxl (s : State) (k : Nat) (f : Core → Core) : (s.modCore k f).cxl = s.cxl := rfl
@[simp] theorem State.modCore_ether (s : State) (k : Nat) (f : Core → Core) : (s.modCore k f).ether = s.ether := rfl
@[simp] theorem State.modCore_power (s : State) (k : Nat) (f : Core → Core) : (s.modCore k f).power = s.power := rfl
@[simp] theorem State.modCore_boot (s : State) (k : Nat) (f : Core → Core) : (s.modCore k f).boot = s.boot := rfl
@[simp] theorem State.modCore_incarnations (s : State) (k : Nat) (f : Core → Core) : (s.modCore k f).incarnations = s.incarnations := rfl
@[simp] theorem State.modCore_dropped (s : State) (k : Nat) (f : Core → Core) : (s.modCore k f).dropped = s.dropped := rfl
@[simp] theorem State.modCore_reports (s : State) (k : Nat) (f : Core → Core) : (s.modCore k f).reports = s.reports := rfl
@[simp] theorem State.modCore_log (s : State) (k : Nat) (f : Core → Core) : (s.modCore k f).log = s.log := rfl
@[simp] theorem State.modCore_logLost (s : State) (k : Nat) (f : Core → Core) : (s.modCore k f).logLost = s.logLost := rfl
@[simp] theorem State.modCore_logCap (s : State) (k : Nat) (f : Core → Core) : (s.modCore k f).logCap = s.logCap := rfl
@[simp] theorem State.modCore_discarded (s : State) (k : Nat) (f : Core → Core) : (s.modCore k f).discarded = s.discarded := rfl
@[simp] theorem State.modCore_ctxMaps (s : State) (k : Nat) (f : Core → Core) : (s.modCore k f).ctxMaps = s.ctxMaps := rfl
@[simp] theorem State.modCore_lent (s : State) (k : Nat) (f : Core → Core) : (s.modCore k f).lent = s.lent := rfl
@[simp] theorem State.modCore_ctxBase (s : State) (k : Nat) (f : Core → Core) : (s.modCore k f).ctxBase = s.ctxBase := rfl
@[simp] theorem State.modCore_nextGang (s : State) (k : Nat) (f : Core → Core) : (s.modCore k f).nextGang = s.nextGang := rfl
@[simp] theorem State.modCore_nextGrid (s : State) (k : Nat) (f : Core → Core) : (s.modCore k f).nextGrid = s.nextGrid := rfl
@[simp] theorem State.modCore_memLate (s : State) (k : Nat) (f : Core → Core) : (s.modCore k f).memLate = s.memLate := rfl
@[simp] theorem State.modCore_time (s : State) (k : Nat) (f : Core → Core) : (s.modCore k f).time = s.time := rfl
@[simp] theorem State.modCore_agenda (s : State) (k : Nat) (f : Core → Core) : (s.modCore k f).agenda = s.agenda := rfl
@[simp] theorem State.modCore_rotor (s : State) (k : Nat) (f : Core → Core) : (s.modCore k f).rotor = s.rotor := rfl
@[simp] theorem State.modCore_fresh (s : State) (k : Nat) (f : Core → Core) : (s.modCore k f).fresh = s.fresh := rfl
@[simp] theorem State.modCore_cur (s : State) (k : Nat) (f : Core → Core) : (s.modCore k f).cur = s.cur := rfl

/-! State.modDie -/

@[simp] theorem State.modDie_mem (s : State) (k : Nat) (f : Die → Die) : (s.modDie k f).mem = s.mem := rfl
@[simp] theorem State.modDie_poison (s : State) (k : Nat) (f : Die → Die) : (s.modDie k f).poison = s.poison := rfl
@[simp] theorem State.modDie_crews (s : State) (k : Nat) (f : Die → Die) : (s.modDie k f).crews = s.crews := rfl
@[simp] theorem State.modDie_gangs (s : State) (k : Nat) (f : Die → Die) : (s.modDie k f).gangs = s.gangs := rfl
@[simp] theorem State.modDie_cores (s : State) (k : Nat) (f : Die → Die) : (s.modDie k f).cores = s.cores := rfl
@[simp] theorem State.modDie_homes (s : State) (k : Nat) (f : Die → Die) : (s.modDie k f).homes = s.homes := rfl
@[simp] theorem State.modDie_fabric (s : State) (k : Nat) (f : Die → Die) : (s.modDie k f).fabric = s.fabric := rfl
@[simp] theorem State.modDie_grids (s : State) (k : Nat) (f : Die → Die) : (s.modDie k f).grids = s.grids := rfl
@[simp] theorem State.modDie_queues (s : State) (k : Nat) (f : Die → Die) : (s.modDie k f).queues = s.queues := rfl
@[simp] theorem State.modDie_tables (s : State) (k : Nat) (f : Die → Die) : (s.modDie k f).tables = s.tables := rfl
@[simp] theorem State.modDie_asids (s : State) (k : Nat) (f : Die → Die) : (s.modDie k f).asids = s.asids := rfl
@[simp] theorem State.modDie_windows (s : State) (k : Nat) (f : Die → Die) : (s.modDie k f).windows = s.windows := rfl
@[simp] theorem State.modDie_groups (s : State) (k : Nat) (f : Die → Die) : (s.modDie k f).groups = s.groups := rfl
@[simp] theorem State.modDie_blocks (s : State) (k : Nat) (f : Die → Die) : (s.modDie k f).blocks = s.blocks := rfl
@[simp] theorem State.modDie_outbox (s : State) (k : Nat) (f : Die → Die) : (s.modDie k f).outbox = s.outbox := rfl
@[simp] theorem State.modDie_redHeld (s : State) (k : Nat) (f : Die → Die) : (s.modDie k f).redHeld = s.redHeld := rfl
@[simp] theorem State.modDie_redVia (s : State) (k : Nat) (f : Die → Die) : (s.modDie k f).redVia = s.redVia := rfl
@[simp] theorem State.modDie_redOff (s : State) (k : Nat) (f : Die → Die) : (s.modDie k f).redOff = s.redOff := rfl
@[simp] theorem State.modDie_umnor (s : State) (k : Nat) (f : Die → Die) : (s.modDie k f).umnor = s.umnor := rfl
@[simp] theorem State.modDie_cxl (s : State) (k : Nat) (f : Die → Die) : (s.modDie k f).cxl = s.cxl := rfl
@[simp] theorem State.modDie_ether (s : State) (k : Nat) (f : Die → Die) : (s.modDie k f).ether = s.ether := rfl
@[simp] theorem State.modDie_power (s : State) (k : Nat) (f : Die → Die) : (s.modDie k f).power = s.power := rfl
@[simp] theorem State.modDie_boot (s : State) (k : Nat) (f : Die → Die) : (s.modDie k f).boot = s.boot := rfl
@[simp] theorem State.modDie_incarnations (s : State) (k : Nat) (f : Die → Die) : (s.modDie k f).incarnations = s.incarnations := rfl
@[simp] theorem State.modDie_dropped (s : State) (k : Nat) (f : Die → Die) : (s.modDie k f).dropped = s.dropped := rfl
@[simp] theorem State.modDie_reports (s : State) (k : Nat) (f : Die → Die) : (s.modDie k f).reports = s.reports := rfl
@[simp] theorem State.modDie_log (s : State) (k : Nat) (f : Die → Die) : (s.modDie k f).log = s.log := rfl
@[simp] theorem State.modDie_logLost (s : State) (k : Nat) (f : Die → Die) : (s.modDie k f).logLost = s.logLost := rfl
@[simp] theorem State.modDie_logCap (s : State) (k : Nat) (f : Die → Die) : (s.modDie k f).logCap = s.logCap := rfl
@[simp] theorem State.modDie_discarded (s : State) (k : Nat) (f : Die → Die) : (s.modDie k f).discarded = s.discarded := rfl
@[simp] theorem State.modDie_ctxMaps (s : State) (k : Nat) (f : Die → Die) : (s.modDie k f).ctxMaps = s.ctxMaps := rfl
@[simp] theorem State.modDie_lent (s : State) (k : Nat) (f : Die → Die) : (s.modDie k f).lent = s.lent := rfl
@[simp] theorem State.modDie_ctxBase (s : State) (k : Nat) (f : Die → Die) : (s.modDie k f).ctxBase = s.ctxBase := rfl
@[simp] theorem State.modDie_nextGang (s : State) (k : Nat) (f : Die → Die) : (s.modDie k f).nextGang = s.nextGang := rfl
@[simp] theorem State.modDie_nextGrid (s : State) (k : Nat) (f : Die → Die) : (s.modDie k f).nextGrid = s.nextGrid := rfl
@[simp] theorem State.modDie_memLate (s : State) (k : Nat) (f : Die → Die) : (s.modDie k f).memLate = s.memLate := rfl
@[simp] theorem State.modDie_time (s : State) (k : Nat) (f : Die → Die) : (s.modDie k f).time = s.time := rfl
@[simp] theorem State.modDie_agenda (s : State) (k : Nat) (f : Die → Die) : (s.modDie k f).agenda = s.agenda := rfl
@[simp] theorem State.modDie_rotor (s : State) (k : Nat) (f : Die → Die) : (s.modDie k f).rotor = s.rotor := rfl
@[simp] theorem State.modDie_fresh (s : State) (k : Nat) (f : Die → Die) : (s.modDie k f).fresh = s.fresh := rfl
@[simp] theorem State.modDie_cur (s : State) (k : Nat) (f : Die → Die) : (s.modDie k f).cur = s.cur := rfl

/-! State.modHome -/

@[simp] theorem State.modHome_mem (s : State) (k : Nat) (f : Home → Home) : (s.modHome k f).mem = s.mem := rfl
@[simp] theorem State.modHome_poison (s : State) (k : Nat) (f : Home → Home) : (s.modHome k f).poison = s.poison := rfl
@[simp] theorem State.modHome_crews (s : State) (k : Nat) (f : Home → Home) : (s.modHome k f).crews = s.crews := rfl
@[simp] theorem State.modHome_gangs (s : State) (k : Nat) (f : Home → Home) : (s.modHome k f).gangs = s.gangs := rfl
@[simp] theorem State.modHome_cores (s : State) (k : Nat) (f : Home → Home) : (s.modHome k f).cores = s.cores := rfl
@[simp] theorem State.modHome_dies (s : State) (k : Nat) (f : Home → Home) : (s.modHome k f).dies = s.dies := rfl
@[simp] theorem State.modHome_fabric (s : State) (k : Nat) (f : Home → Home) : (s.modHome k f).fabric = s.fabric := rfl
@[simp] theorem State.modHome_grids (s : State) (k : Nat) (f : Home → Home) : (s.modHome k f).grids = s.grids := rfl
@[simp] theorem State.modHome_queues (s : State) (k : Nat) (f : Home → Home) : (s.modHome k f).queues = s.queues := rfl
@[simp] theorem State.modHome_tables (s : State) (k : Nat) (f : Home → Home) : (s.modHome k f).tables = s.tables := rfl
@[simp] theorem State.modHome_asids (s : State) (k : Nat) (f : Home → Home) : (s.modHome k f).asids = s.asids := rfl
@[simp] theorem State.modHome_windows (s : State) (k : Nat) (f : Home → Home) : (s.modHome k f).windows = s.windows := rfl
@[simp] theorem State.modHome_groups (s : State) (k : Nat) (f : Home → Home) : (s.modHome k f).groups = s.groups := rfl
@[simp] theorem State.modHome_blocks (s : State) (k : Nat) (f : Home → Home) : (s.modHome k f).blocks = s.blocks := rfl
@[simp] theorem State.modHome_outbox (s : State) (k : Nat) (f : Home → Home) : (s.modHome k f).outbox = s.outbox := rfl
@[simp] theorem State.modHome_redHeld (s : State) (k : Nat) (f : Home → Home) : (s.modHome k f).redHeld = s.redHeld := rfl
@[simp] theorem State.modHome_redVia (s : State) (k : Nat) (f : Home → Home) : (s.modHome k f).redVia = s.redVia := rfl
@[simp] theorem State.modHome_redOff (s : State) (k : Nat) (f : Home → Home) : (s.modHome k f).redOff = s.redOff := rfl
@[simp] theorem State.modHome_umnor (s : State) (k : Nat) (f : Home → Home) : (s.modHome k f).umnor = s.umnor := rfl
@[simp] theorem State.modHome_cxl (s : State) (k : Nat) (f : Home → Home) : (s.modHome k f).cxl = s.cxl := rfl
@[simp] theorem State.modHome_ether (s : State) (k : Nat) (f : Home → Home) : (s.modHome k f).ether = s.ether := rfl
@[simp] theorem State.modHome_power (s : State) (k : Nat) (f : Home → Home) : (s.modHome k f).power = s.power := rfl
@[simp] theorem State.modHome_boot (s : State) (k : Nat) (f : Home → Home) : (s.modHome k f).boot = s.boot := rfl
@[simp] theorem State.modHome_incarnations (s : State) (k : Nat) (f : Home → Home) : (s.modHome k f).incarnations = s.incarnations := rfl
@[simp] theorem State.modHome_dropped (s : State) (k : Nat) (f : Home → Home) : (s.modHome k f).dropped = s.dropped := rfl
@[simp] theorem State.modHome_reports (s : State) (k : Nat) (f : Home → Home) : (s.modHome k f).reports = s.reports := rfl
@[simp] theorem State.modHome_log (s : State) (k : Nat) (f : Home → Home) : (s.modHome k f).log = s.log := rfl
@[simp] theorem State.modHome_logLost (s : State) (k : Nat) (f : Home → Home) : (s.modHome k f).logLost = s.logLost := rfl
@[simp] theorem State.modHome_logCap (s : State) (k : Nat) (f : Home → Home) : (s.modHome k f).logCap = s.logCap := rfl
@[simp] theorem State.modHome_discarded (s : State) (k : Nat) (f : Home → Home) : (s.modHome k f).discarded = s.discarded := rfl
@[simp] theorem State.modHome_ctxMaps (s : State) (k : Nat) (f : Home → Home) : (s.modHome k f).ctxMaps = s.ctxMaps := rfl
@[simp] theorem State.modHome_lent (s : State) (k : Nat) (f : Home → Home) : (s.modHome k f).lent = s.lent := rfl
@[simp] theorem State.modHome_ctxBase (s : State) (k : Nat) (f : Home → Home) : (s.modHome k f).ctxBase = s.ctxBase := rfl
@[simp] theorem State.modHome_nextGang (s : State) (k : Nat) (f : Home → Home) : (s.modHome k f).nextGang = s.nextGang := rfl
@[simp] theorem State.modHome_nextGrid (s : State) (k : Nat) (f : Home → Home) : (s.modHome k f).nextGrid = s.nextGrid := rfl
@[simp] theorem State.modHome_memLate (s : State) (k : Nat) (f : Home → Home) : (s.modHome k f).memLate = s.memLate := rfl
@[simp] theorem State.modHome_time (s : State) (k : Nat) (f : Home → Home) : (s.modHome k f).time = s.time := rfl
@[simp] theorem State.modHome_agenda (s : State) (k : Nat) (f : Home → Home) : (s.modHome k f).agenda = s.agenda := rfl
@[simp] theorem State.modHome_rotor (s : State) (k : Nat) (f : Home → Home) : (s.modHome k f).rotor = s.rotor := rfl
@[simp] theorem State.modHome_fresh (s : State) (k : Nat) (f : Home → Home) : (s.modHome k f).fresh = s.fresh := rfl
@[simp] theorem State.modHome_cur (s : State) (k : Nat) (f : Home → Home) : (s.modHome k f).cur = s.cur := rfl

/-! State.poisonLine -/

@[simp] theorem State.poisonLine_mem (s : State) (k : Nat) : (s.poisonLine k).mem = s.mem := rfl
@[simp] theorem State.poisonLine_crews (s : State) (k : Nat) : (s.poisonLine k).crews = s.crews := rfl
@[simp] theorem State.poisonLine_gangs (s : State) (k : Nat) : (s.poisonLine k).gangs = s.gangs := rfl
@[simp] theorem State.poisonLine_cores (s : State) (k : Nat) : (s.poisonLine k).cores = s.cores := rfl
@[simp] theorem State.poisonLine_dies (s : State) (k : Nat) : (s.poisonLine k).dies = s.dies := rfl
@[simp] theorem State.poisonLine_homes (s : State) (k : Nat) : (s.poisonLine k).homes = s.homes := rfl
@[simp] theorem State.poisonLine_fabric (s : State) (k : Nat) : (s.poisonLine k).fabric = s.fabric := rfl
@[simp] theorem State.poisonLine_grids (s : State) (k : Nat) : (s.poisonLine k).grids = s.grids := rfl
@[simp] theorem State.poisonLine_queues (s : State) (k : Nat) : (s.poisonLine k).queues = s.queues := rfl
@[simp] theorem State.poisonLine_tables (s : State) (k : Nat) : (s.poisonLine k).tables = s.tables := rfl
@[simp] theorem State.poisonLine_asids (s : State) (k : Nat) : (s.poisonLine k).asids = s.asids := rfl
@[simp] theorem State.poisonLine_windows (s : State) (k : Nat) : (s.poisonLine k).windows = s.windows := rfl
@[simp] theorem State.poisonLine_groups (s : State) (k : Nat) : (s.poisonLine k).groups = s.groups := rfl
@[simp] theorem State.poisonLine_blocks (s : State) (k : Nat) : (s.poisonLine k).blocks = s.blocks := rfl
@[simp] theorem State.poisonLine_outbox (s : State) (k : Nat) : (s.poisonLine k).outbox = s.outbox := rfl
@[simp] theorem State.poisonLine_redHeld (s : State) (k : Nat) : (s.poisonLine k).redHeld = s.redHeld := rfl
@[simp] theorem State.poisonLine_redVia (s : State) (k : Nat) : (s.poisonLine k).redVia = s.redVia := rfl
@[simp] theorem State.poisonLine_redOff (s : State) (k : Nat) : (s.poisonLine k).redOff = s.redOff := rfl
@[simp] theorem State.poisonLine_umnor (s : State) (k : Nat) : (s.poisonLine k).umnor = s.umnor := rfl
@[simp] theorem State.poisonLine_cxl (s : State) (k : Nat) : (s.poisonLine k).cxl = s.cxl := rfl
@[simp] theorem State.poisonLine_ether (s : State) (k : Nat) : (s.poisonLine k).ether = s.ether := rfl
@[simp] theorem State.poisonLine_power (s : State) (k : Nat) : (s.poisonLine k).power = s.power := rfl
@[simp] theorem State.poisonLine_boot (s : State) (k : Nat) : (s.poisonLine k).boot = s.boot := rfl
@[simp] theorem State.poisonLine_incarnations (s : State) (k : Nat) : (s.poisonLine k).incarnations = s.incarnations := rfl
@[simp] theorem State.poisonLine_dropped (s : State) (k : Nat) : (s.poisonLine k).dropped = s.dropped := rfl
@[simp] theorem State.poisonLine_reports (s : State) (k : Nat) : (s.poisonLine k).reports = s.reports := rfl
@[simp] theorem State.poisonLine_log (s : State) (k : Nat) : (s.poisonLine k).log = s.log := rfl
@[simp] theorem State.poisonLine_logLost (s : State) (k : Nat) : (s.poisonLine k).logLost = s.logLost := rfl
@[simp] theorem State.poisonLine_logCap (s : State) (k : Nat) : (s.poisonLine k).logCap = s.logCap := rfl
@[simp] theorem State.poisonLine_discarded (s : State) (k : Nat) : (s.poisonLine k).discarded = s.discarded := rfl
@[simp] theorem State.poisonLine_ctxMaps (s : State) (k : Nat) : (s.poisonLine k).ctxMaps = s.ctxMaps := rfl
@[simp] theorem State.poisonLine_lent (s : State) (k : Nat) : (s.poisonLine k).lent = s.lent := rfl
@[simp] theorem State.poisonLine_ctxBase (s : State) (k : Nat) : (s.poisonLine k).ctxBase = s.ctxBase := rfl
@[simp] theorem State.poisonLine_nextGang (s : State) (k : Nat) : (s.poisonLine k).nextGang = s.nextGang := rfl
@[simp] theorem State.poisonLine_nextGrid (s : State) (k : Nat) : (s.poisonLine k).nextGrid = s.nextGrid := rfl
@[simp] theorem State.poisonLine_memLate (s : State) (k : Nat) : (s.poisonLine k).memLate = s.memLate := rfl
@[simp] theorem State.poisonLine_time (s : State) (k : Nat) : (s.poisonLine k).time = s.time := rfl
@[simp] theorem State.poisonLine_agenda (s : State) (k : Nat) : (s.poisonLine k).agenda = s.agenda := rfl
@[simp] theorem State.poisonLine_rotor (s : State) (k : Nat) : (s.poisonLine k).rotor = s.rotor := rfl
@[simp] theorem State.poisonLine_fresh (s : State) (k : Nat) : (s.poisonLine k).fresh = s.fresh := rfl
@[simp] theorem State.poisonLine_cur (s : State) (k : Nat) : (s.poisonLine k).cur = s.cur := rfl

/-! State.clearPoison -/

@[simp] theorem State.clearPoison_mem (s : State) (k : Nat) : (s.clearPoison k).mem = s.mem := rfl
@[simp] theorem State.clearPoison_crews (s : State) (k : Nat) : (s.clearPoison k).crews = s.crews := rfl
@[simp] theorem State.clearPoison_gangs (s : State) (k : Nat) : (s.clearPoison k).gangs = s.gangs := rfl
@[simp] theorem State.clearPoison_cores (s : State) (k : Nat) : (s.clearPoison k).cores = s.cores := rfl
@[simp] theorem State.clearPoison_dies (s : State) (k : Nat) : (s.clearPoison k).dies = s.dies := rfl
@[simp] theorem State.clearPoison_homes (s : State) (k : Nat) : (s.clearPoison k).homes = s.homes := rfl
@[simp] theorem State.clearPoison_fabric (s : State) (k : Nat) : (s.clearPoison k).fabric = s.fabric := rfl
@[simp] theorem State.clearPoison_grids (s : State) (k : Nat) : (s.clearPoison k).grids = s.grids := rfl
@[simp] theorem State.clearPoison_queues (s : State) (k : Nat) : (s.clearPoison k).queues = s.queues := rfl
@[simp] theorem State.clearPoison_tables (s : State) (k : Nat) : (s.clearPoison k).tables = s.tables := rfl
@[simp] theorem State.clearPoison_asids (s : State) (k : Nat) : (s.clearPoison k).asids = s.asids := rfl
@[simp] theorem State.clearPoison_windows (s : State) (k : Nat) : (s.clearPoison k).windows = s.windows := rfl
@[simp] theorem State.clearPoison_groups (s : State) (k : Nat) : (s.clearPoison k).groups = s.groups := rfl
@[simp] theorem State.clearPoison_blocks (s : State) (k : Nat) : (s.clearPoison k).blocks = s.blocks := rfl
@[simp] theorem State.clearPoison_outbox (s : State) (k : Nat) : (s.clearPoison k).outbox = s.outbox := rfl
@[simp] theorem State.clearPoison_redHeld (s : State) (k : Nat) : (s.clearPoison k).redHeld = s.redHeld := rfl
@[simp] theorem State.clearPoison_redVia (s : State) (k : Nat) : (s.clearPoison k).redVia = s.redVia := rfl
@[simp] theorem State.clearPoison_redOff (s : State) (k : Nat) : (s.clearPoison k).redOff = s.redOff := rfl
@[simp] theorem State.clearPoison_umnor (s : State) (k : Nat) : (s.clearPoison k).umnor = s.umnor := rfl
@[simp] theorem State.clearPoison_cxl (s : State) (k : Nat) : (s.clearPoison k).cxl = s.cxl := rfl
@[simp] theorem State.clearPoison_ether (s : State) (k : Nat) : (s.clearPoison k).ether = s.ether := rfl
@[simp] theorem State.clearPoison_power (s : State) (k : Nat) : (s.clearPoison k).power = s.power := rfl
@[simp] theorem State.clearPoison_boot (s : State) (k : Nat) : (s.clearPoison k).boot = s.boot := rfl
@[simp] theorem State.clearPoison_incarnations (s : State) (k : Nat) : (s.clearPoison k).incarnations = s.incarnations := rfl
@[simp] theorem State.clearPoison_dropped (s : State) (k : Nat) : (s.clearPoison k).dropped = s.dropped := rfl
@[simp] theorem State.clearPoison_reports (s : State) (k : Nat) : (s.clearPoison k).reports = s.reports := rfl
@[simp] theorem State.clearPoison_log (s : State) (k : Nat) : (s.clearPoison k).log = s.log := rfl
@[simp] theorem State.clearPoison_logLost (s : State) (k : Nat) : (s.clearPoison k).logLost = s.logLost := rfl
@[simp] theorem State.clearPoison_logCap (s : State) (k : Nat) : (s.clearPoison k).logCap = s.logCap := rfl
@[simp] theorem State.clearPoison_discarded (s : State) (k : Nat) : (s.clearPoison k).discarded = s.discarded := rfl
@[simp] theorem State.clearPoison_ctxMaps (s : State) (k : Nat) : (s.clearPoison k).ctxMaps = s.ctxMaps := rfl
@[simp] theorem State.clearPoison_lent (s : State) (k : Nat) : (s.clearPoison k).lent = s.lent := rfl
@[simp] theorem State.clearPoison_ctxBase (s : State) (k : Nat) : (s.clearPoison k).ctxBase = s.ctxBase := rfl
@[simp] theorem State.clearPoison_nextGang (s : State) (k : Nat) : (s.clearPoison k).nextGang = s.nextGang := rfl
@[simp] theorem State.clearPoison_nextGrid (s : State) (k : Nat) : (s.clearPoison k).nextGrid = s.nextGrid := rfl
@[simp] theorem State.clearPoison_memLate (s : State) (k : Nat) : (s.clearPoison k).memLate = s.memLate := rfl
@[simp] theorem State.clearPoison_time (s : State) (k : Nat) : (s.clearPoison k).time = s.time := rfl
@[simp] theorem State.clearPoison_agenda (s : State) (k : Nat) : (s.clearPoison k).agenda = s.agenda := rfl
@[simp] theorem State.clearPoison_rotor (s : State) (k : Nat) : (s.clearPoison k).rotor = s.rotor := rfl
@[simp] theorem State.clearPoison_fresh (s : State) (k : Nat) : (s.clearPoison k).fresh = s.fresh := rfl
@[simp] theorem State.clearPoison_cur (s : State) (k : Nat) : (s.clearPoison k).cur = s.cur := rfl

/-! State.memWrite -/

@[simp] theorem State.memWrite_poison (s : State) (pa : Nat) (bs : List Byte) : (s.memWrite pa bs).poison = s.poison := rfl
@[simp] theorem State.memWrite_crews (s : State) (pa : Nat) (bs : List Byte) : (s.memWrite pa bs).crews = s.crews := rfl
@[simp] theorem State.memWrite_gangs (s : State) (pa : Nat) (bs : List Byte) : (s.memWrite pa bs).gangs = s.gangs := rfl
@[simp] theorem State.memWrite_cores (s : State) (pa : Nat) (bs : List Byte) : (s.memWrite pa bs).cores = s.cores := rfl
@[simp] theorem State.memWrite_homes (s : State) (pa : Nat) (bs : List Byte) : (s.memWrite pa bs).homes = s.homes := rfl
@[simp] theorem State.memWrite_fabric (s : State) (pa : Nat) (bs : List Byte) : (s.memWrite pa bs).fabric = s.fabric := rfl
@[simp] theorem State.memWrite_grids (s : State) (pa : Nat) (bs : List Byte) : (s.memWrite pa bs).grids = s.grids := rfl
@[simp] theorem State.memWrite_queues (s : State) (pa : Nat) (bs : List Byte) : (s.memWrite pa bs).queues = s.queues := rfl
@[simp] theorem State.memWrite_tables (s : State) (pa : Nat) (bs : List Byte) : (s.memWrite pa bs).tables = s.tables := rfl
@[simp] theorem State.memWrite_asids (s : State) (pa : Nat) (bs : List Byte) : (s.memWrite pa bs).asids = s.asids := rfl
@[simp] theorem State.memWrite_windows (s : State) (pa : Nat) (bs : List Byte) : (s.memWrite pa bs).windows = s.windows := rfl
@[simp] theorem State.memWrite_groups (s : State) (pa : Nat) (bs : List Byte) : (s.memWrite pa bs).groups = s.groups := rfl
@[simp] theorem State.memWrite_blocks (s : State) (pa : Nat) (bs : List Byte) : (s.memWrite pa bs).blocks = s.blocks := rfl
@[simp] theorem State.memWrite_outbox (s : State) (pa : Nat) (bs : List Byte) : (s.memWrite pa bs).outbox = s.outbox := rfl
@[simp] theorem State.memWrite_redHeld (s : State) (pa : Nat) (bs : List Byte) : (s.memWrite pa bs).redHeld = s.redHeld := rfl
@[simp] theorem State.memWrite_redVia (s : State) (pa : Nat) (bs : List Byte) : (s.memWrite pa bs).redVia = s.redVia := rfl
@[simp] theorem State.memWrite_redOff (s : State) (pa : Nat) (bs : List Byte) : (s.memWrite pa bs).redOff = s.redOff := rfl
@[simp] theorem State.memWrite_umnor (s : State) (pa : Nat) (bs : List Byte) : (s.memWrite pa bs).umnor = s.umnor := rfl
@[simp] theorem State.memWrite_cxl (s : State) (pa : Nat) (bs : List Byte) : (s.memWrite pa bs).cxl = s.cxl := rfl
@[simp] theorem State.memWrite_ether (s : State) (pa : Nat) (bs : List Byte) : (s.memWrite pa bs).ether = s.ether := rfl
@[simp] theorem State.memWrite_power (s : State) (pa : Nat) (bs : List Byte) : (s.memWrite pa bs).power = s.power := rfl
@[simp] theorem State.memWrite_boot (s : State) (pa : Nat) (bs : List Byte) : (s.memWrite pa bs).boot = s.boot := rfl
@[simp] theorem State.memWrite_incarnations (s : State) (pa : Nat) (bs : List Byte) : (s.memWrite pa bs).incarnations = s.incarnations := rfl
@[simp] theorem State.memWrite_dropped (s : State) (pa : Nat) (bs : List Byte) : (s.memWrite pa bs).dropped = s.dropped := rfl
@[simp] theorem State.memWrite_reports (s : State) (pa : Nat) (bs : List Byte) : (s.memWrite pa bs).reports = s.reports := rfl
@[simp] theorem State.memWrite_log (s : State) (pa : Nat) (bs : List Byte) : (s.memWrite pa bs).log = s.log := rfl
@[simp] theorem State.memWrite_logLost (s : State) (pa : Nat) (bs : List Byte) : (s.memWrite pa bs).logLost = s.logLost := rfl
@[simp] theorem State.memWrite_logCap (s : State) (pa : Nat) (bs : List Byte) : (s.memWrite pa bs).logCap = s.logCap := rfl
@[simp] theorem State.memWrite_discarded (s : State) (pa : Nat) (bs : List Byte) : (s.memWrite pa bs).discarded = s.discarded := rfl
@[simp] theorem State.memWrite_ctxMaps (s : State) (pa : Nat) (bs : List Byte) : (s.memWrite pa bs).ctxMaps = s.ctxMaps := rfl
@[simp] theorem State.memWrite_lent (s : State) (pa : Nat) (bs : List Byte) : (s.memWrite pa bs).lent = s.lent := rfl
@[simp] theorem State.memWrite_ctxBase (s : State) (pa : Nat) (bs : List Byte) : (s.memWrite pa bs).ctxBase = s.ctxBase := rfl
@[simp] theorem State.memWrite_nextGang (s : State) (pa : Nat) (bs : List Byte) : (s.memWrite pa bs).nextGang = s.nextGang := rfl
@[simp] theorem State.memWrite_nextGrid (s : State) (pa : Nat) (bs : List Byte) : (s.memWrite pa bs).nextGrid = s.nextGrid := rfl
@[simp] theorem State.memWrite_memLate (s : State) (pa : Nat) (bs : List Byte) : (s.memWrite pa bs).memLate = s.memLate := rfl
@[simp] theorem State.memWrite_time (s : State) (pa : Nat) (bs : List Byte) : (s.memWrite pa bs).time = s.time := rfl
@[simp] theorem State.memWrite_agenda (s : State) (pa : Nat) (bs : List Byte) : (s.memWrite pa bs).agenda = s.agenda := rfl
@[simp] theorem State.memWrite_rotor (s : State) (pa : Nat) (bs : List Byte) : (s.memWrite pa bs).rotor = s.rotor := rfl
@[simp] theorem State.memWrite_fresh (s : State) (pa : Nat) (bs : List Byte) : (s.memWrite pa bs).fresh = s.fresh := rfl
@[simp] theorem State.memWrite_cur (s : State) (pa : Nat) (bs : List Byte) : (s.memWrite pa bs).cur = s.cur := rfl

/-! State.homeKeep, State.homeTouch -/

@[simp] theorem State.homeKeep_mem (s : State) (n : Nat) (k : Keep) : (s.homeKeep n k).mem = s.mem := rfl
@[simp] theorem State.homeKeep_poison (s : State) (n : Nat) (k : Keep) : (s.homeKeep n k).poison = s.poison := rfl
@[simp] theorem State.homeKeep_crews (s : State) (n : Nat) (k : Keep) : (s.homeKeep n k).crews = s.crews := rfl
@[simp] theorem State.homeKeep_gangs (s : State) (n : Nat) (k : Keep) : (s.homeKeep n k).gangs = s.gangs := rfl
@[simp] theorem State.homeKeep_cores (s : State) (n : Nat) (k : Keep) : (s.homeKeep n k).cores = s.cores := rfl
@[simp] theorem State.homeKeep_homes (s : State) (n : Nat) (k : Keep) : (s.homeKeep n k).homes = s.homes := rfl
@[simp] theorem State.homeKeep_fabric (s : State) (n : Nat) (k : Keep) : (s.homeKeep n k).fabric = s.fabric := rfl
@[simp] theorem State.homeKeep_grids (s : State) (n : Nat) (k : Keep) : (s.homeKeep n k).grids = s.grids := rfl
@[simp] theorem State.homeKeep_queues (s : State) (n : Nat) (k : Keep) : (s.homeKeep n k).queues = s.queues := rfl
@[simp] theorem State.homeKeep_tables (s : State) (n : Nat) (k : Keep) : (s.homeKeep n k).tables = s.tables := rfl
@[simp] theorem State.homeKeep_asids (s : State) (n : Nat) (k : Keep) : (s.homeKeep n k).asids = s.asids := rfl
@[simp] theorem State.homeKeep_windows (s : State) (n : Nat) (k : Keep) : (s.homeKeep n k).windows = s.windows := rfl
@[simp] theorem State.homeKeep_groups (s : State) (n : Nat) (k : Keep) : (s.homeKeep n k).groups = s.groups := rfl
@[simp] theorem State.homeKeep_blocks (s : State) (n : Nat) (k : Keep) : (s.homeKeep n k).blocks = s.blocks := rfl
@[simp] theorem State.homeKeep_outbox (s : State) (n : Nat) (k : Keep) : (s.homeKeep n k).outbox = s.outbox := rfl
@[simp] theorem State.homeKeep_redHeld (s : State) (n : Nat) (k : Keep) : (s.homeKeep n k).redHeld = s.redHeld := rfl
@[simp] theorem State.homeKeep_redVia (s : State) (n : Nat) (k : Keep) : (s.homeKeep n k).redVia = s.redVia := rfl
@[simp] theorem State.homeKeep_redOff (s : State) (n : Nat) (k : Keep) : (s.homeKeep n k).redOff = s.redOff := rfl
@[simp] theorem State.homeKeep_umnor (s : State) (n : Nat) (k : Keep) : (s.homeKeep n k).umnor = s.umnor := rfl
@[simp] theorem State.homeKeep_cxl (s : State) (n : Nat) (k : Keep) : (s.homeKeep n k).cxl = s.cxl := rfl
@[simp] theorem State.homeKeep_ether (s : State) (n : Nat) (k : Keep) : (s.homeKeep n k).ether = s.ether := rfl
@[simp] theorem State.homeKeep_power (s : State) (n : Nat) (k : Keep) : (s.homeKeep n k).power = s.power := rfl
@[simp] theorem State.homeKeep_boot (s : State) (n : Nat) (k : Keep) : (s.homeKeep n k).boot = s.boot := rfl
@[simp] theorem State.homeKeep_incarnations (s : State) (n : Nat) (k : Keep) : (s.homeKeep n k).incarnations = s.incarnations := rfl
@[simp] theorem State.homeKeep_dropped (s : State) (n : Nat) (k : Keep) : (s.homeKeep n k).dropped = s.dropped := rfl
@[simp] theorem State.homeKeep_reports (s : State) (n : Nat) (k : Keep) : (s.homeKeep n k).reports = s.reports := rfl
@[simp] theorem State.homeKeep_log (s : State) (n : Nat) (k : Keep) : (s.homeKeep n k).log = s.log := rfl
@[simp] theorem State.homeKeep_logLost (s : State) (n : Nat) (k : Keep) : (s.homeKeep n k).logLost = s.logLost := rfl
@[simp] theorem State.homeKeep_logCap (s : State) (n : Nat) (k : Keep) : (s.homeKeep n k).logCap = s.logCap := rfl
@[simp] theorem State.homeKeep_discarded (s : State) (n : Nat) (k : Keep) : (s.homeKeep n k).discarded = s.discarded := rfl
@[simp] theorem State.homeKeep_ctxMaps (s : State) (n : Nat) (k : Keep) : (s.homeKeep n k).ctxMaps = s.ctxMaps := rfl
@[simp] theorem State.homeKeep_lent (s : State) (n : Nat) (k : Keep) : (s.homeKeep n k).lent = s.lent := rfl
@[simp] theorem State.homeKeep_ctxBase (s : State) (n : Nat) (k : Keep) : (s.homeKeep n k).ctxBase = s.ctxBase := rfl
@[simp] theorem State.homeKeep_nextGang (s : State) (n : Nat) (k : Keep) : (s.homeKeep n k).nextGang = s.nextGang := rfl
@[simp] theorem State.homeKeep_nextGrid (s : State) (n : Nat) (k : Keep) : (s.homeKeep n k).nextGrid = s.nextGrid := rfl
@[simp] theorem State.homeKeep_memLate (s : State) (n : Nat) (k : Keep) : (s.homeKeep n k).memLate = s.memLate := rfl
@[simp] theorem State.homeKeep_time (s : State) (n : Nat) (k : Keep) : (s.homeKeep n k).time = s.time := rfl
@[simp] theorem State.homeKeep_agenda (s : State) (n : Nat) (k : Keep) : (s.homeKeep n k).agenda = s.agenda := rfl
@[simp] theorem State.homeKeep_rotor (s : State) (n : Nat) (k : Keep) : (s.homeKeep n k).rotor = s.rotor := rfl
@[simp] theorem State.homeKeep_fresh (s : State) (n : Nat) (k : Keep) : (s.homeKeep n k).fresh = s.fresh := rfl
@[simp] theorem State.homeKeep_cur (s : State) (n : Nat) (k : Keep) : (s.homeKeep n k).cur = s.cur := rfl
@[simp] theorem State.homeTouch_mem (s : State) (n : Nat) (k : Keep) : (s.homeTouch n k).mem = s.mem := rfl
@[simp] theorem State.homeTouch_poison (s : State) (n : Nat) (k : Keep) : (s.homeTouch n k).poison = s.poison := rfl
@[simp] theorem State.homeTouch_crews (s : State) (n : Nat) (k : Keep) : (s.homeTouch n k).crews = s.crews := rfl
@[simp] theorem State.homeTouch_gangs (s : State) (n : Nat) (k : Keep) : (s.homeTouch n k).gangs = s.gangs := rfl
@[simp] theorem State.homeTouch_cores (s : State) (n : Nat) (k : Keep) : (s.homeTouch n k).cores = s.cores := rfl
@[simp] theorem State.homeTouch_homes (s : State) (n : Nat) (k : Keep) : (s.homeTouch n k).homes = s.homes := rfl
@[simp] theorem State.homeTouch_fabric (s : State) (n : Nat) (k : Keep) : (s.homeTouch n k).fabric = s.fabric := rfl
@[simp] theorem State.homeTouch_grids (s : State) (n : Nat) (k : Keep) : (s.homeTouch n k).grids = s.grids := rfl
@[simp] theorem State.homeTouch_queues (s : State) (n : Nat) (k : Keep) : (s.homeTouch n k).queues = s.queues := rfl
@[simp] theorem State.homeTouch_tables (s : State) (n : Nat) (k : Keep) : (s.homeTouch n k).tables = s.tables := rfl
@[simp] theorem State.homeTouch_asids (s : State) (n : Nat) (k : Keep) : (s.homeTouch n k).asids = s.asids := rfl
@[simp] theorem State.homeTouch_windows (s : State) (n : Nat) (k : Keep) : (s.homeTouch n k).windows = s.windows := rfl
@[simp] theorem State.homeTouch_groups (s : State) (n : Nat) (k : Keep) : (s.homeTouch n k).groups = s.groups := rfl
@[simp] theorem State.homeTouch_blocks (s : State) (n : Nat) (k : Keep) : (s.homeTouch n k).blocks = s.blocks := rfl
@[simp] theorem State.homeTouch_outbox (s : State) (n : Nat) (k : Keep) : (s.homeTouch n k).outbox = s.outbox := rfl
@[simp] theorem State.homeTouch_redHeld (s : State) (n : Nat) (k : Keep) : (s.homeTouch n k).redHeld = s.redHeld := rfl
@[simp] theorem State.homeTouch_redVia (s : State) (n : Nat) (k : Keep) : (s.homeTouch n k).redVia = s.redVia := rfl
@[simp] theorem State.homeTouch_redOff (s : State) (n : Nat) (k : Keep) : (s.homeTouch n k).redOff = s.redOff := rfl
@[simp] theorem State.homeTouch_umnor (s : State) (n : Nat) (k : Keep) : (s.homeTouch n k).umnor = s.umnor := rfl
@[simp] theorem State.homeTouch_cxl (s : State) (n : Nat) (k : Keep) : (s.homeTouch n k).cxl = s.cxl := rfl
@[simp] theorem State.homeTouch_ether (s : State) (n : Nat) (k : Keep) : (s.homeTouch n k).ether = s.ether := rfl
@[simp] theorem State.homeTouch_power (s : State) (n : Nat) (k : Keep) : (s.homeTouch n k).power = s.power := rfl
@[simp] theorem State.homeTouch_boot (s : State) (n : Nat) (k : Keep) : (s.homeTouch n k).boot = s.boot := rfl
@[simp] theorem State.homeTouch_incarnations (s : State) (n : Nat) (k : Keep) : (s.homeTouch n k).incarnations = s.incarnations := rfl
@[simp] theorem State.homeTouch_dropped (s : State) (n : Nat) (k : Keep) : (s.homeTouch n k).dropped = s.dropped := rfl
@[simp] theorem State.homeTouch_reports (s : State) (n : Nat) (k : Keep) : (s.homeTouch n k).reports = s.reports := rfl
@[simp] theorem State.homeTouch_log (s : State) (n : Nat) (k : Keep) : (s.homeTouch n k).log = s.log := rfl
@[simp] theorem State.homeTouch_logLost (s : State) (n : Nat) (k : Keep) : (s.homeTouch n k).logLost = s.logLost := rfl
@[simp] theorem State.homeTouch_logCap (s : State) (n : Nat) (k : Keep) : (s.homeTouch n k).logCap = s.logCap := rfl
@[simp] theorem State.homeTouch_discarded (s : State) (n : Nat) (k : Keep) : (s.homeTouch n k).discarded = s.discarded := rfl
@[simp] theorem State.homeTouch_ctxMaps (s : State) (n : Nat) (k : Keep) : (s.homeTouch n k).ctxMaps = s.ctxMaps := rfl
@[simp] theorem State.homeTouch_ctxBase (s : State) (n : Nat) (k : Keep) : (s.homeTouch n k).ctxBase = s.ctxBase := rfl
@[simp] theorem State.homeTouch_nextGang (s : State) (n : Nat) (k : Keep) : (s.homeTouch n k).nextGang = s.nextGang := rfl
@[simp] theorem State.homeTouch_nextGrid (s : State) (n : Nat) (k : Keep) : (s.homeTouch n k).nextGrid = s.nextGrid := rfl
@[simp] theorem State.homeTouch_memLate (s : State) (n : Nat) (k : Keep) : (s.homeTouch n k).memLate = s.memLate := rfl
@[simp] theorem State.homeTouch_time (s : State) (n : Nat) (k : Keep) : (s.homeTouch n k).time = s.time := rfl
@[simp] theorem State.homeTouch_agenda (s : State) (n : Nat) (k : Keep) : (s.homeTouch n k).agenda = s.agenda := rfl
@[simp] theorem State.homeTouch_rotor (s : State) (n : Nat) (k : Keep) : (s.homeTouch n k).rotor = s.rotor := rfl
@[simp] theorem State.homeTouch_fresh (s : State) (n : Nat) (k : Keep) : (s.homeTouch n k).fresh = s.fresh := rfl
@[simp] theorem State.homeTouch_cur (s : State) (n : Nat) (k : Keep) : (s.homeTouch n k).cur = s.cur := rfl

/-- What reaching an address does: its overlay is resident or none, and nothing changes; or its load is started. -/
theorem State.reachAt_cases (s : State) (key : Nat) (pc : Pc) :
    s.reachAt key pc = (.live, s) ∨ ∃ n off slots, overlayAt ((s.crew key).header (s.gang (gangOf key))) pc.toNat = some (n, off, slots) ∧
      s.reachAt key pc = (.parked (.overlay off), s.ovlStart (s.crew key).core (s.gang (gangOf key)).asid (s.crew key).cver off slots) := by
  cases h : overlayAt ((s.crew key).header (s.gang (gangOf key))) pc.toNat with
  | none => exact .inl (by simp [State.reachAt, h])
  | some o =>
    obtain ⟨n, off, slots⟩ := o
    by_cases hr : s.ovlResident (s.crew key).core (s.gang (gangOf key)).asid (s.crew key).cver off = true
    · exact .inl (by simp [State.reachAt, h, hr])
    · exact .inr ⟨n, off, slots, rfl, by simp [State.reachAt, h, hr]⟩

/-! State.modQueue -/

@[simp] theorem State.modQueue_mem (s : State) (k : Nat) (f : Queue → Queue) : (s.modQueue k f).mem = s.mem := rfl
@[simp] theorem State.modQueue_poison (s : State) (k : Nat) (f : Queue → Queue) : (s.modQueue k f).poison = s.poison := rfl
@[simp] theorem State.modQueue_crews (s : State) (k : Nat) (f : Queue → Queue) : (s.modQueue k f).crews = s.crews := rfl
@[simp] theorem State.modQueue_gangs (s : State) (k : Nat) (f : Queue → Queue) : (s.modQueue k f).gangs = s.gangs := rfl
@[simp] theorem State.modQueue_cores (s : State) (k : Nat) (f : Queue → Queue) : (s.modQueue k f).cores = s.cores := rfl
@[simp] theorem State.modQueue_dies (s : State) (k : Nat) (f : Queue → Queue) : (s.modQueue k f).dies = s.dies := rfl
@[simp] theorem State.modQueue_homes (s : State) (k : Nat) (f : Queue → Queue) : (s.modQueue k f).homes = s.homes := rfl
@[simp] theorem State.modQueue_fabric (s : State) (k : Nat) (f : Queue → Queue) : (s.modQueue k f).fabric = s.fabric := rfl
@[simp] theorem State.modQueue_grids (s : State) (k : Nat) (f : Queue → Queue) : (s.modQueue k f).grids = s.grids := rfl
@[simp] theorem State.modQueue_tables (s : State) (k : Nat) (f : Queue → Queue) : (s.modQueue k f).tables = s.tables := rfl
@[simp] theorem State.modQueue_asids (s : State) (k : Nat) (f : Queue → Queue) : (s.modQueue k f).asids = s.asids := rfl
@[simp] theorem State.modQueue_windows (s : State) (k : Nat) (f : Queue → Queue) : (s.modQueue k f).windows = s.windows := rfl
@[simp] theorem State.modQueue_groups (s : State) (k : Nat) (f : Queue → Queue) : (s.modQueue k f).groups = s.groups := rfl
@[simp] theorem State.modQueue_blocks (s : State) (k : Nat) (f : Queue → Queue) : (s.modQueue k f).blocks = s.blocks := rfl
@[simp] theorem State.modQueue_outbox (s : State) (k : Nat) (f : Queue → Queue) : (s.modQueue k f).outbox = s.outbox := rfl
@[simp] theorem State.modQueue_redHeld (s : State) (k : Nat) (f : Queue → Queue) : (s.modQueue k f).redHeld = s.redHeld := rfl
@[simp] theorem State.modQueue_redVia (s : State) (k : Nat) (f : Queue → Queue) : (s.modQueue k f).redVia = s.redVia := rfl
@[simp] theorem State.modQueue_redOff (s : State) (k : Nat) (f : Queue → Queue) : (s.modQueue k f).redOff = s.redOff := rfl
@[simp] theorem State.modQueue_umnor (s : State) (k : Nat) (f : Queue → Queue) : (s.modQueue k f).umnor = s.umnor := rfl
@[simp] theorem State.modQueue_cxl (s : State) (k : Nat) (f : Queue → Queue) : (s.modQueue k f).cxl = s.cxl := rfl
@[simp] theorem State.modQueue_ether (s : State) (k : Nat) (f : Queue → Queue) : (s.modQueue k f).ether = s.ether := rfl
@[simp] theorem State.modQueue_power (s : State) (k : Nat) (f : Queue → Queue) : (s.modQueue k f).power = s.power := rfl
@[simp] theorem State.modQueue_boot (s : State) (k : Nat) (f : Queue → Queue) : (s.modQueue k f).boot = s.boot := rfl
@[simp] theorem State.modQueue_incarnations (s : State) (k : Nat) (f : Queue → Queue) : (s.modQueue k f).incarnations = s.incarnations := rfl
@[simp] theorem State.modQueue_dropped (s : State) (k : Nat) (f : Queue → Queue) : (s.modQueue k f).dropped = s.dropped := rfl
@[simp] theorem State.modQueue_reports (s : State) (k : Nat) (f : Queue → Queue) : (s.modQueue k f).reports = s.reports := rfl
@[simp] theorem State.modQueue_log (s : State) (k : Nat) (f : Queue → Queue) : (s.modQueue k f).log = s.log := rfl
@[simp] theorem State.modQueue_logLost (s : State) (k : Nat) (f : Queue → Queue) : (s.modQueue k f).logLost = s.logLost := rfl
@[simp] theorem State.modQueue_logCap (s : State) (k : Nat) (f : Queue → Queue) : (s.modQueue k f).logCap = s.logCap := rfl
@[simp] theorem State.modQueue_discarded (s : State) (k : Nat) (f : Queue → Queue) : (s.modQueue k f).discarded = s.discarded := rfl
@[simp] theorem State.modQueue_ctxMaps (s : State) (k : Nat) (f : Queue → Queue) : (s.modQueue k f).ctxMaps = s.ctxMaps := rfl
@[simp] theorem State.modQueue_lent (s : State) (k : Nat) (f : Queue → Queue) : (s.modQueue k f).lent = s.lent := rfl
@[simp] theorem State.modQueue_ctxBase (s : State) (k : Nat) (f : Queue → Queue) : (s.modQueue k f).ctxBase = s.ctxBase := rfl
@[simp] theorem State.modQueue_nextGang (s : State) (k : Nat) (f : Queue → Queue) : (s.modQueue k f).nextGang = s.nextGang := rfl
@[simp] theorem State.modQueue_nextGrid (s : State) (k : Nat) (f : Queue → Queue) : (s.modQueue k f).nextGrid = s.nextGrid := rfl
@[simp] theorem State.modQueue_memLate (s : State) (k : Nat) (f : Queue → Queue) : (s.modQueue k f).memLate = s.memLate := rfl
@[simp] theorem State.modQueue_time (s : State) (k : Nat) (f : Queue → Queue) : (s.modQueue k f).time = s.time := rfl
@[simp] theorem State.modQueue_agenda (s : State) (k : Nat) (f : Queue → Queue) : (s.modQueue k f).agenda = s.agenda := rfl
@[simp] theorem State.modQueue_rotor (s : State) (k : Nat) (f : Queue → Queue) : (s.modQueue k f).rotor = s.rotor := rfl
@[simp] theorem State.modQueue_fresh (s : State) (k : Nat) (f : Queue → Queue) : (s.modQueue k f).fresh = s.fresh := rfl
@[simp] theorem State.modQueue_cur (s : State) (k : Nat) (f : Queue → Queue) : (s.modQueue k f).cur = s.cur := rfl

/-! State.modAsid -/

@[simp] theorem State.modAsid_mem (s : State) (k : BitVec 12) (f : AsidEntry → AsidEntry) : (s.modAsid k f).mem = s.mem := rfl
@[simp] theorem State.modAsid_poison (s : State) (k : BitVec 12) (f : AsidEntry → AsidEntry) : (s.modAsid k f).poison = s.poison := rfl
@[simp] theorem State.modAsid_crews (s : State) (k : BitVec 12) (f : AsidEntry → AsidEntry) : (s.modAsid k f).crews = s.crews := rfl
@[simp] theorem State.modAsid_gangs (s : State) (k : BitVec 12) (f : AsidEntry → AsidEntry) : (s.modAsid k f).gangs = s.gangs := rfl
@[simp] theorem State.modAsid_cores (s : State) (k : BitVec 12) (f : AsidEntry → AsidEntry) : (s.modAsid k f).cores = s.cores := rfl
@[simp] theorem State.modAsid_dies (s : State) (k : BitVec 12) (f : AsidEntry → AsidEntry) : (s.modAsid k f).dies = s.dies := rfl
@[simp] theorem State.modAsid_homes (s : State) (k : BitVec 12) (f : AsidEntry → AsidEntry) : (s.modAsid k f).homes = s.homes := rfl
@[simp] theorem State.modAsid_fabric (s : State) (k : BitVec 12) (f : AsidEntry → AsidEntry) : (s.modAsid k f).fabric = s.fabric := rfl
@[simp] theorem State.modAsid_grids (s : State) (k : BitVec 12) (f : AsidEntry → AsidEntry) : (s.modAsid k f).grids = s.grids := rfl
@[simp] theorem State.modAsid_queues (s : State) (k : BitVec 12) (f : AsidEntry → AsidEntry) : (s.modAsid k f).queues = s.queues := rfl
@[simp] theorem State.modAsid_tables (s : State) (k : BitVec 12) (f : AsidEntry → AsidEntry) : (s.modAsid k f).tables = s.tables := rfl
@[simp] theorem State.modAsid_windows (s : State) (k : BitVec 12) (f : AsidEntry → AsidEntry) : (s.modAsid k f).windows = s.windows := rfl
@[simp] theorem State.modAsid_groups (s : State) (k : BitVec 12) (f : AsidEntry → AsidEntry) : (s.modAsid k f).groups = s.groups := rfl
@[simp] theorem State.modAsid_blocks (s : State) (k : BitVec 12) (f : AsidEntry → AsidEntry) : (s.modAsid k f).blocks = s.blocks := rfl
@[simp] theorem State.modAsid_outbox (s : State) (k : BitVec 12) (f : AsidEntry → AsidEntry) : (s.modAsid k f).outbox = s.outbox := rfl
@[simp] theorem State.modAsid_redHeld (s : State) (k : BitVec 12) (f : AsidEntry → AsidEntry) : (s.modAsid k f).redHeld = s.redHeld := rfl
@[simp] theorem State.modAsid_redVia (s : State) (k : BitVec 12) (f : AsidEntry → AsidEntry) : (s.modAsid k f).redVia = s.redVia := rfl
@[simp] theorem State.modAsid_redOff (s : State) (k : BitVec 12) (f : AsidEntry → AsidEntry) : (s.modAsid k f).redOff = s.redOff := rfl
@[simp] theorem State.modAsid_umnor (s : State) (k : BitVec 12) (f : AsidEntry → AsidEntry) : (s.modAsid k f).umnor = s.umnor := rfl
@[simp] theorem State.modAsid_cxl (s : State) (k : BitVec 12) (f : AsidEntry → AsidEntry) : (s.modAsid k f).cxl = s.cxl := rfl
@[simp] theorem State.modAsid_ether (s : State) (k : BitVec 12) (f : AsidEntry → AsidEntry) : (s.modAsid k f).ether = s.ether := rfl
@[simp] theorem State.modAsid_power (s : State) (k : BitVec 12) (f : AsidEntry → AsidEntry) : (s.modAsid k f).power = s.power := rfl
@[simp] theorem State.modAsid_boot (s : State) (k : BitVec 12) (f : AsidEntry → AsidEntry) : (s.modAsid k f).boot = s.boot := rfl
@[simp] theorem State.modAsid_incarnations (s : State) (k : BitVec 12) (f : AsidEntry → AsidEntry) : (s.modAsid k f).incarnations = s.incarnations := rfl
@[simp] theorem State.modAsid_dropped (s : State) (k : BitVec 12) (f : AsidEntry → AsidEntry) : (s.modAsid k f).dropped = s.dropped := rfl
@[simp] theorem State.modAsid_reports (s : State) (k : BitVec 12) (f : AsidEntry → AsidEntry) : (s.modAsid k f).reports = s.reports := rfl
@[simp] theorem State.modAsid_log (s : State) (k : BitVec 12) (f : AsidEntry → AsidEntry) : (s.modAsid k f).log = s.log := rfl
@[simp] theorem State.modAsid_logLost (s : State) (k : BitVec 12) (f : AsidEntry → AsidEntry) : (s.modAsid k f).logLost = s.logLost := rfl
@[simp] theorem State.modAsid_logCap (s : State) (k : BitVec 12) (f : AsidEntry → AsidEntry) : (s.modAsid k f).logCap = s.logCap := rfl
@[simp] theorem State.modAsid_discarded (s : State) (k : BitVec 12) (f : AsidEntry → AsidEntry) : (s.modAsid k f).discarded = s.discarded := rfl
@[simp] theorem State.modAsid_ctxMaps (s : State) (k : BitVec 12) (f : AsidEntry → AsidEntry) : (s.modAsid k f).ctxMaps = s.ctxMaps := rfl
@[simp] theorem State.modAsid_lent (s : State) (k : BitVec 12) (f : AsidEntry → AsidEntry) : (s.modAsid k f).lent = s.lent := rfl
@[simp] theorem State.modAsid_ctxBase (s : State) (k : BitVec 12) (f : AsidEntry → AsidEntry) : (s.modAsid k f).ctxBase = s.ctxBase := rfl
@[simp] theorem State.modAsid_nextGang (s : State) (k : BitVec 12) (f : AsidEntry → AsidEntry) : (s.modAsid k f).nextGang = s.nextGang := rfl
@[simp] theorem State.modAsid_nextGrid (s : State) (k : BitVec 12) (f : AsidEntry → AsidEntry) : (s.modAsid k f).nextGrid = s.nextGrid := rfl
@[simp] theorem State.modAsid_memLate (s : State) (k : BitVec 12) (f : AsidEntry → AsidEntry) : (s.modAsid k f).memLate = s.memLate := rfl
@[simp] theorem State.modAsid_time (s : State) (k : BitVec 12) (f : AsidEntry → AsidEntry) : (s.modAsid k f).time = s.time := rfl
@[simp] theorem State.modAsid_agenda (s : State) (k : BitVec 12) (f : AsidEntry → AsidEntry) : (s.modAsid k f).agenda = s.agenda := rfl
@[simp] theorem State.modAsid_rotor (s : State) (k : BitVec 12) (f : AsidEntry → AsidEntry) : (s.modAsid k f).rotor = s.rotor := rfl
@[simp] theorem State.modAsid_fresh (s : State) (k : BitVec 12) (f : AsidEntry → AsidEntry) : (s.modAsid k f).fresh = s.fresh := rfl
@[simp] theorem State.modAsid_cur (s : State) (k : BitVec 12) (f : AsidEntry → AsidEntry) : (s.modAsid k f).cur = s.cur := rfl

/-! State.modPort -/

@[simp] theorem State.modPort_mem (s : State) (k : Nat) (f : Umnor → Umnor) : (s.modPort k f).mem = s.mem := rfl
@[simp] theorem State.modPort_poison (s : State) (k : Nat) (f : Umnor → Umnor) : (s.modPort k f).poison = s.poison := rfl
@[simp] theorem State.modPort_crews (s : State) (k : Nat) (f : Umnor → Umnor) : (s.modPort k f).crews = s.crews := rfl
@[simp] theorem State.modPort_gangs (s : State) (k : Nat) (f : Umnor → Umnor) : (s.modPort k f).gangs = s.gangs := rfl
@[simp] theorem State.modPort_cores (s : State) (k : Nat) (f : Umnor → Umnor) : (s.modPort k f).cores = s.cores := rfl
@[simp] theorem State.modPort_dies (s : State) (k : Nat) (f : Umnor → Umnor) : (s.modPort k f).dies = s.dies := rfl
@[simp] theorem State.modPort_homes (s : State) (k : Nat) (f : Umnor → Umnor) : (s.modPort k f).homes = s.homes := rfl
@[simp] theorem State.modPort_fabric (s : State) (k : Nat) (f : Umnor → Umnor) : (s.modPort k f).fabric = s.fabric := rfl
@[simp] theorem State.modPort_grids (s : State) (k : Nat) (f : Umnor → Umnor) : (s.modPort k f).grids = s.grids := rfl
@[simp] theorem State.modPort_queues (s : State) (k : Nat) (f : Umnor → Umnor) : (s.modPort k f).queues = s.queues := rfl
@[simp] theorem State.modPort_tables (s : State) (k : Nat) (f : Umnor → Umnor) : (s.modPort k f).tables = s.tables := rfl
@[simp] theorem State.modPort_asids (s : State) (k : Nat) (f : Umnor → Umnor) : (s.modPort k f).asids = s.asids := rfl
@[simp] theorem State.modPort_windows (s : State) (k : Nat) (f : Umnor → Umnor) : (s.modPort k f).windows = s.windows := rfl
@[simp] theorem State.modPort_groups (s : State) (k : Nat) (f : Umnor → Umnor) : (s.modPort k f).groups = s.groups := rfl
@[simp] theorem State.modPort_blocks (s : State) (k : Nat) (f : Umnor → Umnor) : (s.modPort k f).blocks = s.blocks := rfl
@[simp] theorem State.modPort_outbox (s : State) (k : Nat) (f : Umnor → Umnor) : (s.modPort k f).outbox = s.outbox := rfl
@[simp] theorem State.modPort_cxl (s : State) (k : Nat) (f : Umnor → Umnor) : (s.modPort k f).cxl = s.cxl := rfl
@[simp] theorem State.modPort_ether (s : State) (k : Nat) (f : Umnor → Umnor) : (s.modPort k f).ether = s.ether := rfl
@[simp] theorem State.modPort_power (s : State) (k : Nat) (f : Umnor → Umnor) : (s.modPort k f).power = s.power := rfl
@[simp] theorem State.modPort_boot (s : State) (k : Nat) (f : Umnor → Umnor) : (s.modPort k f).boot = s.boot := rfl
@[simp] theorem State.modPort_incarnations (s : State) (k : Nat) (f : Umnor → Umnor) : (s.modPort k f).incarnations = s.incarnations := rfl
@[simp] theorem State.modPort_dropped (s : State) (k : Nat) (f : Umnor → Umnor) : (s.modPort k f).dropped = s.dropped := rfl
@[simp] theorem State.modPort_reports (s : State) (k : Nat) (f : Umnor → Umnor) : (s.modPort k f).reports = s.reports := rfl
@[simp] theorem State.modPort_log (s : State) (k : Nat) (f : Umnor → Umnor) : (s.modPort k f).log = s.log := rfl
@[simp] theorem State.modPort_logLost (s : State) (k : Nat) (f : Umnor → Umnor) : (s.modPort k f).logLost = s.logLost := rfl
@[simp] theorem State.modPort_logCap (s : State) (k : Nat) (f : Umnor → Umnor) : (s.modPort k f).logCap = s.logCap := rfl
@[simp] theorem State.modPort_discarded (s : State) (k : Nat) (f : Umnor → Umnor) : (s.modPort k f).discarded = s.discarded := rfl
@[simp] theorem State.modPort_ctxMaps (s : State) (k : Nat) (f : Umnor → Umnor) : (s.modPort k f).ctxMaps = s.ctxMaps := rfl
@[simp] theorem State.modPort_lent (s : State) (k : Nat) (f : Umnor → Umnor) : (s.modPort k f).lent = s.lent := rfl
@[simp] theorem State.modPort_ctxBase (s : State) (k : Nat) (f : Umnor → Umnor) : (s.modPort k f).ctxBase = s.ctxBase := rfl
@[simp] theorem State.modPort_nextGang (s : State) (k : Nat) (f : Umnor → Umnor) : (s.modPort k f).nextGang = s.nextGang := rfl
@[simp] theorem State.modPort_nextGrid (s : State) (k : Nat) (f : Umnor → Umnor) : (s.modPort k f).nextGrid = s.nextGrid := rfl
@[simp] theorem State.modPort_memLate (s : State) (k : Nat) (f : Umnor → Umnor) : (s.modPort k f).memLate = s.memLate := rfl
@[simp] theorem State.modPort_time (s : State) (k : Nat) (f : Umnor → Umnor) : (s.modPort k f).time = s.time := rfl
@[simp] theorem State.modPort_agenda (s : State) (k : Nat) (f : Umnor → Umnor) : (s.modPort k f).agenda = s.agenda := rfl
@[simp] theorem State.modPort_rotor (s : State) (k : Nat) (f : Umnor → Umnor) : (s.modPort k f).rotor = s.rotor := rfl
@[simp] theorem State.modPort_fresh (s : State) (k : Nat) (f : Umnor → Umnor) : (s.modPort k f).fresh = s.fresh := rfl
@[simp] theorem State.modPort_cur (s : State) (k : Nat) (f : Umnor → Umnor) : (s.modPort k f).cur = s.cur := rfl

/-! State.modPorter -/

@[simp] theorem State.modPorter_mem (s : State) (k : Nat) (f : Porter → Porter) : (s.modPorter k f).mem = s.mem := rfl
@[simp] theorem State.modPorter_poison (s : State) (k : Nat) (f : Porter → Porter) : (s.modPorter k f).poison = s.poison := rfl
@[simp] theorem State.modPorter_crews (s : State) (k : Nat) (f : Porter → Porter) : (s.modPorter k f).crews = s.crews := rfl
@[simp] theorem State.modPorter_gangs (s : State) (k : Nat) (f : Porter → Porter) : (s.modPorter k f).gangs = s.gangs := rfl
@[simp] theorem State.modPorter_dies (s : State) (k : Nat) (f : Porter → Porter) : (s.modPorter k f).dies = s.dies := rfl
@[simp] theorem State.modPorter_homes (s : State) (k : Nat) (f : Porter → Porter) : (s.modPorter k f).homes = s.homes := rfl
@[simp] theorem State.modPorter_fabric (s : State) (k : Nat) (f : Porter → Porter) : (s.modPorter k f).fabric = s.fabric := rfl
@[simp] theorem State.modPorter_grids (s : State) (k : Nat) (f : Porter → Porter) : (s.modPorter k f).grids = s.grids := rfl
@[simp] theorem State.modPorter_queues (s : State) (k : Nat) (f : Porter → Porter) : (s.modPorter k f).queues = s.queues := rfl
@[simp] theorem State.modPorter_tables (s : State) (k : Nat) (f : Porter → Porter) : (s.modPorter k f).tables = s.tables := rfl
@[simp] theorem State.modPorter_asids (s : State) (k : Nat) (f : Porter → Porter) : (s.modPorter k f).asids = s.asids := rfl
@[simp] theorem State.modPorter_windows (s : State) (k : Nat) (f : Porter → Porter) : (s.modPorter k f).windows = s.windows := rfl
@[simp] theorem State.modPorter_groups (s : State) (k : Nat) (f : Porter → Porter) : (s.modPorter k f).groups = s.groups := rfl
@[simp] theorem State.modPorter_blocks (s : State) (k : Nat) (f : Porter → Porter) : (s.modPorter k f).blocks = s.blocks := rfl
@[simp] theorem State.modPorter_outbox (s : State) (k : Nat) (f : Porter → Porter) : (s.modPorter k f).outbox = s.outbox := rfl
@[simp] theorem State.modPorter_redHeld (s : State) (k : Nat) (f : Porter → Porter) : (s.modPorter k f).redHeld = s.redHeld := rfl
@[simp] theorem State.modPorter_redVia (s : State) (k : Nat) (f : Porter → Porter) : (s.modPorter k f).redVia = s.redVia := rfl
@[simp] theorem State.modPorter_redOff (s : State) (k : Nat) (f : Porter → Porter) : (s.modPorter k f).redOff = s.redOff := rfl
@[simp] theorem State.modPorter_umnor (s : State) (k : Nat) (f : Porter → Porter) : (s.modPorter k f).umnor = s.umnor := rfl
@[simp] theorem State.modPorter_cxl (s : State) (k : Nat) (f : Porter → Porter) : (s.modPorter k f).cxl = s.cxl := rfl
@[simp] theorem State.modPorter_ether (s : State) (k : Nat) (f : Porter → Porter) : (s.modPorter k f).ether = s.ether := rfl
@[simp] theorem State.modPorter_power (s : State) (k : Nat) (f : Porter → Porter) : (s.modPorter k f).power = s.power := rfl
@[simp] theorem State.modPorter_boot (s : State) (k : Nat) (f : Porter → Porter) : (s.modPorter k f).boot = s.boot := rfl
@[simp] theorem State.modPorter_incarnations (s : State) (k : Nat) (f : Porter → Porter) : (s.modPorter k f).incarnations = s.incarnations := rfl
@[simp] theorem State.modPorter_dropped (s : State) (k : Nat) (f : Porter → Porter) : (s.modPorter k f).dropped = s.dropped := rfl
@[simp] theorem State.modPorter_reports (s : State) (k : Nat) (f : Porter → Porter) : (s.modPorter k f).reports = s.reports := rfl
@[simp] theorem State.modPorter_log (s : State) (k : Nat) (f : Porter → Porter) : (s.modPorter k f).log = s.log := rfl
@[simp] theorem State.modPorter_logLost (s : State) (k : Nat) (f : Porter → Porter) : (s.modPorter k f).logLost = s.logLost := rfl
@[simp] theorem State.modPorter_logCap (s : State) (k : Nat) (f : Porter → Porter) : (s.modPorter k f).logCap = s.logCap := rfl
@[simp] theorem State.modPorter_discarded (s : State) (k : Nat) (f : Porter → Porter) : (s.modPorter k f).discarded = s.discarded := rfl
@[simp] theorem State.modPorter_ctxMaps (s : State) (k : Nat) (f : Porter → Porter) : (s.modPorter k f).ctxMaps = s.ctxMaps := rfl
@[simp] theorem State.modPorter_lent (s : State) (k : Nat) (f : Porter → Porter) : (s.modPorter k f).lent = s.lent := rfl
@[simp] theorem State.modPorter_ctxBase (s : State) (k : Nat) (f : Porter → Porter) : (s.modPorter k f).ctxBase = s.ctxBase := rfl
@[simp] theorem State.modPorter_nextGang (s : State) (k : Nat) (f : Porter → Porter) : (s.modPorter k f).nextGang = s.nextGang := rfl
@[simp] theorem State.modPorter_nextGrid (s : State) (k : Nat) (f : Porter → Porter) : (s.modPorter k f).nextGrid = s.nextGrid := rfl
@[simp] theorem State.modPorter_memLate (s : State) (k : Nat) (f : Porter → Porter) : (s.modPorter k f).memLate = s.memLate := rfl
@[simp] theorem State.modPorter_time (s : State) (k : Nat) (f : Porter → Porter) : (s.modPorter k f).time = s.time := rfl
@[simp] theorem State.modPorter_agenda (s : State) (k : Nat) (f : Porter → Porter) : (s.modPorter k f).agenda = s.agenda := rfl
@[simp] theorem State.modPorter_rotor (s : State) (k : Nat) (f : Porter → Porter) : (s.modPorter k f).rotor = s.rotor := rfl
@[simp] theorem State.modPorter_fresh (s : State) (k : Nat) (f : Porter → Porter) : (s.modPorter k f).fresh = s.fresh := rfl
@[simp] theorem State.modPorter_cur (s : State) (k : Nat) (f : Porter → Porter) : (s.modPorter k f).cur = s.cur := rfl

/-! Crew.updThr -/

@[simp] theorem Crew.updThr_core (c : Crew) (m : Mask) (f : Lane → Thread → Thread) : (c.updThr m f).core = c.core := by simp only [Crew.updThr]
@[simp] theorem Crew.updThr_place (c : Crew) (m : Mask) (f : Lane → Thread → Thread) : (c.updThr m f).place = c.place := by simp only [Crew.updThr]
@[simp] theorem Crew.updThr_regs (c : Crew) (m : Mask) (f : Lane → Thread → Thread) : (c.updThr m f).regs = c.regs := by simp only [Crew.updThr]
@[simp] theorem Crew.updThr_tags (c : Crew) (m : Mask) (f : Lane → Thread → Thread) : (c.updThr m f).tags = c.tags := by simp only [Crew.updThr]
@[simp] theorem Crew.updThr_shadow (c : Crew) (m : Mask) (f : Lane → Thread → Thread) : (c.updThr m f).shadow = c.shadow := by simp only [Crew.updThr]
@[simp] theorem Crew.updThr_stags (c : Crew) (m : Mask) (f : Lane → Thread → Thread) : (c.updThr m f).stags = c.stags := by simp only [Crew.updThr]
@[simp] theorem Crew.updThr_preds (c : Crew) (m : Mask) (f : Lane → Thread → Thread) : (c.updThr m f).preds = c.preds := by simp only [Crew.updThr]
@[simp] theorem Crew.updThr_latches (c : Crew) (m : Mask) (f : Lane → Thread → Thread) : (c.updThr m f).latches = c.latches := by simp only [Crew.updThr]
@[simp] theorem Crew.updThr_found (c : Crew) (m : Mask) (f : Lane → Thread → Thread) : (c.updThr m f).found = c.found := by simp only [Crew.updThr]
@[simp] theorem Crew.updThr_cver (c : Crew) (m : Mask) (f : Lane → Thread → Thread) : (c.updThr m f).cver = c.cver := by simp only [Crew.updThr]
@[simp] theorem Crew.updThr_hdr (c : Crew) (m : Mask) (f : Lane → Thread → Thread) : (c.updThr m f).hdr = c.hdr := by simp only [Crew.updThr]
@[simp] theorem Crew.updThr_switched (c : Crew) (m : Mask) (f : Lane → Thread → Thread) : (c.updThr m f).switched = c.switched := by simp only [Crew.updThr]
@[simp] theorem Crew.updThr_run (c : Crew) (m : Mask) (f : Lane → Thread → Thread) : (c.updThr m f).run = c.run := by simp only [Crew.updThr]
@[simp] theorem Crew.updThr_last (c : Crew) (m : Mask) (f : Lane → Thread → Thread) : (c.updThr m f).last = c.last := by simp only [Crew.updThr]
@[simp] theorem Crew.updThr_restored (c : Crew) (m : Mask) (f : Lane → Thread → Thread) : (c.updThr m f).restored = c.restored := by simp only [Crew.updThr]
@[simp] theorem Crew.updThr_same (c : Crew) (m : Mask) (f : Lane → Thread → Thread) : (c.updThr m f).same = c.same := by simp only [Crew.updThr]
@[simp] theorem Crew.updThr_sameSet (c : Crew) (m : Mask) (f : Lane → Thread → Thread) : (c.updThr m f).sameSet = c.sameSet := by simp only [Crew.updThr]
@[simp] theorem Crew.updThr_issues (c : Crew) (m : Mask) (f : Lane → Thread → Thread) : (c.updThr m f).issues = c.issues := by simp only [Crew.updThr]
@[simp] theorem Crew.updThr_seen (c : Crew) (m : Mask) (f : Lane → Thread → Thread) : (c.updThr m f).seen = c.seen := by simp only [Crew.updThr]
@[simp] theorem Crew.updThr_ages (c : Crew) (m : Mask) (f : Lane → Thread → Thread) : (c.updThr m f).ages = c.ages := by simp only [Crew.updThr]
@[simp] theorem Crew.updThr_force (c : Crew) (m : Mask) (f : Lane → Thread → Thread) : (c.updThr m f).force = c.force := by simp only [Crew.updThr]
@[simp] theorem Crew.updThr_slots (c : Crew) (m : Mask) (f : Lane → Thread → Thread) : (c.updThr m f).slots = c.slots := by simp only [Crew.updThr]
@[simp] theorem Crew.updThr_infl (c : Crew) (m : Mask) (f : Lane → Thread → Thread) : (c.updThr m f).infl = c.infl := by simp only [Crew.updThr]
@[simp] theorem Crew.updThr_barm (c : Crew) (m : Mask) (f : Lane → Thread → Thread) : (c.updThr m f).barm = c.barm := by simp only [Crew.updThr]
@[simp] theorem Crew.updThr_barcm (c : Crew) (m : Mask) (f : Lane → Thread → Thread) : (c.updThr m f).barcm = c.barcm := by simp only [Crew.updThr]
@[simp] theorem Crew.updThr_pins (c : Crew) (m : Mask) (f : Lane → Thread → Thread) : (c.updThr m f).pins = c.pins := by simp only [Crew.updThr]
@[simp] theorem Crew.updThr_seqOvl (c : Crew) (m : Mask) (f : Lane → Thread → Thread) : (c.updThr m f).seqOvl = c.seqOvl := by simp only [Crew.updThr]
@[simp] theorem Crew.updThr_stall (c : Crew) (m : Mask) (f : Lane → Thread → Thread) : (c.updThr m f).stall = c.stall := by simp only [Crew.updThr]
@[simp] theorem Crew.updThr_active (c : Crew) (m : Mask) (f : Lane → Thread → Thread) : (c.updThr m f).active = c.active := by simp only [Crew.updThr]
@[simp] theorem Crew.updThr_readySince (c : Crew) (m : Mask) (f : Lane → Thread → Thread) : (c.updThr m f).readySince = c.readySince := by simp only [Crew.updThr]
@[simp] theorem Crew.updThr_activeSince (c : Crew) (m : Mask) (f : Lane → Thread → Thread) : (c.updThr m f).activeSince = c.activeSince := by simp only [Crew.updThr]
@[simp] theorem Crew.updThr_redSeq (c : Crew) (m : Mask) (f : Lane → Thread → Thread) : (c.updThr m f).redSeq = c.redSeq := by simp only [Crew.updThr]

/-! State.retire -/

@[simp] theorem State.retire_mem (s : State) (x : Ctx) (ps : List Latch) (i : Bool) (a : Lane → After) : (s.retire x ps i a).mem = s.mem := rfl
@[simp] theorem State.retire_poison (s : State) (x : Ctx) (ps : List Latch) (i : Bool) (a : Lane → After) : (s.retire x ps i a).poison = s.poison := rfl
@[simp] theorem State.retire_gangs (s : State) (x : Ctx) (ps : List Latch) (i : Bool) (a : Lane → After) : (s.retire x ps i a).gangs = s.gangs := rfl
@[simp] theorem State.retire_cores (s : State) (x : Ctx) (ps : List Latch) (i : Bool) (a : Lane → After) : (s.retire x ps i a).cores = s.cores := rfl
@[simp] theorem State.retire_dies (s : State) (x : Ctx) (ps : List Latch) (i : Bool) (a : Lane → After) : (s.retire x ps i a).dies = s.dies := rfl
@[simp] theorem State.retire_homes (s : State) (x : Ctx) (ps : List Latch) (i : Bool) (a : Lane → After) : (s.retire x ps i a).homes = s.homes := rfl
@[simp] theorem State.retire_fabric (s : State) (x : Ctx) (ps : List Latch) (i : Bool) (a : Lane → After) : (s.retire x ps i a).fabric = s.fabric := rfl
@[simp] theorem State.retire_grids (s : State) (x : Ctx) (ps : List Latch) (i : Bool) (a : Lane → After) : (s.retire x ps i a).grids = s.grids := rfl
@[simp] theorem State.retire_queues (s : State) (x : Ctx) (ps : List Latch) (i : Bool) (a : Lane → After) : (s.retire x ps i a).queues = s.queues := rfl
@[simp] theorem State.retire_tables (s : State) (x : Ctx) (ps : List Latch) (i : Bool) (a : Lane → After) : (s.retire x ps i a).tables = s.tables := rfl
@[simp] theorem State.retire_asids (s : State) (x : Ctx) (ps : List Latch) (i : Bool) (a : Lane → After) : (s.retire x ps i a).asids = s.asids := rfl
@[simp] theorem State.retire_windows (s : State) (x : Ctx) (ps : List Latch) (i : Bool) (a : Lane → After) : (s.retire x ps i a).windows = s.windows := rfl
@[simp] theorem State.retire_groups (s : State) (x : Ctx) (ps : List Latch) (i : Bool) (a : Lane → After) : (s.retire x ps i a).groups = s.groups := rfl
@[simp] theorem State.retire_blocks (s : State) (x : Ctx) (ps : List Latch) (i : Bool) (a : Lane → After) : (s.retire x ps i a).blocks = s.blocks := rfl
@[simp] theorem State.retire_outbox (s : State) (x : Ctx) (ps : List Latch) (i : Bool) (a : Lane → After) : (s.retire x ps i a).outbox = s.outbox := rfl
@[simp] theorem State.retire_redHeld (s : State) (x : Ctx) (ps : List Latch) (i : Bool) (a : Lane → After) : (s.retire x ps i a).redHeld = s.redHeld := rfl
@[simp] theorem State.retire_redVia (s : State) (x : Ctx) (ps : List Latch) (i : Bool) (a : Lane → After) : (s.retire x ps i a).redVia = s.redVia := rfl
@[simp] theorem State.retire_redOff (s : State) (x : Ctx) (ps : List Latch) (i : Bool) (a : Lane → After) : (s.retire x ps i a).redOff = s.redOff := rfl
@[simp] theorem State.retire_umnor (s : State) (x : Ctx) (ps : List Latch) (i : Bool) (a : Lane → After) : (s.retire x ps i a).umnor = s.umnor := rfl
@[simp] theorem State.retire_cxl (s : State) (x : Ctx) (ps : List Latch) (i : Bool) (a : Lane → After) : (s.retire x ps i a).cxl = s.cxl := rfl
@[simp] theorem State.retire_ether (s : State) (x : Ctx) (ps : List Latch) (i : Bool) (a : Lane → After) : (s.retire x ps i a).ether = s.ether := rfl
@[simp] theorem State.retire_power (s : State) (x : Ctx) (ps : List Latch) (i : Bool) (a : Lane → After) : (s.retire x ps i a).power = s.power := rfl
@[simp] theorem State.retire_boot (s : State) (x : Ctx) (ps : List Latch) (i : Bool) (a : Lane → After) : (s.retire x ps i a).boot = s.boot := rfl
@[simp] theorem State.retire_incarnations (s : State) (x : Ctx) (ps : List Latch) (i : Bool) (a : Lane → After) : (s.retire x ps i a).incarnations = s.incarnations := rfl
@[simp] theorem State.retire_dropped (s : State) (x : Ctx) (ps : List Latch) (i : Bool) (a : Lane → After) : (s.retire x ps i a).dropped = s.dropped := rfl
@[simp] theorem State.retire_reports (s : State) (x : Ctx) (ps : List Latch) (i : Bool) (a : Lane → After) : (s.retire x ps i a).reports = s.reports := rfl
@[simp] theorem State.retire_log (s : State) (x : Ctx) (ps : List Latch) (i : Bool) (a : Lane → After) : (s.retire x ps i a).log = s.log := rfl
@[simp] theorem State.retire_logLost (s : State) (x : Ctx) (ps : List Latch) (i : Bool) (a : Lane → After) : (s.retire x ps i a).logLost = s.logLost := rfl
@[simp] theorem State.retire_logCap (s : State) (x : Ctx) (ps : List Latch) (i : Bool) (a : Lane → After) : (s.retire x ps i a).logCap = s.logCap := rfl
@[simp] theorem State.retire_discarded (s : State) (x : Ctx) (ps : List Latch) (i : Bool) (a : Lane → After) : (s.retire x ps i a).discarded = s.discarded := rfl
@[simp] theorem State.retire_ctxMaps (s : State) (x : Ctx) (ps : List Latch) (i : Bool) (a : Lane → After) : (s.retire x ps i a).ctxMaps = s.ctxMaps := rfl
@[simp] theorem State.retire_lent (s : State) (x : Ctx) (ps : List Latch) (i : Bool) (a : Lane → After) : (s.retire x ps i a).lent = s.lent := rfl
@[simp] theorem State.retire_ctxBase (s : State) (x : Ctx) (ps : List Latch) (i : Bool) (a : Lane → After) : (s.retire x ps i a).ctxBase = s.ctxBase := rfl
@[simp] theorem State.retire_nextGang (s : State) (x : Ctx) (ps : List Latch) (i : Bool) (a : Lane → After) : (s.retire x ps i a).nextGang = s.nextGang := rfl
@[simp] theorem State.retire_nextGrid (s : State) (x : Ctx) (ps : List Latch) (i : Bool) (a : Lane → After) : (s.retire x ps i a).nextGrid = s.nextGrid := rfl
@[simp] theorem State.retire_memLate (s : State) (x : Ctx) (ps : List Latch) (i : Bool) (a : Lane → After) : (s.retire x ps i a).memLate = s.memLate := rfl
@[simp] theorem State.retire_time (s : State) (x : Ctx) (ps : List Latch) (i : Bool) (a : Lane → After) : (s.retire x ps i a).time = s.time := rfl
@[simp] theorem State.retire_agenda (s : State) (x : Ctx) (ps : List Latch) (i : Bool) (a : Lane → After) : (s.retire x ps i a).agenda = s.agenda := rfl
@[simp] theorem State.retire_rotor (s : State) (x : Ctx) (ps : List Latch) (i : Bool) (a : Lane → After) : (s.retire x ps i a).rotor = s.rotor := rfl
@[simp] theorem State.retire_fresh (s : State) (x : Ctx) (ps : List Latch) (i : Bool) (a : Lane → After) : (s.retire x ps i a).fresh = s.fresh := rfl
@[simp] theorem State.retire_cur (s : State) (x : Ctx) (ps : List Latch) (i : Bool) (a : Lane → After) : (s.retire x ps i a).cur = s.cur := rfl

/-! State.finish -/

@[simp] theorem State.finish_mem (s : State) (x : Ctx) : (s.finish x).mem = s.mem := rfl
@[simp] theorem State.finish_poison (s : State) (x : Ctx) : (s.finish x).poison = s.poison := rfl
@[simp] theorem State.finish_gangs (s : State) (x : Ctx) : (s.finish x).gangs = s.gangs := rfl
@[simp] theorem State.finish_cores (s : State) (x : Ctx) : (s.finish x).cores = s.cores := rfl
@[simp] theorem State.finish_dies (s : State) (x : Ctx) : (s.finish x).dies = s.dies := rfl
@[simp] theorem State.finish_homes (s : State) (x : Ctx) : (s.finish x).homes = s.homes := rfl
@[simp] theorem State.finish_fabric (s : State) (x : Ctx) : (s.finish x).fabric = s.fabric := rfl
@[simp] theorem State.finish_grids (s : State) (x : Ctx) : (s.finish x).grids = s.grids := rfl
@[simp] theorem State.finish_queues (s : State) (x : Ctx) : (s.finish x).queues = s.queues := rfl
@[simp] theorem State.finish_tables (s : State) (x : Ctx) : (s.finish x).tables = s.tables := rfl
@[simp] theorem State.finish_asids (s : State) (x : Ctx) : (s.finish x).asids = s.asids := rfl
@[simp] theorem State.finish_windows (s : State) (x : Ctx) : (s.finish x).windows = s.windows := rfl
@[simp] theorem State.finish_groups (s : State) (x : Ctx) : (s.finish x).groups = s.groups := rfl
@[simp] theorem State.finish_blocks (s : State) (x : Ctx) : (s.finish x).blocks = s.blocks := rfl
@[simp] theorem State.finish_outbox (s : State) (x : Ctx) : (s.finish x).outbox = s.outbox := rfl
@[simp] theorem State.finish_redHeld (s : State) (x : Ctx) : (s.finish x).redHeld = s.redHeld := rfl
@[simp] theorem State.finish_redVia (s : State) (x : Ctx) : (s.finish x).redVia = s.redVia := rfl
@[simp] theorem State.finish_redOff (s : State) (x : Ctx) : (s.finish x).redOff = s.redOff := rfl
@[simp] theorem State.finish_umnor (s : State) (x : Ctx) : (s.finish x).umnor = s.umnor := rfl
@[simp] theorem State.finish_cxl (s : State) (x : Ctx) : (s.finish x).cxl = s.cxl := rfl
@[simp] theorem State.finish_ether (s : State) (x : Ctx) : (s.finish x).ether = s.ether := rfl
@[simp] theorem State.finish_power (s : State) (x : Ctx) : (s.finish x).power = s.power := rfl
@[simp] theorem State.finish_boot (s : State) (x : Ctx) : (s.finish x).boot = s.boot := rfl
@[simp] theorem State.finish_incarnations (s : State) (x : Ctx) : (s.finish x).incarnations = s.incarnations := rfl
@[simp] theorem State.finish_dropped (s : State) (x : Ctx) : (s.finish x).dropped = s.dropped := rfl
@[simp] theorem State.finish_reports (s : State) (x : Ctx) : (s.finish x).reports = s.reports := rfl
@[simp] theorem State.finish_log (s : State) (x : Ctx) : (s.finish x).log = s.log := rfl
@[simp] theorem State.finish_logLost (s : State) (x : Ctx) : (s.finish x).logLost = s.logLost := rfl
@[simp] theorem State.finish_logCap (s : State) (x : Ctx) : (s.finish x).logCap = s.logCap := rfl
@[simp] theorem State.finish_discarded (s : State) (x : Ctx) : (s.finish x).discarded = s.discarded := rfl
@[simp] theorem State.finish_ctxMaps (s : State) (x : Ctx) : (s.finish x).ctxMaps = s.ctxMaps := rfl
@[simp] theorem State.finish_lent (s : State) (x : Ctx) : (s.finish x).lent = s.lent := rfl
@[simp] theorem State.finish_ctxBase (s : State) (x : Ctx) : (s.finish x).ctxBase = s.ctxBase := rfl
@[simp] theorem State.finish_nextGang (s : State) (x : Ctx) : (s.finish x).nextGang = s.nextGang := rfl
@[simp] theorem State.finish_nextGrid (s : State) (x : Ctx) : (s.finish x).nextGrid = s.nextGrid := rfl
@[simp] theorem State.finish_memLate (s : State) (x : Ctx) : (s.finish x).memLate = s.memLate := rfl
@[simp] theorem State.finish_time (s : State) (x : Ctx) : (s.finish x).time = s.time := rfl
@[simp] theorem State.finish_agenda (s : State) (x : Ctx) : (s.finish x).agenda = s.agenda := rfl
@[simp] theorem State.finish_rotor (s : State) (x : Ctx) : (s.finish x).rotor = s.rotor := rfl
@[simp] theorem State.finish_fresh (s : State) (x : Ctx) : (s.finish x).fresh = s.fresh := rfl
@[simp] theorem State.finish_cur (s : State) (x : Ctx) : (s.finish x).cur = s.cur := rfl

/-! State.finishReg -/

@[simp] theorem State.finishReg_mem (s : State) (x : Ctx) (d : BitVec 6) (v : Lanes Word) (t : Tag) : (s.finishReg x d v t).mem = s.mem := rfl
@[simp] theorem State.finishReg_poison (s : State) (x : Ctx) (d : BitVec 6) (v : Lanes Word) (t : Tag) : (s.finishReg x d v t).poison = s.poison := rfl
@[simp] theorem State.finishReg_gangs (s : State) (x : Ctx) (d : BitVec 6) (v : Lanes Word) (t : Tag) : (s.finishReg x d v t).gangs = s.gangs := rfl
@[simp] theorem State.finishReg_cores (s : State) (x : Ctx) (d : BitVec 6) (v : Lanes Word) (t : Tag) : (s.finishReg x d v t).cores = s.cores := rfl
@[simp] theorem State.finishReg_dies (s : State) (x : Ctx) (d : BitVec 6) (v : Lanes Word) (t : Tag) : (s.finishReg x d v t).dies = s.dies := rfl
@[simp] theorem State.finishReg_homes (s : State) (x : Ctx) (d : BitVec 6) (v : Lanes Word) (t : Tag) : (s.finishReg x d v t).homes = s.homes := rfl
@[simp] theorem State.finishReg_fabric (s : State) (x : Ctx) (d : BitVec 6) (v : Lanes Word) (t : Tag) : (s.finishReg x d v t).fabric = s.fabric := rfl
@[simp] theorem State.finishReg_grids (s : State) (x : Ctx) (d : BitVec 6) (v : Lanes Word) (t : Tag) : (s.finishReg x d v t).grids = s.grids := rfl
@[simp] theorem State.finishReg_queues (s : State) (x : Ctx) (d : BitVec 6) (v : Lanes Word) (t : Tag) : (s.finishReg x d v t).queues = s.queues := rfl
@[simp] theorem State.finishReg_tables (s : State) (x : Ctx) (d : BitVec 6) (v : Lanes Word) (t : Tag) : (s.finishReg x d v t).tables = s.tables := rfl
@[simp] theorem State.finishReg_asids (s : State) (x : Ctx) (d : BitVec 6) (v : Lanes Word) (t : Tag) : (s.finishReg x d v t).asids = s.asids := rfl
@[simp] theorem State.finishReg_windows (s : State) (x : Ctx) (d : BitVec 6) (v : Lanes Word) (t : Tag) : (s.finishReg x d v t).windows = s.windows := rfl
@[simp] theorem State.finishReg_groups (s : State) (x : Ctx) (d : BitVec 6) (v : Lanes Word) (t : Tag) : (s.finishReg x d v t).groups = s.groups := rfl
@[simp] theorem State.finishReg_blocks (s : State) (x : Ctx) (d : BitVec 6) (v : Lanes Word) (t : Tag) : (s.finishReg x d v t).blocks = s.blocks := rfl
@[simp] theorem State.finishReg_outbox (s : State) (x : Ctx) (d : BitVec 6) (v : Lanes Word) (t : Tag) : (s.finishReg x d v t).outbox = s.outbox := rfl
@[simp] theorem State.finishReg_redHeld (s : State) (x : Ctx) (d : BitVec 6) (v : Lanes Word) (t : Tag) : (s.finishReg x d v t).redHeld = s.redHeld := rfl
@[simp] theorem State.finishReg_redVia (s : State) (x : Ctx) (d : BitVec 6) (v : Lanes Word) (t : Tag) : (s.finishReg x d v t).redVia = s.redVia := rfl
@[simp] theorem State.finishReg_redOff (s : State) (x : Ctx) (d : BitVec 6) (v : Lanes Word) (t : Tag) : (s.finishReg x d v t).redOff = s.redOff := rfl
@[simp] theorem State.finishReg_umnor (s : State) (x : Ctx) (d : BitVec 6) (v : Lanes Word) (t : Tag) : (s.finishReg x d v t).umnor = s.umnor := rfl
@[simp] theorem State.finishReg_cxl (s : State) (x : Ctx) (d : BitVec 6) (v : Lanes Word) (t : Tag) : (s.finishReg x d v t).cxl = s.cxl := rfl
@[simp] theorem State.finishReg_ether (s : State) (x : Ctx) (d : BitVec 6) (v : Lanes Word) (t : Tag) : (s.finishReg x d v t).ether = s.ether := rfl
@[simp] theorem State.finishReg_power (s : State) (x : Ctx) (d : BitVec 6) (v : Lanes Word) (t : Tag) : (s.finishReg x d v t).power = s.power := rfl
@[simp] theorem State.finishReg_boot (s : State) (x : Ctx) (d : BitVec 6) (v : Lanes Word) (t : Tag) : (s.finishReg x d v t).boot = s.boot := rfl
@[simp] theorem State.finishReg_incarnations (s : State) (x : Ctx) (d : BitVec 6) (v : Lanes Word) (t : Tag) : (s.finishReg x d v t).incarnations = s.incarnations := rfl
@[simp] theorem State.finishReg_dropped (s : State) (x : Ctx) (d : BitVec 6) (v : Lanes Word) (t : Tag) : (s.finishReg x d v t).dropped = s.dropped := rfl
@[simp] theorem State.finishReg_reports (s : State) (x : Ctx) (d : BitVec 6) (v : Lanes Word) (t : Tag) : (s.finishReg x d v t).reports = s.reports := rfl
@[simp] theorem State.finishReg_log (s : State) (x : Ctx) (d : BitVec 6) (v : Lanes Word) (t : Tag) : (s.finishReg x d v t).log = s.log := rfl
@[simp] theorem State.finishReg_logLost (s : State) (x : Ctx) (d : BitVec 6) (v : Lanes Word) (t : Tag) : (s.finishReg x d v t).logLost = s.logLost := rfl
@[simp] theorem State.finishReg_logCap (s : State) (x : Ctx) (d : BitVec 6) (v : Lanes Word) (t : Tag) : (s.finishReg x d v t).logCap = s.logCap := rfl
@[simp] theorem State.finishReg_discarded (s : State) (x : Ctx) (d : BitVec 6) (v : Lanes Word) (t : Tag) : (s.finishReg x d v t).discarded = s.discarded := rfl
@[simp] theorem State.finishReg_ctxMaps (s : State) (x : Ctx) (d : BitVec 6) (v : Lanes Word) (t : Tag) : (s.finishReg x d v t).ctxMaps = s.ctxMaps := rfl
@[simp] theorem State.finishReg_lent (s : State) (x : Ctx) (d : BitVec 6) (v : Lanes Word) (t : Tag) : (s.finishReg x d v t).lent = s.lent := rfl
@[simp] theorem State.finishReg_ctxBase (s : State) (x : Ctx) (d : BitVec 6) (v : Lanes Word) (t : Tag) : (s.finishReg x d v t).ctxBase = s.ctxBase := rfl
@[simp] theorem State.finishReg_nextGang (s : State) (x : Ctx) (d : BitVec 6) (v : Lanes Word) (t : Tag) : (s.finishReg x d v t).nextGang = s.nextGang := rfl
@[simp] theorem State.finishReg_nextGrid (s : State) (x : Ctx) (d : BitVec 6) (v : Lanes Word) (t : Tag) : (s.finishReg x d v t).nextGrid = s.nextGrid := rfl
@[simp] theorem State.finishReg_memLate (s : State) (x : Ctx) (d : BitVec 6) (v : Lanes Word) (t : Tag) : (s.finishReg x d v t).memLate = s.memLate := rfl
@[simp] theorem State.finishReg_time (s : State) (x : Ctx) (d : BitVec 6) (v : Lanes Word) (t : Tag) : (s.finishReg x d v t).time = s.time := rfl
@[simp] theorem State.finishReg_agenda (s : State) (x : Ctx) (d : BitVec 6) (v : Lanes Word) (t : Tag) : (s.finishReg x d v t).agenda = s.agenda := rfl
@[simp] theorem State.finishReg_rotor (s : State) (x : Ctx) (d : BitVec 6) (v : Lanes Word) (t : Tag) : (s.finishReg x d v t).rotor = s.rotor := rfl
@[simp] theorem State.finishReg_fresh (s : State) (x : Ctx) (d : BitVec 6) (v : Lanes Word) (t : Tag) : (s.finishReg x d v t).fresh = s.fresh := rfl
@[simp] theorem State.finishReg_cur (s : State) (x : Ctx) (d : BitVec 6) (v : Lanes Word) (t : Tag) : (s.finishReg x d v t).cur = s.cur := rfl

/-! State.finishPair -/

@[simp] theorem State.finishPair_mem (s : State) (x : Ctx) (d : BitVec 6) (v w : Lanes Word) (t : Tag) : (s.finishPair x d v w t).mem = s.mem := rfl
@[simp] theorem State.finishPair_poison (s : State) (x : Ctx) (d : BitVec 6) (v w : Lanes Word) (t : Tag) : (s.finishPair x d v w t).poison = s.poison := rfl
@[simp] theorem State.finishPair_gangs (s : State) (x : Ctx) (d : BitVec 6) (v w : Lanes Word) (t : Tag) : (s.finishPair x d v w t).gangs = s.gangs := rfl
@[simp] theorem State.finishPair_cores (s : State) (x : Ctx) (d : BitVec 6) (v w : Lanes Word) (t : Tag) : (s.finishPair x d v w t).cores = s.cores := rfl
@[simp] theorem State.finishPair_dies (s : State) (x : Ctx) (d : BitVec 6) (v w : Lanes Word) (t : Tag) : (s.finishPair x d v w t).dies = s.dies := rfl
@[simp] theorem State.finishPair_homes (s : State) (x : Ctx) (d : BitVec 6) (v w : Lanes Word) (t : Tag) : (s.finishPair x d v w t).homes = s.homes := rfl
@[simp] theorem State.finishPair_fabric (s : State) (x : Ctx) (d : BitVec 6) (v w : Lanes Word) (t : Tag) : (s.finishPair x d v w t).fabric = s.fabric := rfl
@[simp] theorem State.finishPair_grids (s : State) (x : Ctx) (d : BitVec 6) (v w : Lanes Word) (t : Tag) : (s.finishPair x d v w t).grids = s.grids := rfl
@[simp] theorem State.finishPair_queues (s : State) (x : Ctx) (d : BitVec 6) (v w : Lanes Word) (t : Tag) : (s.finishPair x d v w t).queues = s.queues := rfl
@[simp] theorem State.finishPair_tables (s : State) (x : Ctx) (d : BitVec 6) (v w : Lanes Word) (t : Tag) : (s.finishPair x d v w t).tables = s.tables := rfl
@[simp] theorem State.finishPair_asids (s : State) (x : Ctx) (d : BitVec 6) (v w : Lanes Word) (t : Tag) : (s.finishPair x d v w t).asids = s.asids := rfl
@[simp] theorem State.finishPair_windows (s : State) (x : Ctx) (d : BitVec 6) (v w : Lanes Word) (t : Tag) : (s.finishPair x d v w t).windows = s.windows := rfl
@[simp] theorem State.finishPair_groups (s : State) (x : Ctx) (d : BitVec 6) (v w : Lanes Word) (t : Tag) : (s.finishPair x d v w t).groups = s.groups := rfl
@[simp] theorem State.finishPair_blocks (s : State) (x : Ctx) (d : BitVec 6) (v w : Lanes Word) (t : Tag) : (s.finishPair x d v w t).blocks = s.blocks := rfl
@[simp] theorem State.finishPair_outbox (s : State) (x : Ctx) (d : BitVec 6) (v w : Lanes Word) (t : Tag) : (s.finishPair x d v w t).outbox = s.outbox := rfl
@[simp] theorem State.finishPair_redHeld (s : State) (x : Ctx) (d : BitVec 6) (v w : Lanes Word) (t : Tag) : (s.finishPair x d v w t).redHeld = s.redHeld := rfl
@[simp] theorem State.finishPair_redVia (s : State) (x : Ctx) (d : BitVec 6) (v w : Lanes Word) (t : Tag) : (s.finishPair x d v w t).redVia = s.redVia := rfl
@[simp] theorem State.finishPair_redOff (s : State) (x : Ctx) (d : BitVec 6) (v w : Lanes Word) (t : Tag) : (s.finishPair x d v w t).redOff = s.redOff := rfl
@[simp] theorem State.finishPair_umnor (s : State) (x : Ctx) (d : BitVec 6) (v w : Lanes Word) (t : Tag) : (s.finishPair x d v w t).umnor = s.umnor := rfl
@[simp] theorem State.finishPair_cxl (s : State) (x : Ctx) (d : BitVec 6) (v w : Lanes Word) (t : Tag) : (s.finishPair x d v w t).cxl = s.cxl := rfl
@[simp] theorem State.finishPair_ether (s : State) (x : Ctx) (d : BitVec 6) (v w : Lanes Word) (t : Tag) : (s.finishPair x d v w t).ether = s.ether := rfl
@[simp] theorem State.finishPair_power (s : State) (x : Ctx) (d : BitVec 6) (v w : Lanes Word) (t : Tag) : (s.finishPair x d v w t).power = s.power := rfl
@[simp] theorem State.finishPair_boot (s : State) (x : Ctx) (d : BitVec 6) (v w : Lanes Word) (t : Tag) : (s.finishPair x d v w t).boot = s.boot := rfl
@[simp] theorem State.finishPair_incarnations (s : State) (x : Ctx) (d : BitVec 6) (v w : Lanes Word) (t : Tag) : (s.finishPair x d v w t).incarnations = s.incarnations := rfl
@[simp] theorem State.finishPair_dropped (s : State) (x : Ctx) (d : BitVec 6) (v w : Lanes Word) (t : Tag) : (s.finishPair x d v w t).dropped = s.dropped := rfl
@[simp] theorem State.finishPair_reports (s : State) (x : Ctx) (d : BitVec 6) (v w : Lanes Word) (t : Tag) : (s.finishPair x d v w t).reports = s.reports := rfl
@[simp] theorem State.finishPair_log (s : State) (x : Ctx) (d : BitVec 6) (v w : Lanes Word) (t : Tag) : (s.finishPair x d v w t).log = s.log := rfl
@[simp] theorem State.finishPair_logLost (s : State) (x : Ctx) (d : BitVec 6) (v w : Lanes Word) (t : Tag) : (s.finishPair x d v w t).logLost = s.logLost := rfl
@[simp] theorem State.finishPair_logCap (s : State) (x : Ctx) (d : BitVec 6) (v w : Lanes Word) (t : Tag) : (s.finishPair x d v w t).logCap = s.logCap := rfl
@[simp] theorem State.finishPair_discarded (s : State) (x : Ctx) (d : BitVec 6) (v w : Lanes Word) (t : Tag) : (s.finishPair x d v w t).discarded = s.discarded := rfl
@[simp] theorem State.finishPair_ctxMaps (s : State) (x : Ctx) (d : BitVec 6) (v w : Lanes Word) (t : Tag) : (s.finishPair x d v w t).ctxMaps = s.ctxMaps := rfl
@[simp] theorem State.finishPair_lent (s : State) (x : Ctx) (d : BitVec 6) (v w : Lanes Word) (t : Tag) : (s.finishPair x d v w t).lent = s.lent := rfl
@[simp] theorem State.finishPair_ctxBase (s : State) (x : Ctx) (d : BitVec 6) (v w : Lanes Word) (t : Tag) : (s.finishPair x d v w t).ctxBase = s.ctxBase := rfl
@[simp] theorem State.finishPair_nextGang (s : State) (x : Ctx) (d : BitVec 6) (v w : Lanes Word) (t : Tag) : (s.finishPair x d v w t).nextGang = s.nextGang := rfl
@[simp] theorem State.finishPair_nextGrid (s : State) (x : Ctx) (d : BitVec 6) (v w : Lanes Word) (t : Tag) : (s.finishPair x d v w t).nextGrid = s.nextGrid := rfl
@[simp] theorem State.finishPair_memLate (s : State) (x : Ctx) (d : BitVec 6) (v w : Lanes Word) (t : Tag) : (s.finishPair x d v w t).memLate = s.memLate := rfl
@[simp] theorem State.finishPair_time (s : State) (x : Ctx) (d : BitVec 6) (v w : Lanes Word) (t : Tag) : (s.finishPair x d v w t).time = s.time := rfl
@[simp] theorem State.finishPair_agenda (s : State) (x : Ctx) (d : BitVec 6) (v w : Lanes Word) (t : Tag) : (s.finishPair x d v w t).agenda = s.agenda := rfl
@[simp] theorem State.finishPair_rotor (s : State) (x : Ctx) (d : BitVec 6) (v w : Lanes Word) (t : Tag) : (s.finishPair x d v w t).rotor = s.rotor := rfl
@[simp] theorem State.finishPair_fresh (s : State) (x : Ctx) (d : BitVec 6) (v w : Lanes Word) (t : Tag) : (s.finishPair x d v w t).fresh = s.fresh := rfl
@[simp] theorem State.finishPair_cur (s : State) (x : Ctx) (d : BitVec 6) (v w : Lanes Word) (t : Tag) : (s.finishPair x d v w t).cur = s.cur := rfl

/-! State.finishPred -/

@[simp] theorem State.finishPred_mem (s : State) (x : Ctx) (p q : BitVec 3) (v : Mask) : (s.finishPred x p q v).mem = s.mem := rfl
@[simp] theorem State.finishPred_poison (s : State) (x : Ctx) (p q : BitVec 3) (v : Mask) : (s.finishPred x p q v).poison = s.poison := rfl
@[simp] theorem State.finishPred_gangs (s : State) (x : Ctx) (p q : BitVec 3) (v : Mask) : (s.finishPred x p q v).gangs = s.gangs := rfl
@[simp] theorem State.finishPred_cores (s : State) (x : Ctx) (p q : BitVec 3) (v : Mask) : (s.finishPred x p q v).cores = s.cores := rfl
@[simp] theorem State.finishPred_dies (s : State) (x : Ctx) (p q : BitVec 3) (v : Mask) : (s.finishPred x p q v).dies = s.dies := rfl
@[simp] theorem State.finishPred_homes (s : State) (x : Ctx) (p q : BitVec 3) (v : Mask) : (s.finishPred x p q v).homes = s.homes := rfl
@[simp] theorem State.finishPred_fabric (s : State) (x : Ctx) (p q : BitVec 3) (v : Mask) : (s.finishPred x p q v).fabric = s.fabric := rfl
@[simp] theorem State.finishPred_grids (s : State) (x : Ctx) (p q : BitVec 3) (v : Mask) : (s.finishPred x p q v).grids = s.grids := rfl
@[simp] theorem State.finishPred_queues (s : State) (x : Ctx) (p q : BitVec 3) (v : Mask) : (s.finishPred x p q v).queues = s.queues := rfl
@[simp] theorem State.finishPred_tables (s : State) (x : Ctx) (p q : BitVec 3) (v : Mask) : (s.finishPred x p q v).tables = s.tables := rfl
@[simp] theorem State.finishPred_asids (s : State) (x : Ctx) (p q : BitVec 3) (v : Mask) : (s.finishPred x p q v).asids = s.asids := rfl
@[simp] theorem State.finishPred_windows (s : State) (x : Ctx) (p q : BitVec 3) (v : Mask) : (s.finishPred x p q v).windows = s.windows := rfl
@[simp] theorem State.finishPred_groups (s : State) (x : Ctx) (p q : BitVec 3) (v : Mask) : (s.finishPred x p q v).groups = s.groups := rfl
@[simp] theorem State.finishPred_blocks (s : State) (x : Ctx) (p q : BitVec 3) (v : Mask) : (s.finishPred x p q v).blocks = s.blocks := rfl
@[simp] theorem State.finishPred_outbox (s : State) (x : Ctx) (p q : BitVec 3) (v : Mask) : (s.finishPred x p q v).outbox = s.outbox := rfl
@[simp] theorem State.finishPred_redHeld (s : State) (x : Ctx) (p q : BitVec 3) (v : Mask) : (s.finishPred x p q v).redHeld = s.redHeld := rfl
@[simp] theorem State.finishPred_redVia (s : State) (x : Ctx) (p q : BitVec 3) (v : Mask) : (s.finishPred x p q v).redVia = s.redVia := rfl
@[simp] theorem State.finishPred_redOff (s : State) (x : Ctx) (p q : BitVec 3) (v : Mask) : (s.finishPred x p q v).redOff = s.redOff := rfl
@[simp] theorem State.finishPred_umnor (s : State) (x : Ctx) (p q : BitVec 3) (v : Mask) : (s.finishPred x p q v).umnor = s.umnor := rfl
@[simp] theorem State.finishPred_cxl (s : State) (x : Ctx) (p q : BitVec 3) (v : Mask) : (s.finishPred x p q v).cxl = s.cxl := rfl
@[simp] theorem State.finishPred_ether (s : State) (x : Ctx) (p q : BitVec 3) (v : Mask) : (s.finishPred x p q v).ether = s.ether := rfl
@[simp] theorem State.finishPred_power (s : State) (x : Ctx) (p q : BitVec 3) (v : Mask) : (s.finishPred x p q v).power = s.power := rfl
@[simp] theorem State.finishPred_boot (s : State) (x : Ctx) (p q : BitVec 3) (v : Mask) : (s.finishPred x p q v).boot = s.boot := rfl
@[simp] theorem State.finishPred_incarnations (s : State) (x : Ctx) (p q : BitVec 3) (v : Mask) : (s.finishPred x p q v).incarnations = s.incarnations := rfl
@[simp] theorem State.finishPred_dropped (s : State) (x : Ctx) (p q : BitVec 3) (v : Mask) : (s.finishPred x p q v).dropped = s.dropped := rfl
@[simp] theorem State.finishPred_reports (s : State) (x : Ctx) (p q : BitVec 3) (v : Mask) : (s.finishPred x p q v).reports = s.reports := rfl
@[simp] theorem State.finishPred_log (s : State) (x : Ctx) (p q : BitVec 3) (v : Mask) : (s.finishPred x p q v).log = s.log := rfl
@[simp] theorem State.finishPred_logLost (s : State) (x : Ctx) (p q : BitVec 3) (v : Mask) : (s.finishPred x p q v).logLost = s.logLost := rfl
@[simp] theorem State.finishPred_logCap (s : State) (x : Ctx) (p q : BitVec 3) (v : Mask) : (s.finishPred x p q v).logCap = s.logCap := rfl
@[simp] theorem State.finishPred_discarded (s : State) (x : Ctx) (p q : BitVec 3) (v : Mask) : (s.finishPred x p q v).discarded = s.discarded := rfl
@[simp] theorem State.finishPred_ctxMaps (s : State) (x : Ctx) (p q : BitVec 3) (v : Mask) : (s.finishPred x p q v).ctxMaps = s.ctxMaps := rfl
@[simp] theorem State.finishPred_lent (s : State) (x : Ctx) (p q : BitVec 3) (v : Mask) : (s.finishPred x p q v).lent = s.lent := rfl
@[simp] theorem State.finishPred_ctxBase (s : State) (x : Ctx) (p q : BitVec 3) (v : Mask) : (s.finishPred x p q v).ctxBase = s.ctxBase := rfl
@[simp] theorem State.finishPred_nextGang (s : State) (x : Ctx) (p q : BitVec 3) (v : Mask) : (s.finishPred x p q v).nextGang = s.nextGang := rfl
@[simp] theorem State.finishPred_nextGrid (s : State) (x : Ctx) (p q : BitVec 3) (v : Mask) : (s.finishPred x p q v).nextGrid = s.nextGrid := rfl
@[simp] theorem State.finishPred_memLate (s : State) (x : Ctx) (p q : BitVec 3) (v : Mask) : (s.finishPred x p q v).memLate = s.memLate := rfl
@[simp] theorem State.finishPred_time (s : State) (x : Ctx) (p q : BitVec 3) (v : Mask) : (s.finishPred x p q v).time = s.time := rfl
@[simp] theorem State.finishPred_agenda (s : State) (x : Ctx) (p q : BitVec 3) (v : Mask) : (s.finishPred x p q v).agenda = s.agenda := rfl
@[simp] theorem State.finishPred_rotor (s : State) (x : Ctx) (p q : BitVec 3) (v : Mask) : (s.finishPred x p q v).rotor = s.rotor := rfl
@[simp] theorem State.finishPred_fresh (s : State) (x : Ctx) (p q : BitVec 3) (v : Mask) : (s.finishPred x p q v).fresh = s.fresh := rfl
@[simp] theorem State.finishPred_cur (s : State) (x : Ctx) (p q : BitVec 3) (v : Mask) : (s.finishPred x p q v).cur = s.cur := rfl

end Sys2Proof.Machine
end

