-- ==== Sys2Proof/Laws/Word.lean ====
section
/-!
SUPPORT. Lanes, lane masks and sparse maps: what is read after what is written.
-/
namespace Sys2Proof

@[simp] theorem at_lanes (f : Lane → α) (l : Lane) : (lanes f).at l = f l := by
  simp only [lanes, Lanes.at, Vector.getElem_ofFn]

@[simp] theorem at_allLanes (x : α) (l : Lane) : (allLanes x).at l = x := by simp [allLanes]

theorem lanes_ext {v w : Lanes α} (h : ∀ l, v.at l = w.at l) : v = w := Vector.ext fun i hi => h ⟨i, hi⟩

@[simp] theorem lanes_at (v : Lanes α) : lanes v.at = v := lanes_ext fun l => by simp

theorem maskOf_foldl (p : Lane → Bool) (k : Nat) (hk : k < 32) (ls : List Lane) (m : Mask) :
    (ls.foldl (fun m l => if p l then m ||| (1#32 <<< l.val) else m) m).getLsbD k =
      (m.getLsbD k || ls.any fun l => p l && l.val == k) := by
  induction ls generalizing m with
  | nil => simp
  | cons a ls ih =>
    rw [List.foldl_cons, ih, List.any_cons]
    cases hp : p a
    · simp
    · have h1 : (1#32 <<< a.val).getLsbD k = (a.val == k) := by
        have ha := a.isLt
        simp only [BitVec.getLsbD_shiftLeft, BitVec.getLsbD_one]
        by_cases hak : a.val = k
        · subst hak; simp [hk]
        · simp only [show (a.val == k) = false from by simp [hak], Bool.and_eq_false_iff]
          by_cases hlt : k < a.val
          · simp [hlt]
          · right; simp; omega
      simp only [if_true, BitVec.getLsbD_or, h1, Bool.true_and, Bool.or_assoc]

@[simp] theorem inMask_maskOf (p : Lane → Bool) (l : Lane) : inMask (maskOf p) l = p l := by
  rw [inMask, maskOf, maskOf_foldl p l.val l.isLt]
  simp only [BitVec.getLsbD_zero, Bool.false_or]
  cases h : p l
  · rw [List.any_eq_false]
    intro a _ ha
    simp only [Bool.and_eq_true, beq_iff_eq] at ha
    rw [Fin.ext ha.2, h] at ha
    simp at ha
  · exact List.any_eq_true.2 ⟨l, List.mem_finRange l, by simp [h]⟩

theorem mask_ext {a b : Mask} (h : ∀ l : Lane, inMask a l = inMask b l) : a = b :=
  BitVec.eq_of_getLsbD_eq fun i hi => h ⟨i, hi⟩

theorem maskOf_inMask (m : Mask) : maskOf (inMask m) = m := mask_ext fun l => by simp

@[simp] theorem inMask_zero (l : Lane) : inMask 0#32 l = false := by simp [inMask]
@[simp] theorem inMask_full (l : Lane) : inMask fullMask l = true := by
  rw [inMask, fullMask, show (0xFFFFFFFF#32) = BitVec.allOnes 32 from rfl, BitVec.getLsbD_allOnes]
  simp [l.isLt]
@[simp] theorem inMask_ones (l : Lane) : inMask 4294967295#32 l = true := inMask_full l
@[simp] theorem inMask_and (a b : Mask) (l : Lane) : inMask (a &&& b) l = (inMask a l && inMask b l) := by simp [inMask]
@[simp] theorem inMask_or (a b : Mask) (l : Lane) : inMask (a ||| b) l = (inMask a l || inMask b l) := by simp [inMask]
@[simp] theorem inMask_not (a : Mask) (l : Lane) : inMask (~~~a) l = !inMask a l := by simp [inMask, l.isLt]

theorem mask_eq_zero {m : Mask} : m = 0 ↔ ∀ l, inMask m l = false :=
  ⟨fun h l => by simp [h], fun h => mask_ext fun l => by simp [h]⟩

@[simp] theorem mem_maskLanes {m : Mask} {l : Lane} : l ∈ maskLanes m ↔ inMask m l = true := by
  simp [maskLanes, laneList]

@[simp] theorem mem_laneList (l : Lane) : l ∈ laneList := List.mem_finRange l

@[simp] theorem maskLanes_zero : maskLanes 0#32 = [] := by simp [maskLanes]

theorem lowest_inMask {m : Mask} {l : Lane} (h : lowest m = some l) : inMask m l = true := List.find?_some h

theorem lowest_isSome {m : Mask} : (lowest m).isSome ↔ m ≠ 0 := by
  constructor
  · intro h hm
    obtain ⟨l, hl⟩ := Option.isSome_iff_exists.1 h
    have := lowest_inMask hl
    simp [hm] at this
  · intro h
    rw [Option.isSome_iff_ne_none]
    intro hn
    have := List.find?_eq_none.1 hn
    exact h (mask_eq_zero.2 fun l => by simpa using this l (mem_laneList l))

/-- The lowest lane of a mask lies below every other lane of it. -/
theorem lowest_le {m : Mask} {l k : Lane} (h : lowest m = some l) (hk : inMask m k = true) : l ≤ k := by
  obtain ⟨_, as, bs, hl, hno⟩ := List.find?_eq_some_iff_append.1 h
  by_cases hlt : k < l
  · have hmem : k ∈ laneList := mem_laneList k
    have hsorted : laneList.Pairwise (· < ·) := List.pairwise_lt_finRange 32
    rw [hl] at hmem hsorted
    rcases List.mem_append.1 hmem with hka | hkb
    · have := hno k hka; simp [hk] at this
    · rcases List.mem_cons.1 hkb with rfl | hkb
      · exact Nat.le_refl _
      · have := List.rel_of_pairwise_cons (List.pairwise_append.1 hsorted).2.1 hkb
        exact Nat.le_of_lt this
  · exact Nat.le_of_not_lt hlt

namespace Machine

/-! ## Sparse maps -/

theorem Store.get?_set_self (m : Store α) (n : Nat) (x : α) : Store.get? (Store.set m n x) n = some x := by
  induction m with
  | nil => simp [Store.set, Store.get?]
  | cons p m ih =>
    obtain ⟨k, y⟩ := p
    by_cases h1 : k = n
    · simp [Store.set, Store.get?, h1]
    · by_cases h2 : n < k
      · simp [Store.set, Store.get?, h1, h2]
      · simp [Store.set, Store.get?, h1, h2, ih]

theorem Store.get?_set_other (m : Store α) {n k : Nat} (x : α) (h : k ≠ n) : Store.get? (Store.set m n x) k = Store.get? m k := by
  induction m with
  | nil => simp [Store.set, Store.get?, Ne.symm h]
  | cons p m ih =>
    obtain ⟨j, y⟩ := p
    by_cases h1 : j = n
    · subst h1; simp [Store.set, Store.get?, Ne.symm h]
    · by_cases h2 : n < j
      · simp [Store.set, Store.get?, h1, h2, Ne.symm h]
      · by_cases h3 : j = k
        · subst h3; simp [Store.set, Store.get?, h1, h2]
        · simp [Store.set, Store.get?, h1, h2, h3, ih]

theorem Store.getD_set_self (m : Store α) (n : Nat) (x d : α) : Store.getD (Store.set m n x) n d = x := by
  simp [Store.getD, Store.get?_set_self]

theorem Store.getD_set_other (m : Store α) {n k : Nat} (x d : α) (h : k ≠ n) :
    Store.getD (Store.set m n x) k d = Store.getD m k d := by
  simp [Store.getD, Store.get?_set_other m x h]

theorem Store.mem_set {m : Store α} {n : Nat} {x : α} {p : Nat × α} (h : p ∈ Store.set m n x) : p ∈ m ∨ p = (n, x) := by
  induction m with
  | nil => simp [Store.set] at h; exact .inr h
  | cons q m ih =>
    obtain ⟨k, y⟩ := q
    by_cases h1 : k = n
    · simp only [Store.set, h1, if_true, List.mem_cons] at h
      rcases h with h | h
      · exact .inr h
      · exact .inl (List.mem_cons_of_mem _ h)
    · by_cases h2 : n < k
      · simp only [Store.set, h1, h2, if_true, if_false, List.mem_cons] at h
        rcases h with h | h | h
        · exact .inr h
        · exact .inl (by simp [h])
        · exact .inl (List.mem_cons_of_mem _ h)
      · simp only [Store.set, h1, h2, if_false, List.mem_cons] at h
        rcases h with h | h
        · exact .inl (by simp [h])
        · rcases ih h with h | h
          · exact .inl (List.mem_cons_of_mem _ h)
          · exact .inr h

theorem Store.get?_mem {m : Store α} {n : Nat} {x : α} (h : Store.get? m n = some x) : (n, x) ∈ m := by
  induction m with
  | nil => simp [Store.get?] at h
  | cons q m ih =>
    obtain ⟨k, y⟩ := q
    by_cases h1 : k = n
    · simp [Store.get?, h1] at h; simp [h, h1]
    · simp [Store.get?, h1] at h; exact List.mem_cons_of_mem _ (ih h)

theorem Store.get?_of_mem {m : Store α} {n : Nat} {x : α} (h : (n, x) ∈ m) : ∃ y, Store.get? m n = some y := by
  induction m with
  | nil => simp at h
  | cons q m ih =>
    obtain ⟨k, y⟩ := q
    by_cases h1 : k = n
    · exact ⟨y, by simp [Store.get?, h1]⟩
    · rcases List.mem_cons.1 h with h | h
      · simp at h; exact absurd h.1.symm h1
      · obtain ⟨z, hz⟩ := ih h
        exact ⟨z, by simp [Store.get?, h1, hz]⟩

theorem Store.get?_erase_other (m : Store α) {n k : Nat} (h : k ≠ n) : Store.get? (Store.erase m n) k = Store.get? m k := by
  induction m with
  | nil => rfl
  | cons q m ih =>
    obtain ⟨j, y⟩ := q
    by_cases h1 : j = n
    · subst h1
      simp only [Store.erase, List.filter_cons, bne_self_eq_false, Bool.false_eq_true, if_false, Store.get?, Ne.symm h]
      exact ih
    · simp only [Store.erase, List.filter_cons, show (j != n) = true from by simp [h1], if_true, Store.get?]
      split
      · rfl
      · exact ih

theorem Store.get?_erase_self (m : Store α) (n : Nat) : Store.get? (Store.erase m n) n = none := by
  induction m with
  | nil => rfl
  | cons q m ih =>
    obtain ⟨j, y⟩ := q
    by_cases h1 : j = n
    · subst h1
      simp only [Store.erase, List.filter_cons, bne_self_eq_false, Bool.false_eq_true, if_false]
      exact ih
    · simp only [Store.erase, List.filter_cons, show (j != n) = true from by simp [h1], if_true, Store.get?, h1, if_false]
      exact ih

theorem mem_insertNat {n k : Nat} {l : List Nat} : k ∈ insertNat n l ↔ k = n ∨ k ∈ l := by
  induction l with
  | nil => simp [insertNat]
  | cons a l ih =>
    by_cases h1 : n = a
    · simp [insertNat, h1]
    · by_cases h2 : n < a
      · simp [insertNat, h1, h2]
      · simp [insertNat, h1, h2, ih]
        constructor
        · rintro (h | h | h) <;> simp [h]
        · rintro (h | h | h) <;> simp [h]

end Machine
end Sys2Proof
end

