-- ==== Sys2Proof/Laws/Issue.lean ====
section
/-!
SUPPORT. What the shared operations of an instruction do: the crews of a state, the issue with its checks (R85, R87), and retirement.
-/
namespace Sys2Proof.Machine

/-! ## Crews of a state -/

@[simp] theorem State.crew?_setCrew_self (s : State) (k : Nat) (c : Crew) : (s.setCrew k c).crew? k = some c :=
  Store.get?_set_self _ _ _
theorem State.crew?_setCrew_other (s : State) {k j : Nat} (c : Crew) (h : j ≠ k) : (s.setCrew k c).crew? j = s.crew? j :=
  Store.get?_set_other _ _ h
@[simp] theorem State.crew_setCrew_self (s : State) (k : Nat) (c : Crew) : (s.setCrew k c).crew k = c := by
  simp [State.crew, State.setCrew, Store.getD_set_self]
@[simp] theorem State.crew_modCrew_self (s : State) (k : Nat) (f : Crew → Crew) : (s.modCrew k f).crew k = f (s.crew k) := by
  simp [State.modCrew]
@[simp] theorem State.crew?_modCrew_self (s : State) (k : Nat) (f : Crew → Crew) : (s.modCrew k f).crew? k = some (f (s.crew k)) := by
  simp [State.modCrew]
theorem State.crew?_modCrew_other (s : State) {k j : Nat} (f : Crew → Crew) (h : j ≠ k) : (s.modCrew k f).crew? j = s.crew? j :=
  Store.get?_set_other _ _ h
theorem State.crew_of_crew? {s : State} {k : Nat} {c : Crew} (h : s.crew? k = some c) : s.crew k = c := by
  simp [State.crew, Store.getD, show s.crews.get? k = some c from h]
@[simp] theorem State.gang_setCrew (s : State) (k g : Nat) (c : Crew) : (s.setCrew k c).gang g = s.gang g := rfl
@[simp] theorem State.gang_modCrew (s : State) (k g : Nat) (f : Crew → Crew) : (s.modCrew k f).gang g = s.gang g := rfl

/-! ## What an issue counts -/

@[simp] theorem Crew.noteIssue_thr (c : Crew) (F : Mask) (b : Bool) : (c.noteIssue F b).thr = c.thr := rfl
@[simp] theorem Crew.noteIssue_regs (c : Crew) (F : Mask) (b : Bool) : (c.noteIssue F b).regs = c.regs := rfl
@[simp] theorem Crew.noteIssue_tags (c : Crew) (F : Mask) (b : Bool) : (c.noteIssue F b).tags = c.tags := rfl
@[simp] theorem Crew.noteIssue_shadow (c : Crew) (F : Mask) (b : Bool) : (c.noteIssue F b).shadow = c.shadow := rfl
@[simp] theorem Crew.noteIssue_stags (c : Crew) (F : Mask) (b : Bool) : (c.noteIssue F b).stags = c.stags := rfl
@[simp] theorem Crew.noteIssue_preds (c : Crew) (F : Mask) (b : Bool) : (c.noteIssue F b).preds = c.preds := rfl
@[simp] theorem Crew.noteIssue_run (c : Crew) (F : Mask) (b : Bool) : (c.noteIssue F b).run = c.run := rfl
@[simp] theorem Crew.noteIssue_hdr (c : Crew) (F : Mask) (b : Bool) : (c.noteIssue F b).hdr = c.hdr := rfl
@[simp] theorem Crew.noteIssue_core (c : Crew) (F : Mask) (b : Bool) : (c.noteIssue F b).core = c.core := rfl
@[simp] theorem Crew.noteIssue_cver (c : Crew) (F : Mask) (b : Bool) : (c.noteIssue F b).cver = c.cver := rfl
@[simp] theorem Crew.noteIssue_slots (c : Crew) (F : Mask) (b : Bool) : (c.noteIssue F b).slots = c.slots := rfl
@[simp] theorem Crew.noteIssue_infl (c : Crew) (F : Mask) (b : Bool) : (c.noteIssue F b).infl = c.infl := rfl
@[simp] theorem Crew.noteIssue_barm (c : Crew) (F : Mask) (b : Bool) : (c.noteIssue F b).barm = c.barm := rfl
@[simp] theorem Crew.noteIssue_barcm (c : Crew) (F : Mask) (b : Bool) : (c.noteIssue F b).barcm = c.barcm := rfl
@[simp] theorem Crew.noteIssue_pins (c : Crew) (F : Mask) (b : Bool) : (c.noteIssue F b).pins = c.pins := rfl
@[simp] theorem Crew.noteIssue_rest (c : Crew) (F : Mask) (b : Bool) : (c.noteIssue F b).rest = c.rest := rfl
@[simp] theorem Crew.noteIssue_th (c : Crew) (F : Mask) (b : Bool) (l : Lane) : (c.noteIssue F b).th l = c.th l := rfl
@[simp] theorem Crew.noteIssue_pred (c : Crew) (F : Mask) (b : Bool) (p : BitVec 3) : (c.noteIssue F b).pred p = c.pred p := rfl
@[simp] theorem Crew.noteIssue_reg (c : Crew) (F : Mask) (b : Bool) (n : Nat) (l : Lane) : (c.noteIssue F b).reg n l = c.reg n l := rfl
@[simp] theorem Crew.noteIssue_regTag (c : Crew) (F : Mask) (b : Bool) (n : Nat) : (c.noteIssue F b).regTag n = c.regTag n := rfl
@[simp] theorem Crew.noteIssue_exited (c : Crew) (F : Mask) (b : Bool) : (c.noteIssue F b).exited = c.exited := rfl
@[simp] theorem Crew.noteIssue_header (c : Crew) (F : Mask) (b : Bool) (g : Gang) : (c.noteIssue F b).header g = c.header g := rfl

theorem vec4_all {α : Type} {v w : Vector α 4} (n : Nat) (hn : n < 4) (h0 : v[0] = w[0]) (h1 : v[1] = w[1]) (h2 : v[2] = w[2])
    (h3 : v[3] = w[3]) : v[n] = w[n] := by
  rcases (by omega : n = 0 ∨ n = 1 ∨ n = 2 ∨ n = 3) with rfl | rfl | rfl | rfl <;> assumption

/-- An issue changes whether a latch is valid, never what it holds. -/
@[simp] theorem Crew.noteIssue_latch_val (c : Crew) (F : Mask) (b : Bool) (n : Nat) (h : n < 4) :
    ((c.noteIssue F b).latches[n]).val = (c.latches[n]).val := by
  simp only [Crew.noteIssue]
  split
  · rcases (by omega : n = 0 ∨ n = 1 ∨ n = 2 ∨ n = 3) with rfl | rfl | rfl | rfl <;> rfl
  · rfl

@[simp] theorem Crew.noteIssue_latch_tag (c : Crew) (F : Mask) (b : Bool) (n : Nat) (h : n < 4) :
    ((c.noteIssue F b).latches[n]).tag = (c.latches[n]).tag := by
  simp only [Crew.noteIssue]
  split
  · rcases (by omega : n = 0 ∨ n = 1 ∨ n = 2 ∨ n = 3) with rfl | rfl | rfl | rfl <;> rfl
  · rfl

/-- A source reads the same before and after the issue is counted. -/
@[simp] theorem Crew.noteIssue_src (c : Crew) (F : Mask) (b : Bool) (v : KView) (a : BitVec 6) (l : Lane) :
    (c.noteIssue F b).src v a l = c.src v a l := by
  simp [Crew.src]

@[simp] theorem Crew.noteIssue_srcShape (c : Crew) (F : Mask) (b : Bool) (v : KView) (a : BitVec 6) :
    (c.noteIssue F b).srcShape v a = c.srcShape v a := by
  simp only [Crew.srcShape, Crew.noteIssue_regTag, Crew.noteIssue_latch_tag, Crew.noteIssue_latch_val]
  rfl

/-! ## The issue (R85, R87) -/

/-- The context of an instruction that a fragment issues. -/
def ctxAt (i : Instr) (s : State) (key : Nat) (F : Mask) (pc : Pc) : Ctx :=
  { key := key, F := F, pc := pc, i := i, take := taking i s key F, start := ((s.crew key).run.map fun r => r.start).getD pc,
    diff := (s.crew key).differs F, run := (s.crew key).run }

theorem ctxOf_eq {i : Instr} {s : State} {key : Nat} {F : Mask} {pc : Pc} (hc : s.cur = .frag key F pc) (hr : (s.crew? key).isSome = true) :
    ctxOf i s = some (ctxAt i s key F pc) := by
  obtain ⟨c, h⟩ := Option.isSome_iff_exists.1 hr
  simp [ctxOf, hc, h, ctxAt, taking, State.crew_of_crew? h]

@[simp] theorem State.hdrOf_noteIssue (s : State) (key : Nat) (F : Mask) (b : Bool) :
    (s.modCrew key fun c => c.noteIssue F b).hdrOf key = s.hdrOf key := by
  simp [State.hdrOf]

/-- The latches that an instruction names stay valid when its issue is counted. -/
theorem Issues.badLatch {i : Instr} {s : State} {key : Nat} {F : Mask} {pc : Pc} (h : Issues i s key F pc) (b : Bool) :
    ((s.crew key).noteIssue F b).badLatch i = false := by
  rw [Crew.badLatch, List.any_eq_false]
  intro a ha hc
  simp only [Bool.and_eq_true, decide_eq_true_eq, Bool.not_eq_true'] at hc
  obtain ⟨⟨h1, h2⟩, h3⟩ := hc
  obtain ⟨hv, hr⟩ := h.latches a ha h1 h2
  have hl : ((s.crew key).noteIssue F b).latches = (s.crew key).latches := by
    simp [Crew.noteIssue, hr]
  simp only [hl, hv] at h3
  exact absurd h3 (by simp)

/-- The decode checks of R87 pass. -/
theorem Issues.check {i : Instr} {s : State} {key : Nat} {F : Mask} {pc : Pc} (h : Issues i s key F pc) (b : Bool) :
    decodeCheck i (s.hdrOf key) (s.crew key).run
      ((s.crew key).supOf F) ((s.crew key).noteIssue F b) = none := by
  obtain ⟨l, hl⟩ := Option.isSome_iff_exists.1 (lowest_isSome.2 h.lanes)
  have hr : (i.regNumbers.any fun n => decide (n ≥ (s.hdrOf key).regs)) = false := by
    rw [List.any_eq_false]
    intro n hn
    have := h.regs n hn
    simp; omega
  have hs : (i.superOnly && !((s.crew key).th l).sup) = false := by
    cases hi : i.superOnly
    · simp
    · simp [h.mode hi l (lowest_inMask hl)]
  simp only [decodeCheck, h.legal, h.compute, h.hints, h.bank, h.dest, hr, Crew.supOf, hl, Option.map_some, Option.getD_some, hs, h.badLatch b, Bool.or_self, if_false,
    Bool.false_eq_true]

/-- An instruction that passes its checks has its effect, after the crew has counted the issue. -/
theorem Issues.run {i : Instr} {s : State} {key : Nat} {F : Mask} {pc : Pc} (h : Issues i s key F pc) (body : Ctx → State → State) :
    issue i s body = .next (body (ctxAt i s key F pc) (s.modCrew key fun c => c.noteIssue F (isTret i))) := by
  have hc := h.check (isTret i)
  simp only [Machine.issue, h.cur, ctxOf_eq h.cur h.resident, issueFrag, ctxAt, State.hdrOf_noteIssue, State.crew_modCrew_self]
  rw [hc]

end Sys2Proof.Machine
end

