-- ==== Sys2Proof/Laws/Memory.lean ====
section
/-!
SUPPORT. Byte memories: the canonical form as a property of a list, what keeps it, and what a byte reads after a write.
-/
namespace Sys2Proof.Machine

/-! ## The canonical form -/

theorem Memory.wf_iff (m : List Host.Cell) :
    Memory.wf m = true ↔ (∀ c ∈ m, c.2 ≠ unlisted) ∧ m.Pairwise fun a b => a.1 < b.1 := by
  induction m with
  | nil => simp [Memory.wf]
  | cons x rest ih =>
    cases rest with
    | nil => simp [Memory.wf]
    | cons y rest =>
      obtain ⟨a, b⟩ := x
      obtain ⟨c, d⟩ := y
      simp only [Memory.wf, Bool.and_eq_true, bne_iff_ne, ne_eq, decide_eq_true_eq, ih]
      constructor
      · rintro ⟨⟨hb, hac⟩, hv, hp⟩
        refine ⟨fun z hz => ?_, List.pairwise_cons.2 ⟨fun z hz => ?_, hp⟩⟩
        · rcases List.mem_cons.1 hz with rfl | hz
          · exact hb
          · exact hv z hz
        · rcases List.mem_cons.1 hz with rfl | hz
          · exact hac
          · exact Nat.lt_trans hac ((List.pairwise_cons.1 hp).1 z hz)
      · rintro ⟨hv, hp⟩
        have hp' := List.pairwise_cons.1 hp
        exact ⟨⟨hv (a, b) (by simp), hp'.1 (c, d) (by simp)⟩, fun z hz => hv z (List.mem_cons_of_mem _ hz), hp'.2⟩

theorem Memory.wf_nil : Memory.wf [] = true := rfl

theorem Memory.wf_filter {m : List Host.Cell} (p : Host.Cell → Bool) (h : Memory.wf m = true) : Memory.wf (m.filter p) = true := by
  rw [Memory.wf_iff] at h ⊢
  exact ⟨fun c hc => h.1 c (List.mem_filter.1 hc).1, h.2.sublist (List.filter_sublist)⟩

/-- Memories one above the other. -/
theorem Memory.wf_append {m n : List Host.Cell} (hm : Memory.wf m = true) (hn : Memory.wf n = true)
    (h : ∀ a ∈ m, ∀ b ∈ n, a.1 < b.1) : Memory.wf (m ++ n) = true := by
  rw [Memory.wf_iff] at hm hn ⊢
  refine ⟨fun c hc => ?_, List.pairwise_append.2 ⟨hm.2, hn.2, h⟩⟩
  rcases List.mem_append.1 hc with hc | hc
  · exact hm.1 c hc
  · exact hn.1 c hc

/-- Bytes laid out from `a` stand between `a` and their end. -/
theorem mem_freshCells {a : Nat} {bs : List Byte} {c : Host.Cell} (h : c ∈ freshCells a bs) : a ≤ c.1 ∧ c.1 < a + bs.length := by
  induction bs generalizing a with
  | nil => simp [freshCells] at h
  | cons b bs ih =>
    simp only [freshCells] at h
    split at h
    · have := ih h; simp only [List.length_cons]; omega
    · rcases List.mem_cons.1 h with rfl | h
      · simp
      · have := ih h; simp only [List.length_cons]; omega

theorem Memory.wf_freshCells (a : Nat) (bs : List Byte) : Memory.wf (freshCells a bs) = true := by
  induction bs generalizing a with
  | nil => rfl
  | cons b bs ih =>
    simp only [freshCells]
    split
    · exact ih _
    · rename_i hb
      have hs := (Memory.wf_iff _).1 (ih (a + 1))
      refine (Memory.wf_iff _).2 ⟨fun c hc => ?_, List.pairwise_cons.2 ⟨fun c hc => ?_, hs.2⟩⟩
      · rcases List.mem_cons.1 hc with rfl | hc
        · exact hb
        · exact hs.1 c hc
      · have := mem_freshCells hc; simp only; omega

/-- A middle part between the cells below `a` and those from `b` on. -/
theorem Memory.wf_splice {m x : List Host.Cell} (a b : Nat) (hm : Memory.wf m = true) (hx : Memory.wf x = true)
    (h : ∀ c ∈ x, a ≤ c.1 ∧ c.1 < b) (hab : a ≤ b) :
    Memory.wf (m.filter (fun c => c.1 < a) ++ x ++ m.filter (fun c => b ≤ c.1)) = true := by
  refine Memory.wf_append (Memory.wf_append (Memory.wf_filter _ hm) hx ?_) (Memory.wf_filter _ hm) ?_
  · intro u hu v hv
    have := (List.mem_filter.1 hu).2
    have := h v hv
    simp only [decide_eq_true_eq] at *
    omega
  · intro u hu v hv
    have hv := (List.mem_filter.1 hv).2
    simp only [decide_eq_true_eq] at hv
    rcases List.mem_append.1 hu with hu | hu
    · have := (List.mem_filter.1 hu).2
      simp only [decide_eq_true_eq] at this
      omega
    · have := h u hu
      omega

/-- A write of bytes keeps the canonical form. -/
theorem Memory.wf_writeBytes {m : List Host.Cell} (a : Nat) (bs : List Byte) (h : Memory.wf m = true) :
    Memory.wf (writeBytes m a bs) = true :=
  Memory.wf_splice a (a + bs.length) h (Memory.wf_freshCells a bs) (fun _ hc => mem_freshCells hc) (by omega)

/-- A write of a number keeps the canonical form. -/
theorem Memory.wf_writeNat {m : List Host.Cell} (a n x : Nat) (h : Memory.wf m = true) : Memory.wf (writeNat m a n x) = true :=
  Memory.wf_writeBytes a _ h

theorem Memory.wf_writeNats (pa : Nat) (fields : List (Nat × Nat × Nat)) {m : List Host.Cell} (h : Memory.wf m = true) :
    Memory.wf (fields.foldl (fun m f => writeNat m (pa + f.1) f.2.1 f.2.2) m) = true := by
  induction fields generalizing m with
  | nil => exact h
  | cons f fs ih => exact ih (Memory.wf_writeNat _ _ _ h)

/-- Fields laid out in a range are canonical, and lie in it. -/
theorem laidOut_good (pa len : Nat) (fields : List (Nat × Nat × Nat)) :
    Memory.wf (laidOut pa len fields) = true ∧ ∀ c ∈ laidOut pa len fields, pa ≤ c.1 ∧ c.1 < pa + len := by
  simp only [laidOut]
  split
  · rename_i h
    rw [Bool.and_eq_true, List.all_eq_true] at h
    exact ⟨h.1, fun c hc => by simpa using h.2 c hc⟩
  · exact ⟨Memory.wf_filter _ (Memory.wf_writeNats pa fields Memory.wf_nil), fun c hc => by simpa using (List.mem_filter.1 hc).2⟩

/-! ## Physical memory -/

@[simp] theorem State.mem_memWrite (s : State) (pa : Nat) (bs : List Byte) : (s.memWrite pa bs).mem = writeBytes s.mem pa bs := rfl

theorem State.wf_memWrite {s : State} (pa : Nat) (bs : List Byte) (h : Memory.wf s.mem = true) :
    Memory.wf (s.memWrite pa bs).mem = true := by
  rw [State.mem_memWrite]
  exact Memory.wf_writeBytes pa bs h

@[simp] theorem State.mem_homeKeep (s : State) (line : Nat) (k : Keep) : (s.homeKeep line k).mem = s.mem := rfl
@[simp] theorem State.mem_homeTouch (s : State) (line : Nat) (k : Keep) : (s.homeTouch line k).mem = s.mem := rfl

theorem State.wf_memMerge {s : State} (line : Nat) (x : BitVec 1024) (k : BitVec 128) (h : Memory.wf s.mem = true) :
    Memory.wf (s.memMerge line x k).mem = true := by
  simp only [State.memMerge]
  split
  · exact h
  · exact State.wf_memWrite _ _ h

theorem State.mem_memFill (s : State) (pa len : Nat) (fields : List (Nat × Nat × Nat)) :
    (s.memFill pa len fields).mem =
      s.mem.filter (fun c => c.1 < pa) ++ laidOut pa len fields ++ s.mem.filter (fun c => pa + len ≤ c.1) := by
  have h (f : State → Nat → State) (hf : ∀ u d, (f u d).mem = u.mem) (ds : List Nat) (u : State) : (ds.foldl f u).mem = u.mem := by
    induction ds generalizing u with
    | nil => rfl
    | cons d ds ih => rw [List.foldl_cons, ih, hf]
  simp only [State.memFill]
  rw [h]
  intro u d
  split
  · rfl
  · simp only [State.modDie]

/-- A range written whole keeps the canonical form. -/
theorem State.wf_memFill {s : State} (pa len : Nat) (fields : List (Nat × Nat × Nat)) (h : Memory.wf s.mem = true) :
    Memory.wf (s.memFill pa len fields).mem = true := by
  rw [State.mem_memFill]
  exact Memory.wf_splice pa (pa + len) h (laidOut_good pa len fields).1 (laidOut_good pa len fields).2 (by omega)

/-- The cells of `n` bytes from `src`, moved to `dst`. -/
def movedCells (m : List Host.Cell) (dst src n : Nat) : List Host.Cell :=
  (m.filter fun c => src ≤ c.1 && c.1 < src + n).map fun c => (c.1 - src + dst, c.2)

/-- Nothing that leaves memory alone one element at a time changes it over a list. -/
theorem State.mem_foldl {α : Type} (f : State → α → State) (hf : ∀ u a, (f u a).mem = u.mem) (l : List α) (u : State) :
    (l.foldl f u).mem = u.mem := by
  induction l generalizing u with
  | nil => rfl
  | cons a l ih => rw [List.foldl_cons, ih, hf]

theorem State.mem_copyPage (s : State) (k : Keep) (dst src n : Nat) : (s.copyPage k dst src n).mem =
    s.mem.filter (fun c => c.1 < dst) ++ movedCells s.mem dst src n ++ s.mem.filter (fun c => dst + n ≤ c.1) := by
  simp only [State.copyPage]
  rw [State.mem_foldl State.poisonLine fun _ _ => rfl, State.mem_foldl (fun s l => (s.homeKeep l k).homeWrote l) fun _ _ => rfl]
  rfl

theorem movedCells_good {m : List Host.Cell} (dst src n : Nat) (h : Memory.wf m = true) :
    Memory.wf (movedCells m dst src n) = true ∧ ∀ c ∈ movedCells m dst src n, dst ≤ c.1 ∧ c.1 < dst + n := by
  have hs := (Memory.wf_iff _).1 (Memory.wf_filter (fun c => decide (src ≤ c.1) && decide (c.1 < src + n)) h)
  have hin : ∀ c ∈ m.filter (fun c => decide (src ≤ c.1) && decide (c.1 < src + n)), src ≤ c.1 ∧ c.1 < src + n := fun c hc => by
    simpa using (List.mem_filter.1 hc).2
  refine ⟨(Memory.wf_iff _).2 ⟨fun c hc => ?_, ?_⟩, fun c hc => ?_⟩
  · obtain ⟨d, hd, rfl⟩ := List.mem_map.1 hc
    exact hs.1 d hd
  · rw [movedCells, List.pairwise_map]
    refine hs.2.imp_of_mem fun ha hb hab => ?_
    have := hin _ ha
    have := hin _ hb
    simp only
    omega
  · obtain ⟨d, hd, rfl⟩ := List.mem_map.1 hc
    have := hin _ hd
    simp only
    omega

/-- A copied page keeps the canonical form. -/
theorem State.wf_copyPage {s : State} (k : Keep) (dst src n : Nat) (h : Memory.wf s.mem = true) :
    Memory.wf (s.copyPage k dst src n).mem = true := by
  rw [State.mem_copyPage]
  exact Memory.wf_splice dst (dst + n) h (movedCells_good dst src n h).1 (movedCells_good dst src n h).2 (by omega)

/-- Every byte memory is in canonical form at reset. -/
theorem wf_reset : Memory.wf State.reset.mem = true := rfl

/-! ## Reading after a write -/

theorem readByte_append {m n : List Host.Cell} (a : Nat) :
    readByte (m ++ n) a = if m.any fun c => c.1 == a then readByte m a else readByte n a := by
  induction m with
  | nil => rfl
  | cons c m ih =>
    by_cases h : c.1 = a
    · simp [readByte, h]
    · simp [readByte, h, ih]

theorem readByte_of_not_mem {m : List Host.Cell} {a : Nat} (h : ∀ c ∈ m, c.1 ≠ a) : readByte m a = unlisted := by
  induction m with
  | nil => rfl
  | cons c m ih => simp [readByte, h c (by simp), ih fun d hd => h d (by simp [hd])]

/-- A filter that keeps every cell of an address leaves the byte there. -/
theorem readByte_filter {m : List Host.Cell} (p : Host.Cell → Bool) {a : Nat} (h : ∀ c, c.1 = a → p c = true) :
    readByte (m.filter p) a = readByte m a := by
  induction m with
  | nil => rfl
  | cons c m ih =>
    by_cases hc : c.1 = a
    · simp [h c hc, readByte, hc]
    · by_cases hp : p c = true
      · simp [hp, readByte, hc, ih]
      · simp [hp, readByte, hc, ih]

theorem readByte_freshCells (a : Nat) (bs : List Byte) (b : Nat) (h1 : a ≤ b) (h2 : b < a + bs.length) :
    readByte (freshCells a bs) b = bs.getD (b - a) unlisted := by
  induction bs generalizing a with
  | nil => simp at h2; omega
  | cons x bs ih =>
    simp only [List.length_cons] at h2
    by_cases hb : b = a
    · subst hb
      by_cases hx : x = unlisted
      · subst hx
        have : readByte (freshCells (b + 1) bs) b = unlisted :=
          readByte_of_not_mem fun c hc => by have := mem_freshCells hc; omega
        simp [freshCells, this]
      · simp [freshCells, hx, readByte]
    · have e : b - a = (b - (a + 1)) + 1 := by omega
      rw [e, List.getD_cons_succ, ← ih (a + 1) (by omega) (by omega)]
      by_cases hx : x = unlisted
      · simp [freshCells, hx]
      · have : ¬a = b := fun h => hb h.symm
        simp [freshCells, hx, readByte, this]

/-- A byte after a write: the byte written where the write goes, the byte from before elsewhere. -/
theorem readByte_writeBytes (m : List Host.Cell) (a : Nat) (bs : List Byte) (b : Nat) :
    readByte (writeBytes m a bs) b = if a ≤ b ∧ b < a + bs.length then bs.getD (b - a) unlisted else readByte m b := by
  have below : b < a → readByte (m.filter fun c => c.1 < a) b = readByte m b := fun h =>
    readByte_filter _ fun c hc => by simp [hc, h]
  have above : a + bs.length ≤ b → readByte (m.filter fun c => a + bs.length ≤ c.1) b = readByte m b := fun h =>
    readByte_filter _ fun c hc => by simp [hc, h]
  have none_of (p : Host.Cell → Bool) (h : ∀ c, c.1 = b → p c = false) : ((m.filter p).any fun c => c.1 == b) = false := by
    rw [List.any_eq_false]
    intro c hc hcb
    have h1 := (List.mem_filter.1 hc).2
    rw [h c (by simpa using hcb)] at h1
    exact absurd h1 (by simp)
  simp only [writeBytes, List.append_assoc, readByte_append]
  by_cases h1 : b < a
  · have hn : ¬(a ≤ b ∧ b < a + bs.length) := by omega
    rw [if_neg hn]
    by_cases hm : ((m.filter fun c => c.1 < a).any fun c => c.1 == b) = true
    · rw [if_pos hm, below h1]
    · have hz : readByte (m.filter fun c => c.1 < a) b = unlisted := by
        refine readByte_of_not_mem fun c hc hcb => hm ?_
        exact List.any_eq_true.2 ⟨c, hc, by simp [hcb]⟩
      have hf : ((freshCells a bs).any fun c => c.1 == b) = false := by
        rw [List.any_eq_false]; intro c hc hcb
        have := mem_freshCells hc; have : c.1 = b := by simpa using hcb
        omega
      rw [if_neg hm, if_neg (by simp [hf]), ← below h1, hz]
      exact readByte_of_not_mem fun c hc hcb => by
        have := (List.mem_filter.1 hc).2
        simp only [decide_eq_true_eq] at this
        omega
  · rw [if_neg (by rw [none_of _ fun c hc => by simp; omega]; simp)]
    by_cases h2 : b < a + bs.length
    · rw [if_pos (show a ≤ b ∧ b < a + bs.length from ⟨by omega, h2⟩)]
      by_cases hf : ((freshCells a bs).any fun c => c.1 == b) = true
      · rw [if_pos hf, readByte_freshCells a bs b (by omega) h2]
      · rw [if_neg hf, ← readByte_freshCells a bs b (by omega) h2]
        have hz : readByte (freshCells a bs) b = unlisted := readByte_of_not_mem fun c hc hcb =>
          hf (List.any_eq_true.2 ⟨c, hc, by simp [hcb]⟩)
        rw [hz]
        exact readByte_of_not_mem fun c hc hcb => by
          have := (List.mem_filter.1 hc).2
          simp only [decide_eq_true_eq] at this
          omega
    · rw [if_neg (show ¬(a ≤ b ∧ b < a + bs.length) from fun h => h2 h.2)]
      have hf : ((freshCells a bs).any fun c => c.1 == b) = false := by
        rw [List.any_eq_false]; intro c hc hcb
        have := mem_freshCells hc; have : c.1 = b := by simpa using hcb
        omega
      rw [if_neg (by simp [hf]), above (by omega)]

@[simp] theorem toBytes_length (n x : Nat) : (toBytes n x).length = n := by simp [toBytes]

/-- A byte of physical memory outside a write reads as before. -/
theorem State.readByte_memWrite_other (s : State) (pa : Nat) (bs : List Byte) (b : Nat) (h : b < pa ∨ pa + bs.length ≤ b) :
    readByte (s.memWrite pa bs).mem b = readByte s.mem b := by
  rw [State.mem_memWrite, readByte_writeBytes, if_neg (by omega)]

end Sys2Proof.Machine
end

