-- ==== Sys2Proof/Laws/Operands.lean ====
section
/-!
SUPPORT. Sub-elements (R16): what a word built from its sub-elements holds in each of them.
-/
namespace Sys2Proof.Machine

/-- The number with the first `n` sub-elements of `f`. -/
def subSum (w : Nat) (f : Nat → Nat) (n : Nat) : Nat := (List.range n).foldl (fun y j => y + (f j % 2 ^ w) * 2 ^ (w * j)) 0

theorem subSum_succ (w : Nat) (f : Nat → Nat) (n : Nat) : subSum w f (n + 1) = subSum w f n + (f n % 2 ^ w) * 2 ^ (w * n) := by
  simp [subSum, List.range_succ]

theorem subSum_lt (w : Nat) (f : Nat → Nat) (n : Nat) : subSum w f n < 2 ^ (w * n) := by
  induction n with
  | zero => simp [subSum]
  | succ n ih =>
    rw [subSum_succ]
    have h : f n % 2 ^ w ≤ 2 ^ w - 1 := by have := Nat.mod_lt (f n) (Nat.two_pow_pos w); omega
    have h2 : (f n % 2 ^ w) * 2 ^ (w * n) ≤ (2 ^ w - 1) * 2 ^ (w * n) := Nat.mul_le_mul_right _ h
    have h3 : 2 ^ (w * (n + 1)) = 2 ^ w * 2 ^ (w * n) := by rw [← Nat.pow_add]; congr 1; rw [Nat.mul_add]; omega
    have h4 : (2 ^ w - 1) * 2 ^ (w * n) = 2 ^ w * 2 ^ (w * n) - 2 ^ (w * n) := by rw [Nat.sub_mul, Nat.one_mul]
    have h5 : 2 ^ (w * n) ≤ 2 ^ w * 2 ^ (w * n) := Nat.le_mul_of_pos_left _ (Nat.two_pow_pos w)
    omega

theorem subSum_digit (w : Nat) (f : Nat → Nat) (n j : Nat) (hj : j < n) : subSum w f n / 2 ^ (w * j) % 2 ^ w = f j % 2 ^ w := by
  induction n with
  | zero => omega
  | succ n ih =>
    rw [subSum_succ]
    by_cases h : j = n
    · subst h
      rw [Nat.add_mul_div_right _ _ (Nat.two_pow_pos _), Nat.div_eq_of_lt (subSum_lt w f j), Nat.zero_add, Nat.mod_mod]
    · have hjn : j < n := by omega
      have hp : 2 ^ (w * n) = 2 ^ (w * j) * (2 ^ w * 2 ^ (w * (n - j - 1))) := by
        rw [← Nat.pow_add, ← Nat.pow_add]
        congr 1
        have : n = j + (1 + (n - j - 1)) := by omega
        conv => lhs; rw [this]
        rw [Nat.mul_add, Nat.mul_add, Nat.mul_one]
      rw [hp, ← Nat.mul_assoc, Nat.mul_comm (f n % 2 ^ w), Nat.mul_assoc, Nat.add_mul_div_left _ _ (Nat.two_pow_pos _),
        Nat.mul_comm (f n % 2 ^ w), Nat.mul_assoc, Nat.add_mul_mod_self_left, ih hjn]

/-- A sub-element of a word built from its sub-elements. -/
theorem subEl_ofSubs (w : Nat) (f : Nat → Nat) (j : Nat) (_hw : 0 < w) (hj : j < 64 / w) : subEl w (ofSubs w f) j = f j % 2 ^ w := by
  have hlt : subSum w f (64 / w) < 2 ^ 64 :=
    Nat.lt_of_lt_of_le (subSum_lt w f _) (Nat.pow_le_pow_right (by omega) (Nat.mul_div_le 64 w))
  rw [subEl, ofSubs, BitVec.toNat_ofNat, Nat.shiftRight_eq_div_pow]
  change subSum w f (64 / w) % 2 ^ 64 / 2 ^ (w * j) % 2 ^ w = _
  rw [Nat.mod_eq_of_lt hlt, subSum_digit w f _ j hj]

theorem subEl_lt (w : Nat) (x : Word) (j : Nat) : subEl w x j < 2 ^ w := Nat.mod_lt _ (Nat.two_pow_pos w)

/-- A sub-element of a word of two operands' sub-elements. -/
theorem subEl_mapSubs2 (w : Nat) (f : Nat → Nat → Nat) (a b : Word) (j : Nat) (hw : 0 < w) (hj : j < 64 / w) :
    subEl w (mapSubs2 w f a b) j = f (subEl w a j) (subEl w b j) % 2 ^ w := subEl_ofSubs w _ j hw hj

/-- The width of a code is one of four, and the sub-elements of a word number 64 over it. -/
theorem widthOf_cases (w : BitVec 2) :
    (w = 0 ∧ widthOf w = 64) ∨ (w = 1 ∧ widthOf w = 32) ∨ (w = 2 ∧ widthOf w = 16) ∨ (w = 3 ∧ widthOf w = 8) := by
  revert w; decide

theorem widthOf_pos (w : BitVec 2) : 0 < widthOf w := by
  rcases widthOf_cases w with ⟨-, h⟩ | ⟨-, h⟩ | ⟨-, h⟩ | ⟨-, h⟩ <;> omega

theorem subEl_64 (x : Word) : subEl 64 x 0 = x.toNat := by
  simp only [subEl, Nat.mul_zero, Nat.shiftRight_zero]
  exact Nat.mod_eq_of_lt x.isLt

end Sys2Proof.Machine
end

