-- ==== Sys2Proof/Laws/PerInstr.lean ====
section
/-!
SUPPORT. Statements about every instruction as syntax, one lemma for each constructor.
-/
namespace Sys2Proof.Laws

/-! ## Encoded: an instruction is one word, an event none -/

/-- An instruction has one word, an event has none (R72). -/
def Encoded.Statement (i : Instr) : Prop := (encode i).length = if i.isEvent then 0 else 1

theorem Encoded.nop : Encoded.Statement .nop := rfl
theorem Encoded.stall : ∀ x0, Encoded.Statement (.stall x0) := fun _ => rfl
theorem Encoded.rnd : ∀ x0, Encoded.Statement (.rnd x0) := fun _ => rfl
theorem Encoded.ximm : ∀ x0, Encoded.Statement (.ximm x0) := fun _ => rfl
theorem Encoded.guard : ∀ x0, Encoded.Statement (.guard x0) := fun _ => rfl
theorem Encoded.scope : ∀ x0 x1, Encoded.Statement (.scope x0 x1) := fun _ _ => rfl
theorem Encoded.iadd : ∀ x0 x1 x2 x3 x4, Encoded.Statement (.iadd x0 x1 x2 x3 x4) := fun _ _ _ _ _ => rfl
theorem Encoded.isub : ∀ x0 x1 x2 x3 x4, Encoded.Statement (.isub x0 x1 x2 x3 x4) := fun _ _ _ _ _ => rfl
theorem Encoded.imin : ∀ x0 x1 x2 x3 x4, Encoded.Statement (.imin x0 x1 x2 x3 x4) := fun _ _ _ _ _ => rfl
theorem Encoded.imax : ∀ x0 x1 x2 x3 x4, Encoded.Statement (.imax x0 x1 x2 x3 x4) := fun _ _ _ _ _ => rfl
theorem Encoded.nmin : ∀ x0 x1 x2 x3 x4, Encoded.Statement (.nmin x0 x1 x2 x3 x4) := fun _ _ _ _ _ => rfl
theorem Encoded.nmax : ∀ x0 x1 x2 x3 x4, Encoded.Statement (.nmax x0 x1 x2 x3 x4) := fun _ _ _ _ _ => rfl
theorem Encoded.sadd : ∀ x0 x1 x2 x3 x4, Encoded.Statement (.sadd x0 x1 x2 x3 x4) := fun _ _ _ _ _ => rfl
theorem Encoded.ssub : ∀ x0 x1 x2 x3 x4, Encoded.Statement (.ssub x0 x1 x2 x3 x4) := fun _ _ _ _ _ => rfl
theorem Encoded.imulX : ∀ x0 x1 x2 x3, Encoded.Statement (.imulX x0 x1 x2 x3) := fun _ _ _ _ => rfl
theorem Encoded.imulW : ∀ x0 x1 x2 x3, Encoded.Statement (.imulW x0 x1 x2 x3) := fun _ _ _ _ => rfl
theorem Encoded.imulhX : ∀ x0 x1 x2 x3, Encoded.Statement (.imulhX x0 x1 x2 x3) := fun _ _ _ _ => rfl
theorem Encoded.imulhW : ∀ x0 x1 x2 x3, Encoded.Statement (.imulhW x0 x1 x2 x3) := fun _ _ _ _ => rfl
theorem Encoded.nmulhX : ∀ x0 x1 x2 x3, Encoded.Statement (.nmulhX x0 x1 x2 x3) := fun _ _ _ _ => rfl
theorem Encoded.nmulhW : ∀ x0 x1 x2 x3, Encoded.Statement (.nmulhW x0 x1 x2 x3) := fun _ _ _ _ => rfl
theorem Encoded.imulw : ∀ x0 x1 x2 x3, Encoded.Statement (.imulw x0 x1 x2 x3) := fun _ _ _ _ => rfl
theorem Encoded.nmulw : ∀ x0 x1 x2 x3, Encoded.Statement (.nmulw x0 x1 x2 x3) := fun _ _ _ _ => rfl
theorem Encoded.and : ∀ x0 x1 x2 x3, Encoded.Statement (.and x0 x1 x2 x3) := fun _ _ _ _ => rfl
theorem Encoded.or : ∀ x0 x1 x2 x3, Encoded.Statement (.or x0 x1 x2 x3) := fun _ _ _ _ => rfl
theorem Encoded.xor : ∀ x0 x1 x2 x3, Encoded.Statement (.xor x0 x1 x2 x3) := fun _ _ _ _ => rfl
theorem Encoded.andn : ∀ x0 x1 x2 x3, Encoded.Statement (.andn x0 x1 x2 x3) := fun _ _ _ _ => rfl
theorem Encoded.orn : ∀ x0 x1 x2 x3, Encoded.Statement (.orn x0 x1 x2 x3) := fun _ _ _ _ => rfl
theorem Encoded.shlX : ∀ x0 x1 x2 x3, Encoded.Statement (.shlX x0 x1 x2 x3) := fun _ _ _ _ => rfl
theorem Encoded.shlW : ∀ x0 x1 x2 x3, Encoded.Statement (.shlW x0 x1 x2 x3) := fun _ _ _ _ => rfl
theorem Encoded.shrX : ∀ x0 x1 x2 x3, Encoded.Statement (.shrX x0 x1 x2 x3) := fun _ _ _ _ => rfl
theorem Encoded.shrW : ∀ x0 x1 x2 x3, Encoded.Statement (.shrW x0 x1 x2 x3) := fun _ _ _ _ => rfl
theorem Encoded.sarX : ∀ x0 x1 x2 x3, Encoded.Statement (.sarX x0 x1 x2 x3) := fun _ _ _ _ => rfl
theorem Encoded.sarW : ∀ x0 x1 x2 x3, Encoded.Statement (.sarW x0 x1 x2 x3) := fun _ _ _ _ => rfl
theorem Encoded.rolX : ∀ x0 x1 x2 x3, Encoded.Statement (.rolX x0 x1 x2 x3) := fun _ _ _ _ => rfl
theorem Encoded.rolW : ∀ x0 x1 x2 x3, Encoded.Statement (.rolW x0 x1 x2 x3) := fun _ _ _ _ => rfl
theorem Encoded.popc : ∀ x0 x1 x2, Encoded.Statement (.popc x0 x1 x2) := fun _ _ _ => rfl
theorem Encoded.clz : ∀ x0 x1 x2, Encoded.Statement (.clz x0 x1 x2) := fun _ _ _ => rfl
theorem Encoded.ctz : ∀ x0 x1 x2, Encoded.Statement (.ctz x0 x1 x2) := fun _ _ _ => rfl
theorem Encoded.brev : ∀ x0 x1 x2, Encoded.Statement (.brev x0 x1 x2) := fun _ _ _ => rfl
theorem Encoded.sel : ∀ x0 x1 x2 x3, Encoded.Statement (.sel x0 x1 x2 x3) := fun _ _ _ _ => rfl
theorem Encoded.bfx : ∀ x0 x1 x2 x3, Encoded.Statement (.bfx x0 x1 x2 x3) := fun _ _ _ _ => rfl
theorem Encoded.bfxs : ∀ x0 x1 x2 x3, Encoded.Statement (.bfxs x0 x1 x2 x3) := fun _ _ _ _ => rfl
theorem Encoded.bfi : ∀ x0 x1 x2 x3, Encoded.Statement (.bfi x0 x1 x2 x3) := fun _ _ _ _ => rfl
theorem Encoded.seperm : ∀ x0 x1 x2 x3, Encoded.Statement (.seperm x0 x1 x2 x3) := fun _ _ _ _ => rfl
theorem Encoded.iaddi : ∀ x0 x1 x2 x3, Encoded.Statement (.iaddi x0 x1 x2 x3) := fun _ _ _ _ => rfl
theorem Encoded.andi : ∀ x0 x1 x2 x3, Encoded.Statement (.andi x0 x1 x2 x3) := fun _ _ _ _ => rfl
theorem Encoded.ori : ∀ x0 x1 x2 x3, Encoded.Statement (.ori x0 x1 x2 x3) := fun _ _ _ _ => rfl
theorem Encoded.xori : ∀ x0 x1 x2 x3, Encoded.Statement (.xori x0 x1 x2 x3) := fun _ _ _ _ => rfl
theorem Encoded.shli : ∀ x0 x1 x2 x3 x4, Encoded.Statement (.shli x0 x1 x2 x3 x4) := fun _ _ _ _ _ => rfl
theorem Encoded.shri : ∀ x0 x1 x2 x3 x4, Encoded.Statement (.shri x0 x1 x2 x3 x4) := fun _ _ _ _ _ => rfl
theorem Encoded.sari : ∀ x0 x1 x2 x3 x4, Encoded.Statement (.sari x0 x1 x2 x3 x4) := fun _ _ _ _ _ => rfl
theorem Encoded.roli : ∀ x0 x1 x2 x3 x4, Encoded.Statement (.roli x0 x1 x2 x3 x4) := fun _ _ _ _ _ => rfl
theorem Encoded.limm : ∀ x0 x1 x2, Encoded.Statement (.limm x0 x1 x2) := fun _ _ _ => rfl
theorem Encoded.icmp : ∀ x0 x1 x2 x3 x4 x5 x6, Encoded.Statement (.icmp x0 x1 x2 x3 x4 x5 x6) := fun _ _ _ _ _ _ _ => rfl
theorem Encoded.icmpi : ∀ x0 x1 x2 x3 x4 x5 x6, Encoded.Statement (.icmpi x0 x1 x2 x3 x4 x5 x6) := fun _ _ _ _ _ _ _ => rfl
theorem Encoded.pand : ∀ x0 x1 x2 x3 x4, Encoded.Statement (.pand x0 x1 x2 x3 x4) := fun _ _ _ _ _ => rfl
theorem Encoded.por : ∀ x0 x1 x2 x3 x4, Encoded.Statement (.por x0 x1 x2 x3 x4) := fun _ _ _ _ _ => rfl
theorem Encoded.pxor : ∀ x0 x1 x2 x3 x4, Encoded.Statement (.pxor x0 x1 x2 x3 x4) := fun _ _ _ _ _ => rfl
theorem Encoded.pandn : ∀ x0 x1 x2 x3 x4, Encoded.Statement (.pandn x0 x1 x2 x3 x4) := fun _ _ _ _ _ => rfl
theorem Encoded.pnot : ∀ x0 x1 x2 x3, Encoded.Statement (.pnot x0 x1 x2 x3) := fun _ _ _ _ => rfl
theorem Encoded.mskr : ∀ x0 x1 x2, Encoded.Statement (.mskr x0 x1 x2) := fun _ _ _ => rfl
theorem Encoded.mskw : ∀ x0 x1 x2 x3, Encoded.Statement (.mskw x0 x1 x2 x3) := fun _ _ _ _ => rfl
theorem Encoded.mov : ∀ x0 x1 x2, Encoded.Statement (.mov x0 x1 x2) := fun _ _ _ => rfl
theorem Encoded.movs : ∀ x0 x1 x2, Encoded.Statement (.movs x0 x1 x2) := fun _ _ _ => rfl
theorem Encoded.wrs : ∀ x0 x1 x2, Encoded.Statement (.wrs x0 x1 x2) := fun _ _ _ => rfl
theorem Encoded.wrsFstat : ∀ x0 x1, Encoded.Statement (.wrsFstat x0 x1) := fun _ _ => rfl
theorem Encoded.lperm : ∀ x0 x1 x2 x3, Encoded.Statement (.lperm x0 x1 x2 x3) := fun _ _ _ _ => rfl
theorem Encoded.lxor : ∀ x0 x1 x2 x3, Encoded.Statement (.lxor x0 x1 x2 x3) := fun _ _ _ _ => rfl
theorem Encoded.lup : ∀ x0 x1 x2 x3, Encoded.Statement (.lup x0 x1 x2 x3) := fun _ _ _ _ => rfl
theorem Encoded.ldown : ∀ x0 x1 x2 x3, Encoded.Statement (.ldown x0 x1 x2 x3) := fun _ _ _ _ => rfl
theorem Encoded.lbc : ∀ x0 x1 x2 x3, Encoded.Statement (.lbc x0 x1 x2 x3) := fun _ _ _ _ => rfl
theorem Encoded.ballot : ∀ x0 x1 x2, Encoded.Statement (.ballot x0 x1 x2) := fun _ _ _ => rfl
theorem Encoded.vany : ∀ x0 x1 x2, Encoded.Statement (.vany x0 x1 x2) := fun _ _ _ => rfl
theorem Encoded.vall : ∀ x0 x1 x2, Encoded.Statement (.vall x0 x1 x2) := fun _ _ _ => rfl
theorem Encoded.elect : ∀ x0 x1, Encoded.Statement (.elect x0 x1) := fun _ _ => rfl
theorem Encoded.lpfx : ∀ x0 x1 x2, Encoded.Statement (.lpfx x0 x1 x2) := fun _ _ _ => rfl
theorem Encoded.imadX : ∀ x0 x1 x2 x3, Encoded.Statement (.imadX x0 x1 x2 x3) := fun _ _ _ _ => rfl
theorem Encoded.imadW : ∀ x0 x1 x2 x3, Encoded.Statement (.imadW x0 x1 x2 x3) := fun _ _ _ _ => rfl
theorem Encoded.imadw : ∀ x0 x1 x2 x3, Encoded.Statement (.imadw x0 x1 x2 x3) := fun _ _ _ _ => rfl
theorem Encoded.nmadw : ∀ x0 x1 x2 x3, Encoded.Statement (.nmadw x0 x1 x2 x3) := fun _ _ _ _ => rfl
theorem Encoded.bra : ∀ x0 x1, Encoded.Statement (.bra x0 x1) := fun _ _ => rfl
theorem Encoded.call : ∀ x0 x1, Encoded.Statement (.call x0 x1) := fun _ _ => rfl
theorem Encoded.brx : ∀ x0 x1, Encoded.Statement (.brx x0 x1) := fun _ _ => rfl
theorem Encoded.callx : ∀ x0 x1, Encoded.Statement (.callx x0 x1) := fun _ _ => rfl
theorem Encoded.ret : ∀ x0, Encoded.Statement (.ret x0) := fun _ => rfl
theorem Encoded.conv : ∀ x0 x1, Encoded.Statement (.conv x0 x1) := fun _ _ => rfl
theorem Encoded.exit : ∀ x0, Encoded.Statement (.exit x0) := fun _ => rfl
theorem Encoded.fadd : ∀ x0 x1 x2 x3 x4 x5, Encoded.Statement (.fadd x0 x1 x2 x3 x4 x5) := fun _ _ _ _ _ _ => rfl
theorem Encoded.fsub : ∀ x0 x1 x2 x3 x4 x5, Encoded.Statement (.fsub x0 x1 x2 x3 x4 x5) := fun _ _ _ _ _ _ => rfl
theorem Encoded.fmul : ∀ x0 x1 x2 x3 x4 x5, Encoded.Statement (.fmul x0 x1 x2 x3 x4 x5) := fun _ _ _ _ _ _ => rfl
theorem Encoded.fdiv : ∀ x0 x1 x2 x3 x4 x5, Encoded.Statement (.fdiv x0 x1 x2 x3 x4 x5) := fun _ _ _ _ _ _ => rfl
theorem Encoded.fma : ∀ x0 x1 x2 x3 x4, Encoded.Statement (.fma x0 x1 x2 x3 x4) := fun _ _ _ _ _ => rfl
theorem Encoded.fms : ∀ x0 x1 x2 x3 x4, Encoded.Statement (.fms x0 x1 x2 x3 x4) := fun _ _ _ _ _ => rfl
theorem Encoded.fnma : ∀ x0 x1 x2 x3 x4, Encoded.Statement (.fnma x0 x1 x2 x3 x4) := fun _ _ _ _ _ => rfl
theorem Encoded.fnms : ∀ x0 x1 x2 x3 x4, Encoded.Statement (.fnms x0 x1 x2 x3 x4) := fun _ _ _ _ _ => rfl
theorem Encoded.fsqrt : ∀ x0 x1 x2 x3 x4, Encoded.Statement (.fsqrt x0 x1 x2 x3 x4) := fun _ _ _ _ _ => rfl
theorem Encoded.frsq : ∀ x0 x1 x2 x3 x4, Encoded.Statement (.frsq x0 x1 x2 x3 x4) := fun _ _ _ _ _ => rfl
theorem Encoded.frcp : ∀ x0 x1 x2 x3 x4, Encoded.Statement (.frcp x0 x1 x2 x3 x4) := fun _ _ _ _ _ => rfl
theorem Encoded.fexp : ∀ x0 x1 x2 x3 x4, Encoded.Statement (.fexp x0 x1 x2 x3 x4) := fun _ _ _ _ _ => rfl
theorem Encoded.fexp2 : ∀ x0 x1 x2 x3 x4, Encoded.Statement (.fexp2 x0 x1 x2 x3 x4) := fun _ _ _ _ _ => rfl
theorem Encoded.fexpm1 : ∀ x0 x1 x2 x3 x4, Encoded.Statement (.fexpm1 x0 x1 x2 x3 x4) := fun _ _ _ _ _ => rfl
theorem Encoded.flog : ∀ x0 x1 x2 x3 x4, Encoded.Statement (.flog x0 x1 x2 x3 x4) := fun _ _ _ _ _ => rfl
theorem Encoded.flog2 : ∀ x0 x1 x2 x3 x4, Encoded.Statement (.flog2 x0 x1 x2 x3 x4) := fun _ _ _ _ _ => rfl
theorem Encoded.flog1p : ∀ x0 x1 x2 x3 x4, Encoded.Statement (.flog1p x0 x1 x2 x3 x4) := fun _ _ _ _ _ => rfl
theorem Encoded.ferf : ∀ x0 x1 x2 x3 x4, Encoded.Statement (.ferf x0 x1 x2 x3 x4) := fun _ _ _ _ _ => rfl
theorem Encoded.ferfc : ∀ x0 x1 x2 x3 x4, Encoded.Statement (.ferfc x0 x1 x2 x3 x4) := fun _ _ _ _ _ => rfl
theorem Encoded.fsin : ∀ x0 x1 x2 x3 x4, Encoded.Statement (.fsin x0 x1 x2 x3 x4) := fun _ _ _ _ _ => rfl
theorem Encoded.fcos : ∀ x0 x1 x2 x3 x4, Encoded.Statement (.fcos x0 x1 x2 x3 x4) := fun _ _ _ _ _ => rfl
theorem Encoded.ftanh : ∀ x0 x1 x2 x3 x4, Encoded.Statement (.ftanh x0 x1 x2 x3 x4) := fun _ _ _ _ _ => rfl
theorem Encoded.frint : ∀ x0 x1 x2 x3 x4, Encoded.Statement (.frint x0 x1 x2 x3 x4) := fun _ _ _ _ _ => rfl
theorem Encoded.fmin : ∀ x0 x1 x2 x3 x4, Encoded.Statement (.fmin x0 x1 x2 x3 x4) := fun _ _ _ _ _ => rfl
theorem Encoded.fmax : ∀ x0 x1 x2 x3 x4, Encoded.Statement (.fmax x0 x1 x2 x3 x4) := fun _ _ _ _ _ => rfl
theorem Encoded.fminn : ∀ x0 x1 x2 x3 x4, Encoded.Statement (.fminn x0 x1 x2 x3 x4) := fun _ _ _ _ _ => rfl
theorem Encoded.fmaxn : ∀ x0 x1 x2 x3 x4, Encoded.Statement (.fmaxn x0 x1 x2 x3 x4) := fun _ _ _ _ _ => rfl
theorem Encoded.fabs : ∀ x0 x1 x2 x3, Encoded.Statement (.fabs x0 x1 x2 x3) := fun _ _ _ _ => rfl
theorem Encoded.fneg : ∀ x0 x1 x2 x3, Encoded.Statement (.fneg x0 x1 x2 x3) := fun _ _ _ _ => rfl
theorem Encoded.fcps : ∀ x0 x1 x2 x3 x4, Encoded.Statement (.fcps x0 x1 x2 x3 x4) := fun _ _ _ _ _ => rfl
theorem Encoded.fclass : ∀ x0 x1 x2 x3, Encoded.Statement (.fclass x0 x1 x2 x3) := fun _ _ _ _ => rfl
theorem Encoded.fcmp : ∀ x0 x1 x2 x3 x4 x5 x6, Encoded.Statement (.fcmp x0 x1 x2 x3 x4 x5 x6) := fun _ _ _ _ _ _ _ => rfl
theorem Encoded.fcvt : ∀ x0 x1 x2 x3 x4 x5, Encoded.Statement (.fcvt x0 x1 x2 x3 x4 x5) := fun _ _ _ _ _ _ => rfl
theorem Encoded.fkey : ∀ x0 x1 x2 x3, Encoded.Statement (.fkey x0 x1 x2 x3) := fun _ _ _ _ => rfl
theorem Encoded.rng : ∀ x0 x1 x2 x3, Encoded.Statement (.rng x0 x1 x2 x3) := fun _ _ _ _ => rfl
theorem Encoded.ld : ∀ x0 x1 x2 x3 x4, Encoded.Statement (.ld x0 x1 x2 x3 x4) := fun _ _ _ _ _ => rfl
theorem Encoded.st : ∀ x0 x1 x2 x3 x4, Encoded.Statement (.st x0 x1 x2 x3 x4) := fun _ _ _ _ _ => rfl
theorem Encoded.ldp : ∀ x0 x1 x2 x3 x4, Encoded.Statement (.ldp x0 x1 x2 x3 x4) := fun _ _ _ _ _ => rfl
theorem Encoded.stp : ∀ x0 x1 x2 x3 x4, Encoded.Statement (.stp x0 x1 x2 x3 x4) := fun _ _ _ _ _ => rfl
theorem Encoded.ldacq : ∀ x0 x1 x2 x3 x4, Encoded.Statement (.ldacq x0 x1 x2 x3 x4) := fun _ _ _ _ _ => rfl
theorem Encoded.strel : ∀ x0 x1 x2 x3 x4, Encoded.Statement (.strel x0 x1 x2 x3 x4) := fun _ _ _ _ _ => rfl
theorem Encoded.atom : ∀ x0 x1 x2 x3 x4 x5, Encoded.Statement (.atom x0 x1 x2 x3 x4 x5) := fun _ _ _ _ _ _ => rfl
theorem Encoded.red : ∀ x0 x1 x2 x3 x4 x5 x6, Encoded.Statement (.red x0 x1 x2 x3 x4 x5 x6) := fun _ _ _ _ _ _ _ => rfl
theorem Encoded.cas : ∀ x0 x1 x2 x3 x4, Encoded.Statement (.cas x0 x1 x2 x3 x4) := fun _ _ _ _ _ => rfl
theorem Encoded.fence : ∀ x0 x1 x2, Encoded.Statement (.fence x0 x1 x2) := fun _ _ _ => rfl
theorem Encoded.aflush : ∀ x0, Encoded.Statement (.aflush x0) := fun _ => rfl
theorem Encoded.clean : ∀ x0 x1 x2, Encoded.Statement (.clean x0 x1 x2) := fun _ _ _ => rfl
theorem Encoded.inval : ∀ x0 x1 x2, Encoded.Statement (.inval x0 x1 x2) := fun _ _ _ => rfl
theorem Encoded.pscrub : ∀ x0 x1, Encoded.Statement (.pscrub x0 x1) := fun _ _ => rfl
theorem Encoded.bar : ∀ x0 x1, Encoded.Statement (.bar x0 x1) := fun _ _ => rfl
theorem Encoded.arrive : ∀ x0 x1 x2, Encoded.Statement (.arrive x0 x1 x2) := fun _ _ _ => rfl
theorem Encoded.waitb : ∀ x0 x1 x2, Encoded.Statement (.waitb x0 x1 x2) := fun _ _ _ => rfl
theorem Encoded.barc : ∀ x0, Encoded.Statement (.barc x0) := fun _ => rfl
theorem Encoded.fifow : ∀ x0 x1 x2 x3, Encoded.Statement (.fifow x0 x1 x2 x3) := fun _ _ _ _ => rfl
theorem Encoded.fifor : ∀ x0 x1 x2, Encoded.Statement (.fifor x0 x1 x2) := fun _ _ _ => rfl
theorem Encoded.bankcfg : ∀ x0 x1 x2, Encoded.Statement (.bankcfg x0 x1 x2) := fun _ _ _ => rfl
theorem Encoded.presq : ∀ x0 x1 x2, Encoded.Statement (.presq x0 x1 x2) := fun _ _ _ => rfl
theorem Encoded.pub : ∀ x0 x1 x2, Encoded.Statement (.pub x0 x1 x2) := fun _ _ _ => rfl
theorem Encoded.pubwait : ∀ x0 x1 x2, Encoded.Statement (.pubwait x0 x1 x2) := fun _ _ _ => rfl
theorem Encoded.mma : ∀ x0 x1 x2, Encoded.Statement (.mma x0 x1 x2) := fun _ _ _ => rfl
theorem Encoded.mepi : ∀ x0 x1 x2 x3, Encoded.Statement (.mepi x0 x1 x2 x3) := fun _ _ _ _ => rfl
theorem Encoded.mwait : ∀ x0 x1 x2, Encoded.Statement (.mwait x0 x1 x2) := fun _ _ _ => rfl
theorem Encoded.mqry : ∀ x0 x1 x2, Encoded.Statement (.mqry x0 x1 x2) := fun _ _ _ => rfl
theorem Encoded.mcan : ∀ x0 x1 x2, Encoded.Statement (.mcan x0 x1 x2) := fun _ _ _ => rfl
theorem Encoded.accz : ∀ x0 x1 x2, Encoded.Statement (.accz x0 x1 x2) := fun _ _ _ => rfl
theorem Encoded.accrd : ∀ x0 x1 x2, Encoded.Statement (.accrd x0 x1 x2) := fun _ _ _ => rfl
theorem Encoded.accwr : ∀ x0 x1 x2, Encoded.Statement (.accwr x0 x1 x2) := fun _ _ _ => rfl
theorem Encoded.cbld : ∀ x0 x1, Encoded.Statement (.cbld x0 x1) := fun _ _ => rfl
theorem Encoded.ftab : ∀ x0 x1 x2 x3, Encoded.Statement (.ftab x0 x1 x2 x3) := fun _ _ _ _ => rfl
theorem Encoded.fcall : ∀ x0 x1 x2 x3, Encoded.Statement (.fcall x0 x1 x2 x3) := fun _ _ _ _ => rfl
theorem Encoded.fprobe : ∀ x0 x1 x2 x3, Encoded.Statement (.fprobe x0 x1 x2 x3) := fun _ _ _ _ => rfl
theorem Encoded.fret : ∀ x0 x1 x2 x3, Encoded.Statement (.fret x0 x1 x2 x3) := fun _ _ _ _ => rfl
theorem Encoded.fins : ∀ x0 x1 x2 x3, Encoded.Statement (.fins x0 x1 x2 x3) := fun _ _ _ _ => rfl
theorem Encoded.fevict : ∀ x0 x1 x2 x3, Encoded.Statement (.fevict x0 x1 x2 x3) := fun _ _ _ _ => rfl
theorem Encoded.fclr : ∀ x0 x1, Encoded.Statement (.fclr x0 x1) := fun _ _ => rfl
theorem Encoded.fqry : ∀ x0 x1 x2 x3, Encoded.Statement (.fqry x0 x1 x2 x3) := fun _ _ _ _ => rfl
theorem Encoded.pbegin : ∀ x0, Encoded.Statement (.pbegin x0) := fun _ => rfl
theorem Encoded.accept : ∀ x0 x1 x2 x3 x4, Encoded.Statement (.accept x0 x1 x2 x3 x4) := fun _ _ _ _ _ => rfl
theorem Encoded.pcommit : ∀ x0, Encoded.Statement (.pcommit x0) := fun _ => rfl
theorem Encoded.pdisc : ∀ x0, Encoded.Statement (.pdisc x0) := fun _ => rfl
theorem Encoded.prun : ∀ x0 x1 x2 x3, Encoded.Statement (.prun x0 x1 x2 x3) := fun _ _ _ _ => rfl
theorem Encoded.semsig : ∀ x0 x1 x2, Encoded.Statement (.semsig x0 x1 x2) := fun _ _ _ => rfl
theorem Encoded.semwait : ∀ x0 x1 x2, Encoded.Statement (.semwait x0 x1 x2) := fun _ _ _ => rfl
theorem Encoded.semqry : ∀ x0 x1 x2, Encoded.Statement (.semqry x0 x1 x2) := fun _ _ _ => rfl
theorem Encoded.ovld : ∀ x0 x1 x2, Encoded.Statement (.ovld x0 x1 x2) := fun _ _ _ => rfl
theorem Encoded.ovwait : ∀ x0 x1 x2, Encoded.Statement (.ovwait x0 x1 x2) := fun _ _ _ => rfl
theorem Encoded.ovcall : ∀ x0 x1, Encoded.Statement (.ovcall x0 x1) := fun _ _ => rfl
theorem Encoded.ovevict : ∀ x0 x1 x2, Encoded.Statement (.ovevict x0 x1 x2) := fun _ _ _ => rfl
theorem Encoded.ovqry : ∀ x0 x1 x2, Encoded.Statement (.ovqry x0 x1 x2) := fun _ _ _ => rfl
theorem Encoded.trap : ∀ x0 x1, Encoded.Statement (.trap x0 x1) := fun _ _ => rfl
theorem Encoded.tret : Encoded.Statement .tret := rfl
theorem Encoded.yield : ∀ x0, Encoded.Statement (.yield x0) := fun _ => rfl
theorem Encoded.sleep : ∀ x0 x1, Encoded.Statement (.sleep x0 x1) := fun _ _ => rfl
theorem Encoded.launch : ∀ x0 x1 x2 x3, Encoded.Statement (.launch x0 x1 x2 x3) := fun _ _ _ _ => rfl
theorem Encoded.evsig : ∀ x0 x1 x2, Encoded.Statement (.evsig x0 x1 x2) := fun _ _ _ => rfl
theorem Encoded.evwait : ∀ x0 x1 x2, Encoded.Statement (.evwait x0 x1 x2) := fun _ _ _ => rfl
theorem Encoded.cvpub : ∀ x0 x1 x2, Encoded.Statement (.cvpub x0 x1 x2) := fun _ _ _ => rfl
theorem Encoded.cvswitch : ∀ x0 x1, Encoded.Statement (.cvswitch x0 x1) := fun _ _ => rfl
theorem Encoded.rdsys : ∀ x0 x1 x2, Encoded.Statement (.rdsys x0 x1 x2) := fun _ _ _ => rfl
theorem Encoded.wrsys : ∀ x0 x1 x2, Encoded.Statement (.wrsys x0 x1 x2) := fun _ _ _ => rfl
theorem Encoded.wrsysOvquota : ∀ x0 x1, Encoded.Statement (.wrsysOvquota x0 x1) := fun _ _ => rfl
theorem Encoded.cpy : ∀ x0 x1 x2 x3, Encoded.Statement (.cpy x0 x1 x2 x3) := fun _ _ _ _ => rfl
theorem Encoded.cpy2 : ∀ x0 x1 x2 x3, Encoded.Statement (.cpy2 x0 x1 x2 x3) := fun _ _ _ _ => rfl
theorem Encoded.cpyt : ∀ x0 x1 x2 x3, Encoded.Statement (.cpyt x0 x1 x2 x3) := fun _ _ _ _ => rfl
theorem Encoded.cfill : ∀ x0 x1 x2 x3, Encoded.Statement (.cfill x0 x1 x2 x3) := fun _ _ _ _ => rfl
theorem Encoded.cred : ∀ x0 x1 x2 x3 x4, Encoded.Statement (.cred x0 x1 x2 x3 x4) := fun _ _ _ _ _ => rfl
theorem Encoded.csig : ∀ x0 x1, Encoded.Statement (.csig x0 x1) := fun _ _ => rfl
theorem Encoded.cwait : ∀ x0 x1, Encoded.Statement (.cwait x0 x1) := fun _ _ => rfl
theorem Encoded.cloop : ∀ x0 x1, Encoded.Statement (.cloop x0 x1) := fun _ _ => rfl
theorem Encoded.cend : Encoded.Statement .cend := rfl
theorem Encoded.cpub : ∀ x0, Encoded.Statement (.cpub x0) := fun _ => rfl
theorem Encoded.cqsetAddi : ∀ x0 x1 x2, Encoded.Statement (.cqsetAddi x0 x1 x2) := fun _ _ _ => rfl
theorem Encoded.cqsetAdd : ∀ x0 x1 x2, Encoded.Statement (.cqsetAdd x0 x1 x2) := fun _ _ _ => rfl
theorem Encoded.cqsetLd : ∀ x0 x1 x2, Encoded.Statement (.cqsetLd x0 x1 x2) := fun _ _ _ => rfl
theorem Encoded.stallExpiry : ∀ x0, Encoded.Statement (.stallExpiry x0) := fun _ => rfl
theorem Encoded.sleepExpiry : ∀ x0, Encoded.Statement (.sleepExpiry x0) := fun _ => rfl
theorem Encoded.fairnessSwitch : ∀ x0, Encoded.Statement (.fairnessSwitch x0) := fun _ => rfl
theorem Encoded.forcedExchange : ∀ x0, Encoded.Statement (.forcedExchange x0) := fun _ => rfl
theorem Encoded.clusterBarrierComplete : ∀ x0 x1, Encoded.Statement (.clusterBarrierComplete x0 x1) := fun _ _ => rfl
theorem Encoded.ldpPresenceWake : ∀ x0, Encoded.Statement (.ldpPresenceWake x0) := fun _ => rfl
theorem Encoded.porterCopyComplete : ∀ x0 x1, Encoded.Statement (.porterCopyComplete x0 x1) := fun _ _ => rfl
theorem Encoded.porterResume : ∀ x0, Encoded.Statement (.porterResume x0) := fun _ => rfl
theorem Encoded.matrixChunk : ∀ x0 x1, Encoded.Statement (.matrixChunk x0 x1) := fun _ _ => rfl
theorem Encoded.jobEpilogue : ∀ x0 x1, Encoded.Statement (.jobEpilogue x0 x1) := fun _ _ => rfl
theorem Encoded.foremanRetryJob : ∀ x0 x1, Encoded.Statement (.foremanRetryJob x0 x1) := fun _ _ => rfl
theorem Encoded.foremanRepairOperand : ∀ x0 x1 x2, Encoded.Statement (.foremanRepairOperand x0 x1 x2) := fun _ _ _ => rfl
theorem Encoded.overlayLoadComplete : ∀ x0 x1, Encoded.Statement (.overlayLoadComplete x0 x1) := fun _ _ => rfl
theorem Encoded.assayerUpdate : ∀ x0 x1, Encoded.Statement (.assayerUpdate x0 x1) := fun _ _ => rfl
theorem Encoded.publicationSwap : ∀ x0 x1, Encoded.Statement (.publicationSwap x0 x1) := fun _ _ => rfl
theorem Encoded.redDrainComplete : ∀ x0, Encoded.Statement (.redDrainComplete x0) := fun _ => rfl
theorem Encoded.foremanExtendSpill : ∀ x0 x1 x2, Encoded.Statement (.foremanExtendSpill x0 x1 x2) := fun _ _ _ => rfl
theorem Encoded.foremanGrowCarveout : ∀ x0 x1 x2, Encoded.Statement (.foremanGrowCarveout x0 x1 x2) := fun _ _ _ => rfl
theorem Encoded.taggedRequest : ∀ x0 x1, Encoded.Statement (.taggedRequest x0 x1) := fun _ _ => rfl
theorem Encoded.taggedAck : ∀ x0 x1 x2, Encoded.Statement (.taggedAck x0 x1 x2) := fun _ _ _ => rfl
theorem Encoded.replayIntervalExpiry : ∀ x0 x1, Encoded.Statement (.replayIntervalExpiry x0 x1) := fun _ _ => rfl
theorem Encoded.join : ∀ x0 x1, Encoded.Statement (.join x0 x1) := fun _ _ => rfl
theorem Encoded.upg : ∀ x0 x1, Encoded.Statement (.upg x0 x1) := fun _ _ => rfl
theorem Encoded.purge : ∀ x0 x1, Encoded.Statement (.purge x0 x1) := fun _ _ => rfl
theorem Encoded.purged : ∀ x0 x1, Encoded.Statement (.purged x0 x1) := fun _ _ => rfl
theorem Encoded.leave : ∀ x0 x1, Encoded.Statement (.leave x0 x1) := fun _ _ => rfl
theorem Encoded.setprev : ∀ x0 x1 x2, Encoded.Statement (.setprev x0 x1 x2) := fun _ _ _ => rfl
theorem Encoded.setnext : ∀ x0 x1 x2, Encoded.Statement (.setnext x0 x1 x2) := fun _ _ _ => rfl
theorem Encoded.fetch : ∀ x0 x1 x2, Encoded.Statement (.fetch x0 x1 x2) := fun _ _ _ => rfl
theorem Encoded.recall : ∀ x0 x1, Encoded.Statement (.recall x0 x1) := fun _ _ => rfl
theorem Encoded.recallAck : ∀ x0 x1, Encoded.Statement (.recallAck x0 x1) := fun _ _ => rfl
theorem Encoded.homeReleaseTransaction : ∀ x0 x1, Encoded.Statement (.homeReleaseTransaction x0 x1) := fun _ _ => rfl
theorem Encoded.homeAcquireTransaction : ∀ x0 x1, Encoded.Statement (.homeAcquireTransaction x0 x1) := fun _ _ => rfl
theorem Encoded.backInvalidateSnoop : ∀ x0, Encoded.Statement (.backInvalidateSnoop x0) := fun _ => rfl
theorem Encoded.pageWalk : ∀ x0 x1 x2, Encoded.Statement (.pageWalk x0 x1 x2) := fun _ _ _ => rfl
theorem Encoded.tlbInvalidate : ∀ x0 x1 x2, Encoded.Statement (.tlbInvalidate x0 x1 x2) := fun _ _ _ => rfl
theorem Encoded.softError : ∀ x0 x1, Encoded.Statement (.softError x0 x1) := fun _ _ => rfl
theorem Encoded.backgroundScrub : ∀ x0, Encoded.Statement (.backgroundScrub x0) := fun _ => rfl
theorem Encoded.agentDeclaredDead : ∀ x0, Encoded.Statement (.agentDeclaredDead x0) := fun _ => rfl
theorem Encoded.dcdReleaseRequest : ∀ x0 x1 x2, Encoded.Statement (.dcdReleaseRequest x0 x1 x2) := fun _ _ _ => rfl
theorem Encoded.hostLaunchSubmit : ∀ x0 x1 x2, Encoded.Statement (.hostLaunchSubmit x0 x1 x2) := fun _ _ _ => rfl
theorem Encoded.queueBind : ∀ x0 x1, Encoded.Statement (.queueBind x0 x1) := fun _ _ => rfl
theorem Encoded.gridEligible : ∀ x0, Encoded.Statement (.gridEligible x0) := fun _ => rfl
theorem Encoded.foremanRepairMapping : ∀ x0 x1, Encoded.Statement (.foremanRepairMapping x0 x1) := fun _ _ => rfl
theorem Encoded.clusterPlace : Encoded.Statement .clusterPlace := rfl
theorem Encoded.quantumSliceEnd : ∀ x0, Encoded.Statement (.quantumSliceEnd x0) := fun _ => rfl
theorem Encoded.preemption : ∀ x0, Encoded.Statement (.preemption x0) := fun _ => rfl
theorem Encoded.resumption : ∀ x0 x1, Encoded.Statement (.resumption x0 x1) := fun _ _ => rfl
theorem Encoded.gridCompletion : ∀ x0, Encoded.Statement (.gridCompletion x0) := fun _ => rfl
theorem Encoded.trapVector : ∀ x0, Encoded.Statement (.trapVector x0) := fun _ => rfl
theorem Encoded.foremanResume : ∀ x0 x1, Encoded.Statement (.foremanResume x0 x1) := fun _ _ => rfl
theorem Encoded.foremanKillCrew : ∀ x0, Encoded.Statement (.foremanKillCrew x0) := fun _ => rfl
theorem Encoded.foremanEndGrid : ∀ x0 x1 x2, Encoded.Statement (.foremanEndGrid x0 x1 x2) := fun _ _ _ => rfl
theorem Encoded.foremanWithdrawLane : ∀ x0 x1 x2, Encoded.Statement (.foremanWithdrawLane x0 x1 x2) := fun _ _ _ => rfl
theorem Encoded.foremanCreateVersion : ∀ x0 x1 x2 x3 x4, Encoded.Statement (.foremanCreateVersion x0 x1 x2 x3 x4) := fun _ _ _ _ _ => rfl
theorem Encoded.fstsizeSet : ∀ x0 x1, Encoded.Statement (.fstsizeSet x0 x1) := fun _ _ => rfl
theorem Encoded.groupTableWrite : ∀ x0 x1, Encoded.Statement (.groupTableWrite x0 x1) := fun _ _ => rfl
theorem Encoded.credContribution : ∀ x0, Encoded.Statement (.credContribution x0) := fun _ => rfl
theorem Encoded.credResult : ∀ x0 x1 x2 x3 x4, Encoded.Statement (.credResult x0 x1 x2 x3 x4) := fun _ _ _ _ _ => rfl
theorem Encoded.umnorDataFlit : ∀ x0 x1, Encoded.Statement (.umnorDataFlit x0 x1) := fun _ _ => rfl
theorem Encoded.umnorIdleFlit : ∀ x0 x1, Encoded.Statement (.umnorIdleFlit x0 x1) := fun _ _ => rfl
theorem Encoded.umnorNegFlit : ∀ x0 x1, Encoded.Statement (.umnorNegFlit x0 x1) := fun _ _ => rfl
theorem Encoded.umnorReplayTimeout : ∀ x0, Encoded.Statement (.umnorReplayTimeout x0) := fun _ => rfl
theorem Encoded.umnorRetrain : ∀ x0 x1, Encoded.Statement (.umnorRetrain x0 x1) := fun _ _ => rfl
theorem Encoded.cxlPortTraining : ∀ x0 x1, Encoded.Statement (.cxlPortTraining x0 x1) := fun _ _ => rfl
theorem Encoded.powerGood : Encoded.Statement .powerGood := rfl
theorem Encoded.bootImageCheck : ∀ x0, Encoded.Statement (.bootImageCheck x0) := fun _ => rfl
theorem Encoded.attestationRequest : ∀ x0, Encoded.Statement (.attestationRequest x0) := fun _ => rfl
theorem Encoded.powerSample : ∀ x0, Encoded.Statement (.powerSample x0) := fun _ => rfl
theorem Encoded.clockStep : ∀ x0 x1 x2, Encoded.Statement (.clockStep x0 x1 x2) := fun _ _ _ => rfl
theorem Encoded.thermalStop : ∀ x0, Encoded.Statement (.thermalStop x0) := fun _ => rfl
theorem Encoded.thermalResume : ∀ x0, Encoded.Statement (.thermalResume x0) := fun _ => rfl
theorem Encoded.errorCountLog : ∀ x0, Encoded.Statement (.errorCountLog x0) := fun _ => rfl
theorem Encoded.eventLogRead : ∀ x0, Encoded.Statement (.eventLogRead x0) := fun _ => rfl
theorem Encoded.ethernetLinkDown : ∀ x0, Encoded.Statement (.ethernetLinkDown x0) := fun _ => rfl
theorem Encoded.unusedEncoding : ∀ x0, Encoded.Statement (.unusedEncoding x0) := fun _ => rfl
theorem Encoded.unfinishedInstructionFinish : ∀ x0 x1, Encoded.Statement (.unfinishedInstructionFinish x0 x1) := fun _ _ => rfl
theorem Encoded.ethernetLinkUp : ∀ x0, Encoded.Statement (.ethernetLinkUp x0) := fun _ => rfl

end Sys2Proof.Laws
end

