-- ==== Sys2Proof/Laws/Retire.lean ====
section
/-!
SUPPORT. What retirement and the writing of results do to a crew and to the machine (R18, R23, R25, R27, R75, R153, R158).
-/
namespace Sys2Proof.Machine

/-! ## Threads -/

@[simp] theorem Crew.th_updThr (c : Crew) (m : Mask) (f : Lane → Thread → Thread) (l : Lane) :
    (c.updThr m f).th l = if inMask m l then f l (c.th l) else c.th l := by simp only [Crew.updThr, Crew.th, at_lanes]

theorem Crew.updThr_zero (c : Crew) (f : Lane → Thread → Thread) : c.updThr 0#32 f = c := by
  simp only [Crew.updThr, inMask_zero, Bool.false_eq_true, if_false, Crew.th, lanes_at]

theorem Crew.exitLanes_zero (c : Crew) : c.exitLanes 0#32 = c := by
  simp only [Crew.exitLanes, maskLanes_zero, List.foldl_nil, ite_self, Crew.updThr_zero]

/-- The fields of a crew that pins do not touch. -/
def Crew.unpinned (c : Crew) : Crew := { c with pins := [] }

@[simp] theorem Crew.unpinned_addPins (c : Crew) (l : Lane) (o : Nat) (u : Bool) (n : Nat) : (c.addPins l o u n).unpinned = c.unpinned := rfl

theorem Crew.unpinned_dropPins (c : Crew) (l : Lane) : (c.dropPins l).unpinned = c.unpinned := by
  rw [Crew.dropPins]
  generalize c.pins = ps
  induction ps generalizing c with
  | nil => rfl
  | cons p ps ih =>
    rw [List.foldl_cons, ih]
    split <;> simp

theorem Crew.unpinned_foldl_dropPins (c : Crew) (ls : List Lane) : (ls.foldl Crew.dropPins c).unpinned = c.unpinned := by
  induction ls generalizing c with
  | nil => rfl
  | cons l ls ih => rw [List.foldl_cons, ih, Crew.unpinned_dropPins]

/-- Lanes that end: their threads are ended, and only pins change besides. -/
theorem Crew.exitLanes_unpinned (c : Crew) (m : Mask) : (c.exitLanes m).unpinned = (c.updThr m fun _ t => t.ended).unpinned := by
  have key : ∀ d : Crew, d.unpinned = c.unpinned → (d.updThr m fun _ t => t.ended).unpinned = (c.updThr m fun _ t => t.ended).unpinned := by
    intro d hd
    have : (d.unpinned.updThr m fun _ t => t.ended) = (c.unpinned.updThr m fun _ t => t.ended) := by rw [hd]
    simpa [Crew.unpinned, Crew.updThr, Crew.th] using congrArg Crew.unpinned this
  rw [Crew.exitLanes]
  apply key
  split
  · rfl
  · exact Crew.unpinned_foldl_dropPins c _

@[simp] theorem Crew.th_exitLanes (c : Crew) (m : Mask) (l : Lane) :
    (c.exitLanes m).th l = if inMask m l then (c.th l).ended else c.th l := by
  have h := congrArg Crew.thr (c.exitLanes_unpinned m)
  have h2 := Crew.th_updThr c m (fun _ t => t.ended) l
  simp only [Crew.unpinned] at h
  rw [← h2, Crew.th, Crew.th, h]

/-! ## Waits that end -/

@[simp] theorem Crew.th_goOn (c : Crew) (h : Header) (m : Mask) (l : Lane) :
    (c.goOn h m).th l = if inMask m l then { c.th l with pc := (c.th l).pc + 4, st := .live } else c.th l := by
  rw [← Crew.th_updThr c m (fun _ t => { t with pc := t.pc + 4, st := .live }) l, Crew.goOn, Crew.th, Crew.th]

@[simp] theorem Crew.regs_goOn (c : Crew) (h : Header) (m : Mask) : (c.goOn h m).regs = c.regs := by rw [Crew.goOn, Crew.updThr]
@[simp] theorem Crew.preds_goOn (c : Crew) (h : Header) (m : Mask) : (c.goOn h m).preds = c.preds := by rw [Crew.goOn, Crew.updThr]
@[simp] theorem Crew.latches_goOn (c : Crew) (h : Header) (m : Mask) : (c.goOn h m).latches = c.latches := by rw [Crew.goOn, Crew.updThr]
@[simp] theorem Crew.infl_goOn (c : Crew) (h : Header) (m : Mask) : (c.goOn h m).infl = c.infl := by rw [Crew.goOn, Crew.updThr]
@[simp] theorem Crew.slots_goOn (c : Crew) (h : Header) (m : Mask) : (c.goOn h m).slots = c.slots := by rw [Crew.goOn, Crew.updThr]

/-! ## Lanes of an entry -/

theorem runLane_kept {f : LaneFn} {e : Entry} {key : Nat} {l : Lane} {s : State} (h : inMask e.lost l = false) :
    runLane f e key l s = f e key l s := by simp [runLane, h]

theorem runLane_lost {f : LaneFn} {e : Entry} {key : Nat} {l : Lane} {s : State} (h : inMask e.lost l = true) :
    runLane f e key l s = (.failed ⟨cPoison, e.op0.at l⟩, s) := by simp [runLane, h]

/-! ## Retirement of a crew -/

/-- A retired crew's threads: those of F as their endings say, the others as they were. -/
theorem Crew.th_retire (c : Crew) (h : Header) (x : Ctx) (ps : List Latch) (iv : Bool) (a : Lane → After) (l : Lane) :
    (c.retire h x ps iv a).th l =
      if inMask x.F l then (if a l = .exit then (c.th l).ended else (a l).thread x (c.th l)) else c.th l := by
  have e : (c.retire h x ps iv a).thr =
      ((c.exitLanes (maskOf fun l => inMask x.F l && a l == .exit)).updThr x.F fun l t => (a l).thread x t).thr := by
    simp only [Crew.retire]
  rw [Crew.th, e, ← Crew.th]
  rw [Crew.th_updThr, Crew.th_exitLanes]
  by_cases hF : inMask x.F l = true
  · by_cases ha : a l = .exit
    · simp [hF, ha, After.thread]
    · simp [hF, ha]
  · simp [hF]

theorem Crew.unpinned_retire_regs (c : Crew) (h : Header) (x : Ctx) (ps : List Latch) (iv : Bool) (a : Lane → After) :
    (c.retire h x ps iv a).regs = c.regs ∧ (c.retire h x ps iv a).tags = c.tags ∧ (c.retire h x ps iv a).shadow = c.shadow ∧
    (c.retire h x ps iv a).stags = c.stags ∧ (c.retire h x ps iv a).preds = c.preds ∧ (c.retire h x ps iv a).run = none := by
  have e := c.exitLanes_unpinned (maskOf fun l => inMask x.F l && a l == .exit)
  simp only [Crew.retire, Crew.updThr]
  refine ⟨?_, ?_, ?_, ?_, ?_, trivial⟩
  · simpa [Crew.unpinned, Crew.updThr] using congrArg Crew.regs e
  · simpa [Crew.unpinned, Crew.updThr] using congrArg Crew.tags e
  · simpa [Crew.unpinned, Crew.updThr] using congrArg Crew.shadow e
  · simpa [Crew.unpinned, Crew.updThr] using congrArg Crew.stags e
  · simpa [Crew.unpinned, Crew.updThr] using congrArg Crew.preds e

@[simp] theorem Crew.retire_regs (c : Crew) (h : Header) (x : Ctx) (ps : List Latch) (iv : Bool) (a : Lane → After) :
    (c.retire h x ps iv a).regs = c.regs := (c.unpinned_retire_regs h x ps iv a).1
@[simp] theorem Crew.retire_tags (c : Crew) (h : Header) (x : Ctx) (ps : List Latch) (iv : Bool) (a : Lane → After) :
    (c.retire h x ps iv a).tags = c.tags := (c.unpinned_retire_regs h x ps iv a).2.1
@[simp] theorem Crew.retire_shadow (c : Crew) (h : Header) (x : Ctx) (ps : List Latch) (iv : Bool) (a : Lane → After) :
    (c.retire h x ps iv a).shadow = c.shadow := (c.unpinned_retire_regs h x ps iv a).2.2.1
@[simp] theorem Crew.retire_stags (c : Crew) (h : Header) (x : Ctx) (ps : List Latch) (iv : Bool) (a : Lane → After) :
    (c.retire h x ps iv a).stags = c.stags := (c.unpinned_retire_regs h x ps iv a).2.2.2.1
@[simp] theorem Crew.retire_preds (c : Crew) (h : Header) (x : Ctx) (ps : List Latch) (iv : Bool) (a : Lane → After) :
    (c.retire h x ps iv a).preds = c.preds := (c.unpinned_retire_regs h x ps iv a).2.2.2.2.1

/-- A crew's own record apart from its lanes, registers and latches, when no lane ends. -/
theorem Crew.retire_rest (c : Crew) (h : Header) (x : Ctx) (ps : List Latch) (iv : Bool) (a : Lane → After)
    (ha : ∀ l, inMask x.F l = true → a l ≠ .exit) : (c.retire h x ps iv a).rest = c.rest := by
  have hm : (maskOf fun l => inMask x.F l && a l == .exit) = 0#32 := by
    refine mask_eq_zero.2 fun l => ?_
    simp only [inMask_maskOf, Bool.and_eq_false_iff, beq_eq_false_iff_ne]
    by_cases hl : inMask x.F l = true
    · exact .inr (ha l hl)
    · exact .inl (by simpa using hl)
  simp only [Crew.retire, hm, Crew.exitLanes_zero, Crew.updThr, Crew.rest]

/-! ## The machine around a crew -/

theorem OnlyCrew.refl (s : State) {key : Nat} (h : (s.crew? key).isSome = true) : OnlyCrew s s key := ⟨rfl, fun _ _ => rfl, h⟩

theorem OnlyCrew.setCrew (s : State) (key : Nat) (c : Crew) : OnlyCrew s (s.setCrew key c) key :=
  ⟨rfl, fun _ h => s.crew?_setCrew_other c h, by simp⟩

theorem OnlyCrew.modCrew (s : State) (key : Nat) (f : Crew → Crew) : OnlyCrew s (s.modCrew key f) key := OnlyCrew.setCrew s key _

theorem OnlyCrew.trans {s t u : State} {key : Nat} (h : OnlyCrew s t key) (g : OnlyCrew t u key) : OnlyCrew s u key := by
  refine ⟨?_, fun k hk => (g.others k hk).trans (h.others k hk), g.here⟩
  rw [show ({ u with crews := s.crews } : State) = { ({ u with crews := t.crews } : State) with crews := s.crews } from rfl, g.rest, h.rest]

theorem OnlyCrew.gang {s t : State} {key : Nat} (h : OnlyCrew s t key) (g : Nat) : t.gang g = s.gang g := by
  have := congrArg State.gangs h.rest
  simp only at this
  simp [State.gang, this]

theorem OnlyCrew.mem {s t : State} {key : Nat} (h : OnlyCrew s t key) : t.mem = s.mem := by
  have := congrArg State.mem h.rest
  exact this

/-- What an instruction does after its issue, it does to the state before. -/
theorem Advances.ofIssue {s t : State} {key : Nat} {F : Mask} {pc : Pc} {b : Bool}
    (h : Advances (s.modCrew key fun c => c.noteIssue F b) t key F pc) : Advances s t key F pc :=
  ⟨(OnlyCrew.modCrew s key _).trans h.only, by simpa using h.rest, h.next, fun l hl => by simpa using h.threads l hl,
    fun l hl => by simpa using h.away l hl⟩

theorem WritesReg.ofIssue {s t : State} {key : Nat} {F : Mask} {pc : Pc} {d : BitVec 6} {m : Mask} {v : Lane → Word} {b : Bool}
    (h : WritesReg (s.modCrew key fun c => c.noteIssue F b) t key F pc d m v) : WritesReg s t key F pc d m v :=
  ⟨h.moves.ofIssue, by simpa [PredsKept] using h.preds, h.value, fun n l hn hl => by simpa using h.other n l hn hl,
    fun hd => by simpa [RegsKept] using h.none hd⟩

/-- Retirement to the next word, after a change of the crew that leaves the fields of `Advances` alone. -/
theorem advances_retire (s : State) (x : Ctx) (c : Crew) (ps : List Latch) (iv : Bool) (hr : c.rest = (s.crew x.key).rest)
    (ht : ∀ l, inMask x.F l = true → { c.th l with wm := ((s.crew x.key).th l).wm } = (s.crew x.key).th l)
    (ho : ∀ l, inMask x.F l = false → c.th l = (s.crew x.key).th l) :
    Advances s ((s.setCrew x.key c).retire x ps iv fun _ => .next) x.key x.F x.pc := by
  have hcr : ((s.setCrew x.key c).retire x ps iv fun _ => .next).crew x.key =
      c.retire ((s.setCrew x.key c).hdrOf x.key) x ps iv fun _ => .next := by simp [State.retire]
  refine ⟨(OnlyCrew.setCrew s x.key c).trans (OnlyCrew.modCrew _ _ _), ?_, ?_, ?_, ?_⟩
  · rw [hcr, Crew.retire_rest _ _ _ _ _ _ (by simp), hr]
  · intro l hl
    rw [hcr, Crew.th_retire]
    simp [hl, After.thread, Ctx.npc]
  · intro l hl
    rw [hcr, Crew.th_retire, ← ht l hl]
    simp [hl, After.thread]
  · intro l hl
    rw [hcr, Crew.th_retire, ← ho l hl]
    simp [hl]

/-! ## Register results (R18, R27, R75) -/

theorem Crew.rest_writeReg (c : Crew) (n : Nat) (m : Mask) (v : Lanes Word) (t : Tag) : (c.writeReg n m v t).rest = c.rest := by
  simp only [Crew.writeReg]
  by_cases h : c.bankLanes n m = 0
  · simp only [h, if_true]; rfl
  · simp only [h, if_false, Crew.writeShadow, Crew.updThr, Crew.writeCommitted, Crew.rest]

theorem Crew.preds_writeReg (c : Crew) (n : Nat) (m : Mask) (v : Lanes Word) (t : Tag) : (c.writeReg n m v t).preds = c.preds := by
  simp only [Crew.writeReg]
  by_cases h : c.bankLanes n m = 0
  · simp only [h, if_true]; rfl
  · simp only [h, if_false, Crew.writeShadow, Crew.updThr, Crew.writeCommitted]

theorem Crew.th_writeCommitted (c : Crew) (n : Nat) (m : Mask) (v : Lanes Word) (t : Tag) (l : Lane) :
    (c.writeCommitted n m v t).th l = c.th l := rfl

theorem Crew.th_writeShadow (c : Crew) (k : Nat) (m : Mask) (v : Lanes Word) (t : Tag) (l : Lane) :
    (c.writeShadow k m v t).th l = if inMask m l then { c.th l with wm := (c.th l).wm ||| (1#8 <<< k) } else c.th l := by
  have e : (c.writeShadow k m v t).thr = (c.updThr m fun _ t => { t with wm := t.wm ||| (1#8 <<< k) }).thr := by
    simp only [Crew.writeShadow]
  rw [Crew.th, e, ← Crew.th, Crew.th_updThr]

theorem Crew.inMask_bankLanes (c : Crew) (n : Nat) (m : Mask) (l : Lane) :
    inMask (c.bankLanes n m) l = (decide (40 ≤ n) && inMask m l && (c.th l).pmode) := by
  by_cases h : 40 ≤ n <;> simp [Crew.bankLanes, h]

/-- Threads after a register write: WM gains the bank register's bit in taking lanes in proposal mode (R27). -/
theorem Crew.th_writeReg (c : Crew) (n : Nat) (m : Mask) (v : Lanes Word) (t : Tag) (l : Lane) :
    (c.writeReg n m v t).th l =
      if inMask (c.bankLanes n m) l then { c.th l with wm := (c.th l).wm ||| (1#8 <<< (n - 40)) } else c.th l := by
  simp only [Crew.writeReg]
  by_cases h : c.bankLanes n m = 0
  · rw [if_pos h, h, Crew.th_writeCommitted, if_neg (by simp)]
  · rw [if_neg h, Crew.th_writeShadow]; rfl

theorem getD_setIfInBounds {α : Type} {k : Nat} (v : Vector α k) (n j : Nat) (x d : α) (hn : n < k) :
    (v.setIfInBounds n x).getD j d = if j = n then x else v.getD j d := by
  simp only [Vector.getD]
  by_cases hj : j < k
  · by_cases h : j = n
    · subst h; simp [hj]
    · simp [hj, h, Ne.symm h]
  · have : j ≠ n := by omega
    simp [hj, this]

/-- What a register reads after a write: the written value in the written lanes, and every other lane of every register as before. -/
theorem Crew.reg_writeReg (c : Crew) (n : Nat) (m : Mask) (v : Lanes Word) (t : Tag) (hn : n < 48) (k : Nat) (hk : k < 48) (l : Lane) :
    (c.writeReg n m v t).reg k l = if k = n ∧ inMask m l = true then v.at l else c.reg k l := by
  have hb := c.inMask_bankLanes n m l
  simp only [Crew.reg, Crew.readsShadow, Crew.th_writeReg]
  by_cases hs : c.bankLanes n m = 0
  · have hb' : inMask (c.bankLanes n m) l = false := by rw [hs]; exact inMask_zero l
    simp only [Crew.writeReg, hs, if_true, Crew.writeCommitted, getD_setIfInBounds _ _ _ _ _ hn]
    by_cases hkn : k = n
    · subst hkn
      by_cases hm : inMask m l = true
      · rw [hb'] at hb
        simp only [hm, Bool.and_true, Bool.false_eq, Bool.and_eq_false_iff, decide_eq_false_iff_not] at hb
        have : (decide (k ≥ 40) && (c.th l).pmode) = false := by
          rcases hb with h | h <;> simp [h]
        simp [hm, this]
      · simp [hm]
    · simp [hkn]
  · simp only [Crew.writeReg, hs, if_false, Crew.writeShadow, Crew.writeCommitted, Crew.updThr]
    have hn40 : 40 ≤ n := by
      by_cases h : 40 ≤ n
      · exact h
      · exact absurd (by simp [Crew.bankLanes, h]) hs
    rw [getD_setIfInBounds _ _ _ _ _ (by omega), getD_setIfInBounds _ _ _ _ _ hn]
    by_cases hbl : inMask (c.bankLanes n m) l = true
    · rw [hbl] at hb
      simp only [hn40, decide_true, Bool.true_and, Bool.true_eq, Bool.and_eq_true] at hb
      obtain ⟨hm, hp⟩ := hb
      simp only [hbl, hm, if_true, hp, Bool.and_true]
      by_cases hkn : k = n
      · subst hkn
        simp [hn40, hbl]
        omega
      · have hlt : (40 ≤ k) → ((c.th l).wm ||| 1#8 <<< (n - 40)).getLsbD (k - 40) = (c.th l).wm.getLsbD (k - 40) := by
          intro hk40
          have : (1#8 <<< (n - 40)).getLsbD (k - 40) = false := by
            simp only [BitVec.getLsbD_shiftLeft, BitVec.getLsbD_one]
            by_cases hlt : k - 40 < n - 40
            · simp [hlt]
            · simp; omega
          simp [this]
        by_cases hk40 : 40 ≤ k
        · simp [hkn, hk40, hlt hk40, show ¬ (k - 40 = n - 40) by omega]
        · simp [hkn, hk40]
    · have hbf : inMask (c.bankLanes n m) l = false := by simpa using hbl
      simp only [hbf, if_false, Bool.false_eq_true]
      by_cases hkn : k = n
      · subst hkn
        by_cases hm : inMask m l = true
        · rw [hbf] at hb
          simp only [hn40, decide_true, Bool.true_and, hm, Bool.false_eq] at hb
          simp [hm, hb, hbf]
        · simp [hm, hbf]
      · by_cases hk40 : 40 ≤ k
        · simp [hkn, show ¬ (k - 40 = n - 40) by omega]
        · simp [hkn, hk40]

/-- THE END OF AN INSTRUCTION WITH A REGISTER RESULT: its destination reads the result in the taking lanes, and nothing else changes. -/
theorem finishReg_writes (s : State) (x : Ctx) (d : BitVec 6) (v : Lanes Word) (t : Tag)
    (hm : ∀ l, inMask x.take l = true → inMask x.F l = true) : WritesReg s (s.finishReg x d v t) x.key x.F x.pc d x.take v.at := by
  have hcr : (s.finishReg x d v t).crew x.key = ((s.crew x.key).writeDst d x.take v t).retire
      ((s.setCrew x.key ((s.crew x.key).writeDst d x.take v t)).hdrOf x.key) x [(s.crew x.key).pushOf d x.take v t] false fun _ => .next := by
    simp [State.finishReg, State.retire]
  have hreg : ∀ (n : Nat) (l : Lane), ((s.finishReg x d v t).crew x.key).reg n l = ((s.crew x.key).writeDst d x.take v t).reg n l := by
    intro n l
    rw [hcr]
    simp only [Crew.reg, Crew.readsShadow, Crew.retire_regs, Crew.retire_shadow, Crew.th_retire]
    by_cases hl : inMask x.F l = true <;> simp [hl, After.thread]
  have hadv : Advances s (s.finishReg x d v t) x.key x.F x.pc := by
    refine advances_retire s x _ _ _ ?_ ?_ ?_
    · by_cases h : d < 48
      · rw [Crew.writeDst, if_pos h, Crew.rest_writeReg]
      · rw [Crew.writeDst, if_neg h]
    · intro l _
      by_cases h : d < 48
      · rw [Crew.writeDst, if_pos h, Crew.th_writeReg]
        split <;> rfl
      · rw [Crew.writeDst, if_neg h]
    · intro l hl
      by_cases h : d < 48
      · rw [Crew.writeDst, if_pos h, Crew.th_writeReg, if_neg]
        rw [Crew.inMask_bankLanes]
        have : inMask x.take l = false := by
          cases ht : inMask x.take l
          · rfl
          · rw [hm l ht] at hl; exact absurd hl (by simp)
        simp [this]
      · rw [Crew.writeDst, if_neg h]
  have hlt : ∀ (h : d < 48), d.toNat < 48 := fun h => h
  refine ⟨hadv, ?_, ?_, ?_, ?_⟩
  · rw [PredsKept, hcr, Crew.retire_preds]
    by_cases h : d < 48
    · rw [Crew.writeDst, if_pos h, Crew.preds_writeReg]
    · rw [Crew.writeDst, if_neg h]
  · intro h l hl
    rw [hreg, Crew.writeDst, if_pos h, Crew.reg_writeReg _ _ _ _ _ (hlt h) _ (hlt h), if_pos ⟨rfl, hl⟩]
  · intro n l hn hc
    rw [hreg]
    by_cases h : d < 48
    · rw [Crew.writeDst, if_pos h, Crew.reg_writeReg _ _ _ _ _ (hlt h) _ hn, if_neg]
      rintro ⟨h1, h2⟩
      rcases hc with hc | hc
      · exact hc h1
      · rw [hc] at h2; exact absurd h2 (by simp)
    · rw [Crew.writeDst, if_neg h]
  · intro h
    have hw : (s.crew x.key).writeDst d x.take v t = s.crew x.key := by
      rw [Crew.writeDst, if_neg]
      rw [h]; decide
    have hth : ∀ l, (((s.finishReg x d v t).crew x.key).th l).wm = ((s.crew x.key).th l).wm := by
      intro l
      rw [hcr, Crew.th_retire, hw]
      by_cases hl : inMask x.F l = true <;> simp [hl, After.thread]
    refine ⟨?_, ?_, ?_, ?_, hth⟩ <;> rw [hcr] <;> simp [hw]

/-- The taking lanes of an instruction lie in its fragment. -/
theorem taking_sub {i : Instr} {s : State} {key : Nat} {F : Mask} {l : Lane} (h : inMask (taking i s key F) l = true) :
    inMask F l = true := by
  simp only [taking, inMask_and, Bool.and_eq_true] at h
  exact h.1

/-- AN INSTRUCTION WHOSE BODY ENDS IN A REGISTER RESULT completes: it writes that result in its taking lanes, and nothing else. -/
theorem Issues.writes {i : Instr} {s : State} {key : Nat} {F : Mask} {pc : Pc} (h : Issues i s key F pc) (d : BitVec 6)
    (v : Ctx → State → Lanes Word) (t : Ctx → State → Tag) :
    ∃ u, Machine.issue i s (fun x s => s.finishReg x d (v x s) (t x s)) = .next u ∧
      WritesReg s u key F pc d (taking i s key F)
        (v (ctxAt i s key F pc) (s.modCrew key fun c => c.noteIssue F (isTret i))).at :=
  ⟨_, h.run _, (finishReg_writes _ (ctxAt i s key F pc) d _ _ fun _ hl => taking_sub hl).ofIssue⟩

end Sys2Proof.Machine
end

