-- ==== Sys2Proof/Laws/Traps.lean ====
section
/-!
SUPPORT. How an instruction ends without a register result, how a fragment traps (R85, R87), and what a Porter's word does (R257, R258).
-/
namespace Sys2Proof.Machine

/-! ## Endings without a register result -/

theorem Goes.ofIssue {s t : State} {key : Nat} {F : Mask} {b : Bool} {own : Crew → Crew} {next : Lane → Thread → Thread}
    (h : Goes (s.modCrew key fun c => c.noteIssue F b) t key F own next) : Goes s t key F own next := by
  obtain ⟨ho, hr, hf, ht, ha⟩ := h
  refine ⟨(OnlyCrew.modCrew s key _).trans ho, ?_, ?_, ?_, ?_⟩
  · simpa using hr
  · simpa [FileKept] using hf
  · intro l hl; simpa using ht l hl
  · intro l hl; simpa using ha l hl

/-- A retirement in which no lane ends: every lane of the fragment ends as `a` says, and nothing else of the machine changes. -/
theorem retire_goes (s : State) (x : Ctx) (ps : List Latch) (iv : Bool) (a : Lane → After)
    (ha : ∀ l, inMask x.F l = true → a l ≠ .exit) :
    Goes s (s.retire x ps iv a) x.key x.F id fun l t => (a l).thread x t := by
  have hc : (s.retire x ps iv a).crew x.key = (s.crew x.key).retire (s.hdrOf x.key) x ps iv a := by
    simp [State.retire]
  refine ⟨OnlyCrew.modCrew s _ _, ?_, ?_, ?_, ?_⟩
  · rw [hc, Crew.retire_rest _ _ _ _ _ _ ha, id]
  · simp only [FileKept, hc, Crew.retire_regs, Crew.retire_tags, Crew.retire_shadow, Crew.retire_stags, Crew.retire_preds, and_self]
  · intro l hl
    rw [hc, Crew.th_retire, if_pos hl, if_neg (ha l hl)]
  · intro l hl
    rw [hc, Crew.th_retire, if_neg (by simp [hl])]

/-- An instruction without a result goes on at the next word. -/
theorem finish_goes (s : State) (x : Ctx) : Goes s (s.finish x) x.key x.F id fun _ t => { t with pc := x.pc + 4 } :=
  retire_goes s x [] false (fun _ => .next) fun _ _ => by simp

/-! ## Traps of a whole fragment -/

/-- A TRAP OF THE WHOLE FRAGMENT starts from a state in which only unfinished instructions have left the crew, with the reported PC at the
instruction or its hint run's first word (R85, R329). -/
theorem trapWhole_takes (s : State) (x : Ctx) (cause : BitVec 8) (failing : Mask) (faddr : Lanes Word) (exc : Lanes (BitVec 5)) :
    ∃ info u, s.trapWhole x cause failing faddr exc = u.takeTrap x.key info ∧
      Goes s u x.key x.F (fun c => { c with infl := (u.crew x.key).infl }) (fun _ t => t) ∧
      info.cause = cause ∧ info.swn = 0 ∧ info.frag = x.F ∧ info.failing = failing ∧ info.faddr = faddr ∧ info.exc = exc ∧
      info.pc = x.start ∧ info.tent = none := by
  refine ⟨_, _, rfl, ⟨OnlyCrew.modCrew s _ _, ?_, ?_, ?_, ?_⟩, rfl, rfl, rfl, rfl, rfl, rfl, rfl, rfl⟩
  · simp only [State.crew_modCrew_self, Crew.dropCaptured, Crew.rest]
  · simp only [FileKept, State.crew_modCrew_self, Crew.dropCaptured, and_self]
  · intro l _
    simp only [State.crew_modCrew_self, Crew.dropCaptured, Crew.th]
  · intro l _
    simp only [State.crew_modCrew_self, Crew.dropCaptured, Crew.th]

/-- An instruction whose meaning traps the whole fragment, without addresses. -/
theorem TrapsWith.ofTrapWhole {i : Instr} {s : State} {key : Nat} {F : Mask} {pc : Pc} {cause : BitVec 8} {failing : Mask}
    {faddr : Lanes Word} {exc : Lanes (BitVec 5)} {b : Bool}
    (h : exec i s = .next ((s.modCrew key fun c => c.noteIssue F b).trapWhole (ctxAt i s key F pc) cause failing faddr exc)) :
    TrapsWith i s key F pc cause failing faddr.at := by
  obtain ⟨info, u, hu, hg, hc, hs, hf, hl, ha, -, hp, ht⟩ :=
    trapWhole_takes (s.modCrew key fun c => c.noteIssue F b) (ctxAt i s key F pc) cause failing faddr exc
  exact ⟨info, u, by rw [h, hu]; rfl, Goes.ofIssue hg, hc, hs, hf, hl, fun l _ => by rw [ha], hp, ht⟩

/-- An instruction that fails a decode check traps with that check's cause and has no effect (R87). -/
theorem issue_traps {i : Instr} {s : State} {key : Nat} {F : Mask} {pc : Pc} {cause : BitVec 8} (body : Ctx → State → State)
    (hc : s.cur = .frag key F pc) (hr : (s.crew? key).isSome = true)
    (h : decodeCheck i (s.hdrOf key) (s.crew key).run ((s.crew key).supOf F) ((s.crew key).noteIssue F (isTret i)) = some cause) :
    Machine.issue i s body = .next ((s.modCrew key fun c => c.noteIssue F (isTret i)).trapWhole (ctxAt i s key F pc) cause F
      (allLanes 0) (allLanes 0)) := by
  simp only [Machine.issue, hc, ctxOf_eq hc hr, issueFrag, ctxAt, State.hdrOf_noteIssue, State.crew_modCrew_self]
  rw [h]
  rfl

/-! ## Porters -/

@[simp] theorem State.core_modCore_self (s : State) (c : Nat) (f : Core → Core) : (s.modCore c f).core c = f (s.core c) := by
  simp only [State.modCore, State.setCore, State.core, Store.getD_set_self]

theorem State.core_modCore_other (s : State) {c n : Nat} (f : Core → Core) (h : n ≠ c) : (s.modCore c f).core n = s.core n := by
  simp only [State.modCore, State.setCore, State.core, Store.getD_set_other _ _ _ h]

/-- A change of one Porter's record. -/
theorem porterBecomes_modPorter (s : State) (core : Nat) (f : Porter → Porter) :
    PorterBecomes s (s.modPorter core f) core (f (s.core core).porter) :=
  ⟨rfl, fun _ h => State.core_modCore_other s _ h, by simp only [State.modPorter, State.core_modCore_self]⟩

/-- A Porter's word that has no reserved code has its effect. -/
theorem Streams.run {i : Instr} {s : State} {core gang : Nat} (h : Streams i s core gang) (body : Nat → State → State) :
    porterWord i s body = .next (body core s) := by
  simp [porterWord, h.cur, h.legal]

/-- A word of the compute stream stops the Porter that meets it, with ILLEGAL (R86, R258). -/
theorem issue_in_stream {i : Instr} {s : State} {core : Nat} (h : s.cur = .porter core) (body : Ctx → State → State) :
    Machine.issue i s body = .next (s.porterStop core cIllegal 0) := by
  simp [Machine.issue, h]

end Sys2Proof.Machine
end

