-- ==== Sys2Proof/Tests/Slice0.lean ====
section
/-!
SUPPORT. Tests: decoding of words put together from the spec's tables; the refusals of the decoder and of well-formedness; for each statement
a state and operands that meet its hypotheses (witness_...); and single steps whose results are computed by hand from the rules (test_...).
-/
set_option maxRecDepth 100000
namespace Sys2Proof.Tests
open Sys2Proof Sys2Proof.Machine

/-! ## Decoding: words put together from the spec's tables of forms, fields and codes, one for each row -/

theorem test_decode_hints :
    decodeWord 0x00000000 = .ok .nop ∧
    decodeWord 0x0040000E = .ok (.stall 14) ∧
    decodeWord 0x00800004 = .ok (.rnd 4) ∧
    decodeWord 0x00D5B3A7 = .ok (.ximm 1422247) ∧
    decodeWord 0x01000002 = .ok (.guard 2) ∧
    decodeWord 0x0140000B = .ok (.scope 2 3) ∧
    decodeWord 0x3A0099C2 = .ok (.wrs 4 19 14) ∧
    decodeWord 0x3980C162 = .ok (.wrsFstat 3 24) :=
  ⟨rfl, rfl, rfl, rfl, rfl, rfl, rfl, rfl⟩

theorem test_decode_integerA :
    decodeWord 0x07A8DC43 = .ok (.iadd 7 20 27 34 3) ∧
    decodeWord 0x07A8DC47 = .ok (.isub 7 20 27 34 3) ∧
    decodeWord 0x07A8DC4B = .ok (.imin 7 20 27 34 3) ∧
    decodeWord 0x07A8DC4F = .ok (.imax 7 20 27 34 3) ∧
    decodeWord 0x07A8DC53 = .ok (.nmin 7 20 27 34 3) ∧
    decodeWord 0x07A8DC57 = .ok (.nmax 7 20 27 34 3) ∧
    decodeWord 0x07A8DC5B = .ok (.sadd 7 20 27 34 3) ∧
    decodeWord 0x07A8DC5F = .ok (.ssub 7 20 27 34 3) ∧
    decodeWord 0x092AE460 = .ok (.imulX 2 21 28 35) ∧
    decodeWord 0x092AE461 = .ok (.imulW 2 21 28 35) ∧
    decodeWord 0x0AACEC82 = .ok (.imulhX 5 22 29 36) ∧
    decodeWord 0x0AACEC83 = .ok (.imulhW 5 22 29 36) ∧
    decodeWord 0x0AACEC84 = .ok (.nmulhX 5 22 29 36) ∧
    decodeWord 0x0AACEC85 = .ok (.nmulhW 5 22 29 36) ∧
    decodeWord 0x092AE466 = .ok (.imulw 2 21 28 35) ∧
    decodeWord 0x092AE467 = .ok (.nmulw 2 21 28 35) ∧
    decodeWord 0x0E26D420 = .ok (.and 4 19 26 33) ∧
    decodeWord 0x0CA4CC01 = .ok (.or 1 18 25 32) ∧
    decodeWord 0x0E26D422 = .ok (.xor 4 19 26 33) ∧
    decodeWord 0x0FA8DC43 = .ok (.andn 7 20 27 34) ∧
    decodeWord 0x0E26D424 = .ok (.orn 4 19 26 33) ∧
    decodeWord 0x0FA8DC45 = .ok (.shlX 7 20 27 34) ∧
    decodeWord 0x0FA8DC46 = .ok (.shlW 7 20 27 34) ∧
    decodeWord 0x0FA8DC47 = .ok (.shrX 7 20 27 34) :=
  ⟨rfl, rfl, rfl, rfl, rfl, rfl, rfl, rfl, rfl, rfl, rfl, rfl, rfl, rfl, rfl, rfl, rfl, rfl, rfl, rfl, rfl, rfl, rfl, rfl⟩

theorem test_decode_integerB :
    decodeWord 0x0FA8DC48 = .ok (.shrW 7 20 27 34) ∧
    decodeWord 0x0FA8DC49 = .ok (.sarX 7 20 27 34) ∧
    decodeWord 0x0FA8DC4A = .ok (.sarW 7 20 27 34) ∧
    decodeWord 0x0FA8DC4B = .ok (.rolX 7 20 27 34) ∧
    decodeWord 0x0FA8DC4C = .ok (.rolW 7 20 27 34) ∧
    decodeWord 0x0FA8D80D = .ok (.popc 7 20 27) ∧
    decodeWord 0x0E26D00E = .ok (.clz 4 19 26) ∧
    decodeWord 0x0E26D00F = .ok (.ctz 4 19 26) ∧
    decodeWord 0x0FA8D810 = .ok (.brev 7 20 27) ∧
    decodeWord 0x0E26D431 = .ok (.sel 4 19 26 33) ∧
    decodeWord 0x1226D420 = .ok (.bfx 4 19 26 33) ∧
    decodeWord 0x13A8DC41 = .ok (.bfxs 7 20 27 34) ∧
    decodeWord 0x1226D422 = .ok (.bfi 4 19 26 33) ∧
    decodeWord 0x12ACEC83 = .ok (.seperm 5 22 29 36) ∧
    decodeWord 0x152AE69C = .ok (.iaddi 2 21 28 1692) ∧
    decodeWord 0x1BA8DE9C = .ok (.andi 7 20 27 1692) ∧
    decodeWord 0x1E26D69C = .ok (.ori 4 19 26 1692) ∧
    decodeWord 0x23A8DE9C = .ok (.xori 7 20 27 1692) ∧
    decodeWord 0x27A8D901 = .ok (.shli 7 20 27 2 1) ∧
    decodeWord 0x27A8DB01 = .ok (.shri 7 20 27 2 1) ∧
    decodeWord 0x27A8DD01 = .ok (.sari 7 20 27 2 1) ∧
    decodeWord 0x27A8DF01 = .ok (.roli 7 20 27 2 1) ∧
    decodeWord 0x2BA91AF5 = .ok (.limm 7 20 72437) ∧
    decodeWord 0x40E55C8C = .ok (.imadX 14 21 28 35) :=
  ⟨rfl, rfl, rfl, rfl, rfl, rfl, rfl, rfl, rfl, rfl, rfl, rfl, rfl, rfl, rfl, rfl, rfl, rfl, rfl, rfl, rfl, rfl, rfl, rfl⟩

theorem test_decode_integerC :
    decodeWord 0x40E55C8D = .ok (.imadW 14 21 28 35) ∧
    decodeWord 0x40E55C8E = .ok (.imadw 14 21 28 35) ∧
    decodeWord 0x40E55C8F = .ok (.nmadw 14 21 28 35) :=
  ⟨rfl, rfl, rfl⟩

theorem test_decode_predicates :
    decodeWord 0x2FC31021 = .ok (.icmp 7 4 1 34 1 0 1) ∧
    decodeWord 0x3179184C = .ok (.icmpi 2 7 4 35 2 3 0) ∧
    decodeWord 0x37C23060 = .ok (.pand 7 4 1 6 3) ∧
    decodeWord 0x361C1801 = .ok (.por 4 1 6 3 0) ∧
    decodeWord 0x37C23062 = .ok (.pxor 7 4 1 6 3) ∧
    decodeWord 0x357808C3 = .ok (.pandn 2 7 4 1 6) ∧
    decodeWord 0x37C23004 = .ok (.pnot 7 4 1 6) ∧
    decodeWord 0x37A8D805 = .ok (.mskr 7 20 27) ∧
    decodeWord 0x37C31006 = .ok (.mskw 7 4 1 34) ∧
    decodeWord 0x3A26D000 = .ok (.mov 4 19 26) ∧
    decodeWord 0x3BA80361 = .ok (.movs 7 20 27) :=
  ⟨rfl, rfl, rfl, rfl, rfl, rfl, rfl, rfl, rfl, rfl, rfl⟩

theorem test_decode_lanes :
    decodeWord 0x3D2AE460 = .ok (.lperm 2 21 28 35) ∧
    decodeWord 0x3FA8DC41 = .ok (.lxor 7 20 27 34) ∧
    decodeWord 0x3E26D422 = .ok (.lup 4 19 26 33) ∧
    decodeWord 0x3D2AE463 = .ok (.ldown 2 21 28 35) ∧
    decodeWord 0x3E26D424 = .ok (.lbc 4 19 26 33) ∧
    decodeWord 0x3EACE805 = .ok (.ballot 5 22 29) ∧
    decodeWord 0x3FA8D806 = .ok (.vany 7 20 27) ∧
    decodeWord 0x3FA8D807 = .ok (.vall 7 20 27) ∧
    decodeWord 0x3D2A0008 = .ok (.elect 2 21) ∧
    decodeWord 0x3FA8D809 = .ok (.lpfx 7 20 27) :=
  ⟨rfl, rfl, rfl, rfl, rfl, rfl, rfl, rfl, rfl, rfl⟩

theorem test_decode_control :
    decodeWord 0x462B674E = .ok (.bra 4 2844494) ∧
    decodeWord 0x4BAB674E = .ok (.call 7 2844494) ∧
    decodeWord 0x4E009800 = .ok (.brx 4 19) ∧
    decodeWord 0x4D00A801 = .ok (.callx 2 21) ∧
    decodeWord 0x4E000002 = .ok (.ret 4) ∧
    decodeWord 0x4F80A003 = .ok (.conv 7 20) ∧
    decodeWord 0x4F800004 = .ok (.exit 7) :=
  ⟨rfl, rfl, rfl, rfl, rfl, rfl, rfl⟩

theorem test_decode_floatA :
    decodeWord 0x53A8DC4C = .ok (.fadd 7 20 27 34 3 0) ∧
    decodeWord 0x57A8DC4C = .ok (.fsub 7 20 27 34 3 0) ∧
    decodeWord 0x5BA8DC4C = .ok (.fmul 7 20 27 34 3 0) ∧
    decodeWord 0x5FA8DC4C = .ok (.fdiv 7 20 27 34 3 0) ∧
    decodeWord 0x60C4DA84 = .ok (.fma 12 19 26 33 0) ∧
    decodeWord 0x64C4DA84 = .ok (.fms 12 19 26 33 0) ∧
    decodeWord 0x68D51B8B = .ok (.fnma 13 20 27 34 3) ∧
    decodeWord 0x6CD51B8B = .ok (.fnms 13 20 27 34 3) ∧
    decodeWord 0x712AE006 = .ok (.fsqrt 2 21 28 1 2) ∧
    decodeWord 0x73A8D83B = .ok (.frsq 7 20 27 6 3) ∧
    decodeWord 0x73A8D85B = .ok (.frcp 7 20 27 6 3) ∧
    decodeWord 0x73A8D87B = .ok (.fexp 7 20 27 6 3) ∧
    decodeWord 0x712AE086 = .ok (.fexp2 2 21 28 1 2) ∧
    decodeWord 0x72ACE8B1 = .ok (.fexpm1 5 22 29 4 1) ∧
    decodeWord 0x73A8D8DB = .ok (.flog 7 20 27 6 3) ∧
    decodeWord 0x712AE0E6 = .ok (.flog2 2 21 28 1 2) ∧
    decodeWord 0x72ACE911 = .ok (.flog1p 5 22 29 4 1) ∧
    decodeWord 0x73A8D93B = .ok (.ferf 7 20 27 6 3) ∧
    decodeWord 0x712AE146 = .ok (.ferfc 2 21 28 1 2) ∧
    decodeWord 0x73A8D97B = .ok (.fsin 7 20 27 6 3) ∧
    decodeWord 0x73A8D99B = .ok (.fcos 7 20 27 6 3) ∧
    decodeWord 0x712AE1A6 = .ok (.ftanh 2 21 28 1 2) ∧
    decodeWord 0x712AE1C6 = .ok (.frint 2 21 28 1 2) ∧
    decodeWord 0x77A8DC43 = .ok (.fmin 7 20 27 34 3) :=
  ⟨rfl, rfl, rfl, rfl, rfl, rfl, rfl, rfl, rfl, rfl, rfl, rfl, rfl, rfl, rfl, rfl, rfl, rfl, rfl, rfl, rfl, rfl, rfl, rfl⟩

theorem test_decode_floatB :
    decodeWord 0x77A8DC47 = .ok (.fmax 7 20 27 34 3) ∧
    decodeWord 0x752AE46A = .ok (.fminn 2 21 28 35 2) ∧
    decodeWord 0x752AE46E = .ok (.fmaxn 2 21 28 35 2) ∧
    decodeWord 0x77A8D812 = .ok (.fabs 7 20 27 2) ∧
    decodeWord 0x77A8D816 = .ok (.fneg 7 20 27 2) ∧
    decodeWord 0x77A8DC5B = .ok (.fcps 7 20 27 34 3) ∧
    decodeWord 0x76ACE81C = .ok (.fclass 5 22 29 0) ∧
    decodeWord 0x7BC31021 = .ok (.fcmp 7 4 1 34 1 0 1) ∧
    decodeWord 0x7FA8D998 = .ok (.fcvt 7 20 27 3 3 0) ∧
    decodeWord 0x7FA8DF90 = .ok (.fkey 7 20 27 2) ∧
    decodeWord 0x8226D420 = .ok (.rng 4 19 26 33) :=
  ⟨rfl, rfl, rfl, rfl, rfl, rfl, rfl, rfl, rfl, rfl, rfl⟩

theorem test_decode_memory :
    decodeWord 0x84A4C8C5 = .ok (.ld 1 18 25 24 5) ∧
    decodeWord 0x88A4C8C5 = .ok (.st 1 18 25 24 5) ∧
    decodeWord 0x8E26D0D8 = .ok (.ldp 4 19 26 27 0) ∧
    decodeWord 0x9226D0D8 = .ok (.stp 4 19 26 27 0) ∧
    decodeWord 0x952AE086 = .ok (.ldacq 2 21 28 1 6) ∧
    decodeWord 0x952AE486 = .ok (.strel 2 21 28 1 6) ∧
    decodeWord 0x9BA8DC46 = .ok (.atom 7 20 27 34 3 0) ∧
    decodeWord 0x9E19080A = .ok (.red 4 1 2 33 0 5 0) ∧
    decodeWord 0xA0C4DA84 = .ok (.cas 12 19 26 33 0) ∧
    decodeWord 0xA5000700 = .ok (.fence 2 7 0) ∧
    decodeWord 0xA6800001 = .ok (.aflush 5) ∧
    decodeWord 0xA500A802 = .ok (.clean 2 21 0) ∧
    decodeWord 0xA500A803 = .ok (.inval 2 21 0) ∧
    decodeWord 0xA680B004 = .ok (.pscrub 5 22) :=
  ⟨rfl, rfl, rfl, rfl, rfl, rfl, rfl, rfl, rfl, rfl, rfl, rfl, rfl, rfl⟩

theorem test_decode_sync :
    decodeWord 0xAA000260 = .ok (.bar 4 19) ∧
    decodeWord 0xAAAC03A1 = .ok (.arrive 5 22 29) ∧
    decodeWord 0xA900AB82 = .ok (.waitb 2 21 28) ∧
    decodeWord 0xAB800003 = .ok (.barc 7) ∧
    decodeWord 0xAD2AE460 = .ok (.fifow 2 21 28 35) ∧
    decodeWord 0xAD2A0381 = .ok (.fifor 2 21 28) ∧
    decodeWord 0xAC2EF002 = .ok (.bankcfg 0 23 30) ∧
    decodeWord 0xAD2AE003 = .ok (.presq 2 21 28) :=
  ⟨rfl, rfl, rfl, rfl, rfl, rfl, rfl, rfl⟩

theorem test_decode_matrix :
    decodeWord 0xB226D000 = .ok (.pub 4 19 26) ∧
    decodeWord 0xB02EF001 = .ok (.pubwait 0 23 30) ∧
    decodeWord 0xB626D000 = .ok (.mma 4 19 26) ∧
    decodeWord 0xB7A8DC41 = .ok (.mepi 7 20 27 34) ∧
    decodeWord 0xB52AE002 = .ok (.mwait 2 21 28) ∧
    decodeWord 0xB7A8D803 = .ok (.mqry 7 20 27) ∧
    decodeWord 0xB7A8D804 = .ok (.mcan 7 20 27) ∧
    decodeWord 0xB780A365 = .ok (.accz 7 20 27) ∧
    decodeWord 0xB52AE006 = .ok (.accrd 2 21 28) ∧
    decodeWord 0xB500AB87 = .ok (.accwr 2 21 28) ∧
    decodeWord 0xB780A008 = .ok (.cbld 7 20) :=
  ⟨rfl, rfl, rfl, rfl, rfl, rfl, rfl, rfl, rfl, rfl, rfl⟩

theorem test_decode_store :
    decodeWord 0xBBA8DC40 = .ok (.ftab 7 20 27 34) ∧
    decodeWord 0xB92AE461 = .ok (.fcall 2 21 28 35) ∧
    decodeWord 0xBAACEC82 = .ok (.fprobe 5 22 29 36) ∧
    decodeWord 0xBBA8DC43 = .ok (.fret 7 20 27 34) ∧
    decodeWord 0xBBA8DC44 = .ok (.fins 7 20 27 34) ∧
    decodeWord 0xBAACEC85 = .ok (.fevict 5 22 29 36) ∧
    decodeWord 0xBB800286 = .ok (.fclr 7 20) ∧
    decodeWord 0xBBA8DC47 = .ok (.fqry 7 20 27 34) ∧
    decodeWord 0xBE800000 = .ok (.pbegin 5) ∧
    decodeWord 0xBEA32061 = .ok (.accept 5 2 1 36 3) ∧
    decodeWord 0xBC000002 = .ok (.pcommit 0) ∧
    decodeWord 0xBD000003 = .ok (.pdisc 2) :=
  ⟨rfl, rfl, rfl, rfl, rfl, rfl, rfl, rfl, rfl, rfl, rfl, rfl⟩

theorem test_decode_overlay :
    decodeWord 0xC3A8DC40 = .ok (.prun 7 20 27 34) ∧
    decodeWord 0xC280B3A1 = .ok (.semsig 5 22 29) ∧
    decodeWord 0xC000BBC2 = .ok (.semwait 0 23 30) ∧
    decodeWord 0xC2AC03A3 = .ok (.semqry 5 22 29) ∧
    decodeWord 0xC7A8D800 = .ok (.ovld 7 20 27) ∧
    decodeWord 0xC6ACE801 = .ok (.ovwait 5 22 29) ∧
    decodeWord 0xC680B002 = .ok (.ovcall 5 22) ∧
    decodeWord 0xC42EF003 = .ok (.ovevict 0 23 30) ∧
    decodeWord 0xC52AE004 = .ok (.ovqry 2 21 28) :=
  ⟨rfl, rfl, rfl, rfl, rfl, rfl, rfl, rfl, rfl⟩

theorem test_decode_system :
    decodeWord 0xCB800280 = .ok (.trap 7 20) ∧
    decodeWord 0xC8000001 = .ok .tret ∧
    decodeWord 0xC9000002 = .ok (.yield 2) ∧
    decodeWord 0xC900A803 = .ok (.sleep 2 21) ∧
    decodeWord 0xCAACEC84 = .ok (.launch 5 22 29 36) ∧
    decodeWord 0xC900AB85 = .ok (.evsig 2 21 28) ∧
    decodeWord 0xCA80B3A6 = .ok (.evwait 5 22 29) ∧
    decodeWord 0xC92AE007 = .ok (.cvpub 2 21 28) ∧
    decodeWord 0xC9B00008 = .ok (.cvswitch 3 24) ∧
    decodeWord 0xC92A0389 = .ok (.rdsys 2 21 28) ∧
    decodeWord 0xC900A8AA = .ok (.wrsys 2 21 5) ∧
    decodeWord 0xCB80E08A = .ok (.wrsysOvquota 7 28) :=
  ⟨rfl, rfl, rfl, rfl, rfl, rfl, rfl, rfl, rfl, rfl, rfl, rfl⟩

theorem test_decode_porter :
    decodeWord 0xE21D0000 = .ok (.cpy 4 1 6 1) ∧
    decodeWord 0xE3C20001 = .ok (.cpy2 7 4 1 0) ∧
    decodeWord 0xE3C20002 = .ok (.cpyt 7 4 1 0) ∧
    decodeWord 0xE1790003 = .ok (.cfill 2 7 4 1) ∧
    decodeWord 0xE3C3B004 = .ok (.cred 7 4 1 6 3) ∧
    decodeWord 0xE4006A80 = .ok (.csig 13 20) ∧
    decodeWord 0xE40072A1 = .ok (.cwait 14 21) ∧
    decodeWord 0xE500E9C2 = .ok (.cloop 2 1870) ∧
    decodeWord 0xE4000003 = .ok .cend ∧
    decodeWord 0xE7800004 = .ok (.cpub 7) ∧
    decodeWord 0xE7305EA5 = .ok (.cqsetAddi 6 3 757) ∧
    decodeWord 0xE58A8005 = .ok (.cqsetAdd 3 0 5) ∧
    decodeWord 0xE4515EA5 = .ok (.cqsetLd 0 5 757) :=
  ⟨rfl, rfl, rfl, rfl, rfl, rfl, rfl, rfl, rfl, rfl, rfl, rfl, rfl⟩

/-- A word of each form, written field by field (R73). -/
theorem test_decode_forms :
    decodeWord (0b000001#6 ++ 0b111#3 ++ 0b010100#6 ++ 0b011011#6 ++ 0b100010#6 ++ 0b00000#5) = .ok (.iadd 7 20 27 34 0) ∧
    decodeWord (0b000101#6 ++ 0b010#3 ++ 0b010101#6 ++ 0b011100#6 ++ 0b10000000000#11) = .ok (.iaddi 2 21 28 1024) ∧
    decodeWord (0b001010#6 ++ 0b010#3 ++ 0b010101#6 ++ 0b10000000000000000#17) = .ok (.limm 2 21 65536) ∧
    decodeWord (0b001100#6 ++ 0b010#3 ++ 0b111#3 ++ 0b100#3 ++ 0b100011#6 ++ 0b100000#6 ++ 0b011#3 ++ 0b10#2) = .ok (.icmpi 2 7 4 35 32 3 2) := by
  refine ⟨rfl, rfl, rfl, rfl⟩

/-- The worked encodings of the manual's chapter 3. -/
theorem test_decode_worked :
    decodeWord 0x00800003 = .ok (.rnd 3) ∧ decodeWord 0x01000003 = .ok (.guard 3) ∧ decodeWord 0x60824A2C = .ok (.fma 8 9 10 11 0) ∧
    decodeWord 0x2C141889 = .ok (.icmp 0 1 2 3 4 2 1) ∧ decodeWord 0x840E1812 = .ok (.ld 0 7 3 2 2) ∧ decodeWord 0x00C00000 = .ok (.ximm 0) ∧
    decodeWord 0x28050000 = .ok (.limm 0 2 0x10000) ∧ decodeWord 0x01400007 = .ok (.scope 1 3) ∧
    decodeWord 0x980828C0 = .ok (.atom 0 4 5 6 0 0) :=
  ⟨rfl, rfl, rfl, rfl, rfl, rfl, rfl, rfl, rfl⟩

/-- Reserved majors and codes are ILLEGAL, a reserved bit is RESBITS, and short input is no instruction (R86). -/
theorem test_decode_refused :
    decodeWord 0xFFFFFFFF = .error .illegal ∧ decodeWord 0x0E26D43F = .error .illegal ∧ decodeWord 0x00000001 = .error .resbits ∧
    decodeWord 0xC8000041 = .error .resbits ∧ decodeTableWord 32 0xFFFFFFFF = none ∧ decodeTableWord 32 0x00000000 = some .nop := by
  refine ⟨rfl, rfl, rfl, rfl, rfl, rfl⟩

theorem test_encode : encode (.iadd 7 20 27 34 3) = [0x07A8DC43] ∧ encode .tret = [0xC8000001] := by decide

/-- Each check of well-formedness refuses a term: a code field outside its values, a destination code of 49, WRS of FSTAT by its other
name, and a unit that the module does not have. -/
theorem test_wellFormed :
    (Instr.rnd 6).wellFormed = false ∧ (Instr.iadd 0 49 0 0 0).wellFormed = false ∧ (Instr.wrs 0 0 11).wellFormed = false ∧
    (Instr.ethernetLinkDown 2).wellFormed = false ∧ (Instr.iadd 0 48 0 0 0).wellFormed = true ∧ (Instr.ethernetLinkDown 1).wellFormed = true := by
  decide

/-! ## States to test on -/

/-- The loaded crew of core 0, its fragment of all lanes at 0x1000. -/
def demo : State := { State.reset.loadCrew 0 with cur := .frag 0 fullMask 0x1000 }

/-- The same with a change of the crew. -/
def demoCrew (f : Crew → Crew) : State := demo.setCrew 0 (f (demo.crew 0))

/-- The same with values in registers, the same in every lane. -/
def demoRegs (rs : List (Nat × Word)) : State :=
  demoCrew fun c => { c with regs := rs.foldl (fun v r => v.setIfInBounds r.1 (allLanes r.2)) c.regs }

/-- The same with every thread changed. -/
def demoThr (f : Lane → Thread → Thread) : State := demoCrew fun c => c.updThr fullMask f

/-- The same with its threads in SUPER. -/
def demoSuper : State := demoThr fun _ t => { t with sup := true }

/-- The same with a change of the gang. -/
def demoGang (f : Gang → Gang) : State := demo.modGang 0 f

/-- The word that a register holds in a lane after an instruction. -/
def after (o : Host.Outcome State Fault Refusal) (n : Nat) (l : Lane) : Option Word := match o with
  | .next t => some ((t.crew 0).reg n l)
  | _ => none

/-- The thread of a lane after an instruction. -/
def threadAfter (o : Host.Outcome State Fault Refusal) (l : Lane) : Option Thread := match o with
  | .next t => some ((t.crew 0).th l)
  | _ => none

/-- The cause that the frame in slot 0 of the crew holds after an instruction. -/
def causeAfter (o : Host.Outcome State Fault Refusal) : Option (BitVec 8) := match o with
  | .next t => ((t.crew 0).slots[0]).map fun u => u.cause
  | _ => none

/-! ## When an instruction issues -/

/-- The checks of R87, for sources that name no latch. -/
def issues (i : Instr) (s : State) (key : Nat) (F : Mask) (pc : Pc) : Bool :=
  decide (s.cur = .frag key F pc) && (s.crew? key).isSome && F != 0 && !i.illegal && !i.isPorter && !i.badDst &&
  !runMisuse i (s.crew key).run && !propMissing i (s.hdrOf key) && i.regNumbers.all (fun n => n < (s.hdrOf key).regs) &&
  (!i.superOnly || laneList.all fun l => ((s.crew key).th l).sup) && i.srcs.all fun a => a < 48 || 52 ≤ a

theorem issues_of {i : Instr} {s : State} {key : Nat} {F : Mask} {pc : Pc} (h : issues i s key F pc = true) : Issues i s key F pc := by
  simp only [issues, Bool.and_eq_true, decide_eq_true_eq, bne_iff_ne, ne_eq, Bool.not_eq_true'] at h
  obtain ⟨⟨⟨⟨⟨⟨⟨⟨⟨⟨h1, h2⟩, h3⟩, h4⟩, h5⟩, h6⟩, h7⟩, h8⟩, h9⟩, h10⟩, h11⟩ := h
  refine ⟨h1, h2, h3, h4, h5, h6, h7, h8, fun n hn => by simpa using List.all_eq_true.1 h9 n hn, fun hs l _ => ?_, fun a ha h48 h52 => ?_⟩
  · rw [hs, Bool.not_true, Bool.false_or] at h10
    exact List.all_eq_true.1 h10 l (mem_laneList l)
  · have := List.all_eq_true.1 h11 a ha
    simp only [Bool.or_eq_true, decide_eq_true_eq] at this
    rcases this with h | h
    · exact absurd h (BitVec.not_lt.2 h48)
    · exact absurd h52 (BitVec.not_lt.2 h)

theorem issues_all {is : List Instr} {s : State} {key : Nat} {F : Mask} {pc : Pc} (h : is.all (fun i => issues i s key F pc) = true) :
    ∀ i ∈ is, Issues i s key F pc := fun i hi => issues_of (List.all_eq_true.1 h i hi)

/-! ## Witnesses: the hypotheses of the statements hold of concrete states and operands -/

theorem witness_step : ∃ t, Machine.step State.reset = .next t := ⟨_, rfl⟩

theorem witness_fetch_crew : let s := State.reset.loadCrew 0x07A8DC43
    s.agenda = [.crew 0] ∧ (s.crew? 0).isSome = true ∧ s.canIssue 0 (s.crew 0) = true ∧ (s.crew 0).nextFrag = some fullMask ∧
    s.fetch 0 fullMask ((s.crew 0).fragPc fullMask) = .word 0x07A8DC43 ∧ decodeWord 0x07A8DC43 = .ok (.iadd 7 20 27 34 3) ∧
    (s.crew 0).openEntry = none := by
  refine ⟨rfl, rfl, by decide, by decide, by decide, rfl, by decide⟩

theorem witness_fetch_porter : let s := State.reset.loadPorter 0xE4000003
    let p := (s.core 0).porter
    s.agenda = [.porter 0] ∧ s.porterGoes 0 = true ∧ p.lo ≤ p.pc.toNat ∧ p.pc.toNat < p.hi ∧ s.porterFetch 0 = some 0xE4000003 ∧
    decodeWord 0xE4000003 = .ok .cend := by
  refine ⟨rfl, by decide, by decide, by decide, by decide, rfl⟩

theorem witness_event : Instr.happens .clusterPlace = true := rfl

theorem witness_wellFormed : Instr.wellFormed (.iadd 7 47 63 34 3) = true ∧ Instr.isEvent (.iadd 7 47 63 34 3) = false ∧
    Instr.wellFormed (.cvswitch 7 48) = true := by decide

theorem witness_checks :
    (Instr.rnd 6).illegal = true ∧ (Instr.iadd 0 49 0 0 0).badDst = true ∧ (Instr.iadd 0 49 0 0 0).illegal = false ∧
    (∃ n ∈ (Instr.iadd 0 0 47 0 0).regNumbers, ((demoGang fun g => { g with hdr := { g.hdr with regs := 47 } }).hdrOf 0).regs ≤ n) ∧
    (Instr.wrsys 0 3 1).superOnly = true ∧ (demo.crew 0).supOf fullMask = false ∧
    (51 : BitVec 6) ∈ (Instr.iadd 0 0 51 0 0).srcs ∧ (demo.crew 0).latches[(51 - 48 : BitVec 6).toNat % 4].valid = false := by
  refine ⟨rfl, rfl, rfl, ⟨47, by decide, by decide⟩, rfl, by decide, by decide, by decide⟩

/-- Integer, logic and cross-lane instructions, at both ends of their register fields. -/
theorem witness_integer : ∀ i ∈ [Instr.iadd 0 47 0 63 3, .isub 7 48 52 47 0, .imin 0 0 1 2 1, .imax 0 0 1 2 2, .nmin 0 0 1 2 3, .nmax 0 0 1 2 0,
      .sadd 0 0 1 2 0, .ssub 0 0 1 2 3, .imulX 0 0 1 2, .imulW 0 0 1 2, .imulhX 0 0 1 2, .imulhW 0 0 1 2, .nmulhX 0 0 1 2, .nmulhW 0 0 1 2,
      .imulw 0 0 1 2, .nmulw 0 0 1 2, .imadX 0 1 2 3, .imadW 0 1 2 3, .imadw 0 1 2 3, .nmadw 47 63 52 0, .and 0 0 1 2, .or 0 0 1 2,
      .xor 0 0 1 2, .andn 0 0 1 2, .orn 0 0 1 2, .popc 0 0 1, .clz 0 0 1, .ctz 0 0 1, .brev 0 0 1, .shlX 0 0 1 2, .shlW 0 0 1 2, .shrX 0 0 1 2,
      .shrW 0 0 1 2, .sarX 0 0 1 2, .sarW 0 0 1 2, .rolX 0 0 1 2, .rolW 0 0 1 2, .shli 0 0 1 0 63, .shri 0 0 1 1 31, .sari 0 0 1 2 15,
      .roli 0 0 1 3 7, .bfx 0 0 1 2, .bfxs 0 0 1 2, .bfi 0 0 1 2, .seperm 0 0 1 2, .sel 0 0 1 2, .iaddi 0 0 1 1024, .andi 0 0 1 0, .ori 0 0 1 1,
      .xori 0 0 1 2047, .limm 0 0 65536, .icmp 0 1 2 3 4 7 3, .icmpi 0 0 0 3 32 0 0, .pand 0 1 2 3 4, .por 0 1 2 3 4, .pxor 0 1 2 3 4,
      .pandn 0 1 2 3 4, .pnot 0 1 2 3, .mskr 0 0 7, .mskw 0 7 6 5, .mov 0 47 46, .lperm 0 0 1 2, .lxor 0 0 1 2, .lup 0 0 1 2, .ldown 0 0 1 2,
      .lbc 0 0 1 2, .ballot 0 0 1, .vany 0 0 1, .vall 0 0 1, .elect 0 0, .lpfx 0 0 1], Issues i demo 0 fullMask 0x1000 :=
  issues_all (by decide)

theorem witness_immediate : (immediate (ximms demo 0) (1024 : BitVec 11)).isSome = true ∧
    (immediate (ximms (demoCrew fun c => { c with run := some ⟨fullMask, 0xFF4, none, [1, 2, 3], none, none⟩ }) 0) (0 : BitVec 17)).isSome =
      true := by decide

/-- The tags of registers, shadows and latches at their reset values fit. -/
theorem fits_of_reset {c : Crew} (ht : c.tags = Vector.replicate 48 .u) (hr : c.regs = Vector.replicate 48 (allLanes 0))
    (hs : c.stags = Vector.replicate 8 .u) (hw : c.shadow = Vector.replicate 8 (allLanes 0)) (hl : c.latches = Vector.replicate 4 Latch.reset) :
    c.TagsFit := by
  refine ⟨fun n => ?_, fun n => ?_, fun n => ?_⟩
  · simp only [ht, hr, Vector.getElem_replicate, tagFits, at_allLanes, implies_true]
  · simp only [hs, hw, Vector.getElem_replicate, tagFits, at_allLanes, implies_true]
  · simp only [hl, Vector.getElem_replicate, Latch.reset, tagFits, at_allLanes, implies_true]

theorem witness_tags : (demo.crew 0).TagsFit := fits_of_reset rfl rfl rfl rfl rfl

theorem witness_latches :
    ((demo.crew 0).live = fullMask ∧ (demo.crew 0).restored = none ∧ (demo.crew 0).last = none) ∧
    (let c := (demoCrew fun c => { c with last := some 1 }).crew 0
     c.restored = none ∧ c.last = some 1 ∧ (1 : Mask) &&& ~~~c.exited ≠ fullMask) := by decide

/-- No lane of a crew waits at a CONV or a TRET, and no slot is to resume. -/
theorem noWaits_of {s : State} {key : Nat} (h : ∀ l, match ((s.crew key).th l).st with
      | .waiting _ | .returning _ => False
      | _ => True)
    (hk : ∀ k : Fin 4, ((s.crew key).slots.getD k.val none).all (fun u => !u.resume) = true) : NoWaits s key := by
  refine ⟨h, fun k u hu => ?_⟩
  by_cases hlt : k < 4
  · have := hk ⟨k, hlt⟩
    rw [show (s.crew key).slots.getD k none = some u from hu] at this
    simpa using this
  · simp [Vector.getD, hlt] at hu

/-- Exchanging instructions, a taken branch, and a crew in which nobody waits. -/
theorem witness_exchanging : (∀ i ∈ [Instr.yield 0, .sleep 0 1, .bar 0 0, .conv 0 1, .fifor 0 0 0, .ld 0 0 1 0 3], i.leavesSet ∧ Issues i demo 0 fullMask 0x1000) ∧
    ((Instr.bra 0 1).jumps ∧ taking (.bra 0 1) demo 0 fullMask ≠ 0 ∧ Issues (.bra 0 1) demo 0 fullMask 0x1000) ∧ NoWaits demo 0 ∧
    ∃ t, exec (.yield 0) demo = .next t := by
  have hl : ∀ l, ((demo.crew 0).th l).st = .live := by decide
  refine ⟨fun i hi => ⟨?_, issues_of (by revert i; decide)⟩, ⟨trivial, by decide, issues_of (by decide)⟩,
    noWaits_of (fun l => by rw [hl]; trivial) (by decide), ⟨_, rfl⟩⟩
  simp only [List.mem_cons, List.not_mem_nil, or_false] at hi
  rcases hi with rfl | rfl | rfl | rfl | rfl | rfl <;> trivial

/-- A core whose turn it is, with a crew whose next word goes to the vector slot. -/
theorem witness_core : let s := { State.reset.loadCrew 0x07A8DC43 with agenda := [.core 0] }
    s.agenda = [.core 0] ∧ (0, s.crew 0) ∈ s.crewsOn 0 ∧ (s.crew 0).active = true ∧ s.canIssue 0 (s.crew 0) = true ∧
    (s.nextWord 0 (s.crew 0)).any vectorWord = true := by
  refine ⟨rfl, by decide, rfl, by decide, by decide⟩

/-- Status registers, hints and branches. -/
theorem witness_status : (∀ i ∈ [Instr.movs 0 0 0, .movs 0 47 17, .wrs 0 1 14, .wrsFstat 0 1, .nop, .stall 63, .rnd 7, .ximm 1, .guard 7, .scope 4 3,
      .bra 0 1022, .call 0 1022, .brx 0 1, .callx 0 1, .yield 0], Issues i demo 0 fullMask 0x1000) ∧
    (∀ i ∈ [Instr.wrs 0 1 12, .wrs 0 1 15], Issues i demoSuper 0 fullMask 0x1000) ∧
    (srcInt demo 0 64 1 0).extractLsb' 0 3 < 6#3 ∧
    (maskOf fun l => inMask (taking (.wrsFstat 0 1) (demoRegs [(1, 6)]) 0 fullMask) l &&
      decide (6#3 ≤ (srcInt (demoRegs [(1, 6)]) 0 64 1 l).extractLsb' 0 3)) ≠ 0 ∧
    (maskOf fun l => inMask (taking (.wrs 0 1 12) demo 0 fullMask) l && !((demo.crew 0).th l).sup) ≠ 0 :=
  ⟨issues_all (by decide), issues_all (by decide), by decide, by decide, by decide⟩

/-- Targets at the last word of the overlay, one byte off a word, and at the first word behind the overlay. -/
theorem witness_targets :
    (∀ t ∈ [(0x1000 : Pc), 0x1FFC], t.toNat % 4 = 0 ∧ ∃ n off slots, overlayAt (demo.hdrOf 0) 0x1000 = some (n, off, slots) ∧
      off ≤ t.toNat ∧ t.toNat ≤ off + 4096 * slots - 1) ∧
    (BitVec.ofInt 32 ((0x1000 : Pc).toInt + 4 + 4 * (1022 : BitVec 23).toInt) = 0x1FFC) ∧ (0x1001 : Pc).toNat % 4 ≠ 0 ∧
    sameOverlay (demo.hdrOf 0) 0x1000 0x2000 = false ∧
    (∀ l, ((demo.crew 0).th l).rstk.length < 16 ∧ ((demo.crew 0).th l).rsdep < 4112) := by
  refine ⟨?_, by decide, by decide, by decide, by decide⟩
  intro t ht
  rcases List.mem_cons.1 ht with rfl | ht
  · exact ⟨rfl, 0, 0x1000, 1, rfl, by decide, by decide⟩
  · rw [List.mem_singleton.1 ht]
    exact ⟨rfl, 0, 0x1000, 1, rfl, by decide, by decide⟩

set_option exponentiation.threshold 2048 in
/-- Rounding, the special cases and the tables of functions: operands of each kind. -/
theorem witness_float :
    decodeFp fmtD (roundNum fmtD 0 false 3 0 false).1 = .fin false 0x18000000000000 (-51) ∧
    decodeFp fmtD 0x7FF0000000000000 = .inf false ∧ decodeFp fmtD 0xFFF0000000000000 = .inf true ∧
    decodeFp fmtD 0 = .fin false 0 (-1074) ∧ decodeFp fmtS 0x80000001 = .fin true 1 (-149) ∧ (decodeFp fmtH 0x7E00).isNaN = true ∧
    (decodeFp fmtE5M2 0x7C) = .inf false ∧ cmpNum (decodeFp fmtD 1) (decodeFp fmtD 2) = .lt := by decide

/-- Operands that no clause but its own speaks of: NaNs in either place, 0 × ∞, sums that cancel, and what lies out of range. -/
theorem witness_operands :
    nanOf fmtS [0x3F800000, 0x7F800001] = some (0x7FC00001, excNV) ∧ nanOf fmtS [0x7FC00000, 0x7F800001] = some (0x7FC00000, excNV) ∧
    nanOf fmtH [0x3C00, 0x7C00] = none ∧ decodeFp fmtH 0x7C00 = .inf false ∧ decodeFp fmtH 0x8000 = .fin true 0 (-24) ∧
    decodeFp fmtH 0x3C00 = .fin false 1024 (-10) ∧ scaled (-10) false 1024 (-10) + scaled (-10) true 1024 (-10) = 0 ∧
    (Num.inf true).below (.fin false 0 0) ∧ ¬(Num.fin true 0 0).below (.fin false 0 0) ∧ (Num.fin true 1 0).below (.fin false 0 0) ∧
    fractional 5 (-1) ∧ ¬fractional 4 (-1) ∧ integral 0 false 5 (-1) = 2 ∧ integral 5 true 4 (-1) = 2 ∧
    (16384 ^ 2 ≤ 1024 * 2 ^ 18 ∧ 1024 * 2 ^ 18 < (16384 + 1) ^ 2 ∧ 2 ^ (10 + 4) ≤ 16384) ∧ (-10 : Int) = 2 * (-14) + 18 ∧ (2 : Nat) ^ (0 : Int).toNat < 3 * 2 ^ (0 : Int).toNat ∧
    Untrapped demo 0 fullMask := by
  refine ⟨by decide, by decide, by decide, by decide, by decide, by decide, by decide, rfl, ?_, ?_, ?_, ?_, by decide, by decide, by decide, by decide,
    by decide, fun l _ => by revert l; decide⟩ <;> simp only [Num.below, fractional] <;> decide

theorem witness_float_issue : ∀ i ∈ [Instr.fadd 0 47 0 63 7 3, .fsub 0 0 1 2 0 0, .fmul 0 0 1 2 5 1, .fdiv 0 0 1 2 4 2, .fma 0 1 2 3 0,
      .fms 0 1 2 3 1, .fnma 0 1 2 3 2, .fnms 0 1 2 3 3, .fsqrt 0 0 1 0 0, .frsq 0 0 1 0 0, .frcp 0 0 1 0 0, .fexp 0 0 1 0 0, .fexp2 0 0 1 0 0,
      .fexpm1 0 0 1 0 0, .flog 0 0 1 0 0, .flog2 0 0 1 0 0, .flog1p 0 0 1 0 0, .ferf 0 0 1 0 0, .ferfc 0 0 1 0 0, .fsin 0 0 1 0 0,
      .fcos 0 0 1 0 0, .ftanh 0 0 1 0 0, .frint 0 0 1 0 0, .fmin 0 0 1 2 0, .fmax 0 0 1 2 0, .fminn 0 0 1 2 0, .fmaxn 0 0 1 2 0, .fabs 0 0 1 0,
      .fneg 0 0 1 0, .fcps 0 0 1 2 0, .fclass 0 0 1 0, .fcmp 0 1 2 3 4 7 0, .fcvt 0 0 1 13 0 0, .fcvt 0 0 1 0 13 7, .fkey 0 0 1 0,
      .rng 0 46 1 2], Issues i demo 0 fullMask 0x1000 := issues_all (by decide)

/-! ## Witnesses: exits, waits, traps and system instructions -/

/-- Overlay pages, version table, code map and kernel header in memory: two versions, 0 the current one. -/
def demoCode : State :=
  let s := { State.reset.loadPorter 0 with cur := .frag 0 fullMask 0x1000 }
  { s with mem := [(0x20020, 0x24001), (0x20028, 1), (0x28000, 0x4B48564900010130), (0x28008, 0x0001100000000000), (0x28010, 0x1000),
      (0x28018, 0x400002000), (0x28040, 0x100000010000)].foldl (fun m c => writeNat m c.1 8 c.2) s.mem }

theorem quiet_of_live {s : State} {key : Nat} (h : ∀ l, ((s.crew key).th l).st = .live ∨ ((s.crew key).th l).st = .exited)
    (hk : ∀ k : Fin 4, ((s.crew key).slots.getD k.val none).all (fun u => !u.resume) = true)
    (hb : ∀ p ∈ s.crewsOf (gangOf key), ∀ id : Fin 16, p.2.barm[id.val] = 0) : Quiet s key :=
  ⟨noWaits_of (fun l => by rcases h l with e | e <;> rw [e] <;> trivial) hk, hb⟩

theorem witness_exits :
    let odd := demoCrew fun c => { c with preds := c.preds.set 1 0x55555555 }
    (Issues (.exit 1) odd 0 fullMask 0x1000 ∧ Quiet odd 0 ∧ ∃ l, inMask (taking (.exit 1) odd 0 fullMask) l = false ∧ ((odd.crew 0).th l).st ≠ .exited) ∧
    (Issues (.exit 0) demo 0 fullMask 0x1000 ∧ Quiet demo 0 ∧
      ¬∃ l, inMask (taking (.exit 0) demo 0 fullMask) l = false ∧ ((demo.crew 0).th l).st ≠ .exited) ∧
    (Issues (.conv 0 0) demo 0 fullMask 0x1000 ∧ (demo.crew 0).exited ≠ fullMask) ∧ Issues (.ret 0) demo 0 fullMask 0x1000 := by
  refine ⟨⟨issues_of (by decide), quiet_of_live (by decide) (by decide) (by decide), by decide⟩,
    ⟨issues_of (by decide), quiet_of_live (by decide) (by decide) (by decide), by decide⟩, ⟨issues_of (by decide), by decide⟩, issues_of (by decide)⟩

theorem witness_ret :
    let deep := demoThr fun l t => if l = 3 then { t with rstk := [0x1FFC], rsdep := 1 } else t
    Issues (.ret 0) deep 0 fullMask 0x1000 ∧ Quiet deep 0 ∧
    (∃ l, (inMask (taking (.ret 0) deep 0 fullMask) l = false ∨ ((deep.crew 0).th l).rsdep ≠ 0) ∧ ((deep.crew 0).th l).st ≠ .exited) ∧
    ∀ l, inMask (taking (.ret 0) deep 0 fullMask) l = true →
      let th := (deep.crew 0).th l
      let e := th.rstk.getLastD 0
      th.rsdep = 0 ∨ (th.rstk ≠ [] ∧ (2 ≤ th.rstk.length ∨ th.rstk.length = th.rsdep) ∧
        e.extractLsb' 48 16 = (deep.crew 0).cver ∧ (e.extractLsb' 32 16).toNat < (deep.hdrOf 0).ovls ∧ (e.getLsbD 0 = true → th.sup = true) ∧
        ∀ n off slots, overlayAt (deep.hdrOf 0) ((e.extractLsb' 2 30).toNat * 4) = some (n, off, slots) →
          deep.ovlResident (deep.crew 0).core (deep.gang 0).asid (deep.crew 0).cver off = true) := by
  refine ⟨issues_of (by decide), quiet_of_live (by decide) (by decide) (by decide), by decide, fun l _ => ?_⟩
  by_cases h : l = 3
  · subst h
    refine .inr ⟨by decide, by decide, by decide, by decide, by decide, fun n off slots h => ?_⟩
    cases (show some (0, 0x1000, 1) = some (n, off, slots) from h)
    rfl
  · exact .inl (by revert h; revert l; decide)

theorem witness_sleeps :
    (∀ i ∈ [Instr.yield 0, .sleep 0 1, .trap 0 63], Issues i demo 0 fullMask 0x1000) ∧ taking (.trap 0 63) demo 0 fullMask ≠ 0 ∧
    (taking (.trap 2 0) demo 0 fullMask = 0 ∧ Issues (.trap 2 0) demo 0 fullMask 0x1000 ∧ taking (.yield 2) demo 0 fullMask = 0) ∧
    (lowest (taking (.sleep 0 1) demo 0 fullMask) = some 0 ∧ (srcInt demo 0 64 1 0).extractLsb' 0 32 = 0) ∧
    (let s := demoRegs [(1, 0xFFFFFFFF)]
     lowest (taking (.sleep 0 1) s 0 fullMask) = some 0 ∧ (srcInt s 0 64 1 0).extractLsb' 0 32 ≠ 0) :=
  ⟨issues_all (by decide), by decide, ⟨by decide, issues_of (by decide), by decide⟩, by decide, by decide⟩

/-- A software trap of the lanes 0 to 15. -/
def demoTrap : TrapInfo :=
  { cause := 0x13, swn := 63, frag := 0xFFFF, failing := 1, faddr := allLanes 0, exc := allLanes 0, pc := 0x1004, tent := none, entries := [],
    foreman := false }

/-- The crew whose ASID has its handler at 0x1000. -/
def demoHandled : State := { demo with asids := demo.asids.set 0 { demo.asidEntry 0 with tvec := 0x1000 } }

theorem witness_trapEntry :
    ((demo.crew? 0).isSome = true ∧ demoTrap.frag ≠ 0 ∧ demoTrap.entries = [] ∧ (demo.crew 0).freeSlot = some 0 ∧
      demo.localTrap 0 demoTrap = false) ∧
    (demoHandled.localTrap 0 demoTrap = true ∧ (demoHandled.crew 0).freeSlot = some 0 ∧
      ∀ n off slots, overlayAt (demoHandled.hdrOf 0) 0x1000 = some (n, off, slots) → demoHandled.ovlResident 0 0 0 off = true) ∧
    ((demoCrew fun c => { c with slots := Vector.replicate 4 (some ⟨1, true, false, demoTrap⟩) }).crew 0).freeSlot = none := by
  refine ⟨by decide, ⟨by decide, by decide, fun n off slots h => ?_⟩, by decide⟩
  cases (show some (0, 0x1000, 1) = some (n, off, slots) from h)
  rfl

/-- The handler of `demoTrap`, at its TRET. -/
def demoReturn : State := { demoHandled.takeTrap 0 demoTrap with cur := .frag 0 0xFFFF 0x1000 }

theorem demoReturn_bad : frameBad demoReturn.mem 0x0008000000000000 = false := by decide

theorem demoReturn_bare : ((demoReturn.crew 0).slots.getD 0 none).map (fun u => u.trap.entries) = some [] := by decide

theorem witness_trapReturn :
    (Issues .tret demo 0 fullMask 0x1000 ∧ ((demo.crew 0).th 0).sup = false) ∧
    (Issues .tret demoSuper 0 fullMask 0x1000 ∧ (∀ l, inMask fullMask l = true → ((demoSuper.crew 0).th l).sup = true) ∧
      ((demoSuper.crew 0).th 0).held = none) ∧
    Issues .tret demoReturn 0 0xFFFF 0x1000 ∧ Quiet demoReturn 0 ∧ FrameGood demoReturn 0 0 0xFFFF false ∧
    ∀ l, inMask 0xFFFF l = true → ((demoReturn.crew 0).th l).sup = true ∧ ((demoReturn.crew 0).th l).held = some 0 ∧
      ((demoReturn.crew 0).th l).st = .live := by
  have hs : ∀ l, ((demoReturn.crew 0).th l).st = .live := by decide
  refine ⟨⟨issues_of (by decide), by decide⟩, ⟨issues_of (by decide), by decide, by decide⟩, issues_of (by decide),
    quiet_of_live (fun l => .inl (hs l)) (by decide) (by decide), ⟨by decide, demoReturn_bad, demoReturn_bare, ⟨16, .inl (by decide), by decide⟩,
      fun l => by rw [hs], by decide, fun l hl n off slots h => ?_⟩, by decide⟩
  have hn : ∀ l : Lane, inMask 0xFFFF l = true → frameField demoReturn 0 0 (0x380 + 4 * l.val) 4 = 0x1004 := by decide
  rw [hn l hl] at h
  cases (show some (0, 0x1000, 1) = some (n, off, slots) from h)
  decide

theorem witness_system :
    (∀ i ∈ [Instr.launch 0 0 1 2, .cvpub 0 0 1, .cvswitch 0 0], Issues i demo 0 fullMask 0x1000) ∧
    (∀ i ∈ [Instr.rdsys 0 0 0, .rdsys 0 47 12, .wrsys 0 0 1, .wrsys 0 1 12, .wrsysOvquota 0 1], Issues i demoSuper 0 fullMask 0x1000) ∧
    taking (.wrsys 2 0 1) demoSuper 0 fullMask = 0 ∧ lowest (taking (.wrsysOvquota 0 1) demoSuper 0 fullMask) = some 0 := by
  refine ⟨issues_all (by decide), issues_all (by decide), by decide, by decide⟩

/-- Queue 63 bound to ASID 0, one place free. -/
def demoQueue : State := { demo with queues := demo.queues.set 63 { Queue.reset with asid := some 0, entries := List.replicate 63 ⟨0, 1, 0, none⟩ } }

theorem witness_launches :
    let s := demoQueue
    (s.queue 63).asid = some (s.gang 0).asid ∧ (s.queue 0).asid ≠ some (s.gang 0).asid ∧ s.ether.contains true = true ∧
    (s.queue 63).entries.length < 64 := by decide

theorem witness_codeVersions :
    (let s := demoCode.systemRelease (demoCode.crew 0).core
     s.curVersion 0 = some 0 ∧ s.version 0 1 = some (0x24001, 1) ∧ (0x24001 : Word).getLsbD 0 = true ∧ s.version 0 2 = some (0, 0) ∧
     (0 : Word).getLsbD 0 = false) ∧
    (Issues (.cvswitch 0 0) demoCode 0 fullMask 0x1000 ∧ Issues (.cvpub 0 0 1) demoCode 0 fullMask 0x1000 ∧
      taking (.cvswitch 0 0) demoCode 0 fullMask ≠ 0 ∧ taking (.cvswitch 0 0) demoCode 0 fullMask = ~~~(demoCode.crew 0).exited ∧
      (∀ l, inMask fullMask l = true → ((demoCode.crew 0).th l).rsdep = 0) ∧ demoCode.curVersion 0 = some 0) ∧
    (taking (.cvswitch 2 0) demoCode 0 fullMask = 0) ∧
    (∃ l, inMask (taking (.cvswitch 0 0) (demoThr fun _ t => { t with rsdep := 1 }) 0 fullMask) l = true ∧
      (((demoThr fun _ t => { t with rsdep := 1 }).crew 0).th l).rsdep ≠ 0) := by
  refine ⟨by decide, ⟨issues_of (by decide), issues_of (by decide), by decide, by decide, by decide, by decide⟩, by decide, by decide⟩

theorem witness_cvswitch : ∃ h, demoCode.readHeader 0 0 (demoCode.hdrOf 0).koff (demoCode.gang 0).ncore = .ok h ∧
    overlayNum h (0x1000 + 4) = overlayNum (demoCode.hdrOf 0) (0x1000 + 4) ∧ (overlayNum h (0x1000 + 4)).isSome = true :=
  ⟨loadedGang.hdr, rfl, by decide, by decide⟩

/-! ## Witnesses: memory -/

/-- The crew with 4096 bytes of scratchpad in bank slot 0, register 1 at its last 16 bytes, register 2 at a line's start, register 3 at 5, and
predicate 1 true in lane 31 alone. -/
def demoPad : State :=
  { (demoRegs [(1, 0xFFFFFFFFFF000FF0), (2, 0xFFFFFFFFFF000F80), (3, 5)]) with
    gangs := demo.gangs.set 0 { demo.gang 0 with hdr := { (demo.gang 0).hdr with scratch := 4096 }, banks := [(0, .scratch)] } }
    |>.modCrew 0 fun c => { c with preds := c.preds.set 1 0x80000000 }

theorem demoPad_in {va : Lane → Word} {n : Nat} (h : ∀ l, va l = 0xFFFFFFFFFF000FF0 ∨ va l = 0xFFFFFFFFFF000F80) (hn : n ∈ [1, 2, 4, 8, 16]) :
    ∀ l, InScratch demoPad 0 n (va l) := by
  intro l
  simp only [InScratch]
  revert n
  rcases h l with e | e <;> rw [e] <;> decide

theorem witness_scratchpad :
    (∀ z : BitVec 3, ∀ i ∈ [Instr.ld 0 0 1 0 z, .ld 1 47 2 7 z, .ldp 0 46 1 0 z, .st 0 0 1 0 z, .stp 1 4 2 7 z],
      (4 ≤ z → i = .ld 0 0 1 0 z ∨ i = .ldp 0 46 1 0 z) → Issues i demoPad 0 fullMask 0x1000) ∧
    (∀ z : BitVec 3, allIn (.ld 0 0 1 0 z) ([1, 2, 4, 8, 1, 2, 4, 16].getD z.toNat 0)
      (fun s key l => srcInt s key 64 1 l + (0 : BitVec 8).signExtend 64 * BitVec.ofNat 64 ([1, 2, 4, 8, 1, 2, 4, 16].getD z.toNat 0))
      demoPad 0 fullMask) ∧
    ∀ l, ∀ x ∈ (demoPad.gang 0).absent, x.line ≠ scratchAt (srcInt demoPad 0 64 1 l) / 128 := by
  refine ⟨fun z i hi hz => issues_of (by revert i; revert z; decide), fun z => ⟨fun _ => rfl, fun l hl => ?_⟩, by decide⟩
  clear hl
  exact demoPad_in (va := fun l => srcInt demoPad 0 64 1 l + (0 : BitVec 8).signExtend 64 * BitVec.ofNat 64 ([1, 2, 4, 8, 1, 2, 4, 16].getD z.toNat 0))
    (fun l => .inl (by revert l; revert z; decide)) (by clear l; revert z; decide) l

theorem witness_oneLane :
    (∀ i ∈ [Instr.ld 1 0 1 0 0, .st 1 0 1 0 7, .stp 1 0 1 0 3, .ldacq 1 0 1 0 3, .strel 1 0 1 4 3, .atom 1 0 1 2 9 0, .evsig 0 1 3, .cas 0 1 2 4 0, .clean 1 1 0,
      .inval 1 1 1, .evsig 1 1 2], Issues i demoPad 0 fullMask 0x1000) ∧
    taking (.ld 1 0 1 0 0) demoPad 0 fullMask = 1#32 <<< (31 : Lane).val ∧ demoPad.memLate = false ∧ (demoPad.crew 0).infl = [] ∧
    (∃ lo hi u, loadLane (srcInt demoPad 0 64 1 31) 0 0 31 (noted (.ld 1 0 1 0 0) demoPad 0 fullMask) = (.done lo hi, u)) ∧
    (∃ x u, loadLane (srcInt demoPad 0 64 3 31) 0 0 31 (noted (.ld 1 0 3 0 0) demoPad 0 fullMask) = (.failed x, u)) :=
  ⟨issues_all (by decide), by decide, rfl, by decide, ⟨_, _, _, rfl⟩, ⟨_, _, rfl⟩⟩

/-- A page of a crew's ASID at 0x4000 with these entry bits. -/
def demoPage (bits : Nat) : State := { demoCode with mem := writeNat demoCode.mem 0x1C008 8 (0x20003 + bits) }

theorem witness_accessChecks :
    ((0xFFFFFFFFFF000001 : Word).toNat % 2 ≠ 0 ∧ 0xFFFFFFFFFF000000 ≤ (0xFFFFFFFFFF001000 : Word).toNat ∧
      (demoPad.gang 0).hdr.scratch < scratchAt 0xFFFFFFFFFF001000 + 1 ∧ scratchAt 0xFFFFFFFFFF000FF0 + 16 ≤ (demoPad.gang 0).hdr.scratch ∧
      pieceMapped (demoPad.gang 0) (scratchAt 0xFFFFFFFFFF000FF0) = true ∧
      pieceMapped (demo.gang 0) (scratchAt 0xFFFFFFFFFF000000) = false) ∧
    (demoCode.ctxMapOf 0 0 = none ∧ ∃ u, translate demoCode 0 0 0 = (.error none, u)) ∧
    (∃ l, (translate (demoPage 0x60) 0 0 0x4000).1 = .ok l ∧ ((translate (demoPage 0x60) 0 0 0x4000).2.windowOf (leafPa l 0x4000 false)).isSome = true ∧
      pteSup l.pte = false ∧ pteRd l.pte = true ∧ pteW l.pte = true ∧ pteCode l.pte = false) ∧
    (∃ l, (translate (demoPage (2 ^ 52)) 0 0 0x4000).1 = .ok l ∧ pteSup l.pte = true ∧ pteRd l.pte = false ∧ pteW l.pte = false) ∧
    (∃ l, (translate (demoPage (2 ^ 53 + 0x60)) 0 0 0x7FFF).1 = .ok l ∧ pteW l.pte = true ∧ pteCode l.pte = true) ∧
    ∃ l, (translate (demoPage (2 ^ 55 + 0x60)) 0 0 0x4000).1 = .ok l ∧ pteRd l.pte = true ∧ pteW l.pte = true ∧ pteCode l.pte = false ∧
      pteOrd l.pte = true := by
  refine ⟨by decide, ⟨by decide, _, rfl⟩, ⟨⟨0x200E3, 0x1C008, 3⟩, rfl, by decide⟩, ⟨⟨0x10000000020083, 0x1C008, 3⟩, rfl, by decide⟩,
    ⟨⟨0x200000000200E3, 0x1C008, 3⟩, rfl, by decide⟩, ⟨⟨0x800000000200E3, 0x1C008, 3⟩, rfl, by decide⟩⟩

theorem uncopied_of {s : State} {line : Nat} (hc : (s.cores.all fun p => (p.2.l1.get? line).isNone) = true)
    (hd : (s.dies.all fun p => (p.2.l2.get? line).isNone) = true) (hh : (s.home line).head = none) : Uncopied s line := by
  refine ⟨fun c => ?_, fun d => ?_, hh⟩
  · unfold State.core Store.getD
    cases h : s.cores.get? c with
    | none => rfl
    | some x => exact Option.isNone_iff_eq_none.1 (List.all_eq_true.1 hc _ (Store.get?_mem h))
  · unfold State.die Store.getD
    cases h : s.dies.get? d with
    | none => rfl
    | some x => exact Option.isNone_iff_eq_none.1 (List.all_eq_true.1 hd _ (Store.get?_mem h))

theorem tagless_of {s : State} (h : (s.windows.values.all fun w => w.tagbase == 0) = true) : ∀ a w, s.windowOf a = some w → w.tagbase = 0 := by
  intro a w hw
  unfold State.windowOf at hw
  split at hw
  · cases hw
  · exact eq_of_beq (List.all_eq_true.1 h w (List.mem_of_find?_eq_some (Option.filter_eq_some_iff.1 hw).1))

/-- An access of lane 0 to the page at 0x4000. -/
def demoAccess (s : State) (k : AccessKind) (n : Nat) : Except Failure Place × State := checkAccess s (s.whoAt 0 0) k 0x4000 n n

/-- The page with D set, SELFINV, and the core's first level holding its first line. -/
def demoHit : State := (demoPage (0xE0 + 2 ^ 60)).modCore 0 fun c => { c with l1 := [(0x400, ⟨0, 0, 0, false, 1, 0x1234, 0, 0, false, false, none, none, false⟩)] }

theorem witness_pages :
    (∃ p o m l u, demoAccess (demoPage 0xE0) .load 8 = (.ok (.global p o m l), u) ∧ p.pa = 0x20000 ∧ p.coh = 0) ∧
    (∃ p o m l u, demoAccess (demoPage (0xE0 + 2 ^ 61)) .store 8 = (.ok (.global p o m l), u) ∧ p.pa = 0x20000 ∧ p.coh = 2 ∧ Memory.wf u.mem = true ∧
      u.inSpill 0 0x4000 8 = false ∧ Uncopied u (0x20000 / 128)) ∧
    (∀ k ∈ [AccessKind.load, .store], ∃ p o m l u, demoAccess demoHit k 8 = (.ok (.global p o m l), u) ∧ p.pa = 0x20000 ∧ p.coh = 1 ∧ p.clvl = 0 ∧
      p.wt = false ∧ Memory.wf u.mem = true ∧ u.inSpill 0 0x4000 8 = false ∧ (u.die 0).l2.get? (0x20000 / 128) = none ∧
      ((u.core 0).l1.get? (0x20000 / 128)).map (·.coh) = some 1) := by
  refine ⟨⟨_, _, _, _, _, rfl, rfl, rfl⟩, ⟨_, _, _, _, _, rfl, rfl, rfl, by decide, by decide, uncopied_of (by decide) (by decide) rfl⟩, fun k hk => ?_⟩
  simp only [List.mem_cons, List.not_mem_nil, or_false] at hk
  rcases hk with rfl | rfl <;> exact ⟨_, _, _, _, _, rfl, rfl, rfl, rfl, rfl, by decide, by decide, rfl, rfl⟩

theorem witness_home : ∀ k ∈ [AccessKind.load, .store, .rmw, .update, .signal], ∃ p m l u, demoAccess (demoPage (0xE0 + 2 ^ 60)) k 8 =
    (.ok (.global p false m l), u) ∧ p.pa % 128 + 8 ≤ 128 ∧ p.coh = 1 ∧ u.inSpill 0 0x4000 8 = false ∧ AtHome u 0 p.pa := by
  intro k hk
  simp only [List.mem_cons, List.not_mem_nil, or_false] at hk
  rcases hk with rfl | rfl | rfl | rfl | rfl <;> exact ⟨_, _, _, _, rfl, by decide, rfl, by decide,
    ⟨by decide, uncopied_of (by decide) (by decide) rfl, by decide, by decide, tagless_of (by decide), by decide, by decide⟩⟩

theorem witness_atomics :
    (∀ p : BitVec 4, p ≠ 8 → p ≤ 9 → ∀ z : BitVec 1, ∀ i ∈ [Instr.atom 0 0 1 3 p z, .red 0 4 3 1 3 p z], Issues i demoPad 0 fullMask 0x1000) ∧
    Issues (.cas 0 1 3 3 0) demoPad 0 fullMask 0x1000 ∧ Issues (.cas 0 1 3 3 1) demoPad 0 fullMask 0x1000 ∧
    allIn (.cas 0 1 3 3 0) 8 (fun s key l => srcInt s key 64 1 l) demoPad 0 fullMask ∧
    allIn (.red 0 4 3 2 3 0 1) 4 (fun s key l => srcInt s key 64 2 l) demoPad 0 fullMask := by
  refine ⟨fun p hp hp' z i hi => issues_of (by revert i; revert z; revert p; decide), issues_of (by decide), issues_of (by decide),
    ⟨fun _ => rfl, fun l _ => demoPad_in (fun l => .inl ?_) (by decide) l⟩, ⟨fun _ => rfl, fun l _ => demoPad_in (fun l => .inr ?_) (by decide) l⟩⟩
  · revert l; decide
  · revert l; decide

/-- One buffered reduction of the crew's gang. -/
def demoRed : State := demo.modCore 0 fun c => { c with redbuf := [⟨0, 0, 0, 0, 0, 0, 0, 0, 0x4000, 0x20000, 1, 0, false, ⟨0, false⟩, false, none, none⟩] }

/-- A flush point with two reductions of one doubleword, the later gang's buffered first. -/
def demoFlush : State :=
  let e (lin : Nat) : RedEntry := ⟨0, 0, 0, lin, 0, 0, 0, 0, 0x4000, 0x20000, 1, 0, false, ⟨0, false⟩, false, none, some 3⟩
  (demoThr fun _ t => { t with st := .parked (.draining 3) }).modCore 0 fun c => { c with redbuf := [e 1, e 0] }

theorem witness_flush :
    let e (lin : Nat) : RedEntry := ⟨0, 0, 0, lin, 0, 0, 0, 0, 0x4000, 0x20000, 1, 0, false, ⟨0, false⟩, false, none, some 3⟩
    demoFlush.batches 0 = [3] ∧ [(0, e 0), (0, e 1)].Perm (demoFlush.redPending fun x => x.gang = 0 && x.batch == some 3) ∧ (e 0).lin < (e 1).lin ∧
    Memory.wf demoFlush.mem = true ∧ Uncopied demoFlush (0x20000 / 128) ∧ demoFlush.linePoisoned (0x20000 / 128) = false ∧
    ∀ c, (demoFlush.die (demoFlush.homeDie 0x20000)).windows.getD (State.windowKey c 0x20000) [] = [] :=
  ⟨by decide, List.Perm.swap _ _ _, by decide, by decide, uncopied_of (by decide) (by decide) rfl, by decide, fun _ => rfl⟩

theorem witness_acquireRelease :
    (∀ i ∈ [Instr.ldacq 0 0 1 0 0, .ldacq 0 47 1 4 6, .strel 0 0 1 0 3, .fence 0 0 0, .fence 0 4 3, .aflush 0, .clean 0 1 0, .inval 0 2 1],
      Issues i demoPad 0 fullMask 0x1000) ∧
    (let sup := demoPad.modCrew 0 fun c => c.updThr fullMask fun _ t => { t with sup := true }
     Issues (.pscrub 0 1) sup 0 fullMask 0x1000 ∧ sup.memLate = false ∧ ∀ l, inMask fullMask l = true → 0xFFFFFFFFFF000000 ≤ (srcInt sup 0 64 1 l).toNat ∧
      scratchAt (srcInt sup 0 64 1 l) / 128 * 128 + 128 ≤ (sup.gang 0).hdr.scratch ∧
      pieceMapped (sup.gang 0) (scratchAt (srcInt sup 0 64 1 l) / 128 * 128) = true) ∧
    (demo.redPending (fun e => e.gang == 0) = [] ∧ demoRed.redPending (fun e => e.gang == 0) ≠ [] ∧ Issues (.aflush 0) demoRed 0 fullMask 0x1000 ∧
      taking (.aflush 0) demoRed 0 fullMask ≠ 0 ∧ taking (.aflush 2) demoRed 0 fullMask = 0) ∧
    (demoThr fun _ t => { t with st := .parked (.draining 3) }).batches 0 = [3] :=
  ⟨issues_all (by decide), ⟨issues_of (by decide), by decide⟩, ⟨by decide, by decide, issues_of (by decide), by decide, by decide⟩, by decide⟩

/-! ## Witnesses: barriers, banks, publications and counters -/

/-- The crew with predicate 1 true in its even lanes. -/
def demoEven : State := demoCrew fun c => { c with preds := c.preds.set 1 0x55555555 }

theorem witness_barriers :
    (∀ b ∈ [0, 15, 16, (63 : BitVec 6)], ∀ i ∈ [Instr.bar 0 b, .arrive 0 47 b, .waitb 0 0 b, .bar 1 b, .arrive 1 0 b], Issues i demoEven 0 fullMask 0x1000) ∧
    (demo.hdrOf 0).bars = 16 ∧ NoWaits demoEven 0 ∧ (∀ p ∈ demoEven.crewsOf 0, ∀ k : Fin 16, p.2.barm[k.val] = 0) ∧
    (∀ b : Fin 16, taking (.bar 0 0) demoEven 0 fullMask &&& (demoEven.crew 0).barm.getD b.val 0 = 0) ∧
    (∀ b : Fin 16, ¬FullWith demoEven 0 b.val (taking (.bar 1 0) demoEven 0 fullMask)) ∧
    (∀ b : Fin 16, FullWith demoEven 0 b.val (taking (.bar 0 0) demoEven 0 fullMask)) ∧ taking (.bar 0 0) demoEven 0 fullMask ≠ 0 ∧
    (Issues (.barc 0) demoEven 0 fullMask 0x1000 ∧ taking (.barc 0) demoEven 0 fullMask &&& (demoEven.crew 0).barcm = 0) := by
  have hl : ∀ l, ((demoEven.crew 0).th l).st = .live := by decide
  refine ⟨fun b hb i hi => issues_of (by revert i; revert b; decide), by decide,
    noWaits_of (fun l => by rw [hl]; trivial) (by decide), by decide, by decide, ?_, ?_, by decide,
    issues_of (by decide), by decide⟩
  · simp only [FullWith]; decide
  · simp only [FullWith]; decide

theorem witness_clusterBarrier : demo.clusterFull 0 0 = false ∧ (demoCrew fun c => { c with barcm := fullMask }).clusterFull 0 0 = true ∧
    demo.clusterGangs 0 0 = [0] := by decide

/-- The crew with bank slot 0 a FIFO of 2047 entries and slot 47 an empty one. -/
def demoFifo : State := { demoEven with
  gangs := demo.gangs.set 0 { demo.gang 0 with banks := [(0, .fifo), (47, .fifo)], fifos := [(0, List.replicate 2047 7)] } }

theorem witness_fifos :
    (∀ i ∈ [Instr.fifow 0 0 1 0, .fifor 0 47 47, .fifow 1 0 0 1], Issues i demoFifo 0 fullMask 0x1000) ∧
    (demoFifo.gang 0).banks.getD (demoFifo.slotKey 0 1) .unmapped ≠ .fifo ∧
    (∀ n ∈ [0, 47], (demoFifo.gang 0).banks.getD (demoFifo.slotKey 0 n) .unmapped = .fifo ∧
      (demoFifo.gang 0).fifoReqs.getD (demoFifo.slotKey 0 n) [] = [] ∧ (demoFifo.gang 0).fifoPoison.getD (demoFifo.slotKey 0 n) [] = []) ∧
    (∀ l, ((demoFifo.crew 0).th l).st = .live) ∧ (maskLanes (taking (.fifor 0 0 0) demoFifo 0 fullMask)).length ≤ (fifoOf demoFifo 0 0).length ∧
    (fifoOf demoFifo 0 47).length < (maskLanes (taking (.fifor 0 0 47) demoFifo 0 fullMask)).length := by
  refine ⟨issues_all (by decide), by decide, by decide, by decide, by decide, by decide⟩

theorem witness_bankModes : ∀ x ∈ [0x300, 48, 0x440, (0x12F : Word)],
    Issues (.bankcfg 0 0 1) (demoRegs [(1, x)]) 0 fullMask 0x1000 ∧
    lowest (taking (.bankcfg 0 0 1) (demoRegs [(1, x)]) 0 fullMask) = some 0 ∧ srcInt (demoRegs [(1, x)]) 0 64 1 0 = x := by
  intro x hx
  simp only [List.mem_cons, List.not_mem_nil, or_false] at hx
  rcases hx with rfl | rfl | rfl | rfl <;> exact ⟨issues_of (by decide), by decide, by decide⟩

theorem witness_bankStatus :
    (0x300 : Word).extractLsb' 8 2 = 3#2 ∧ 48 ≤ ((48 : Word).extractLsb' 0 6).toNat ∧ (0x440 : Word).extractLsb' 6 2 ≠ 0#2 ∧
    (0x440 : Word).extractLsb' 10 54 ≠ 0#54 ∧ (0x12F : Word).extractLsb' 10 54 = 0#54 ∧ (0x12F : Word).extractLsb' 6 2 = 0#2 ∧
    ¬demo.waysOf 0 ≤ 4 ∧ taking (.bankcfg 2 0 1) demo 0 fullMask = 0 ∧
    (demoGang fun g => { g with banks := (List.range 44).map fun n => (n, .scratch) }).waysOf 0 ≤ 4 := by decide

theorem witness_presq : ∀ l, inMask (taking (.presq 0 0 1) demoPad 0 fullMask) l = true → 0xFFFFFFFFFF000000 ≤ (srcInt demoPad 0 64 1 l).toNat ∧
    scratchAt (srcInt demoPad 0 64 1 l) + 1 ≤ (demoPad.gang 0).hdr.scratch ∧
    pieceMapped (demoPad.gang 0) (scratchAt (srcInt demoPad 0 64 1 l)) = true := by decide

/-- The crew with a publication pending at 0x4000, and registers 2 and 3 holding a counter and 1. -/
def demoPubs : State := demoPad.modGang 0 fun g => { g with pubs := [⟨5, 0x4000, .pending, [], []⟩, ⟨6, 0x4000, .pending, [(0, 0)], []⟩], pubSeq := 0xFFFFFFFF }

theorem witness_publications :
    (∀ i ∈ [Instr.pub 0 0 1, .pubwait 0 0 1, .evwait 0 2 0, .evwait 0 2 3], Issues i demoPubs 0 fullMask 0x1000) ∧
    (demoPubs.gang 0).pubs.find? (fun q => q.seq == BitVec.ofNat 32 5) = some ⟨5, 0x4000, .pending, [], []⟩ ∧
    demoPubs.pubReady ⟨5, 0x4000, .pending, [], []⟩ = true ∧
    ({ demoPubs with cores := demoPubs.cores.set 0 { demoPubs.core 0 with porter := { (demoPubs.core 0).porter with
        copies := [⟨0, 0, .fill 0 0 0, true, 0, 0, none⟩] } } }).pubReady ⟨6, 0x4000, .pending, [(0, 0)], []⟩ = false ∧
    allIn (.evwait 0 2 3) 8 (fun s key l => srcInt s key 64 2 l) demoPubs 0 fullMask ∧
    (∀ l, ¬(readNat (pad demoPubs 0) (scratchAt (srcInt demoPubs 0 64 2 l)) 8) < (srcInt demoPubs 0 64 0 l).toNat) ∧
    (∀ l, (readNat (pad demoPubs 0) (scratchAt (srcInt demoPubs 0 64 2 l)) 8) < (srcInt demoPubs 0 64 3 l).toNat) := by
  have hi : ∀ va : Word, va = 0xFFFFFFFFFF000F80 → InScratch demoPubs 0 8 va := by
    rintro va rfl
    simp only [InScratch]
    decide
  exact ⟨issues_all (by decide), by decide, by decide, by decide, ⟨fun _ => rfl, fun l _ => hi _ (by revert l; decide)⟩, by decide, by decide⟩

/-! ## Witnesses: matrix jobs, accumulators, the function store, proposals -/

/-- A card of formats E3M2 for a region of 20 by 16, one of 16 along K. -/
def demoCardBytes : List Byte :=
  let put (m : List Byte) (off n v : Nat) : List Byte := m.take off ++ toBytes n v ++ m.drop (off + n)
  let op (m : List Byte) (o : Nat) : List Byte := put (put (put m o 8 (7 * 2 ^ 59)) (o + 8) 8 0x10000) (o + 0x10) 8 0x4000000040
  let m := put (put (List.replicate 256 0) 0 8 (2 ^ 56 + 3 * 2 ^ 40)) 0xC 2 16
  op (op (put (put (put m 0x10 8 20) 0x20 8 (2 ^ 62 + 16)) 0x30 8 (2 ^ 63 + 16)) 0x60) 0x90

/-- A job of the crew's gang. -/
def demoJob (seq : BitVec 32) (st : JobState) : Job :=
  { gang := 0, seq := seq, gcore := 0, stamp := 0, sup := false, card := demoCardBytes, only := false, st := st, badblk := 2, batch := 0, wrapped := true,
    poisoned := false, iter := 0, next := 0, stuck := false, stored := [], tried := [], staging := none, codebook := none, fault := some (0x4000, 8),
    shadows := [], opened := [] }

/-- The crew with the card in its scratchpad, 16 KiB of accumulator space, jobs 1 held, 2 queued and 3 done; register 4 holds the card's
address, 5 to 7 the jobs' tokens, 8 the last doubleword of accumulator space. -/
def demoEngine : State :=
  let s := demoPad.modGang 0 fun g => { g with hdr := { g.hdr with acc := 16 }, scratch := writeBytes [] 0 demoCardBytes, acc := [(0, 7)] }
  let s := s.modCore 0 fun c => { c with jobs := [demoJob 1 .held, demoJob 2 .queued, demoJob 3 .done] }
  let set (v : Vector (Lanes Word) 48) (r : Nat × Word) : Vector (Lanes Word) 48 := v.setIfInBounds r.1 (allLanes r.2)
  s.modCrew 0 fun c => { c with
    regs := [(4, 0xFFFFFFFFFF000000), (5, 0x100000000), (6, 0x200000000), (7, 0x300000000), (8, 0x3FF8)].foldl set c.regs }

theorem demoEngine_in {n : Nat} (hn : n ∈ [64, 128]) (k : Nat) (hk : k < 16) : InScratch demoEngine 0 n (0xFFFFFFFFFF000000 + BitVec.ofNat 64 (n * k)) := by
  simp only [InScratch]
  refine ⟨by decide, ?_⟩
  revert k; revert n; decide

theorem witness_jobs :
    (∀ i ∈ [Instr.mma 1 0 4, .mepi 1 0 4 0, .mepi 1 0 4 5, .mqry 0 0 5, .mwait 0 0 5, .mwait 0 0 6, .mwait 0 0 7, .mcan 0 0 6],
      Issues i demoEngine 0 fullMask 0x1000) ∧
    (demoEngine.memLate = false ∧ demoEngine.engineLoad 0 + (maskLanes (taking (.mma 1 0 4) demoEngine 0 fullMask)).length ≤ 16) ∧
    (∀ only : Bool, cardBad (readBytes (pad demoEngine 0) (scratchAt 0xFFFFFFFFFF000000) 256) (demoEngine.hdrOf 0) 1 0 only = false) ∧
    (∀ l, srcInt demoEngine 0 64 4 l = 0xFFFFFFFFFF000000 ∧ srcInt demoEngine 0 64 0 l = 0) ∧
    (taking (.mepi 1 0 4 5) demoEngine 0 fullMask = 1#32 <<< (31 : Lane).val ∧ srcInt demoEngine 0 64 5 31 ≠ 0) := by
  refine ⟨issues_all (by decide), by decide, by decide, by decide, by decide⟩

theorem witness_jobNames :
    ((demoEngine.jobAt 0 0x100000000).map Job.st) = some .held ∧ demoEngine.jobOf 0 0x100000000 = some (0, 0) ∧
    (demoEngine.core 0).jobs[0]? = some (demoJob 1 .held) ∧ (∃ j, demoEngine.jobAt 0 0x200000000 = some j ∧ j.st = .queued) ∧
    (∃ j, demoEngine.jobAt 0 0x300000000 = some j ∧ j.st = .done) ∧
    ∀ j ∈ (demoEngine.core 0).jobs, j.badblk < 2 ^ 16 ∧ j.batch < 2 ^ 16 ∧ j.stored.length < 2 ^ 16 :=
  ⟨by decide, by decide, rfl, ⟨demoJob 2 .queued, rfl, rfl⟩, ⟨demoJob 3 .done, rfl, rfl⟩, by decide⟩

theorem witness_accumulator :
    (∀ i ∈ [Instr.accz 0 0 8, .accz 0 8 0, .accz 0 3 0, .accrd 0 0 8, .accwr 0 8 0, .cbld 0 4], Issues i demoEngine 0 fullMask 0x1000) ∧
    lowest (taking (.accz 0 0 8) demoEngine 0 fullMask) = some 0 ∧ (demoEngine.hdrOf 0).acc * 1024 = 0x4000 ∧
    (∀ l, (srcInt demoEngine 0 64 8 l).toNat = 0x3FF8 ∧ (srcInt demoEngine 0 64 3 l).toNat % 8 ≠ 0) ∧
    demoEngine.accJobs 0 0 8 ≠ [] ∧ demoEngine.accJobs 0 0x3FF8 0x4000 = [] ∧ (demoEngine.gang 0).accPoison.contains (0x3FF8 / 8) = false :=
  ⟨issues_all (by decide), by decide, by decide, by decide, by decide, by decide, by decide⟩

/-- A table of one argument and one output. -/
def demoTable (deferred : Bool) : FstTable :=
  { dim := 1, outs := 1, single := false, tsrc := 0, deferred := deferred, cap := 2, routine := 7, ovl := 0, entry := 0x1FFC, gamma := 0, trel := 0,
    tau := [0, 0, 0, 0], rho := [1] }

/-- The crew with table 0 live, one record there that contains 1.0, table 1 deferred, and a queued update of table 2. -/
def demoStore : State :=
  let i : FstInstance := { FstInstance.reset with recs := [⟨7, 1, 0, [0x3FF0000000000000], [0x3FF0000000000000], [5], [6]⟩], next := 2 }
  let s := { demoPad with tables := ((demoPad.tables.set 0 (demoTable false)).set 1 (demoTable true)).set 2 (demoTable false) }
  let s := s.modDie 0 fun d => { d with fstsize := 2048, fst := (d.fst.set 0 i).set 2 { i with queue := [⟨0, 0, 0, 0, 0, .clear⟩] } }
  s.modCrew 0 fun c => { c with regs := [(4, 0xFFFFFFFFFF000000), (5, 0x3FF0000000000000), (9, 0x4010000000000000)].foldl (fun v r => v.setIfInBounds r.1 (allLanes r.2)) c.regs }

theorem witness_functionStore :
    (∀ i ∈ [Instr.fcall 0 6 5 0, .fcall 0 6 9 0, .fprobe 0 6 0 0, .fret 0 6 5 0, .fins 0 6 4 0, .fevict 0 6 0 0, .fclr 0 0, .ftab 0 6 4 0, .ftab 0 6 0 0,
      .fqry 0 6 0 0, .fcall 0 6 5 31, .fclr 0 31], Issues i demoStore 0 fullMask 0x1000) ∧
    demoStore.table? 31 = none ∧ demoStore.table? 0 = some (demoTable false) ∧
    (Issues (.fcall 0 0 47 0) { demoStore with tables := demoStore.tables.set 0 { demoTable false with dim := 2 } } 0 fullMask 0x1000 ∧
      (demoStore.hdrOf 0).regs < (47 : BitVec 6).toNat + 2) ∧
    ¬(demoStore.hdrOf 0).regs < (6 : BitVec 6).toNat + 2 ∧
    (let seen := ((demoStore.settleInst 0 0).instOf 0 0).seen (demoTable false) 0
     (seen.recs.find? fun r => r.contains (demoTable false).fmt numOne [0x3FF0000000000000]).isSome = true ∧
     seen.recs.find? (fun r => r.contains (demoTable false).fmt numOne [0x4010000000000000]) = none) ∧
    (dirEntry (demoStore.hdrOf 0) (demoTable false).ovl = some (0x1000, 1) ∧
      overlayAt (demoStore.hdrOf 0) (demoTable false).entry.toNat = some (0, 0x1000, 1) ∧ demoStore.ovlResident 0 0 0 0x1000 = true) ∧
    (∀ l, ((demoStore.crew 0).th l).fstat.extractLsb' 8 5 = 0 ∧ ((demoStore.crew 0).th l).rstk.length < 16 ∧ ((demoStore.crew 0).th l).rsdep < 4112) :=
  ⟨issues_all (by decide), rfl, rfl, ⟨issues_of (by decide), by decide⟩, by decide, by decide, ⟨rfl, rfl, rfl⟩, by decide⟩

/-- The 128 bytes of a descriptor. -/
def demoDescriptor : List Byte :=
  let put (m : List Byte) (off n v : Nat) : List Byte := m.take off ++ toBytes n v ++ m.drop (off + n)
  put (put (List.replicate 128 0) 0 8 (2 ^ 52 + 2 ^ 49 + 100)) 8 8 (7 * 2 ^ 48 + 0x1000)

theorem witness_bind :
    (∃ f, readDescriptor demoDescriptor = some f ∧ f.cap = 100) ∧ demoStore.bindRoom 1 100 = false ∧
    ({ demoStore with dies := demoStore.dies.mapAll fun _ d => { d with fstsize := 2048 } }.liveDies).length = 8 ∧
    readDescriptor (List.replicate 128 0) = none ∧ srcInt demoStore 0 64 0 0 = 0 ∧
    lowest (taking (.ftab 0 6 4 0) demoStore 0 fullMask) = some 0 ∧
    InScratch demoStore 0 64 0xFFFFFFFFFF000000 ∧ InScratch demoStore 0 64 (0xFFFFFFFFFF000000 + 64) := by
  refine ⟨⟨_, rfl, rfl⟩, by decide, by decide, by decide, by decide, by decide, ?_, ?_⟩ <;> simp only [InScratch] <;> decide

/-- The same inside a routine. -/
def demoDeep : State := demoStore.modCrew 0 fun c => c.updThr fullMask fun _ t => { t with rstk := [0x1FFC], rsdep := 1 }

theorem witness_updates :
    (∀ i ∈ [Instr.fret 0 6 5 1, .fins 0 6 4 1, .fevict 0 6 0 1, .fclr 0 1], Issues i demoStore 0 fullMask 0x1000) ∧
    demoStore.table? 1 = some (demoTable true) ∧ demoStore.fstRoom 0 (demoTable true) 32 = true ∧ demoStore.fstRoom 0 (demoTable false) 32 = true ∧
    (∀ k, k < 8 → InScratch demoStore 0 64 (0xFFFFFFFFFF000000 + BitVec.ofNat 64 (64 * k))) ∧
    ((demoStore.instOf 0 2).queue = [⟨0, 0, 0, 0, 0, .clear⟩] ∧ demoStore.table? 2 = some (demoTable false)) ∧
    Issues (.fret 0 6 5 0) demoDeep 0 fullMask 0x1000 ∧ Quiet demoDeep 0 := by
  have h1 : ∀ l, ((demoDeep.crew 0).th l).st = .live ∨ ((demoDeep.crew 0).th l).st = .exited := by decide
  have h2 : ∀ p ∈ demoDeep.crewsOf 0, ∀ id : Fin 16, p.2.barm[id.val] = 0 := by decide
  refine ⟨issues_all (by decide), rfl, by decide, by decide, ?_, ⟨rfl, rfl⟩, issues_of (by decide), quiet_of_live h1 (by decide) h2⟩
  simp only [InScratch]
  decide

/-- A record around 1.0. -/
def demoRecord (n h : Nat) : FstRecord := ⟨7, n, h, [0x3FF0000000000000], [0x3FF0000000000000], [0x3FF0000000000000], [0x3FF0000000000000]⟩

/-- A table with a tolerance of 1.0. -/
def demoTight : FstTable := { demoTable false with gamma := 0x3FF0000000000000, trel := 0x3FF0000000000000, tau := [0x3FF0000000000000, 0, 0, 0] }

theorem witness_learnRejects : fstFinite demoTight.fmt 0x7FF0000000000000 = false ∧ fstFinite demoTight.fmt 0x4000000000000000 = true := by decide

theorem witness_learnInserts : demoTight.cap ≤ [demoRecord 1 3, demoRecord 2 3].length ∧
    [demoRecord 1 3, demoRecord 2 3].find? (demoTight.candidate [0x4010000000000000] [0x4010000000000000]) = none := by decide

set_option exponentiation.threshold 2048 in
theorem witness_learnFinds : (demoRecord 1 3).contains demoTight.fmt numOne [0x4000000000000000] = true ∧
    demoTight.candidate [0x4000000000000000] [0x4000000000000000] (demoRecord 1 3) = true := by decide

theorem witness_proposals :
    (∀ i ∈ [Instr.pbegin 0, .pcommit 0, .pdisc 0, .accept 0 1 0 1 2, .accept 0 7 1 1 2], Issues i demo 0 fullMask 0x1000) ∧
    taking (.pbegin 0) demo 0 fullMask ≠ 0 ∧ (∀ l, ((demo.crew 0).th l).pmode = false) ∧
    (let s := demoThr fun l t => { t with pmode := l == 31, wm := 0x81 }
     Issues (.pbegin 0) s 0 fullMask 0x1000 ∧ (maskOf fun l => inMask (taking (.pbegin 0) s 0 fullMask) l && ((s.crew 0).th l).pmode) ≠ 0) :=
  ⟨issues_all (by decide), by decide, by decide, issues_of (by decide), by decide⟩

/-! ## Witnesses: Porters, semaphores, overlays -/

/-- Two crews of the gang: crew 1 waits at semaphore 31 for 3; semaphores 0 and 31 hold 2; register 1 holds 2, register 2 an address of the
stream, register 3 is 5. -/
def demoSems : State :=
  let s := demoRegs [(1, 2), (2, 0x2000), (3, 5)]
  let s := s.modGang 0 fun g => { g with sems := [(0, 2), (31, 2)], semWaits := [(31, [⟨4, some 1, 3⟩])], tickets := 5 }
  { s with crews := s.crews.set 1 { (s.crew 0) with thr := allLanes { Thread.reset with pc := 0x1004, st := .parked (.semaphore 4) } } }

theorem witness_semaphores :
    (∀ i ∈ [Instr.prun 0 0 2 1, .prun 2 0 2 1, .semsig 0 3 0, .semsig 0 3 31, .semsig 2 3 0, .semwait 0 1 0, .semwait 0 0 0, .semwait 0 3 0,
      .semqry 0 0 31], Issues i demoSems 0 fullMask 0x1000) ∧
    taking (.prun 2 0 2 1) demoSems 0 fullMask = 0 ∧ lowest (taking (.prun 0 0 2 1) demoSems 0 fullMask) = some 0 ∧
    ((demoSems.core 0).porter.gang = none ∧ (demoSems.core 0).porter.resumed = [] ∧ (demoSems.hdrOf 0).porter = 0x2000 ∧
      (demoSems.hdrOf 0).porterLen = 4 ∧ (srcInt demoSems 0 64 2 0).extractLsb' 0 32 = 0x2000 ∧ (srcInt demoSems 0 64 1 0).extractLsb' 0 32 = 2) ∧
    ((demoSems.gang 0).semWaits.getD 0 [] = [] ∧ (demoSems.gang 0).semWaits.getD 31 [] = [⟨4, some 1, 3⟩] ∧
      (demoSems.crew 1).semLanes 4 ≠ 0 ∧ (demoSems.crew? 1).isSome = true ∧ (3 : BitVec 32) ≤ 2 + 5) ∧
    ∀ l, ((demoSems.crew 0).th l).st ≠ .parked (.semaphore (demoSems.gang 0).tickets) :=
  ⟨issues_all (by decide), by decide, by decide, by decide, by decide, by decide⟩

/-- The crew with a quota of 47 slots and a kernel of five overlays: 0 resident and in use, 1 loading, 2 resident, 3 larger
than the quota, 4 absent. -/
def demoOverlays : State :=
  let s := demoRegs [(1, 1), (2, 2), (3, 3), (4, 4), (5, 0x2000), (6, 0x1FFC), (7, 0x1002), (8, 0x9000), (10, 5)]
  let s := s.modGang 0 fun g => { g with hdr := { g.hdr with ovls := 5, dir := [(0x1000, 1), (0x2000, 1), (0x4000, 2), (0x8000, 48), (0x40000, 1)] } }
  s.modCore 0 fun c => { c with quota := [(0, 47)], ovls := c.ovls ++
    [⟨0, 0, 0x2000, 1, [], false, false, false, 0, false⟩, ⟨0, 0, 0x4000, 2, [], true, false, false, 0, false⟩] }

theorem witness_overlays :
    (∀ i ∈ [Instr.ovld 0 9 0, .ovld 0 9 1, .ovld 0 9 2, .ovld 0 9 3, .ovld 0 9 4, .ovld 0 9 10, .ovevict 0 9 0, .ovevict 0 9 1, .ovevict 0 9 2,
      .ovevict 0 9 4, .ovevict 0 9 10,
      .ovqry 0 9 0, .ovwait 0 9 0, .ovwait 0 9 1, .ovwait 0 9 3, .ovwait 0 9 10, .ovcall 0 6, .ovcall 0 7, .ovcall 0 8, .ovld 2 9 0],
      Issues i demoOverlays 0 fullMask 0x1000) ∧
    lowest (taking (.ovld 0 9 0) demoOverlays 0 fullMask) = some 0 ∧ taking (.ovld 2 9 0) demoOverlays 0 fullMask = 0 ∧
    ((demoOverlays.hdrOf 0).dir[3]? = some (0x8000, 48) ∧ (demoOverlays.hdrOf 0).dir[5]? = none) ∧
    ((ovlFind (demoOverlays.core 0) 0 0 0x1000).map (·.resident) = some true ∧ (ovlFind (demoOverlays.core 0) 0 0 0x2000).map (·.resident) = some false ∧
      ovlFind (demoOverlays.core 0) 0 0 0x40000 = none ∧ (demoOverlays.core 0).quota.getD 0 0 = 47) ∧
    (demoOverlays.pinsOn 0 0 0 0x1000 ≠ 0 ∧ demoOverlays.pinsOn 0 0 0 0x4000 = 0 ∧ ∀ x ∈ (demoOverlays.core 0).ovls, x.wants = false ∧ x.evict = false) ∧
    (∀ l, overlayAt (demoOverlays.hdrOf 0) ((srcInt demoOverlays 0 64 6 l).extractLsb' 0 32).toNat = some (0, 0x1000, 1) ∧
      overlayAt (demoOverlays.hdrOf 0) ((srcInt demoOverlays 0 64 8 l).extractLsb' 0 32).toNat = some (3, 0x8000, 48) ∧
      ((srcInt demoOverlays 0 64 7 l).extractLsb' 0 32).toNat % 4 ≠ 0) ∧
    (∀ l, ((demoOverlays.crew 0).th l).rstk.length < 16 ∧ ((demoOverlays.crew 0).th l).rsdep < 4112) ∧
    demoOverlays.ovlResident 0 0 0 0x1000 = true :=
  ⟨issues_all (by decide), by decide, by decide, ⟨rfl, rfl⟩, ⟨rfl, rfl, rfl, rfl⟩, by decide, by decide, by decide, rfl⟩

/-- The overlay that loads, with a crew that waits for it. -/
def demoLoads : State := demoOverlays.modCrew 0 fun c => c.updThr fullMask fun _ t => { t with st := .parked (.overlay 0x2000) }

theorem witness_overlayLoads :
    (demoLoads.core 0).ovls[1]? = some ⟨0, 0, 0x2000, 1, [], false, false, false, 0, false⟩ ∧ (demoLoads.core 0).ovls[3]? = none ∧
    ((demoLoads.core 0).ovls.map fun x => (x.asid, x.ver, x.offset)).Nodup ∧ (demoLoads.loadCode 0 0 0x2000 1).2 = false ∧
    (demoLoads.gang 0).core0.isSome = true ∧ ∀ l, ((demoLoads.crew 0).th l).st = .parked (.overlay 0x2000) :=
  ⟨rfl, rfl, by decide, by decide, rfl, by decide⟩

/-- Core 0's Porter at a word of the gang's stream, with these values of Q. -/
def demoPorter (q : List Word) : State :=
  let s := { State.reset.loadPorter 0 with cur := .porter 0 }
  let s := s.modGang 0 fun g => { g with hdr := { g.hdr with scratch := 4096 }, banks := [(0, .scratch)], sems := [(3, 5)] }
  s.modCore 0 fun c => { c with porter := { c.porter with q := q.zipIdx.foldl (fun v x => v.setIfInBounds x.2 x.1) c.porter.q } }

theorem witness_porterMoves :
    let s := demoPorter [0x4000, 0xFFFFFFFFFF000000, 0xFFFFFFFF, 0x100000000, 0xFFFFFFFFFF000FC0, 0xFFFFFFFFFF000001, 8]
    (∀ i ∈ [Instr.cpy 0 1 2 0, .cpy 0 1 3 0, .cpy 1 0 6 1, .cfill 0 1 2 0, .cfill 0 1 3 0, .cpy2 0 1 2 0, .cpy2 1 0 2 1, .cpyt 0 4 2 0, .cpyt 0 5 2 0,
      .cred 0 1 2 0 0, .cred 0 1 6 0 0], Streams i s 0 0) ∧
    (s.core 0).porter.q[2].toNat < 2 ^ 32 ∧ 2 ^ 32 ≤ (s.core 0).porter.q[3].toNat ∧ (s.core 0).porter.q[5].toNat % 64 ≠ 0 ∧
    (Memory.wf (s.gang 0).scratch = true ∧ scratchAt (s.core 0).porter.q[4] + 64 ≤ (s.gang 0).hdr.scratch ∧
      pieceMapped (s.gang 0) (scratchAt (s.core 0).porter.q[4]) = true) ∧
    (0xFFFFFFFFFF000000 ≤ (s.core 0).porter.q[1].toNat ∧ (CopyKind.lin 0xFFFFFFFFFF000000 0x4000 8).runs.length = 1) := by
  refine ⟨fun i hi => ?_, by decide, by decide, by decide, by decide, by decide⟩
  have h := List.all_eq_true.1 (show [Instr.cpy 0 1 2 0, .cpy 0 1 3 0, .cpy 1 0 6 1, .cfill 0 1 2 0, .cfill 0 1 3 0, .cpy2 0 1 2 0, .cpy2 1 0 2 1,
    .cpyt 0 4 2 0, .cpyt 0 5 2 0, .cred 0 1 2 0 0, .cred 0 1 6 0 0].all (fun i => !i.illegal) = true by decide) i hi
  exact ⟨rfl, rfl, by simpa using h⟩

/-- The 64 bytes of a tensor map of one doubleword. -/
def demoMap : List Byte :=
  toBytes 8 0x4000 ++ toBytes 8 0x100000001 ++ toBytes 8 0x100000001 ++ List.replicate 24 0 ++ toBytes 8 0x0101010101010101 ++ toBytes 8 (3 * 2 ^ 61)

theorem witness_tensor : (tensorMap demoMap).bad demoMap = false ∧ (tensorMap (List.replicate 64 0)).bad (List.replicate 64 0) = true := by decide

theorem witness_cred :
    let s := { demoPorter [0xFFFFFFFFFF000000, 0x4000, 0x0000000100000008] with groups := State.reset.groups.set 0 (1#64 <<< 63) }
    grpValid (s.group 0) = true ∧ s.credCopy 0 1 = none ∧ ((s.core 0).porter.q[2]).extractLsb' 0 24 = 8 ∧
    grpValid ((demoPorter []).group 255) = false := by decide

theorem witness_control :
    let s := demoPorter [1, 0x2000, 0xFFFFFFFFFF000FF8]
    let busy := s.modCore 0 fun c => { c with porter := { c.porter with copies := [⟨0, 0, .fill 0 0 0, false, 0, 0, none⟩] } }
    (∀ i ∈ [Instr.csig 63 3, .cwait 5 3, .cwait 6 3, .cwait 0 3, .cloop 0 (-1), .cloop 0 0, .cend, .cpub 1, .cqsetAddi 7 1 511, .cqsetAdd 7 1 2,
      .cqsetLd 7 2 0], Streams i s 0 0) ∧
    (s.core 0).porter.copies = [] ∧ (busy.core 0).porter.copies ≠ [] ∧ (s.core 0).porter.wait = .none ∧ (s.gang 0).semWaits.getD 3 [] = [] ∧
    (s.gang 0).sems.getD 3 0 = 5 ∧ (s.core 0).porter.resumed = [] ∧
    ((s.core 0).porter.lo = 0x2000 ∧ (s.core 0).porter.hi = 0x2004 ∧ (s.core 0).porter.pc = 0x2000) ∧
    ((Instr.cloop 0 0).isPorter = true ∧ (Instr.cred 0 0 0 7 3).isPorter = true ∧ (Instr.cred 0 0 0 7 3).illegal = true) ∧
    (((s.core 0).porter.q[2]).toNat % 8 = 0 ∧ scratchAt (s.core 0).porter.q[2] + 8 ≤ (s.gang 0).hdr.scratch ∧
      pieceMapped (s.gang 0) (scratchAt (s.core 0).porter.q[2]) = true) := by
  refine ⟨fun i hi => ?_, rfl, by decide, rfl, rfl, rfl, rfl, ⟨rfl, rfl, rfl⟩, by decide, by decide⟩
  have h := List.all_eq_true.1 (show [Instr.csig 63 3, .cwait 5 3, .cwait 6 3, .cwait 0 3, .cloop 0 (-1), .cloop 0 0, .cend, .cpub 1, .cqsetAddi 7 1 511,
    .cqsetAdd 7 1 2, .cqsetLd 7 2 0].all (fun i => !i.illegal) = true by decide) i hi
  exact ⟨rfl, rfl, by simpa using h⟩

/-! ## Witnesses: events of cores, engines, coherence, translation, grids and gangs -/

/-- A crew whose lanes 0 to 15 stand 4 bytes behind the others, which have issued 64 times in a row. -/
def demoSplit : State := demoCrew fun c =>
  { c.updThr 0xFFFF fun _ t => { t with pc := 0x1004 } with same := 64, sameSet := 0xFFFF0000, stall := 1, active := false, readySince := 3 }

theorem witness_crewEvents :
    (demo.crew? 5).isNone = true ∧ (demoSplit.crew? 0).isSome = true ∧ 64 ≤ (demoSplit.crew 0).same ∧
    ((0xFFFF : Mask) ∈ (demoSplit.crew 0).frags ∧ 0xFFFF ≠ (demoSplit.crew 0).sameSet) ∧ (demo.crew 0).same < 64 ∧
    ((demo.crew 0).nextFrag = some fullMask ∧ (demo.crew 0).run = none ∧ (demo.crew 0).force = none) :=
  ⟨rfl, rfl, by decide, by decide, by decide, ⟨by decide, rfl, rfl⟩⟩

theorem witness_exchange :
    (demoSplit.crews.map Prod.fst).Nodup ∧ demoSplit.time < (demoSplit.core 0).lastJoin + 1024 ∧
    (({ demoSplit with time := 1024 }).core 0).lastJoin + 1024 ≤ 1024 ∧ (demoSplit.crew 0).active = false ∧
    ({ demoSplit with time := 1024 }).ready 0 (demoSplit.crew 0) = true ∧ (demoSplit.gang 0).core0.isSome = true :=
  ⟨by decide, by decide, by decide, rfl, by decide, rfl⟩

theorem witness_trapVector :
    let s := demoThr fun _ t => { t with st := .parked (.slotWait demoTrap) }
    (s.crew 0).slots[0] = none ∧ ∀ l, ((s.crew 0).th l).st = .parked (.slotWait demoTrap) := by decide

/-- A copy of 8 bytes inside the scratchpad. -/
def demoCopy : State := demoPad.modCore 0 fun c => { c with porter := { c.porter with
  copies := [⟨7, 0, .lin 0xFFFFFFFFFF000008 0xFFFFFFFFFF000000 8, false, 0, 0, none⟩] } }

theorem witness_copy :
    (∀ y ∈ (demoCopy.core 0).porter.copies, y.id ≠ 8) ∧
    (demoCopy.core 0).porter.copies.find? (fun y => y.id = 7) = some ⟨7, 0, .lin 0xFFFFFFFFFF000008 0xFFFFFFFFFF000000 8, false, 0, 0, none⟩ ∧
    (demoCopy.core 0).porter.stopped = none ∧ Memory.wf (demoCopy.gang 0).scratch = true ∧ (demoCopy.gang 0).hdr.scratch = 4096 ∧
    ∀ k, k < 8 → pieceMapped (demoCopy.gang 0) k = true ∧ pieceMapped (demoCopy.gang 0) (8 + k) = true ∧
      (demoCopy.gang 0).scratchPoison.contains (k / 128) = false ∧ (demoCopy.gang 0).scratchPoison.contains ((8 + k) / 128) = false := by
  refine ⟨by decide, rfl, rfl, by decide, rfl, by decide⟩

/-- A core with one job, as given. -/
def demoWork (j : Job) : State := demoEngine.modCore 0 fun c => { c with jobs := [j] }

theorem witness_jobEvents :
    let zero := demoWork (demoJob 1 .queued)
    let later := demoWork { demoJob 1 .running with next := 1 }
    let stage := demoWork (demoJob 1 .epilogue)
    (zero.core 0).jobs[1]? = none ∧ (zero.core 0).jobs[0]? = some (demoJob 1 .queued) ∧
    (later.core 0).jobs[0]? = some { demoJob 1 .running with next := 1 } ∧ (stage.core 0).jobs[0]? = some (demoJob 1 .epilogue) ∧
    (∀ k ∈ (stage.core 0).jobs, k.staging = none) ∧ ((zero.core 0).jobs.take 0 = []) := by
  refine ⟨rfl, rfl, rfl, rfl, by decide, rfl⟩

theorem witness_chunkFails : ∃ f u, ({ demoJob 1 .running with next := 1 }).chunk 0 0 0 0 (demoWork { demoJob 1 .running with next := 1 }) =
    (.error (.fault f), u) := ⟨_, _, rfl⟩

/-- The card with its operands in the scratchpad. -/
def demoNear : List Byte :=
  let put (m : List Byte) (off n v : Nat) : List Byte := m.take off ++ toBytes n v ++ m.drop (off + n)
  let op (m : List Byte) (o : Nat) : List Byte := put (put m o 8 (7 * 2 ^ 59 + 2 ^ 57)) (o + 8) 8 0xFFFFFFFFFF000400
  op (op demoCardBytes 0x60) 0x90

theorem demoNear_goes : (({ demoJob 1 .running with card := demoNear, next := 1 }).chunk 0 0 0 0 demoEngine).1.toOption.isSome = true := by
  decide +kernel

theorem witness_chunkGoes : ∃ j u, ({ demoJob 1 .running with card := demoNear, next := 1 }).chunk 0 0 0 0 demoEngine = (.ok j, u) := by
  have h := demoNear_goes
  generalize ({ demoJob 1 .running with card := demoNear, next := 1 } : Job).chunk 0 0 0 0 demoEngine = r at h ⊢
  obtain ⟨_ | j, u⟩ := r
  · cases h
  · exact ⟨j, u, rfl⟩

/-- Line 5 in the first level of core 0, at the head of its die's list. -/
def demoShared : State :=
  let e : L1Line := ⟨0, 0, 0, false, 0, 0, 0, 0, false, true, none, none, false⟩
  let d : L2Line := ⟨0, 0, false, 0, 0, 0, false, true, none, none, false, some 0⟩
  let s := (demo.modCore 0 fun c => { c with l1 := [(5, e)] }).modDie 0 fun x => { x with l2 := [(5, d)] }
  { s with
    homes := demo.homes.set 5 { Home.reset with rv := true, rcore := 0, head := some 0 } }

theorem witness_sharers :
    demoShared.memberLinks 5 (.core 0) = some (none, none, true) ∧ demoShared.memberLinks 5 (.core 1) = none ∧ demoShared.fabric = [] ∧
    demoShared.listHead 5 (.core 1) = some 0 ∧ ((demoShared.core 1).l1.filter fun p => p.1 % 128 = 5 % 128).length < demoShared.waysOf 1 ∧
    demo.listHead 5 (.core 1) = none ∧ demo.memberLinks 5 (.core 1) = none ∧ (demoShared.core 0).l1.map Prod.fst = [5] ∧
    ((demoShared.home 5).rv = true ∧ (demoShared.home 5).rcore.toNat = 0) ∧ ¬((demo.home 5).rv = true) := by
  refine ⟨rfl, rfl, rfl, rfl, by decide, rfl, rfl, rfl, by decide, by decide⟩

/-- A window of CXL memory. -/
def demoCxl : State := { demo with
  windows := demo.windows.set 0 ⟨true, 1, 0, 0, 1, 0, 0x100000, 0, 0⟩, cxl := [(0, { CxlPort.reset with trained := true })] }

theorem witness_snoop : demo.windowOf (5 * 128) = none ∧ (demoCxl.windowOf (5 * 128)).map (·.type) = some 1 ∧ demoCxl.listHead 5 (.die 0) = none ∧
    demoCxl.listHead 5 (.core (demoCxl.homeDie (5 * 128) * 32)) = none := by decide

/-- Two tagged requests not acknowledged, the second in its window already. -/
def demoTagged : State :=
  let q (seq : BitVec 32) : Tagged := { Tagged.ask 0 false false 3 0 with seq := seq, pa := 0x20000 }
  let s := demoCode.modCore 0 fun c => { c with unacked := [q 1, q 2] }
  s.modDie (s.homeDie 0x20000) fun d => { d with windows := d.windows.set (State.windowKey 0 0x20000) [(2, 0)] }

theorem witness_tagged :
    ((demoTagged.core 0).unacked.find? fun t => t.seq == 3) = none ∧ (((demoTagged.core 0).unacked.find? fun t => t.seq == 1).map (·.pa)) = some 0x20000 ∧
    ((demoTagged.die (demoTagged.homeDie 0x20000)).windows.getD (State.windowKey 0 0x20000) []) = [(2, 0)] ∧
    demoTagged.linePoisoned (0x20000 / 128) = false ∧ { demoTagged with poison := [0x20000 / 128] }.linePoisoned (0x20000 / 128) = true ∧
    Memory.wf demoTagged.mem = true ∧ (demoTagged.core 0).l1.get? (0x20000 / 128) = none ∧ (demoTagged.die 0).l2.get? (0x20000 / 128) = none ∧
    (demoTagged.home (0x20000 / 128)).head = none ∧
    demoTagged.listHead (0x20000 / 128) (.core (demoTagged.homeDie (0x20000 / 128 * 128) * 32)) = none := by
  refine ⟨rfl, rfl, rfl, rfl, rfl, by decide, rfl, rfl, rfl, rfl⟩

theorem witness_walks :
    (∃ f, walk demoCode 0 0 = .error f) ∧
    (∃ l, walk demoCode 0 0x4000 = .ok l ∧ l.level = 3 ∧ l.pte.getLsbD 7 = false ∧ l.pte.getLsbD 54 = false ∧
      demoCode.cachedIn (pteAddr l.pte) (pteAddr l.pte + 16384) = [] ∧ (demoCode.home (l.pteAt / 128)).head = none ∧
      demoCode.listHead (l.pteAt / 128) (.core (demoCode.homeDie (l.pteAt / 128 * 128) * 32)) = none) ∧
    (∃ l, walk (demoPage 0xE0) 0 0x4000 = .ok l ∧ l.pte.getLsbD 7 = true) ∧ (0x7FFF : Word).toNat = (0x4000 : Word).toNat + 16383 :=
  ⟨⟨_, rfl⟩, ⟨⟨0x20063, 0x1C008, 3⟩, rfl, by decide⟩, ⟨⟨0x200E3, 0x1C008, 3⟩, rfl, by decide⟩, rfl⟩

/-- A launch parameter block of one gang of one crew, its completion record at 0x4400. -/
def demoBlock : List Nat := [2 ^ 56 + 2 ^ 32, 2 ^ 32 + 1, 1, 0x10000, 0x9000, 0, 0, 0, 0, 0, 0x4400, 0, 0, 0, 0, 0]

/-- Queue 0 with a launch of that block at 0x4200, and queue 1 with one of an unmapped block; a boot image is accepted, and every core allows ASID 0 one slot. -/
def demoLaunch : State :=
  let s := { demoCode with
    mem := demoBlock.zipIdx.foldl (fun m (x : Nat × Nat) => writeNat m (0x20200 + 8 * x.2) 8 x.1) (writeNat demoCode.mem 0x1C008 8 0x200E3)
    queues := (demoCode.queues.set 0 { Queue.reset with asid := some 0, entries := [⟨0x4200, 1, 0, none⟩] }).set 1
      { Queue.reset with asid := some 0, entries := [⟨0, 1, 0, none⟩] }
    boot := { Boot.reset with accepted := true } }
  s.modCore 1 fun c => { c with quota := [(0, 1)] }

/-- A grid of that block. -/
def demoGrid (st : GridState) : Grid :=
  { queue := 0, lseq := 1, asid := 0, block := 0x4200, lpb := lpbOf demoBlock, hdr := loadedGang.hdr, ver := 0, st := st, eligible := 0, nextPos := 0,
    clusters := [], gangsFreed := 0, status := 0, cause := 0, faddr := 0, heldcan := 0, reddrop := 0, redaddr := 0, sliceStart := 0, stuck := false }

theorem witness_eligible :
    ((demoLaunch.queue 0).entries = [⟨0x4200, 1, 0, none⟩] ∧ (demoLaunch.queue 0).current = none ∧ (demoLaunch.queue 5).entries = []) ∧
    (match (demoLaunch.readBlock 0 0x4200).1 with
      | .ok d => d = demoBlock
      | .error _ => False) ∧ (∃ f u, demoLaunch.readBlock 0 0 = (.error f, u)) ∧
    ((lpbOf demoBlock).waitev = 0 ∧ (lpbOf demoBlock).crec.toNat % 64 = 0) ∧ demoLaunch.boot.accepted = true ∧ demoCode.boot.accepted = false :=
  ⟨⟨rfl, rfl, rfl⟩, by rfl, ⟨_, _, rfl⟩, by decide, rfl, rfl⟩

/-- The grid, placing in ORDERED mode; and one that has come to its completion record. -/
def demoPlacing : State :=
  let g := demoGrid .placing
  { demoLaunch with grids := (State.reset.grids.set 0 { g with lpb := { g.lpb with mode := 1 } }).set 1 { demoGrid (.completing 5) with queue := 1 } }

theorem witness_placing :
    (∃ g, demoPlacing.served = some (0, g) ∧ demoPlacing.grids.get? 0 = some g ∧ g.st = .placing ∧ g.lpb.cores = false ∧ g.lpb.clusterSize (g.nextPos / g.lpb.perCluster) = 1 ∧ g.lpb.ncrew ≤ 256) ∧
    (∃ t, demoPlacing.placeUnit 0 = some t) ∧ demoPlacing.boot.accepted = true ∧ demoLaunch.placeNext = none := by
  refine ⟨⟨_, rfl, rfl, rfl, by decide⟩, ⟨_, rfl⟩, rfl, rfl⟩

theorem witness_completion : (∃ g, demoPlacing.grids.get? 1 = some g ∧ g.stuck = false ∧ g.st = .completing 5 ∧ g.lpb.doneev = 0) ∧
    (∃ pa o u, demoPlacing.launchPlace 0 0x4400 = (.ok (pa, o), u)) :=
  ⟨⟨_, rfl, rfl, rfl, rfl⟩, ⟨_, _, _, rfl⟩⟩

/-- The grid at the end of its slice. -/
def demoSlice : State := { demoLaunch with grids := State.reset.grids.set 0 { demoGrid .running with
  lpb := { lpbOf demoBlock with mode := 2 }, clusters := [⟨0, [0], 0, 0, true, false⟩] }, time := 2 ^ 20 }

theorem witness_slice : (∃ g, demoSlice.grids.get? 0 = some g ∧ g.sliceOver demoSlice.time = true ∧ demoSlice.clustersWait 0 = false ∧
      ({ g with sliceStart := 2 }).sliceOver demoSlice.time = false) ∧ demoSlice.served = none :=
  ⟨⟨_, rfl, rfl, rfl, rfl⟩, rfl⟩

theorem witness_repair :
    let s := { demoLaunch with
      queues := demoLaunch.queues.set 2 { Queue.reset with entries := [⟨0, 1, 0, some (0, 8)⟩] } |>.set 3 { Queue.reset with current := some 0 }
      grids := State.reset.grids.set 0 { demoGrid (.completing 3) with stuck := true } }
    (s.queue 2).entries = [⟨0, 1, 0, some (0, 8)⟩] ∧ (s.queue 3).current = some 0 ∧ (∃ g, s.grids.get? 0 = some g ∧ g.stuck = true ∧ g.st = .completing 3) ∧
    ∀ y ∈ s.gangs, y.2.grid = 0 → y.2.argps = [] :=
  ⟨rfl, rfl, ⟨_, rfl, rfl, rfl⟩, by decide⟩

theorem witness_preemption :
    demoCode.gangs.get? 5 = none ∧ demoCode.gangs.get? 0 = some loadedGang ∧ loadedGang.core0 ≠ none ∧ loadedGang.freed = false ∧
    (∀ p ∈ demo.crewsOf 0, p.2.midRun = false) ∧ (demo.crews.map Prod.fst).Nodup ∧ demo.batches 0 = [] ∧
    ∀ c ∈ demo.cores, c.2.porter.copies = [] ∧ c.2.redbuf = [] ∧ c.2.porter.gang ≠ some 0 ∧ c.2.porter.resumed = [] :=
  ⟨rfl, rfl, by decide, rfl, by decide, by decide, by decide, by decide⟩

/-- The gang in its save area, beside its grid. -/
def demoSaved : State :=
  let s := demoLaunch.preempt 0
  { s with grids := State.reset.grids.set 0 (demoGrid .running) }

theorem witness_resumption : (∃ g, demoSaved.gangs.get? 0 = some g ∧ g.core0 = none ∧ g.saved = some loadedGang.areaPa ∧
    demoSaved.resumeFits [] [] g (lpbOf demoBlock) 1 = true ∧ demoSaved.resumeFits [] [] g (lpbOf demoBlock) 2 = false) ∧ (demoSaved.grids.get? 0).isSome = true :=
  ⟨⟨_, rfl, rfl, rfl, rfl, rfl⟩, rfl⟩

theorem witness_area : (demoSaved.areaOf loadedGang.areaPa).firstBad (demoSaved.gang 0)
    ((demoSaved.crewsOf 0).map fun p => p.2.header (demoSaved.gang 0)) = none := by decide

/-! ## Witnesses: Foreman, errors, links, boot and power -/

/-- The lanes of a trap that waits for Foreman, its cause as given. -/
def demoParked (cause : BitVec 8) : State :=
  demoCode.takeTrap 0 { demoTrap with cause := cause, faddr := allLanes 0x4000, foreman := true }

theorem demoParked_bad : frameBad (demoParked 0x0A).mem 0x0008000000000000 = false := by decide

theorem demoParked_bare : (((demoParked 0x0A).crew 0).slots.getD 0 none).map (fun u => u.trap.entries) = some [] := by decide

theorem witness_foremanResume :
    ((demoParked 0x0A).gang 0).core0 ≠ none ∧ ((demoParked 0x0A).crew? 0).isSome = true ∧ Quiet (demoParked 0x0A) 0 ∧
    FrameGood (demoParked 0x0A) 0 0 0xFFFF true ∧
    (∀ l, inMask 0xFFFF l = true → (((demoParked 0x0A).crew 0).th l).st = .parked (.foreman 0)) := by
  have hs : ∀ l, (((demoParked 0x0A).crew 0).th l).st = if inMask 0xFFFF l then .parked (.foreman 0) else .live := by decide
  have hp : ∀ l, inMask 0xFFFF l = true → (((demoParked 0x0A).crew 0).th l).st = .parked (.foreman 0) := fun l h => by rw [hs, if_pos h]
  refine ⟨by decide, by decide, ⟨noWaits_of (fun l => ?_) (by decide), by decide⟩, ⟨by decide, demoParked_bad, demoParked_bare, ⟨16, .inl (by decide), by decide⟩,
    fun l => ?_, by decide, fun l hl n off slots h => ?_⟩, hp⟩
  · by_cases h : inMask 0xFFFF l = true
    · rw [hs, if_pos h]; trivial
    · rw [hs, if_neg h]; trivial
  · by_cases h : inMask 0xFFFF l = true
    · rw [hs, if_pos h]
    · rw [hs, if_neg h]
  · have hn : ∀ l : Lane, inMask 0xFFFF l = true → frameField (demoParked 0x0A) 0 0 (0x380 + 4 * l.val) 4 = 0x1004 := by decide
    rw [hn l hl] at h
    cases (show some (0, 0x1000, 1) = some (n, off, slots) from h)
    decide

theorem witness_foreman :
    (¬((State.reset.gang 0).core0 ≠ none ∧ (State.reset.crew? 0).isSome = true)) ∧ (demo.crew 0).switched = false ∧
    (∀ u, (demo.crew 0).slots.getD 0 none = some u → u.foreman = false) ∧
    (∃ g, demoSlice.grids.get? 0 = some g ∧ g.st = .running) ∧ (demoSlice.gangs.map Prod.fst).Nodup ∧
    ((demoThr fun _ t => { t with st := .waiting 3 }).crew? 0).isSome = true ∧
    (((demoThr fun _ t => { t with st := .waiting 3 }).crew 0).th 31).st = .waiting 3 ∧ (demo.gang 0).saved = none ∧ (0x1002 : Pc).toNat % 4 ≠ 0 ∧
    demo.tables = [] ∧ demoStore.tables ≠ [] :=
  ⟨by decide, rfl, by decide, ⟨_, rfl, rfl⟩, by decide, rfl, rfl, rfl, by decide, rfl, by decide⟩

/-- A write to a page of kind CODE that waits for Foreman. -/
def demoCodeTrap : State :=
  { (demoPage (2 ^ 53 + 0x60)) with crews := (demoParked 0x08).crews }

theorem witness_createVersion :
    ((demoCodeTrap.crew 0).slots.getD 0 none).map (fun u => (u.foreman, u.cause)) = some (true, 0x08) ∧
    demoCodeTrap.version 0 (demoCodeTrap.crew 0).cver = some (0x24001, 1) ∧
    (∃ l, walk demoCodeTrap 0 0x4000 = .ok l ∧ l.pte.getLsbD 53 = true ∧
      pteAddr l.pte + (0x4000 : Word).toNat % 2 ^ pageShift l.level = leafPa l 0x4000 false) ∧ Memory.wf demoCodeTrap.mem = true :=
  ⟨by decide, rfl, ⟨⟨0x20000000020063, 0x1C008, 3⟩, rfl, by decide⟩, by decide⟩

theorem witness_parked : ParkedWith (demoParked 0x11) 0 0 0x11 ∧ ((demoParked 0x11).crews.map Prod.fst).Nodup :=
  ⟨⟨by decide, _, List.mem_cons_self, _, rfl, rfl, rfl⟩, by decide⟩

theorem witness_words : decodeWord 0xFFFFFFFF = .error .illegal ∧ decodeWord 0x00000001 = .error .resbits ∧ decodeLoose 0x00000001 = some .nop ∧
    demo.cur = .frag 0 fullMask 0x1000 ∧ (demo.crew? 0).isSome = true := ⟨rfl, rfl, rfl, rfl, rfl⟩

/-- A load that has not finished in lane 31. -/
def demoUnfinished : State := demoPad.modCrew 0 fun c => { c with infl := [⟨fullMask, 0x1000, 0x8400080B, 0, 0x80000000, 0, 0, 0, 0,
  allLanes 0xFFFFFFFFFF000FF0, allLanes 0, allLanes 0, [], none, 0⟩] }

theorem witness_unfinished :
    decodeWord 0x8400080B = .ok (.ld 0 0 1 1 3) ∧ (∃ e, (demoUnfinished.crew 0).infl = [e] ∧ e.word = 0x8400080B ∧
      e.take &&& e.frag &&& ~~~e.done &&& ~~~(demoUnfinished.crew 0).exited = 0x80000000 ∧
      ∀ l, e.op0.at l + (1 : BitVec 8).signExtend 64 * 8 = 0xFFFFFFFFFF000FF8) ∧ InScratch demoUnfinished 0 8 0xFFFFFFFFFF000FF8 := by
  refine ⟨rfl, ⟨_, rfl, rfl, by decide, by decide⟩, ?_⟩
  simp only [InScratch]
  decide

theorem witness_struck :
    demo.gangs.get? 0 ≠ none ∧ ((demoShared.core 0).l1.get? 5).isSome = true ∧ ((demoShared.die 0).l2.get? 5).isSome = true ∧
    (demoOverlays.core 0).ovls[0]?.isSome = true ∧ 0 < ((demoFifo.gang 0).fifos.getD 0 []).length ∧ (demo.crew? 0).isSome = true ∧
    ((demoStore.die 0).fst.get? 0).isSome = true ∧ (demo.die 0).alive = true ∧ (demo.gangs.map Prod.fst).Nodup ∧
    (∀ y ∈ demoSlice.gangs, ∀ c, y.2.core0 = some c → c / 32 = 0 → ∃ g, demoSlice.grids.get? y.2.grid = some g ∧ (g.st = .placing ∨ g.st = .running)) := by
  refine ⟨by decide, rfl, rfl, rfl, by decide, rfl, rfl, rfl, by decide, fun y hy c _ _ => ?_⟩
  rw [List.mem_singleton.1 (show y ∈ [(0, loadedGang)] from hy)]
  exact ⟨_, rfl, .inr rfl⟩

/-- A sound flit of a kind whose data make its check field 0. -/
def demoFlit (kind : Byte) (check : List Byte) : List Byte := [0, 0, 0, 0, 0, 0, 0, kind] ++ check ++ List.replicate 240 0

theorem crc64_zeros {xs : List Byte} (h : crc64 xs = 0) (n : Nat) : crc64 (xs ++ List.replicate n 0) = 0 := by
  unfold crc64 at h ⊢
  rw [List.foldl_append, h]
  induction n with
  | zero => rfl
  | succ n ih =>
    rw [List.replicate_succ, List.foldl_cons]
    exact ih

theorem demoFlit_sound {kind : Byte} {check : List Byte} (hl : check.length = 8) (h : crc64 ([0, 0, 0, 0, 0, 0, 0, kind] ++ check) = 0) :
    (demoFlit kind check).length = 256 ∧ (crc64 ((demoFlit kind check).take 248)).toNat = ofBytes ((demoFlit kind check).drop 248) := by
  have hk : ([0, 0, 0, 0, 0, 0, 0, kind] ++ check : List Byte).length = 16 := by rw [List.length_append, hl]; rfl
  unfold demoFlit
  refine ⟨by rw [List.length_append, hk]; rfl, ?_⟩
  rw [List.take_append, List.drop_append, List.take_of_length_le (by omega), List.drop_of_length_le (by omega), hk, List.take_replicate,
    crc64_zeros h]
  decide

theorem witness_flits :
    ((demoFlit 0x10 [0x66, 0x3D, 0x78, 0xFF, 0x90, 0xE1, 0x85, 0xEF]).length = 256 ∧
      (crc64 ((demoFlit 0x10 [0x66, 0x3D, 0x78, 0xFF, 0x90, 0xE1, 0x85, 0xEF]).take 248)).toNat =
        ofBytes ((demoFlit 0x10 [0x66, 0x3D, 0x78, 0xFF, 0x90, 0xE1, 0x85, 0xEF]).drop 248)) ∧
    crc64 ([0, 0, 0, 0, 0, 0, 0, 0] ++ List.replicate 8 0) = 0 ∧ crc64 ([0, 0, 0, 0, 0, 0, 0, 0x20] ++ [0xCC, 0x7A, 0xF1, 0xFF, 0x21, 0xC3, 0x0B, 0xDE]) = 0 ∧
    ¬([0] : List Byte).length = 256 :=
  ⟨demoFlit_sound rfl (by decide), by decide, by decide, by decide⟩

/-- Ports 0 to 2: working with a flit not acknowledged, working, and one that failed to retrain twice. -/
def demoPorts : State :=
  let u := { Umnor.reset with enabled := true, lanes := 16, rate := 2125 }
  { State.reset with
    umnor := ((State.reset.umnor.set 0 { u with unacked := [(0, List.replicate 240 1)], nextSeq := 1, replays := 15 }).set 1 u).set 2
      { u with retrains := 2 }
    groups := (State.reset.groups.set 0 (3#64 <<< 62)).set 1 (1#64 <<< 63)
    windows := State.reset.windows.set 0 ⟨true, 1, 0, 0, 1, 0, 0x100000, 0, 0⟩ }

theorem witness_ports :
    ((demoPorts.port 0).enabled = true ∧ (demoPorts.port 0).peerDead = false ∧ (demoPorts.port 0).unacked ≠ [] ∧ (demoPorts.port 1).unacked = [] ∧
      (demoPorts.port 3).enabled = false ∧ (demoPorts.port 1).retrains < 2 ∧ 2 ≤ (demoPorts.port 2).retrains) ∧
    ((demoPorts.port 1).stopSeen = false ∧ (demoPorts.port 1).retraining = false ∧ (demoPorts.port 1).unacked.length + (demoPorts.port 1).sendq.length ≤ 1024) ∧
    (demoPorts.windows.map Prod.fst).Nodup := by decide

/-- One contribution of rank 0 to a block of group 0, tag 1. -/
def demoPart : Contribution := ⟨none, 0, 1, 0, 0, 8, 0, 0, List.replicate 8 0, [false]⟩

theorem witness_contributions :
    ((demoPorts.group 0).getLsbD 63 = true ∧ (demoPorts.group 0).getLsbD 62 = true ∧ (demoPorts.group 0).extractLsb' 40 6 = 0#6 ∧
      (byRank [demoPart]).length = 0 + 1) ∧
    ((demoPorts.group 1).getLsbD 63 = true ∧ (demoPorts.group 1).getLsbD 62 = false) ∧ (demoPorts.group 2).getLsbD 63 = false ∧
    demoPorts.credBytes 0 + demoPart.len.toNat ≤ 8 * 2 ^ 20 ∧
    ({ demoPorts with blocks := [⟨0, 1, [{ demoPart with op := 1 }]⟩] }.blocks.find? fun (b : RedBlock) => b.group == 0 && b.tag == 1) =
      some ⟨0, 1, [{ demoPart with op := 1 }]⟩ := by decide

/-- A contribution of this module's own that waits for its result. -/
def demoCred : State := demoPad.modCore 0 fun c => { c with porter := { c.porter with
  copies := [⟨3, 0, .reduce 0xFFFFFFFFFF000000 0xFFFFFFFFFF000080 1 0 8 0 0, false, 0, 1, none⟩] } }

theorem witness_credResult :
    (∃ y, demoCred.credCopy 0 1 = some (0, y) ∧ y.kind = .reduce 0xFFFFFFFFFF000000 0xFFFFFFFFFF000080 1 0 8 0 0) ∧
    demoCred.credCopy 0 2 = none ∧
    (∃ u, writeResult (demoCred.porterWho 0 0) demoCred 0xFFFFFFFFFF000000 (List.replicate 8 1) [false] = (8, none, u)) ∧
    ∃ f u, writeResult (demoCred.porterWho 0 0) demoCred 0x4000 (List.replicate 8 1) [false] = (0, some f, u) :=
  ⟨⟨_, rfl, rfl⟩, rfl, ⟨_, rfl⟩, ⟨_, _, rfl⟩⟩

theorem witness_boot :
    ({ State.reset with boot := { Boot.reset with powered := true } }.ether).contains true = true ∧
    ({ State.reset with boot := { Boot.reset with accepted := true } }.boot.accepted) = true ∧ State.reset.boot.accepted = false ∧
    (State.reset.powerOf 0).stopped = none ∧
    ({ State.reset with power := State.reset.power.set 0 { PowerBlock.reset with stopped := some 3 } }.powerOf 0).stopped = some 3 := by decide

theorem witness_canonical : Canonical State.reset ∧ ∃ t, Machine.step State.reset = .next t := by
  refine ⟨?_, _, rfl⟩
  simp only [Canonical]
  decide

/-! ## Witnesses: further clauses, in the order of the statements -/

theorem witness_fetch_lost : let s := State.reset.loadCrew 0x07A8DC43
    ∀ l, inMask fullMask l = true → ((s.crew 0).th l).lost = none := by decide

theorem witness_rowTags : (demo.crew 0).TagsFit ∧ Untrapped demo 0 fullMask ∧ Issues (.iadd 0 39 0 63 0) demo 0 fullMask 0x1000 ∧
    (39 : BitVec 6) < 40 ∧ (∀ a ∈ (Instr.iadd 0 39 0 63 0).srcs, a < 40 ∨ 48 ≤ a) ∧
    taking (.iadd 0 39 0 63 0) demo 0 fullMask = fullMask ∧ taking (.iadd 1 39 0 63 0) demo 0 fullMask = 0 ∧
    ((demo.crew 0).pred 0 = fullMask ∧ (demo.crew 0).tagAt 63 = .u) :=
  ⟨witness_tags, fun l _ => by revert l; decide, issues_of (by decide), by decide, by decide, by decide, by decide, by decide⟩

/-- The core of the crew, its clock stopped at time 3. -/
def demoStopped : State := { demoCode with power := demoCode.power.set 0 { PowerBlock.reset with stopped := some 3 } }

theorem witness_unclocked : demoStopped.clocked 0 = false ∧ (demoStopped.crew? 0).isSome = true ∧ (demoStopped.crew 0).core = 0 ∧
    demo.clocked 0 = true ∧ demoStopped.gangs.get? 0 = some loadedGang ∧ 0 ∈ loadedGang.coreList ∧
    ∀ n ∈ loadedGang.coreList, demoCode.clocked n = true := by decide

theorem witness_goes : demoEngine.clocked 0 = true ∧ (demoEngine.gang 0).leaving = false := ⟨rfl, rfl⟩

/-- The operands of that card's first tile are read, its rows fit, and its accumulator space is in canonical form. -/
def demoRows : Bool :=
  let c := cardOf demoNear
  let env : OpEnv := { who := demoEngine.jobWho 0 (demoJob 1 .running), cb := [], k := c.k }
  let off (f : Level → Int) : Word := BitVec.ofInt 64 (c.offset f 0)
  let as := ((c.rows 0).mapM fun n => c.a.rowPart env (off Level.a) 0 (min c.k (0 + c.kc)) n) demoEngine
  let bs := ((c.cols 0).mapM fun n => c.b.rowPart env (off Level.b) 0 (min c.k (0 + c.kc)) n) as.2
  as.1.toOption.isSome && bs.1.toOption.isSome && decide (c.n ≤ c.ld) && Memory.wf (bs.2.gang 0).acc

theorem witness_chunkRows : demoRows = true := by decide +kernel

theorem witness_epilogueReads :
    (cardOf demoNear).e.scl = 0 ∧ (cardOf demoNear).e.bias = 0 ∧ (cardOf demoNear).e.act = 0 ∧
    ((rdBytes (demoEngine.jobWho 0 (demoJob 1 .epilogue)) .plain 0xFFFFFFFFFF000400 4 demoEngine).1.toOption.isSome = true) ∧
    Machine.Num.below (.fin true 1 0) (.fin false 0 0) ∧ Machine.Num.below (.fin false 0 0) (.fin false 1 0) := by
  refine ⟨rfl, rfl, rfl, by decide, ?_, ?_⟩ <;> (unfold Machine.Num.below; decide)

/-- That card with its output in `ofmt`, not stored through a shadow. -/
def demoOut (ofmt : Nat) : Card := { cardOf demoNear with e := { (cardOf demoNear).e with ofmt := ofmt } }

/-- Does a value of the card's first tile, from these staged bytes, poison it? None when its values are not read. -/
def demoTile (ofmt : Nat) (bytes : List Byte) : Option Bool :=
  let c := demoOut ofmt
  let w := demoEngine.jobWho 0 (demoJob 1 .epilogue)
  let at_ := c.outRows (0 / c.tn) (0 % c.tn)
  match c.tileBad w (bytes, []) 0 demoEngine with
  | (.ok false, s) =>
    match (at_.1.mapM fun o => at_.2.mapM fun i => c.outValue w bytes o i) s with
    | (.ok vals, _) => some ((vals.map fun row => row.map fun v => convertOut ofmt (BitVec.ofNat 3 c.e.orm) v.1).any fun row => row.any Prod.snd)
    | _ => none
  | _ => none

/-- Zeros in FP64, and a NaN first in E3M2, which has none (R107). -/
theorem witness_tiles : demoTile 0 (List.replicate 2048 0) = some false ∧
    demoTile 7 ([0, 0, 0xC0, 0x7F] ++ List.replicate 2044 0) = some true ∧
    ((demoOut 0).outRows 0 0).2 ≠ [] ∧ (demoOut 7).e.ofmt ≠ fE2M1 ∧ (demoOut 7).e.ofmt ≤ 0x10 := by
  refine ⟨by decide +kernel, by decide +kernel, by decide, by decide, by decide⟩

theorem witness_tileStores :
    let j := { demoJob 1 .epilogue with card := demoNear, staging := some (List.replicate 2048 0, []) }
    let r := (cardOf j.card).tileStores (demoEngine.jobWho 0 j) (List.replicate 2048 0, []) j.destOff 0 demoEngine
    r.1.toOption.isSome = true ∧ (∀ x, r.1.toOption = some x → r.2.tileHeld j x.1 = false) ∧ 0 < (cardOf j.card).tm * (cardOf j.card).tn ∧
    0 ∉ j.stored ∧ 0 ∉ j.tried := by
  refine ⟨by decide +kernel, fun x _ => rfl, by decide, by decide, by decide⟩

/-- Line 5 in the first levels of cores 1 and 0, in this order in their die's list; core 2 had it and has its last pointers. -/
def demoPair : State :=
  let e (nx pv : Option Nat) : L1Line := ⟨0, 0, 0, false, 0, 0, 0, 0, false, false, nx, pv, false⟩
  let s := (demo.modCore 0 fun c => { c with l1 := [(5, e none (some 1))] }).modCore 1 fun c => { c with l1 := [(5, e (some 0) none)] }
  let s := s.modCore 2 fun c => { c with gone := [(5, (some 0, some 1))] }
  s.modDie 0 fun x => { x with l2 := [(5, ⟨0, 0, false, 0, 0, 0, false, false, none, none, false, some 1⟩)] }

theorem witness_lists :
    demoPair.memberLinks 5 (.core 0) = some (none, some 1, false) ∧ demoPair.memberLinks 5 (.core 1) = some (some 0, none, false) ∧
    demoPair.listHead 5 (.core 2) = some 1 ∧ demoPair.memberLinks 5 (.core 2) = none ∧ demoPair.lastPtrs 5 (.core 2) = (some 0, some 1) ∧
    ((demoPair.core 2).l1.get? 5).isNone = true ∧ ((demoPair.core 2).l1.filter fun p => p.1 % 128 = 5 % 128).length < demoPair.waysOf 2 ∧
    demoPair.fabric = [] ∧ (demoPair.die 0).alive = true ∧
    ((demoShared.die 0).l2.get? 5).bind (fun e => e.head) = some 0 ∧ (demoShared.memberLinks 5 (.die 0)).isSome = true ∧
    ((demo.modDie 0 fun x => { x with alive := false }).die 0).alive = false := by
  refine ⟨rfl, rfl, rfl, rfl, rfl, rfl, by decide, rfl, rfl, rfl, rfl, rfl⟩

/-- The grid's only cluster waits in its save area. -/
def demoWaits : State := { demoSaved with grids := State.reset.grids.set 0 { demoGrid .running with
  lpb := { lpbOf demoBlock with mode := 1 }, clusters := [⟨0, [0], 0, 0, false, false⟩] } }

theorem witness_resumesCluster :
    (∃ g, demoWaits.served = some (0, g) ∧ demoWaits.grids.get? 0 = some g ∧ g.st = .running ∧
      demoWaits.waitingClusters g = [⟨0, [0], 0, 0, false, false⟩] ∧
      (demoWaits.resumeCluster 0 g.lpb ⟨0, [0], 0, 0, false, false⟩).isSome = true) ∧ demoWaits.boot.accepted = true :=
  ⟨⟨_, rfl, rfl, rfl, rfl, by decide +kernel⟩, rfl⟩

/-- The grid at the end of its slice, beside one of its priority that is being placed. -/
def demoSliced : State := { demoSlice with grids := demoSlice.grids.set 1 (demoGrid .placing) }

theorem witness_placedSlice : ∃ g y, demoSliced.grids.get? 0 = some g ∧ g.sliceOver demoSliced.time = true ∧ demoSliced.clustersWait 0 = false ∧
    demoSliced.served = some (1, y) ∧ y.lpb.pri ≤ g.lpb.pri :=
  ⟨_, _, rfl, rfl, rfl, rfl, by decide⟩

theorem witness_saves :
    (loadedGang.ncore ≤ 4 ∧ loadedGang.ncrew ≤ 256 ∧ loadedGang.hdr.acc < 2 ^ 16 ∧ loadedGang.hdr.scratch ≤ 2 ^ 24 ∧
      Memory.wf loadedGang.scratch = true ∧ Memory.wf loadedGang.acc = true ∧ ∀ p ∈ demo.crewsOf 0, p.2.infl.length ≤ 8) ∧
    (demoSaved.crewsOf 0)[0]? = some (0, demoSaved.crew 0) ∧ (demoSaved.crew 0).TagsFit := by
  exact ⟨by decide, rfl, fits_of_reset rfl rfl rfl rfl rfl⟩

theorem witness_resumesCrews :
    let w (off len : Nat) : Nat := readNat demoSaved.mem (loadedGang.areaPa + off) len
    let at_ : Nat := recordAt demoSaved.mem loadedGang.areaPa (w 0x24 4) 0
    (w 0x20 4 + (demoSaved.gang 0).hdr.scratch ≤ w 0x3C 4 ∧ w 0xC 4 = (demoSaved.gang 0).hdr.scratch ∧ w 0x2C 4 + w 0 2 * 1024 ≤ w 0x3C 4) ∧
    (demoSaved.crews.map Prod.fst).Nodup ∧ (demoSaved.crewsOf 0).length = 1 ∧ w (at_ + 8) 4 ≠ 2 ^ 32 - 1 ∧ w (at_ + 0xC) 4 = 0 ∧
    w (at_ + 0x1A) 1 = 0 ∧ w (at_ + 0x2E0) 4 = 0 ∧ ∀ b : Fin 16, w (at_ + 0x300 + 4 * b.val) 4 = 0 := by
  decide +kernel

theorem witness_withdraws : let s := demoThr fun _ t => { t with st := .waiting 3 }
    (∀ p, some (0x1004 : Pc) = some p → p.toNat % 4 = 0) ∧ ((s.crew 0).th 31).st = .waiting 3 ∧ ∀ k, (s.crew 0).returnReady k = false := by
  refine ⟨?_, rfl, fun k => ?_⟩
  · rintro _ ⟨⟩; rfl
  · rcases k with _ | _ | _ | _ | k <;> rfl

theorem witness_closed :
    (∃ e, (demoUnfinished.crew 0).infl = [e] ∧ e.lost = 0 ∧ ¬(e.frag &&& (demoUnfinished.crew 0).live = 0)) ∧
    demoUnfinished.clocked (demoUnfinished.crew 0).core = true ∧ (demoUnfinished.crew? 0).isSome = true := by
  refine ⟨⟨_, rfl, rfl, by decide⟩, rfl, rfl⟩

/-- Those ports with an accepted image: port 3 is to be trained, port 4 is in training and has heard its peer, port 5 knows a younger peer. -/
def demoTraining : State :=
  let u := { Umnor.reset with retraining := true }
  { demoPorts with
    boot := { Boot.reset with powered := true, accepted := true }
    umnor := ((demoPorts.umnor.set 3 u).set 4 { u with heard := true }).set 6 { Umnor.reset with peerInc := 1 }
    incarnations := [(13, 1)] }

theorem witness_training :
    (demoTraining.boot.powered = true ∧ demoTraining.boot.accepted = true ∧ ¬(demoPorts.boot.accepted = true)) ∧
    ((demoTraining.port 3).retraining = true ∧ (demoTraining.port 3).heard = false ∧ (demoTraining.port 3).retrains < 2) ∧
    ((demoTraining.port 4).retraining = true ∧ (demoTraining.port 4).heard = true ∧ (demoTraining.port 1).retraining = false) ∧
    (let r := negOf (List.replicate 240 0)
     ((demoTraining.port 5).peerSerial = r.serial ∧ demoTraining.incarnations.getD 13 0 ≠ r.incarnation ∧
       (demoTraining.incarnations.getD 13 0 - r.incarnation).msb = false) ∧
     (demoTraining.incarnations.getD 12 0 = r.incarnation ∧ (demoTraining.port 4).peerSerial = r.serial ∧ (demoTraining.port 4).peerInc = r.incarnation) ∧
     (demoTraining.port 6).peerSerial = r.serial ∧ (demoTraining.port 6).peerInc ≠ r.incarnation) ∧ State.reset.groups = [] := by decide

theorem witness_cxlPartner :
    (let c : CxlPartner := ⟨true, [128], 16⟩
     c.flit256 = true ∧ 128 ∈ c.rates ∧ 16 ≤ c.width) ∧ (⟨false, [], 0⟩ : CxlPartner).flit256 = false := by decide

/-- Group 1 disabled by a death, a contribution that waits for room, and one of an older incarnation of port 2. -/
def demoOff : State := { demoPorts with redOff := [1], redHeld := [demoPart], incarnations := [(10, 1)] }

theorem witness_off :
    (demoOff.redOff.contains 1 = true ∧ 0 ∉ demoOff.redOff) ∧ (demoOff.redHeld = [demoPart] ∧ demoOff.credBytes 0 + demoPart.len.toNat ≤ 8 * 2 ^ 20) ∧
    (let c := { demoPart with port := some 2 }
     demoOff.incarnations.getD (8 + c.port.getD 0) 0 ≠ c.incarnation ∧ (demoOff.incarnations.getD (8 + c.port.getD 0) 0 - c.incarnation).msb = false) ∧
    (let b : RedBlock := ⟨0, 2, [{ demoPart with len := 0x800000 }]⟩
     ¬({ demoPorts with blocks := [b] }.credBytes 0 + demoPart.len.toNat ≤ 8 * 2 ^ 20)) ∧
    ((0 : BitVec 6) = (demoCred.group 0).extractLsb' 46 6 ∧ (1 : BitVec 6) ≠ (demoCred.group 0).extractLsb' 46 6) := by decide

/-- The threads of the crew with 4096 bytes of scratchpad, with `n` resident entries of `dep`, their spill region at `tlsb`. -/
def demoStacks (n dep : Nat) (tlsb : Word) : State :=
  demoPad.modCrew 0 fun c => c.updThr fullMask fun _ t => { t with rstk := List.replicate n 0x1000, rsdep := dep, tlsb := tlsb }

theorem witness_spills :
    (∀ n ∈ [15, 16], PushRoom (demoStacks n 16 0xFFFFFFFFFF000000) 0 fullMask) ∧
    (let full := maskOf fun l => inMask fullMask l && decide ((((demoStacks 16 4112 0).crew 0).th l).rsdep = 4112)
     full ≠ 0 ∧ PushRoom (demoStacks 16 4112 0) 0 (fullMask &&& ~~~full)) ∧
    (let s := demoStacks 16 16 0xFFFFFFFFFF000001
     let odd := maskOf fun l => inMask fullMask l && decide (((s.crew 0).th l).rsdep < 4112 ∧ ((s.crew 0).th l).rstk.length = 16 ∧
       (spillAt ((s.crew 0).th l) ((((s.crew 0).th l).rsdep - 16) / 8) 0).toNat % 8 ≠ 0)
     odd ≠ 0 ∧ PushRoom s 0 (fullMask &&& ~~~odd)) := by
  refine ⟨?_, ⟨by decide, fun l h => absurd h (by revert l; decide)⟩, ⟨by decide, fun l h => absurd h (by revert l; decide)⟩⟩
  simp only [PushRoom, InScratch]
  decide

theorem witness_refills :
    (let s := demoStacks 1 9 0xFFFFFFFFFF000000
     MayPop s 0 ((s.crew 0).th 31)) ∧
    (let s := demoStacks 1 9 0xFFFFFFFFFF000001
     ∀ l, ((s.crew 0).th l).rstk.length = 1 ∧ 1 < ((s.crew 0).th l).rsdep ∧ (spillAt ((s.crew 0).th l) ((((s.crew 0).th l).rsdep - 1) / 8 - 1) 0).toNat % 8 ≠ 0) := by
  refine ⟨⟨by decide, .inr (.inr ⟨by decide, ?_⟩), by decide, by decide, by decide, fun off slots h => ?_⟩, by decide⟩
  · simp only [InScratch]
    decide
  · cases (show some (0x1000, 1) = some (off, slots) from h)
    rfl

theorem witness_staysOpen : let s := { demoPad with memLate := true }
    ∀ i ∈ [Instr.ld 1 0 1 0 0, .ldp 1 0 1 0 7, .ldacq 1 0 1 0 3, .atom 1 0 1 2 9 0, .cas 0 1 2 4 0, .evwait 1 1 2], Issues i s 0 fullMask 0x1000 :=
  issues_all (by decide)

/-- The unfinished load of lane 31 at `va`. -/
def demoLater (va : Word) : State := demoPad.modCrew 0 fun c => { c with infl := [⟨fullMask, 0x1000, 0x8400080B, 0, 0x80000000, 0, 0, 0, 0,
  allLanes va, allLanes 0, allLanes 0, [], none, 0⟩] }

theorem witness_laterLane : ∀ va ∈ [(5 : Word), 0xFFFFFFFFFF000FF0], ∃ e, ((demoLater va).crew 0).infl = [e] ∧ e.word = 0x8400080B ∧
    e.frag &&& ((demoLater va).crew 0).live ≠ 0 ∧ e.lost = 0 ∧
    e.take &&& e.frag &&& ~~~e.done &&& ~~~((demoLater va).crew 0).exited = 1#32 <<< (31 : Lane).val ∧
    (demoLater va).clocked ((demoLater va).crew 0).core = true := by
  intro va h
  rcases List.mem_cons.1 h with rfl | h
  · exact ⟨_, rfl, rfl, by decide, rfl, by decide, rfl⟩
  · rw [List.mem_singleton.1 h]
    exact ⟨_, rfl, rfl, by decide, rfl, by decide, rfl⟩

theorem witness_laterEnds :
    (loadLane (offsetAddr 0xFFFFFFFFFF000FF0 1 3) 3 0 31 (demoLater 0xFFFFFFFFFF000FF0)).1 = .done 0 0 ∧
    (loadLane (offsetAddr 5 1 3) 3 0 31 (demoLater 5)).1 = .failed ⟨7, 13⟩ := by decide

/-- The core with sixteen jobs that have not ended. -/
def demoFull : State := demoEngine.modCore 0 fun c => { c with jobs := (List.range 16).map fun n => demoJob (BitVec.ofNat 32 (n + 1)) .queued }

theorem witness_engineFull : 16 ≤ demoFull.engineLoad 0 ∧ Issues (.mma 1 0 4) demoFull 0 fullMask 0x1000 ∧ (demoFull.crew 0).infl = [] ∧
    taking (.mma 1 0 4) demoFull 0 fullMask = 1#32 <<< (31 : Lane).val ∧ (demoFull.crew 0).exited &&& (1#32 <<< (31 : Lane).val) = 0 ∧
    cardBad (readBytes (pad demoFull 0) (scratchAt 0xFFFFFFFFFF000000) 256) (demoFull.hdrOf 0) 1 0 false = false :=
  ⟨by decide, issues_of (by decide), by decide, by decide, by decide, by decide⟩

/-- 1.0 in FP32: the root, the reciprocal root, the power and the logarithm are exact; its negative. -/
theorem witness_functionValues :
    decodeFp fmtS 0x3F800000 = .fin false 0x800000 (-23) ∧ decodeFp fmtS 0xBF800000 = .fin true 0x800000 (-23) ∧
    ((-23 : Int) = 2 * (-32) + (41 : Nat)) ∧ ((2 ^ 32) ^ 2 ≤ 0x800000 * 2 ^ 41 ∧ 0x800000 * 2 ^ 41 < (2 ^ 32 + 1) ^ 2) ∧
    ((2 ^ 32) ^ 2 * (0x800000 * 2 ^ 41) ≤ 4 ^ 64 ∧ 4 ^ 64 < (2 ^ 32 + 1) ^ 2 * (0x800000 * 2 ^ 41)) ∧ 2 ^ (fmtS.m + 4) ≤ 2 ^ 32 ∧
    1 * 2 ^ (-(-23 : Int)).toNat = 0x800000 * 2 ^ (-23 : Int).toNat ∧ 0x800000 = 2 ^ 23 := by decide

theorem witness_published : let s := demoCode.systemRelease (demoCode.crew 0).core
    (s.devicePa 0 (s.asidEntry 0).cvtab).isSome = true := by decide

theorem witness_porterWords : decodeWord 0xE4000403 = .error .resbits ∧ (decodeLoose 0xE4000403).any Instr.isPorter = true ∧
    decodeWord 0xFFFFFFFF = .error .illegal ∧ (demoPorter []).cur = .porter 0 ∧ ((demoPorter []).core 0).porter.gang = some 0 :=
  ⟨rfl, rfl, rfl, rfl, rfl⟩
theorem witness_tries : let s := { State.reset with boot := { Boot.reset with powered := true } }
    s.boot.accepted = false ∧ true ∈ s.ether ∧ s.boot.attempts < 8 * s.boot.servers := by decide

/-! ## One step at a time: expected values by hand from the rules -/

/-- IADD wraps per sub-element (R16, R138): 0xFFFFFFFF + 2 in the low word leaves the high one alone. -/
theorem test_iadd_wraps : after (exec (.iadd 0 4 1 2 1) (demoRegs [(1, 0x00000005FFFFFFFF), (2, 2)])) 4 7 = some 0x0000000500000001 := by decide

/-- SSUB stops at the least signed value (R138). -/
theorem test_ssub_saturates : after (exec (.ssub 0 4 1 2 3) (demoRegs [(1, 0x80), (2, 1)])) 4 0 = some 0x80 := by decide

/-- A source that is also the destination is read before it is written. -/
theorem test_isub_same : after (exec (.isub 0 1 1 1 3) (demoRegs [(1, 5)])) 1 31 = some 0 := by decide

/-- IMULH gives the high half of the signed product (R139): (−1) · 1 has high half −1. -/
theorem test_imulh_signed : after (exec (.imulhX 0 4 1 2) (demoRegs [(1, 0xFFFFFFFFFFFFFFFF), (2, 1)])) 4 0 = some 0xFFFFFFFFFFFFFFFF := by decide

/-- A branch of −1 words goes back to itself (R155). -/
theorem test_bra_self : (threadAfter (exec (.bra 0 (-1)) demo) 3).map (·.pc) = some 0x1000 := by decide

/-- CALL pushes the next word (R30). -/
theorem test_call_pushes : (threadAfter (exec (.call 0 1) demo) 3).map (fun t => (t.pc, t.rsdep, t.rstk.map fun e => e.extractLsb' 2 30)) =
    some (0x1008, 1, [0x401]) := by decide

/-- A privileged instruction of a USER thread raises SUPERONLY (R87), and reads its register in SUPER (R277). -/
theorem test_rdsys_user : causeAfter (exec (.rdsys 0 4 0) demo) = some 0x15 := by decide

theorem test_rdsys_super : after (exec (.rdsys 0 4 1) { demoSuper with asids := demo.asids.set 0 { AsidEntry.reset with tvec := 0x1000 } }) 4 0 =
    some 0x1000 := by decide

/-- TRAP raises SWTRAP (R277). -/
theorem test_trap_swtrap : causeAfter (exec (.trap 0 5) demo) = some 0x13 := by decide

/-- RND with code 6 is ILLEGAL (R83); an invalid latch raises LATCH (R23). -/
theorem test_rnd_illegal : causeAfter (exec (.rnd 6) demo) = some 0x01 := by decide

theorem test_latch_invalid : causeAfter (exec (.iadd 0 4 48 1 3) demo) = some 0x06 := by decide

set_option exponentiation.threshold 2048 in
/-- FADD.D: 1.0 + 2.0 = 3.0 (R165). -/
theorem test_fadd : after (exec (.fadd 0 4 1 2 7 0) (demoRegs [(1, 0x3FF0000000000000), (2, 0x4000000000000000)])) 4 0 = some 0x4008000000000000 := by
  decide

/-- FDIV.D of 1.0 by +0 gives +∞ and flags DZ (R163, R165). -/
theorem test_fdiv_zero : (threadAfter (exec (.fdiv 0 4 1 2 0 0) (demoRegs [(1, 0x3FF0000000000000)])) 0).map (·.fstat) = some 0x40 := by decide

/-- ICMP.LT.X signed: −1 < 0; P1 takes it and P2 its complement (R145). -/
theorem test_icmp_signed : (match exec (.icmp 0 1 2 1 2 2 0) (demoRegs [(1, 0xFFFFFFFFFFFFFFFF)]) with
    | .next t => some ((t.crew 0).pred 1, (t.crew 0).pred 2)
    | _ => none) = some (fullMask, 0) := by decide

/-- ST and LD are little-endian (R5, R182): the low byte of a stored word lies lowest. -/
theorem test_st_order : (match exec (.st 1 3 1 0 2) demoPad with
    | .next t => some (readByte (t.gang 0).scratch 0xFF0)
    | _ => none) = some 5 := by decide

theorem test_ld_misaligned : causeAfter (exec (.ld 0 4 3 0 3) demoPad) = some 0x07 := by decide

/-- ATOM.ADD in ascending lane order (R187): lane 2 reads what lanes 0 and 1 left. -/
theorem test_atom_order : after (exec (.atom 0 4 1 3 0 0) demoPad) 4 2 = some 10 := by decide

/-- ACCZ of a misaligned length raises ALIGN (R229). -/
theorem test_accz_align : causeAfter (exec (.accz 0 0 3) demoEngine) = some 0x07 := by decide

/-- FIFOW to a slot that is no FIFO raises BANKMODE (R204). -/
theorem test_fifow_bankmode : causeAfter (exec (.fifow 0 4 1 1) demoFifo) = some 0x14 := by decide

/-- A function-store instruction on a table that is not bound raises FSTBAD (R239). -/
theorem test_fclr_unbound : causeAfter (exec (.fclr 0 31) demoStore) = some 0x0F := by decide

/-- PRUN outside the stream answers 2 (R265). -/
theorem test_prun_outside : after (exec (.prun 0 4 3 1) demoSems) 4 0 = some 2 := by decide

/-- EXIT of every lane frees the crew (R158). -/
theorem test_exit_frees : (match exec (.exit 0) demo with
    | .next t => (t.crew? 0).isNone
    | _ => false) = true := by decide

/-- The next step runs the word that is placed: NOP goes to the next word. -/
theorem test_placed_nop : (match Machine.step (State.reset.withFetchWord 32 0) with
    | .next t => some (((t.crew 0).th 9).pc)
    | _ => none) = some 0x1004 := by decide

end Sys2Proof.Tests
end

section
/-!
SUPPORT. How a floating-point instruction ends: the flags that its taking lanes signal, FPX, and its register or predicate result (R145, R161
to R163).
-/
namespace Sys2Proof.Machine

/-! ## A crew whose file and threads stand still -/

/-- Between `s` and `u` nothing has changed but what every issue counts and consumes in the crew, latches included. -/
def Still (s u : State) (key : Nat) : Prop := ∀ F, Goes s u key F id fun _ t => t

theorem Still.intro {s u : State} {key : Nat} (only : OnlyCrew s u key) (rest : (u.crew key).rest = (s.crew key).rest)
    (file : FileKept s u key) (threads : ∀ l, (u.crew key).th l = (s.crew key).th l) : Still s u key :=
  fun _ => ⟨only, rest, file, fun l _ => threads l, fun l _ => threads l⟩

theorem Still.only {s u : State} {key : Nat} (h : Still s u key) : OnlyCrew s u key := (h 0).only
theorem Still.rest {s u : State} {key : Nat} (h : Still s u key) : (u.crew key).rest = (s.crew key).rest := (h 0).rest
theorem Still.file {s u : State} {key : Nat} (h : Still s u key) : FileKept s u key := (h 0).file
theorem Still.th {s u : State} {key : Nat} (h : Still s u key) (l : Lane) : (u.crew key).th l = (s.crew key).th l :=
  (h 0).away l (inMask_zero l)

theorem Still.reg {s u : State} {key : Nat} (h : Still s u key) (n : Nat) (l : Lane) : (u.crew key).reg n l = (s.crew key).reg n l := by
  obtain ⟨hr, -, hs, -, -⟩ := h.file
  rw [Crew.reg, Crew.reg, Crew.readsShadow, Crew.readsShadow, h.th, hr, hs]

theorem Still.goes {s u t : State} {key : Nat} {F : Mask} {own : Crew → Crew} {next : Lane → Thread → Thread} (h : Still s u key)
    (g : Goes u t key F own next) : Goes s t key F own next := by
  obtain ⟨ho, hr, hf, ht, ha⟩ := g
  obtain ⟨hregs, htags, hshadow, hstags, hpreds⟩ := h.file
  refine ⟨h.only.trans ho, by rw [hr, h.rest], ?_, fun l hl => by rw [ht l hl, h.th], fun l hl => by rw [ha l hl, h.th]⟩
  simpa only [FileKept, hregs, htags, hshadow, hstags, hpreds] using hf

theorem Still.advances {s u t : State} {key : Nat} {F : Mask} {pc : Pc} (h : Still s u key) (g : Advances u t key F pc) :
    Advances s t key F pc :=
  ⟨h.only.trans g.only, by rw [g.rest, h.rest], g.next, fun l hl => by rw [← h.th]; exact g.threads l hl,
    fun l hl => by rw [g.away l hl, h.th]⟩

theorem Still.regsKept {s u t : State} {key : Nat} (h : Still s u key) (g : RegsKept u t key) : RegsKept s t key := by
  obtain ⟨hregs, htags, hshadow, hstags, -⟩ := h.file
  simpa only [RegsKept, hregs, htags, hshadow, hstags, h.th] using g

theorem Still.writesReg {s u t : State} {key : Nat} {F : Mask} {pc : Pc} {d : BitVec 6} {m : Mask} {v : Lane → Word} (h : Still s u key)
    (g : WritesReg u t key F pc d m v) : WritesReg s t key F pc d m v := by
  obtain ⟨-, -, -, -, hp⟩ := h.file
  exact ⟨h.advances g.moves, by rw [PredsKept, g.preds, hp], g.value, fun n l hn hl => by rw [g.other n l hn hl, h.reg],
    fun hd => h.regsKept (g.none hd)⟩

theorem Still.writesPred {s u t : State} {key : Nat} {F : Mask} {pc : Pc} {p q : BitVec 3} {m : Mask} {c : Lane → Bool} (h : Still s u key)
    (g : WritesPred u t key F pc p q m c) : WritesPred s t key F pc p q m c := by
  obtain ⟨-, -, -, -, hp⟩ := h.file
  have hpred : ∀ n, (u.crew key).pred n = (s.crew key).pred n := fun n => by simp only [Crew.pred, hp]
  exact ⟨h.advances g.moves, h.regsKept g.regs, fun n l => by rw [g.value, hpred]⟩

/-! ## Predicate results (R21, R145) -/

theorem Crew.th_setPred (c : Crew) (p : BitVec 3) (m v : Mask) (l : Lane) : (c.setPred p m v).th l = c.th l := by
  unfold Crew.setPred; split <;> rfl

theorem Crew.rest_setPred (c : Crew) (p : BitVec 3) (m v : Mask) : (c.setPred p m v).rest = c.rest := by
  unfold Crew.setPred; split <;> rfl

/-- A predicate write leaves registers, tags and the proposal bank alone. -/
theorem Crew.file_setPred (c : Crew) (p : BitVec 3) (m v : Mask) : (c.setPred p m v).regs = c.regs ∧ (c.setPred p m v).tags = c.tags ∧
    (c.setPred p m v).shadow = c.shadow ∧ (c.setPred p m v).stags = c.stags := by
  unfold Crew.setPred; split <;> exact ⟨rfl, rfl, rfl, rfl⟩

/-- What a predicate reads after a write: the written value in the written lanes, unless it is P0. -/
theorem Crew.inMask_pred_setPred (c : Crew) (p n : BitVec 3) (m v : Mask) (l : Lane) :
    inMask ((c.setPred p m v).pred n) l = if n ≠ 0 ∧ n = p ∧ inMask m l = true then inMask v l else inMask (c.pred n) l := by
  by_cases hp : p = 0
  · have h : ¬(n ≠ 0 ∧ n = p ∧ inMask m l = true) := fun h => h.1 (h.2.1.trans hp)
    rw [if_neg h, Crew.setPred, if_pos hp]
  by_cases hn : n = 0
  · rw [if_neg fun h => h.1 hn, Crew.pred, Crew.pred, if_pos hn, if_pos hn]
  rw [Crew.pred, Crew.pred, if_neg hn, if_neg hn, Crew.setPred, if_neg hp]
  by_cases hnp : n = p
  · subst hnp
    rw [Vector.getElem_set_self]
    by_cases hm : inMask m l = true
    · rw [if_pos ⟨hn, rfl, hm⟩]
      simp [hm]
    · rw [if_neg fun h => hm h.2.2]
      simp [hm]
  · rw [Vector.getElem_set_ne _ _ fun h => hnp (BitVec.eq_of_toNat_eq h.symm), if_neg fun h => hnp h.2.1]

/-- THE END OF AN INSTRUCTION WITH A PREDICATE RESULT: PD is the result and PC its complement in the taking lanes, and nothing else changes. -/
theorem finishPred_writes (s : State) (x : Ctx) (p q : BitVec 3) (v : Mask) :
    WritesPred s (s.finishPred x p q v) x.key x.F x.pc p q x.take (inMask v) := by
  have hcr : (s.finishPred x p q v).crew x.key = (((s.crew x.key).setPred p x.take v).setPred q x.take (~~~v)).retire
      ((s.setCrew x.key (((s.crew x.key).setPred p x.take v).setPred q x.take (~~~v))).hdrOf x.key) x [] false fun _ => .next := by
    simp [State.finishPred, State.finish, State.retire, State.modCrew]
  obtain ⟨hregs, htags, hshadow, hstags⟩ := Crew.file_setPred (s.crew x.key) p x.take v
  obtain ⟨hregs', htags', hshadow', hstags'⟩ := Crew.file_setPred ((s.crew x.key).setPred p x.take v) q x.take (~~~v)
  have hadv : Advances s (s.finishPred x p q v) x.key x.F x.pc := by
    refine advances_retire s x _ _ _ ?_ ?_ ?_
    · rw [Crew.rest_setPred, Crew.rest_setPred]
    · intro l _; rw [Crew.th_setPred, Crew.th_setPred]
    · intro l _; rw [Crew.th_setPred, Crew.th_setPred]
  refine ⟨hadv, ⟨?_, ?_, ?_, ?_, ?_⟩, ?_⟩
  · rw [hcr, Crew.retire_regs, hregs', hregs]
  · rw [hcr, Crew.retire_tags, htags', htags]
  · rw [hcr, Crew.retire_shadow, hshadow', hshadow]
  · rw [hcr, Crew.retire_stags, hstags', hstags]
  · intro l
    rw [hcr, Crew.th_retire, Crew.th_setPred, Crew.th_setPred]
    by_cases hl : inMask x.F l = true <;> simp [hl, After.thread]
  · intro n l
    have hpred : ((s.finishPred x p q v).crew x.key).pred n =
        (((s.crew x.key).setPred p x.take v).setPred q x.take (~~~v)).pred n := by
      simp only [Crew.pred, hcr, Crew.retire_preds]
    rw [hpred, Crew.inMask_pred_setPred, Crew.inMask_pred_setPred]
    by_cases hn : n ≠ 0 ∧ inMask x.take l = true
    · obtain ⟨hn0, hm⟩ := hn
      simp only [hn0, hm, ne_eq, not_false_eq_true, true_and, and_true, if_true, inMask_not]
    · have hq : ∀ r, ¬(n ≠ 0 ∧ n = r ∧ inMask x.take l = true) := fun r h => hn ⟨h.1, h.2.2⟩
      rw [if_neg (hq q), if_neg (hq p), if_neg hn]

/-! ## Signalled exceptions (R163) -/

/-- The state after the issue is counted and the flags are set, against the flagged state of the statements. -/
theorem still_flagged_signal (i : Instr) (s : State) (key : Nat) (F : Mask) (pc : Pc) (e : Lane → Exc) (b : Bool) :
    Still (flagged i s key F e)
      ((s.modCrew key fun c => c.noteIssue F b).setCrew key (((s.crew key).noteIssue F b).signal (ctxAt i s key F pc) e)) key := by
  refine Still.intro ⟨rfl, fun k hk => ?_, by simp⟩ ?_ ?_ ?_
  · rw [State.crew?_setCrew_other _ _ hk, State.crew?_modCrew_other _ _ hk, flagged, State.crew?_modCrew_other _ _ hk]
  · simp only [State.crew_setCrew_self, flagged, State.crew_modCrew_self, Crew.signal, Crew.rest, Crew.updThr, Crew.noteIssue]
  · simp [FileKept, flagged, Crew.signal]
  · intro l
    simp only [State.crew_setCrew_self, flagged, State.crew_modCrew_self, Crew.signal, Crew.th_updThr, Crew.noteIssue_th]
    rfl

theorem enabledLanes_eq_trapping (i : Instr) (s : State) (key : Nat) (F : Mask) (pc : Pc) (e : Lane → Exc) (b : Bool) :
    enabledLanes ((s.crew key).noteIssue F b) (ctxAt i s key F pc) e = trapping i s key F e := rfl

/-- A fragment that enables no exception does not trap. -/
theorem Untrapped.trapping_eq_zero {s : State} {key : Nat} {F : Mask} (h : Untrapped s key F) (i : Instr) (e : Lane → Exc) :
    trapping i s key F e = 0 := by
  refine mask_eq_zero.2 fun l => ?_
  rw [trapping, inMask_maskOf]
  cases hl : inMask (taking i s key F) l
  · rfl
  · simp [h l (taking_sub hl)]

/-- AN INSTRUCTION WHOSE BODY IS `withExc` signals its exceptions: FPX for the fragment when one is enabled, else its effect on the flagged
state. -/
theorem Signals.of_withExc {i : Instr} {e : State → Nat → Lane → Exc} {post : State → Nat → Mask → Pc → State → State → Prop}
    (effect : State → Nat → Mask → Pc → State → State)
    (hexec : ∀ s key F pc, Issues i s key F pc → exec i s =
      .next (withExc (ctxAt i s key F pc) (e s key) (effect s key F pc) (s.modCrew key fun c => c.noteIssue F (isTret i))))
    (hpost : ∀ s key F pc u, Still (flagged i s key F (e s key)) u key →
      post s key F pc (flagged i s key F (e s key)) (effect s key F pc u)) : Signals i e post := by
  have hnext : ∀ s key F pc, Issues i s key F pc → trapping i s key F (e s key) = 0 →
      ∃ t, exec i s = .next t ∧ post s key F pc (flagged i s key F (e s key)) t := by
    intro s key F pc h h0
    refine ⟨_, (hexec s key F pc h).trans ?_, hpost s key F pc _ (still_flagged_signal i s key F pc (e s key) (isTret i))⟩
    simp only [withExc, show (ctxAt i s key F pc).key = key from rfl, State.crew_modCrew_self, enabledLanes_eq_trapping, h0, ne_eq,
      not_true_eq_false, if_false]
  refine ⟨fun s key F pc h hu => hnext s key F pc h (hu.trapping_eq_zero i _), fun s key F pc h => ⟨hnext s key F pc h, fun hbad => ?_⟩⟩
  obtain ⟨info, v, hv, hgoes, hcause, -, hfrag, hfail, -, hexc, hpc, -⟩ := trapWhole_takes
    ((s.modCrew key fun c => c.noteIssue F (isTret i)).setCrew key
      (((s.crew key).noteIssue F (isTret i)).signal (ctxAt i s key F pc) (e s key)))
    (ctxAt i s key F pc) cFpx (trapping i s key F (e s key)) (allLanes 0) (excLanes (ctxAt i s key F pc) (e s key))
  refine ⟨info, v, (hexec s key F pc h).trans ?_, (still_flagged_signal i s key F pc _ _).goes hgoes, hcause, hfrag, hfail, hpc, fun l => ?_⟩
  · rw [← show _ = v.takeTrap key info from hv]
    simp only [withExc, show (ctxAt i s key F pc).key = key from rfl, State.crew_modCrew_self, enabledLanes_eq_trapping, hbad, ne_eq,
      not_false_eq_true, if_true]
  · rw [hexc, excLanes, at_lanes]
    rfl

/-- A FLOATING-POINT INSTRUCTION WITH A REGISTER RESULT, whose operands read the same before and after its issue is counted. -/
theorem FpYields.of_fpOp {i : Instr} {d : BitVec 6} {r : BitVec 3} {srcs : Crew → List Shape} {f : Crew → BitVec 3 → Lane → Word × Exc}
    (hexec : ∀ s, exec i s = issue i s fun x => fpOp x d r srcs f)
    (hf : ∀ c F b rm l, f (Crew.noteIssue c F b) rm l = f c rm l) :
    FpYields i d fun s key l => f (s.crew key) (laneRm s key r l) l := by
  refine Signals.of_withExc (fun s key F pc u => u.finishReg (ctxAt i s key F pc) d
      (lanes fun l => (f (s.crew key) (laneRm s key r l) l).1) (fpTag r (srcs ((s.crew key).noteIssue F (isTret i)))))
    (fun s key F pc h => ?_) fun s key F pc u hu => ?_
  · rw [hexec, h.run]
    simp only [fpOp, show (ctxAt i s key F pc).key = key from rfl, State.crew_modCrew_self, Crew.noteIssue_th, hf, at_lanes]
    rfl
  · have hw := hu.writesReg (finishReg_writes u (ctxAt i s key F pc) d (lanes fun l => (f (s.crew key) (laneRm s key r l) l).1)
      (fpTag r (srcs ((s.crew key).noteIssue F (isTret i)))) fun _ hl => taking_sub hl)
    rw [show Lanes.at (lanes fun l => (f (s.crew key) (laneRm s key r l) l).1) =
      fun l => (f (s.crew key) (laneRm s key r l) l).1 from funext fun l => at_lanes _ l] at hw
    exact hw

theorem fpFormat_width (t : BitVec 2) : (fpFormat t).width = (fpTypeOf t).width := by
  revert t; decide

theorem fpEl_lt (s : State) (key : Nat) (t : BitVec 2) (a : BitVec 6) (l : Lane) (j : Nat) : fpEl s key t a l j < 2 ^ (fpFormat t).width := by
  rw [fpFormat_width]
  exact subEl_lt _ _ _

/-- An operation of one source on each sub-element, given by what it does to codes of the format. -/
theorem FpEach1.of_fp1 {i : Instr} {d a : BitVec 6} {r : BitVec 3} {t : BitVec 2} {f g : Fmt → BitVec 3 → Nat → Nat × Exc}
    (hexec : ∀ s, exec i s = issue i s fun x => fp1 x d a r t f)
    (hfg : ∀ rm x, x < 2 ^ (fpFormat t).width → f (fpFormat t) rm x = g (fpFormat t) rm x) : FpEach1 i d a r t g := by
  have h := FpYields.of_fpOp (srcs := fun c => [c.srcShape (.fp (fpTypeOf t)) a]) (f := fun c rm l => joinSubs (fpTypeOf t).width fun j =>
    f (fpFormat t) rm (subEl (fpTypeOf t).width (c.src (.fp (fpTypeOf t)) a l) j)) hexec fun c F b rm l => by simp only [Crew.noteIssue_src]
  have e : (fun (s : State) key l => joinSubs (fpFormat t).width fun j => g (fpFormat t) (laneRm s key r l) (fpEl s key t a l j)) =
      fun s key l => joinSubs (fpTypeOf t).width fun j => f (fpFormat t) (laneRm s key r l) (fpEl s key t a l j) := by
    funext s key l
    rw [fpFormat_width]
    exact congrArg _ (funext fun j => (hfg _ _ (fpEl_lt s key t a l j)).symm)
  rw [FpEach1, e]
  exact h

/-- An operation of two sources on each sub-element. -/
theorem FpEach2.of_fp2 {i : Instr} {d a b : BitVec 6} {r : BitVec 3} {t : BitVec 2} {f g : Fmt → BitVec 3 → Nat → Nat → Nat × Exc}
    (hexec : ∀ s, exec i s = issue i s fun x => fp2 x d a b r t f)
    (hfg : ∀ rm x y, x < 2 ^ (fpFormat t).width → y < 2 ^ (fpFormat t).width → f (fpFormat t) rm x y = g (fpFormat t) rm x y) :
    FpEach2 i d a b r t g := by
  have h := FpYields.of_fpOp (srcs := fun c => [c.srcShape (.fp (fpTypeOf t)) a, c.srcShape (.fp (fpTypeOf t)) b])
    (f := fun c rm l => joinSubs (fpTypeOf t).width fun j => f (fpFormat t) rm (subEl (fpTypeOf t).width (c.src (.fp (fpTypeOf t)) a l) j)
      (subEl (fpTypeOf t).width (c.src (.fp (fpTypeOf t)) b l) j)) hexec fun c F b rm l => by simp only [Crew.noteIssue_src]
  have e : (fun (s : State) key l => joinSubs (fpFormat t).width fun j =>
        g (fpFormat t) (laneRm s key r l) (fpEl s key t a l j) (fpEl s key t b l j)) =
      fun s key l => joinSubs (fpTypeOf t).width fun j =>
        f (fpFormat t) (laneRm s key r l) (fpEl s key t a l j) (fpEl s key t b l j) := by
    funext s key l
    rw [fpFormat_width]
    exact congrArg _ (funext fun j => (hfg _ _ _ (fpEl_lt s key t a l j) (fpEl_lt s key t b l j)).symm)
  rw [FpEach2, e]
  exact h

/-! ## Instructions that signal nothing -/

theorem joinSubs_signals_nothing (w : Nat) (g : Nat → Nat) : (joinSubs w fun j => (g j, 0)).2 = 0 := by
  have h : ∀ ls : List Nat, (ls.map fun j => (g j, (0 : Exc))).foldl (fun e r => e ||| r.2) 0 = 0 := by
    intro ls
    induction ls with
    | nil => rfl
    | cons j ls ih => simpa using ih
  exact h _

theorem still_flagged_zero (i : Instr) {s : State} {key : Nat} (F : Mask) : Still s (flagged i s key F fun _ => 0) key := by
  refine Still.intro (OnlyCrew.modCrew s key _) ?_ ?_ fun l => ?_
  · simp only [flagged, State.crew_modCrew_self, Crew.updThr, Crew.rest]
  · simp [FileKept, flagged]
  · simp [flagged]

/-- An instruction that signals nothing always completes. -/
theorem FpYields.completes {i : Instr} {d : BitVec 6} {res : State → Nat → Lane → Word × Exc} (h : FpYields i d res)
    (hq : ∀ s key l, (res s key l).2 = 0) :
    Completes i always fun s key F pc t => WritesReg s t key F pc d (taking i s key F) fun l => (res s key l).1 := by
  intro s key F pc hi _
  have he : (fun l => (res s key l).2) = fun _ => 0 := funext fun l => hq s key l
  have h0 : trapping i s key F (fun l => (res s key l).2) = 0 := by
    refine mask_eq_zero.2 fun l => ?_
    simp [trapping, hq]
  obtain ⟨t, ht, hw⟩ := (h.2 s key F pc hi).1 h0
  rw [show flagged i s key F _ = flagged i s key F fun _ => 0 from congrArg _ he] at hw
  exact ⟨t, ht, (still_flagged_zero i F).writesReg hw⟩

theorem FpEach1.bits {i : Instr} {d a : BitVec 6} {r : BitVec 3} {t : BitVec 2} {g : Fmt → Nat → Nat}
    (h : FpEach1 i d a r t fun f _ x => (g f x, 0)) : FpBits1 i d a t g :=
  FpYields.completes h fun _ _ _ => joinSubs_signals_nothing _ _

theorem FpEach2.bits {i : Instr} {d a b : BitVec 6} {r : BitVec 3} {t : BitVec 2} {g : Fmt → Nat → Nat → Nat}
    (h : FpEach2 i d a b r t fun f _ x y => (g f x y, 0)) : FpBits2 i d a b t g :=
  FpYields.completes h fun _ _ _ => joinSubs_signals_nothing _ _

end Sys2Proof.Machine
end

section
/-!
SUPPORT. Codes of the IEEE formats (R94): their sign, their NaNs (R109), and the numeric order of their values (R171, R173).
-/
namespace Sys2Proof.Machine

/-! ## The parts of a code -/

/-- What the formats of the vector unit have in common: infinities and NaNs at the top exponent, an exponent and a fraction. -/
structure Fmt.Ieee (f : Fmt) : Prop where
  top : f.top = .ieee
  exp : 0 < f.e
  frac : 0 < f.m

theorem ieee_of_mem {f : Fmt} (h : f ∈ [fmtD, fmtS, fmtH, fmtBf]) : f.Ieee := by
  simp only [List.mem_cons, List.not_mem_nil, or_false] at h
  rcases h with rfl | rfl | rfl | rfl <;> exact ⟨rfl, by decide, by decide⟩

theorem Fmt.width_pred (f : Fmt) : f.width - 1 = f.e + f.m := by rw [Fmt.width]; omega

theorem Fmt.two_pow_width (f : Fmt) : 2 ^ f.width = 2 * 2 ^ (f.e + f.m) := by
  rw [Fmt.width, Nat.add_assoc, Nat.add_comm, Nat.pow_succ, Nat.mul_comm]

/-- The top bit of a number of `n + 1` bits. -/
theorem testBit_top {x n : Nat} (h : x < 2 * 2 ^ n) : x.testBit n = decide (2 ^ n ≤ x) := by
  by_cases hx : 2 ^ n ≤ x
  · have : x / 2 ^ n = 1 := Nat.div_eq_of_lt_le (by omega) (by omega)
    simp [Nat.testBit_eq_decide_div_mod_eq, this, hx]
  · simp [Nat.testBit_eq_decide_div_mod_eq, Nat.div_eq_of_lt (Nat.lt_of_not_le hx), hx]

/-- The value of a code has the sign of its top bit. -/
theorem isNeg_decodeFp (f : Fmt) (x : Nat) : (decodeFp f x).isNeg = x.testBit (f.e + f.m) := by
  simp only [decodeFp]
  split
  · split <;> rfl
  · split
    · rfl
    · split <;> rfl

/-- A value is negative, −0 included, when the top bit of its code is set. -/
theorem isNeg_decodeFp_eq_decide {f : Fmt} {x : Nat} (hx : x < 2 ^ f.width) : (decodeFp f x).isNeg = decide (2 ^ (f.width - 1) ≤ x) := by
  rw [Fmt.two_pow_width] at hx
  rw [isNeg_decodeFp, testBit_top hx, Fmt.width_pred]

/-- A code from its sign, exponent and fraction. -/
theorem code_eq_parts {f : Fmt} (he : 0 < f.e) {x : Nat} (hx : x < 2 ^ f.width) :
    x = signBit f (x.testBit (f.e + f.m)) + bits x (f.e + f.m - 1) f.m * 2 ^ f.m + x % 2 ^ f.m := by
  rw [Fmt.two_pow_width] at hx
  have hbits : bits x (f.e + f.m - 1) f.m = x / 2 ^ f.m % 2 ^ f.e := by
    rw [bits, Nat.shiftRight_eq_div_pow, show f.e + f.m - 1 + 1 - f.m = f.e by omega]
  have hlow : x % 2 ^ (f.e + f.m) = x / 2 ^ f.m % 2 ^ f.e * 2 ^ f.m + x % 2 ^ f.m := by
    rw [Nat.add_comm f.e, Nat.pow_add, Nat.mod_mul, Nat.mul_comm, Nat.add_comm]
  have hsign : x = signBit f (x.testBit (f.e + f.m)) + x % 2 ^ (f.e + f.m) := by
    rw [testBit_top hx, signBit]
    by_cases h : 2 ^ (f.e + f.m) ≤ x
    · rw [decide_eq_true h, if_pos rfl, Nat.mod_eq_sub_mod h, Nat.mod_eq_of_lt (by omega)]; omega
    · rw [decide_eq_false h, if_neg (by simp), Nat.mod_eq_of_lt (by omega), Nat.zero_add]
  rw [hbits, Nat.add_assoc, ← hlow]
  exact hsign

/-! ## NaNs (R109) -/

/-- The code of a NaN: the top exponent, and its fraction aligned below bit 52. -/
theorem decodeFp_nan {f : Fmt} (hf : f.Ieee) {x : Nat} {n q : Bool} {fr : Nat} (h : decodeFp f x = .nan n q fr) :
    n = x.testBit (f.e + f.m) ∧ bits x (f.e + f.m - 1) f.m = 2 ^ f.e - 1 ∧ fr = x % 2 ^ f.m * 2 ^ (52 - f.m) := by
  simp only [decodeFp, hf.top] at h
  by_cases htop : bits x (f.e + f.m - 1) f.m = 2 ^ f.e - 1
  · by_cases h0 : x % 2 ^ f.m = 0
    · simp only [htop, h0, decide_true, Bool.and_self, if_true] at h
      cases h
    · simp only [htop, h0, decide_true, Bool.and_self, if_true, if_false] at h
      obtain ⟨hn, -, hfr⟩ := Num.nan.inj h
      exact ⟨hn.symm, htop, hfr.symm⟩
  · simp only [htop, decide_false, Bool.false_and, Bool.false_eq_true, if_false] at h
    split at h <;> cases h

/-- A NaN carried into its own format is its code with the quiet bit set. -/
theorem carryNaN_decodeFp {f : Fmt} (hf : f.Ieee) {x : Nat} (hx : x < 2 ^ f.width) {n q : Bool} {fr : Nat}
    (h : decodeFp f x = .nan n q fr) : carryNaN f n fr = x ||| 2 ^ (f.m - 1) := by
  obtain ⟨hn, htop, hfr⟩ := decodeFp_nan hf h
  have hquiet : 2 ^ (f.m - 1) < 2 ^ f.m := Nat.pow_lt_pow_right (by omega) (by have := hf.frac; omega)
  have hlow : x % 2 ^ f.m < 2 ^ f.m := Nat.mod_lt _ (Nat.two_pow_pos _)
  have hhigh : ∃ k, signBit f n + (2 ^ f.e - 1) * 2 ^ f.m = 2 ^ f.m * k := by
    refine ⟨(if n then 2 ^ f.e else 0) + (2 ^ f.e - 1), ?_⟩
    cases n
    · simp [signBit, Nat.mul_comm]
    · simp only [signBit, if_true, Nat.pow_add, Nat.mul_comm (2 ^ f.m), Nat.add_mul]
  obtain ⟨k, hk⟩ := hhigh
  have hcode : x = 2 ^ f.m * k + x % 2 ^ f.m := by
    have := code_eq_parts hf.exp hx
    rwa [← hn, htop, hk] at this
  have hor : x ||| 2 ^ (f.m - 1) = 2 ^ f.m * k + (x % 2 ^ f.m ||| 2 ^ (f.m - 1)) := by
    rw [Nat.two_pow_add_eq_or_of_lt (Nat.or_lt_two_pow hlow hquiet), ← Nat.or_assoc, ← Nat.two_pow_add_eq_or_of_lt hlow, ← hcode]
  rw [carryNaN, hf.top, hfr, Nat.mul_div_cancel _ (Nat.two_pow_pos _)]
  simp only
  rw [hk, hor]

theorem Num.exists_of_isNaN {a : Num} (h : a.isNaN = true) : ∃ n q fr, a = .nan n q fr := by
  cases a with
  | nan n q fr => exact ⟨n, q, fr, rfl⟩
  | fin n m e => cases h
  | inf n => cases h

/-- The NaN result of codes is that of their values. -/
theorem nanResult_decodeFp {f : Fmt} (hf : f.Ieee) {xs : List Nat} (hxs : ∀ x ∈ xs, x < 2 ^ f.width) :
    nanResult f (xs.map (decodeFp f)) = nanOf f xs := by
  rw [nanResult, nanOf, List.find?_map]
  cases h : xs.find? (Num.isNaN ∘ decodeFp f) with
  | none => rw [show xs.find? (fun x => (decodeFp f x).isNaN) = none from h]; rfl
  | some x =>
    obtain ⟨n, q, fr, hx⟩ := Num.exists_of_isNaN (show (decodeFp f x).isNaN = true from List.find?_some (p := Num.isNaN ∘ decodeFp f) h)
    rw [show xs.find? (fun x => (decodeFp f x).isNaN) = some x from h, Option.map_some, Option.map_some, hx]
    simp only [carryNaN_decodeFp hf (hxs x (List.mem_of_find?_eq_some h)) hx, List.any_map]
    rfl

theorem nanResult_eq_none (f : Fmt) {a b : Num} (ha : a.isNaN = false) (hb : b.isNaN = false) : nanResult f [a, b] = none := by
  simp [nanResult, ha, hb]

/-! ## The numeric order -/

theorem alignTo_eq_scaled (e0 : Int) (n : Bool) (m : Nat) (e : Int) : alignTo e0 n m e = scaled e0 n m e := by
  cases n <;> simp [alignTo, scaled]

theorem Num.not_isNaN_of_below : ∀ {a b : Num}, a.below b → a.isNaN = false ∧ b.isNaN = false
  | .fin _ _ _, .fin _ _ _, _ => ⟨rfl, rfl⟩
  | .fin _ _ _, .inf _, _ => ⟨rfl, rfl⟩
  | .inf _, .fin _ _ _, _ => ⟨rfl, rfl⟩
  | .inf _, .inf _, _ => ⟨rfl, rfl⟩
  | .fin _ _ _, .nan _ _ _, h => h.elim
  | .inf _, .nan _ _ _, h => h.elim
  | .nan _ _ _, .fin _ _ _, h => h.elim
  | .nan _ _ _, .inf _, h => h.elim
  | .nan _ _ _, .nan _ _ _, h => h.elim

/-- The model's comparison tells the numeric order. -/
theorem below_iff_cmpNum_lt {a b : Num} (ha : a.isNaN = false) (hb : b.isNaN = false) : a.below b ↔ cmpNum a b = .lt := by
  cases a with
  | nan n q fr => cases ha
  | inf n =>
    cases b with
    | nan n' q fr => cases hb
    | inf n' => cases n <;> cases n' <;> simp [Num.below, cmpNum]
    | fin n' m' e' => cases n <;> simp [Num.below, cmpNum]
  | fin n m e =>
    cases b with
    | nan n' q fr => cases hb
    | inf n' => cases n' <;> simp [Num.below, cmpNum]
    | fin n' m' e' => simp only [Num.below, cmpNum, alignTo_eq_scaled, Int.compare_eq_lt]

/-- Operands in the other order compare the other way. -/
theorem cmpNum_swap : ∀ a b : Num, (cmpNum a b).swap = cmpNum b a
  | .fin n m e, .fin n' m' e' => by
    simp only [cmpNum, Int.min_comm e' e]
    exact Int.compare_swap _ _
  | .fin _ _ _, .inf n' => by cases n' <;> rfl
  | .inf n, .fin _ _ _ => by cases n <;> rfl
  | .inf n, .inf n' => by cases n <;> cases n' <;> rfl
  | .fin _ _ _, .nan _ _ _ => rfl
  | .nan _ _ _, .fin _ _ _ => rfl
  | .inf n, .nan _ _ _ => by cases n <;> rfl
  | .nan _ _ _, .inf n' => by cases n' <;> rfl
  | .nan _ _ _, .nan _ _ _ => rfl

theorem below_iff_cmpNum_gt {a b : Num} (ha : a.isNaN = false) (hb : b.isNaN = false) : b.below a ↔ cmpNum a b = .gt := by
  rw [below_iff_cmpNum_lt hb ha, ← cmpNum_swap, Ordering.swap_eq_lt]

/-- Values that are not NaN are equal when neither is below the other. -/
theorem cmpNum_eq_iff {a b : Num} (ha : a.isNaN = false) (hb : b.isNaN = false) : cmpNum a b = .eq ↔ ¬a.below b ∧ ¬b.below a := by
  rw [below_iff_cmpNum_lt ha hb, below_iff_cmpNum_gt ha hb]
  cases cmpNum a b <;> decide

end Sys2Proof.Machine
end

section
/-!
STATEMENT PROOFS. Minima, maxima, sign operations, classes and comparisons (R170 to R173).
-/
namespace Sys2Proof.Machine

/-! ## Minima and maxima (R171) -/

section Ordered
variable {f : Fmt} {x y : Nat} (ha : (decodeFp f x).isNaN = false) (hb : (decodeFp f y).isNaN = false)
include ha hb

theorem fpMinMax_of_lt (h : cmpNum (decodeFp f x) (decodeFp f y) = .lt) (wantMax number : Bool) :
    fpMinMax f wantMax number x y = (if wantMax then y else x, 0) := by
  cases number <;> simp [fpMinMax, h, ha, hb, nanResult_eq_none]

theorem fpMinMax_of_gt (h : cmpNum (decodeFp f x) (decodeFp f y) = .gt) (wantMax number : Bool) :
    fpMinMax f wantMax number x y = (if wantMax then x else y, 0) := by
  cases number <;> simp [fpMinMax, h, ha, hb, nanResult_eq_none]

/-- Of equal values the sign of A decides: a minimum takes A when it is negative, a maximum when it is not. -/
theorem fpMinMax_of_eq (h : cmpNum (decodeFp f x) (decodeFp f y) = .eq) (wantMax number : Bool) :
    fpMinMax f wantMax number x y = (if (decodeFp f x).isNeg = wantMax then y else x, 0) := by
  cases number <;> simp [fpMinMax, h, ha, hb, nanResult_eq_none]

end Ordered

/-- FMIN and FMAX give the NaN result when there is one. -/
theorem fpMinMax_of_nan {f : Fmt} {x y : Nat} {r : Nat × Exc} (h : nanResult f [decodeFp f x, decodeFp f y] = some r) (wantMax : Bool) :
    fpMinMax f wantMax false x y = r := by
  simp [fpMinMax, h]

/-- FMINN and FMAXN of two NaNs give the NaN result. -/
theorem fpMinMax_number_of_nans {f : Fmt} {x y : Nat} {r : Nat × Exc} (h : nanResult f [decodeFp f x, decodeFp f y] = some r)
    (ha : (decodeFp f x).isNaN = true) (hb : (decodeFp f y).isNaN = true) (wantMax : Bool) : fpMinMax f wantMax true x y = r := by
  simp [fpMinMax, h, ha, hb]

/-- FMINN and FMAXN give the numeric operand when A alone is NaN. -/
theorem fpMinMax_number_of_nan_left {f : Fmt} {x y : Nat} (ha : (decodeFp f x).isNaN = true) (hb : (decodeFp f y).isNaN = false)
    (wantMax : Bool) : fpMinMax f wantMax true x y = (y, excIf ((decodeFp f x).isSNaN || (decodeFp f y).isSNaN) excNV) := by
  simp [fpMinMax, ha, hb]

/-- FMINN and FMAXN give the numeric operand when B alone is NaN. -/
theorem fpMinMax_number_of_nan_right {f : Fmt} {x y : Nat} (ha : (decodeFp f x).isNaN = false) (hb : (decodeFp f y).isNaN = true)
    (wantMax : Bool) : fpMinMax f wantMax true x y = (x, excIf ((decodeFp f x).isSNaN || (decodeFp f y).isSNaN) excNV) := by
  simp [fpMinMax, ha, hb]

/-! ## Comparisons (R173) -/

/-- With a NaN operand only NE and UN hold. -/
theorem fpCond_of_nan {f : Fmt} {x y : Nat} (h : ((decodeFp f x).isNaN || (decodeFp f y).isNaN) = true) (k : BitVec 3) :
    (fpCond f k x y).1 = decide (k = 1 ∨ k = 6) := by
  simp only [fpCond, h]
  generalize cmpNum (decodeFp f x) (decodeFp f y) = o
  revert k o
  decide

/-- Without a NaN a condition depends on the comparison alone. -/
def orderedCond (k : BitVec 3) (o : Ordering) : Bool :=
  match k.toNat with
  | 0 => o == .eq
  | 1 => o != .eq
  | 2 => o == .lt
  | 3 => o != .gt
  | 4 => o == .gt
  | 5 => o != .lt
  | 6 => false
  | _ => true

theorem fpCond_of_ordered {f : Fmt} {x y : Nat} (h : ((decodeFp f x).isNaN || (decodeFp f y).isNaN) = false) (k : BitVec 3) :
    (fpCond f k x y).1 = orderedCond k (cmpNum (decodeFp f x) (decodeFp f y)) := by
  simp only [fpCond, h]
  generalize cmpNum (decodeFp f x) (decodeFp f y) = o
  revert k o
  decide

theorem fpCond_signals (f : Fmt) (k : BitVec 3) (x y : Nat) : (fpCond f k x y).2 =
    excIf (if 2 ≤ k ∧ k ≤ 5 then (decodeFp f x).isNaN || (decodeFp f y).isNaN else (decodeFp f x).isSNaN || (decodeFp f y).isSNaN) excNV := by
  simp [fpCond]

/-! ## Bits of a code (R170) -/

theorem xor_two_pow (x n : Nat) : x ^^^ 2 ^ n = 2 ^ n * (x / 2 ^ n ^^^ 1) + x % 2 ^ n := by
  have hdiv : (x ^^^ 2 ^ n) / 2 ^ n = x / 2 ^ n ^^^ 1 := by rw [Nat.xor_div_two_pow, Nat.div_self (Nat.two_pow_pos n)]
  have hmod : (x ^^^ 2 ^ n) % 2 ^ n = x % 2 ^ n := by rw [Nat.xor_mod_two_pow, Nat.mod_self, Nat.xor_zero]
  rw [← hdiv, ← hmod, Nat.div_add_mod]

/-- The sign bit inverted. -/
theorem xor_sign {f : Fmt} {x : Nat} (hx : x < 2 ^ f.width) :
    x ^^^ 2 ^ (f.e + f.m) = if x < 2 ^ (f.width - 1) then x + 2 ^ (f.width - 1) else x - 2 ^ (f.width - 1) := by
  rw [Fmt.width_pred, xor_two_pow]
  rw [Fmt.two_pow_width] at hx
  by_cases h : x < 2 ^ (f.e + f.m)
  · rw [if_pos h, Nat.div_eq_of_lt h, Nat.mod_eq_of_lt h, Nat.zero_xor, Nat.mul_one, Nat.add_comm]
  · rw [if_neg h, Nat.div_eq_of_lt_le (k := 1) (by omega) (by omega), Nat.xor_self, Nat.mul_zero, Nat.zero_add,
      Nat.mod_eq_sub_mod (by omega), Nat.mod_eq_of_lt (by omega)]

/-- The sign bit alone. -/
theorem sub_magBits {f : Fmt} {y : Nat} (hy : y < 2 ^ f.width) :
    y - magBits f y = if y < 2 ^ (f.width - 1) then 0 else 2 ^ (f.width - 1) := by
  rw [magBits, Fmt.width_pred]
  rw [Fmt.two_pow_width] at hy
  by_cases h : y < 2 ^ (f.e + f.m)
  · rw [if_pos h, Nat.mod_eq_of_lt h, Nat.sub_self]
  · rw [if_neg h, Nat.mod_eq_sub_mod (by omega), Nat.mod_eq_of_lt (by omega)]
    omega

/-! ## The instructions -/

/-- FMIN, FMAX, FMINN and FMAXN. -/
theorem minMax_each2 (g : BitVec 3) (d a b : BitVec 6) (t : BitVec 2) :
    FpEach2 (.fmin g d a b t) d a b 0 t (fun f _ => fpMinMax f false false) ∧
    FpEach2 (.fmax g d a b t) d a b 0 t (fun f _ => fpMinMax f true false) ∧
    FpEach2 (.fminn g d a b t) d a b 0 t (fun f _ => fpMinMax f false true) ∧
    FpEach2 (.fmaxn g d a b t) d a b 0 t (fun f _ => fpMinMax f true true) :=
  ⟨.of_fp2 (f := fun f _ => fpMinMax f false false) (fun _ => rfl) fun _ _ _ _ _ => rfl,
    .of_fp2 (f := fun f _ => fpMinMax f true false) (fun _ => rfl) fun _ _ _ _ _ => rfl,
    .of_fp2 (f := fun f _ => fpMinMax f false true) (fun _ => rfl) fun _ _ _ _ _ => rfl,
    .of_fp2 (f := fun f _ => fpMinMax f true true) (fun _ => rfl) fun _ _ _ _ _ => rfl⟩

theorem fabs_each1 (g : BitVec 3) (d a : BitVec 6) (t : BitVec 2) :
    FpEach1 (.fabs g d a t) d a 0 t fun f _ x => (x % 2 ^ (f.width - 1), 0) :=
  .of_fp1 (f := fun f _ p => (magBits f p, 0)) (fun _ => rfl) fun _ _ _ => by simp only [magBits, Fmt.width_pred]

theorem fneg_each1 (g : BitVec 3) (d a : BitVec 6) (t : BitVec 2) : FpEach1 (.fneg g d a t) d a 0 t
    fun f _ x => (if x < 2 ^ (f.width - 1) then x + 2 ^ (f.width - 1) else x - 2 ^ (f.width - 1), 0) :=
  .of_fp1 (f := fun f _ p => (p ^^^ 2 ^ (f.e + f.m), 0)) (fun _ => rfl) fun _ _ hx => by simp only [xor_sign hx]

theorem fcps_each2 (g : BitVec 3) (d a b : BitVec 6) (t : BitVec 2) : FpEach2 (.fcps g d a b t) d a b 0 t
    fun f _ x y => (x % 2 ^ (f.width - 1) + (if y < 2 ^ (f.width - 1) then 0 else 2 ^ (f.width - 1)), 0) :=
  .of_fp2 (f := fun f _ p q => (magBits f p + (q - magBits f q), 0)) (fun _ => rfl)
    fun _ x _ _ hy => by rw [sub_magBits hy, magBits, Fmt.width_pred]

/-- FCLASS sets one bit: that of the class of its operand (R172). -/
theorem fclass_each1 (g : BitVec 3) (d a : BitVec 6) (t : BitVec 2) : FpEach1 (.fclass g d a t) d a 0 t
    fun f _ x => (2 ^ (match decodeFp f x with
      | .inf n => if n then 0 else 7
      | .nan _ quiet _ => if quiet then 9 else 8
      | .fin n m _ => if m = 0 then (if n then 3 else 4) else if m < 2 ^ f.m then (if n then 2 else 5) else if n then 1 else 6), 0) := by
  refine .of_fp1 (f := fun f _ p => (fpClass f p, 0)) (fun _ => rfl) fun _ x _ => ?_
  simp only [fpClass]
  cases decodeFp (fpFormat t) x with
  | inf n => cases n <;> rfl
  | nan n q fr => cases q <;> rfl
  | fin n m e =>
    dsimp only
    by_cases hm : m = 0
    · rw [if_pos hm, if_pos hm]
      cases n <;> rfl
    rw [if_neg hm, if_neg hm]
    by_cases hs : m < 2 ^ (fpFormat t).m
    · rw [if_pos hs, if_pos hs]
      cases n <;> rfl
    · rw [if_neg hs, if_neg hs]
      cases n <;> rfl

/-- FCMP signals what the comparison signals, and writes its condition and the complement. -/
theorem fcmp_signals (g p q : BitVec 3) (a b : BitVec 6) (k : BitVec 3) (t : BitVec 2) :
    Signals (.fcmp g p q a b k t) (fun s key l => (fpCond (fpFormat t) k (fpEl s key t a l 0) (fpEl s key t b l 0)).2)
      fun s key F pc u t' => WritesPred u t' key F pc p q (taking (.fcmp g p q a b k t) s key F) fun l =>
        (fpCond (fpFormat t) k (fpEl s key t a l 0) (fpEl s key t b l 0)).1 := by
  refine Signals.of_withExc (fun s key F pc u => u.finishPred (ctxAt (.fcmp g p q a b k t) s key F pc) p q
      (maskOf fun l => (fpCond (fpFormat t) k (fpEl s key t a l 0) (fpEl s key t b l 0)).1))
    (fun s key F pc h => ?_) fun s key F pc u hu => ?_
  · refine (h.run _).trans ?_
    simp only [show (ctxAt (.fcmp g p q a b k t) s key F pc).key = key from rfl, State.crew_modCrew_self, Crew.noteIssue_src, at_lanes]
    rfl
  · have hw := hu.writesPred (finishPred_writes u (ctxAt (.fcmp g p q a b k t) s key F pc) p q
      (maskOf fun l => (fpCond (fpFormat t) k (fpEl s key t a l 0) (fpEl s key t b l 0)).1))
    rw [show inMask (maskOf fun l => (fpCond (fpFormat t) k (fpEl s key t a l 0) (fpEl s key t b l 0)).1) =
      fun l => (fpCond (fpFormat t) k (fpEl s key t a l 0) (fpEl s key t b l 0)).1 from funext fun l => inMask_maskOf _ l] at hw
    exact hw

/-! ## Which operand, and what a comparison tells -/

section Operands
variable {f : Fmt} {x y : Nat}

/-- The smaller and the greater of two ordered values; of equal ones, −0 lies below +0. -/
theorem fpMinMax_by_order (hx : x < 2 ^ f.width) (number : Bool) :
    ((decodeFp f x).below (decodeFp f y) → fpMinMax f false number x y = (x, 0) ∧ fpMinMax f true number x y = (y, 0)) ∧
    ((decodeFp f y).below (decodeFp f x) → fpMinMax f false number x y = (y, 0) ∧ fpMinMax f true number x y = (x, 0)) ∧
    (((decodeFp f x).isNaN || (decodeFp f y).isNaN) = false → ¬(decodeFp f x).below (decodeFp f y) →
      ¬(decodeFp f y).below (decodeFp f x) →
      fpMinMax f false number x y = (if 2 ^ (f.width - 1) ≤ x then x else y, 0) ∧
      fpMinMax f true number x y = (if 2 ^ (f.width - 1) ≤ x then y else x, 0)) := by
  refine ⟨fun h => ?_, fun h => ?_, fun hnan h h' => ?_⟩
  · obtain ⟨ha, hb⟩ := Num.not_isNaN_of_below h
    have hlt := (below_iff_cmpNum_lt ha hb).1 h
    exact ⟨fpMinMax_of_lt ha hb hlt false number, fpMinMax_of_lt ha hb hlt true number⟩
  · obtain ⟨hb, ha⟩ := Num.not_isNaN_of_below h
    have hgt := (below_iff_cmpNum_gt ha hb).1 h
    exact ⟨fpMinMax_of_gt ha hb hgt false number, fpMinMax_of_gt ha hb hgt true number⟩
  · obtain ⟨ha, hb⟩ := Bool.or_eq_false_iff.1 hnan
    have heq := (cmpNum_eq_iff ha hb).2 ⟨h, h'⟩
    rw [fpMinMax_of_eq ha hb heq, fpMinMax_of_eq ha hb heq, isNeg_decodeFp_eq_decide hx]
    by_cases hs : 2 ^ (f.width - 1) ≤ x <;> simp [hs]

/-- FMIN and FMAX of a NaN, and all four of two NaNs, give the NaN result of R109. -/
theorem fpMinMax_of_nanOf (hf : f.Ieee) (hx : x < 2 ^ f.width) (hy : y < 2 ^ f.width) {r : Nat × Exc} (wantMax : Bool)
    (h : nanOf f [x, y] = some r) : fpMinMax f wantMax false x y = r ∧
      ((decodeFp f x).isNaN = true → (decodeFp f y).isNaN = true → fpMinMax f wantMax true x y = r) := by
  have hr : nanResult f [decodeFp f x, decodeFp f y] = some r := by
    rw [← h, ← nanResult_decodeFp hf (xs := [x, y]) (by simp [hx, hy])]
    rfl
  exact ⟨fpMinMax_of_nan hr wantMax, fun ha hb => fpMinMax_number_of_nans hr ha hb wantMax⟩

/-- Without a NaN the result is one of the operands. -/
theorem fpMinMax_is_operand (h : ((decodeFp f x).isNaN || (decodeFp f y).isNaN) = false) (wantMax number : Bool) :
    fpMinMax f wantMax number x y = (x, 0) ∨ fpMinMax f wantMax number x y = (y, 0) := by
  obtain ⟨ha, hb⟩ := Bool.or_eq_false_iff.1 h
  cases ho : cmpNum (decodeFp f x) (decodeFp f y) with
  | lt => rw [fpMinMax_of_lt ha hb ho]; cases wantMax <;> simp
  | gt => rw [fpMinMax_of_gt ha hb ho]; cases wantMax <;> simp
  | eq => rw [fpMinMax_of_eq ha hb ho]; split <;> simp

/-- LT and EQ tell the numeric order. -/
theorem fpCond_tells_order (h : ((decodeFp f x).isNaN || (decodeFp f y).isNaN) = false) :
    ((fpCond f 2 x y).1 = true ↔ (decodeFp f x).below (decodeFp f y)) ∧
    ((fpCond f 0 x y).1 = true ↔ ¬(decodeFp f x).below (decodeFp f y) ∧ ¬(decodeFp f y).below (decodeFp f x)) := by
  obtain ⟨ha, hb⟩ := Bool.or_eq_false_iff.1 h
  rw [fpCond_of_ordered h, fpCond_of_ordered h, ← cmpNum_eq_iff ha hb, below_iff_cmpNum_lt ha hb]
  exact ⟨beq_iff_eq, beq_iff_eq⟩

/-- Without a NaN UN is false and OR true, NE, LE and GE are the complements of EQ, GT and LT, and LT is GT of the operands exchanged. -/
theorem fpCond_complements (h : ((decodeFp f x).isNaN || (decodeFp f y).isNaN) = false) :
    (fpCond f 6 x y).1 = false ∧ (fpCond f 7 x y).1 = true ∧ (fpCond f 1 x y).1 = !(fpCond f 0 x y).1 ∧
    (fpCond f 3 x y).1 = !(fpCond f 4 x y).1 ∧ (fpCond f 5 x y).1 = !(fpCond f 2 x y).1 ∧ (fpCond f 2 x y).1 = (fpCond f 4 y x).1 := by
  have h' : ((decodeFp f y).isNaN || (decodeFp f x).isNaN) = false := by rw [Bool.or_comm]; exact h
  simp only [fpCond_of_ordered h, fpCond_of_ordered h', ← cmpNum_swap (decodeFp f x) (decodeFp f y)]
  cases cmpNum (decodeFp f x) (decodeFp f y) <;> decide

end Operands

/-- Settles O42: each instruction by the shared ending of the floating-point instructions (R163), with the bits of a code for the sign
operations; which operand and which condition by the comparison, which tells the numeric order. -/
theorem floatSelection : Obligations.FloatSelection := by
  refine ⟨fun g p q k d a b t => ?_, fun f hmem x y hx hy => ?_⟩
  · obtain ⟨hmin, hmax, hminn, hmaxn⟩ := minMax_each2 g d a b t
    have habs := fabs_each1 g d a t
    have hneg := fneg_each1 g d a t
    have hcps := fcps_each2 g d a b t
    have hclass := fclass_each1 g d a t
    exact ⟨hmin, hmax, hminn, hmaxn, habs, hneg, hcps, hclass, habs.bits, hneg.bits, hcps.bits, hclass.bits, fcmp_signals g p q a b k t⟩
  · exact ⟨fpMinMax_by_order hx, fun r wantMax h => fpMinMax_of_nanOf (ieee_of_mem hmem) hx hy wantMax h, fpCond_tells_order,
      fun wantMax => ⟨fun ha hb => fpMinMax_number_of_nan_left ha hb wantMax, fun ha hb => fpMinMax_number_of_nan_right ha hb wantMax,
        fun h => fpMinMax_is_operand h wantMax false⟩,
      fun k => fpCond_signals f k x y, fpCond_of_nan, fpCond_complements⟩

end Sys2Proof.Machine
end

section
/-!
STATEMENT PROOFS. Proposal mode: how it begins, how it ends, and the Metropolis test (R28, R29, R251 to R254).
-/
namespace Sys2Proof.Machine

/-! ## After the issue is counted -/

theorem ctxAt_key (i : Instr) (s : State) (key : Nat) (F : Mask) (pc : Pc) : (ctxAt i s key F pc).key = key := rfl

theorem still_noteIssue (s : State) (key : Nat) (F : Mask) (b : Bool) : Still s (s.modCrew key fun c => c.noteIssue F b) key :=
  Still.intro (OnlyCrew.modCrew s key _) (by simp) (by simp [FileKept]) (by simp)

/-! ## Threads that change before the instruction finishes -/

theorem Crew.rest_updThr (c : Crew) (m : Mask) (f : Lane → Thread → Thread) : (c.updThr m f).rest = c.rest := by
  simp only [Crew.updThr, Crew.rest]

/-- An instruction that changes its taking lanes' threads and nothing else. -/
theorem updThr_finish_goes (s : State) (x : Ctx) (f : Lane → Thread → Thread)
    (hsub : ∀ l, inMask x.take l = true → inMask x.F l = true) :
    Goes s ((s.modCrew x.key fun c => c.updThr x.take f).finish x) x.key x.F id
      fun l th => if inMask x.take l then { f l th with pc := x.pc + 4 } else { th with pc := x.pc + 4 } := by
  obtain ⟨ho, hr, hf, ht, ha⟩ := finish_goes (s.modCrew x.key fun c => c.updThr x.take f) x
  refine ⟨(OnlyCrew.modCrew s x.key _).trans ho, ?_, ?_, fun l hl => ?_, fun l hl => ?_⟩
  · rw [hr, State.crew_modCrew_self, id, id, Crew.rest_updThr]
  · simpa [FileKept] using hf
  · rw [ht l hl, State.crew_modCrew_self, Crew.th_updThr]
    split <;> rfl
  · have hout : inMask x.take l ≠ true := fun h => by simp [hsub l h] at hl
    rw [ha l hl, State.crew_modCrew_self, Crew.th_updThr, if_neg hout]

/-! ## The end of a proposal (R28, R29) -/

/-- The lanes in which a commit moves shadow register `k` to the committed bank. -/
def Crew.moved (c : Crew) (commit : Mask) (k : Nat) : Mask :=
  maskOf fun l => inMask commit l && (c.th l).pmode && (c.th l).wm.getLsbD k

/-- One register of a commit. -/
def Crew.commitReg (c : Crew) (commit : Mask) (r : Vector (Lanes Word) 48) (k : Nat) : Vector (Lanes Word) 48 :=
  if c.moved commit k = 0 then r
  else r.setIfInBounds (40 + k) (lanes fun l =>
    if inMask (c.moved commit k) l then (c.shadow.getD k (allLanes 0)).at l else (c.regs.getD (40 + k) (allLanes 0)).at l)

theorem Crew.regs_settleProp (c : Crew) (commit discard : Mask) :
    (c.settleProp commit discard).regs = (List.range 8).foldl (c.commitReg commit) c.regs := rfl

/-- A commit of the first `m` bank registers: each of them takes its shadow value in its moved lanes. -/
theorem Crew.at_foldl_commitReg (c : Crew) (commit : Mask) {m : Nat} (hm : m ≤ 8) (n : Nat) (l : Lane) :
    (((List.range m).foldl (c.commitReg commit) c.regs).getD n (allLanes 0)).at l =
      if 40 ≤ n ∧ n - 40 < m ∧ inMask (c.moved commit (n - 40)) l = true then (c.shadow.getD (n - 40) (allLanes 0)).at l
      else (c.regs.getD n (allLanes 0)).at l := by
  induction m with
  | zero => simp
  | succ m ih =>
    rw [List.range_succ, List.foldl_append, List.foldl_cons, List.foldl_nil]
    have ih := ih (by omega)
    by_cases h0 : c.moved commit m = 0
    · rw [Crew.commitReg, if_pos h0, ih]
      have hlast : n - 40 = m → inMask (c.moved commit (n - 40)) l = false := fun h => by rw [h, mask_eq_zero.1 h0]
      have hcond : (40 ≤ n ∧ n - 40 < m ∧ inMask (c.moved commit (n - 40)) l = true) ↔
          40 ≤ n ∧ n - 40 < m + 1 ∧ inMask (c.moved commit (n - 40)) l = true := by
        refine ⟨fun ⟨h, hlt, hin⟩ => ⟨h, by omega, hin⟩, fun ⟨h, hlt, hin⟩ => ⟨h, Nat.lt_of_le_of_ne (by omega) fun he => ?_, hin⟩⟩
        exact Bool.false_ne_true ((hlast he).symm.trans hin)
      simp only [hcond]
    · rw [Crew.commitReg, if_neg h0, getD_setIfInBounds _ _ _ _ _ (by omega)]
      by_cases hn : n = 40 + m
      · subst hn
        simp
      · rw [if_neg hn, ih]
        have hcond : (40 ≤ n ∧ n - 40 < m ∧ inMask (c.moved commit (n - 40)) l = true) ↔
            40 ≤ n ∧ n - 40 < m + 1 ∧ inMask (c.moved commit (n - 40)) l = true :=
          ⟨fun ⟨h, hlt, hin⟩ => ⟨h, by omega, hin⟩, fun ⟨h, hlt, hin⟩ => ⟨h, by omega, hin⟩⟩
        simp only [hcond]

/-- The committed bank after a proposal's end (R28). -/
theorem Crew.at_regs_settleProp (c : Crew) (commit discard : Mask) {n : Nat} (hn : n < 48) (l : Lane) :
    ((c.settleProp commit discard).regs.getD n (allLanes 0)).at l =
      if 40 ≤ n ∧ inMask (c.moved commit (n - 40)) l = true then (c.shadow.getD (n - 40) (allLanes 0)).at l
      else (c.regs.getD n (allLanes 0)).at l := by
  rw [Crew.regs_settleProp, Crew.at_foldl_commitReg c commit (Nat.le_refl 8)]
  have hbank : n - 40 < 8 := by omega
  simp only [hbank, true_and]

@[simp] theorem Crew.shadow_settleProp (c : Crew) (commit discard : Mask) : (c.settleProp commit discard).shadow = c.shadow := by
  simp only [Crew.settleProp, Crew.updThr_shadow]

@[simp] theorem Crew.preds_settleProp (c : Crew) (commit discard : Mask) : (c.settleProp commit discard).preds = c.preds := by
  simp only [Crew.settleProp, Crew.updThr_preds]

theorem Crew.rest_settleProp (c : Crew) (commit discard : Mask) : (c.settleProp commit discard).rest = c.rest := by
  simp only [Crew.settleProp, Crew.rest_updThr]
  rfl

theorem Crew.th_settleProp (c : Crew) (commit discard : Mask) (l : Lane) :
    (c.settleProp commit discard).th l = if inMask (commit ||| discard) l then { c.th l with pmode := false, wm := 0 } else c.th l := by
  rw [Crew.settleProp, Crew.th_updThr]
  rfl

/-- A fragment whose lanes in `take` end their proposal, by a commit where `commit` holds, and whose threads change by `own` besides. -/
def EndsProposal (s t : State) (key : Nat) (F take : Mask) (pc : Pc) (commit : Lane → Bool) (own : Lane → Thread → Thread) : Prop :=
  OnlyCrew s t key ∧ (t.crew key).rest = (s.crew key).rest ∧ (t.crew key).shadow = (s.crew key).shadow ∧
  (∀ l, inMask F l = true → (t.crew key).th l = let th := own l ((s.crew key).th l)
    if inMask take l then { th with pc := pc + 4, pmode := false, wm := 0 } else { th with pc := pc + 4 }) ∧
  (∀ l, inMask F l = false → (t.crew key).th l = (s.crew key).th l) ∧
  ∀ n l, n < 48 → ((t.crew key).regs.getD n (allLanes 0)).at l =
    let th := (s.crew key).th l
    if inMask take l = true ∧ commit l = true ∧ th.pmode = true ∧ 40 ≤ n ∧ th.wm.getLsbD (n - 40) = true then
      ((s.crew key).shadow.getD (n - 40) (allLanes 0)).at l
    else ((s.crew key).regs.getD n (allLanes 0)).at l

theorem Still.endsProposal {s u t : State} {key : Nat} {F take : Mask} {pc : Pc} {commit : Lane → Bool} {own : Lane → Thread → Thread}
    (h : Still s u key) (g : EndsProposal u t key F take pc commit own) : EndsProposal s t key F take pc commit own := by
  obtain ⟨ho, hr, hs, ht, ha, hv⟩ := g
  obtain ⟨hregs, -, hshadow, -, -⟩ := h.file
  simp only [h.th, hregs, hshadow] at hs ht ha hv
  exact ⟨h.only.trans ho, by rw [hr, h.rest], hs, ht, ha, hv⟩

/-- THE END OF A PROPOSAL. A crew `d`, which differs from the state's in predicates and, by `own`, in threads, ends the proposals of the
taking lanes, and the instruction finishes. -/
theorem settleProp_finish {s : State} {x : Ctx} {d : Crew} {commit discard : Mask} {yes : Lane → Bool} {own : Lane → Thread → Thread}
    (hrest : d.rest = (s.crew x.key).rest) (hregs : d.regs = (s.crew x.key).regs) (hshadow : d.shadow = (s.crew x.key).shadow)
    (hth : ∀ l, d.th l = own l ((s.crew x.key).th l)) (hmode : ∀ l th, (own l th).pmode = th.pmode ∧ (own l th).wm = th.wm)
    (haway : ∀ l th, inMask x.F l = false → own l th = th) (hsub : ∀ l, inMask x.take l = true → inMask x.F l = true)
    (hcommit : ∀ l, inMask commit l = (inMask x.take l && yes l)) (htake : commit ||| discard = x.take) :
    EndsProposal s ((s.setCrew x.key (d.settleProp commit discard)).finish x) x.key x.F x.take x.pc yes own ∧
      (((s.setCrew x.key (d.settleProp commit discard)).finish x).crew x.key).preds = d.preds := by
  obtain ⟨ho, hr, ⟨hfregs, -, hfshadow, -, hfpreds⟩, ht, ha⟩ := finish_goes (s.setCrew x.key (d.settleProp commit discard)) x
  simp only [State.crew_setCrew_self, id, Crew.rest_settleProp, Crew.shadow_settleProp, Crew.preds_settleProp, Crew.th_settleProp, htake,
    hth, hrest, hshadow] at hr hfregs hfshadow hfpreds ht ha
  refine ⟨⟨(OnlyCrew.setCrew s x.key _).trans ho, hr, hfshadow, fun l hl => ?_, fun l hl => ?_, fun n l hn => ?_⟩, hfpreds⟩
  · rw [ht l hl]
    by_cases hm : inMask x.take l = true <;> simp [hm]
  · have hout : inMask x.take l ≠ true := fun h => by simp [hsub l h] at hl
    rw [ha l hl, if_neg hout, haway l _ hl]
  · obtain ⟨hp, hw⟩ := hmode l ((s.crew x.key).th l)
    rw [hfregs, Crew.at_regs_settleProp d commit discard hn, Crew.moved, inMask_maskOf, hcommit, hth, hp, hw, hregs, hshadow]
    have hcond (w : Bool) : (40 ≤ n ∧ (inMask x.take l && yes l && ((s.crew x.key).th l).pmode && w) = true) ↔
        inMask x.take l = true ∧ yes l = true ∧ ((s.crew x.key).th l).pmode = true ∧ 40 ≤ n ∧ w = true := by
      simp only [Bool.and_eq_true]
      exact ⟨fun ⟨h40, ⟨⟨hm, hy⟩, hpm⟩, hwm⟩ => ⟨hm, hy, hpm, h40, hwm⟩, fun ⟨hm, hy, hpm, h40, hwm⟩ => ⟨h40, ⟨⟨hm, hy⟩, hpm⟩, hwm⟩⟩
    simp only [hcond]

/-! ## PBEGIN (R252) -/

/-- The taking lanes of PBEGIN that are in proposal mode already. -/
def nestedLanes (g : BitVec 3) (s : State) (key : Nat) (F : Mask) : Mask :=
  maskOf fun l => inMask (taking (.pbegin g) s key F) l && ((s.crew key).th l).pmode

section Pbegin
variable {g : BitVec 3} {s : State} {key : Nat} {F : Mask} {pc : Pc} (h : Issues (.pbegin g) s key F pc)
include h

theorem exec_pbegin_of_nested (hn : nestedLanes g s key F ≠ 0) : exec (.pbegin g) s =
    .next ((s.modCrew key fun c => c.noteIssue F (isTret (.pbegin g))).trapWhole (ctxAt (.pbegin g) s key F pc) cPropnest
      (nestedLanes g s key F) (allLanes 0) (allLanes 0)) := by
  refine (h.run _).trans ?_
  simp only [ctxAt_key, State.crew_modCrew_self, Crew.noteIssue_th]
  exact congrArg _ (if_pos hn)

theorem exec_pbegin_of_fresh (hn : nestedLanes g s key F = 0) : exec (.pbegin g) s =
    .next (((s.modCrew key fun c => c.noteIssue F (isTret (.pbegin g))).modCrew key fun c =>
      c.updThr (taking (.pbegin g) s key F) fun _ t => { t with pmode := true, wm := 0 }).finish (ctxAt (.pbegin g) s key F pc)) := by
  refine (h.run _).trans ?_
  simp only [ctxAt_key, State.crew_modCrew_self, Crew.noteIssue_th]
  exact congrArg _ (if_neg fun h => h hn)

end Pbegin

theorem pbegin_traps (g : BitVec 3) (s : State) (key : Nat) (F : Mask) (pc : Pc) (h : Issues (.pbegin g) s key F pc)
    (hn : nestedLanes g s key F ≠ 0) : TrapsWith (.pbegin g) s key F pc 0x0E (nestedLanes g s key F) fun _ => 0 := by
  rw [show (fun _ : Lane => (0 : Word)) = (allLanes 0).at from funext fun l => (at_allLanes 0 l).symm]
  exact TrapsWith.ofTrapWhole (exec_pbegin_of_nested h hn)

theorem pbegin_completes (g : BitVec 3) : Completes (.pbegin g) (fun s key F => nestedLanes g s key F = 0) fun s key F pc t =>
    Goes s t key F id fun l th =>
      if inMask (taking (.pbegin g) s key F) l then { th with pc := pc + 4, pmode := true, wm := 0 } else { th with pc := pc + 4 } := by
  intro s key F pc h hn
  have hsub : ∀ l, inMask (taking (.pbegin g) s key F) l = true → inMask F l = true := fun _ => taking_sub
  exact ⟨_, exec_pbegin_of_fresh h hn, Goes.ofIssue
    (updThr_finish_goes _ (ctxAt (.pbegin g) s key F pc) (fun _ t => { t with pmode := true, wm := 0 }) hsub)⟩

/-! ## PCOMMIT and PDISC (R254) -/

/-- An instruction that ends the proposals of its taking lanes, all in one way. -/
theorem completes_settleProp {i : Instr} (yes : Bool) {commit discard : Mask → Mask}
    (hexec : ∀ s, exec i s = issue i s fun x s => (s.modCrew x.key fun c => c.settleProp (commit x.take) (discard x.take)).finish x)
    (hcommit : ∀ m l, inMask (commit m) l = (inMask m l && yes)) (htake : ∀ m, commit m ||| discard m = m) :
    Completes i always fun s key F pc t => PredsKept s t key ∧
      EndsProposal s t key F (taking i s key F) pc (fun _ => yes) fun _ th => th := by
  intro s key F pc h _
  refine ⟨_, (hexec s).trans (h.run _), ?_⟩
  have hstill := still_noteIssue s key F (isTret i)
  obtain ⟨hends, hpreds⟩ := settleProp_finish (s := s.modCrew key fun c => c.noteIssue F (isTret i)) (x := ctxAt i s key F pc)
    (yes := fun _ => yes) (own := fun _ th => th) rfl rfl rfl (fun _ => rfl) (fun _ _ => ⟨rfl, rfl⟩) (fun _ _ _ => rfl)
    (fun _ hl => taking_sub hl) (hcommit _) (htake _)
  obtain ⟨-, -, -, -, hkept⟩ := hstill.file
  exact ⟨hpreds.trans hkept, hstill.endsProposal hends⟩

theorem pcommit_completes (g : BitVec 3) : Completes (.pcommit g) always fun s key F pc t => PredsKept s t key ∧
    EndsProposal s t key F (taking (.pcommit g) s key F) pc (fun _ => true) fun _ th => th :=
  completes_settleProp true (commit := id) (discard := fun _ => 0) (fun _ => rfl) (by simp) (by simp)

theorem pdisc_completes (g : BitVec 3) : Completes (.pdisc g) always fun s key F pc t => PredsKept s t key ∧
    EndsProposal s t key F (taking (.pdisc g) s key F) pc (fun _ => false) fun _ th => th :=
  completes_settleProp false (commit := fun _ => 0) (discard := id) (fun _ => rfl) (by simp) (by simp)

/-! ## ACCEPT (R253) -/

/-- Does a log ratio accept against the random word `w`? -/
def acceptsRatio (r : Num) (w : Word) : Bool :=
  match r with
  | .nan _ _ _ => false
  | .inf neg => !neg
  | .fin neg m e => !neg || m == 0 || belowExp (2 * (w.extractLsb' 11 53).toNat + 1) m e

/-- A NaN ratio signals NV. -/
def ratioExc (r : Num) : Exc :=
  match r with
  | .nan _ _ _ => 0x10
  | _ => 0

theorem wbits_random (w : Word) : wbits w 63 11 = (w.extractLsb' 11 53).toNat := by
  simp [wbits, bits, BitVec.extractLsb'_toNat]

theorem acceptTest_eq (f : Fmt) (lr : Nat) (w : Word) : acceptTest f lr w = (acceptsRatio (decodeFp f lr) w, ratioExc (decodeFp f lr)) := by
  unfold acceptTest
  cases decodeFp f lr with
  | nan n q fr => rfl
  | inf n => rfl
  | fin n m e =>
    simp only [acceptsRatio, ratioExc, wbits_random]
    cases n
    · rfl
    · by_cases hm : m = 0 <;> simp [hm]

/-- A count that stays at its greatest value (R253). -/
def countUp (n : BitVec 32) : BitVec 32 := if n = 0xFFFFFFFF then n else n + 1

/-- The crew after a decision is written to its predicate and counted in the taking lanes. -/
def Crew.decided (c : Crew) (p : BitVec 3) (take yes : Mask) : Crew :=
  (c.setPred p take yes).updThr take fun l t =>
    { t with pacc := if inMask yes l then countUp t.pacc else t.pacc, ptot := countUp t.ptot }

theorem Crew.rest_decided (c : Crew) (p : BitVec 3) (take yes : Mask) : (c.decided p take yes).rest = c.rest := by
  rw [Crew.decided, Crew.rest_updThr, Crew.rest_setPred]

theorem Crew.bank_decided (c : Crew) (p : BitVec 3) (take yes : Mask) :
    (c.decided p take yes).regs = c.regs ∧ (c.decided p take yes).shadow = c.shadow := by
  obtain ⟨hregs, -, hshadow, -⟩ := Crew.file_setPred c p take yes
  rw [Crew.decided, Crew.updThr_regs, Crew.updThr_shadow]
  exact ⟨hregs, hshadow⟩

theorem Crew.inMask_pred_decided (c : Crew) (p n : BitVec 3) (take yes : Mask) (l : Lane) :
    inMask ((c.decided p take yes).pred n) l = if n ≠ 0 ∧ n = p ∧ inMask take l = true then inMask yes l else inMask (c.pred n) l := by
  rw [← Crew.inMask_pred_setPred]
  simp only [Crew.pred, Crew.decided, Crew.updThr_preds]

/-- What the decision does to a lane's counts. -/
def countLane (take : Mask) (yes : Lane → Bool) (l : Lane) (th : Thread) : Thread :=
  if inMask take l then { th with ptot := countUp th.ptot, pacc := if yes l then countUp th.pacc else th.pacc } else th

theorem countLane_proposal (take : Mask) (yes : Lane → Bool) (l : Lane) (th : Thread) :
    (countLane take yes l th).pmode = th.pmode ∧ (countLane take yes l th).wm = th.wm := by
  rw [countLane]
  split <;> exact ⟨rfl, rfl⟩

/-- The taking lanes that accept. -/
def yesLanes (take : Mask) (yes : Lane → Bool) : Mask := maskOf fun l => inMask take l && yes l

@[simp] theorem inMask_yesLanes (take : Mask) (yes : Lane → Bool) (l : Lane) :
    inMask (yesLanes take yes) l = (inMask take l && yes l) := inMask_maskOf _ l

theorem yesLanes_or_rest (take : Mask) (yes : Lane → Bool) : yesLanes take yes ||| (take &&& ~~~yesLanes take yes) = take :=
  mask_ext fun l => by
    simp only [inMask_or, inMask_and, inMask_not, inMask_yesLanes]
    cases inMask take l <;> simp

theorem Crew.th_decided (c : Crew) (p : BitVec 3) (take : Mask) (yes : Lane → Bool) (l : Lane) :
    (c.decided p take (yesLanes take yes)).th l = countLane take yes l (c.th l) := by
  rw [Crew.decided, Crew.th_updThr, Crew.th_setPred, countLane]
  by_cases hl : inMask take l = true <;> simp [hl]

/-- The effect of ACCEPT once its exceptions are settled: the predicate, the counts, and the end of the proposal. -/
def acceptEffect (p : BitVec 3) (yes : Lane → Bool) (x : Ctx) (u : State) : State :=
  (u.modCrew x.key fun c => (c.decided p x.take (yesLanes x.take yes)).settleProp (yesLanes x.take yes)
    (x.take &&& ~~~yesLanes x.take yes)).finish x

theorem acceptEffect_ends (p : BitVec 3) (yes : Lane → Bool) (x : Ctx) (u : State)
    (hsub : ∀ l, inMask x.take l = true → inMask x.F l = true) :
    EndsProposal u (acceptEffect p yes x u) x.key x.F x.take x.pc yes (countLane x.take yes) ∧
    ∀ n l, inMask (((acceptEffect p yes x u).crew x.key).pred n) l =
      if n ≠ 0 ∧ n = p ∧ inMask x.take l = true then yes l else inMask ((u.crew x.key).pred n) l := by
  obtain ⟨hregs, hshadow⟩ := Crew.bank_decided (u.crew x.key) p x.take (yesLanes x.take yes)
  have haway : ∀ l th, inMask x.F l = false → countLane x.take yes l th = th := fun l th hl => by
    rw [countLane, if_neg fun h => by simp [hsub l h] at hl]
  obtain ⟨hends, hpreds⟩ := settleProp_finish (Crew.rest_decided (u.crew x.key) p x.take (yesLanes x.take yes)) hregs hshadow
    (Crew.th_decided (u.crew x.key) p x.take yes) (countLane_proposal x.take yes) haway hsub (inMask_yesLanes x.take yes)
    (yesLanes_or_rest x.take yes)
  refine ⟨hends, fun n l => ?_⟩
  have hpred : ((acceptEffect p yes x u).crew x.key).pred n =
      ((u.crew x.key).decided p x.take (yesLanes x.take yes)).pred n := by
    rw [Crew.pred, Crew.pred, ← hpreds]
    rfl
  rw [hpred, Crew.inMask_pred_decided]
  refine ite_congr rfl (fun ⟨_, _, hl⟩ => ?_) fun _ => rfl
  rw [inMask_yesLanes, hl, Bool.true_and]

section Accept
variable (y : BitVec 1) (a b : BitVec 6)

/-- A lane's log ratio, in FP64 or, when Y is 1, in FP32. -/
def logRatio (s : State) (key : Nat) (l : Lane) : Num :=
  decodeFp (if y = 1 then fmtS else fmtD)
    (subEl (if y = 1 then 32 else 64) ((s.crew key).src (.fp (if y = 1 then FpType.s else FpType.d)) a l) 0)

/-- Does a lane accept? -/
def acceptsLane (s : State) (key : Nat) (l : Lane) : Bool := acceptsRatio (logRatio y a s key l) (srcInt s key 64 b l)

/-- The test of a lane's sources, by the model's selection of format and width. -/
theorem acceptTest_lane (s : State) (key : Nat) (l : Lane) :
    (let ty : FpType := if y = 1 then .s else .d
     acceptTest (fmtOf ty) (subEl ty.width ((s.crew key).src (.fp ty) a l) 0) ((s.crew key).src kx b l)) =
      (acceptsLane y a b s key l, ratioExc (logRatio y a s key l)) := by
  rw [acceptTest_eq]
  by_cases hy : y = 1
  · simp only [acceptsLane, logRatio, if_pos hy]; rfl
  · simp only [acceptsLane, logRatio, if_neg hy]; rfl

theorem exec_accept (g p : BitVec 3) {s : State} {key : Nat} {F : Mask} {pc : Pc} (h : Issues (.accept g p y a b) s key F pc) :
    exec (.accept g p y a b) s = .next (withExc (ctxAt (.accept g p y a b) s key F pc) (fun l => ratioExc (logRatio y a s key l))
      (acceptEffect p (acceptsLane y a b s key) (ctxAt (.accept g p y a b) s key F pc))
      (s.modCrew key fun c => c.noteIssue F (isTret (.accept g p y a b)))) := by
  refine (h.run _).trans ?_
  simp only [ctxAt_key, State.crew_modCrew_self, Crew.noteIssue_src, at_lanes,
    acceptTest_lane]
  rfl

/-- What ACCEPT leaves, against the flagged state and the predicates before it. -/
theorem acceptEffect_posts (g p : BitVec 3) {s u : State} {key : Nat} {F : Mask} (pc : Pc) {e : Lane → Exc}
    (hu : Still (flagged (.accept g p y a b) s key F e) u key) :
    let t := acceptEffect p (acceptsLane y a b s key) (ctxAt (.accept g p y a b) s key F pc) u
    let take := taking (.accept g p y a b) s key F
    EndsProposal (flagged (.accept g p y a b) s key F e) t key F take pc (acceptsLane y a b s key)
      (countLane take (acceptsLane y a b s key)) ∧
    ∀ n l, inMask ((t.crew key).pred n) l =
      if n ≠ 0 ∧ n = p ∧ inMask take l = true then acceptsLane y a b s key l else inMask ((s.crew key).pred n) l := by
  obtain ⟨hends, hpred⟩ := acceptEffect_ends p (acceptsLane y a b s key) (ctxAt (.accept g p y a b) s key F pc) u
    fun _ hl => taking_sub hl
  obtain ⟨-, -, -, -, hp⟩ := hu.file
  have hkept : ∀ n, (u.crew key).pred n = (s.crew key).pred n := fun n => by
    simp only [Crew.pred, hp, flagged, State.crew_modCrew_self, Crew.updThr_preds]
  exact ⟨hu.endsProposal hends, fun n l => by rw [← hkept]; exact hpred n l⟩

theorem accept_signals (g p : BitVec 3) :
    Signals (.accept g p y a b) (fun s key l => ratioExc (logRatio y a s key l)) fun s key F pc u t =>
      let take := taking (.accept g p y a b) s key F
      EndsProposal u t key F take pc (acceptsLane y a b s key) (countLane take (acceptsLane y a b s key)) ∧
      ∀ n l, inMask ((t.crew key).pred n) l =
        if n ≠ 0 ∧ n = p ∧ inMask take l = true then acceptsLane y a b s key l else inMask ((s.crew key).pred n) l :=
  Signals.of_withExc (fun s key F pc => acceptEffect p (acceptsLane y a b s key) (ctxAt (.accept g p y a b) s key F pc))
    (fun _ _ _ _ h => exec_accept y a b g p h) fun _ _ _ pc _ hu => acceptEffect_posts y a b g p pc hu

end Accept

/-- Settles O56: PBEGIN by its two cases, PCOMMIT and PDISC as ends of a proposal in one way, ACCEPT as an instruction that signals (R163)
whose effect is the predicate, the counts and the end of the proposal. -/
theorem proposals : Obligations.Proposals := fun g p y a b =>
  ⟨pbegin_traps g, pbegin_completes g, pcommit_completes g, pdisc_completes g, accept_signals y a b g p⟩

end Sys2Proof.Machine
end
